-- ==== Sys2Proof/Word.lean ====
section
/-!
DEFINITION. The word types of the Bycel and the sparse table in which every large family of
registers, bytes and records is held (plain data, one canonical form).
-/

namespace Sys2Proof

/-- One byte of a store or of memory (R4: every multi-byte value is little-endian). -/
abbrev Byte := BitVec 8
/-- A 64-bit word: scalar and address registers, Mileposts, addresses (Table 6-2, R233). -/
abbrev W64 := BitVec 64
/-- One 128-bit instruction word (R165, R200). -/
abbrev IWord := BitVec 128

/-- A sparse table: index and value pairs, indexes strictly rising, no entry equal to the value an
unlisted index reads as.  `Tab.get` and `Tab.set` (Machine/Tab.lean) are its only accessors. -/
abbrev Tab (α : Type) := List (Nat × α)

end Sys2Proof
end

