-- ==== Sys2Proof/Syntax.lean ====
section
/-!
DEFINITION. The commands of the Bycel: one constructor of `Instr` per row of spec/opcode_table.json,
with the row's operands.  An engine instruction names the queue that issues it (its word stands in that
queue's instruction memory); an event names the unit it strikes and what comes from outside the part
with it; a request carries what its master writes.
-/

namespace Sys2Proof

/-- Global core number 0-703 (R9, R10). -/
abbrev CoreId := Fin 704
/-- Context k0-k15, and the function that serves it (R12). -/
abbrev CtxId := Fin 16
/-- A die: 0-7 T0-T7, 8 H0, 9 H1 (R231). -/
abbrev DieId := Fin 10
/-- Drawbar port D0-D23 (R9). -/
abbrev PortId := Fin 24

/-- The five queues of a tensor core (R164). -/
inductive Queue where
  | O | T | V | F | U
deriving DecidableEq, Repr

/-- One queue of one core. -/
structure QRef where
  core : CoreId
  queue : Queue
deriving DecidableEq, Repr

/-- An L640 accumulator slot (R66, R67, Table 2-10). -/
structure L640 where
  acc : BitVec 640 := 0
  nan : Bool := false
  pinf : Bool := false
  ninf : Bool := false
  snan : Bool := false
  terms : BitVec 64 := 0
deriving DecidableEq, Repr

/-- A local vote or a job verdict (R352). -/
inductive Vote where
  | accept | reject | squash
deriving DecidableEq, Repr

/-- A transport group of a W128 segment (Table 2-11, R375): 64 words, or none in a stamped segment. -/
structure WGroup where
  anchor : Int := 0
  state : BitVec 256 := 0
  raise : Bool := false
  spfull : Bool := false
  words : List (BitVec 128) := []
deriving DecidableEq, Repr

/-- Caravan message header (Table 11-3); LEN and NENT follow from the payload. -/
structure CHdr where
  mtype : Nat := 0
  form : Nat := 0
  stamp : Bool := false
  bmap : Bool := false
  restarts : Nat := 0
  endB : Bool := false
  sender : Nat := 0
  origin : Nat := 0
  group : Nat := 0
  oprec : Nat := 0
  seg : Nat := 0
  job : Nat := 0
  run : Nat := 0
  epoch : Nat := 0
  pgen : Nat := 0
  offset : Nat := 0
  sumw : Nat := 0
deriving DecidableEq, Repr

/-- Caravan payloads (Table 11-4). -/
inductive CPayload where
  | empty
  | groups (gs : List WGroup) (spill : List L640)
  | sparse (es : List (Nat × L640))
  | bits (bs : List (BitVec 32 × BitVec 128))
  | radd (es : List (Nat × L640))
  | raw (bytes : List Byte)
  | vote (v : Vote) (xseq : Bool)
  | verdict (v : Vote) (xseq : Bool) (run pgen : Nat) (place : Bool)
  /-- what a refusing ACK reports (R402, R447); Table 11-4 gives ACK no payload bytes (log entry 26) -/
  | refusal (hc detail addr : Nat)
deriving DecidableEq, Repr

/-- One Caravan message with its bitmaps (R374). -/
structure CMsg where
  hdr : CHdr := {}
  payload : CPayload := .empty
  contrib : BitVec 4096 := 0
  taint : BitVec 4096 := 0
deriving DecidableEq, Repr

/-- What a training frame carries (Table 15-3): node address, port number and the 16 credit allocations. -/
structure Training where
  node : Nat
  port : Nat
  alloc : List Nat
deriving DecidableEq, Repr

/-- A Drawbar frame (R492, Table 15-4): its body is a message, or a training frame's.  `crcOk` is what the receiver's CRC-32C check finds, `fec` how
many symbols its FEC corrected, and `via` the input port whose receive pool holds a frame that waits to be forwarded (R497); none of these
three is part of the frame. -/
structure DFrame where
  kind : Nat := 0
  vc : Nat := 0
  hops : Nat := 0
  len : Nat := 0
  cvc : Nat := 0
  cred : Nat := 0
  seq : Nat := 0
  ackseq : Nat := 0
  src : Nat := 0
  dst : Nat := 0
  body : CMsg := {}
  training : Option Training := none
  crcOk : Bool := true
  fec : Nat := 0
  via : Option Nat := none
deriving DecidableEq, Repr

/-- A Waybill message (Table 16-6).  `reserved` holds the bits of the reserved fields. -/
structure WbMsg where
  ver : Nat := 1
  op : Nat := 1
  resp : Bool := false
  first : Bool := false
  last : Bool := false
  status : Nat := 0
  seq : Nat := 0
  entry : Nat := 0
  sub : Nat := 0
  hops : Nat := 0
  offset : Nat := 0
  reqlen : Nat := 0
  reserved : Nat := 0
  data : List Byte := []
deriving DecidableEq, Repr

/-- A management ring frame (R518, R520). -/
structure MgFrame where
  ethertype : Nat := 0x88B5
  dst : Nat := 0
  src : Nat := 0
  msg : WbMsg := {}
  /-- bytes after the message, which are ignored (R522) -/
  pad : List Byte := []
deriving DecidableEq, Repr

/-- The path of a Waybill request: a host function, or a source address on the ring (R525). -/
inductive Path where
  | host (fn : CtxId)
  | ring (src : Nat)
deriving DecidableEq, Repr

/-- What a start finds outside the firmware: straps, boot checks of both slots, self-test (R554, R560, R577). -/
structure StartIn where
  mgrSel : Bool := false
  bootSafe : Bool := false
  slotId : Nat := 0
  slot0Ok : Bool := true
  slot1Ok : Bool := true
  copyOk : Bool := true
  /-- the start does not reach step 8 (R574) -/
  hangs : Bool := false
  /-- the PRESENT_N loop opens in this step of Table 18-1, 1 to 6 (R617) -/
  opens : Option Nat := none
  /-- banks of core stores in which the SRAM test finds bad columns: core, bank and their number (R449, R560) -/
  columns : List (Nat × Nat × Nat) := []
  /-- EAUs whose control check fails -/
  eaus : List Nat := []
  /-- global core numbers that fail the self-test -/
  cores : List Nat := []
  slices : List Nat := []
  links : List Nat := []
  hbm : List Nat := []
  /-- per CXL port: state, width, rate, capacity in bytes, device latency in ns (Table 13-7) -/
  cxl : List (List Nat) := []
deriving DecidableEq, Repr

/-- Where the verifier found a package at fault (LOAD_REFUSAL, Table 17-3). -/
structure Refused where
  section_ : Nat
  group : Nat
  queue : Nat
  word : Nat
  row : Nat
deriving DecidableEq, Repr

/-- What the named partner reports for PAIR_GO (R470). -/
structure PartnerIn where
  rank : Nat
  namesRank : Nat
  job : Nat
  domain : Nat
  override : Bool
deriving DecidableEq, Repr

/-- One code image of a package (Table 5-5). -/
structure CodeImage where
  roles : List Nat := []
  queue : Queue := .O
  entry : Nat := 0
  words : List IWord := []
  /-- the bank that the image names (R178); none: the inactive bank, as Table 5-5 lists no bank -/
  bank : Option Bool := none
deriving DecidableEq, Repr

/-- One Milepost that a package lists (Table 5-5, R234, R235). -/
structure MpDecl where
  mp : Nat := 0
  adv : Bool := false
  hostw : Bool := false
  hostp : Bool := false
  homeRole : Nat := 0
deriving DecidableEq, Repr

/-- An Ilumu package (Table 5-5). -/
structure Package where
  target : Bool := true
  invRev : Nat := 0
  phofer : Bool := false
  sealed : Bool := false
  code : List CodeImage := []
  mps : List MpDecl := []
  /-- declared buffers: core roles, base and length in the core store -/
  bufs : List (List Nat × Nat × Nat) := []
  /-- initial Outrider descriptors: core role, core-local address, descriptor -/
  descs : List (Nat × Nat × BitVec 512) := []
deriving DecidableEq, Repr

/-- A signature that verifies: the public key, the digest it signs, and its bytes. -/
structure Sig where
  key : List Byte
  digest : Nat
  sig : List Byte
deriving DecidableEq, Repr

/-- Inputs of a request that come from outside the part or from an analysis or signature check whose
computation the spec does not define. -/
structure Env where
  start : StartIn := {}
  /-- the Ilumu package that the bytes of PACKAGE spell: Table 5-5 gives no byte layout (log entry 7) -/
  pkg : Package := {}
  /-- the seal of a SEALED package verifies under a key of SEAL_KEYS (R186) -/
  sealOk : Bool := true
  /-- what the checks of Table 5-6 report that rest on the toolchain's analysis of paths and of computed values (Holding, Static race, the
  extent of R79), which the spec does not define -/
  static : Option Refused := none
  /-- the signatures that ML-DSA-44 verifies (R562, R579) -/
  sigs : List Sig := []
  /-- the module flash write succeeds (R527, R567) -/
  flashOk : Bool := true
  partner : Option PartnerIn := none
  /-- steps for which every member of the job reaches a COMPLETE copy (R479) -/
  reach : List Nat := []
  /-- the generation to restore carries this configuration digest and Invariance revision (R478) -/
  genDigest : BitVec 256 := 0
  genInvRev : Nat := 0
  /-- the tier of the first source that holds a COMPLETE copy, where no record of this device names one (R480) -/
  source : Nat := 0
  /-- the catalogue image as INGEST_GO reads it from storage (R410) -/
  catalog : List Byte := []
  /-- the firmware block window's bytes (R564) -/
  window : List Byte := []
deriving DecidableEq, Repr

/-- What a die's scan reports: a handshake channel pending beyond WATCHDOG (R595), and what the die's own checkers have found since the last
scan, for which the opcode table has no row (log entry 104). -/
inductive WdHit where
  | core (c : CoreId) (channel : Nat)
  | hub (channel : Nat)
  | traces (channel : Nat)
  /-- a memory controller of the die -/
  | memory (channel : Nat)
  /-- the two Wagonmaster instances disagree (R22) -/
  | wagonmaster
  /-- duplicated control or rounding logic of a core disagrees (R349, Table 10-8 FC) -/
  | logic (c : CoreId)
  /-- a result of a queue's engine fails its residue check, other than a RET's or NORM's (R349) -/
  | residue (q : QRef)
deriving DecidableEq, Repr

/-- What the outputs of a tile replay show: they equal the original's (Table 10-5), and they equal the twin's (R359). -/
structure ReplayCheck where
  identical : Bool
  twinMatch : Bool
deriving DecidableEq, Repr

/-- Where a refusing ACK puts the refusal: the DETAIL of Table 6-20 and the remote device virtual address (R402, R447). -/
structure RefusedAt where
  detail : Nat := 0
  addr : Nat := 0
deriving DecidableEq, Repr

/-- What the checks of a RET or NORM find before its retire point: its residue, and in full redundancy its twin's digest (R349, R358). -/
inductive RetFind where
  | sound
  /-- the residue check fails -/
  | residue
  /-- the residues pass and the twin's outputs have another digest -/
  | twin
deriving DecidableEq, Repr

/-- A contribution that reaches an open accumulator from outside its core, for which the opcode table has no row (R106, R107, R135; log entry 97). -/
inductive Share where
  /-- the L640 slots of another core that shares the tile's reduction, over Traces -/
  | slots (core : CoreId) (slot1 : Bool)
  /-- values read back from an EAU target: the address of output (0, 0), the pitch of the rows, and whether they are W128 elements -/
  | target (va pitch : Nat) (w128 : Bool)
deriving DecidableEq, Repr

/-- What comes to a RET or NORM from outside its queue before its retire point: what its checks find, and the shares that have reached its tile, in
order of arrival. -/
structure RetCheck where
  find : RetFind := .sound
  shares : List Share := []
deriving DecidableEq, Repr

/-- The header of the slot from which a refill reads a chunk: configuration digest, DIGEST and chunk digests (R462). -/
structure SlotHead where
  cfg : BitVec 256 := 0
  digest : BitVec 256 := 0
  chunks : List (BitVec 256) := []
deriving DecidableEq, Repr

/-- The digest of a restored chunk that a member of the job reports (R484). -/
structure Replica where
  rank : Nat := 0
  digest : BitVec 256 := 0
deriving DecidableEq, Repr

/-- What a scrub reads (R448 to R451). -/
inductive MemLoc where
  | dev (k : CtxId) (va : Nat)
  | coreStore (c : CoreId) (addr : Nat)
  | accStore (c : CoreId) (word : Nat)
  | milepost (n : Fin 163840)
  /-- the Milepost of a Ridgepole participant, in the Ridgepole logic of its core (R254, R257) -/
  | participant (k : CtxId) (group : Fin 64) (role : Fin 640) (queue : Queue)
  | commitLog
  | ledger (k : CtxId)
  /-- line `n` of stack or port `unit` that no page of a region holds: a free frame, a save area, or the reserve (R451) -/
  | line (unit : Fin 20) (n : Nat)
deriving DecidableEq, Repr

/-- What a scrub read tells beside the error code: the row of the stack or port, or the column of the bank, in which an error lies, of which the spec
gives no geometry; and whether the line is the last of HBM3E that the pass reads (log entry 85). -/
structure ScrubRead where
  row : Nat := 0
  passEnd : Bool := false
deriving DecidableEq, Repr

/-- What R452 replaces: a row of a stack or port, or a column of a core-store bank. -/
inductive SpareUnit where
  | row (unit : Fin 20) (row : Nat)
  | column (core : CoreId) (bank : Fin 64) (column : Nat)
deriving DecidableEq, Repr

/-- What the error code of a line reports (R448 to R450). -/
inductive Ecc where
  | clean | corrected | uncorrectable
deriving DecidableEq, Repr

/-- How a decode slice ends with a range; what it decodes is no operand, but a function of the range (R415). -/
inductive DecodeRes where
  /-- the slice has worked the range through -/
  | done
  /-- slice control mismatch or parity error (SUB 0x05) -/
  | sliceFault (slice : Nat)
deriving DecidableEq, Repr

/-- The commands: one constructor per row of spec/opcode_table.json, in the table's order. -/
inductive Instr where
  | nop (at_ : QRef) | halt (at_ : QRef) | loop (at_ : QRef) | br (at_ : QRef) | brc (at_ : QRef)
  | bsw (at_ : QRef) | wait (at_ : QRef) | waitmin (at_ : QRef) | mpadv (at_ : QRef) | mpread (at_ : QRef)
  | ridge (at_ : QRef) | bdef (at_ : QRef) | give (at_ : QRef) | take (at_ : QRef) | brel (at_ : QRef)
  | li (at_ : QRef) | sop (at_ : QRef) | sld (at_ : QRef) | sst (at_ : QRef)
  | darm (at_ : QRef) | drearm (at_ : QRef) | dgo (at_ : QRef) | pref (at_ : QRef) | dstop (at_ : QRef)
  | dstat (at_ : QRef)
  | mm (at_ : QRef) | attn (at_ : QRef)
  | vadd (at_ : QRef) | vsub (at_ : QRef) | vmul (at_ : QRef) | vfma (at_ : QRef) | vdiv (at_ : QRef)
  | vsqrt (at_ : QRef) | vrem (at_ : QRef) | vrint (at_ : QRef) | vmin (at_ : QRef) | vmax (at_ : QRef)
  | vcmp (at_ : QRef) | vsel (at_ : QRef) | vcvt (at_ : QRef) | vtrn (at_ : QRef) | viop (at_ : QRef)
  | vld (at_ : QRef) | vst (at_ : QRef) | vxadd (at_ : QRef) | vtid (at_ : QRef) | vbcast (at_ : QRef)
  | vcfg (at_ : QRef) | vflags (at_ : QRef) | vbenc (at_ : QRef)
  | ret (at_ : QRef) (check : RetCheck)
  | norm (at_ : QRef) (check : RetCheck)
  | nsq (at_ : QRef) | cens (at_ : QRef)
  | usgd (at_ : QRef) | umom (at_ : QRef) | uadam (at_ : QRef) | ufact (at_ : QRef)
  | instructionRetire (at_ : QRef)
  | milepostWaitDone (at_ : QRef)
  | takeGrant (at_ : QRef)
  | ridgeComplete (at_ : QRef)
  | tileSlotWaitDone (core : CoreId)
  | bufferTableRecorded (core : CoreId)
  | uIssueWaitDone (core : CoreId)
  | descriptorSlotReady (core : CoreId) (slot : Fin 64)
  | segmentEnd (core : CoreId)
  | replayPassEnd (core : CoreId)
  /-- whether the replay core's residue check passes, and what its outputs show (Table 10-5, R359) -/
  | tileReplayDone (core : CoreId) (residuePass : Bool) (identical : ReplayCheck)
  | transferIssue (core : CoreId) (slot : Fin 64)
  /-- the transfer of `slot` with issue number `n` completes -/
  | transferComplete (core : CoreId) (slot : Fin 64) (n : Nat)
  | pageMapped (core : CoreId) (slot : Fin 64)
  | pageWaitLimitExpire (core : CoreId) (slot : Fin 64)
  | prefConfirm (core : CoreId) (slot : Fin 64)
  /-- the `n`-th advance in transit reaches its home -/
  | milepostAdvanceArrive (n : Nat)
  /-- the `n`-th EAU add in flight is applied -/
  | eauAddApply (n : Nat)
  | gstoreClearDone (k : CtxId) (store : Fin 32)
  | drainLimitExpire (k : CtxId)
  | caravanVote (k : CtxId) (m : CMsg)
  | caravanVerdict (k : CtxId) (m : CMsg)
  | commitFlashWriteDone (k : CtxId)
  | voteLimitExpire (k : CtxId) (epoch rank : Nat)
  | fieldTestRotation (die : Fin 8)
  | coreSwap (out inc : CoreId)
  | fieldTestDone (core : CoreId) (pass : Bool)
  | ftOverdue (core : CoreId)
  | watchdogScan (die : DieId) (hits : List WdHit)
  /-- TEMP sub-entries 0x01-0x1A in 0.01 degrees C, INPUT_MV, INPUT_W averaged over 1 s, COOLANT_IN, COOLANT_FLOW -/
  | powerThermalCheck (temps : List Int) (inputMv inputW : Nat) (coolantIn : Int) (coolantFlow : Nat)
  | scrubLine (loc : MemLoc) (ecc : Ecc) (r : ScrubRead)
  /-- `spare`: the stack has a spare row left; of a column the part knows (R449) -/
  | rowSpare (unit : SpareUnit) (spare : Bool)
  | cxlLinkDown (port : Fin 4)
  | mapPresent (k : CtxId) (va : W64)
  | caravanTrigger (k : CtxId) (op : Fin 1024)
  | caravanStart (k : CtxId) (m : CMsg)
  | caravanDeadlineExpire (k : CtxId) (op : Fin 1024)
  | lateContributionReady (k : CtxId) (op : Fin 1024)
  | caravanSeg (k : CtxId) (m : CMsg)
  | caravanBit (k : CtxId) (m : CMsg)
  | caravanRes (k : CtxId) (m : CMsg)
  | rotationSendTrigger (k : CtxId) (op : Fin 1024)
  | rotationReleaseTrigger (k : CtxId) (op : Fin 1024)
  | caravanRot (k : CtxId) (m : CMsg)
  | caravanRel (k : CtxId) (m : CMsg)
  | caravanSend (k : CtxId) (m : CMsg)
  | caravanRadd (k : CtxId) (m : CMsg)
  /-- the ACK's refusal: 0 none, else the HC code, and where (R402, R447) -/
  | caravanAck (k : CtxId) (m : CMsg) (hc : Nat) (addr : RefusedAt)
  | caravanSample (k : CtxId) (m : CMsg)
  | placeGo (k : CtxId)
  /-- what the DRAINED messages of the other members carry: the digest of each group's pending tables (R400; log entry 108) -/
  | placementDrained (k : CtxId) (theirs : List (Fin 64 × BitVec 256))
  | migDrainLimitExpire (k : CtxId)
  | drawbarDataFrame (p : PortId) (f : DFrame)
  | drawbarCreditFrame (p : PortId) (f : DFrame)
  | drawbarNakFrame (p : PortId) (f : DFrame)
  | drawbarIdleFrame (p : PortId) (f : DFrame)
  | drawbarIdleTimer (p : PortId)
  | drawbarRxTimeout (p : PortId)
  | drawbarResendLimit (p : PortId)
  | drawbarLaneLockLoss (p : PortId) (lane : Fin 8)
  | drawbarLightDetect (p : PortId)
  | drawbarTrainingRetry (p : PortId)
  | drawbarTrainingFrame (p : PortId) (node port : Nat) (alloc : List Nat)
  | bypassLatched (pairB closed : Bool)
  | portCfg (p : PortId) (v : W64)
  | bypassForce (v : Byte)
  | routeGo
  | ingestGo (k : CtxId) (e : Env)
  | storageReadComplete (k : CtxId) (pos : Nat) (bytes : List Byte)
  | shardRetryTimer (k : CtxId) (pos : Nat)
  | decodeComplete (k : CtxId) (pos : Nat) (r : DecodeRes)
  | genStageDone (k : CtxId)
  | genCopyDone (k : CtxId) (ok : Bool)
  | partnerTimeout (k : CtxId)
  | pairGo (k : CtxId) (e : Env)
  | restoreGo (k : CtxId) (e : Env)
  /-- the chunk's digest matches; it equals the replica's (R484) -/
  | refillChunkDone (k : CtxId) (chunk : Nat) (head : SlotHead) (replica : Replica) (bytes : List Byte)
  /-- the tier of the next source that holds G; with none, the step the control plane lowers G to, none when no step qualifies (R481) -/
  | refillSourceFail (k : CtxId) (next lowered : Option Nat)
  | salvageGo
  | holdupChargeLow (percent : Nat)
  | powerFailDetect
  | presentNOpen
  | powerOn (e : StartIn)
  | modResetAssert
  | modResetRelease (e : StartIn)
  | trialTimeout (e : StartIn)
  | restartGo (e : StartIn)
  | shEnter
  | shExit (e : StartIn)
  | wbGo (fn : CtxId) (seq : Nat) (m : WbMsg) (e : Env)
  | mgFrameReceive (port1 : Bool) (f : MgFrame) (e : Env)
  | wbRead (p : Path) (entry sub : Nat)
  | wbReadBlock (p : Path) (entry sub offset reqlen : Nat)
  | wbWrite (p : Path) (entry sub : Nat) (data : List Byte) (e : Env)
  | wbTxnOpen (p : Path) (entry sub offset : Nat) (data : List Byte)
  | wbWriteBlock (p : Path) (entry sub offset : Nat) (data : List Byte)
  | wbTxnApply (p : Path) (entry sub offset : Nat) (data : List Byte) (e : Env)
  | wbTxnTimeout (p : Path)
  | hostMpWindowWrite (fn : CtxId) (offset : Fin 131072) (data : List Byte)
  | evConsWrite (fn : CtxId) (v : W64)
  /-- FB_OFFSET and FB_LEN as the host has written them, and the window (Table 18-4) -/
  | fbGo (offset len : Nat) (e : Env)
  | actTag (v : W64)
  | ownerToken (token : List Byte) (e : Env)
  | ownerKey (key : List Byte)
  | attestNonce (nonce : BitVec 256)
  | pitch (slot : Byte)
  | pitchApply
  | ctxOpenGo (k : CtxId) (e : Env)
  | loadGo (k : CtxId) (e : Env)
  | startGo (k : CtxId)
  | saveGo (k : CtxId)
  | resumeGo (k : CtxId)
  | teardownGo (k : CtxId)
  | vfDisable (fn : CtxId)
  | abortGo
  | shareGo
  | postRearm (k : CtxId) (mp : BitVec 16)
  | stepGroup (k : CtxId) (v : Byte)
  | flrVf (fn : CtxId)
  | flrPf0
  | hostHotReset
  | hlPerstN
  | tapReset
  /-- the boundary cells' values shifted in -/
  | extest (cells : List Bool)
  | idcode
  | samplePreload (cells : List Bool)
  | clamp
  | highz
  | extestPulse (cells : List Bool)
  | extestTrain (cells : List Bool)
  | dieSelect (v : BitVec 16)
  | intScan (bits : List Bool)
  | bypass
  | tracesLinkFailure (link : Fin 26)
  | vfEnable (fn : CtxId)
  | storageReadTimeout (k : CtxId) (pos : Nat)
  | jobResumable (k : CtxId)
deriving DecidableEq, Repr

end Sys2Proof
end

