-- ==== Sys2Proof/Decode.lean ====
section
/-! DEFINITION. The commands that spec/opcode_table.json spells in bits: none, since no row of it has bits.  The fields
of an engine instruction's 128-bit word are read in Machine/Operands.lean. -/

namespace Sys2Proof

/-- No row of the table gives bits, so no word spells a command. -/
def decodeTableWord (_nbits _w : Nat) : Option Instr := none

end Sys2Proof
end

