-- ==== Sys2Proof/Machine/Tab.lean ====
section
/-!
DEFINITION. Reading and writing a sparse table, its canonical form, and the bit-field, byte-order and
sign-extension helpers that the meanings use.
-/

namespace Sys2Proof

variable {α : Type}

/-- The value at index `i`: the listed one, else the default `d`. -/
def Tab.get (d : α) : Tab α → Nat → α
  | [], _ => d
  | (k, v) :: t, i => if i = k then v else Tab.get d t i

/-- Insert a listed value in index order. -/
def Tab.ins : Tab α → Nat → α → Tab α
  | [], i, x => [(i, x)]
  | (k, v) :: t, i, x =>
    if i < k then (i, x) :: (k, v) :: t
    else if i = k then (i, x) :: t
    else (k, v) :: Tab.ins t i x

/-- Drop index `i`. -/
def Tab.del : Tab α → Nat → Tab α
  | [], _ => []
  | (k, v) :: t, i => if i = k then Tab.del t i else (k, v) :: Tab.del t i

/-- Write `x` at index `i`, keeping the canonical form: a default value is not listed. -/
def Tab.set [DecidableEq α] (d : α) (t : Tab α) (i : Nat) (x : α) : Tab α :=
  if x = d then Tab.del t i else Tab.ins t i x

/-- Every index of `t` is above `n`, they rise strictly, and no value is the default. -/
def Tab.wfFrom [DecidableEq α] (d : α) : Option Nat → Tab α → Bool
  | _, [] => true
  | lo, (k, v) :: t => (match lo with | none => true | some n => decide (n < k)) && decide (v ≠ d) && Tab.wfFrom d (some k) t

/-- The canonical form: indexes strictly rising, no default listed. -/
def Tab.wf [DecidableEq α] (d : α) (t : Tab α) : Bool := Tab.wfFrom d none t

/-- The canonical form of a memory: an unlisted byte reads as 0 (log entry 50). -/
def Memory.wf (m : Tab Byte) : Bool := Tab.wf 0 m

/-- Change the value at `i` by `f`. -/
def Tab.upd [DecidableEq α] (d : α) (t : Tab α) (i : Nat) (f : α → α) : Tab α :=
  Tab.set d t i (f (Tab.get d t i))

/-- The listed pairs of consecutive values from index `i`. -/
def Tab.seg [DecidableEq α] (d : α) : Nat → List α → Tab α
  | _, [] => []
  | i, x :: xs => if x = d then Tab.seg d (i + 1) xs else (i, x) :: Tab.seg d (i + 1) xs

/-- Write consecutive values from index `i`. -/
def Tab.setRange [DecidableEq α] (d : α) (t : Tab α) (i : Nat) (xs : List α) : Tab α :=
  (t.filter fun e => decide (e.1 < i)) ++ (Tab.seg d i xs ++ t.filter fun e => decide (i + xs.length ≤ e.1))

/-- Read `n` consecutive values from index `i`. -/
def Tab.getRange (d : α) (t : Tab α) (i n : Nat) : List α := (List.range n).map fun j => Tab.get d t (i + j)

/-- Drop every index in [lo, hi). -/
def Tab.clearRange (t : Tab α) (lo hi : Nat) : Tab α := t.filter fun e => !(decide (lo ≤ e.1) && decide (e.1 < hi))

namespace Bits

/-- Bits [lo + width - 1 : lo] of `x` (R5). -/
def fld (x lo width : Nat) : Nat := (x >>> lo) % 2 ^ width

/-- One bit of `x`. -/
def bit (x lo : Nat) : Bool := fld x lo 1 == 1

/-- `x` read as a signed field of `width` bits. -/
def signed (x width : Nat) : Int := if x % 2 ^ width < 2 ^ (width - 1) then (x % 2 ^ width : Nat) else (x % 2 ^ width : Nat) - 2 ^ width

/-- `i` as a two's complement field of `width` bits. -/
def wrap (i : Int) (width : Nat) : Nat := (i % 2 ^ width).toNat

/-- Little-endian value of a byte list (R4). -/
def ofBytes : List Byte → Nat
  | [] => 0
  | b :: bs => b.toNat + 256 * ofBytes bs

/-- The `n` little-endian bytes of `x` (R4). -/
def toBytes : Nat → Nat → List Byte
  | 0, _ => []
  | n + 1, x => BitVec.ofNat 8 x :: toBytes n (x / 256)

/-- `0x1` for true. -/
def ofBool (b : Bool) : Nat := if b then 1 else 0

/-- Fields laid side by side from bit 0: the width and value of each. -/
def pack : List (Nat × Nat) → Nat
  | [] => 0
  | (w, v) :: t => v % 2 ^ w + 2 ^ w * pack t

/-- ceil(a / b). -/
def cdiv (a b : Nat) : Nat := (a + b - 1) / b

/-- The least `n` with 2^n at least `x`; 0 for 0 and 1. -/
def clog2 (x : Nat) : Nat := if x ≤ 1 then 0 else Nat.log2 (x - 1) + 1

end Bits

/-- `n` is at most its bound, as a saturating counter (Table 2-10, Table 6-17). -/
def sat (n bound : Nat) : Nat := min n bound

/-- A value between two bounds (R86, R322). -/
def clampI (x lo hi : Int) : Int := max lo (min x hi)

end Sys2Proof
end

