-- ==== Sys2Proof/Machine/Sha3.lean ====
section
/-!
DEFINITION. SHA3-256 (R367, R400, R461, R462, R565): the spec names the digest and does not define it; this is the function of
FIPS 202 (log entry 22).
-/

namespace Sys2Proof.Sha3

/-- A lane: 64 bits; the state is 25 of them, lane (x, y) at 5 y + x. -/
abbrev Lanes := List (BitVec 64)

def lane (a : Lanes) (x y : Nat) : BitVec 64 := a.getD (5 * (y % 5) + x % 5) 0

def ofFn (f : Nat → Nat → BitVec 64) : Lanes := (List.range 25).map fun i => f (i % 5) (i / 5)

def rotl (v : BitVec 64) (n : Nat) : BitVec 64 := v.rotateLeft (n % 64)

/-- Where the walk of step ρ stands after `t` moves from lane (1, 0): (x, y) goes to (y, 2x + 3y). -/
def walk : Nat → Nat × Nat
  | 0 => (1, 0)
  | t + 1 => let p := walk t; (p.2, (2 * p.1 + 3 * p.2) % 5)

/-- Rotation of lane (x, y) in step ρ: the triangular number of its place in the walk; lane (0, 0) is not turned. -/
def offset (x y : Nat) : Nat :=
  match (List.range 24).find? fun t => walk t == (x % 5, y % 5) with
  | some t => (t + 1) * (t + 2) / 2 % 64
  | none => 0

/-- The shift register of step ι after `t` steps, as the byte of its eight cells, cell 0 lowest: it feeds back x^8 + x^6 + x^5 + x^4 + 1. -/
def register : Nat → Nat
  | 0 => 1
  | t + 1 => let r := 2 * register t; if 256 ≤ r then r ^^^ 0x171 else r

/-- The constant of round `i` in step ι: bit 2^j - 1 is the register's output after 7 i + j steps. -/
def constant (i : Nat) : BitVec 64 :=
  (List.range 7).foldl (fun v j => if register (7 * i + j) % 2 = 1 then v ||| BitVec.ofNat 64 (2 ^ (2 ^ j - 1)) else v) 0

/-- The parity of column `x`, which step θ spreads. -/
def parity (a : Lanes) (x : Nat) : BitVec 64 := ((List.range 5).map (lane a x)).foldl (· ^^^ ·) 0

/-- Step θ. -/
def theta (a : Lanes) : Lanes := ofFn fun x y => lane a x y ^^^ parity a (x + 4) ^^^ rotl (parity a (x + 1)) 1

/-- Steps ρ and π: lane (x, y) takes the turned lane (x + 3y, x). -/
def rhoPi (a : Lanes) : Lanes := ofFn fun x y => rotl (lane a (x + 3 * y) x) (offset (x + 3 * y) x)

/-- Step χ. -/
def chi (a : Lanes) : Lanes := ofFn fun x y => lane a x y ^^^ (~~~(lane a (x + 1) y) &&& lane a (x + 2) y)

/-- Round `i` of the permutation, step ι last. -/
def round (a : Lanes) (i : Nat) : Lanes := (chi (rhoPi (theta a))).modifyHead (· ^^^ constant i)

def permute (a : Lanes) : Lanes := (List.range 24).foldl round a

/-- Bytes absorbed in one block. -/
def rate : Nat := 136

/-- Absorb one block of `rate` bytes. -/
def absorb (a : Lanes) (blk : List Byte) : Lanes :=
  permute (a.zipIdx.map fun (v, i) => if i < 17 then v ^^^ BitVec.ofNat 64 (Bits.ofBytes ((blk.drop (8 * i)).take 8)) else v)

/-- The message with its padding. -/
def pad (m : List Byte) : List Byte :=
  let n := rate - m.length % rate
  if n = 1 then m ++ [0x86] else m ++ [0x06] ++ List.replicate (n - 2) 0 ++ [0x80]

/-- Absorb `n` blocks. -/
def absorbAll : Nat → Lanes → List Byte → Lanes
  | 0, a, _ => a
  | n + 1, a, m => absorbAll n (absorb a (m.take rate)) (m.drop rate)

/-- The 32 bytes of the digest as a little-endian number (R4). -/
def digest (m : List Byte) : Nat :=
  let p := pad m
  let a := absorbAll (p.length / rate) (List.replicate 25 0) p
  (a.take 4).zipIdx.foldl (fun n e => n + e.1.toNat * 2 ^ (64 * e.2)) 0

end Sys2Proof.Sha3
end

