-- ==== Sys2Proof/Config.lean ====
section
/-!
DEFINITION. What the spec leaves open: uninterpreted constants (no body, so that no proof can lean on a
value), and the identity values of a part that the spec calls device-set ("-" in the Default columns).
Each is named in an entry of notes/assumptions.
-/

namespace Sys2Proof

/-- A decoded picture before R413's crop and R414's weave: which field it is (`none`: a frame; top or not), its planes (width, height, row-major
samples), and the conformance window, or AV1's render size, in luma samples. -/
structure Picture where
  field : Option Bool
  planes : List (Nat × Nat × List Nat)
  x0 : Nat
  y0 : Nat
  w : Nat
  h : Nat
deriving DecidableEq, Repr

/-- What a standard's decoding process makes of a range: the pictures in presentation order, their bit depth, their chroma (0 4:2:0, 1 4:2:2,
2 4:4:4), and the range flag where the stream signals one (full or not). -/
structure Decoded where
  pics : List Picture
  bits : Nat
  chroma : Nat
  range : Option Bool
  /-- the samples are binary64 words: what JPEG 2000's 9/7 transform gives before R413's last rounding -/
  lifted : Bool := false
deriving DecidableEq, Repr

end Sys2Proof

namespace Sys2Proof.Config

/-- Which of the results that the error bound of R159 admits a VTRN returns: function `fn` of Table 4-8 on the operand bits `x`
(`p`: binary64); R159 bounds the error and gives no value (log entry 2). -/
opaque vtrn (fn : Nat) (p : Bool) (x : Nat) : Nat

/-- The ML-DSA-44 signature, 2,420 bytes, of the identity key over a digest (R583); the key is the part's (log entry 5). -/
opaque identitySig (digest : Nat) : Nat

/-- The four firmware public keys of the boot ROM, by KEYIDX (R562; the part's, log entry 51). -/
opaque firmwareKey (idx : Nat) : List (BitVec 8)

/-- The public key of the identity key pair (R581; the part's, log entry 51). -/
opaque deviceKey : List (BitVec 8)

/-- The certificates of the identity key, leaf first, by the key, SERIAL and PART_CODE that the leaf names (R582; the part's, log entry 51). -/
opaque certChain (key : List (BitVec 8)) (serial part : Nat) : List (List (BitVec 8))

/-- By how much the counter of die `die` rises during one count of H0's, by the number of starts and H0's count (R593; log entry 1). -/
opaque dieCounts (die starts count : Nat) : Nat

/-- The LOCAL_COUNT that a scan leaves in a die, by the scan's free value (R608; log entry 6). -/
opaque scannedCount (die n : Nat) : Nat

/-- The level of a lane that a boundary cell captures (R606; log entry 6). -/
opaque laneLevel (n : Nat) : Bool

/-- Bytes that a held effect takes in the effect queue, by its kind (0 event, 1 post, 2 SEND, 3 storage write) and its number: R345 gives the
queue's size alone (log entry 113). -/
opaque effectBytes (kind n : Nat) : Nat

/-- The body of a training frame, by node address, port number and credit allocations: R492 gives it no layout (log entry 75). -/
opaque trainingBytes (node port : Nat) (alloc : List Nat) : List (BitVec 8)

/-- The bit a scanned die shifts out at TDO (R608: the order of its internal chains is not given; log entry 6). -/
opaque scanOut (n : Nat) : Bool

/-- DETAIL of a fault record that holds a syndrome or a residue pair (Table 10-9), which the spec does not compute, by the record's event
number (log entry 32). -/
opaque faultDetail (n : Nat) : Nat

/-- Where a keyed crop lies in a chroma plane whose size is no whole share of the luma crop, and its length there, by the luma origin and
size, and the plane's and the luma's length: R418 gives no rule (log entry 36). -/
opaque chromaCrop (origin size plane luma : Nat) : Nat × Nat

/-- A token element whose MEAN is not finite: the spec states no value (log entry 38). -/
opaque normBeyond (mean v : Nat) : Nat

/-- The reason code of a VOID_LOG entry, by cause: 1 R417, 2 crop (R418), 3 area kernel (R416), 4 SUB 0x04, 5 CODEC (Table 12-3) (log entry 39). -/
opaque voidReason (cause : Nat) : Byte

/-- What the rate monitor of a Tensor die reports (R590), by die, core supply in mV, DELAY_MARGIN step and local count: Table 4-9 gives
rates for five supplies and two temperatures (log entry 42). -/
opaque cellRate (die vset margin count : Nat) : Nat

/-- The measured core supply of a die in mV, by die, CORE_VSET and local count (log entry 42). -/
opaque coreMv (die vset count : Nat) : Nat

/-- The decoding process of the standard that CODEC and CONT name, with R413's fixed inverse DCT, 9/7 transform and film grain, on the bytes of
a range (`stream`: PID or track_ID): the standards of Tables 12-4 and 12-5 stand outside the spec. It is a function of these alone, which is R415;
`none` where the range breaks its container's conditions or its profile (log entry 114). -/
opaque decode (codec cont stream : Nat) (grain : Bool) (range : List Byte) : Option Decoded

/-- The logical block size of a namespace of a storage target, which the target reports (R411; log entry 115). -/
opaque blockSize (target nsid : Nat) : Nat

end Sys2Proof.Config
end

