-- ==== Sys2Proof/Machine/State.lean ====
section
/-!
DEFINITION. The state of the Bycel: every register, store, queue, record and mode that the spec names, as plain
data.  Large families are sparse tables (`Tab`); an entry of the Waybill dictionary has one home, `wbv` (values) or
`wbb` (bytes of a BLOB), unless its own chapter gives it a structure here.
-/

namespace Sys2Proof.Machine

/-- Queue states (Table 5-2). -/
inductive QState where
  | idle | running | waiting | draining | halted
deriving DecidableEq, Repr

/-- Context states (Table 5-9). -/
inductive CtxState where
  | free | loaded | running | halted | saved | draining
deriving DecidableEq, Repr

/-- Epoch states (Table 10-1). -/
inductive EpochState where
  | opened | closed | committing | committed | skipped | squashed | held
deriving DecidableEq, Repr

/-- Milepost states (Table 7-1). -/
inductive PmpState where
  | free | live | frozen | poisoned
deriving DecidableEq, Repr

/-- Descriptor slot states (Table 8-4). -/
inductive SlotState where
  | empty | armed | running | prefetching | held | paused
deriving DecidableEq, Repr

/-- Tile-slot states (R151). -/
inductive TileState where
  | free | accumulating | retiring
deriving DecidableEq, Repr

/-- The passes of the replay ladder that a cell still needs (Table 3-3). -/
inductive Plan where
  | reanchor
  | twoFirst
  | twoSecond
  /-- slice `n` of the continuation, from 2 -/
  | slice (n : Nat)
deriving DecidableEq, Repr

/-- Why a tile is replayed (Table 10-5, R359). -/
inductive Trigger where
  | residue | nonfinite | twin
deriving DecidableEq, Repr

/-- What a queue waits for. -/
inductive Wait where
  | milepost | take | ridge | tileSlot | bufTable | uIssue | unconfirmed
  | slot (ds : Nat)
  /-- a retire held for a tile replay: 0 before the first has failed, then one more than the place of its die in the order of R350; the trigger;
  and the spare on which the replay runs, none while it waits for one -/
  | replay (after : Nat) (trigger : Trigger) (spare : Option Nat)
deriving DecidableEq, Repr

/-- An instruction bank (R177, R179): the words of the last completed load, its entry word, and valid. -/
structure Bank where
  words : List IWord := []
  entry : Nat := 0
  valid : Bool := false
deriving DecidableEq, Repr

/-- One stream of a loop frame (Table 5-4). -/
structure Stream where
  reg : Nat := 0
  inc : BitVec 32 := 0
  save : W64 := 0
deriving DecidableEq, Repr

/-- A loop frame l0-l5 (Table 5-4). -/
structure Frame where
  streams : List Stream := []
  active : Bool := false
  last : Nat := 0
  start : Nat := 0
  iter : BitVec 32 := 0
  trip : BitVec 32 := 0
deriving DecidableEq, Repr

/-- ADD or RAISE (R211). -/
inductive AdvMode where
  | add | raise
deriving DecidableEq, Repr

/-- An advance on its way to its Milepost's home (R232, R241, R246). -/
structure Adv where
  src : Option QRef := none
  k : Nat := 0
  mp : Nat := 0
  pmp : Nat := 0
  mode : AdvMode := .add
  amount : Nat := 0
  epoch : Option Nat := none
deriving DecidableEq, Repr

/-- What an issued instruction still waits for before its retire point (Table 5-1). -/
inductive Work where
  /-- nothing: it retires as soon as every earlier instruction has -/
  | now
  | dgo (ds : Nat)
  | pref (ds : Nat)
  | array
  | attn
  /-- EAU adds in flight, and the retire record that NSQ writes at the end -/
  | adds (rec : Nat)
  /-- SENDs of a U instruction's writes into remote windows, until their ACKs return (R447) -/
  | sends
deriving DecidableEq, Repr

/-- An issued instruction that has not reached its retire point (R166, R168). -/
structure InFlight where
  id : Nat := 0
  word : IWord := 0
  bank : Bool := false
  pc : Nat := 0
  work : Work := .now
  /-- the advances it applies at its retire point, in the order of R203 and R279 -/
  advs : List (Nat × AdvMode × Nat) := []
  epoch : Option Nat := none
  /-- the queue's registers as the instruction found them, kept where it uses them again at its retire point -/
  regs : Tab W64 := []
deriving DecidableEq, Repr

/-- A halt record (Table 5-7); VALID is its presence. -/
structure HaltRec where
  addr : Nat := 0
  detail : Nat := 0
  hc : Nat := 0
  core : Nat := 0
  ctx : Nat := 0
  queue : Nat := 0
  bank : Bool := false
  pc : Nat := 0
deriving DecidableEq, Repr

/-- One transfer that Outrider has issued and whose last byte is not yet written (R283, R284). -/
structure Xfer where
  n : Nat := 0
  src : Nat := 0
  dst : Nat := 0
  len : Nat := 0
  i2 : Nat := 0
  i1 : Nat := 0
  off : Nat := 0
  lastOfRun : Bool := false
  /-- ACKs of a remote window's member that are still to come (R401) -/
  acks : Nat := 0
deriving DecidableEq, Repr

/-- The chunk that a slot runs: the position of its next transfer (R276, R298) and what is outstanding. -/
structure ChunkRun where
  pref : Bool := false
  /-- the identity of the DGO or PREF that runs it -/
  instr : Nat := 0
  /-- the confirming Milepost of a PREF had reached the value when it issued (R291) -/
  reached : Bool := false
  /-- confirming Milepost and value of a PREF (R291) -/
  mp : Nat := 0
  value : W64 := 0
  epoch : Option Nat := none
  i2 : Nat := 0
  i1 : Nat := 0
  off : Nat := 0
  issued : Bool := false
  next : Nat := 0
  out : List Xfer := []
deriving DecidableEq, Repr

/-- A descriptor slot (R215, R287): descriptor bits of Table 8-1, the address they were loaded from, and its state. -/
structure DSlot where
  st : SlotState := .empty
  desc : BitVec 512 := 0
  addr : Nat := 0
  chunk : Nat := 0
  passes : Nat := 0
  pend : Option (BitVec 512 × Nat) := none
  pff : Bool := false
  run : Option ChunkRun := none
deriving DecidableEq, Repr

/-- The entry state of a queue for an epoch (R347). -/
structure EntryState where
  epoch : Nat := 0
  pc : Nat := 0
  bank : Bool := false
  regs : Tab W64 := []
  frames : Tab Frame := []
  slots : Tab DSlot := []
deriving DecidableEq, Repr

/-- An engine queue (R164, R170).  `regs` is keyed by the register name of Table 6-2. -/
structure QueueSt where
  st : QState := .idle
  wait : Option Wait := none
  pc : Nat := 0
  bank : Bool := false
  bank0 : Bank := {}
  bank1 : Bank := {}
  regs : Tab W64 := []
  frames : Tab Frame := []
  inflight : List InFlight := []
  halt : Option HaltRec := none
  /-- the last round of the step group whose RIDGE the queue has retired (R338) -/
  round : Nat := 0
  entries : List EntryState := []
deriving DecidableEq, Repr

/-- A buffer table entry (R172, R173): holders and outstanding offers (mode write, and the queue it names). -/
structure Buf where
  base : Nat := 0
  len : Nat := 0
  writer : Option Queue := none
  readers : List Queue := []
  offers : List (Bool × Queue) := []
deriving DecidableEq, Repr

/-- A tile slot of the accumulation store (R151): output (i, j) is entry 128 i + j. -/
structure Tile where
  st : TileState := .free
  attn : Bool := false
  mr : Nat := 0
  nc : Nat := 0
  acc : Tab L640 := []
  extent : Nat := 0
  /-- handshakes that the tile's segments have been charged, before the minimum for the tile (R116) -/
  hs : Nat := 0
  segs : Nat := 0
  replays : Nat := 0
  /-- attention: the second pass is open (R131), its rows' REF values, and the row-record base -/
  second : Bool := false
  refs : Tab (BitVec 32) := []
  rows : Nat := 0
  /-- slots of the accumulation store with an uncorrectable error, by output 128 i + j (R449, R450) -/
  poison : List Nat := []
deriving DecidableEq, Repr

/-- An operand: format, block size, whether its elements lie along the reduction dimension, base and pitch. -/
structure Opnd where
  f : Nat
  bs : Nat
  along : Bool
  base : Nat
  pitch : Nat
deriving DecidableEq, Repr

/-- What ATTN takes from its word and registers (Table 6-12). -/
structure AttnOps where
  opened : Bool
  mr : Nat
  d : Nat
  keys : Nat
  cw : Nat
  qo : Opnd
  ko : Opnd
  vo : Opnd
  ql : Nat
  kl : Nat
  rr : Nat
  pb : Nat
  reg : Nat
deriving DecidableEq, Repr

/-- The state of an array cell (Table 2-9). -/
structure Cell where
  win : BitVec 144 := 0
  nan : Bool := false
  pinf : Bool := false
  ninf : Bool := false
  lo : Bool := false
  hi : Bool := false
  snan : Bool := false
deriving DecidableEq, Repr

/-- The segment work of the MM or ATTN that the array runs (R82, R95 to R100). -/
structure ArrayJob where
  tile : Nat := 0
  fa : Nat := 0
  fb : Nat := 0
  bsa : Nat := 0
  bsb : Nat := 0
  ta : Bool := false
  tb : Bool := false
  aBase : Nat := 0
  bBase : Nat := 0
  aPitch : Nat := 0
  bPitch : Nat := 0
  mr : Nat := 0
  nc : Nat := 0
  /-- gathered row indices, in row order; empty when A is not gathered -/
  idx : List Nat := []
  /-- segments still to run: first product and product count -/
  segs : List (Nat × Nat) := []
  /-- cells of the running segment that a replay still repairs -/
  cells : List (Nat × Plan) := []
  /-- K of the instruction -/
  kk : Nat := 0
  /-- the attention that the array runs; its segments are then ranges of keys, `tile` is 0 while their scores run and 1 while their numerators do,
  and the rows that its end completes are counted, of a max-free and of a second pass (log entry 97) -/
  attn : Option AttnOps := none
  mfRows : Nat := 0
  spRows : Nat := 0
deriving DecidableEq, Repr

/-- A tensor core (R164; R147, R151, R153, R172, R215). -/
structure Core where
  ctx : Option Nat := none
  role : Nat := 0
  qO : QueueSt := {}
  qT : QueueSt := {}
  qV : QueueSt := {}
  qF : QueueSt := {}
  qU : QueueSt := {}
  store : Tab Byte := []
  /-- exponent summaries (R84, R150), held by the byte that recorded them; `none` is empty -/
  summ : Tab (Option Int) := []
  /-- poisoned 64-byte lines of the core store (R450) -/
  poison : Tab Bool := []
  bufs : Tab (Option Buf) := []
  /-- the buffer table recorded for an epoch (R347) -/
  bufRec : List (Nat × Tab (Option Buf)) := []
  tile0 : Tile := {}
  tile1 : Tile := {}
  job : Option ArrayJob := none
  /-- cell states of the running segment as the last pass left them (R64, R83, Table 2-9), by cell 128 i + j -/
  cells : Tab Cell := []
  slots : Tab DSlot := []
  /-- active context slots (R154); the spec gives no reset value (log entry 8) -/
  vslots : Nat := 64
  /-- vector registers, thread 64 + register; sticky flags by thread (R153); the spec gives neither an initial value, and both start at
  zero (log entry 50) -/
  vregs : Tab (BitVec 32) := []
  vflags : Tab (BitVec 5) := []
deriving DecidableEq, Repr

/-- A physical Milepost (Table 7-1).  `abort`: poisoned by an abort (R198). -/
structure Pmp where
  owner : Nat := 0
  spec : Bool := false
  st : PmpState := .free
  pend1 : Nat := 0
  pend0 : Nat := 0
  cval : Nat := 0
  abort : Bool := false
deriving DecidableEq, Repr

/-- A Milepost translation entry (Table 7-2). -/
structure MpEntry where
  valid : Bool := false
  hostp : Bool := false
  hostw : Bool := false
  adv : Bool := false
  shared : Bool := false
  pmp : Nat := 0
deriving DecidableEq, Repr

/-- A participant Milepost of a Ridgepole group (R254). -/
structure Part where
  val : Nat := 0
  pend1 : Nat := 0
  pend0 : Nat := 0
  poisoned : Bool := false
deriving DecidableEq, Repr

/-- A census record (Table 9-4). -/
structure Census where
  elems : Nat := 0
  zero : Nat := 0
  under : Nat := 0
  nonfin : Nat := 0
  crush : Nat := 0
  sat : Nat := 0
  stall : Nat := 0
  qrun : Nat := 0
  seen : Bool := false
deriving DecidableEq, Repr

/-- A held effect (R345). -/
inductive Effect where
  | event (code die data : Nat)
  | post (mp : Nat)
  | send (group rank : Nat) (m : CMsg)
  | storage (what : Nat)
deriving DecidableEq, Repr

/-- A deadline record (R368): bucket, contributors, divisor. -/
structure DeadlineRec where
  bucket : Nat := 0
  contrib : BitVec 4096 := 0
  divisor : Nat := 0
deriving DecidableEq, Repr

/-- An epoch of a context (R335, R340; the overlays, counts and verdicts held with it). -/
structure Epoch where
  n : Nat := 0
  st : EpochState := .opened
  run : Nat := 0
  /-- it has been opened before, and the runs of device memory that transfers have written since it opened again (R398) -/
  rerun : Bool := false
  wrote : List (Nat × Nat) := []
  dpos : Nat := 0
  rbank : Nat := 0
  wbank : Nat := 0
  /-- provisional bank-map bytes, tensor to bank (R304, Table 10-3) -/
  overlay : Tab (Option Nat) := []
  census : Tab Census := []
  /-- element writes of U instructions by tensor (R306) -/
  writes : Tab Nat := []
  effects : List Effect := []
  /-- held effects that the entry into Safe Hold discarded at step 11, listed in the fault report (R357) -/
  dropped : List Effect := []
  resfail : Nat := 0
  repl : Nat := 0
  nfReplays : Nat := 0
  xseq : Bool := false
  /-- numeric evidence of R326, or a malformed block (R352) -/
  evidence : Bool := false
  /-- a cause of Table 10-4 has struck -/
  struck : Bool := false
  void : BitVec 3 := 0
  drecs : List DeadlineRec := []
  /-- ports over which the epoch has sent a frame of VC2-VC13 or VC15 (R502) -/
  ports : List Nat := []
  /-- votes that have reached this member as the seat of the control plane: rank, vote, cross-sequence mark -/
  votes : List (Nat × Vote × Bool) := []
  voted : Bool := false
  /-- the job verdict, from the commit point on -/
  verdict : Vote := .accept
  /-- the residue verdict is REPAIRED -/
  repaired : Bool := false
  /-- step 11 of Table 10-6 waits for a flash write of the commit log, or for the generation of this step -/
  flashWait : Bool := false
  genWait : Bool := false
  /-- the generation of this step was due at step 11 and has been taken, or skipped, there (R471) -/
  genTaken : Bool := false
deriving DecidableEq, Repr

/-- A pinned bank of a tensor or of a carried region (R331, R332, R463, R464). -/
structure Pin where
  carried : Bool := false
  item : Nat := 0
  bank : Nat := 0
  step : Nat := 0
  /-- evaluation pin; otherwise a generation's -/
  eval : Bool := false
deriving DecidableEq, Repr

/-- What a member has of one Caravan operation in one run of an epoch (R379 to R393, R403, R404). -/
structure OpRun where
  epoch : Nat := 0
  /-- local count of H0 at the member's start (R381) -/
  start : Option Nat := none
  /-- its trigger record holds the epoch -/
  triggered : Bool := false
  /-- `some true` in, `some false` out -/
  status : Option Bool := none
  /-- a late contribution has been handled (R392) -/
  lateDone : Bool := false
  /-- messages of segments, and of rotations, that wait at this hop, in order of arrival -/
  waiting : List CMsg := []
  /-- segments, or origins of BIT messages, whose result is written or has passed -/
  doneSegs : List Nat := []
  contrib : BitVec 4096 := 0
  taint : BitVec 4096 := 0
  sumw : Nat := 0
  restarts : Nat := 0
  fallback : Nat := 0
  /-- a destination spill area was exhausted (Table 11-6, STATUS 1) -/
  exhausted : Bool := false
  complete : Bool := false
  /-- rotations: sent, wholly arrived, REL sent, REL received -/
  sent : Nat := 0
  arrived : Nat := 0
  relSent : Nat := 0
  relGot : Nat := 0
deriving DecidableEq, Repr

/-- A record of generations (Table 14-2) with the image that its slot holds (R459, R462). -/
structure GenSlot where
  tier : Nat := 0
  slot : Nat := 0
  valid : Bool := false
  complete : Bool := false
  step : Nat := 0
  pgen : Nat := 0
  invRev : Nat := 0
  bytes : Nat := 0
  digest : Nat := 0
  /-- the configuration digest and the chunk digests of the slot's header -/
  cfg : Nat := 0
  chunks : List Nat := []
  image : Tab Byte := []
deriving DecidableEq, Repr

/-- The stage of a context's Bivouac service (R461 to R465): the generation's record and image, whether it is complete in the
stage, and the tiers still to copy, the first of them in progress into `slot`. -/
structure Stage where
  step : Nat := 0
  pgen : Nat := 0
  bytes : Nat := 0
  digest : Nat := 0
  cfg : Nat := 0
  chunks : List Nat := []
  staged : Bool := false
  image : Tab Byte := []
  tiers : List Nat := []
  slot : Nat := 0
deriving DecidableEq, Repr

/-- A refill in progress (R480, Table 14-7 REFILL). -/
structure Refill where
  g : Nat := 0
  source : Nat := 0
  verified : List Nat := []
  /-- chunks written, of which the replica comparison may be to come (R484) -/
  restored : List Nat := []
  /-- what has failed of a chunk: a tier's digest, 3 the first replica comparison, 4 the second -/
  failed : List (Nat × Nat) := []
  /-- chunks that are read from another tier than the rest -/
  moved : List (Nat × Nat) := []
  chunks : Nat := 0
  image : Tab Byte := []
deriving DecidableEq, Repr

/-- State of a sample at one data position (R426 to R431). -/
structure SampleSt where
  tries : Nat := 0
  port1 : Bool := false
  /-- a read is outstanding; the range has been read and is in a decode slice; the retries are exhausted -/
  busy : Bool := false
  read : Bool := false
  exhausted : Bool := false
  delivered : Bool := false
  /-- the bytes of the range that a decode slice holds -/
  range : List Byte := []
deriving DecidableEq, Repr

/-- A context k0-k15 (R194, R195; chapters 5, 7, 9 to 14). -/
structure Ctx where
  st : CtxState := .free
  phofer : Bool := false
  /-- core of each role (CTX_ROLES), and in full redundancy its twin (R358) -/
  roles : List Nat := []
  twins : List Nat := []
  pkg : Package := {}
  /-- a LOAD_GO has completed since the last halt (Table 17-4) -/
  reloaded : Bool := false
  /-- loaded since the last teardown and no queue started (R478) -/
  fresh : Bool := false
  /-- a teardown, rather than a save, drains the context -/
  tearing : Bool := false
  /-- every queue still running halts with HC-1C and this DETAIL at its next retire point (R198, R297) -/
  aborting : Option Nat := none
  mpmap : Tab MpEntry := []
  epochs : List Epoch := []
  /-- device memory of the context by device virtual address (R440); what lies in a present page and is not listed reads 0 (R444) -/
  mem : Tab Byte := []
  /-- poisoned 64-byte lines of device memory (R450) -/
  poison : Tab Bool := []
  /-- present pages of DEMAND regions: region record 2^27 + page (R444) -/
  present : Tab Bool := []
  /-- used spill slots: store 2^32 + slot (R71) -/
  spill : Tab Bool := []
  /-- gradient stores whose clear is in progress (R321) -/
  clearing : List Nat := []
  /-- committed bank of each carried region (R342) -/
  cbank : Tab Nat := []
  census : Tab Census := []
  pins : List Pin := []
  ledger : List (BitVec 512) := []
  drecs : List (Nat × List DeadlineRec) := []
  /-- saved cores by role (R195) -/
  saved : List Core := []
  /-- frames of the save area, by stack (R434) -/
  saveArea : List Nat := []
  /-- Caravan operations, keyed 2 op + epoch parity -/
  ops : Tab OpRun := []
  /-- RUN with which epochs open (R397; log entry 23) -/
  runNext : Nat := 0
  /-- the newest epoch that has been opened (R398) -/
  opened : Nat := 0
  /-- a placement change is pending, and drains (R400) -/
  placing : Bool := false
  draining : Bool := false
  /-- the last tainted completion records: operation, record (R396) -/
  taints : List (Nat × Nat) := []
  /-- first uncertain step of a context that UNCERTAIN_POLICY 1 has paused (R363, R479) -/
  uncertain : Option Nat := none
  /-- carried contributions: operation and the epoch from which it is carried (R392) -/
  carries : List (Nat × Nat) := []
  /-- messages of an epoch not yet open (R397) -/
  early : List CMsg := []
  /-- ingest: the service runs; NS and NSH of the loaded catalogue; sample states by data position -/
  ingest : Bool := false
  ns : Nat := 0
  nsh : Nat := 0
  samples : Tab SampleSt := []
  voidLog : List (Nat × Nat × Nat) := []
  /-- entries that the last transaction on OWNERS wrote (log entry 34) -/
  nown : Nat := 1
  /-- steps whose ingest has started, and those that wait for a larger SLOT_BYTES (R429) -/
  started : List Nat := []
  stuck : List Nat := []
  /-- samples that have arrived whole: step, index in the owner's share, void; steps whose slot is complete; the step to which
  SAMPLE_MP has been raised; messages of a step that has no slot yet (R428) -/
  arrivals : List (Nat × Nat × Bool) := []
  filled : List Nat := []
  raised : Nat := 0
  sampleWait : List CMsg := []
  stage : Option Stage := none
  gens : List GenSlot := []
  genCount : Nat := 0
  refill : Option Refill := none
  /-- ranks of the job's failed members, in order of failure: the refill queue (R482) -/
  refillQueue : List Nat := []
  /-- partner reports (R470) -/
  refused : Option Refused := none
deriving DecidableEq, Repr

/-- An event mailbox (R515, R516). -/
structure Mailbox where
  recs : Tab (BitVec 512) := []
  prod : Nat := 0
  cons : Nat := 0
  lost : Nat := 0
deriving DecidableEq, Repr

/-- An EAU add in flight (R454 to R456). -/
structure EauAdd where
  q : Option QRef := none
  instr : Nat := 0
  k : Nat := 0
  va : Nat := 0
  w128 : Bool := false
  value : L640 := {}
  epoch : Option Nat := none
  pgen : Nat := 0
  /-- it lies in a remote window and waits for the ACK (R402) -/
  remote : Bool := false
  /-- no add, but the SEND of a U instruction's write into a remote window (R447) -/
  send : Bool := false
deriving DecidableEq, Repr

/-- Drawbar port states (Table 15-2). -/
inductive PortState where
  | disabled | bypassed | training | up | upAlt | isolated | down
deriving DecidableEq, Repr

/-- A Drawbar port (Tables 15-1, 15-2; R493 to R503). -/
structure Port where
  st : PortState := .disabled
  lanes : BitVec 8 := 0
  peer : Nat := 0
  pport : Nat := 0
  /-- withdrawn until the next ROUTE_GO (R503) -/
  withdrawn : Bool := false
  /-- went DOWN since it last carried frames -/
  wasDown : Bool := false
  /-- SEQ of the last data frame sent, and of the last received in order; 0 at training (log entry 33) -/
  txSeq : Nat := 0
  rxSeq : Nat := 0
  /-- EXPECT and ALT of the training under way or passed: the port record and VC_ALLOC as they were when it began (R490, R496) -/
  cfg : Nat := 0
  alloc : List Nat := []
  /-- credits of the receive pool that frames still hold, by VC (R496, R497) -/
  pool : Tab Nat := []
  /-- credits left of each VC at the peer -/
  credits : Tab Nat := []
  /-- frames waiting for credits, and the replay buffer with send counts (R493, R494, R497) -/
  queued : List DFrame := []
  replay : List (DFrame × Nat) := []
  /-- the VC other than VC0 that last sent a frame, from which the round robin goes on; 0 before the first (R497) -/
  lastVc : Nat := 0
  framesTx : Nat := 0
  framesRx : Nat := 0
  crcErr : Nat := 0
  replays : Nat := 0
  fecSymbols : Nat := 0
  lost : Nat := 0
  noroute : Nat := 0
  hopsExpired : Nat := 0
deriving DecidableEq, Repr

/-- Firmware slot states (chapter 18, Slots). -/
inductive FwState where
  | empty | valid | active | trial | failed
deriving DecidableEq, Repr

/-- A firmware slot: state, image header values and digest (FW_SLOTS). -/
structure FwSlot where
  st : FwState := .empty
  version : Nat := 0
  arbSet : Nat := 0
  invRev : Nat := 0
  digest : Nat := 0
deriving DecidableEq, Repr

/-- Firmware registers and the Vestibule (Tables 17-5 and 18-4, R562 to R580). -/
structure Fw where
  slot0 : FwSlot := { st := .active }
  slot1 : FwSlot := {}
  active1 : Bool := false
  arb : Nat := 0
  stage : Nat := 0
  status : Nat := 0
  actTag : Nat := 0
  startTag : Nat := 0
  /-- staged image: its bytes, block count, blocks accepted -/
  vest : Tab Byte := []
  blocks : Nat := 0
  have_ : List Nat := []
  fbOffset : Nat := 0
  fbLen : Nat := 0
  fbDone : Nat := 0
  fbCode : Nat := 0
  lock : Bool := false
  counter : Nat := 0
  report : Tab Byte := []
  starts : Nat := 0
deriving DecidableEq, Repr

/-- The kept last request of a path and its answer (R525), and its open transaction (R526). -/
structure PathSt where
  path : Path
  seq : Option Nat := none
  resp : WbMsg := {}
  stage : Option (List (Nat × Nat × Nat × List Byte)) := none
deriving DecidableEq, Repr

/-- The TAP (R604 to R608). -/
structure Tap where
  ir : BitVec 8 := 0x01
  dieSel : BitVec 16 := 0
  bypassBit : Bool := false
  /-- preloaded boundary cells (none: all 0), cells driven to the pins, and whether the pins float -/
  cells : List Bool := []
  driven : List Bool := []
  highz : Bool := false
  /-- the pins that SAMPLE_PRELOAD captured last -/
  captured : List Bool := []
  /-- the data register shifted out last -/
  tdo : BitVec 32 := 0x19600A5B
deriving DecidableEq, Repr

/-- A service period of a core (R362): context, first step, last step if closed. -/
structure Service where
  core : Nat := 0
  k : Nat := 0
  first : Nat := 0
  last : Option Nat := none
deriving DecidableEq, Repr

/-- What leaves the part: host writes and interrupts, responses, frames, storage requests. -/
inductive Out where
  | hostWrite (addr value : Nat)
  | msix (fn vec : Nat)
  | response (p : Path) (m : WbMsg)
  | ring (port1 : Bool) (f : MgFrame)
  | drawbar (p : Nat) (f : DFrame)
  /-- a Read of a range: context, position, port, target, namespace, first logical block and number of blocks (R411) -/
  | storageRead (k pos : Nat) (port1 : Bool) (target nsid lba blocks : Nat)
  /-- the reads of a catalogue image: context, target, namespace, first logical block and number of blocks (R410) -/
  | catalogRead (k target nsid lba blocks : Nat)
  | storageWrite (k what : Nat)
  /-- the writes of a generation's copy into the shared store: context, target, namespace, first logical block, bytes and step (R467) -/
  | genWrite (k target nsid lba bytes step : Nat)
  | decode (k pos : Nat)
  /-- DRAINED on VC0 to the members of a group: context, group and the digest of its pending tables (R400, log entry 108) -/
  | drained (k group : Nat) (digest : BitVec 256)
deriving DecidableEq, Repr

/-- Whether the module is unpowered, in reset, running, or stopped by R577 with only the TAP served. -/
inductive Phase where
  | off | inReset | running | stuck
deriving DecidableEq, Repr

/-- A context command that waits for the part, with the request that it answers (R545, R546). -/
structure Late where
  /-- 0 CTX_OPEN_GO and 2 RESUME_GO, which wait for step boundaries; 1 SAVE_GO and 3 TEARDOWN_GO, accepted, which wait for their drain; 4 START_GO,
  5 LOAD_GO, 6 SAVE_GO and 7 TEARDOWN_GO, which wait for an earlier command of the context (R546) -/
  kind : Nat := 0
  k : Nat := 0
  env : Env := {}
  /-- speculatively running contexts whose step boundary it waits for -/
  need : List Nat := []
  req : Option (Path × WbMsg × Bool) := none
deriving DecidableEq, Repr

/-- What the sparing of R452 goes by. -/
structure Sparing where
  /-- corrected errors: of a row the scrub pass in which one fell, of a column the LOCAL_COUNT of its die -/
  corrected : List (SpareUnit × Nat) := []
  /-- replaced at the next step boundary; whether a spare row is left -/
  due : List (SpareUnit × Bool) := []
  /-- spare columns in use, by core and bank (R449) -/
  columns : Tab Nat := []
deriving DecidableEq, Repr

/-- The whole part. -/
structure State where
  phase : Phase := .running
  safeHold : Bool := false
  shCause : Nat := 0
  /-- dies whose state INT_SCAN has left undefined (R608) -/
  scanned : List Nat := []
  mgrSel : Bool := false
  bootSafe : Bool := false
  slotId : Nat := 0
  startCause : Nat := 0
  /-- the last start has reached step 8 of Table 18-1 -/
  startDone : Bool := true
  /-- E0 and E1 are up -/
  ethUp : Bool := true
  /-- the carrier holds the reset input (R552) -/
  resetHeld : Bool := false
  /-- the input is in range, so that the standby rail is present (R615) -/
  standby : Bool := true
  /-- the Wagonmaster is to start the part again with cause 4 (R574), with the inputs of the last start -/
  revert : Bool := false
  lastStart : StartIn := {}
  /-- request windows of the functions, as their last request left them (Table 16-3) -/
  reqWin : Tab (List Byte) := []
  /-- Waybill dictionary, keyed 256 entry + sub-entry: Groundsheet values and other values that differ from the Default
  column; values still in force that a write has replaced for the next step boundary (R530, R533) -/
  gs : Tab (Option Nat) := []
  wbv : Tab (Option Nat) := []
  held : Tab (Option Nat) := []
  /-- BLOB bytes, keyed 2^32 (256 entry + sub-entry) + offset, each XORed with its default byte -/
  wbb : Tab Byte := []
  fly : Nat := 0
  pitching : Option Nat := none
  cores : Tab Core := []
  spares : List Nat := []
  retired : List Nat := []
  /-- cores to be retired at the next step boundary (Table 10-5) -/
  retiring : List Nat := []
  pmps : Tab Pmp := []
  parts : Tab Part := []
  transit : List Adv := []
  ctxs : Tab Ctx := []
  eauq : List EauAdd := []
  faults : List (BitVec 256) := []
  events : List (BitVec 512) := []
  evSeq : Nat := 0
  mailboxes : Tab Mailbox := []
  vfs : List Nat := []
  /-- commit log in H1 and its flash copy: context and step of each record (R355) -/
  commitLog : List (Nat × Nat) := []
  flashLog : List (Nat × Nat) := []
  ports : Tab Port := []
  pairA : Bool := true
  pairB : Bool := true
  routes : Tab Nat := []
  sparing : Sparing := {}
  cxlDown : List Nat := []
  cxl : List (List Nat) := []
  paths : List PathSt := []
  fw : Fw := {}
  selftest : Tab Byte := []
  tap : Tap := {}
  service : List Service := []
  /-- committed step of each context when a spare's test began (R602), by core; cores passed since they entered the spare set; last pass
  of each core by H0 count -/
  testAt : Tab (List Nat) := []
  passed : List Nat := []
  lastPass : Tab (Option Nat) := []
  /-- swaps agreed at a rotation and not yet made: outgoing, incoming -/
  swaps : List (Nat × Nat) := []
  /-- requests whose answer waits (R545, R546) -/
  late : List Late := []
  /-- Caravan messages that frames have brought to this node and whose own event has not come yet -/
  inbox : List CMsg := []
  /-- next instruction identity -/
  nextId : Nat := 0
  /-- the model's own counter of free values taken (log entry 6) -/
  freeCount : Nat := 0
  answer : Nat := 0
  out : List Out := []
  pending : List Instr := []
deriving DecidableEq, Repr

/-- Why the machine stops. -/
inductive Fault where
  /-- raised by a command that acts on a core of a die whose state INT_SCAN has left undefined until the next start
  (R608); safe: the part itself does nothing the spec states -/
  | dieStateUndefined (die : Nat)
deriving DecidableEq, Repr

/-- Why the model gives a command no meaning. -/
inductive Refusal where
  /-- raised by an arm of `exec` that has no meaning yet; safe -/
  | notModelled (mnemonic : String)
deriving DecidableEq, Repr

/-- c80-c87 of each Tensor die: the spare set after a start (log entry 9). -/
def sparesAtStart : List Nat := (List.range 8).flatMap fun d => (List.range 8).map fun i => 88 * d + 80 + i

/-- The part at delivery, after a start of cause 0 has reached step 8 of Table 18-1 with nothing failed: every context
FREE, Train active, NODE_ADDR 0 so that every Drawbar port is DISABLED, or BYPASSED on the ring ports, and both ring
pairs closed (R489, R505, Table 20-5).  FW_READY is the one event posted (R555). -/
def State.reset : State where
  spares := sparesAtStart
  wbv := [(256 * 0x8003, some 100)]
  ports := [(0, { st := .bypassed }), (1, { st := .bypassed }), (2, { st := .bypassed }), (3, { st := .bypassed })]
  fw := { starts := 1 }
  evSeq := 1
  events := [BitVec.ofNat 512 (0x0050 + 8 * 2 ^ 21)]
  mailboxes := [(0, { recs := [(0, BitVec.ofNat 512 (0x0050 + 8 * 2 ^ 21))], prod := 1 })]

end Sys2Proof.Machine
end

