-- ==== Sys2Proof/Machine/Dict.lean ====
section
/-!
DEFINITION. The Waybill dictionary (R537): one row per entry and sub-entry range of Tables 3-4, 4-5, 5-11, 7-9, 8-7, 9-5,
10-11, 11-10, 12-8, 13-7, 14-7, 15-6, 16-11 and 17-2 to 17-6, and the value of an entry in force.
-/

namespace Sys2Proof.Dict

/-- Data types of an entry (R524). -/
inductive Ty where
  | u8 | u16 | u32 | u64 | i32 | str | dig | blob
deriving DecidableEq, Repr

/-- Access classes of an entry. -/
inductive Acc where
  | ro | rw | rwp | rws | wo
deriving DecidableEq, Repr

/-- One row: entries `e` to `eHi`, sub-entries `lo` to `hi`, default (two's complement for I32; `given`: the Default column
gives one), BLOB or STR size, range, whether a write takes effect at the next step boundary, and which context it
serves (`some false`: sub-entry n serves k(n-1); `some true`: entry e + k serves k). -/
structure Row where
  e : Nat
  eHi : Nat
  lo : Nat
  hi : Nat
  ty : Ty
  acc : Acc
  dflt : Nat
  given : Bool
  size : Nat
  rng : Option (Int × Int)
  step : Bool
  ctx : Option Bool
deriving DecidableEq, Repr

def row (e lo hi : Nat) (ty : Ty) (acc : Acc) (dflt : Nat) (size : Nat := 0) (rng : Option (Int × Int) := none)
    (step : Bool := false) (ctx : Option Bool := none) (given : Bool := true) (eHi : Nat := e) : Row :=
  ⟨e, eHi, lo, hi, ty, acc, dflt, given, size, rng, step, ctx⟩

/-- Table 3-4. -/
def t3_4 : List Row := [
  row 0x3120 0 0 .i32 .rwp 0 (rng := some (-16, 16)) (step := true),
  row 0x3121 0 0 .u32 .rwp 0x10000 (rng := some (1024, 65536)) (step := true),
  row 0xA210 1 9 .u64 .ro 0,
  row 0xA211 1 9 .u64 .ro 0,
  row 0xA212 1 9 .u64 .ro 0,
  row 0xA213 1 9 .u64 .ro 0,
  row 0xA214 1 9 .u64 .ro 0,
  row 0xA215 1 9 .u64 .ro 0,
  row 0xA216 1 9 .u64 .ro 0]

/-- Table 4-5. -/
def t4_5 : List Row := [
  row 0xA220 1 9 .u64 .ro 0,
  row 0xA221 1 9 .u64 .ro 0,
  row 0xA222 1 9 .u64 .ro 0]

/-- Table 5-11. -/
def t5_11 : List Row := [
  row 0x4010 0 0 .u32 .rwp 0x7D0 (rng := some (100, 1000000)),
  row 0x4011 0 0 .u8 .rwp 1 (rng := some (0, 1)),
  row 0x4012 1 1 .u32 .rw 0,
  row 0x4012 2 2 .u64 .rw 0,
  row 0x4012 3 3 .u8 .wo 0 (given := false),
  row 0x4014 0 0 .u8 .rwp 0 (rng := some (0, 1)),
  row 0x4020 1 16 .blob .ro 0 (size := 16) (ctx := some false)]

/-- Table 7-9. -/
def t7_9 : List Row := [
  row 0x4030 1 16 .blob .ro 0 (size := 32768) (ctx := some false),
  row 0x4031 1 1 .u32 .rw 0,
  row 0x4031 2 2 .u32 .rw 0,
  row 0x4031 3 3 .u8 .wo 0 (given := false),
  row 0x4032 1 16 .blob .rw 0 (size := 1536) (ctx := some false),
  row 0x4033 1 16 .u16 .wo 0 (ctx := some false) (given := false),
  row 0x4040 1 16 .blob .rw 0 (size := 8192) (ctx := some false),
  row 0x4041 1 16 .u64 .ro 0 (ctx := some false),
  row 0x4042 1 10 .u32 .ro 0x4000]

/-- Table 8-7. -/
def t8_7 : List Row := [
  row 0x5010 1 16 .u16 .rwp 0x20 (rng := some (1, 256)) (step := true) (ctx := some false),
  row 0x5011 0 0 .u32 .rwp 0x186A0 (rng := some (1000, 10000000)),
  row 0x5020 1 9 .u64 .ro 0,
  row 0x5021 1 9 .u64 .ro 0,
  row 0x5022 1 9 .u64 .ro 0,
  row 0x5023 1 9 .u64 .ro 0,
  row 0x5024 1 9 .u64 .ro 0,
  row 0x5025 1 9 .u64 .ro 0]

/-- Table 9-5. -/
def t9_5 : List Row := [
  row 0x3130 1 16 .u32 .rwp 1 (rng := some (1, 65536)) (ctx := some false),
  row 0x3131 1 16 .i32 .rwp 0xFFFFFFE8 (rng := some (-300, 0)) (step := true) (ctx := some false),
  row 0x3132 1 16 .u16 .rwp 0x40 (step := true) (ctx := some false),
  row 0x3133 1 16 .u8 .rwp 0 (rng := some (0, 1)) (step := true) (ctx := some false),
  row 0x3134 1 16 .u8 .rwp 3 (rng := some (1, 255)) (step := true) (ctx := some false),
  row 0x3140 1 16 .blob .rw 0 (size := 2048) (ctx := some false),
  row 0x3150 1 16 .blob .rw 0 (size := 32768) (ctx := some false),
  row 0x3151 1 16 .u64 .rw 0 (ctx := some false),
  row 0x3160 1 16 .u8 .rw 0xFF (step := true) (ctx := some false),
  row 0x3161 1 16 .u32 .rw 0 (step := true) (ctx := some false),
  row 0x3162 1 16 .u16 .rw 0 (step := true) (ctx := some false),
  row 0x3163 1 16 .u16 .rw 0 (step := true) (ctx := some false),
  row 0x3164 1 16 .u64 .rw 0 (step := true) (ctx := some false),
  row 0xA230 1 16 .blob .ro 0 (size := 262144) (ctx := some false),
  row 0xA231 1 16 .u64 .ro 0 (ctx := some false),
  row 0xA232 1 16 .u8 .ro 0 (ctx := some false),
  row 0xA233 1 16 .u64 .ro 0 (ctx := some false)]

/-- Table 10-11. -/
def t10_11 : List Row := [
  row 0x4050 1 16 .u8 .rw 0xFF (ctx := some false),
  row 0x4051 1 16 .u64 .rw 0 (ctx := some false),
  row 0x4052 1 16 .blob .rw 0 (size := 384) (ctx := some false),
  row 0x4053 1 16 .u8 .rw 2 (rng := some (1, 2)) (ctx := some false),
  row 0x4054 1 16 .u64 .ro 0 (ctx := some false),
  row 0x4055 1 16 .u64 .ro 0 (ctx := some false),
  row 0xA300 0 0 .u8 .rwp 0 (rng := some (0, 2)) (step := true),
  row 0xA301 0 0 .u8 .rwp 4 (rng := some (0, 64)) (step := true),
  row 0xA302 0 0 .u8 .rwp 4 (rng := some (1, 16)) (step := true),
  row 0xA303 0 0 .u32 .rwp 0xF4240 (rng := some (10000, 100000000)) (step := true),
  row 0xA304 0 0 .u8 .rwp 0 (rng := some (0, 1)) (step := true),
  row 0xA310 1 9 .u64 .ro 0,
  row 0xA311 1 16 .u64 .ro 0 (ctx := some false),
  row 0xA312 1 16 .u64 .ro 0 (ctx := some false),
  row 0xA340 1 16 .blob .ro 0 (size := 67108864) (ctx := some false),
  row 0xA341 1 16 .blob .ro 0 (ctx := some false),
  row 0xA350 0 0 .blob .ro 0 (size := 131072),
  row 0xA360 0 0 .u8 .ro 0,
  row 0xA361 0 0 .u8 .wo 0 (given := false),
  row 0xA362 0 0 .u8 .rws 0 (given := false)]

/-- Table 11-10. -/
def t11_10 : List Row := [
  row 0x6010 1 16 .blob .rw 0 (size := 2048) (ctx := some false),
  row 0x6011 1 16 .blob .rw 0 (size := 65536) (ctx := some false),
  row 0x6012 1 16 .u32 .ro 0 (ctx := some false),
  row 0x6013 1 16 .u8 .wo 0 (ctx := some false) (given := false),
  row 0x6014 0 0 .u32 .rwp 0xF4240 (rng := some (10000, 100000000)),
  row 0x6015 1 16 .blob .rw 0 (size := 2048) (ctx := some false),
  row 0x6016 1 16 .blob .ro 0 (ctx := some false),
  row 0x6020 1 16 .u64 .ro 0 (ctx := some false),
  row 0x6021 1 16 .u64 .ro 0 (ctx := some false),
  row 0x6022 1 16 .u64 .ro 0 (ctx := some false),
  row 0x6023 1 16 .u64 .ro 0 (ctx := some false),
  row 0x6024 1 16 .u64 .ro 0 (ctx := some false),
  row 0x6025 1 16 .u64 .ro 0 (ctx := some false),
  row 0x6026 1 16 .u64 .ro 0 (ctx := some false),
  row 0x6027 1 16 .u64 .ro 0 (ctx := some false),
  row 0x6100 1 64 .blob .rw 0 (size := 16384) (ctx := some true) (eHi := 0x610F),
  row 0x6120 1 64 .blob .rw 0 (size := 16384) (ctx := some true) (eHi := 0x612F)]

/-- Table 12-8. -/
def t12_8 : List Row := [
  row 0x7010 0 0 .blob .rwp 0 (size := 32768),
  row 0x7011 1 16 .blob .rw 0 (size := 24) (ctx := some false),
  row 0x7012 1 16 .dig .rw 0 (ctx := some false),
  row 0x7013 1 16 .u64 .rw 0 (ctx := some false),
  row 0x7020 1 16 .blob .rw 0 (size := 32) (ctx := some false),
  row 0x7021 1 16 .blob .rw 0 (size := 24) (ctx := some false),
  row 0x7022 1 16 .u64 .rw 0 (ctx := some false),
  row 0x7023 1 16 .u32 .rw 1 (rng := some (1, 16777216)) (ctx := some false),
  row 0x7024 1 16 .u8 .rw 0xFF (ctx := some false),
  row 0x7025 1 16 .blob .rw 0 (size := 8192) (ctx := some false),
  row 0x7026 1 16 .u64 .rw 0 (ctx := some false),
  row 0x7027 1 16 .u8 .rw 4 (rng := some (3, 16)) (ctx := some false),
  row 0x7028 1 16 .u64 .rw 0 (ctx := some false),
  row 0x7029 1 16 .u16 .rw 0 (ctx := some false),
  row 0x702A 1 16 .u8 .wo 0 (ctx := some false) (given := false),
  row 0x7040 0 0 .u8 .rwp 4 (rng := some (1, 32)),
  row 0x7041 0 0 .u64 .ro 0xFFFFFFFFFFFFFFFF,
  row 0x7050 1 16 .u64 .ro 0 (ctx := some false),
  row 0x7051 1 16 .u64 .ro 0 (ctx := some false),
  row 0x7052 1 16 .u64 .ro 0 (ctx := some false),
  row 0x7053 1 16 .u64 .ro 0 (ctx := some false),
  row 0x7054 1 16 .u64 .ro 0 (ctx := some false),
  row 0x7055 1 16 .blob .ro 0 (size := 4352) (ctx := some false)]

/-- Table 13-7. -/
def t13_7 : List Row := [
  row 0x2100 1 16 .blob .rw 0 (size := 2048) (ctx := some false),
  row 0x2101 1 16 .u64 .wo 0 (ctx := some false) (given := false),
  row 0x2110 0 0 .u8 .rwp 8 (rng := some (1, 72)),
  row 0x2111 1 16 .u32 .ro 0x9E00,
  row 0x2112 1 4 .blob .ro 0 (size := 40),
  row 0x6030 1 16 .blob .rw 0 (size := 2048) (ctx := some false),
  row 0x6031 1 16 .blob .rw 0 (size := 2048) (ctx := some false),
  row 0xA260 1 21 .u64 .ro 0,
  row 0xA261 1 21 .u64 .ro 0,
  row 0xA262 1 21 .u64 .ro 0,
  row 0xA263 0 0 .u64 .ro 0,
  row 0xA270 1 20 .u64 .ro 0,
  row 0xA271 1 20 .u64 .ro 0]

/-- Table 14-7. -/
def t14_7 : List Row := [
  row 0x8001 0 0 .u32 .rwp 0,
  row 0x8002 0 0 .u8 .rws 0 (rng := some (0, 1)),
  row 0x8003 0 0 .u8 .ro 0 (given := false),
  row 0x8010 1 16 .blob .rw 0 (size := 64) (ctx := some false),
  row 0x8011 1 16 .blob .rw 0 (size := 8192) (ctx := some false),
  row 0x8012 1 16 .u8 .wo 0 (ctx := some false) (given := false),
  row 0x8013 1 16 .u8 .ro 0 (ctx := some false),
  row 0x8020 1 16 .blob .ro 0 (ctx := some false),
  row 0x8030 1 16 .u64 .rw 0 (ctx := some false),
  row 0x8031 1 16 .u8 .wo 0 (ctx := some false) (given := false),
  row 0x8032 1 16 .u8 .ro 0 (ctx := some false),
  row 0x8033 1 16 .blob .ro 0 (size := 40) (ctx := some false),
  row 0x8034 0 0 .u8 .rws 0 (given := false),
  row 0x8040 1 16 .u64 .ro 0 (ctx := some false),
  row 0x8041 1 16 .u64 .ro 0 (ctx := some false),
  row 0x8042 1 16 .u64 .ro 0 (ctx := some false)]

/-- Table 15-6. -/
def t15_6 : List Row := [
  row 0x6200 0 0 .u16 .rwp 0,
  row 0x6201 1 24 .u64 .rwp 0,
  row 0x6202 1 24 .u64 .ro 0 (given := false),
  row 0x6203 1 24 .blob .rwp 0 (size := 32),
  row 0x6204 0 0 .blob .rw 0 (size := 262144),
  row 0x6205 0 0 .u8 .rwp 8 (rng := some (1, 15)),
  row 0x6206 0 0 .u8 .rws 0 (rng := some (0, 3)),
  row 0x6207 0 0 .u8 .wo 0 (given := false),
  row 0x6210 1 24 .blob .ro 0 (size := 64)]

/-- Table 16-11. -/
def t16_11 : List Row := [
  row 0x2001 0 0 .u8 .ro 0 (given := false),
  row 0x2010 0 0 .u8 .wo 0 (given := false),
  row 0x2011 0 0 .u8 .ro 0,
  row 0x2012 0 0 .u8 .ro 0,
  row 0x2020 1 6 .blob .rws 0 (size := 4096),
  row 0x2020 7 8 .blob .rwp 0 (size := 4096),
  row 0x2030 0 0 .u64 .rwp 0,
  row 0x2031 0 0 .u8 .rwp 0x20 (rng := some (1, 255)),
  row 0x2032 0 0 .u64 .ro 0 (given := false),
  row 0x2033 1 16 .u16 .rw 0 (ctx := some false),
  row 0x2034 1 16 .u16 .rw 0xFFFF (ctx := some false),
  row 0x2040 0 0 .blob .ro 0 (size := 262144)]

/-- Table 17-2. -/
def t17_2 : List Row := [
  row 0x1001 0 0 .str .ro 0x4C2D303036392D42584B (size := 16),
  row 0x1002 0 0 .str .ro 0 (size := 16) (given := false),
  row 0x1003 0 0 .u16 .ro 0 (given := false),
  row 0x1004 0 0 .blob .ro 0 (size := 1312) (given := false),
  row 0x1005 0 0 .blob .ro 0 (size := 16384) (given := false),
  row 0x1006 0 0 .dig .wo 0 (given := false),
  row 0x1007 0 0 .blob .ro 0 (size := 8192) (given := false),
  row 0x1010 0 0 .u8 .ro 0 (given := false),
  row 0x1011 0 0 .u8 .ro 0 (given := false),
  row 0x3001 0 0 .u16 .ro 0 (given := false)]

/-- Table 17-3. -/
def t17_3 : List Row := [
  row 0x4001 1 16 .u8 .ro 0 (ctx := some false),
  row 0x4002 1 16 .blob .ro 0 (size := 3200) (ctx := some false),
  row 0x4003 1 16 .u16 .rw 0 (rng := some (1, 640)) (ctx := some false),
  row 0x4004 1 16 .blob .wo 0 (size := 67108864) (ctx := some false) (given := false),
  row 0x4005 1 16 .u8 .wo 0 (ctx := some false) (given := false),
  row 0x4006 1 16 .u8 .wo 0 (ctx := some false) (given := false),
  row 0x4007 1 16 .u8 .wo 0 (ctx := some false) (given := false),
  row 0x4008 1 16 .u8 .wo 0 (ctx := some false) (given := false),
  row 0x4009 1 16 .u8 .wo 0 (ctx := some false) (given := false),
  row 0x400A 1 16 .u8 .wo 0 (ctx := some false) (given := false),
  row 0x400B 1 16 .u8 .ro 0 (ctx := some false),
  row 0x400C 1 16 .blob .ro 0 (size := 1280) (ctx := some false),
  row 0x400D 1 16 .blob .ro 0 (size := 20) (ctx := some false)]

/-- Table 17-5. -/
def t17_5 : List Row := [
  row 0x9001 0 0 .u32 .ro 0 (given := false),
  row 0x9002 0 0 .u8 .ro 0 (given := false),
  row 0x9003 0 0 .blob .ro 0 (size := 80) (given := false),
  row 0x9004 0 0 .u32 .ro 0 (given := false),
  row 0x9010 0 0 .u8 .ro 0,
  row 0x9011 0 0 .u8 .ro 0,
  row 0x9012 0 0 .u64 .rw 0,
  row 0x9013 0 0 .u64 .wo 0 (given := false),
  row 0x9014 0 0 .u8 .wo 0 (given := false),
  row 0x9020 0 0 .u8 .ro 0,
  row 0x9021 0 0 .blob .wo 0 (size := 2452) (given := false),
  row 0x9022 0 0 .blob .rws 0 (size := 1312),
  row 0x9030 0 0 .blob .rws 0 (size := 10496)]

/-- Table 17-6. -/
def t17_6 : List Row := [
  row 0xA200 1 8 .blob .ro 0 (size := 16) (given := false),
  row 0xA201 1 8 .blob .ro 0 (size := 16),
  row 0xB001 0 0 .u32 .ro 0 (given := false),
  row 0xB002 0 0 .u32 .ro 0 (given := false),
  row 0xB003 0 0 .u32 .rwp 0x1C20 (rng := some (600, 7200)) (step := true),
  row 0xB004 0 0 .u8 .ro 0,
  row 0xB010 0 0 .u16 .rwp 0x2EE (rng := some (650, 850)) (step := true),
  row 0xB011 1 10 .u16 .ro 0 (given := false),
  row 0xB020 1 26 .i32 .ro 0 (given := false),
  row 0xB021 0 0 .i32 .ro 0 (given := false),
  row 0xB022 0 0 .u32 .ro 0 (given := false),
  row 0xB030 1 9 .u64 .ro 0 (given := false),
  row 0xB040 0 0 .u8 .rws 3 (rng := some (0, 7)) (step := true),
  row 0xB041 0 0 .u32 .rwp 0x7D0 (rng := some (100, 4000)),
  row 0xB050 1 10 .u64 .ro 0 (given := false),
  row 0xC001 0 0 .u16 .rwp 0x18 (rng := some (1, 168)),
  row 0xC002 1 9 .u64 .ro 0,
  row 0xC003 1 9 .u64 .ro 0,
  row 0xC004 1 16 .blob .ro 0 (size := 5632) (ctx := some false),
  row 0xC010 0 0 .u64 .rws 0,
  row 0xC011 0 0 .blob .ro 0 (size := 4096) (given := false),
  row 0xC020 0 0 .u8 .rws 0 (rng := some (0, 1)),
  row 0xC030 0 0 .blob .ro 0 (size := 4096) (given := false)]

def rows : List Row := t3_4 ++ t4_5 ++ t5_11 ++ t7_9 ++ t8_7 ++ t9_5 ++ t10_11 ++ t11_10 ++ t12_8 ++ t13_7 ++ t14_7 ++ t15_6 ++ t16_11 ++ t17_2 ++ t17_3 ++ t17_5 ++ t17_6

/-- The row of an entry and sub-entry. -/
def find (e sub : Nat) : Option Row := rows.find? fun r => r.e ≤ e && e ≤ r.eHi && r.lo ≤ sub && sub ≤ r.hi

/-- Some row names the entry (R538). -/
def hasEntry (e : Nat) : Bool := rows.any fun r => r.e ≤ e && e ≤ r.eHi

/-- Bytes of a value of the row (R524). -/
def Row.bytes (r : Row) : Nat :=
  match r.ty with
  | .u8 => 1
  | .u16 => 2
  | .u32 => 4
  | .u64 => 8
  | .i32 => 4
  | .dig => 32
  | .str => r.size
  | .blob => r.size

/-- A Groundsheet entry: RWP, or RWS with a value in its Default column (R530). -/
def Row.ground (r : Row) : Bool := r.acc == .rwp || (r.acc == .rws && r.given)

/-- The context that an entry serves (R12, R540). -/
def Row.ctxOf (r : Row) (e sub : Nat) : Option Nat :=
  match r.ctx with
  | none => none
  | some true => some (e - r.e)
  | some false => some (sub - 1)

/-- The key of an entry in a table. -/
def key (e sub : Nat) : Nat := 256 * e + sub

/-- The default of an entry. -/
def dflt (e sub : Nat) : Nat := ((find e sub).map (·.dflt)).getD 0

/-- Items of the factory Flysheets (R549, Table 17-7): key, bytes of the value, value. -/
def factory : Nat → List (Nat × Nat × Nat)
  | 0 => [(key 0xB010 0, 2, 750), (key 0xB003 0, 4, 7200), (key 0xA300 0, 1, 0)]
  | 1 => [(key 0xB010 0, 2, 700), (key 0xB003 0, 4, 6000)]
  | 2 => [(key 0xB010 0, 2, 650), (key 0xB003 0, 4, 2500)]
  | 3 => [(key 0xB010 0, 2, 690), (key 0xB040 0, 1, 0), (key 0xA300 0, 1, 1)]
  | 4 => [(key 0xB010 0, 2, 650), (key 0xB003 0, 4, 3000), (key 0x2110 0, 1, 8)]
  | 5 => [(key 0xB010 0, 2, 650), (key 0xB003 0, 4, 1500)]
  | _ => []

/-- ASCII names of the factory sheets (Table 17-7). -/
def factoryName : Nat → List Nat
  | 0 => [0x54, 0x72, 0x61, 0x69, 0x6E]
  | 1 => [0x45, 0x76, 0x61, 0x6C, 0x75, 0x61, 0x74, 0x65]
  | 2 => [0x49, 0x6E, 0x67, 0x65, 0x73, 0x74]
  | 3 => [0x4D, 0x61, 0x72, 0x67, 0x69, 0x6E]
  | 4 => [0x52, 0x65, 0x73, 0x74, 0x6F, 0x72, 0x65]
  | 5 => [0x53, 0x65, 0x72, 0x76, 0x69, 0x63, 0x65]
  | _ => []

/-- The bytes of one Flysheet item (R532). -/
def itemBytes (i : Nat × Nat × Nat) : List Nat :=
  let (k, n, v) := i
  let body := (Bits.toBytes n v).map (·.toNat)
  [(k / 256) % 256, k / 65536, k % 256, n] ++ body ++ List.replicate ((4 - n % 4) % 4) 0

/-- The factory bytes of a sheet (R532, R549). -/
def factoryBytes (slot : Nat) : List Nat :=
  if slot < 6 then
    let name := factoryName slot
    [(factory slot).length, 0, 1, 0, 0, 0, 0, 0] ++ name ++ List.replicate (8 - name.length) 0
      ++ (factory slot).flatMap itemBytes
  else []

/-- INGEST_DESC at delivery (Table 12-6). -/
def ingestDescDflt : List Nat := [65, 0, 2, 1, 17, 0, 1, 224, 0, 224, 0, 0, 0, 0, 0, 0, 16, 0, 0, 0, 0, 0, 0, 0, 0, 0, 0, 0, 0, 0, 0, 0]

/-- The default byte of a BLOB at `off`: 0, but for the factory Flysheets (Table 17-7), VC_ALLOC's 4,096 credits of each VC (Table 15-6), binary32 1.0 in STD
of INGEST_NORM, WINDOW 1 of each Ridgepole group (Table 7-3), and the reset columns of Table 12-6 in INGEST_DESC and Table 14-6 in BIV_CONFIG. -/
def blobDflt (e sub off : Nat) : Nat :=
  if e = 0x8010 then (if off = 0 then 0x40 else if off = 26 ∨ off = 27 then 2 else if off = 28 ∨ off = 29 then 1 else 0) else
  if e = 0x2020 then (factoryBytes (sub - 1)).getD off 0
  else if e = 0x6203 then (if off < 32 && off % 2 = 1 then 0x10 else 0)
  else if e = 0x7021 then (if 12 ≤ off && off < 24 then [0, 0, 0x80, 0x3F].getD (off % 4) 0 else 0)
  else if e = 0x7020 then ingestDescDflt.getD off 0
  else if e = 0x4040 then (if off % 128 = 0 then 1 else 0)
  else 0

end Sys2Proof.Dict

namespace Sys2Proof.WB

/-! Entry numbers by name. -/

abbrev ANCHOR_GUARD_ADJ : Nat := 0x3120
abbrev SEG_MAX : Nat := 0x3121
abbrev SEG_FOLDED : Nat := 0xA210
abbrev SEG_REPLAYED : Nat := 0xA211
abbrev PASS_REANCHOR : Nat := 0xA212
abbrev PASS_TWOWIN : Nat := 0xA213
abbrev PASS_SLICED : Nat := 0xA214
abbrev HS_FIRST : Nat := 0xA215
abbrev HS_REPLAY : Nat := 0xA216
abbrev ATTN_ROWS : Nat := 0xA220
abbrev ATTN_OOR : Nat := 0xA221
abbrev ATTN_TWOPASS : Nat := 0xA222
abbrev DRAIN_LIMIT : Nat := 0x4010
abbrev VERIFY_SEALED : Nat := 0x4011
abbrev ABORT_TARGET : Nat := 0x4012
abbrev ABORT_VALUE : Nat := 0x4012
abbrev ABORT_GO : Nat := 0x4012
abbrev POISON_CONTINUE : Nat := 0x4014
abbrev HALT_RECORD : Nat := 0x4020
abbrev MP_MAP : Nat := 0x4030
abbrev SHARE_SRC : Nat := 0x4031
abbrev SHARE_DST : Nat := 0x4031
abbrev SHARE_GO : Nat := 0x4031
abbrev HOST_POST : Nat := 0x4032
abbrev POST_REARM : Nat := 0x4033
abbrev RIDGE_GROUPS : Nat := 0x4040
abbrev WIN_REFUSED : Nat := 0x4041
abbrev PMP_FREE : Nat := 0x4042
abbrev OUTSTANDING : Nat := 0x5010
abbrev PAGE_WAIT_LIMIT : Nat := 0x5011
abbrev XFERS : Nat := 0x5020
abbrev XFER_SMALL : Nat := 0x5021
abbrev XFER_BYTES : Nat := 0x5022
abbrev PREF_CONFIRMED : Nat := 0x5023
abbrev PREF_CANCELLED : Nat := 0x5024
abbrev PAGE_PAUSES : Nat := 0x5025
abbrev MICROBATCHES : Nat := 0x3130
abbrev CENS_UEXP : Nat := 0x3131
abbrev QUIET_LIMIT : Nat := 0x3132
abbrev REJECT_POLICY : Nat := 0x3133
abbrev REJECT_LIMIT : Nat := 0x3134
abbrev GSTORES : Nat := 0x3140
abbrev TENSORS : Nat := 0x3150
abbrev BANKMAP_ADDR : Nat := 0x3151
abbrev EVAL_CTX : Nat := 0x3160
abbrev EVAL_EVERY : Nat := 0x3161
abbrev EVAL_START_MP : Nat := 0x3162
abbrev EVAL_DONE_MP : Nat := 0x3163
abbrev EVAL_BANKMAP : Nat := 0x3164
abbrev CENSUS : Nat := 0xA230
abbrev CENSUS_STEP : Nat := 0xA231
abbrev REJECT_RUN : Nat := 0xA232
abbrev STEPS_SKIPPED : Nat := 0xA233
abbrev STEP_GROUP : Nat := 0x4050
abbrev EPOCH_INFO : Nat := 0x4051
abbrev CARRIED : Nat := 0x4052
abbrev SPEC_DEPTH : Nat := 0x4053
abbrev STEP_BASE : Nat := 0x4054
abbrev COMMITTED_STEP : Nat := 0x4055
abbrev REDUNDANCY : Nat := 0xA300
abbrev REPLAY_NF_MAX : Nat := 0xA301
abbrev RESFAIL_MAX : Nat := 0xA302
abbrev VOTE_LIMIT : Nat := 0xA303
abbrev UNCERTAIN_POLICY : Nat := 0xA304
abbrev TILE_REPLAYS : Nat := 0xA310
abbrev COMMITS : Nat := 0xA311
abbrev SQUASHES : Nat := 0xA312
abbrev LEDGER : Nat := 0xA340
abbrev DEADLINES : Nat := 0xA341
abbrev FAULT_LOG : Nat := 0xA350
abbrev SH_STATE : Nat := 0xA360
abbrev SH_ENTER : Nat := 0xA361
abbrev SH_EXIT : Nat := 0xA362
abbrev CGROUPS : Nat := 0x6010
abbrev OPRECS : Nat := 0x6011
abbrev PGEN : Nat := 0x6012
abbrev PLACE_GO : Nat := 0x6013
abbrev MIG_DRAIN_LIMIT : Nat := 0x6014
abbrev PLACE_GROUPS : Nat := 0x6015
abbrev TAINTS : Nat := 0x6016
abbrev SEG_RESTARTS : Nat := 0x6020
abbrev SEG_FALLBACKS : Nat := 0x6021
abbrev LATE_OUT : Nat := 0x6022
abbrev LATE_DROPS : Nat := 0x6023
abbrev CARRIES : Nat := 0x6024
abbrev STALE_DISCARDS : Nat := 0x6025
abbrev GEN_DISCARDS : Nat := 0x6026
abbrev BAD_MSGS : Nat := 0x6027
abbrev MEMBERS : Nat := 0x6100
abbrev PLACE_MEMBERS : Nat := 0x6120
abbrev TARGETS : Nat := 0x7010
abbrev CATALOG_SRC : Nat := 0x7011
abbrev CATALOG_DIGEST : Nat := 0x7012
abbrev CATALOG_ADDR : Nat := 0x7013
abbrev INGEST_DESC : Nat := 0x7020
abbrev INGEST_NORM : Nat := 0x7021
abbrev DATA_SEED : Nat := 0x7022
abbrev GLOBAL_BATCH : Nat := 0x7023
abbrev INGEST_GROUP : Nat := 0x7024
abbrev OWNERS : Nat := 0x7025
abbrev SLOT_ADDR : Nat := 0x7026
abbrev NSLOT : Nat := 0x7027
abbrev SLOT_BYTES : Nat := 0x7028
abbrev SAMPLE_MP : Nat := 0x7029
abbrev INGEST_GO : Nat := 0x702A
abbrev INGEST_RETRIES : Nat := 0x7040
abbrev SLICES_IN_SERVICE : Nat := 0x7041
abbrev SAMPLES_READ : Nat := 0x7050
abbrev SAMPLES_VOID : Nat := 0x7051
abbrev BYTES_READ : Nat := 0x7052
abbrev PIXELS_DECODED : Nat := 0x7053
abbrev RANGE_RETRIES : Nat := 0x7054
abbrev VOID_LOG : Nat := 0x7055
abbrev MAP : Nat := 0x2100
abbrev MAP_PRESENT : Nat := 0x2101
abbrev SCRUB_PERIOD : Nat := 0x2110
abbrev FRAMES_FREE : Nat := 0x2111
abbrev CXL_PORT : Nat := 0x2112
abbrev RWINDOWS : Nat := 0x6030
abbrev PLACE_RWINDOWS : Nat := 0x6031
abbrev ECC_CORR : Nat := 0xA260
abbrev ECC_UNCORR : Nat := 0xA261
abbrev SPARED : Nat := 0xA262
abbrev SCRUB_PASSES : Nat := 0xA263
abbrev EAU_ADDS : Nat := 0xA270
abbrev EAU_SPILLS : Nat := 0xA271
abbrev POWER_DOMAIN : Nat := 0x8001
abbrev PAIR_OVERRIDE : Nat := 0x8002
abbrev HOLDUP_CHARGE : Nat := 0x8003
abbrev BIV_CONFIG : Nat := 0x8010
abbrev SAVESET : Nat := 0x8011
abbrev PAIR_GO : Nat := 0x8012
abbrev PAIR_STATE : Nat := 0x8013
abbrev GENERATIONS : Nat := 0x8020
abbrev RESTORE_STEP : Nat := 0x8030
abbrev RESTORE_GO : Nat := 0x8031
abbrev JOB_STATE : Nat := 0x8032
abbrev REFILL : Nat := 0x8033
abbrev SALVAGE_GO : Nat := 0x8034
abbrev GEN_TAKEN : Nat := 0x8040
abbrev GEN_SKIPPED : Nat := 0x8041
abbrev CHUNK_REFETCH : Nat := 0x8042
abbrev NODE_ADDR : Nat := 0x6200
abbrev PORT_CFG : Nat := 0x6201
abbrev PORT_STATE : Nat := 0x6202
abbrev VC_ALLOC : Nat := 0x6203
abbrev ROUTES : Nat := 0x6204
abbrev MAXHOPS : Nat := 0x6205
abbrev BYPASS_FORCE : Nat := 0x6206
abbrev ROUTE_GO : Nat := 0x6207
abbrev LINKCNT : Nat := 0x6210
abbrev MGR_SEL_STATE : Nat := 0x2001
abbrev PITCH : Nat := 0x2010
abbrev ACTIVE_FLYSHEET : Nat := 0x2011
abbrev PITCH_STATE : Nat := 0x2012
abbrev FLYSHEET : Nat := 0x2020
abbrev EVENT_MAC : Nat := 0x2030
abbrev RING_HOPS : Nat := 0x2031
abbrev MG_MAC : Nat := 0x2032
abbrev MBOX_VEC : Nat := 0x2033
abbrev WB_VEC : Nat := 0x2034
abbrev EVENT_LOG : Nat := 0x2040
abbrev PART_CODE : Nat := 0x1001
abbrev SERIAL : Nat := 0x1002
abbrev STEPPING : Nat := 0x1003
abbrev DEVICE_KEY : Nat := 0x1004
abbrev DEVICE_CERT : Nat := 0x1005
abbrev ATTEST_NONCE : Nat := 0x1006
abbrev ATTEST_REPORT : Nat := 0x1007
abbrev SLOT_ID : Nat := 0x1010
abbrev BOOT_SAFE : Nat := 0x1011
abbrev INV_REV : Nat := 0x3001
abbrev CTX_STATE : Nat := 0x4001
abbrev QUEUE_STATE : Nat := 0x4002
abbrev CTX_CORES : Nat := 0x4003
abbrev PACKAGE : Nat := 0x4004
abbrev CTX_OPEN_GO : Nat := 0x4005
abbrev LOAD_GO : Nat := 0x4006
abbrev START_GO : Nat := 0x4007
abbrev SAVE_GO : Nat := 0x4008
abbrev RESUME_GO : Nat := 0x4009
abbrev TEARDOWN_GO : Nat := 0x400A
abbrev CTX_MODE : Nat := 0x400B
abbrev CTX_ROLES : Nat := 0x400C
abbrev LOAD_REFUSAL : Nat := 0x400D
abbrev FW_ACTIVE_VER : Nat := 0x9001
abbrev FW_SLOT_ACTIVE : Nat := 0x9002
abbrev FW_SLOTS : Nat := 0x9003
abbrev FW_ARB : Nat := 0x9004
abbrev FW_STAGE_STATE : Nat := 0x9010
abbrev FW_STATUS : Nat := 0x9011
abbrev ACT_TAG : Nat := 0x9012
abbrev START_TAG : Nat := 0x9013
abbrev RESTART_GO : Nat := 0x9014
abbrev OWNER_LOCK : Nat := 0x9020
abbrev OWNER_TOKEN : Nat := 0x9021
abbrev OWNER_KEY : Nat := 0x9022
abbrev SEAL_KEYS : Nat := 0x9030
abbrev SPARE_SET : Nat := 0xA200
abbrev RETIRED : Nat := 0xA201
abbrev INPUT_MV : Nat := 0xB001
abbrev INPUT_W : Nat := 0xB002
abbrev POWER_CAP : Nat := 0xB003
abbrev PACED : Nat := 0xB004
abbrev CORE_VSET : Nat := 0xB010
abbrev CORE_MV : Nat := 0xB011
abbrev TEMP : Nat := 0xB020
abbrev COOLANT_IN : Nat := 0xB021
abbrev COOLANT_FLOW : Nat := 0xB022
abbrev CELL_RATE : Nat := 0xB030
abbrev DELAY_MARGIN : Nat := 0xB040
abbrev WATCHDOG : Nat := 0xB041
abbrev LOCAL_COUNT : Nat := 0xB050
abbrev FT_PERIOD : Nat := 0xC001
abbrev FT_PASSES : Nat := 0xC002
abbrev FT_FAILS : Nat := 0xC003
abbrev FT_LAST : Nat := 0xC004
abbrev TESTREAD_ADDR : Nat := 0xC010
abbrev TESTREAD : Nat := 0xC011
abbrev TAP_ENABLE : Nat := 0xC020
abbrev SELFTEST : Nat := 0xC030

end Sys2Proof.WB

namespace Sys2Proof.Machine

open Sys2Proof.Dict Sys2Proof.WB

/-- Offset of an entry's bytes in `wbb`. -/
def blobKey (e sub off : Nat) : Nat := 2 ^ 32 * key e sub + off

/-- One byte of a BLOB. -/
def State.blobByte (s : State) (e sub off : Nat) : Byte :=
  Tab.get 0 s.wbb (blobKey e sub off) ^^^ BitVec.ofNat 8 (blobDflt e sub off)

/-- `n` bytes of a BLOB from `off`. -/
def State.blob (s : State) (e sub off n : Nat) : List Byte := (List.range n).map fun i => s.blobByte e sub (off + i)

/-- `n` bytes of a BLOB as a little-endian number. -/
def State.blobNat (s : State) (e sub off n : Nat) : Nat := Bits.ofBytes (s.blob e sub off n)

/-- Write the bytes of a BLOB from `off`. -/
def State.setBlob (s : State) (e sub off : Nat) (bs : List Byte) : State :=
  let put := fun (t : Tab Byte) (x : Byte × Nat) =>
    Tab.set 0 t (blobKey e sub (off + x.2)) (x.1 ^^^ BitVec.ofNat 8 (blobDflt e sub (off + x.2)))
  { s with wbb := bs.zipIdx.foldl put s.wbb }

/-- The BLOB differs from its default somewhere. -/
def State.blobTouched (s : State) (e sub : Nat) : Bool :=
  s.wbb.any fun x => blobKey e sub 0 ≤ x.1 && x.1 < blobKey e (sub + 1) 0

/-- The items of a Flysheet that lie in its bytes from `off`, `n` of them (R532). -/
def State.flyItemsGo (s : State) (sub : Nat) : Nat → Nat → List (Nat × Nat × Nat)
  | 0, _ => []
  | n + 1, off =>
    let e := s.blobNat FLYSHEET sub off 2
    let su := s.blobNat FLYSHEET sub (off + 2) 1
    let len := s.blobNat FLYSHEET sub (off + 3) 1
    (key e su, len, s.blobNat FLYSHEET sub (off + 4) len) :: s.flyItemsGo sub n (off + 4 + 4 * Bits.cdiv len 4)

/-- The items of Flysheet `slot`. -/
def State.flyItems (s : State) (slot : Nat) : List (Nat × Nat × Nat) :=
  if s.blobTouched FLYSHEET (slot + 1) then s.flyItemsGo (slot + 1) (s.blobNat FLYSHEET (slot + 1) 0 2) 16
  else factory slot

/-- VALID of a Flysheet (R532). -/
def State.flyValid (s : State) (slot : Nat) : Bool := s.blobByte FLYSHEET (slot + 1) 2 != 0

/-- The item of the active Flysheet for an entry, if it holds one. -/
def State.flyItem (s : State) (k : Nat) : Option Nat := ((s.flyItems s.fly).find? fun i => i.1 == k).map (·.2.2)

/-- The value that a setting has after every write so far (R533): the active Flysheet's item, the Groundsheet value, or
the stored value. -/
def State.latest (s : State) (e sub : Nat) : Nat :=
  let k := key e sub
  match find e sub with
  | none => 0
  | some r =>
    let own := (Tab.get none (if r.ground then s.gs else s.wbv) k).getD r.dflt
    if r.ground then (s.flyItem k).getD own else own

/-- The value of an entry in force: the one that a write has replaced for the next step boundary, until that boundary. -/
def State.val (s : State) (e sub : Nat) : Nat := (Tab.get none s.held (key e sub)).getD (s.latest e sub)

/-- The value of a signed entry. -/
def State.ival (s : State) (e sub : Nat) : Int := Bits.signed (s.val e sub) 32

/-- Store a value of an entry that is not a Groundsheet entry. -/
def State.setVal (s : State) (e sub v : Nat) : State :=
  { s with wbv := Tab.set none s.wbv (key e sub) (if v = dflt e sub then none else some v) }

/-- Raise a counter entry by `n`; counters do not wrap (R101). -/
def State.count (s : State) (e sub n : Nat) : State := s.setVal e sub (min (s.latest e sub + n) (2 ^ 64 - 1))

/-- Raise a counter on a Tensor die and in the package total (R101). -/
def State.countDie (s : State) (e die n : Nat) : State :=
  let s := if die < 8 then s.count e (die + 1) n else s
  s.count e 9 n

/-- The local elapsed count of a die (chapter 19). -/
def State.clock (s : State) (die : Nat) : Nat := s.latest LOCAL_COUNT (die + 1)

end Sys2Proof.Machine
end

