-- ==== Sys2Proof/Machine/Exact.lean ====
section
/-!
DEFINITION. Exact numbers and the one rounding of the Bycel: dyadic numbers, quotients and square roots, rounded to
nearest with ties to even (R36, R37, R39, R109).
-/

namespace Sys2Proof

/-- The dyadic number m 2^e. -/
structure Dy where
  m : Int
  e : Int
deriving DecidableEq, Repr

namespace Dy

/-- `m` of a dyadic number at the exponent `e`, which is at most its own. -/
def at_ (a : Dy) (e : Int) : Int := a.m * 2 ^ (a.e - e).toNat

def zero : Dy := ⟨0, 0⟩
def one : Dy := ⟨1, 0⟩
def ofInt (i : Int) : Dy := ⟨i, 0⟩
def neg (a : Dy) : Dy := ⟨-a.m, a.e⟩
def add (a b : Dy) : Dy := let e := min a.e b.e; ⟨a.at_ e + b.at_ e, e⟩
def sub (a b : Dy) : Dy := a.add b.neg
def mul (a b : Dy) : Dy := ⟨a.m * b.m, a.e + b.e⟩
def abs (a : Dy) : Dy := ⟨a.m.natAbs, a.e⟩
/-- a < b -/
def lt (a b : Dy) : Bool := decide ((a.sub b).m < 0)
def le (a b : Dy) : Bool := decide ((a.sub b).m ≤ 0)
def eq (a b : Dy) : Bool := decide ((a.sub b).m = 0)
def isZero (a : Dy) : Bool := decide (a.m = 0)
/-- 2^e -/
def pow2 (e : Int) : Dy := ⟨1, e⟩
/-- floor(log2 |a|) of a nonzero `a`. -/
def log2 (a : Dy) : Int := (Nat.log2 a.m.natAbs : Int) + a.e
/-- `a` is an integer multiple of 2^e. -/
def multOf (a : Dy) (e : Int) : Bool := if e ≤ a.e then true else decide (a.m % 2 ^ (e - a.e).toNat = 0)
/-- The integer a / 2^e, rounded toward zero. -/
def truncAt (a : Dy) (e : Int) : Int := if e ≤ a.e then a.at_ e else Int.tdiv a.m (2 ^ (e - a.e).toNat)

end Dy

/-- n / d rounded to the nearest integer, ties to even (R36). -/
def rhe (n d : Nat) : Nat :=
  let q := n / d
  let r := n % d
  if 2 * r < d then q else if d < 2 * r then q + 1 else q + q % 2

/-- A binary floating-point format: exponent and fraction widths (Table 2-1). -/
structure Ff where
  eb : Nat
  fb : Nat
deriving DecidableEq, Repr

namespace Ff
def b16 : Ff := ⟨5, 10⟩
def bf16 : Ff := ⟨8, 7⟩
def b32 : Ff := ⟨8, 23⟩
def b64 : Ff := ⟨11, 52⟩
def m48 : Ff := ⟨8, 39⟩
/-- Precision: significand bits. -/
def p (f : Ff) : Nat := f.fb + 1
def bias (f : Ff) : Int := 2 ^ (f.eb - 1) - 1
/-- Least normal exponent. -/
def emin (f : Ff) : Int := 1 - f.bias
/-- Width of an encoding. -/
def width (f : Ff) : Nat := 1 + f.eb + f.fb
def signBit (f : Ff) (s : Bool) : Nat := if s then 2 ^ (f.eb + f.fb) else 0
/-- Infinity of sign `s`. -/
def inf (f : Ff) (s : Bool) : Nat := f.signBit s + (2 ^ f.eb - 1) * 2 ^ f.fb
/-- Canonical NaN, sign 0 (Table 2-2). -/
def cnan (f : Ff) : Nat := (2 ^ f.eb - 1) * 2 ^ f.fb + 2 ^ (f.fb - 1)
/-- Largest finite value, as a dyadic number. -/
def maxFin (f : Ff) : Dy := ⟨2 ^ (f.fb + 1) - 1, 2 ^ (f.eb - 1) - 1 - f.fb⟩
end Ff

/-- A decoded floating-point datum. `num s m e` is (-1)^s m 2^e. -/
inductive Fp where
  | nan (s : Bool) (frac : Nat) (sig : Bool)
  | inf (s : Bool)
  | num (s : Bool) (m : Nat) (e : Int)
deriving DecidableEq, Repr

namespace Fp

/-- The value of an encoding (R40, R47, R61). -/
def decode (f : Ff) (x : Nat) : Fp :=
  let s := Bits.bit x (f.eb + f.fb)
  let E := Bits.fld x f.fb f.eb
  let F := Bits.fld x 0 f.fb
  if E = 2 ^ f.eb - 1 then
    if F = 0 then .inf s else .nan s F (F < 2 ^ (f.fb - 1))
  else if E = 0 then .num s F (f.emin - f.fb)
  else .num s (F + 2 ^ f.fb) ((E : Int) - f.bias - f.fb)

def isNan : Fp → Bool | .nan .. => true | _ => false
def isSnan : Fp → Bool | .nan _ _ true => true | _ => false
def isInf : Fp → Bool | .inf _ => true | _ => false
def isZero : Fp → Bool | .num _ 0 _ => true | _ => false
def isFin : Fp → Bool | .num .. => true | _ => false
def sign : Fp → Bool | .nan s .. => s | .inf s => s | .num s .. => s
/-- The exact value of a finite datum. -/
def val : Fp → Dy
  | .num s m e => ⟨if s then -(m : Int) else m, e⟩
  | _ => Dy.zero
def ofDy (a : Dy) : Fp := .num (a.m < 0) a.m.natAbs a.e

end Fp

/-- The five exceptions of IEEE 754-2019 (R44), as VFLAGS orders them: bit 4 invalid, 3 divide by zero, 2 overflow,
1 underflow, 0 inexact. -/
structure Rounded where
  bits : Nat
  overflow : Bool := false
  underflow : Bool := false
  inexact : Bool := false
deriving DecidableEq, Repr

/-- floor(log2(n / d)) of a nonzero quotient. -/
def qlog2 (n d : Nat) : Int :=
  let l : Int := (Nat.log2 n : Int) - Nat.log2 d
  -- n / d < 2^l ?
  if (if 0 ≤ l then n < d * 2 ^ l.toNat else n * 2 ^ (-l).toNat < d) then l - 1 else l

/-- n 2^e / d rounded to an integer multiple of 2^q, as that integer. -/
def rheAt (n d : Nat) (e q : Int) : Nat :=
  if q ≤ e then rhe (n * 2 ^ (e - q).toNat) d else rhe n (d * 2 ^ (q - e).toNat)

/-- (-1)^s (n / d) 2^e rounded once into `f` (R36, R37, R39, R109): an unbounded-exponent rounding, then the range check.
Tininess is detected after rounding (R43). -/
def Ff.round (f : Ff) (s : Bool) (n d : Nat) (e : Int) : Rounded :=
  if n = 0 then ⟨f.signBit s, false, false, false⟩
  else
    let lead := qlog2 n d + e
    let qmin := f.emin - f.fb
    let q := max (lead - f.fb) qmin
    let k := rheAt n d e q
    -- exactness: k 2^q d = n 2^e
    let exact := if q ≤ e then k * d == n * 2 ^ (e - q).toNat else k * d * 2 ^ (q - e).toNat == n
    let ku := rheAt n d e (lead - f.fb)
    let tiny := decide (lead < f.emin) && !(decide (lead = f.emin - 1) && ku == 2 ^ f.p)
    let field := ((q - qmin).toNat) * 2 ^ f.fb + k
    if (2 ^ f.eb - 1) * 2 ^ f.fb ≤ field then ⟨f.inf s, true, false, true⟩
    else ⟨f.signBit s + field, false, tiny && !exact, !exact⟩

/-- A dyadic value rounded once into `f`; an exact zero gives +0 (R39). -/
def Ff.roundDy (f : Ff) (a : Dy) : Rounded := f.round (decide (a.m < 0)) a.m.natAbs 1 a.e

/-- Integer square root by Newton's steps, `fuel` of them: the floor for `fuel` at least the bit length. -/
def isqrtGo : Nat → Nat → Nat → Nat
  | 0, _, x => x
  | fuel + 1, n, x => let y := (x + n / x) / 2; if y < x then isqrtGo fuel n y else x

/-- floor(sqrt n). -/
def isqrt (n : Nat) : Nat := if n = 0 then 0 else isqrtGo (Nat.log2 n + 2) n (2 ^ (Nat.log2 n / 2 + 1))

/-- The square root of n 2^e / d with enough bits kept below the rounding position that its rounding into any format of
Table 2-1 is the rounding of the exact root: the quotient (root, denominator, exponent) of a value with a sticky low bit. -/
def sqrtQ (n d : Nat) (e : Int) : Nat × Int :=
  -- scale to an integer radicand with at least 2 * 80 significant bits and an even exponent
  let lead := qlog2 n d
  let sh : Int := 200 - lead
  let sh := if (e - sh) % 2 = 0 then sh else sh + 1
  let num := if 0 ≤ sh then n * 2 ^ sh.toNat else n
  let den := if 0 ≤ sh then d else d * 2 ^ (-sh).toNat
  let rad := num / den
  let r := isqrt rad
  let exact := decide (r * r = rad) && num % den == 0
  (2 * r + (if exact then 0 else 1), (e - sh) / 2 - 1)

/-- sqrt(n 2^e / d) rounded once into `f`. -/
def Ff.roundSqrt (f : Ff) (n d : Nat) (e : Int) : Rounded :=
  if n = 0 then ⟨0, false, false, false⟩ else let r := sqrtQ n d e; f.round false r.1 1 r.2

/-- A NaN datum carried into `f`, quietened, with its sign and the high-order payload bits that fit (R45). -/
def Ff.quiet (f : Ff) (src : Ff) (s : Bool) (frac : Nat) : Nat :=
  let fr := if src.fb ≤ f.fb then frac * 2 ^ (f.fb - src.fb) else frac / 2 ^ (src.fb - f.fb)
  f.signBit s + (2 ^ f.eb - 1) * 2 ^ f.fb + (fr ||| 2 ^ (f.fb - 1))

namespace L640

/-- The integer k of ACC. -/
def k (a : L640) : Int := a.acc.toInt

/-- Add k' 2^-300 exactly, with `n` terms (R68, R105). -/
def addK (a : L640) (i : Int) (n : Nat) : L640 :=
  { a with acc := BitVec.ofInt 640 (a.acc.toInt + i), terms := BitVec.ofNat 64 (sat (a.terms.toNat + n) (2 ^ 64 - 1)) }

/-- Add a dyadic value, a multiple of 2^-300, as `n` terms. -/
def addDy (a : L640) (x : Dy) (n : Nat) : L640 := a.addK (x.truncAt (-300)) n

/-- Add two slots (R68). -/
def add (a b : L640) : L640 where
  acc := a.acc + b.acc
  nan := a.nan || b.nan
  pinf := a.pinf || b.pinf
  ninf := a.ninf || b.ninf
  snan := a.snan || b.snan
  terms := BitVec.ofNat 64 (sat (a.terms.toNat + b.terms.toNat) (2 ^ 64 - 1))

/-- Add a datum exactly, as one term (R68, R70). -/
def addFp (a : L640) (x : Fp) : L640 :=
  match x with
  | .nan _ _ sg => { a with nan := true, snan := a.snan || sg, terms := BitVec.ofNat 64 (sat (a.terms.toNat + 1) (2 ^ 64 - 1)) }
  | .inf s => { a with pinf := a.pinf || !s, ninf := a.ninf || s, terms := BitVec.ofNat 64 (sat (a.terms.toNat + 1) (2 ^ 64 - 1)) }
  | .num .. => a.addDy x.val 1

/-- What a slot reads as (R69); NaN has no payload. -/
def read (a : L640) : Fp :=
  if a.nan || (a.pinf && a.ninf) then .nan false 1 false
  else if a.pinf then .inf false
  else if a.ninf then .inf true
  else Fp.ofDy ⟨a.acc.toInt, -300⟩

/-- Any special flag is set. -/
def special (a : L640) : Bool := a.nan || a.pinf || a.ninf

/-- The 96 bytes of a slot (Table 2-10). -/
def toNat (a : L640) : Nat :=
  a.acc.toNat + 2 ^ 640 * (Bits.ofBool a.nan + 2 * Bits.ofBool a.pinf + 4 * Bits.ofBool a.ninf + 8 * Bits.ofBool a.snan)
    + 2 ^ 644 * a.terms.toNat

/-- A slot from its 96 bytes; reserved bits read as zero. -/
def ofNat (x : Nat) : L640 where
  acc := BitVec.ofNat 640 x
  nan := Bits.bit x 640
  pinf := Bits.bit x 641
  ninf := Bits.bit x 642
  snan := Bits.bit x 643
  terms := BitVec.ofNat 64 (Bits.fld x 644 64)

end L640

/-- An exact datum rounded once into `f`; specials give the canonical NaN or the infinity (R69, R109). -/
def Ff.roundFp (f : Ff) (x : Fp) : Rounded :=
  match x with
  | .nan .. => ⟨f.cnan, false, false, false⟩
  | .inf s => ⟨f.inf s, false, false, false⟩
  | .num s m e => if m = 0 then ⟨0, false, false, false⟩ else f.round s m 1 e

end Sys2Proof
end

