-- ==== Sys2Proof/Machine/Formats.lean ====
section
/-!
DEFINITION. The storage formats of chapter 2: format codes, scaled blocks and their encoder, and what enters an exact form.
-/

namespace Sys2Proof.Fmt

/-- The floating-point format of a code of Table 2-1 that is not block-scaled or exact. -/
def ff : Nat → Option Ff
  | 0 => some Ff.b16
  | 1 => some Ff.bf16
  | 2 => some Ff.b32
  | 3 => some Ff.b64
  | 6 => some Ff.m48
  | _ => none

/-- V8 or G8. -/
def isBlock (f : Nat) : Bool := f == 4 || f == 5

/-- Bytes from one element to the next: interchange formats and M48 packed, L640 slots at 96 bytes, W128 words at 16
(R63, R67, R628). -/
def stride : Nat → Nat
  | 0 | 1 => 2
  | 2 => 4
  | 3 => 8
  | 6 => 6
  | 7 => 16
  | 8 => 96
  | _ => 1

/-- Alignment of an element base (R627, R628). -/
def align : Nat → Nat
  | 0 | 1 | 6 => 2
  | 2 => 4
  | 3 => 8
  | 7 => 16
  | 8 => 32
  | _ => 64

/-- Elements of a block by its SIZE code (Table 2-5). -/
def blockSize (code : Nat) : Nat := 16 * 2 ^ (code % 4)

/-- Bytes of a block record (R52). -/
def recBytes (code : Nat) : Nat := 4 + blockSize code

/-- Bytes of a row of `n` elements of format `f`, blocks padded (R52, R53). -/
def rowBytes (f bs n : Nat) : Nat := if isBlock f then recBytes bs * Bits.cdiv n (blockSize bs) else stride f * n

/-- Parts of an element format: fraction bits, weight of a subnormal step, greatest finite code, bias. -/
def elemFb (f : Nat) : Nat := if f == 4 then 3 else 2
def elemMin (f : Nat) : Int := if f == 4 then -10 else -17
def elemMaxCode (f : Nat) : Nat := if f == 4 then 0x7E else 0x7B
def elemMax (f : Nat) : Int := if f == 4 then 7 else 14

/-- The value of a V8 or G8 byte times 2^t (R49, R50, R55). -/
def elemVal (f : Nat) (b : Nat) (t : Int) : Fp :=
  let s := Bits.bit b 7
  let c := b % 128
  let fb := elemFb f
  let e := c / 2 ^ fb
  let fr := c % 2 ^ fb
  if f == 4 && c == 0x7F then .nan s 1 false
  else if f != 4 && e == 31 then (if fr = 0 then .inf s else .nan s 1 false)
  else if e = 0 then .num s fr (elemMin f + t)
  else .num s (fr + 2 ^ fb) (elemMin f + (e - 1 : Nat) + t)

/-- Element `i` of the block record with header `hdr` and element byte `b` (R55, R56). -/
def blockVal (f bs hdr b i : Nat) : Fp :=
  let sc := Bits.fld hdr 0 8
  let ev := Bits.bit hdr 15
  let ei := Bits.fld hdr 8 7
  let t : Int := sc - 127
  if (0xE0 ≤ sc && sc ≤ 0xFE) || (ev && (blockSize bs ≤ ei || sc == 0xFF)) then .nan false 1 false
  else if sc = 0xFF then .num false 0 0
  else if ev && ei == i then
    match Fp.decode Ff.b16 (Bits.fld hdr 16 16) with
    | .num s m e => .num s m (e + t + 16)
    | x => x
  else elemVal f b t

/-- A malformed block (R56). -/
def malformed (bs hdr : Nat) : Bool :=
  let sc := Bits.fld hdr 0 8
  (0xE0 ≤ sc && sc ≤ 0xFE) || (Bits.bit hdr 15 && (blockSize bs ≤ Bits.fld hdr 8 7 || sc == 0xFF))

/-- The code field of a finite magnitude rounded into an element format, before its ceiling (R36, R58). -/
def elemField (f : Nat) (a : Dy) : Nat :=
  if a.isZero then 0
  else
    let q := max (a.log2 - elemFb f) (elemMin f)
    (q - elemMin f).toNat * 2 ^ elemFb f + rheAt a.m.natAbs 1 a.e q

/-- An element rounded into V8 or G8 under the exponent `t`: byte, crushed, saturated (R58); an exact zero of either sign gives +0 (R39). -/
def elemRound (f : Nat) (t : Int) (x : Fp) : Nat × Bool × Bool :=
  let sgn (s : Bool) := if s then 0x80 else 0
  match x with
  | .nan s .. => (sgn s + (if f == 4 then 0x7F else 0x7E), false, false)
  | .inf s => if f == 4 then (sgn s + 0x7F, false, true) else (sgn s + 0x7C, false, false)
  | .num s m e =>
    let c := elemField f ⟨m, e - t⟩
    if m = 0 then (0, false, false)
    else if elemMaxCode f < c then (sgn s + elemMaxCode f, false, true)
    else (sgn s + c, decide (c = 0), false)

/-- need(x) (chapter 2, Encoding with a hardware-chosen scale). -/
def need (f : Nat) (a : Dy) : Int :=
  let t := a.log2 - elemMax f
  if elemMaxCode f < elemField f ⟨a.m, a.e - t⟩ then t + 1 else t

/-- tesc(x). -/
def tesc (a : Dy) : Int :=
  let t := a.log2 - 31
  if 2047 < rheAt a.m.natAbs 1 a.e (a.log2 - 10) then t + 1 else t

/-- The magnitudes of the finite elements. -/
def mags (xs : List Fp) : List Dy := xs.filterMap fun x => match x with | .num _ m e => some ⟨m, e⟩ | _ => none

def maxMag (l : List Dy) : Dy := l.foldl (fun a b => if a.lt b then b else a) Dy.zero

/-- Remove the first element equal to `a`. -/
def dropFirst (a : Dy) : List Dy → List Dy
  | [] => []
  | b :: l => if a.eq b then l else b :: dropFirst a l

/-- An encoded block: header, element bytes, crush and saturation counts. -/
structure Block where
  hdr : Nat
  bytes : List Nat
  crush : Nat
  sat : Nat
deriving DecidableEq, Repr

/-- The scale exponent and escaped element of R57, for elements of which some finite one is nonzero. -/
def chooseScale (f : Nat) (esc : Bool) (xs : List Fp) : Int × Option Nat :=
  let ms := mags xs
  let a1 := maxMag ms
  if a1.isZero then (0, none)
  else
    let a2 := maxMag (dropFirst a1 ms)
    let t1 := clampI (need f a1) (-127) 96
    let t2 := clampI (max (if a2.isZero then t1 else need f a2) (tesc a1)) (-127) 96
    let crushes := xs.any fun x => x.isFin && (elemRound f t1 x).2.1
    if esc && (decide (96 < need f a1) || (!a2.isZero && crushes && decide (t2 < t1))) then
      (t2, some (xs.findIdx fun x => x.isFin && x.val.abs.eq a1))
    else (t1, none)

/-- Encode a block (R57 to R60).  `pin`: the pinned scale code. -/
def encode (f : Nat) (esc : Bool) (pin : Option Nat) (xs : List Fp) : Block :=
  if xs.all Fp.isZero then ⟨0xFF, xs.map fun _ => 0, 0, 0⟩
  else
    let (t, escape) := match pin with
      | some c => ((c : Int) - 127, none)
      | none => chooseScale f esc xs
    let rs := (xs.zipIdx).map fun (x, i) => if escape = some i then (0, false, false) else elemRound f t x
    let (ehdr, esat) := match escape with
      | none => (0, 0)
      | some i =>
        let x := xs.getD i (.inf false)
        let r := Ff.b16.round x.sign x.val.m.natAbs 1 (x.val.e - t - 16)
        let v := if r.overflow then Ff.b16.signBit x.sign + 0x7BFF else r.bits
        (v * 65536 + 0x8000 + i * 256, Bits.ofBool r.overflow)
    { hdr := ehdr + (t + 127).toNat
      bytes := rs.map (·.1)
      crush := (rs.filter (·.2.1)).length
      sat := (rs.filter (·.2.2)).length + esat }

/-- What a block decodes to, element by element. -/
def Block.vals (f bs : Nat) (b : Block) : List Fp := b.bytes.zipIdx.map fun (x, i) => blockVal f bs b.hdr x i

/-- What an encoding of an interchange format, bfloat16 or M48 puts into an exact form: a binary64 value enters after one
rounding to binary32, and keeps a signaling NaN signaling (R70). -/
def enter (f : Nat) (x : Nat) : Fp :=
  match ff f with
  | none => .num false 0 0
  | some fm =>
    let v := Fp.decode fm x
    if f == 3 then
      match v with
      | .num s m e => Fp.decode Ff.b32 (Ff.b32.round s m 1 e).bits
      | _ => v
    else v

/-- The exponent that a decoded value contributes to an exponent summary (R84). -/
def expOf (x : Fp) : Option Int := if x.isFin && !x.isZero then some x.val.log2 else none

def maxOpt (a b : Option Int) : Option Int :=
  match a, b with
  | none, b => b
  | a, none => a
  | some x, some y => some (max x y)

/-- Group record fields (Table 2-11). -/
def grpAnchor (r : Nat) : Int := Bits.signed (Bits.fld r 256 16) 16
def grpNspill (r : Nat) : Nat := Bits.fld r 272 16
def grpState (r i : Nat) : Nat := Bits.fld r (4 * i) 4
/-- Replace the state nibble of element `i`. -/
def grpSetState (r i v : Nat) : Nat := r - grpState r i * 2 ^ (4 * i) + v % 16 * 2 ^ (4 * i)
/-- A group anchor inside -300 to 212 (R74). -/
def anchorOk (a : Int) : Bool := decide (-300 ≤ a) && decide (a ≤ 212)

/-- The L640 form of an unspilled W128 element (R69, Table 2-11). -/
def w128Slot (anchor : Int) (state word : Nat) : L640 :=
  { acc := BitVec.ofInt 640 (Bits.signed word 128 * 2 ^ (anchor + 300).toNat)
    nan := Bits.bit state 2, ninf := Bits.bit state 1, pinf := Bits.bit state 0 }

/-- ACC k is a multiple of 2^A inside the W128 range of anchor A (R71). -/
def fitsAt (k anchor : Int) : Bool :=
  let g : Int := 2 ^ (anchor + 300).toNat
  decide (k % g = 0) && decide (-(2 ^ 127) ≤ k / g) && decide (k / g < 2 ^ 127)

end Sys2Proof.Fmt
end

