-- ==== Sys2Proof/Machine/Ops.lean ====
section
/-!
DEFINITION. The named operations over cores, queues, contexts, device memory and core stores; events, mailboxes and the fault log.
-/

namespace Sys2Proof

/-- QUEUE field (Table 5-7) and mask bit (Table 6-7). -/
def Queue.num : Queue → Nat
  | .O => 0
  | .T => 1
  | .V => 2
  | .F => 3
  | .U => 4

def Queue.ofNum : Nat → Queue
  | 0 => .O
  | 1 => .T
  | 2 => .V
  | 3 => .F
  | _ => .U

end Sys2Proof

namespace Sys2Proof.Machine

open Sys2Proof.WB

/-! ### Cores, queues, contexts -/

def State.core (s : State) (c : Nat) : Core := Tab.get {} s.cores c
def State.setCore (s : State) (c : Nat) (x : Core) : State := { s with cores := Tab.set {} s.cores c x }
def State.updCore (s : State) (c : Nat) (f : Core → Core) : State := s.setCore c (f (s.core c))

def Core.q (c : Core) : Queue → QueueSt
  | .O => c.qO
  | .T => c.qT
  | .V => c.qV
  | .F => c.qF
  | .U => c.qU

def Core.setQ (c : Core) (q : Queue) (x : QueueSt) : Core :=
  match q with
  | .O => { c with qO := x }
  | .T => { c with qT := x }
  | .V => { c with qV := x }
  | .F => { c with qF := x }
  | .U => { c with qU := x }

def State.queue (s : State) (q : QRef) : QueueSt := (s.core q.core.val).q q.queue
def State.setQueue (s : State) (q : QRef) (x : QueueSt) : State := s.updCore q.core.val fun c => c.setQ q.queue x
def State.updQueue (s : State) (q : QRef) (f : QueueSt → QueueSt) : State := s.setQueue q (f (s.queue q))

def State.ctx (s : State) (k : Nat) : Ctx := Tab.get {} s.ctxs k
def State.setCtx (s : State) (k : Nat) (x : Ctx) : State := { s with ctxs := Tab.set {} s.ctxs k x }
def State.updCtx (s : State) (k : Nat) (f : Ctx → Ctx) : State := s.setCtx k (f (s.ctx k))

def State.pmp (s : State) (n : Nat) : Pmp := Tab.get {} s.pmps n
def State.setPmp (s : State) (n : Nat) (x : Pmp) : State := { s with pmps := Tab.set {} s.pmps n x }

def State.emit (s : State) (o : Out) : State := { s with out := s.out ++ [o] }

/-- The queues of a core, in the order of Table 5-7. -/
def allQueues : List Queue := [.O, .T, .V, .F, .U]

/-- The die of a core: global core number 88 d + c (R9). -/
def coreDie (c : Nat) : Nat := c / 88

/-- The cores of a context, in role order. -/
def State.ctxCores (s : State) (k : Nat) : List Nat := (s.ctx k).roles

/-- Every queue of a context. -/
def State.ctxQueues (s : State) (k : Nat) : List QRef :=
  (s.ctxCores k).flatMap fun c => if h : c < 704 then allQueues.map fun q => ⟨⟨c, h⟩, q⟩ else []

/-- Apply a change to every queue of a context. -/
def State.eachQueue (s : State) (k : Nat) (f : State → QRef → State) : State := (s.ctxQueues k).foldl f s

/-- Apply a change to every core of a context. -/
def State.eachCore (s : State) (k : Nat) (f : Core → Core) : State := (s.ctxCores k).foldl (fun s c => s.updCore c f) s

/-- Apply a change to every context. -/
def State.eachCtx (s : State) (f : State → Nat → State) : State := (List.range 16).foldl f s

/-! ### Events (R515 to R517) and the fault log (R360, R629) -/

def State.mailbox (s : State) (fn : Nat) : Mailbox := Tab.get {} s.mailboxes fn

/-- A function of the host link is enabled: PF0, or a VF whose VF Enable is set (R510). -/
def State.fnEnabled (s : State) (fn : Nat) : Bool := fn == 0 || s.vfs.contains fn

/-- Put an event record into the mailbox of a function (R516). -/
def State.deliver (s : State) (fn : Nat) (r : BitVec 512) : State :=
  let m := s.mailbox fn
  if m.prod - m.cons < 1024 then
    let s1 := { s with mailboxes := Tab.set {} s.mailboxes fn { m with recs := Tab.set 0 m.recs (m.prod % 1024) r, prod := m.prod + 1 } }
    if m.prod = m.cons then s1.emit (.msix fn (s.val MBOX_VEC (fn + 1))) else s1
  else { s with mailboxes := Tab.set {} s.mailboxes fn { m with lost := m.lost + 1 } }

/-- The last `n` entries of a log with one more appended. -/
def logPush {α : Type} (n : Nat) (l : List α) (x : α) : List α := (l ++ [x]).drop (l.length + 1 - n)

/-- The event record of Table 16-4. -/
def eventRec (code : Nat) (ctx : Option Nat) (die seq ts data : Nat) : BitVec 512 :=
  BitVec.ofNat 512 (code % 2 ^ 16 + (if ctx.isSome then 2 ^ 16 else 0) + 2 ^ 17 * (ctx.getD 0 % 16) + 2 ^ 21 * (die % 16)
    + 2 ^ 32 * (seq % 2 ^ 32) + 2 ^ 64 * (ts % 2 ^ 64) + 2 ^ 128 * data)

/-- The EVENT message of a record, on both ring ports (R521, Table 16-6). -/
def State.ringEvent (s : State) (seq : Nat) (r : BitVec 512) : State :=
  let mac := s.val EVENT_MAC 0
  if mac = 0 then s
  else
    let f : MgFrame := { dst := mac % 2 ^ 48, src := s.val MG_MAC 0
                         msg := { op := 5, resp := true, seq := seq, hops := s.val RING_HOPS 0, data := Bits.toBytes 64 r.toNat } }
    (s.emit (.ring false f)).emit (.ring true f)

/-- Post an event: `die` reports it (0-7 T0-T7, 8 H0, 9 H1). -/
def State.event (s : State) (code : Nat) (ctx : Option Nat) (die data : Nat) : State :=
  let r := eventRec code ctx die s.evSeq (s.clock die) data
  let seq := s.evSeq
  let s := { s with evSeq := (s.evSeq + 1) % 2 ^ 32, events := logPush 4096 s.events r }
  let s := s.deliver 0 r
  let s := match ctx with
    | some k => if k ≠ 0 ∧ s.fnEnabled k then s.deliver k r else s
    | none => s
  s.ringEvent seq r

/-- Two values of an event's DATA, in consecutive 64-bit words (log entry 10). -/
def evData2 (a b : Nat) : Nat := a + 2 ^ 64 * b
def evData3 (a b c : Nat) : Nat := a + 2 ^ 64 * b + 2 ^ 128 * c

/-- The fault log record of Table 10-9. -/
def faultRec (cls sub action : Nat) (core ctx : Option Nat) (die ts detail addr : Nat) : BitVec 256 :=
  BitVec.ofNat 256 (1 + 2 ^ 8 * cls + 2 ^ 16 * sub + 2 ^ 22 * action + 2 ^ 26 * (core.getD 0x3FF) + 2 ^ 36 * (die % 16)
    + 2 ^ 40 * (ctx.getD 0) + (if ctx.isSome then 2 ^ 44 else 0) + 2 ^ 64 * (detail % 2 ^ 64) + 2 ^ 128 * (addr % 2 ^ 64)
    + 2 ^ 192 * (ts % 2 ^ 64))

/-- The syndrome or residue pair of the next fault record (log entry 32). -/
def State.syndrome (s : State) : Nat := Config.faultDetail s.evSeq

/-- Log a fault and report it (R360).  Its index in the log is the log's length less one. -/
def State.logFault (s : State) (cls sub action : Nat) (core ctx : Option Nat) (die detail addr : Nat) : State :=
  let r := faultRec cls sub action core ctx die (s.clock die) detail addr
  let s := { s with faults := logPush 4096 s.faults r }
  s.event 0x0002 ctx die r.toNat

/-! ### Core stores (R147, R172 to R174, R84, R150, R450) -/

/-- Size of a core store (R147). -/
def storeSize : Nat := 0x600000

/-- The entries of the buffer table that are defined. -/
def Core.buffers (c : Core) : List (Nat × Buf) := c.bufs.filterMap fun e => e.2.map fun b => (e.1, b)

/-- A buffer that queue `q` holds and that covers address `a`: number, buffer, and whether it is held in write mode. -/
def Core.heldAt (c : Core) (q : Queue) (a : Nat) : Option (Nat × Buf × Bool) :=
  (c.buffers.find? fun e => (e.2.writer == some q || e.2.readers.contains q) && e.2.base ≤ a && a < e.2.base + e.2.len).map
    fun e => (e.1, e.2, e.2.writer == some q)

/-- The buffer-ownership sentinel on [a, e): halt code and DETAIL of the access it refuses (R174). -/
def Core.sentinelGo (c : Core) (q : Queue) (wr : Bool) : Nat → Nat → Nat → Option (Nat × Nat)
  | 0, _, _ => none
  | fuel + 1, a, e =>
    if e ≤ a then none
    else
      match c.heldAt q a with
      | none => some (0x10, 0)
      | some (n, b, w) => if wr && !w then some (0x11, n) else c.sentinelGo q wr fuel (b.base + b.len) e

def Core.sentinel (c : Core) (q : Queue) (wr : Bool) (a n : Nat) : Option (Nat × Nat) := c.sentinelGo q wr 65 a (a + n)

/-- Bytes of the core store. -/
def Core.read (c : Core) (a n : Nat) : List Byte := Tab.getRange 0 c.store a n
def Core.readNat (c : Core) (a n : Nat) : Nat := Bits.ofBytes (c.read a n)

/-- A poisoned line in [a, a + n) (R450). -/
def linePoisoned (t : Tab Bool) (a n : Nat) : Bool :=
  (List.range ((a + n - 1) / 64 - a / 64 + 1)).any fun i => n ≠ 0 && Tab.get false t (a / 64 + i)

/-- The address of the first of `n` elements of `w` bytes, from `a` on, of which `bad` holds (R230). -/
def firstElem (bad : Nat → Nat → Bool) (a w n : Nat) : Option Nat :=
  ((List.range n).find? fun i => bad (a + w * i) w).map fun i => a + w * i

/-- A write that covers a whole line clears its poison (R450). -/
def clearPoison (t : Tab Bool) (a n : Nat) : Tab Bool :=
  t.filter fun e => !(decide (a ≤ 64 * e.1) && decide (64 * e.1 + 64 ≤ a + n))

/-- Write bytes, each with the exponent that it contributes to its run's summary (R84, R150). -/
def Core.write (c : Core) (a : Nat) (bs : List Byte) (exps : List (Option Int)) : Core :=
  { c with
    store := Tab.setRange 0 c.store a bs
    summ := Tab.setRange none c.summ a (List.zipWith Fmt.maxOpt exps (Tab.getRange none c.summ a exps.length))
    poison := clearPoison c.poison a bs.length }

/-- The summary of a write that names no format (R84). -/
def noFormat (n : Nat) : List (Option Int) := List.replicate n (some 127)

/-! ### Device memory (R440 to R447) -/

/-- A region record (Table 13-4). -/
structure Region where
  vbase : Nat
  npage : Nat
  targets : Nat
  demand : Bool
  kind : Nat
deriving DecidableEq, Repr

def pageSize : Nat := 0x200000

/-- Region `i` of a context, when enabled. -/
def State.region (s : State) (k i : Nat) : Option Region :=
  let off := 32 * i
  if s.blobByte MAP (k + 1) off &&& 1 = 1 then
    let r := s.blobNat MAP (k + 1) off 32
    some { vbase := Bits.fld r 160 64, npage := Bits.fld r 128 32, targets := Bits.fld r 16 16, demand := Bits.bit r 3, kind := Bits.fld r 1 2 }
  else none

/-- The enabled region that holds an address, with its number. -/
def State.regionAt (s : State) (k va : Nat) : Option (Nat × Region) :=
  (List.range 64).findSome? fun i =>
    match s.region k i with
    | some r => if r.vbase ≤ va && va < r.vbase + r.npage * pageSize then some (i, r) else none
    | none => none

/-- A remote window record (Table 13-6). -/
structure RWin where
  rbase : Nat
  vbase : Nat
  npage : Nat
  arrmp : Nat
  rank : Nat
  group : Nat
deriving DecidableEq, Repr

def State.rwin (s : State) (k i : Nat) : Option RWin :=
  let off := 32 * i
  if s.blobByte RWINDOWS (k + 1) off &&& 1 = 1 then
    let r := s.blobNat RWINDOWS (k + 1) off 32
    some { rbase := Bits.fld r 176 64, vbase := Bits.fld r 112 64, npage := Bits.fld r 80 32, arrmp := Bits.fld r 31 13, rank := Bits.fld r 19 12, group := Bits.fld r 13 6 }
  else none

def State.rwinAt (s : State) (k va : Nat) : Option RWin :=
  (List.range 64).findSome? fun i =>
    match s.rwin k i with
    | some r => if r.vbase ≤ va && va < r.vbase + r.npage * pageSize then some r else none
    | none => none

/-- The number of the window that holds an address: OPREC of a SEND or RADD (Table 11-3). -/
def State.rwinNum (s : State) (k va : Nat) : Nat :=
  ((List.range 64).find? fun i =>
    match s.rwin k i with
    | some r => decide (r.vbase ≤ va) && decide (va < r.vbase + r.npage * pageSize)
    | none => false).getD 0

/-- Where a device virtual address leads (Tables 13-3, 13-5). -/
inductive Where where
  | mem
  | window (w : RWin)
  | coreWin
  | notPresent
  | none
deriving DecidableEq, Repr

/-- Core-store window of the map (Table 13-3). -/
def coreWinBase : Nat := 0x0000F00000000000
def coreWinEnd : Nat := 0x0000F00140000000

/-- Presence of page `p` of region `i` (R444). -/
def State.pagePresent (s : State) (k i : Nat) (r : Region) (p : Nat) : Bool :=
  !r.demand || Tab.get false (s.ctx k).present (2 ^ 27 * i + p)

def State.whereIs (s : State) (k va : Nat) : Where :=
  if coreWinBase ≤ va ∧ va < coreWinEnd then .coreWin
  else
    match s.regionAt k va with
    | some (i, r) => if s.pagePresent k i r ((va - r.vbase) / pageSize) then .mem else .notPresent
    | none =>
      match s.rwinAt k va with
      | some w => .window w
      | none => .none

/-- The first byte of [va, va + n) whose page is not plain present memory, with where it leads. -/
def State.memCheck (s : State) (k va n : Nat) : Option (Nat × Where) :=
  if n = 0 then none
  else
    (List.range ((va + n - 1) / pageSize - va / pageSize + 1)).findSome? fun i =>
      let a := if i = 0 then va else (va / pageSize + i) * pageSize
      match s.whereIs k a with
      | .mem => none
      | w => some (a, w)

/-- Read and write bytes of a context's device memory; what nothing has written reads as zero in a present page (R444). -/
def State.memRead (s : State) (k va n : Nat) : List Byte := Tab.getRange 0 (s.ctx k).mem va n
def State.memNat (s : State) (k va n : Nat) : Nat := Bits.ofBytes (s.memRead k va n)
def State.memWrite (s : State) (k va : Nat) (bs : List Byte) : State :=
  s.updCtx k fun c => { c with mem := Tab.setRange 0 c.mem va bs, poison := clearPoison c.poison va bs.length }
def State.memWriteNat (s : State) (k va n x : Nat) : State := s.memWrite k va (Bits.toBytes n x)

/-- Bits set in a mask of targets, in order from bit 0. -/
def setBits (m : Nat) : List Nat := (List.range 16).filter fun i => Bits.bit m i

/-- The frame target of an address: 0-15 stacks M0-M15, 16-19 ports C0-C3 (R442). -/
def Region.target (r : Region) (va : Nat) : Nat :=
  let ts := setBits r.targets
  let p := (va - r.vbase) / pageSize
  ts.getD (p % ts.length) 0 + (if r.kind = 1 then 16 else 0)

def State.targetOf (s : State) (k va : Nat) : Nat := match s.regionAt k va with | some (_, r) => r.target va | none => 0

/-- The die whose controller serves a frame target: T0-T7 two stacks each, H0 the ports C0 and C1, H1 the ports C2 and C3 (R15, R20). -/
def targetDie (t : Nat) : Nat := if t < 16 then t / 2 else 8 + (t - 16) / 2

/-- The first byte of [va, va + n), of the first page of it, whose frame lies behind a CXL port that is down (R439). -/
def State.portLost (s : State) (k va n : Nat) : Option Nat :=
  if n = 0 ∨ s.cxlDown = [] then none
  else
    (List.range ((va + n - 1) / pageSize - va / pageSize + 1)).findSome? fun i =>
      let a := if i = 0 then va else (va / pageSize + i) * pageSize
      match s.regionAt k a with
      | some (_, r) => if r.kind = 1 ∧ s.cxlDown.contains (r.target a - 16) = true then some a else none
      | none => none

/-- A line of memory that reads as an uncorrectable error: poisoned, or behind a CXL port that is down (R439, R450). -/
def State.memPoisoned (s : State) (k va n : Nat) : Bool := linePoisoned (s.ctx k).poison va n || (s.portLost k va n).isSome

/-- TARGETS holds an enabled record of this number. -/
def State.targetUsed (s : State) (t : Nat) : Bool := decide (t < 64) && Bits.bit (s.blobNat TARGETS 0 (512 * t) 1) 0

/-- A write of a Hub service, not of a queue or a Caravan endpoint: behind a CXL port that is down it completes as an uncorrectable fault, logged FA
with SUB 0x07 and ACTION 8, and nothing is written (R439; DESIGN CHOICE, log entry 105). -/
def State.hubWrite (s : State) (k va : Nat) (bs : List Byte) : State :=
  match s.portLost k va bs.length with
  | some a => s.logFault 0xFA 0x07 8 none (some k) (targetDie (s.targetOf k a)) s.syndrome a
  | none => s.memWrite k va bs

def State.hubWriteNat (s : State) (k va n x : Nat) : State := s.hubWrite k va (Bits.toBytes n x)

/-- The TAP lets go of the pins. -/
def Tap.release (t : Tap) : Tap := { t with driven := [], highz := false }

end Sys2Proof.Machine
end

