-- ==== Sys2Proof/Machine/Mile.lean ====
section
/-!
DEFINITION. Mileposts and epochs' view of them (chapter 7): translation, the value an observer sees, advances at the home, posts, poison.
-/

namespace Sys2Proof.Machine

open Sys2Proof.WB

/-! ### Epochs of a context -/

/-- The step group of a context; none: no epochs (R335). -/
def State.stepGroup (s : State) (k : Nat) : Option Nat :=
  let g := s.val STEP_GROUP (k + 1)
  if g < 64 then some g else none

/-- The epoch is not final and has not been squashed for good. -/
def Epoch.live (e : Epoch) : Bool := e.st == .opened || e.st == .closed || e.st == .committing || e.st == .held

/-- Not yet past its commit point. -/
def Epoch.uncommitted (e : Epoch) : Bool := e.st == .opened || e.st == .closed || e.st == .held

/-- A squash strikes it; an epoch that is HELD stays so until Safe Hold is left (Table 10-1). -/
def Epoch.squashable (e : Epoch) : Bool := e.st == .opened || e.st == .closed

def Ctx.epoch (c : Ctx) (n : Nat) : Option Epoch := c.epochs.find? fun e => e.n == n

/-- The oldest uncommitted epoch: COMMITTING counts until its Mileposts are committed, which a commit does whole. -/
def Ctx.oldest (c : Ctx) : Option Nat := (c.epochs.find? Epoch.live).map (·.n)

def Ctx.updEpoch (c : Ctx) (n : Nat) (f : Epoch → Epoch) : Ctx :=
  { c with epochs := c.epochs.map fun e => if e.n = n then f e else e }

def State.updEpoch (s : State) (k n : Nat) (f : Epoch → Epoch) : State := s.updCtx k fun c => c.updEpoch n f

/-- The epoch of the work that a queue is issuing (R338); none in a context without epochs. -/
def State.epochOf (s : State) (k : Nat) (x : QueueSt) : Option Nat :=
  if (s.stepGroup k).isSome then some (s.val STEP_BASE (k + 1) + x.round + 1) else none

/-! ### Values -/

def State.mpEntry (s : State) (k mp : Nat) : MpEntry := Tab.get {} (s.ctx k).mpmap mp

/-- The pending field of an epoch's parity (R246). -/
def Pmp.pend (p : Pmp) (n : Nat) : Nat := if n % 2 = 0 then p.pend0 else p.pend1
def Pmp.setPend (p : Pmp) (n x : Nat) : Pmp := if n % 2 = 0 then { p with pend0 := x } else { p with pend1 := x }

/-- The value that work of epoch `ep` of context `k` sees (R247); `shared` entries and contexts without epochs see CVAL. -/
def State.seen (s : State) (k : Nat) (shared : Bool) (p : Pmp) (ep : Option Nat) : Nat :=
  match shared, ep, (s.ctx k).oldest with
  | false, some n, some e =>
    if !p.spec then p.cval
    else if n = e then p.cval + p.pend e
    else if n = e + 1 then p.cval + p.pend e + p.pend (e + 1)
    else p.cval
  | _, _, _ => p.cval

/-- The value of a Milepost as a queue in epoch `ep` of context `k` sees it. -/
def State.mpSeen (s : State) (k mp : Nat) (ep : Option Nat) : Nat :=
  let e := s.mpEntry k mp
  s.seen k e.shared (s.pmp e.pmp) ep

/-- A Milepost is poisoned. -/
def State.mpPoisoned (s : State) (k mp : Nat) : Bool := (s.pmp (s.mpEntry k mp).pmp).st == .poisoned

/-- The home of a physical Milepost (R231). -/
def pmpHome (n : Nat) : Nat := n / 16384

/-! ### Posts (R262 to R265) -/

/-- The context-local number by which the owner knows a physical Milepost. -/
def State.ownerMp (s : State) (n : Nat) : Option Nat :=
  ((s.ctx (s.pmp n).owner).mpmap.find? fun e => e.2.valid && !e.2.shared && e.2.pmp == n).map (·.1)

/-- The enabled post record of context `k` that names `mp`: its index and its 192 bits. -/
def State.postRec (s : State) (k mp : Nat) : Option (Nat × Nat) :=
  if s.blobTouched HOST_POST (k + 1) then
    (List.range 64).findSome? fun i =>
      let r := s.blobNat HOST_POST (k + 1) (24 * i) 24
      if Bits.bit r 13 && Bits.fld r 0 13 == mp then some (i, r) else none
  else none

/-- Set or clear ARM of post record `i`. -/
def State.setArm (s : State) (k i : Nat) (on : Bool) : State :=
  let b := (s.blobByte HOST_POST (k + 1) (24 * i + 3)).toNat
  let b' := b - Bits.fld b 3 1 * 8 + (if on then 8 else 0)
  s.setBlob HOST_POST (k + 1) (24 * i + 3) [BitVec.ofNat 8 b']

/-- Post the CVAL of a Milepost (R263, R264); nothing leaves in Safe Hold (R365), or while the function is not enabled (R510). -/
def State.postMp (s : State) (n : Nat) : State :=
  let p := s.pmp n
  let k := p.owner
  if s.safeHold || !s.fnEnabled k || p.st == .free || p.st == .poisoned then s
  else
    match (s.ownerMp n).bind fun mp => s.postRec k mp with
    | none => s
    | some (i, r) =>
      let s := s.emit (.hostWrite (Bits.fld r 64 64) p.cval)
      if Bits.bit r 27 && Bits.fld r 128 64 ≤ p.cval then (s.emit (.msix k (Bits.fld r 16 11))).setArm k i false else s

/-! ### Advances -/

/-- Release the evaluation pins whose EVAL_DONE_MP has reached their step or is poisoned (R332). -/
def State.releaseEval (s : State) : State :=
  s.eachCtx fun s k =>
    if (s.ctx k).pins.any (·.eval) then
      let ek := s.val EVAL_CTX (k + 1)
      let e := s.mpEntry ek (s.val EVAL_DONE_MP (k + 1))
      let p := s.pmp e.pmp
      if ek < 16 ∧ e.valid = true then
        s.updCtx k fun c => { c with pins := c.pins.filter fun x => !(x.eval && (x.step ≤ p.cval || p.st == .poisoned)) }
      else s
    else s

/-- Poison a physical Milepost (R265, R268). -/
def State.poisonPmp (s : State) (n : Nat) (abort : Bool) : State :=
  let p := s.pmp n
  if p.st = .free ∨ p.st = .poisoned then s
  else
    let s := s.setPmp n { p with st := .poisoned, abort := abort }
    match s.ownerMp n with
    | none => s.releaseEval
    | some mp =>
      let s := s.releaseEval.event 0x0004 (some p.owner) (pmpHome n) mp
      match s.postRec p.owner mp with
      | none => s
      | some (i, r) =>
        if Bits.bit r 27 then
          let s := s.setArm p.owner i false
          if s.safeHold || !s.fnEnabled p.owner then s else s.emit (.msix p.owner (Bits.fld r 16 11))
        else s

/-- A change of CVAL: post it and look at the evaluation pins. -/
def State.cvalChanged (s : State) (n : Nat) : State := (s.postMp n).releaseEval

/-- A Milepost after an advance that is on its way has been applied (R246, R248). -/
def State.pmpAfter (s : State) (p : Pmp) (a : Adv) : Pmp :=
  let rise (base : Nat) : Nat := match a.mode with
    | .add => a.amount
    | .raise => a.amount - base
  match p.spec, a.epoch with
  | true, some n => p.setPend n (p.pend n + rise (s.seen a.k false p a.epoch))
  | _, _ => { p with cval := p.cval + rise p.cval }

/-- pmp `n` as it will be once every advance in transit to it has been applied. -/
def State.arriving (s : State) (n : Nat) : Pmp := (s.transit.filter fun a => a.pmp == n).foldl s.pmpAfter (s.pmp n)

/-- An advance would carry its Milepost past 2^64 - 1 (R203, R211, R248), counting what is on its way. -/
def State.advOverflows (s : State) (k mp : Nat) (mode : AdvMode) (v : Nat) (ep : Option Nat) : Bool :=
  let e := s.mpEntry k mp
  let p := s.arriving e.pmp
  let now := s.seen k e.shared p ep
  let add := match mode with
    | .add => v
    | .raise => v - now
  decide (2 ^ 64 ≤ now + add) || decide (2 ^ 64 ≤ p.cval + p.pend0 + p.pend1 + add)

/-- Bytes of a context's effect queue that its held effects take, and whether more fit into its 4 MiB (R345). -/
def Effect.bytes : Effect → Nat
  | .event code _ _ => Config.effectBytes 0 code
  | .post n => Config.effectBytes 1 n
  | .send _ _ m => Config.effectBytes 2 m.hdr.offset
  | .storage n => Config.effectBytes 3 n
def Ctx.effectRoom (c : Ctx) (l : List Effect) : Bool :=
  decide ((c.epochs.map fun x => (x.effects.map Effect.bytes).sum).sum + (l.map Effect.bytes).sum ≤ 0x400000)

/-- Apply an advance at its home (R232, R246, R248, R268): to CVAL or to the pending field of its epoch.  A host post of an
advance by a U instruction is a held effect (R345); while the effect queue has no room for it the advance waits on its way.  A frozen
Milepost keeps its value (R266), and what the part's services advance meanwhile stays on its way until the context is restored. -/
def State.applyAdv (s : State) (a : Adv) : State :=
  let p := s.pmp a.pmp
  if p.st == .frozen then { s with transit := s.transit ++ [{ a with src := none }] }
  else if p.st != .live then s
  else
    match p.spec, a.epoch with
    | true, some n =>
      match (s.ctx a.k).epoch n with
      | some e =>
        if e.uncommitted then
          let add := match a.mode with
            | .add => a.amount
            | .raise => a.amount - s.seen a.k false p a.epoch
          s.setPmp a.pmp (p.setPend n (p.pend n + add))
        else s
      | none => s
    | _, _ =>
      let v := match a.mode with
        | .add => p.cval + a.amount
        | .raise => max p.cval a.amount
      let held := match a.src with | some q => q.queue == .U && a.epoch.isSome | none => false
      if v = p.cval then s
      else if held && !(s.ctx a.k).effectRoom [.post a.pmp] then { s with transit := s.transit ++ [a] }
      else
        let s1 := s.setPmp a.pmp { p with cval := v }
        match a.src, a.epoch with
        | some q, some n =>
          if q.queue = .U then (s1.updEpoch a.k n fun e => { e with effects := e.effects ++ [.post a.pmp] }).releaseEval
          else s1.cvalChanged a.pmp
        | _, _ => s1.cvalChanged a.pmp

/-- Put an advance of a queue in transit to the home of its Milepost. -/
def State.sendAdv (s : State) (src : Option QRef) (k mp : Nat) (mode : AdvMode) (v : Nat) (ep : Option Nat) : State :=
  { s with transit := s.transit ++ [{ src := src, k := k, mp := mp, pmp := (s.mpEntry k mp).pmp, mode := mode, amount := v, epoch := ep }] }

/-- A Hub service advances a Milepost of a context at once, in CVAL (Caravan, ingest, Bivouac, evaluation; R244). -/
def State.serviceAdv (s : State) (k mp : Nat) (mode : AdvMode) (v : Nat) : State :=
  let e := s.mpEntry k mp
  if e.valid && !e.shared then s.applyAdv { k := k, mp := mp, pmp := e.pmp, mode := mode, amount := v } else s

end Sys2Proof.Machine
end

