-- ==== Sys2Proof/Machine/Epochs.lean ====
section
/-!
DEFINITION. Halts (R190, R191), epochs opening, closing and being squashed (R338 to R348), step boundaries, Safe Hold (R364, R365).
-/

namespace Sys2Proof.Machine

open Sys2Proof.WB

/-! ### Descriptor slots (R277, R288, R293) -/

def Core.slot (c : Core) (ds : Nat) : DSlot := Tab.get {} c.slots ds
def Core.setSlot (c : Core) (ds : Nat) (x : DSlot) : Core := { c with slots := Tab.set {} c.slots ds x }

/-- A descriptor takes effect in a slot: CHUNK and PASSES become 0 (R277). -/
def armedSlot (d : BitVec 512) (a : Nat) : DSlot := { st := .armed, desc := d, addr := a }

/-- A slot becomes ARMED; a pending re-arm takes effect then (R288). -/
def DSlot.toArmed (x : DSlot) : DSlot :=
  match x.pend with
  | some (d, a) => armedSlot d a
  | none => { x with st := .armed, run := none, pff := false }

/-- Bytes [a, a + n) overlap the destination of the chunk that a slot stands at (R276). -/
def DSlot.covers (x : DSlot) (a n : Nat) : Bool :=
  let d := x.desc.toNat
  let len := Bits.fld d 120 24
  (List.range (Bits.fld d 160 16)).any fun i2 => (List.range (Bits.fld d 144 16)).any fun i1 =>
    let ring := Bits.fld d 102 8
    let i3 := if ring = 0 then x.chunk else x.chunk % ring
    let t := Bits.wrap ((Bits.fld d 384 64 : Int) + i1 * Bits.signed (Bits.fld d 192 32) 32 + i2 * Bits.signed (Bits.fld d 224 32) 32
      + i3 * Bits.signed (Bits.fld d 256 32) 32) 64
    decide (t < a + n) && decide (a < t + len)

/-- The slots of a core that hold a prefetch satisfying `p`. -/
def Core.prefSlots (c : Core) (p : ChunkRun → Bool) : List (Nat × DSlot) :=
  c.slots.filter fun e => (match e.2.run with | some r => r.pref && p r | none => false)

/-- Cancel the prefetches of a core that satisfy `p` (R293). -/
def Core.cancelPrefs (c : Core) (p : ChunkRun → Bool) : Core := (c.prefSlots p).foldl (fun c e => c.setSlot e.1 e.2.toArmed) c

/-- Raise a counter by `n`, which may be nothing. -/
def State.countSome (s : State) (e sub n : Nat) : State := if n = 0 then s else s.count e sub n

/-- Cancel prefetches of a SAVED context; they count in the package total, since its cores stand on no die (R293; log entry 103). -/
def State.cancelSaved (s : State) (k : Nat) (p : ChunkRun → Bool) : State :=
  let n := ((s.ctx k).saved.map fun x => (x.prefSlots p).length).sum
  (s.updCtx k fun c => { c with saved := c.saved.map fun x => x.cancelPrefs p }).countSome PREF_CANCELLED 9 n

/-- As `Core.cancelPrefs`, counting them. -/
def State.cancelPrefs (s : State) (c : Nat) (p : ChunkRun → Bool) : State :=
  let n := ((s.core c).prefSlots p).length
  let s := s.updCore c fun co => co.cancelPrefs p
  if n = 0 then s else s.countDie PREF_CANCELLED (coreDie c) n

/-! ### Halts -/

/-- The halt record of Table 5-7. -/
def HaltRec.toNat (h : HaltRec) : Nat :=
  1 + 2 ^ 11 * (h.pc % 2048) + (if h.bank then 2 ^ 22 else 0) + 2 ^ 23 * h.queue + 2 ^ 26 * h.ctx + 2 ^ 30 * h.core + 2 ^ 40 * h.hc
    + 2 ^ 48 * (h.detail % 2 ^ 16) + 2 ^ 64 * (h.addr % 2 ^ 64)

/-- A queue writes its halt record and enters HALTED; what it has issued and not retired never retires (R190, R191). -/
def State.haltAt (s : State) (q : QRef) (bank : Bool) (pc hc detail addr : Nat) : State :=
  let c := s.core q.core.val
  let k := c.ctx.getD 0
  let h : HaltRec := { addr := addr, detail := detail, hc := hc, core := q.core.val, ctx := k, queue := q.queue.num, bank := bank, pc := pc }
  let s := s.updQueue q fun x => { x with st := .halted, wait := none, inflight := [], halt := some h, pc := pc, bank := bank }
  -- what a halt of the O queue leaves of its slots: DESIGN CHOICE, log entry 120
  let stop := fun (e : Nat × DSlot) =>
    if e.2.st = .running ∨ e.2.st = .paused then (e.1, { e.2 with st := .armed, run := none }) else e
  let s := if q.queue = .O then s.updCore q.core.val fun c => { c with slots := c.slots.map stop } else s
  let s := if c.ctx.isSome then
      (s.setBlob HALT_RECORD (k + 1) 0 (Bits.toBytes 16 h.toNat)).updCtx k fun x =>
        { x with st := (if x.st = .running ∨ x.st = .loaded then .halted else x.st), reloaded := false }
    else s
  -- the HALT event of an executed HALT is a held effect of the epoch whose work it is (R345)
  match if hc = 0 then (s.epochOf k (s.queue q)).bind fun n => (s.ctx k).epoch n else none with
  | some e =>
    if e.squashable then s.updEpoch k e.n fun e => { e with effects := e.effects ++ [.event 0x0001 (coreDie q.core.val) h.toNat] }
    else s.event 0x0001 c.ctx (coreDie q.core.val) h.toNat
  | none => s.event 0x0001 c.ctx (coreDie q.core.val) h.toNat

/-- Halt a queue at the instruction that its pc names. -/
def State.haltRaw (s : State) (q : QRef) (hc detail addr : Nat) : State :=
  let x := s.queue q
  s.haltAt q x.bank x.pc hc detail addr

/-- A queue that still can halt: it has started, and has not halted. -/
def QueueSt.live (x : QueueSt) : Bool := (x.st == .running || x.st == .waiting || x.st == .draining) && x.halt.isNone

/-- Halt every queue of a context that has not halted, with HC-1C and a cause of Table 6-21 (R229). -/
def State.haltCtx (s : State) (k detail addr : Nat) : State :=
  s.eachQueue k fun s q => if (s.queue q).live then s.haltRaw q 0x1C detail addr else s

/-! ### Provisional writes of the bank map (Table 10-3) -/

/-- Device memory as work of epoch `ep` writes it: bytes of the bank map stand in the epoch's overlay until it commits. -/
def State.memWriteIn (s : State) (k : Nat) (ep : Option Nat) (a : Nat) (bs : List Byte) : State :=
  let m := s.val BANKMAP_ADDR (k + 1)
  match ep with
  | none => s.memWrite k a bs
  | some n =>
    if a + bs.length ≤ m ∨ m + 4096 ≤ a then s.memWrite k a bs
    else
      let s := s.memWrite k a (bs.take (m - a))
      let s := s.updEpoch k n fun e => { e with
        overlay := ((bs.take (m + 4096 - a)).drop (m - a)).zipIdx.foldl (fun t x => Tab.set none t (a - m + x.2) (some x.1.toNat)) e.overlay }
      s.memWrite k (m + 4096) (bs.drop (m + 4096 - a))

/-- The epochs that run again keep which bytes transfers write, so that a trigger record of the abandoned run starts nothing (R398). -/
def State.noteWrite (s : State) (k a n : Nat) : State :=
  s.updCtx k fun c => { c with epochs := c.epochs.map fun e => if e.rerun ∧ e.st = .opened then { e with wrote := e.wrote ++ [(a, n)] } else e }

/-! ### Gradient stores (R319 to R322) -/

/-- A gradient store record (Table 9-3). -/
structure GStore where
  elem : Nat
  grec : Nat
  spill : Nat
  nelem : Nat
  nslot : Nat
  ainit : Int
  adaptive : Bool
  par : Nat
deriving DecidableEq, Repr

/-- Gradient store `i` of a context, when enabled. -/
def State.gstore (s : State) (k i : Nat) : Option GStore :=
  if s.blobByte GSTORES (k + 1) (64 * i) &&& 1 = 1 then
    let r := s.blobNat GSTORES (k + 1) (64 * i) 64
    some { elem := Bits.fld r 448 64, grec := Bits.fld r 384 64, spill := Bits.fld r 320 64, nelem := Bits.fld r 288 32
           nslot := Bits.fld r 256 32, ainit := Bits.signed (Bits.fld r 48 16) 16, adaptive := Bits.bit r 3, par := Bits.fld r 2 1 }
  else none

/-- The enabled stores, with their numbers. -/
def State.gstores (s : State) (k : Nat) : List (Nat × GStore) :=
  if s.blobTouched GSTORES (k + 1) then (List.range 32).filterMap fun i => (s.gstore k i).map fun g => (i, g) else []

/-- Begin the clear of every enabled store of parity `p`, or of all of them (R321, R336). -/
def State.beginClear (s : State) (k : Nat) (p : Option Nat) : State :=
  let ids := (s.gstores k).filterMap fun e => if p.isNone ∨ p = some e.2.par then some e.1 else none
  s.updCtx k fun c => { c with clearing := (c.clearing.filter fun i => !ids.contains i) ++ ids }

/-! ### Opening an epoch (R338, R341, R342) -/

/-- RBANK of epoch `n` (R342). -/
def Ctx.rbankFor (c : Ctx) (n : Nat) : Nat :=
  match c.epoch (n - 1) with
  | some e =>
    if 1 ≤ n ∧ (e.st = .opened ∨ e.st = .closed ∨ (e.st = .committing ∧ e.verdict ≠ .reject)) then e.wbank else Tab.get 0 c.cbank 0
  | none => Tab.get 0 c.cbank 0

/-- The lowest bank that is neither the committed bank nor another unfinished epoch's WBANK, nor pinned in a carried region by
a generation (R342, R464). -/
def Ctx.freeBank (c : Ctx) (n : Nat) : Option Nat :=
  let used := Tab.get 0 c.cbank 0 :: (c.epochs.filter fun e => e.live && e.n != n).map (·.wbank)
    ++ (c.pins.filter (·.carried)).map (·.bank)
  [0, 1, 2].find? fun b => !used.contains b

def Ctx.wbankFor (c : Ctx) (n : Nat) : Nat := (c.freeBank n).getD 0

/-- Write the epoch record of Table 10-2 at EPOCH_INFO. -/
def State.writeEpochInfo (s : State) (k : Nat) (e : Epoch) : State :=
  let a := s.val EPOCH_INFO (k + 1) + 64 * (e.n % 2)
  if (s.memCheck k a 64).isSome then s
  else s.hubWriteNat k a 64 (e.n + 2 ^ 64 * (e.dpos % 2 ^ 64) + 2 ^ 192 * e.rbank + 2 ^ 194 * e.wbank)

/-- Open epoch `n`, or open it again, with the RUN that the context has reached; its stores' clears begin (R321, R397, R424). -/
def State.openEpoch (s : State) (k n : Nat) : State :=
  let c := s.ctx k
  let e : Epoch := { n := n, run := c.runNext, rerun := decide (n ≤ c.opened), dpos := n * s.val GLOBAL_BATCH (k + 1), rbank := c.rbankFor n, wbank := c.wbankFor n }
  let s := s.updCtx k fun c => { c with
    opened := max c.opened n
    epochs := (c.epochs.filter fun x => x.n < n) ++ [e] ++ (c.epochs.filter fun x => n < x.n) }
  (s.writeEpochInfo k e).beginClear k (some (n % 2))

/-- A queue records its entry state for epoch `n` (R347). -/
def State.recordEntry (s : State) (q : QRef) (n : Nat) : State :=
  let x := s.queue q
  let e : EntryState := { epoch := n, pc := x.pc, bank := x.bank, regs := x.regs, frames := x.frames
                          slots := if q.queue = .O then (s.core q.core.val).slots else [] }
  s.updQueue q fun y => { y with entries := (y.entries.filter fun z => z.epoch < n && n ≤ z.epoch + 2) ++ [e] }

/-- Record a core's buffer table for epoch `n`, whole (R347). -/
def State.recordBufs (s : State) (c n : Nat) : State :=
  s.updCore c fun x => { x with bufRec := (x.bufRec.filter fun e => e.1 < n && n ≤ e.1 + 2) ++ [(n, x.bufs)] }

/-! ### Step boundaries -/

/-- A value that waits is one that the next step boundary of context `k` brings in: its own, or a device-wide one (log entry
11).  NODE_ADDR waits for the next start (R489). -/
def heldFor (k key : Nat) : Bool :=
  match Dict.find (key / 256) (key % 256) with
  | some r =>
    r.step && (match r.ctxOf (key / 256) (key % 256) with
      | some j => j == k
      | none => true)
  | none => true

/-- Settings that wait for the next step boundary of context `k` take effect. -/
def State.releaseHeld (s : State) (k : Nat) : State := { s with held := s.held.filter fun e => !heldFor k e.1 }

/-- The committed step of each context, k0 to k15. -/
def State.stepsNow (s : State) : List Nat := (List.range 16).map fun k => s.val COMMITTED_STEP (k + 1)

/-- The last step of a context of which an epoch has run, or the last that it has committed (R362). -/
def State.lastRan (s : State) (k : Nat) : Nat :=
  ((s.ctx k).epochs.filter Epoch.live).foldl (fun m e => max m e.n) (s.val COMMITTED_STEP (k + 1))

/-- Replace core `a` of a context by core `b`, which takes its whole state; the spare set changes places with it (R18, R601).
Service periods close and open (R362), and the core that enters the spare set begins its test at once (R600). -/
def State.swapCore (s : State) (a b : Nat) : State :=
  let x := s.core a
  let step := match x.ctx with | some k => s.val COMMITTED_STEP (k + 1) | none => 0
  let move := fun (q : QRef) => if h : b < 704 then (if q.core.val = a then { q with core := ⟨b, h⟩ } else q) else q
  let ran := match x.ctx with | some k => s.lastRan k | none => 0
  let close := fun (p : Service) => if p.core = a ∧ p.last.isNone then { p with last := some ran } else p
  let s : State := { s with
    cores := Tab.set {} (Tab.set {} s.cores b x) a {}
    spares := (s.spares.filter (· != b)) ++ [a]
    testAt := Tab.set [] s.testAt a s.stepsNow
    passed := s.passed.filter fun c => c != a && c != b
    swaps := s.swaps.filter fun p => p.1 != a && p.2 != b
    eauq := s.eauq.map fun e => { e with q := e.q.map move }
    transit := s.transit.map fun e => { e with src := e.src.map move }
    service := s.service.map close ++ (match x.ctx with | some k => [{ core := b, k := k, first := step + 1 }] | none => []) }
  match x.ctx with
  | some k => s.updCtx k fun c => { c with
      roles := c.roles.map fun r => if r = a then b else r
      twins := c.twins.map fun r => if r = a then b else r }
  | none => s

/-- A spare of a die that can serve: not retired (R351). -/
def State.usableSpare (s : State) (die : Nat) : Option Nat :=
  (s.spares.filter fun c => coreDie c == die && !s.retired.contains c).min?

/-! ### Squash (R347, R348) -/

/-- Work of an epoch from `n` on. -/
def fromEpoch (n : Nat) (e : Option Nat) : Bool := match e with | some m => decide (n ≤ m) | none => false

/-- What a squash of epochs from `n` on drops in a core beside its prefetches: tiles, chunks and work in flight. -/
def Core.squashed (x : Core) (n : Nat) : Core :=
  let slots := x.slots.map fun e => match e.2.run with
    | some r => if !r.pref && fromEpoch n r.epoch then (e.1, { e.2 with st := .armed, run := none }) else e
    | none => e
  let x : Core := { x with tile0 := {}, tile1 := {}, job := none, slots := slots }
  allQueues.foldl (fun x q => x.setQ q { x.q q with inflight := (x.q q).inflight.filter fun i => !fromEpoch n i.epoch }) x

/-- What a squash of epochs from `n` on drops in one core: tiles, prefetches, and work in flight. -/
def State.squashCore (s : State) (n c : Nat) : State :=
  (s.cancelPrefs c fun r => fromEpoch n r.epoch).updCore c fun x => x.squashed n

/-- Rewind a queue to its entry state for epoch `n` when it has begun work on `n` or later. -/
def State.rewindQueue (s : State) (k n : Nat) (q : QRef) : State :=
  let x := s.queue q
  match s.epochOf k x, x.entries.find? fun e => e.epoch == n with
  | some m, some e =>
    if n ≤ m then
      let keep := fun (ds : Nat) => match ((s.core q.core.val).slot ds).run with
        | some r => r.pref && (match r.epoch with | some m => decide (m < n) | none => true)
        | none => false
      let s := s.updQueue q fun y => { y with
        pc := e.pc
        bank := e.bank
        regs := e.regs
        frames := e.frames
        inflight := []
        wait := none
        st := (if y.st = .halted ∨ y.st = .idle then y.st else .running)
        round := n - s.val STEP_BASE (k + 1) - 1
        entries := y.entries.filter fun z => z.epoch ≤ n }
      if q.queue = .O then
        s.updCore q.core.val fun c =>
          let back := fun (z : Nat × DSlot) =>
            let cur := c.slot z.1
            if keep z.1 then (z.1, { z.2 with st := cur.st, run := cur.run, pff := cur.pff })
            else (z.1, { z.2 with st := (if z.2.st = .empty then .empty else .armed), run := none, pend := none })
          { c with slots := e.slots.map back }
      else s
    else s
  | _, _ => s

/-- Restore a core's buffer table as recorded for epoch `n` (R347). -/
def State.rewindBufs (s : State) (c n : Nat) : State :=
  s.updCore c fun x =>
    match x.bufRec.find? fun e => e.1 == n with
    | some e => { x with bufs := e.2, bufRec := x.bufRec.filter fun z => z.1 ≤ n }
    | none => x

/-- What context `k` has on its way from its epochs `n` and later is dropped with them (R347). -/
def State.dropStray (s : State) (k n : Nat) : State :=
  { s with
    transit := s.transit.filter fun a => !(a.k == k && fromEpoch n a.epoch)
    eauq := s.eauq.filter fun a => !(a.k == k && fromEpoch n a.epoch) }

/-- The provisional counts of the epochs of these parities go (R347). -/
def State.dropPends (s : State) (k : Nat) (pars : List Nat) : State :=
  { s with
    pmps := s.pmps.map fun e =>
      if e.2.owner = k ∧ e.2.spec then
        (e.1, { e.2 with pend0 := (if pars.contains 0 then 0 else e.2.pend0), pend1 := (if pars.contains 1 then 0 else e.2.pend1) })
      else e
    parts := s.parts.map fun e =>
      if e.1 / 2 ^ 20 = k then
        (e.1, { e.2 with pend0 := (if pars.contains 0 then 0 else e.2.pend0), pend1 := (if pars.contains 1 then 0 else e.2.pend1) })
      else e }

/-- Squash epoch `n` of a context and every later one that has not passed its commit point (R347); `rerun` says whether
the queues rewind and `n` reopens at once. -/
def State.squash (s : State) (k n : Nat) (rerun : Bool) : State :=
  let hit := (s.ctx k).epochs.filter fun e => decide (n ≤ e.n) && e.squashable
  if hit.isEmpty then s
  else
    let n := (hit.head?.map (·.n)).getD n
    let s := (s.dropStray k n).dropPends k (hit.map fun e => e.n % 2)
    let s := ((s.ctxCores k).foldl (fun s c => s.squashCore n c) s).cancelSaved k fun r => fromEpoch n r.epoch
    let s := s.count SQUASHES (k + 1) hit.length
    -- the messages of the squashed run that waited are stale (R397)
    let s := s.countSome STALE_DISCARDS (k + 1)
      ((s.ctx k).early.filter fun m => !(m.hdr.epoch < n || (s.ctx k).runNext < m.hdr.run)).length
    let s := s.updCtx k fun c => { c with
      runNext := c.runNext + 1
      saved := c.saved.map fun x => x.squashed n
      -- a contribution carried out of an epoch of the squash goes with it (R393, R398)
      carries := c.carries.filter fun x => x.2 < n
      early := c.early.filter fun m => m.hdr.epoch < n || c.runNext < m.hdr.run }
    if rerun then
      let s := s.updCtx k fun c => { c with
        epochs := c.epochs.filter fun e => e.n < n || !e.squashable
        ops := c.ops.filter fun o => o.2.epoch < n }
      let s := s.eachQueue k fun s q => s.rewindQueue k n q
      let s := (s.ctxCores k).foldl (fun s c => s.rewindBufs c n) s
      s.openEpoch k n
    else
      s.updCtx k fun c => { c with
        epochs := c.epochs.map fun e => if decide (n ≤ e.n) && e.squashable then
          { n := e.n, st := .squashed, run := e.run, dpos := e.dpos, rbank := e.rbank, wbank := e.wbank } else e }

/-- Reopen the epochs that a squash without a rerun left, when the context runs on (Table 10-1). -/
def State.resumeEpochs (s : State) (k : Nat) : State :=
  match (s.ctx k).epochs.find? fun e => e.st == .squashed with
  | none => s
  | some e =>
    let s := s.eachQueue k fun s q => s.rewindQueue k e.n q
    let s := (s.ctxCores k).foldl (fun s c => s.rewindBufs c e.n) s
    let s := s.updCtx k fun c => { c with epochs := c.epochs.filter fun x => x.n < e.n, ops := c.ops.filter fun o => o.2.epoch < e.n }
    s.openEpoch k e.n

/-! ### Safe Hold (R364, R365) -/

/-- The part enters Safe Hold: epochs held, queues halted with HC-FE, and one SAFE_HOLD event whose data is the cause's place in the list
of R364.  The ring bypasses latch closed by events of their own. -/
def State.enterSafeHold (s : State) (cause : Nat) : State :=
  if s.safeHold then s
  else
    -- a TRIAL start that has not reached step 8 is to be reverted (R574)
    let trial := (if s.fw.active1 then s.fw.slot1 else s.fw.slot0).st == .trial && !s.startDone && !s.bootSafe
    let s : State := { s with safeHold := true, shCause := cause, revert := s.revert || trial }
    let s := s.eachCtx fun s k => s.updCtx k fun c => { c with
      epochs := c.epochs.map fun e =>
        if e.st = .opened ∨ e.st = .closed then { e with st := .held, effects := [] }
        else { e with effects := [], dropped := if e.st = .committing then e.effects else e.dropped } }
    let s := s.eachCtx fun s k => s.eachQueue k fun s q => if (s.queue q).live then s.haltRaw q 0xFE 0 0 else s
    s.event 0x0009 none 8 cause

/-! ### Census (R324, R325, R336) -/

/-- Change the census record of tensor `t` for work of epoch `ep`; without epochs, in the context's own table. -/
def State.updCensus (s : State) (k : Nat) (ep : Option Nat) (t : Nat) (f : Census → Census) : State :=
  let g (x : Census) : Census := { f x with seen := true }
  match ep with
  | some n => s.updEpoch k n fun e => { e with census := Tab.upd {} e.census t g }
  | none => s.updCtx k fun c => { c with census := Tab.upd {} c.census t g }

end Sys2Proof.Machine
end

