-- ==== Sys2Proof/Machine/Link.lean ====
section
/-!
DEFINITION. Sending over Drawbar (R493, R497 to R499) and the groups of Caravan: group records, member tables and virtual
channels (R370 to R374).
-/

namespace Sys2Proof.Machine

open Sys2Proof.WB

/-! ### Messages (Tables 11-3, 11-4) -/

/-- Payload bytes, LEN of the message header. -/
def cpLen : CPayload → Nat
  | .empty => 0
  | .groups gs sp => (gs.map fun g => 64 + 16 * g.words.length).sum + 96 * sp.length
  | .sparse es => 100 * es.length
  | .bits bs => 20 * bs.length
  | .radd es => 104 * es.length
  | .raw b => b.length
  | .vote .. => 16
  | .verdict .. => 16
  | .refusal .. => 0

/-- Bytes of a message: header, payload and trailer (R374). -/
def cmsgLen (m : CMsg) : Nat := 64 + cpLen m.payload + (if m.hdr.bmap then 1024 else 0)

/-- The body of a training frame. -/
def trainBytes (t : Training) : List Byte := Config.trainingBytes t.node t.port t.alloc

/-- Bytes of a frame's body, LEN: 0 unless KIND is 0 (Table 15-4). -/
def frameBodyLen (f : DFrame) : Nat :=
  if f.kind ≠ 0 then 0
  else match f.training with
    | some t => (trainBytes t).length
    | none => cmsgLen f.body

/-! ### Ports -/

def State.port (s : State) (p : Nat) : Port := Tab.get {} s.ports p
def State.setPort (s : State) (p : Nat) (x : Port) : State := { s with ports := Tab.set {} s.ports p x }
def State.updPort (s : State) (p : Nat) (f : Port → Port) : State := s.setPort p (f (s.port p))

/-- UP or UP_ALT: the port carries frames. -/
def Port.carries (x : Port) : Bool := x.st == .up || x.st == .upAlt

/-- Credits that a data frame uses (R497). -/
def frameNeed (f : DFrame) : Nat := Bits.cdiv f.len 64

/-- Bytes of a frame on the link (R492). -/
def frameBytes (f : DFrame) : Nat := 32 + 16 * Bits.cdiv f.len 16

/-- Bytes in the replay buffer, at most 2 MiB (R493). -/
def Port.replayBytes (x : Port) : Nat := (x.replay.map fun e => frameBytes e.1).sum

/-- The VC has the credits that the frame needs, and the replay buffer has its room. -/
def Port.ready (x : Port) (f : DFrame) : Bool :=
  frameNeed f ≤ Tab.get 0 x.credits f.vc && x.replayBytes + frameBytes f ≤ 0x200000

/-- Send a control frame: 1 credit and acknowledge, 2 NAK, 3 idle. -/
def State.control (s : State) (p kind cvc cred : Nat) : State :=
  let x := s.port p
  if s.safeHold || !x.carries then s
  else (s.updPort p fun x => { x with framesTx := x.framesTx + 1 }).emit
    (.drawbar p { kind := kind, cvc := cvc, cred := cred, ackseq := x.rxSeq, src := s.val NODE_ADDR 0, dst := x.peer })

/-- A frame leaves the receive pool of port `p`, and its credits go back to the peer (R497). -/
def State.freeSpace (s : State) (p vc need : Nat) : State :=
  (s.updPort p fun x => { x with pool := Tab.upd 0 x.pool vc (· - need) }).control p 1 vc need

/-- As `freeSpace`, of a frame that waited in the receive pool of another port. -/
def State.freeVia (s : State) (f : DFrame) : State :=
  match f.via with
  | some p => s.freeSpace p f.vc (frameNeed f)
  | none => s

/-- Send a data frame now: it takes the next SEQ and goes into the replay buffer; a forwarded one leaves its receive pool. -/
def State.transmit (s : State) (p : Nat) (g : DFrame) : State :=
  let x := s.port p
  let n := (x.txSeq + 1) % 65536
  let f := { g with seq := n, ackseq := x.rxSeq, via := none }
  let x : Port := { x with
    txSeq := n
    lastVc := if f.vc = 0 then x.lastVc else f.vc
    credits := Tab.upd 0 x.credits f.vc (· - frameNeed f)
    replay := x.replay ++ [(f, 1)]
    framesTx := x.framesTx + 1 }
  ((s.setPort p x).emit (.drawbar p f)).freeVia g

/-- The VCs in the order in which a port looks at them: VC0, then the others in round robin after the one that last sent (R497). -/
def Port.vcOrder (x : Port) : List Nat := 0 :: (List.range 15).map fun i => (x.lastVc + i) % 15 + 1

/-- The first frame that its VC's order and credits let go (R495, R497). -/
def Port.pick (x : Port) : Option DFrame :=
  let heads := x.vcOrder.filterMap fun v => x.queued.find? fun f => f.vc == v
  heads.find? x.ready

/-- Send every waiting frame of a port that may go, none in Safe Hold (R365); `n` bounds their number. -/
def State.flush (s : State) (p : Nat) : Nat → State
  | 0 => s
  | n + 1 =>
    let x := s.port p
    if s.safeHold then s
    else match x.pick with
    | some f => ((s.setPort p { x with queued := x.queued.erase f }).transmit p f).flush p n
    | none => s

/-- Queue a data frame on a port and send what may go. -/
def State.sendOn (s : State) (p : Nat) (f : DFrame) : State :=
  let s := s.updPort p fun x => { x with queued := x.queued ++ [f] }
  s.flush p (s.port p).queued.length

/-- The ports of a route entry, in order of preference (R498). -/
def routePorts (e : Nat) : List Nat :=
  (List.range 4).filterMap fun i => if Bits.bit e (6 * i + 5) then some (Bits.fld e (6 * i) 5) else none

/-- The port may carry a frame for `dst`: up, and not withdrawn unless `dst` is its peer (R498, R503). -/
def Port.takes (x : Port) (dst : Nat) : Bool := x.carries && (!x.withdrawn || x.peer == dst)

/-- Route a data frame over the ports of `mask` (R498): the state, and the port that took it.  A frame with no port is
discarded and counted on the port that the entry prefers (log entry 13). -/
def State.route (s : State) (mask : Nat) (f : DFrame) : State × Option Nat :=
  let ps := routePorts (Tab.get 0 s.routes f.dst)
  match ps.find? fun p => Bits.bit mask p && (s.port p).takes f.dst with
  | some p => (s.sendOn p f, some p)
  | none => (s.updPort (ps.headD 0) fun x => { x with noroute := x.noroute + 1 }, none)

/-! ### Groups -/

/-- A Caravan group record (Table 11-1). -/
structure CGroup where
  deadline : Nat
  ports : Nat
  job : Nat
  rank : Nat
  nmem : Nat
  split : Nat
  carry : Bool
  xjob : Bool
  cls : Nat
deriving DecidableEq, Repr

/-- A group record from its 256 bits, when enabled. -/
def cgroupOf (r : Nat) : Option CGroup :=
  if Bits.bit r 0 then
    some { deadline := Bits.fld r 128 32, ports := Bits.fld r 104 24, job := Bits.fld r 80 16, rank := Bits.fld r 68 12, nmem := Bits.fld r 55 13
           split := 2 ^ Bits.fld r 46 2, carry := Bits.bit r 45, xjob := Bits.bit r 44, cls := Bits.fld r 9 3 }
  else none

/-- Group `g` of a context, when enabled. -/
def State.cgroup (s : State) (k g : Nat) : Option CGroup :=
  if s.blobByte CGROUPS (k + 1) (32 * g) &&& 1 = 1 then cgroupOf (s.blobNat CGROUPS (k + 1) (32 * g) 32) else none

/-- The enabled groups of a context, with their numbers. -/
def State.cgroups (s : State) (k : Nat) : List (Nat × CGroup) :=
  if s.blobTouched CGROUPS (k + 1) then (List.range 64).filterMap fun g => (s.cgroup k g).map fun r => (g, r) else []

/-- Node address of member `r` (R370). -/
def State.member (s : State) (k g r : Nat) : Nat := s.blobNat (MEMBERS + k) (g + 1) (4 * r) 4 % 65536

/-- The virtual channel of a message (R372, Table 11-2). -/
def vcOf (mtype cls g : Nat) : Nat :=
  match mtype with
  | 3 | 5 | 8 | 9 | 10 => 0
  | 11 => 1
  | 7 => 15
  | _ => if cls = 0 then 2 + g % 4 else 4 + 2 * cls + g % 2

/-- The placement generation of a context. -/
def State.pgen (s : State) (k : Nat) : Nat := s.val PGEN (k + 1)

/-- The header of a message of group `g` for work of an epoch and run. -/
def CGroup.hdr (x : CGroup) (g mtype epoch run pgen : Nat) : CHdr :=
  { mtype := mtype, sender := x.rank, group := g, job := x.job, run := run, epoch := epoch, pgen := pgen }

/-- The run of an epoch of a context. -/
def State.runOf (s : State) (k n : Nat) : Nat := (((s.ctx k).epoch n).map (·.run)).getD 0

/-- A group of another job carries SEND alone, and the ACKs that end its transfers (R373, R401). -/
def CGroup.carriesType (x : CGroup) (mtype : Nat) : Bool := !x.xjob || mtype == 6 || mtype == 8

/-- Send a message to member `r` of group `g`; an epoch keeps the ports that it has sent over (R502).  The endpoint keeps
what awaits an ACK by the queue's transfer or add. -/
def State.sendMsg (s : State) (k g r : Nat) (m : CMsg) : State :=
  match (s.cgroup k g).filter (·.carriesType m.hdr.mtype) with
  | none => s
  | some x =>
    let vc := vcOf m.hdr.mtype x.cls g
    let f : DFrame := { vc := vc, hops := s.val MAXHOPS 0, len := cmsgLen m, src := s.val NODE_ADDR 0, dst := s.member k g r, body := m }
    match s.route x.ports f with
    | (s, some p) =>
      if 2 ≤ vc ∧ vc ≠ 14 then
        s.updEpoch k m.hdr.epoch fun e => { e with ports := if e.ports.contains p then e.ports else e.ports ++ [p] }
      else s
    | (s, none) => s

/-- Send to every other member of the group. -/
def State.sendAll (s : State) (k g : Nat) (m : CMsg) : State :=
  match s.cgroup k g with
  | none => s
  | some x => (List.range x.nmem).foldl (fun s r => if r = x.rank then s else s.sendMsg k g r m) s

end Sys2Proof.Machine
end

