-- ==== Sys2Proof/Machine/Votes.lean ====
section
/-!
DEFINITION. The job of a context (R352): the group over which it votes, a member's vote SQUASH, and the halts that squash.
-/

namespace Sys2Proof.Machine

open Sys2Proof.WB

/-- The group over which the job of a context votes: the enabled group of more than one member with the lowest number that
names devices of the same job; none for a job of one device.  Its rank 0 is the seat of the control plane (log entry 24). -/
def State.jobGroup (s : State) (k : Nat) : Option (Nat × CGroup) := (s.cgroups k).find? fun e => !e.2.xjob && 1 < e.2.nmem

/-- The message that carries a vote, or the verdict on epoch `n`. -/
def State.voteMsg (s : State) (k g : Nat) (r : CGroup) (n : Nat) (v : Vote) (xseq : Bool) : CMsg :=
  { hdr := r.hdr g 9 n (s.runOf k n) (s.pgen k), payload := .vote v xseq }

def State.verdictMsg (s : State) (k g : Nat) (r : CGroup) (n : Nat) (v : Vote) (xseq : Bool) (run pgen : Nat) (place : Bool) : CMsg :=
  { hdr := r.hdr g 10 n (s.runOf k n) (s.pgen k), payload := .verdict v xseq run pgen place }

/-- A cause of Table 10-4 has struck epoch `n` on this member: it votes SQUASH, which as the seat's own vote is the verdict at once. -/
def State.voteSquash (s : State) (k n : Nat) : State :=
  match s.jobGroup k with
  | none => s
  | some (g, r) =>
    if r.rank = 0 then s.sendAll k g (s.verdictMsg k g r n .squash false (s.ctx k).runNext (s.pgen k) false)
    else s.sendMsg k g 0 (s.voteMsg k g r n .squash false)

/-- Squash on this member by a cause of Table 10-4, without a rerun of its own, and vote so. -/
def State.squashVote (s : State) (k n : Nat) : State :=
  match ((s.ctx k).epochs.find? fun e => decide (n ≤ e.n) && e.squashable).map (·.n) with
  | none => s
  | some m => (s.squash k n false).voteSquash k m

/-- As `squashVote`, of every uncommitted epoch. -/
def State.squashAllVote (s : State) (k : Nat) : State := s.squashVote k 0

/-- A cause of Table 10-4 that the job answers with a rerun: a job of one device squashes and runs again at once while its
context runs; a member of a larger job squashes and votes SQUASH (R348, R352). -/
def State.strike (s : State) (k n : Nat) : State :=
  if (s.jobGroup k).isNone then s.squash k n ((s.ctx k).st == .running) else s.squashVote k n

/-- Halt a queue at the instruction that its pc names; a code other than HC-00 squashes every uncommitted epoch of the
context (Table 10-4). -/
def State.haltQ (s : State) (q : QRef) (hc detail addr : Nat) : State :=
  let s := s.haltRaw q hc detail addr
  match (s.core q.core.val).ctx with
  | some k => if hc = 0 then s else s.squashAllVote k
  | none => s

/-- As `haltQ`, for an instruction that has already issued. -/
def State.haltIssued (s : State) (q : QRef) (i : InFlight) (hc detail addr : Nat) : State :=
  let s := s.haltAt q i.bank i.pc hc detail addr
  match (s.core q.core.val).ctx with
  | some k => if hc = 0 then s else s.squashAllVote k
  | none => s

end Sys2Proof.Machine
end

