-- ==== Sys2Proof/Machine/Shuffle.lean ====
section
/-!
DEFINITION. The data stream (R410, R416 to R429): catalogue and descriptor records, the keyed permutation, owners and readers, the layout of
an owner's share, its slot, and the reads that a reader starts.
-/

namespace Sys2Proof.Machine

open Sys2Proof.WB

/-! ### The sample descriptor (Table 12-6) -/

structure IDesc where
  rowlen : Nat
  croph : Nat
  cropw : Nat
  outh : Nat
  outw : Nat
  frames : Nat
  stride : Nat
  pw : Nat
  ph : Nat
  t : Nat
  grain : Bool
  crop : Bool
  flip : Bool
  kernel : Nat
  color : Nat
  ofmt : Nat
deriving DecidableEq, Repr

def idescOf (r : Nat) : IDesc :=
  { rowlen := Bits.fld r 120 24, croph := Bits.fld r 104 16, cropw := Bits.fld r 88 16, outh := Bits.fld r 72 16, outw := Bits.fld r 56 16
    frames := Bits.fld r 44 12, stride := Bits.fld r 36 8, pw := Bits.fld r 28 8, ph := Bits.fld r 20 8, t := Bits.fld r 16 4
    grain := Bits.bit r 10, crop := Bits.bit r 9, flip := Bits.bit r 8, kernel := Bits.fld r 6 2, color := Bits.fld r 4 2
    ofmt := Bits.fld r 0 4 }

def between (lo hi x : Nat) : Bool := decide (lo ≤ x) && decide (x ≤ hi)

/-- A malformed descriptor (R416); the input size of KERNEL 2 is checked per sample. -/
def idescBad (r : Nat) : Bool :=
  let d := idescOf r
  Bits.fld r 144 112 != 0 || Bits.fld r 11 5 != 0
    || d.rowlen % 128 != 0 || !between 128 1048576 d.rowlen || (d.crop && (decide (d.croph < 16) || decide (d.cropw < 16)))
    || !between 16 8192 d.outh || !between 16 8192 d.outw || d.frames == 0 || d.stride == 0 || !between 1 64 d.pw || !between 1 64 d.ph
    || d.t == 0 || d.kernel == 3 || d.color == 3 || decide (1 < d.ofmt) || d.outh % d.ph != 0 || d.outw % d.pw != 0
    || decide (16777216 * d.t < d.frames * (d.outh / d.ph) * (d.outw / d.pw)) || decide (65536 < d.ph * d.pw * d.t * 3)

def State.idesc (s : State) (k : Nat) : IDesc := idescOf (s.blobNat INGEST_DESC (k + 1) 0 32)

/-- Bytes of a token vector: both element formats take two. -/
def IDesc.vecBytes (d : IDesc) : Nat := 2 * (d.ph * d.pw * d.t * 3)

/-! ### The catalogue (Table 12-3) -/

structure SRec where
  digest : Nat
  off : Nat
  len : Nat
  shard : Nat
  first : Nat
  nf : Nat
  codec : Nat
  cont : Nat
  stream : Nat
deriving DecidableEq, Repr

def srecOf (r : Nat) : SRec :=
  { digest := Bits.fld r 256 256, off := Bits.fld r 192 64, len := Bits.fld r 160 32, shard := Bits.fld r 128 32, first := Bits.fld r 96 32
    nf := Bits.fld r 80 16, codec := Bits.fld r 68 4, cont := Bits.fld r 64 4, stream := Bits.fld r 0 13 }

/-- Sample record `x` of the loaded catalogue. -/
def State.srec (s : State) (k x : Nat) : SRec :=
  let a := s.val CATALOG_ADDR (k + 1)
  srecOf (s.memNat k (a + s.memNat k (a + 24) 8 + 64 * x) 64)

/-- Where bytes lie on storage: TARGET, NSID, SLBA and NLB, laid out as a shard's record. CATALOG_SRC has these fields in this order and 24
bytes too (DEDUCED, log entry 115). -/
structure Extent where
  target : Nat
  nsid : Nat
  slba : Nat
  nlb : Nat
deriving DecidableEq, Repr

def extentOf (r : Nat) : Extent :=
  { target := Bits.fld r 0 16, nsid := Bits.fld r 32 32, slba := Bits.fld r 64 64, nlb := Bits.fld r 128 64 }

/-- The logical block of byte `b` of an extent (R411). -/
def Extent.block (e : Extent) (b : Nat) : Nat := e.slba + b / Config.blockSize e.target e.nsid

/-- Record `sh` of the shard table. -/
def State.shardRec (s : State) (k sh : Nat) : Extent :=
  let a := s.val CATALOG_ADDR (k + 1)
  extentOf (s.memNat k (a + s.memNat k (a + 16) 8 + 32 * sh) 24)

/-- Frames that a sample uses (R417). -/
def IDesc.used (d : IDesc) (r : SRec) : Nat := if r.nf = 0 then 0 else min d.frames ((r.nf - 1) / d.stride + 1) / d.t * d.t

/-- Tokens of a sample (R421). -/
def IDesc.tokens (d : IDesc) (r : SRec) : Nat := d.used r / d.t * (d.outh / d.ph) * (d.outw / d.pw)

/-! ### The permutation (R423) -/

def shuffleKey (seed : Nat) : List Byte :=
  Bits.toBytes 32 (Sha3.digest (([0x4B, 0x58, 0x42, 0x2D, 0x53, 0x48, 0x55, 0x46, 0x46, 0x4C, 0x45] : List Byte) ++ Bits.toBytes 8 seed))

/-- One walk: eight Feistel rounds of half width `h`. -/
def feistel (key : List Byte) (de h v : Nat) : Nat :=
  let m := 2 ^ h
  let (hi, lo) := (List.range 8).foldl (fun (p : Nat × Nat) r =>
    let f := Sha3.digest (key ++ Bits.toBytes 8 de ++ [BitVec.ofNat 8 r] ++ Bits.toBytes 8 p.2) % m
    (p.2, Nat.xor p.1 f)) (v / m, v % m)
  hi * m + lo

/-- Cycle walking; the domain has fewer than 4 NS indexes, which bounds the walk. -/
def walk (key : List Byte) (ns de h : Nat) : Nat → Nat → Nat
  | 0, v => v
  | fuel + 1, v =>
    let w := feistel key de h v
    if w < ns then w else walk key ns de h fuel w

def shufflePi (key : List Byte) (ns de u : Nat) : Nat := walk key ns de (max 1 ((Bits.clog2 ns + 1) / 2)) (4 * ns + 4) u

/-- Sample number at data position `q`. -/
def State.sampleAt (s : State) (k q : Nat) : Nat :=
  let ns := (s.ctx k).ns
  shufflePi (shuffleKey (s.val DATA_SEED (k + 1))) ns (q / ns) (q % ns)

/-! ### Owners and readers (R424, R425) -/

def State.batch (s : State) (k : Nat) : Nat := s.val GLOBAL_BATCH (k + 1)

/-- The ingest group, when one is named. -/
def State.ingestGroup (s : State) (k : Nat) : Option (Nat × CGroup) :=
  let g := s.val INGEST_GROUP (k + 1)
  if g < 64 then (s.cgroup k g).map fun r => (g, r) else none

/-- This device's rank in the ingest group, and the group's members; one device alone without a group. -/
def State.ingestRank (s : State) (k : Nat) : Nat := ((s.ingestGroup k).map (·.2.rank)).getD 0
def State.ingestMembers (s : State) (k : Nat) : Nat := ((s.ingestGroup k).map (·.2.nmem)).getD 1

/-- Rank of owner `w`. -/
def State.owner (s : State) (k w : Nat) : Nat := s.blobNat OWNERS (k + 1) (2 * w) 2

/-- Positions of one owner's share: GLOBAL_BATCH is a multiple of NOWN. -/
def State.shareSize (s : State) (k : Nat) : Nat := s.batch k / (s.ctx k).nown

/-- Owner index of position `i` of a step. -/
def State.ownerOf (s : State) (k i : Nat) : Nat := i * (s.ctx k).nown / s.batch k

/-- Sample records of owner `w`'s share of step `n`, in order of position. -/
def State.shareRecs (s : State) (k n w : Nat) : List SRec :=
  let m := s.shareSize k
  (List.range m).map fun i => s.srec k (s.sampleAt k (n * s.batch k + w * m + i))

/-! ### The layout of a share (R422, R427) -/

/-- The packing so far: row, used tokens and sequences of it; and first token, sequence tag and tokens of each sample. -/
structure Pack where
  row : Nat := 0
  used : Nat := 0
  seqs : Nat := 0
  at_ : List (Nat × Nat × Nat) := []
deriving DecidableEq, Repr

def packOne (rl : Nat) (p : Pack) (n : Nat) : Pack :=
  if n = 0 then { p with at_ := p.at_ ++ [(0, 0, 0)] }
  else if n ≤ rl then
    let p := if rl < p.used + n ∨ p.seqs = 8 then { p with row := p.row + 1, used := 0, seqs := 0 } else p
    { p with used := p.used + n, seqs := p.seqs + 1, at_ := p.at_ ++ [(rl * p.row + p.used, p.seqs, n)] }
  else
    let row := if 0 < p.used then p.row + 1 else p.row
    { row := row + Bits.cdiv n rl, used := 0, seqs := 0, at_ := p.at_ ++ [(rl * row, 0, n)] }

def packAll (rl : Nat) (ns : List Nat) : Pack := ns.foldl (packOne rl) {}

def Pack.nrows (p : Pack) : Nat := p.row + (if 0 < p.used then 1 else 0)

/-- The layout of owner `w`'s share of step `n`. -/
def State.layout (s : State) (k n w : Nat) : Pack :=
  let d := s.idesc k
  packAll d.rowlen ((s.shareRecs k n w).map d.tokens)

/-- Offset of the token vectors in a slot of `nrows` rows, and the slot's bytes in all. -/
def IDesc.vecOff (d : IDesc) (nrows : Nat) : Nat := 64 + 64 * Bits.cdiv (4 * (nrows * d.rowlen)) 64
def IDesc.slotSize (d : IDesc) (nrows : Nat) : Nat := d.vecOff nrows + nrows * d.rowlen * d.vecBytes

/-- Address of the slot of step `n`. -/
def State.slotAddr (s : State) (k n : Nat) : Nat :=
  s.val SLOT_ADDR (k + 1) + n % s.val NSLOT (k + 1) * s.val SLOT_BYTES (k + 1)

/-- Every owner's share of step `n` fits its slot (R429). -/
def State.shareFits (s : State) (k n : Nat) : Bool :=
  (List.range (s.ctx k).nown).all fun w => (s.idesc k).slotSize (s.layout k n w).nrows ≤ s.val SLOT_BYTES (k + 1)

/-! ### The owner (R427 to R429, R431) -/

/-- This device's index among the owners. -/
def State.ownIndex (s : State) (k : Nat) : Option Nat :=
  (List.range (s.ctx k).nown).find? fun w => s.owner k w == s.ingestRank k

/-- A token label (Table 4-3). -/
def tokenLabel (pad : Bool) (sq pos : Nat) : Nat := (if pad then 2 ^ 31 else 0) + 2 ^ 24 * (sq % 8) + pos % 2 ^ 24

/-- The labels of a slot's tokens that are not padding; those of void samples are. -/
def Pack.labels (p : Pack) (void : Nat → Bool) : Tab Nat :=
  p.at_.zipIdx.foldl (fun t (e, i) =>
    if void i then t else (List.range e.2.2).foldl (fun t j => Tab.ins t (e.1 + j) (tokenLabel false e.2.1 j)) t) []

/-- SAMPLE_MP rises over every step whose slots are complete without a gap (log
entry 37). -/
def State.raiseSample (s : State) (k : Nat) : Nat → State
  | 0 => s
  | fuel + 1 =>
    let n := max (s.ctx k).raised (s.val COMMITTED_STEP (k + 1)) + 1
    if (s.ctx k).filled.contains n then
      State.raiseSample ((s.updCtx k fun c => { c with raised := n }).serviceAdv k (s.val SAMPLE_MP (k + 1)) .raise n) k fuel
    else s

/-- Write a slot's labels, its padding vectors and, last, its header. -/
def State.fillSlot (s : State) (k n w : Nat) : State :=
  let d := s.idesc k
  let p := s.layout k n w
  let mine := (s.ctx k).arrivals.filter fun a => a.1 == n
  let void (i : Nat) : Bool := mine.any fun a => a.2.1 == i && a.2.2
  let a := s.slotAddr k n
  let toks := p.nrows * d.rowlen
  let labels := p.labels void
  let s := s.hubWrite k (a + 64) ((List.range toks).flatMap fun i => Bits.toBytes 4 (Tab.get (tokenLabel true 0 0) labels i))
  let s := (List.range toks).foldl (fun (s : State) i =>
    if Tab.get (tokenLabel true 0 0) labels i < 2 ^ 31 then s
    else s.hubWrite k (a + d.vecOff p.nrows + i * d.vecBytes) (List.replicate d.vecBytes 0)) s
  let voids := (p.at_.zipIdx.filter fun (e, i) => e.2.2 == 0 || void i).length
  s.hubWriteNat k a 64 (n + 2 ^ 64 * p.nrows + 2 ^ 96 * s.shareSize k + 2 ^ 128 * voids)

/-- The slot of step `n` is complete once every sample that has tokens has arrived. -/
def State.checkSlot (s : State) (k n : Nat) : State :=
  match s.ownIndex k with
  | none => s
  | some w =>
    let c := s.ctx k
    let p := s.layout k n w
    let here := p.at_.zipIdx.all fun (e, i) => e.2.2 == 0 || c.arrivals.any fun a => a.1 == n && a.2.1 == i
    if c.filled.contains n || !here || !s.shareFits k n then s
    else
      let s := s.fillSlot k n w
      let s := s.updCtx k fun c => { c with filled := c.filled ++ [n], arrivals := c.arrivals.filter fun a => a.1 != n }
      s.raiseSample k 17

/-- Bytes of sample `i` of step `n` arrive at `off` of its own bytes; `fin` marks the last of them, `void` a void sample. -/
def State.putSample (s : State) (k n i off : Nat) (bs : List Byte) (fin void : Bool) : State :=
  match s.ownIndex k with
  | none => s
  | some w =>
    let d := s.idesc k
    let p := s.layout k n w
    match p.at_[i]? with
    | none => s
    | some e =>
      if (s.ctx k).filled.contains n || s.memCheck k (s.slotAddr k n) (d.slotSize p.nrows) != none then s
      else
        let a := s.slotAddr k n + d.vecOff p.nrows + e.1 * d.vecBytes
        let s := s.hubWrite k (a + off) (bs.take (e.2.2 * d.vecBytes - off))
        if fin then
          (s.updCtx k fun c => { c with arrivals := (c.arrivals.filter fun a => !(a.1 == n && a.2.1 == i)) ++ [(n, i, void)] }).checkSlot k n
        else s

/-- A step has a slot: its predecessor in the slot is committed, and the share fits (R428, R429). -/
def State.hasSlot (s : State) (k n : Nat) : Bool :=
  decide (n ≤ s.val COMMITTED_STEP (k + 1) + s.val NSLOT (k + 1)) && s.shareFits k n

/-- A SAMPLE message reaches its owner. -/
def State.onSample (s : State) (k : Nat) (m : CMsg) : State :=
  match s.ingestGroup k, m.payload with
  | some (g, r), .raw bs =>
    if m.hdr.group ≠ g ∨ m.hdr.job ≠ r.job ∨ m.hdr.sender = r.rank ∨ r.nmem ≤ m.hdr.sender ∨ r.carriesType m.hdr.mtype = false then s.count BAD_MSGS (k + 1) 1
    else if m.hdr.pgen ≠ s.pgen k then
      let s := s.count GEN_DISCARDS (k + 1) 1
      match (s.ctx k).epoch m.hdr.epoch with
      | some e => if e.st = .opened then s.strike k e.n else s
      | none => s
    else if !(s.ctx k).ingest || decide (m.hdr.epoch ≤ s.val COMMITTED_STEP (k + 1)) then s.count STALE_DISCARDS (k + 1) 1
    else if s.hasSlot k m.hdr.epoch then
      match s.ownIndex k with
      | none => s.count BAD_MSGS (k + 1) 1
      | some w =>
        let d := s.idesc k
        let p := s.layout k m.hdr.epoch w
        let start := d.vecOff p.nrows + ((p.at_[m.hdr.seg]?).getD (0, 0, 0)).1 * d.vecBytes
        s.putSample k m.hdr.epoch m.hdr.seg (32 * (m.hdr.offset - start / 32)) bs m.hdr.endB (bs.isEmpty && m.hdr.endB)
    else s.updCtx k fun c => { c with sampleWait := c.sampleWait ++ [m] }
  | _, _ => s.count BAD_MSGS (k + 1) 1

/-- Messages that waited for a slot arrive again. -/
def State.sampleAgain (s : State) (k : Nat) : State :=
  let l := (s.ctx k).sampleWait
  if l.isEmpty then s else l.foldl (fun s m => s.onSample k m) (s.updCtx k fun c => { c with sampleWait := [] })

/-! ### The reader (R411, R426, R428) -/

/-- Payload bytes of a SAMPLE message. -/
def samplePiece : Nat := 8192

/-- Deliver a sample's bytes to its owner: into the slot on this device, else in SAMPLE messages on VC1 (log entry 35). -/
def State.deliverSample (s : State) (k q : Nat) (bs : List Byte) : State :=
  let b := s.batch k
  let n := q / b
  let i := q % b
  let w := s.ownerOf k i
  let idx := i - w * s.shareSize k
  let void := bs.isEmpty
  let s := s.updCtx k fun c => { c with samples := Tab.upd {} c.samples q fun x => { x with delivered := true, busy := false, range := [] } }
  if s.owner k w = s.ingestRank k then s.putSample k n idx 0 bs true void
  else
    match s.ingestGroup k with
    | none => s
    | some (g, r) =>
      let d := s.idesc k
      let p := s.layout k n w
      let start := d.vecOff p.nrows + ((p.at_[idx]?).getD (0, 0, 0)).1 * d.vecBytes
      let pieces := max 1 (Bits.cdiv bs.length samplePiece)
      (List.range pieces).foldl (fun (s : State) j =>
        let h : CHdr := { r.hdr g 11 n 0 (s.pgen k) with seg := idx, offset := start / 32 + j * (samplePiece / 32), endB := j + 1 == pieces }
        s.sendMsg k g (s.owner k w) { hdr := h, payload := .raw ((bs.drop (j * samplePiece)).take samplePiece) }) s

/-- A sample is void: counted and logged on its reader, and its owner is told where the sample has tokens (R431). -/
def State.voidSample (s : State) (k q x cause : Nat) : State :=
  let s := (s.count SAMPLES_VOID (k + 1) 1).updCtx k fun c => { c with voidLog := logPush 256 c.voidLog (q, x, (Config.voidReason cause).toNat) }
  if cause = 1 then s else s.deliverSample k q []

/-- Ask storage for the range at position `q`, over the port that its state names. -/
def State.readSample (s : State) (k q : Nat) : State :=
  let p1 := (Tab.get {} (s.ctx k).samples q).port1
  let r := s.srec k (s.sampleAt k q)
  let e := s.shardRec k r.shard
  let s := s.updCtx k fun c => { c with samples := Tab.upd {} c.samples q fun x => { x with busy := true } }
  if s.targetUsed e.target && s.ethUp then
    s.emit (.storageRead k q p1 e.target e.nsid (e.block r.off) (e.block (r.off + (r.len - 1)) + 1 - e.block r.off))
  else s

/-- PORTS of the target that holds the range: E0, E1. -/
def State.samplePorts (s : State) (k q : Nat) : Bool × Bool :=
  let t := (s.shardRec k (s.srec k (s.sampleAt k q)).shard).target
  let b := s.blobNat TARGETS 0 (512 * t) 1
  (Bits.bit b 4, Bits.bit b 5)

/-- Begin with position `q`: a sample void by R417, or of a codec above 5, is never read. -/
def State.beginSample (s : State) (k q : Nat) : State :=
  let x := s.sampleAt k q
  let r := s.srec k x
  if (s.idesc k).used r = 0 then s.voidSample k q x 1
  else if 5 < r.codec then s.voidSample k q x 5
  else
    let p1 := !(s.samplePorts k q).1
    (s.updCtx k fun c => { c with samples := Tab.set {} c.samples q { port1 := p1 } }).readSample k q

/-- Start the ingest of step `n`, unless a share exceeds SLOT_BYTES (R429, Table 12-7). -/
def State.startStep (s : State) (k n : Nat) : State :=
  if (s.ctx k).started.contains n then s
  else if s.shareFits k n then
    let s := s.updCtx k fun c => { c with started := c.started ++ [n], stuck := c.stuck.filter (· != n) }
    let s := (List.range (s.batch k)).foldl (fun (s : State) i =>
      if (n + i) % s.ingestMembers k = s.ingestRank k then s.beginSample k (n * s.batch k + i) else s) s
    s.checkSlot k n
  else if (s.ctx k).stuck.contains n then s
  else (s.updCtx k fun c => { c with stuck := c.stuck ++ [n] }).logFault 0xFF 0x06 8 none (some k) 8 n 0

/-- Start what the slots allow: the steps after the committed one, as many as there are slots. -/
def State.startIngest (s : State) (k : Nat) : State :=
  if (s.ctx k).ingest && !s.safeHold then
    let c := s.val COMMITTED_STEP (k + 1)
    let s := s.updCtx k fun x => { x with started := x.started.filter (c < ·), stuck := x.stuck.filter (c < ·), filled := x.filled.filter (c < ·) }
    State.sampleAgain ((List.range (s.val NSLOT (k + 1))).foldl (fun s i => s.startStep k (c + 1 + i)) s) k
  else s

/-- Ingest begins again after the committed step (R429). -/
def State.restartIngest (s : State) (k : Nat) : State :=
  if (s.ctx k).ingest then
    (s.updCtx k fun c => { c with
      samples := [], started := [], stuck := [], arrivals := [], filled := [], raised := 0, sampleWait := [] }).startIngest k
  else s

end Sys2Proof.Machine
end

