-- ==== Sys2Proof/Machine/Cores.lean ====
section
/-!
DEFINITION. Retirement of cores and step boundaries (R350, R351, R362, R533, R603).
-/

namespace Sys2Proof.Machine

open Sys2Proof.WB

/-- Sound cores of a die: those not retired (R603). -/
def State.sound (s : State) (die : Nat) : Nat := 88 - (s.retired.filter fun c => coreDie c == die).length

/-- A core is retired: it stays in, or goes to, its die's spare set and takes no work; fewer than 80 sound cores are a DOUBT
verdict (R351, R603). -/
def State.retireCore (s : State) (c : Nat) : State :=
  if s.retired.contains c then s
  else
    let die := coreDie c
    let k := (s.core c).ctx
    let s : State := { s with
      retired := s.retired ++ [c]
      retiring := s.retiring.filter (· != c)
      passed := s.passed.filter (· != c)
      swaps := s.swaps.filter fun p => p.1 != c && p.2 != c }
    let s := if s.sound die < 80 then (s.logFault 0xFB 0x06 5 (some c) k die s.syndrome 0).enterSafeHold 0 else s
    if s.spares.contains c then s
    else
      match s.usableSpare die with
      | some b => s.swapCore c b
      | none => s

/-- The cores that a step boundary of context `k` retires: its own, and those that no context with epochs holds (log entry 11). -/
def State.dueCores (s : State) (k : Nat) : List Nat :=
  s.retiring.filter fun c =>
    match (s.core c).ctx with
    | some j => j == k || (s.stepGroup j).isNone
    | none => true

/-- Retire them; a context with epochs squashes its open ones first (Table 10-4). -/
def State.retireDue (s : State) (k : Nat) : State :=
  (s.dueCores k).foldl (fun s c =>
    let s := if (s.core c).ctx == some k && (s.stepGroup k).isSome then s.squashAllVote k else s
    s.retireCore c) s

/-- Logged cores that no context with epochs holds wait for no boundary: they are retired at once. -/
def State.retireIdle (s : State) : State :=
  (s.retiring.filter fun c => match (s.core c).ctx with | some j => (s.stepGroup j).isNone | none => true).foldl State.retireCore s

/-- A member of a larger job waits for the verdict before it runs on; the seat, and a job of one device, do not. -/
def State.ownsRun (s : State) (k : Nat) : Bool :=
  match s.jobGroup k with
  | some (_, r) => r.rank == 0
  | none => true

/-- Squashed epochs open again while the context runs and no placement change drains (Tables 10-1, 11-9). -/
def State.runOn (s : State) (k : Nat) : State :=
  let c := s.ctx k
  if c.st = .running && !c.draining && !s.safeHold then s.resumeEpochs k else s

/-- Active cores that belong to no context, in global core order. -/
def State.idleCores (s : State) : List Nat :=
  (List.range 704).filter fun c => !s.spares.contains c && (s.core c).ctx.isNone

/-- A twin for each core of a list, on the die opposite to its own (R358). -/
def twinsFor : List Nat → List Nat → Option (List Nat)
  | _, [] => some []
  | idle, c :: t =>
    match idle.find? fun d => coreDie d == (coreDie c + 4) % 8 with
    | some d => (twinsFor (idle.filter (· != d)) t).map (d :: ·)
    | none => none

/-- Twins of an open context as REDUNDANCY has them from here on: in full mode each role gets one, if idle cores of the opposite dies suffice, and in
the others they are given back (R358; DESIGN CHOICE, log entry 117). -/
def State.pairTwins (s : State) (k : Nat) : State :=
  let c := s.ctx k
  let full := decide (s.val REDUNDANCY 0 = 1)
  if full && !c.roles.isEmpty && c.twins.isEmpty then
    match twinsFor s.idleCores c.roles with
    | none => s
    | some l =>
      let s := l.zipIdx.foldl (fun s (d, r) => s.setCore d { ctx := some k, role := r }) s
      State.updCtx { s with service := s.service ++ l.map fun d => { core := d, k := k, first := s.val COMMITTED_STEP (k + 1) + 1 } } k fun c =>
        { c with twins := l }
  else if !full && !c.twins.isEmpty then
    let last := s.lastRan k
    let s := c.twins.foldl (fun s d => s.setCore d {}) s
    State.updCtx { s with service := s.service.map fun p => if c.twins.contains p.core && p.last.isNone then { p with last := some last } else p } k
      fun c => { c with twins := [] }
  else s

/-- Some context has a step in progress. -/
def State.anyStep (s : State) : Bool := (List.range 16).any fun k => (s.ctx k).epochs.any Epoch.live

/-- A row or column is replaced and counted, or no spare is left: a core-store bank has 4 spare columns (R449, R452). -/
def State.applySpare (s : State) (e : SpareUnit × Bool) : State :=
  match e.1 with
  | .row t _ => if e.2 then s.count SPARED (t.val + 1) 1 else s.event 0x0021 none (targetDie t.val) t.val
  | .column c b _ =>
    let n := Tab.get 0 s.sparing.columns (64 * c.val + b.val)
    if n < 4 then
      State.count { s with sparing := { s.sparing with columns := Tab.set 0 s.sparing.columns (64 * c.val + b.val) (n + 1) } } SPARED 0x15 1
    else s.event 0x0021 none (coreDie c.val) c.val

/-- Replace what waited for a step boundary. -/
def State.spareDue (s : State) : State :=
  s.sparing.due.foldl State.applySpare { s with sparing := { s.sparing with due := [] } }

/-- A step boundary of context `k` (log entry 11): settings that waited take effect, cores due are retired, twins follow REDUNDANCY,
rows and columns due are replaced, and
context commands that waited for this context wait no longer (R546). -/
def State.stepBoundary (s : State) (k : Nat) : State :=
  let s : State := { s with late := s.late.map fun l => { l with need := l.need.filter (· != k) } }
  (((s.releaseHeld k).retireDue k).pairTwins k).spareDue

end Sys2Proof.Machine
end

