-- ==== Sys2Proof/Machine/Expo.lean ====
section
/-!
DEFINITION. The exponential terms of the attention operation (R128, R131): exp of an exact number, rounded to 16 significant
bits from a value carried to 320 fraction bits (log entry 14).
-/

namespace Sys2Proof.Expo

/-- Fraction bits of the working form. -/
def fbits : Nat := 320

/-- ln 2 in the working form. -/
def ln2 : Nat := 0xb17217f7d1cf79abc9e3b39803f2f6af40f343267298b62d8a0d175b8baafa2be7b876206debac98

/-- The sum 1 + r + r^2/2 + … of exp, term `t` the `i`-th, `n` terms more. -/
def taylor (r : Int) : Nat → Nat → Int → Int → Int
  | 0, _, _, acc => acc
  | n + 1, i, t, acc =>
    let t' := t * r / (2 ^ fbits * (i + 1 : Nat))
    taylor r n (i + 1) t' (acc + t')

/-- exp of the dyadic `y`, of magnitude below 2^13, as (significand, exponent). -/
def exp (y : Dy) : Nat × Int :=
  let f : Int := y.truncAt (-320)
  let n := (f + ln2 / 2) / ln2
  ((taylor (f - n * ln2) 72 0 (2 ^ fbits) (2 ^ fbits)).toNat, n - 320)

/-- The value m 2^e rounded to the nearest value of at most 16 significant bits that is a multiple of 2^-142 (R128, R131). -/
def round16 (m : Nat) (e : Int) : Dy :=
  let lead : Int := Nat.log2 m + e
  let q := max (lead - 15) (-142)
  ⟨rheAt m 1 e q, q⟩

/-- The exponential term of a finite exponent `y`, as an exact value (R128, R131).  A term above 2^738 is a multiple of 2^700: it and its
product with any element of V leave every bit of ACC as it is, since ACC adds modulo 2^640 (chapter 3), so any such value stands for it
(log entry 3). -/
def term (y : Dy) : Dy :=
  if y.isZero then Dy.one
  else if y.lt (Dy.ofInt (-110)) then Dy.zero
  else if (Dy.ofInt 512).lt y then Dy.pow2 738
  else let (m, e) := exp y; round16 m e

end Sys2Proof.Expo
end

