-- ==== Sys2Proof/Machine/Operands.lean ====
section
/-!
DEFINITION. The fields of an instruction word (Tables 6-1 to 6-19), the checks of R201 and R202 on them, and operand
reads: registers, value operands, addresses, core-store and memory operands.
-/

namespace Sys2Proof.Machine

/-! ### Layouts -/

/-- The operand fields of format C, by lowest bit and width, reserved ones included (Table 6-4); the next ones likewise. -/
def fmtC : List (Nat × Nat) := [(32, 11), (43, 3), (46, 6), (52, 6), (58, 1), (59, 5), (64, 32), (96, 32)]
def fmtL : List (Nat × Nat) :=
  [(32, 32), (64, 11), (75, 3), (78, 3), (81, 1), (82, 2), (84, 5), (89, 4), (93, 5), (98, 4), (102, 5), (107, 4), (111, 5), (116, 4), (120, 8)]
def fmtM : List (Nat × Nat) := [(32, 13), (45, 7), (52, 2), (54, 6), (60, 4), (64, 32), (96, 32)]
def fmtRidge : List (Nat × Nat) := [(32, 6), (38, 7), (45, 7), (52, 2), (54, 6), (60, 4), (64, 32), (96, 32)]
def fmtB : List (Nat × Nat) := [(32, 6), (38, 1), (39, 5), (44, 4), (48, 6), (54, 13), (67, 29), (96, 32)]
def fmtS : List (Nat × Nat) := [(32, 6), (38, 6), (44, 6), (50, 4), (54, 1), (55, 2), (57, 1), (58, 4), (62, 2), (64, 32), (96, 32)]
def fmtLi : List (Nat × Nat) := [(32, 6), (38, 26), (64, 64)]
def fmtO : List (Nat × Nat) := [(32, 6), (38, 4), (42, 6), (48, 13), (61, 35), (96, 32)]
def fmtMm : List (Nat × Nat) :=
  [(32, 4), (36, 4), (40, 2), (42, 2), (44, 1), (45, 1), (46, 1), (47, 1), (48, 1), (49, 1), (50, 2), (52, 4), (56, 4), (60, 4), (64, 4),
   (68, 4), (72, 5), (77, 5), (82, 5), (87, 8), (95, 8), (103, 5), (108, 20)]
def fmtAttn : List (Nat × Nat) :=
  [(32, 4), (36, 4), (40, 4), (44, 2), (46, 1), (47, 1), (48, 4), (52, 4), (56, 4), (60, 4), (64, 4), (68, 4), (72, 4), (76, 5), (81, 5),
   (86, 5), (91, 5), (96, 8), (104, 8), (112, 6), (118, 10)]
def fmtV : List (Nat × Nat) :=
  [(32, 8), (40, 1), (41, 1), (42, 2), (44, 6), (50, 6), (56, 6), (62, 6), (68, 6), (74, 4), (78, 4), (82, 4), (86, 4), (90, 6), (96, 32)]
/-- VBENC's IMM is cut as R222 gives it: block-format byte, pinned code, census tensor. -/
def fmtVbenc : List (Nat × Nat) :=
  [(32, 8), (40, 1), (41, 1), (42, 2), (44, 6), (50, 6), (56, 6), (62, 6), (68, 6), (74, 4), (78, 4), (82, 4), (86, 4), (90, 6), (96, 8), (104, 8), (112, 16)]
def fmtF : List (Nat × Nat) :=
  [(32, 1), (33, 8), (41, 3), (44, 4), (48, 1), (49, 2), (51, 1), (52, 1), (53, 3), (56, 8), (64, 8), (72, 4), (76, 4), (80, 4), (84, 4),
   (88, 5), (93, 5), (98, 6), (104, 8), (112, 16)]
def fmtU : List (Nat × Nat) :=
  [(32, 4), (36, 4), (40, 4), (44, 4), (48, 4), (52, 4), (56, 4), (60, 4), (64, 4), (68, 5), (73, 5), (78, 50)]

/-- An instruction is named by 256 QS + OP (R201). -/
abbrev OpCode := Nat

/-- Opcodes that the queue sets define (Tables 6-3, 6-9, 6-13, 6-15, 6-18, R217). -/
def opDefined (oc : OpCode) : Bool :=
  let op := oc % 256
  match oc / 256 with
  | 0 => [0, 1, 2, 3, 4, 5, 8, 9, 0xA, 0xB, 0xC, 0x10, 0x11, 0x12, 0x13, 0x18, 0x19, 0x1A, 0x1B].contains op
  | 1 => op ≤ 5
  | 2 => op == 0 || op == 8
  | 3 => op ≤ 0xE || (0x10 ≤ op && op ≤ 0x17)
  | 4 => op ≤ 3
  | 5 => op ≤ 3
  | _ => false

/-- The layout of an instruction's operand area. -/
def layoutOf (oc : OpCode) : List (Nat × Nat) :=
  match oc / 256, oc % 256 with
  | 0, 0x00 => [(32, 96)]
  | 0, 0x02 => fmtL
  | 0, 0x0C => fmtRidge
  | 0, 0x18 => fmtLi
  | 0, op => if op ≤ 5 then fmtC else if op ≤ 0xB then fmtM else if op ≤ 0x13 then fmtB else fmtS
  | 1, _ => fmtO
  | 2, 0 => fmtMm
  | 2, _ => fmtAttn
  | 3, 0x17 => fmtVbenc
  | 3, _ => fmtV
  | 4, _ => fmtF
  | _, _ => fmtU

/-- Lowest bits of the second operand b: RS under SB, else VB (R220). -/
def usedB (w : Nat) : List Nat := if Bits.bit w 41 then [68] else [56]

/-- Lowest bits of the fields that a V-queue instruction uses (Table 6-13, R220). -/
def usedV (op w : Nat) : List Nat :=
  match op with
  | 0x03 => [40, 41, 44, 50, 62] ++ usedB w
  | 0x05 | 0x07 => [40, 44, 50]
  | 0x0A => [32, 40, 41, 44, 50] ++ usedB w
  | 0x0B => [40, 41, 44, 50, 62] ++ usedB w
  | 0x0C => [44, 50, 82, 86]
  | 0x0D => [32, 40, 44, 50]
  | 0x0E => [32, 41, 44, 50] ++ usedB w
  | 0x10 => [40, 44, 50, 74, 96]
  | 0x11 => [40, 50, 56, 74, 96]
  | 0x12 => [32, 40, 50, 56, 74, 96]
  | 0x13 => [44]
  | 0x14 => [44, 68]
  | 0x15 => [68]
  | 0x16 => [32, 44]
  | 0x17 => [68, 74, 78, 96, 112] ++ (if Bits.bit w 100 then [104] else [])
  | _ => [40, 41, 44, 50] ++ usedB w

/-- Lowest bits of the fields that an F-queue instruction uses (Tables 6-15 and 6-16, R224, R627). -/
def usedF (op w : Nat) : List Nat :=
  let fd := Bits.fld w 44 4
  match op with
  | 0 => [32, 41, 49, 51, 52, 76, 88, 98, 112] ++ (if Bits.fld w 49 2 = 0 then [] else [80]) ++ (if Bits.bit w 51 then [84, 93] else [])
      ++ (if Bits.fld w 41 3 = 0 then [44] ++ (if Fmt.isBlock fd then [48, 56] ++ (if Bits.bit w 60 then [64] else []) else []) else [])
  | 1 => [32, 44, 76, 80, 88, 98]
  | 2 => [41, 44, 72, 76, 93, 98] ++ (if fd = 7 then [84] else []) ++ (if Fmt.isBlock fd then [56] else [])
  | _ => [44, 72, 93, 98, 112] ++ (if fd = 7 then [84] else []) ++ (if Fmt.isBlock fd then [56] else [])

/-- Lowest bits of the fields that an instruction uses. -/
def usedOf (oc : OpCode) (w : Nat) : List Nat :=
  match oc / 256, oc % 256 with
  | 0, 0x00 => []
  | 0, 0x01 => [64]
  | 0, 0x02 => [32, 64, 75, 78, 81] ++ ((List.range (min (Bits.fld w 78 3) 4)).flatMap fun i => [84 + 9 * i, 89 + 9 * i])
  | 0, 0x03 => [32]
  | 0, 0x04 => [32, 43, 46, 58] ++ (if Bits.bit w 58 then [64] else [52])
  | 0, 0x05 => [32]
  | 0, 0x08 => [32, 54, 64]
  | 0, 0x09 => [32, 45, 54, 64]
  | 0, 0x0A => [32, 52, 54, 64]
  | 0, 0x0B => [32, 54]
  | 0, 0x0C => [32, 54, 64]
  | 0, 0x10 => [32, 44, 48, 96]
  | 0, 0x11 => [32, 38, 39]
  | 0, 0x12 => [32, 38, 48, 54, 96]
  | 0, 0x13 => [32]
  | 0, 0x18 => [32, 64]
  | 0, 0x19 => if Bits.fld w 50 4 = 13 then [32, 38, 50] else [32, 38, 50, 54] ++ (if Bits.bit w 54 then [64] else [44])
  | 0, 0x1A => [32, 55, 57, 58, 64]
  | 0, 0x1B => [32, 55, 58, 64]
  | 1, op => if op ≤ 1 then [32, 38, 96] else if op = 3 then [32, 42, 48, 96] else if op = 5 then [32, 42] else [32]
  | 2, 0 => [32, 36, 44, 45, 46, 47, 48, 49, 52, 56, 72, 77, 87, 95] ++ (if Bits.bit w 47 then [64, 68, 103] else [])
      ++ (if Bits.bit w 49 then [60, 82] else []) ++ (if Fmt.isBlock (Bits.fld w 32 4) then [40] else [])
      ++ (if Fmt.isBlock (Bits.fld w 36 4) then [42] else [])
  | 2, _ => [32, 36, 40, 46, 48, 52, 56, 60, 64, 68, 72, 76, 81, 86, 91, 96, 104, 112]
      ++ (if Fmt.isBlock (Bits.fld w 32 4) || Fmt.isBlock (Bits.fld w 36 4) || Fmt.isBlock (Bits.fld w 40 4) then [44] else [])
  | 3, op => usedV op w
  | 4, op => usedF op w
  | _, op => [32, 40, 44, 64, 68, 73] ++ (if Bits.fld w 32 4 = 7 then [48] else []) ++ (if 1 ≤ op then [52] else [])
      ++ (if 2 ≤ op then [56] else []) ++ (if 3 ≤ op then [60] else [])

/-- Format-code fields of an instruction that it uses, with the codes that each permits (R35). -/
def fmtFields (oc : OpCode) (w : Nat) : List (Nat × List Nat) :=
  let arr := [0, 1, 2, 4, 5]
  match oc / 256, oc % 256 with
  | 2, 0 => [(32, arr), (36, arr)] ++ (if Bits.bit w 47 then [(68, [0, 1, 2, 3, 4, 5, 6, 8])] else [])
  | 2, _ => [(32, arr), (36, arr), (40, arr)]
  | 3, 0x0C => [(82, [0, 1, 2, 3]), (86, [0, 1, 2, 3])]
  | 4, 0 => if Bits.fld w 41 3 = 0 then [(44, arr)] else []
  | 4, 1 => [(44, arr)]
  | 4, _ => [(44, List.range 9)]
  | 5, _ => [(32, [0, 1, 2, 7, 8])]
  | _, _ => []

/-- Least of a list of bit positions. -/
def lowest (l : List Nat) : Option Nat := l.min?

/-- Fields that HC-02 refuses: reserved or unused and nonzero, a reserved format code, or an advance without ADV (R202, R203, R35). -/
def bad02 (oc : OpCode) (w : Nat) : List Nat :=
  let used := usedOf oc w
  (if Bits.bit w 11 then [11] else [])
    ++ (if Bits.bit w 12 then [] else (if Bits.fld w 13 13 = 0 then [] else [13]) ++ (if Bits.fld w 26 6 = 0 then [] else [26]))
    ++ ((layoutOf oc).filter fun f => !used.contains f.1 && Bits.fld w f.1 f.2 != 0).map (·.1)
    ++ ((fmtFields oc w).filter fun f => 9 ≤ Bits.fld w f.1 4).map (·.1)
    ++ (if oc = 0x002 ∧ Bits.bit w 81 ∧ Bits.fld w 38 26 ≠ 0 then [38] else [])

/-- Register-name fields of an instruction that it uses (R204). -/
def regFields (oc : OpCode) : List Nat :=
  match oc / 256, oc % 256 with
  | 0, 0x04 => [46, 52]
  | 0, 0x10 => [48]
  | 0, 0x12 => [48]
  | 0, 0x18 => [32]
  | 0, 0x19 => [32, 38, 44]
  | 0, 0x1A => [32]
  | 0, 0x1B => [32]
  | 0, op => if 0x08 ≤ op && op ≤ 0x0C then [54] else []
  | 1, op => if op = 3 || op = 5 then [42] else []
  | 2, 8 => [112]
  | 3, _ => [68]
  | 4, _ => [98]
  | _, _ => []

/-- Fields with a range, for the instruction: lowest bit, width, least and greatest value. -/
def ranges (oc : OpCode) : List (Nat × Nat × Nat × Nat) :=
  match oc / 256, oc % 256 with
  | 0, 0x02 => [(64, 11, 1, 2047), (75, 3, 0, 5), (78, 3, 0, 4)]
  | 0, 0x04 => [(43, 3, 0, 5)]
  | 0, 0x09 => [(45, 7, 1, 64)]
  | 0, 0x0A => [(52, 2, 0, 1)]
  | 0, 0x11 => [(39, 5, 1, 31)]
  | 0, 0x19 => [(50, 4, 0, 13)]
  | 2, 0 => [(87, 8, 1, 128), (95, 8, 1, 128)]
  | 2, 8 => [(96, 8, 1, 128), (104, 8, 1, 128)]
  | 3, 0x0A => [(32, 8, 0, 6)]
  | 3, 0x0D => [(32, 8, 0, 11)]
  | 3, 0x0E => [(32, 8, 0, 12)]
  | 3, 0x12 => [(32, 8, 0, 1)]
  | 3, 0x16 => [(32, 8, 0, 1)]
  | 3, 0x17 => [(112, 16, 0, 4095)]
  | 4, 0 => [(41, 3, 0, 3), (49, 2, 0, 2), (112, 16, 0, 4095)]
  | 4, 3 => [(112, 16, 0, 4095)]
  | _, _ => []

/-- AREG fields of LOOP's streams that name an earlier stream's register (R209). -/
def loopDups (w : Nat) : List Nat :=
  (List.range (min (Bits.fld w 78 3) 4)).filterMap fun i =>
    if (List.range i).any fun j => Bits.fld w (89 + 9 * j) 4 == Bits.fld w (89 + 9 * i) 4 then some (89 + 9 * i) else none

/-- Vector fields that must name an even register: all of them under P, and VCVT's by its formats (R220). -/
def pairFields (oc : OpCode) (w : Nat) : List Nat :=
  if oc / 256 = 3 then
    if oc = 0x30C then (if Bits.fld w 82 4 = 3 then [50] else []) ++ (if Bits.fld w 86 4 = 3 then [44] else [])
    else if Bits.bit w 40 then [44, 50, 56, 62] else []
  else []

/-- Fields that HC-03 refuses (R202, R203, R204, R213, R218, R220, R290, R302). -/
def bad03 (oc : OpCode) (w : Nat) : List Nat :=
  let used := usedOf oc w
  let adv := Bits.bit w 12
  (if adv ∧ Bits.fld w 26 6 = 0 then [26] else [])
    ++ (if adv ∧ (oc = 0x001 ∨ oc = 0x103) then [12] else [])
    ++ (if !adv ∧ oc = 0x011 then [12] else [])
    ++ ((regFields oc).filter fun lo => used.contains lo && 0x31 ≤ Bits.fld w lo 6)
    ++ ((ranges oc).filter fun r => Bits.fld w r.1 r.2.1 < r.2.2.1 || r.2.2.2 < Bits.fld w r.1 r.2.1).map (·.1)
    ++ ((fmtFields oc w).filter fun f => !f.2.contains (Bits.fld w f.1 4)).map (·.1)
    ++ ((pairFields oc w).filter fun lo => used.contains lo && Bits.bit w lo)
    ++ (if oc = 0x002 then loopDups w ++ (if Bits.bit w 81 ∧ 0x31 ≤ Bits.fld w 32 6 then [32] else []) else [])
    ++ (if oc = 0x200 ∧ Bits.bit w 47 ∧ !Bits.bit w 46 then [47] else [])
    ++ (if oc = 0x402 ∧ Bits.fld w 41 3 ≠ 0 ∧ Bits.fld w 41 3 ≠ 2 then [41] else [])

/-- The checks of R202, in order, on the word of a queue: halt code and DETAIL. -/
def checkWord (q : Queue) (w : Nat) : Option (Nat × Nat) :=
  let qs := Bits.fld w 8 3
  let oc := qs * 256 + Bits.fld w 0 8
  if (qs ≠ 0 ∧ qs ≠ q.num + 1) ∨ opDefined oc = false then some (0x01, Bits.fld w 0 11)
  else
    match lowest (bad02 oc w) with
    | some d => some (0x02, d)
    | none =>
      match lowest (bad03 oc w) with
      | some d => some (0x03, d)
      | none => none

/-- Lowest bits of the fields that an instruction's format names reserved (Tables 6-4 to 6-18). -/
def reservedOf (oc : OpCode) : List Nat :=
  match oc / 256, oc % 256 with
  | 0, 0x00 => [32]
  | 0, 0x02 => [82, 120]
  | 0, 0x18 => [38]
  | 0, op => if op ≤ 5 then [59, 96] else if op ≤ 0xB then [60, 96] else if op = 0x0C then [60, 96] else if op ≤ 0x13 then [67] else [62, 96]
  | 1, _ => [61]
  | 2, 0 => [50, 108]
  | 2, _ => [47, 118]
  | 3, _ => [42, 90]
  | 4, _ => [33, 53, 104]
  | _, _ => [36, 78]

/-- What the Encoding row of Table 5-6 refuses: an undefined opcode, a nonzero reserved field, or a register or format code outside its
range.  The other conditions of R202 halt at run time (R187). -/
def encodingBad (q : Queue) (w : Nat) : Bool :=
  let qs := Bits.fld w 8 3
  let oc := qs * 256 + Bits.fld w 0 8
  let used := usedOf oc w
  decide (qs ≠ 0 ∧ qs ≠ q.num + 1) || !opDefined oc || Bits.bit w 11
    || ((layoutOf oc).any fun f => (reservedOf oc).contains f.1 && Bits.fld w f.1 f.2 != 0)
    || ((fmtFields oc w).any fun f => !f.2.contains (Bits.fld w f.1 4))
    || ((regFields oc).any fun lo => used.contains lo && decide (0x31 ≤ Bits.fld w lo 6))
    || (oc == 0x002 && (decide (5 < Bits.fld w 75 3) || (Bits.bit w 81 && decide (0x31 ≤ Bits.fld w 32 6))))

/-! ### Registers and values (R204, R205) -/

/-- A register by its name; ZERO and reserved names read as 0. -/
def QueueSt.reg (x : QueueSt) (n : Nat) : Nat := if n < 0x30 then (Tab.get 0 x.regs n).toNat else 0

/-- Write a register; a write to ZERO is discarded. -/
def QueueSt.setReg (x : QueueSt) (n v : Nat) : QueueSt :=
  if n < 0x30 then { x with regs := Tab.set 0 x.regs n (BitVec.ofNat 64 v) } else x

/-- Scalar register and address register of a direct field. -/
def QueueSt.s (x : QueueSt) (n : Nat) : Nat := x.reg n
def QueueSt.a (x : QueueSt) (n : Nat) : Nat := x.reg (0x20 + n)

/-- The 32-bit field at `lo`, sign-extended. -/
def imm32 (w lo : Nat) : Int := Bits.signed (Bits.fld w lo 32) 32

/-- r + sext(IMM) modulo 2^64 (R205). -/
def addImm (r : Nat) (i : Int) : Nat := Bits.wrap (r + i) 64

/-- A core-local region: misalignment and extent (R206): code, DETAIL and ADDR of the halt. -/
def coreRegion (a n al : Nat) : Option (Nat × Nat × Nat) :=
  if a % al ≠ 0 then some (0x13, al, a) else if storeSize < a + n then some (0x13, 0, a) else none

/-- The sentinel on a core-store access, as a halt (R174, R230). -/
def Core.access (c : Core) (q : Queue) (wr : Bool) (a n : Nat) : Option (Nat × Nat × Nat) :=
  (c.sentinel q wr a n).map fun h => (h.1, h.2, a)

/-- The first of several checks that fails. -/
def firstOf : List (Option (Nat × Nat × Nat)) → Option (Nat × Nat × Nat)
  | [] => none
  | some h :: _ => some h
  | none :: t => firstOf t

end Sys2Proof.Machine
end

