-- ==== Sys2Proof/Machine/Issue.lean ====
section
/-!
DEFINITION. Issue and retire of an engine instruction (R165 to R170, R181 to R185, R190, R191, R201 to R203): the one shared
operation of every queue instruction.
-/

namespace Sys2Proof.Machine

open Sys2Proof.WB

/-- Where a queue goes after an instruction that issues. -/
inductive Next where
  | seq
  /-- a taken branch -/
  | to (pc : Nat)
  /-- past the END word `e` of a frame that did not open (R183) -/
  | past (e : Nat)
  /-- bank switch -/
  | bank (pc : Nat)
  /-- the frame that LOOP opened starts -/
  | body (pc : Nat)

/-- What an instruction does when it is about to issue. -/
inductive Act where
  /-- a check refuses it; `s` holds what the refusal itself logs -/
  | halt (s : State) (hc detail addr : Nat)
  /-- it waits; `s` holds what it has done so far -/
  | wait (s : State) (w : Wait) (waiting : Bool)
  /-- an earlier instruction in flight still writes what it reads: the event has not occurred (log entry 12) -/
  | notYet
  /-- the part has stopped every queue, this one among them (R365) -/
  | stopped (s : State)
  /-- it issues: the state with its effects, what it still waits for, and the advances of its own, in order -/
  | go (s : State) (work : Work) (advs : List (Nat × AdvMode × Nat)) (next : Next)

/-! ### Loop frames -/

def QueueSt.frame (x : QueueSt) (i : Nat) : Frame := Tab.get {} x.frames i
def QueueSt.setFrame (x : QueueSt) (i : Nat) (f : Frame) : QueueSt := { x with frames := Tab.set {} x.frames i f }

/-- The active frames, innermost first: an inner body starts after an outer one (R184). -/
def QueueSt.activeFrames (x : QueueSt) : List (Nat × Frame) :=
  let l := x.frames.filter fun e => e.2.active
  let rec sort : List (Nat × Frame) → List (Nat × Frame)
    | [] => []
    | e :: t =>
      let rec put (e : Nat × Frame) : List (Nat × Frame) → List (Nat × Frame)
        | [] => [e]
        | f :: t => if f.2.start ≤ e.2.start then e :: f :: t else f :: put e t
      put e (sort t)
  sort l

/-- Step the streams of a frame (R182). -/
def QueueSt.stepStreams (x : QueueSt) (f : Frame) : QueueSt :=
  f.streams.foldl (fun x st => x.setReg (0x20 + st.reg) (addImm (x.a st.reg) st.inc.toInt)) x

/-- Restore the streams of a frame (R182). -/
def QueueSt.restoreStreams (x : QueueSt) (f : Frame) : QueueSt :=
  f.streams.foldl (fun x st => x.setReg (0x20 + st.reg) st.save.toNat) x

/-- The END word `e` has completed its issue: the ends of the frames that end there, innermost first (R182, R183).  Past word 2047, the last
that an 11-bit PC names (R165), the model's pc is 2048 and the next fetch halts with HC-04: the spec does not say that it wraps (DESIGN CHOICE,
log entry 99). -/
def QueueSt.endFrames (x : QueueSt) (e : Nat) : List (Nat × Frame) → QueueSt
  | [] => { x with pc := e + 1 }
  | (i, f) :: t =>
    if f.last = e then
      let it := f.iter + 1
      if it < f.trip then { (x.setFrame i { f with iter := it }).stepStreams f with pc := f.start }
      else ((x.setFrame i { f with iter := it, active := false }).restoreStreams f).endFrames e t
    else x.endFrames e t

/-- The queue after an instruction at its pc has issued. -/
def QueueSt.advance (x : QueueSt) (n : Next) : QueueSt :=
  match n with
  | .seq => x.endFrames x.pc x.activeFrames
  | .to t => { x with pc := t }
  | .past e => x.endFrames e x.activeFrames
  | .bank t => { x with pc := t, bank := !x.bank }
  | .body t => { x with pc := t }

/-- The innermost active frame that streams the register named `n` (R185); HC-09 gives its number (DESIGN CHOICE, log entry 118). -/
def QueueSt.streamFrame (x : QueueSt) (n : Nat) : Option Nat :=
  (x.activeFrames.find? fun e => e.2.streams.any fun st => 0x20 + st.reg == n).map (·.1)

/-! ### Retire -/

/-- The queue's retire is held for a tile replay: its instruction has issued (R350). -/
def QueueSt.replaying (x : QueueSt) : Bool :=
  match x.wait with
  | some (.replay _ _ _) => true
  | _ => false

/-- A context that waits for its issued instructions to retire (R196, R197) has none left, and no advance of one is still on its way. -/
def State.drainedOut (s : State) (k : Nat) : Bool :=
  ((s.ctxQueues k).all fun q => (s.queue q).inflight.isEmpty && !(s.queue q).replaying)
    && !(s.transit.any fun a => a.k == k && a.src.isSome)

/-- Apply the advances of an instruction at its retire point, in order; HC-1A refuses one and every later one, and one into a
poisoned Milepost is discarded (R191, R203, R268). -/
def State.retireAdvs (s : State) (q : QRef) (k : Nat) (i : InFlight) : List (Nat × AdvMode × Nat) → State
  | [] => s
  | (mp, m, v) :: t =>
    let p := s.pmp (s.mpEntry k mp).pmp
    if p.st = .poisoned then s.retireAdvs q k i t
    else if s.advOverflows k mp m v i.epoch then s.haltIssued q i 0x1A mp 0
    else (s.sendAdv (some q) k mp m v i.epoch).retireAdvs q k i t

/-- The retire point of the instruction at the head of a queue's issued instructions; an abort of the context refuses it
there (R198, R297). -/
def State.retireHead (s : State) (q : QRef) (i : InFlight) : State :=
  let k := (s.core q.core.val).ctx.getD 0
  match (s.ctx k).aborting with
  | some d => s.haltIssued q i 0x1C d 0
  | none => (s.updQueue q fun x => { x with inflight := x.inflight.drop 1 }).retireAdvs q k i i.advs

/-- Retire the instructions at the head that wait for nothing. -/
def State.drain (s : State) (q : QRef) : Nat → State
  | 0 => s
  | fuel + 1 =>
    match (s.queue q).inflight with
    | i :: _ => if i.work = .now then (s.retireHead q i).drain q fuel else s
    | [] => s

/-! ### Issue -/

/-- The carried advance of a word (R203). -/
def carried (w : Nat) : List (Nat × AdvMode × Nat) := if Bits.bit w 12 then [(Bits.fld w 13 13, .add, Bits.fld w 26 6)] else []

/-- The context may advance a Milepost (R237). -/
def State.mayAdvance (s : State) (k mp : Nat) : Bool := let e := s.mpEntry k mp; e.valid && e.adv

/-- The active bank of a queue (R177). -/
def QueueSt.active (x : QueueSt) : Bank := if x.bank then x.bank1 else x.bank0
def QueueSt.inactive (x : QueueSt) : Bank := if x.bank then x.bank0 else x.bank1

/-- The word that a queue's pc names; none at or beyond the loaded length (R181). -/
def QueueSt.fetch (x : QueueSt) : Option Nat := (x.active.words[x.pc]?).map (·.toNat)

/-- Halt at issue, once every earlier instruction has retired (R191). -/
def State.haltIssue (s s' : State) (q : QRef) (hc detail addr : Nat) : State :=
  if (s.queue q).inflight.isEmpty then s'.haltQ q hc detail addr else s

/-- An instruction with such work writes a register as it retires, so that nothing behind it issues before (R167). -/
def Work.late : Work → Bool
  | .adds _ => true
  | .attn => true
  | _ => false

/-- Take the effect of an instruction's issue: a halt, a wait, or its effects, its place among the issued
instructions and the queue's next pc. -/
def State.settle (s : State) (q : QRef) (w : Nat) (a : Act) : State :=
  match a with
  | .halt s' hc d ad => s.haltIssue s' q hc d ad
  | .notYet => s
  | .stopped s' => s'
  | .wait s' wt waiting => s'.updQueue q fun x => { x with wait := some wt, st := (if waiting then .waiting else x.st) }
  | .go s' work advs nx =>
    let x := s.queue q
    let k := (s.core q.core.val).ctx.getD 0
    let i : InFlight :=
      { id := s'.nextId, word := BitVec.ofNat 128 w, bank := x.bank, pc := x.pc, work := work, advs := advs ++ carried w
        epoch := s.epochOf k x, regs := if work.late then x.regs else [] }
    let s' : State := { s' with nextId := s'.nextId + 1 }
    (s'.updQueue q fun y => { y.advance nx with inflight := y.inflight ++ [i] }).drain q (x.inflight.length + 1)

/-- Issue the instruction `oc` of a queue whose word its pc names: the checks of R181, R201, R202 and R237, then the
instruction's own.  `serial`: it issues only when every earlier instruction has retired, as everything does behind
an instruction whose adds are in flight and behind an ATTN, which write a register as they retire (R167).  A word of another mnemonic, or a
queue that cannot issue, leaves the machine as it is: the event has not occurred (log entry 12). -/
def State.tryIssue (s : State) (oc : OpCode) (serial : Bool) (q : QRef) (body : Nat → Act) : State :=
  let x := s.queue q
  let k := (s.core q.core.val).ctx.getD 0
  match x.fetch with
  | none => s.haltIssue s q 0x04 x.active.words.length 0
  | some w =>
    match checkWord q.queue w with
    | some (0x01, d) => s.haltIssue s q 0x01 d 0
    | chk =>
      if Bits.fld w 8 3 * 256 + Bits.fld w 0 8 ≠ oc then s
      else
        match chk with
        | some (hc, d) => s.haltIssue s q hc d 0
        | none =>
          match (s.ctx k).aborting with
          | some d => if x.inflight.isEmpty then s.haltQ q 0x1C d 0 else s
          | none =>
            if (serial || x.inflight.any fun i => i.work.late) && !x.inflight.isEmpty then s
            else if (carried w).any fun a => !s.mayAdvance k a.1 then s.haltIssue s q 0x19 (Bits.fld w 13 13) 0
            else s.settle q w (body w)

/-- The queue's context runs with a squashed epoch that is yet to open again: its queues stand still until it does (Table 10-1).  In a context that
is HALTED, or that an abort stops, no rerun follows, and the other queues run on until they wait or halt (Table 5-9, R198). -/
def State.stalled (s : State) (q : QRef) : Bool :=
  match (s.core q.core.val).ctx with
  | some k => let c := s.ctx k; c.st == .running && c.aborting.isNone && c.epochs.any fun e => e.st == .squashed
  | none => false

/-- Queues issue: the part is up, not in Safe Hold, and the context not stalled. -/
def State.serves (s : State) (q : QRef) : Bool := s.phase == .running && !s.safeHold && !s.stalled q

/-- A queue can issue: RUNNING, with nothing that it waits for. -/
def State.canIssue (s : State) (q : QRef) : Bool :=
  let x := s.queue q
  s.serves q && x.st == .running && x.wait.isNone

/-- The die of a core has lost its state to INT_SCAN (R608). -/
def State.dieLost (s : State) (c : Nat) : Bool := s.scanned.contains (coreDie c)

/-- An event on a core: a core whose die has no defined state cannot take it. -/
def onCore (c : Nat) (s : State) (f : State → State) : Host.Outcome State Fault Refusal :=
  if s.dieLost c then .fault (.dieStateUndefined (coreDie c)) else .next (f s)

/-- The event that issues the instruction `oc` of a queue. -/
def issue (oc : OpCode) (serial : Bool) (q : QRef) (s : State) (body : Nat → Act) : Host.Outcome State Fault Refusal :=
  onCore q.core.val s fun s => if s.canIssue q then s.tryIssue oc serial q body else s

/-- Run again the instruction at which a queue waits: as it would issue now, still waiting if its condition does not hold. -/
def State.resume (s : State) (oc : OpCode) (q : QRef) (body : State → Nat → Act) : State :=
  let s1 := s.updQueue q fun x => { x with wait := none, st := (if x.st = .waiting then .running else x.st) }
  if s.serves q && ((s.queue q).st != .draining || (s.queue q).replaying) then s1.tryIssue oc true q (body s1) else s

/-- Uncorrectable data read by a queue: logged FA, and the queue halts with HC-60 and the record's index (R450). -/
def hc60 (s : State) (q : QRef) (addr : Nat) : Act :=
  let s := s.logFault 0xFA 0x03 3 (some q.core.val) (s.core q.core.val).ctx (coreDie q.core.val) s.syndrome addr
  .halt s 0x60 (s.faults.length - 1) addr

/-- The context of a queue. -/
def State.ctxOf (s : State) (q : QRef) : Nat := (s.core q.core.val).ctx.getD 0

/-- Poisoned status on a wait (R192, R210): HC-18, or the status in s0. -/
def State.poisonDone (s : State) (q : QRef) (n : Nat) (go : State → Act) : Act :=
  if s.val POISON_CONTINUE 0 = 1 then go (s.updQueue q fun x => x.setReg 0 (2 ^ 63 + n)) else .halt s 0x18 n 0

/-- A write of an active stream register is refused (R185). -/
def QueueSt.streamWrite (x : QueueSt) (n : Nat) : Option (Nat × Nat × Nat) := (x.streamFrame n).map fun f => (0x09, f, 0)

/-- Write a register of a queue by an instruction; an active stream register refuses it (R185). -/
def State.writeReg (s : State) (q : QRef) (n v : Nat) (go : State → Act) : Act :=
  match (s.queue q).streamFrame n with
  | some f => .halt s 0x09 f 0
  | none => go (s.updQueue q fun x => x.setReg n v)

/-- An instruction that issues and retires at once. -/
def Act.done (s : State) : Act := .go s .now [] .seq

/-- The instruction is halted by the first failing check, else goes on. -/
def Act.check (s : State) (c : Option (Nat × Nat × Nat)) (go : Act) : Act :=
  match c with
  | some (hc, d, a) => .halt s hc d a
  | none => go

end Sys2Proof.Machine
end

