-- ==== Sys2Proof/Machine/Array.lean ====
section
/-!
DEFINITION. The tensor array: MM, segments and the replay ladder (chapters 3 and 4, R82 to R106, R217, R218, R626), and the
attention operation ATTN (R121 to R133, R219).
-/

namespace Sys2Proof.Machine

open Sys2Proof.WB

/-! ### Operands in the core store -/

/-- Element `i` of the row that starts at `a`, in the core store (R55). -/
def Core.elem (c : Core) (f bs a i : Nat) : Fp :=
  if Fmt.isBlock f then
    let n := Fmt.blockSize bs
    let r := a + i / n * Fmt.recBytes bs
    Fmt.blockVal f bs (c.readNat r 4) (c.readNat (r + 4 + i % n) 1) (i % n)
  else
    match Fmt.ff f with
    | some g => Fp.decode g (c.readNat (a + i * Fmt.stride f) (Fmt.stride f))
    | none => .num false 0 0

/-- Where element `k` of lane `i` of an operand lies: bytes of the element, and of its block header. -/
def Opnd.bytesOf (o : Opnd) (i k : Nat) : List (Nat × Nat) :=
  if !o.along then [(o.base + k * o.pitch + i * Fmt.stride o.f, Fmt.stride o.f)]
  else if Fmt.isBlock o.f then
    let n := Fmt.blockSize o.bs
    let r := o.base + i * o.pitch + k / n * Fmt.recBytes o.bs
    [(r, 4), (r + 4 + k % n, 1)]
  else [(o.base + i * o.pitch + k * Fmt.stride o.f, Fmt.stride o.f)]

/-- Element `k` of lane `i` of an operand (R112, R117, R119). -/
def Core.opVal (c : Core) (o : Opnd) (i k : Nat) : Fp :=
  if o.along then c.elem o.f o.bs (o.base + i * o.pitch) k else c.elem o.f 0 (o.base + k * o.pitch) i

/-- Elements of a summary run along the reduction dimension (R84). -/
def runElems : Nat := 1024

/-- The end of the last run that the products below `k` touch: the run's own end, or where the operand ends before it: a lane laid along ends with
its pitch, and one laid across with the `kk` products of its instruction (R84, R85; DESIGN CHOICE, log entry 15). -/
def Opnd.runEnd (o : Opnd) (k kk : Nat) : Nat :=
  let e := Bits.cdiv k runElems * runElems
  if !o.along then max k (min e kk)
  else
    let bs := Fmt.blockSize o.bs
    max k (min e (if Fmt.isBlock o.f then o.pitch / Fmt.recBytes o.bs * bs else o.pitch / Fmt.stride o.f))

/-- Byte `a` belongs to the elements from `first` up to `last` of lane `i`. -/
def Opnd.inLane (o : Opnd) (i first last a : Nat) : Bool :=
  let b := o.base + i * (if o.along then o.pitch else Fmt.stride o.f)
  let d := a - b
  decide (b ≤ a) &&
    if o.along then decide (Fmt.rowBytes o.f o.bs first ≤ d) && decide (d < Fmt.rowBytes o.f o.bs last)
    else
      let k := if o.pitch = 0 then first else d / o.pitch
      decide (first ≤ k) && decide (k < last) && decide (d - k * o.pitch < Fmt.stride o.f)

/-- The summary of lane `i` for a segment of the products [k0, k0 + n) of the `kk` of its instruction: the largest over the whole runs that the
segment covers (R85).  Runs are counted from the base that the instruction names, also where it lies inside a larger operand that was written
(DESIGN CHOICE, log entry 15). -/
def Core.summary (c : Core) (o : Opnd) (i k0 n kk : Nat) : Option Int :=
  c.summ.foldl (fun m e => if o.inLane i (k0 / runElems * runElems) (o.runEnd (k0 + n) kk) e.1 then Fmt.maxOpt m e.2 else m) none

/-- The contiguous byte ranges of an operand's lanes `idx` over `n` products, in storage order. -/
def Opnd.lines (o : Opnd) (idx : List Nat) (gath : Bool) (n : Nat) : List (Nat × Nat) :=
  if o.along then idx.map fun i => (o.base + i * o.pitch, Fmt.rowBytes o.f o.bs n)
  else if gath then (List.range n).flatMap fun k => idx.map fun i => (o.base + k * o.pitch + i * Fmt.stride o.f, Fmt.stride o.f)
  else (List.range n).map fun k => (o.base + k * o.pitch, Fmt.stride o.f * idx.length)

/-- The bytes past the last one that an operand names: what R206 checks against the core store. -/
def Opnd.extent (o : Opnd) (lanes n : Nat) : Nat :=
  if o.along then (lanes - 1) * o.pitch + Fmt.rowBytes o.f o.bs n else (n - 1) * o.pitch + Fmt.stride o.f * lanes

/-- Some block header of these lanes is malformed (R56). -/
def Core.opMalformed (c : Core) (o : Opnd) (idx : List Nat) (n : Nat) : Bool :=
  Fmt.isBlock o.f && idx.any fun i => (List.range (Bits.cdiv n (Fmt.blockSize o.bs))).any fun r =>
    Fmt.malformed o.bs (c.readNat (o.base + i * o.pitch + r * Fmt.recBytes o.bs) 4)

/-- The sentinel over a list of ranges. -/
def Core.accessAll (c : Core) (q : Queue) (wr : Bool) (l : List (Nat × Nat)) : Option (Nat × Nat × Nat) :=
  l.findSome? fun r => c.access q wr r.1 r.2

/-- The first range with a poisoned line. -/
def Core.poisonAll (c : Core) (l : List (Nat × Nat)) : Option Nat := (l.find? fun r => linePoisoned c.poison r.1 r.2).map (·.1)

/-- A core-local region that lies beyond the core store (R206). -/
def beyond (a n : Nat) : Option (Nat × Nat × Nat) := if storeSize < a + n then some (0x13, 0, a) else none

/-- A misaligned core-local base (R148, R206). -/
def misaligned (a al : Nat) : Option (Nat × Nat × Nat) := if a % al ≠ 0 then some (0x13, al, a) else none

/-! ### Products -/

/-- A product: a multiple of 2^-300 by its integer, or what R91 makes of special operands: NAN, PINF, NINF, SNAN. -/
inductive Prod where
  | fin (i : Int)
  | spec (nan pinf ninf snan : Bool)
deriving DecidableEq, Repr

/-- The product of two operand elements (R89, R91). -/
def mulFp (a b : Fp) : Prod :=
  match a, b with
  | .num .., .num .. => .fin ((a.val.mul b.val).truncAt (-300))
  | _, _ =>
    if a.isNan || b.isNan then .spec true false false (a.isSnan || b.isSnan)
    else if a.isZero || b.isZero then .spec true false false false
    else .spec false (a.sign == b.sign) (a.sign != b.sign) false

/-- The finite part of a product. -/
def Prod.int : Prod → Int
  | .fin i => i
  | .spec .. => 0

/-- The integers of a list of products. -/
def ints (l : List Prod) : List Int := l.map Prod.int

/-- Add the flags of products to a slot. -/
def orSpecials (a : L640) (l : List Prod) : L640 :=
  l.foldl (fun a p => match p with
    | .fin _ => a
    | .spec n p m s => { a with nan := a.nan || n, pinf := a.pinf || p, ninf := a.ninf || m, snan := a.snan || s }) a

/-- Fold a clean window: its exact sum in multiples of 2^-300, its flags, and L terms (R105). -/
def foldWin (a : L640) (sum : Int) (l : List Prod) : L640 := orSpecials (a.addK sum l.length) l

/-! ### Windows (R86 to R96) -/

/-- trunc(p / 2^A) 2^A, of a multiple of 2^-300. -/
def truncTo (p A : Int) : Int := let g : Int := 2 ^ (A + 300).toNat; Int.tdiv p g * g

/-- Some product has a nonzero bit below 2^A (R94). -/
def loses (l : List Int) (A : Int) : Bool := l.any fun p => truncTo p A != p

/-- A value outside the window at anchor A (R92). -/
def outside (p A : Int) : Bool := decide (p < -(2 ^ (A + 443).toNat)) || decide (2 ^ (A + 443).toNat - 2 ^ (A + 300).toNat < p)

/-- Running window sums leave the window after some fragment of eight products (R90, R92). -/
def overruns (A : Int) : Nat → List Int → Int → Bool
  | 0, _, _ => false
  | n + 1, l, acc =>
    match l with
    | [] => false
    | _ => let acc' := acc + ((l.take 8).map fun p => truncTo p A).sum; outside acc' A || overruns A n (l.drop 8) acc'

/-- HI of a pass at anchor A (R92). -/
def hi (l : List Int) (A : Int) : Bool := l.any (fun p => outside (truncTo p A) A) || overruns A (l.length / 8 + 1) l 0

/-- The anchor of R86 and R87, with the guard adjusted by `adj`. -/
def anchor (er ec : Option Int) (n : Nat) (adj : Int) : Int :=
  match er, ec with
  | some r, some c => clampI (r + c + 2 + ((Bits.clog2 n : Int) + adj) - 143) (-300) 196
  | _, _ => -300

/-- Anchor `i` of a sliced plan that starts at `a1` (R96). -/
def slice (a1 : Int) (i : Nat) : Int := max (a1 - 126 * ((i : Int) - 1)) (-300)

/-- The part of each product that slice `i` adds, summed (R96). -/
def partSum (l : List Int) (a1 : Int) (i : Nat) : Int :=
  (l.map fun p => truncTo p (slice a1 i) - (if i = 1 then 0 else truncTo p (slice a1 (i - 1)))).sum

/-- A pass of a cell: the window that is folded from it, if clean, and the plan that it still needs (Table 3-3, R98). -/
def firstPass (l : List Int) (er ec : Option Int) (adj : Int) : Option Int × Option Plan :=
  let a := anchor er ec l.length adj
  if loses l a then (none, some .twoFirst)
  else if hi l a then (none, some .reanchor)
  else (some l.sum, none)

def replayPass (p : Plan) (l : List Int) (er ec : Option Int) : Option Int × Option Plan :=
  let a1 := anchor er ec l.length 0
  match p with
  | .reanchor => if loses l a1 then (none, some .twoFirst) else (some l.sum, none)
  | .twoFirst => (some (partSum l a1 1), if slice a1 2 = a1 then none else some .twoSecond)
  | .twoSecond => if loses l (slice a1 2) then (none, some (.slice 2)) else (some (partSum l a1 2), none)
  | .slice i => (some (partSum l a1 i), if i < 5 && slice a1 (i + 1) != slice a1 i then some (.slice (i + 1)) else none)

/-- The anchor of a pass, and the part of each product that it adds, summed: the whole product cut at the anchor, or a slice of it. -/
def passWin (p : Option Plan) (l : List Int) (a1 : Int) : Int × Int :=
  match p with
  | none | some .reanchor => (a1, (l.map fun x => truncTo x a1).sum)
  | some .twoFirst => (slice a1 1, partSum l a1 1)
  | some .twoSecond => (slice a1 2, partSum l a1 2)
  | some (.slice i) => (slice a1 i, partSum l a1 i)

/-- The state that a cell hands over after a pass: the first one, or one of the ladder (R64, R83, R91 to R94, Table 2-9).  Only the first pass
sets HI, and only the first, a re-anchored and a second pass of two windows set LO (R96 to R98). -/
def cellState (p : Option Plan) (l : List Prod) (er ec : Option Int) (adj : Int) : Cell :=
  let is := ints l
  let (a, sum) := passWin p is (anchor er ec l.length (if p.isNone then adj else 0))
  let f := orSpecials {} l
  { win := BitVec.ofInt 144 (sum / 2 ^ (a + 300).toNat), nan := f.nan, pinf := f.pinf, ninf := f.ninf, snan := f.snan
    lo := (p.isNone || p == some .reanchor || p == some .twoSecond) && loses is a, hi := p.isNone && hi is a }

/-! ### The segment that the array runs -/

/-- Lane number of row `i` of A: the gathered index, or `i`. -/
def ArrayJob.rowLane (j : ArrayJob) (i : Nat) : Nat := if j.idx.isEmpty then i else j.idx.getD i 0

def ArrayJob.opA (j : ArrayJob) : Opnd := { f := j.fa, bs := j.bsa, along := !j.ta, base := j.aBase, pitch := j.aPitch }
def ArrayJob.opB (j : ArrayJob) : Opnd := { f := j.fb, bs := j.bsb, along := j.tb, base := j.bBase, pitch := j.bPitch }

/-- The products of cell (i, c) over a segment. -/
def Core.prods (c : Core) (j : ArrayJob) (i n k0 len : Nat) : List Prod :=
  (List.range len).map fun k => mulFp (c.opVal j.opA (j.rowLane i) (k0 + k)) (c.opVal j.opB n (k0 + k))

/-- The cells of a tile, by output number 128 i + j. -/
def cellsOf (mr nc : Nat) : List Nat := (List.range mr).flatMap fun i => (List.range nc).map fun j => 128 * i + j

def Core.tile (c : Core) (t : Nat) : Tile := if t = 0 then c.tile0 else c.tile1
def Core.setTile (c : Core) (t : Nat) (x : Tile) : Core := if t = 0 then { c with tile0 := x } else { c with tile1 := x }

/-- The first poisoned slot among a tile's outputs, by its byte offset in the accumulation store (R450; the offset as ADDR is a DESIGN CHOICE,
log entry 85). -/
def Core.accPoison (c : Core) (t : Nat) : Option Nat :=
  let x := c.tile t
  (x.poison.find? fun n => decide (n / 128 < x.mr) && decide (n % 128 < x.nc)).map fun n => 96 * (16384 * t + n)

/-- An accumulator of a tile, and its replacement. -/
def Tile.get (t : Tile) (n : Nat) : L640 := Tab.get {} t.acc n
def Tile.put (t : Tile) (n : Nat) (x : L640) : Tile := { t with acc := Tab.set {} t.acc n x }

/-- The operands of a cell's products in a segment of an MM, and their summaries. -/
def Core.mmCell (c : Core) (j : ArrayJob) (k0 len n : Nat) : List Prod × Option Int × Option Int :=
  (c.prods j (n / 128) (n % 128) k0 len, c.summary j.opA (j.rowLane (n / 128)) k0 len j.kk, c.summary j.opB (n % 128) k0 len j.kk)

/-- One pass over some cells, whose products and summaries `ops` gives: the tile with the clean windows folded, and what the other cells still
need (R98, R105). -/
def passOver (ops : Nat → List Prod × Option Int × Option Int) (run : List Int → Option Int → Option Int → Option Int × Option Plan) (t : Tile) :
    List Nat → Tile × List (Nat × Plan)
  | [] => (t, [])
  | n :: rest =>
    let (l, er, ec) := ops n
    let (win, plan) := run (ints l) er ec
    let t := match win with
      | some w => t.put n (foldWin (t.get n) w l)
      | none => t
    let (t, more) := passOver ops run t rest
    (t, match plan with | some p => (n, p) :: more | none => more)

/-- One pass over some cells of a segment of an MM. -/
def Core.pass (c : Core) (j : ArrayJob) (k0 len : Nat) (t : Tile) (run : List Int → Option Int → Option Int → Option Int × Option Plan)
    (cells : List Nat) : Tile × List (Nat × Plan) := passOver (c.mmCell j k0 len) run t cells

/-- The states that a pass leaves in the cells that it runs. -/
def passCells (p : Option Plan) (adj : Int) (ops : Nat → List Prod × Option Int × Option Int) (cells : List Nat) : Tab Cell :=
  cells.foldl (fun t n => let (l, er, ec) := ops n; Tab.set {} t n (cellState p l er ec adj)) []

/-- Array handshakes of one pass over a segment of `len` products: the time of its fold at least (R113, R116). -/
def ArrayJob.handshakes (j : ArrayJob) (len : Nat) : Nat := max ((if j.fa = 2 ∨ j.fb = 2 then 4 else 1) * 8 * Bits.cdiv len 8) 128

/-- What a first pass of `h` handshakes adds to the time of tile `t`, which takes 256 at least (R116). -/
def Tile.charge (t : Tile) (h : Nat) : Nat := max (t.hs + h) 256 - (if t.hs = 0 then 0 else max t.hs 256)

/-- Every window of a segment of tile `t` is folded: the array goes on with `next`, its cells cleared (R83, R101). -/
def State.segFolded (s : State) (c t : Nat) (next : ArrayJob) : State :=
  let s := s.updCore c fun x => { x.setTile t { x.tile t with segs := sat ((x.tile t).segs + 1) 15 } with job := some { next with cells := [] }, cells := [] }
  s.countDie SEG_FOLDED (coreDie c) 1

/-- Every window of the segment is folded: the next one starts (R83, R99, R100). -/
def State.segDone (s : State) (c : Nat) (j : ArrayJob) : State := s.segFolded c j.tile { j with segs := j.segs.drop 1 }

/-- The arrays run: the part serves, and is not in Safe Hold (R365). -/
def State.arrayRuns (s : State) : Bool := s.phase == .running && !s.safeHold

/-- The first pass of a segment of an MM ends; clean windows are folded and flagged cells await replay (R82, R86, R95 to R98). -/
def State.mmSegment (s : State) (c : Nat) (j : ArrayJob) (k0 len : Nat) : State :=
  let x := s.core c
  let adj := s.ival ANCHOR_GUARD_ADJ 0
  let tile := x.tile j.tile
  let h := j.handshakes len
  let (t, cells) := x.pass j k0 len tile (fun l er ec => firstPass l er ec adj) (cellsOf j.mr j.nc)
  let s := s.updCore c fun x =>
    { x.setTile j.tile { t with hs := tile.hs + h } with
      job := some { j with cells := cells }, cells := passCells none adj (x.mmCell j k0 len) (cellsOf j.mr j.nc) }
  let s := s.countDie HS_FIRST (coreDie c) (tile.charge h)
  if cells.isEmpty then s.segDone c j else s.countDie SEG_REPLAYED (coreDie c) 1

/-- The order in which a segment runs the passes that its cells need. -/
def Plan.order : Plan → Nat
  | .reanchor => 0
  | .twoFirst => 1
  | .twoSecond => 2
  | .slice i => 1 + i

/-- The counter of a pass (Table 3-4). -/
def Plan.counter : Plan → Nat
  | .reanchor => PASS_REANCHOR
  | .twoFirst => PASS_TWOWIN
  | .twoSecond => PASS_TWOWIN
  | .slice _ => PASS_SLICED

/-- The pass that runs next: the earliest in the ladder that some cell needs. -/
def nextPlan (l : List (Nat × Plan)) : Option Plan :=
  l.foldl (fun m e => match m with | some p => some (if e.2.order < p.order then e.2 else p) | none => some e.2) none

/-- Handshakes of a replay pass over a segment of `h`: each plan of the ladder waits for one scan before its first pass (R95, chapter 3, Cost and
measurement; DEDUCED, log entry 68). -/
def Plan.handshakes (p : Plan) (h : Nat) : Nat :=
  h + match p with
    | .reanchor => 128
    | .twoFirst => 128
    | .twoSecond => 0
    | .slice i => if i = 2 then 128 else 0

/-- A replay pass over a segment of an MM ends, and the windows of the cells that it repairs are folded (R95 to R98, R103). -/
def State.mmReplay (s : State) (c : Nat) (j : ArrayJob) (k0 len : Nat) (p : Plan) : State :=
  let x := s.core c
  let now := (j.cells.filter fun e => e.2 == p).map (·.1)
  let (t, more) := x.pass j k0 len (x.tile j.tile) (replayPass p) now
  let j' : ArrayJob := { j with cells := (j.cells.filter fun e => e.2 != p) ++ more }
  let s := s.updCore c fun x =>
    { x.setTile j.tile { t with replays := sat (t.replays + 1) 15 } with job := some j', cells := passCells (some p) 0 (x.mmCell j k0 len) now }
  let s := s.countDie p.counter (coreDie c) 1
  let s := s.countDie HS_REPLAY (coreDie c) (p.handshakes (j.handshakes len))
  if j'.cells.isEmpty then s.segDone c j' else s

/-! ### MM (R218, R626) -/

/-- A numeric finding of an epoch: a malformed block (R352). -/
def State.evidence (s : State) (k : Nat) (ep : Option Nat) (bad : Bool) : State :=
  match ep with
  | some n => if bad then s.updEpoch k n fun e => { e with evidence := true } else s
  | none => s

/-- The segments of `kk` products (R82). -/
def segsOf (kk m : Nat) : List (Nat × Nat) := (List.range (Bits.cdiv kk m)).map fun i => (i * m, min m (kk - i * m))

/-- Element (i, j) of a seed, added to its accumulator when the tile opens (R106, R218). -/
def Core.seed (c : Core) (fs bs base pitch i j : Nat) : L640 :=
  if fs = 8 then L640.ofNat (c.readNat (base + i * pitch + 96 * j) 96)
  else if fs = 3 then ({} : L640).addFp (Fmt.enter 3 (c.readNat (base + i * pitch + 8 * j) 8))
  else ({} : L640).addFp (c.elem fs bs (base + i * pitch) j)

/-- What MM takes from its word and registers. -/
structure MmOps where
  t : Nat
  opened : Bool
  seed : Bool
  gath : Bool
  kk : Nat
  mr : Nat
  nc : Nat
  a : Opnd
  b : Opnd
  ix : Nat
  n : Nat
  sd : Opnd
deriving DecidableEq, Repr

def mmOps (x : QueueSt) (w : Nat) : MmOps :=
  let pitches := x.s (Bits.fld w 77 5)
  let sq := x.s (Bits.fld w 103 5)
  { t := Bits.fld w 48 1, opened := Bits.bit w 46, seed := Bits.bit w 47, gath := Bits.bit w 49
    kk := x.s (Bits.fld w 72 5), mr := Bits.fld w 87 8, nc := Bits.fld w 95 8
    a := { f := Bits.fld w 32 4, bs := Bits.fld w 40 2, along := !Bits.bit w 44, base := x.a (Bits.fld w 52 4), pitch := Bits.fld pitches 0 32 }
    b := { f := Bits.fld w 36 4, bs := Bits.fld w 42 2, along := Bits.bit w 45, base := x.a (Bits.fld w 56 4), pitch := Bits.fld pitches 32 32 }
    ix := x.a (Bits.fld w 60 4), n := x.s (Bits.fld w 82 5)
    sd := { f := Bits.fld w 68 4, bs := Bits.fld sq 32 2, along := true, base := x.a (Bits.fld w 64 4), pitch := Bits.fld sq 0 32 } }

/-- The U32 indices of a list in the core store. -/
def Core.indices (c : Core) (a n : Nat) : List Nat := (List.range n).map fun i => c.readNat (a + 4 * i) 4

/-- The first index of `n` or more, at its position (R119, R120). -/
def badIndex (l : List Nat) (n a : Nat) : Option (Nat × Nat × Nat) :=
  (l.findIdx? fun i => n ≤ i).map fun p => (0x21, p, a)

/-- MM's checks after the slot, in the order of R626.  The extent of a gathered A is that of the rows below n that the list names: the list
itself is the one thing that may be read before every check has passed, and an index of n or more halts later (DEDUCED, log entry 46). -/
def mmCheck (c : Core) (o : MmOps) : Option (Nat × Nat × Nat) :=
  let t := c.tile o.t
  let ext := if o.opened then 0 else t.extent
  let idx := if o.gath then c.indices o.ix o.mr else List.range o.mr
  firstOf [
    if o.kk = 0 ∨ 2 ^ 40 < ext + o.kk then some (0x20, 1, 0) else none,
    if !o.opened && (t.mr != o.mr || t.nc != o.nc) then some (0x20, 2, 0) else none,
    if (Fmt.isBlock o.a.f && !o.a.along) || (Fmt.isBlock o.b.f && !o.b.along) then some (0x20, 3, 0) else none,
    misaligned o.a.base 64,
    if o.gath then ((o.a.lines (idx.filter fun i => i < o.n) true o.kk).findSome? fun r => beyond r.1 r.2).map fun _ => (0x13, 0, o.a.base)
      else beyond o.a.base (o.a.extent o.mr o.kk),
    misaligned o.b.base 64,
    beyond o.b.base (o.b.extent o.nc o.kk),
    if o.gath then misaligned o.ix 64 else none,
    if o.gath then beyond o.ix (4 * o.mr) else none,
    if o.seed then misaligned o.sd.base 64 else none,
    if o.seed then beyond o.sd.base (o.sd.extent o.mr o.nc) else none,
    if o.gath then c.access .T false o.ix (4 * o.mr) else none,
    if o.gath then badIndex idx o.n o.ix else none,
    c.accessAll .T false (o.a.lines idx o.gath o.kk),
    c.accessAll .T false (o.b.lines (List.range o.nc) false o.kk),
    if o.seed then c.accessAll .T false (o.sd.lines (List.range o.mr) false o.nc) else none]

/-- What a gathered or plain MM reads: lanes of A. -/
def MmOps.lanes (o : MmOps) (c : Core) : List Nat := if o.gath then c.indices o.ix o.mr else List.range o.mr

/-- The regions of the core store that MM reads. -/
def MmOps.reads (o : MmOps) (c : Core) : List (Nat × Nat) :=
  (if o.gath then [(o.ix, 4 * o.mr)] else []) ++ o.a.lines (o.lanes c) o.gath o.kk ++ o.b.lines (List.range o.nc) false o.kk
    ++ (if o.seed then o.sd.lines (List.range o.mr) false o.nc else [])

/-- The first poisoned place that MM reads: in the core store, or in a tile that it continues (R450). -/
def MmOps.poisoned (o : MmOps) (c : Core) : Option Nat :=
  (c.poisonAll (o.reads c)).or (if o.opened then none else c.accPoison o.t)

/-- The tile of an MM once it is opened or continued, its extent raised by K and its seed added (R106, R218). -/
def Core.mmTile (c : Core) (o : MmOps) : Tile :=
  let t : Tile := if o.opened then { st := .accumulating, mr := o.mr, nc := o.nc } else c.tile o.t
  let t : Tile := { t with extent := t.extent + o.kk }
  if o.seed then
    (cellsOf o.mr o.nc).foldl (fun t n => t.put n ((t.get n).add (c.seed o.sd.f o.sd.bs o.sd.base o.sd.pitch (n / 128) (n % 128)))) t
  else t

/-- The array's work for an MM: its operands, and the segments of its K products (R82). -/
def MmOps.job (o : MmOps) (c : Core) (segMax : Nat) : ArrayJob :=
  { tile := o.t, fa := o.a.f, fb := o.b.f, bsa := o.a.bs, bsb := o.b.bs, ta := !o.a.along, tb := o.b.along, aBase := o.a.base
    bBase := o.b.base, aPitch := o.a.pitch, bPitch := o.b.pitch, mr := o.mr, nc := o.nc, idx := if o.gath then c.indices o.ix o.mr else [], kk := o.kk
    segs := segsOf o.kk segMax }

/-- The tile and the array's work of an MM, and the numeric evidence of a malformed block. -/
def State.mmRun (s : State) (q : QRef) (o : MmOps) : State :=
  let c := s.core q.core.val
  let bad := c.opMalformed o.a (o.lanes c) o.kk || c.opMalformed o.b (List.range o.nc) o.kk || (o.seed && c.opMalformed o.sd (List.range o.mr) o.nc)
  (s.evidence (s.ctxOf q) (s.epochOf (s.ctxOf q) (s.queue q)) bad).updCore q.core.val fun x =>
    { x.setTile o.t (c.mmTile o) with job := some (o.job c (s.val SEG_MAX 0)) }

/-- MM opens or continues a tile and starts the segments of its K products (R82, R106, R112, R218). -/
def bodyMm (q : QRef) (s : State) (w : Nat) : Act :=
  let c := s.core q.core.val
  let o := mmOps (s.queue q) w
  let t := c.tile o.t
  if o.opened && t.st != .free then .wait s .tileSlot true
  else if !o.opened && (t.st != .accumulating || t.attn) then .halt s 0x23 o.t 0
  else
    .check s (mmCheck c o) <|
      match o.poisoned c with
      | some a => hc60 s q a
      | none => .go (s.mmRun q o) .array [] .seq

def execMm (at_ : QRef) (s : State) : Host.Outcome State Fault Refusal := issue 0x200 true at_ s (bodyMm at_ s)

/-! ### Row records (Table 4-6) -/

/-- A row record. -/
structure RowRec where
  status : Nat := 0
  count : Nat := 0
  ref : Nat := 0
  max : Nat := 0xFF800000
  sq : L640 := {}
  sum : L640 := {}
deriving DecidableEq, Repr

def Core.rowRec (c : Core) (a : Nat) : RowRec :=
  let r := c.readNat a 256
  { status := Bits.fld r 1632 8, count := Bits.fld r 1600 32, ref := Bits.fld r 1568 32, max := Bits.fld r 1536 32
    sq := L640.ofNat (Bits.fld r 768 768), sum := L640.ofNat (Bits.fld r 0 768) }

def RowRec.toNat (r : RowRec) : Nat :=
  r.sum.toNat + 2 ^ 768 * r.sq.toNat + 2 ^ 1536 * r.max + 2 ^ 1568 * r.ref + 2 ^ 1600 * r.count + 2 ^ 1632 * r.status

/-- Write a row record; it is no array operand, so it records no summary (R84). -/
def Core.putRow (c : Core) (a : Nat) (r : RowRec) : Core := c.write a (Bits.toBytes 256 r.toNat) []

/-- The larger of a record's MAX and a binary32 value, with +0 above -0 (R142); NaN is the caller's. -/
def maxB32 (a b : Nat) : Nat :=
  let key (x : Nat) : Int := if Bits.bit x 31 then -((x % 2 ^ 31 : Nat) : Int) - 1 else (x % 2 ^ 31 : Nat)
  if key a < key b then b else a

/-- MAX over one more value, with NaN sticky (R142). -/
def RowRec.takeMax (r : RowRec) (b : Nat) : RowRec :=
  if (Fp.decode Ff.b32 b).isNan then { r with max := Ff.b32.cnan, status := r.status ||| 8 }
  else if r.max = Ff.b32.cnan then r
  else { r with max := maxB32 r.max b }

/-! ### ATTN (R121 to R133, R219) -/

/-- The operands: K is key-major, and V is read with keys as its reduction dimension, its blocks along the keys (log entry 16). -/
def attnOps (x : QueueSt) (w : Nat) : AttnOps :=
  let sp := x.s (Bits.fld w 86 5)
  let bs := Bits.fld w 44 2
  let fv := Bits.fld w 40 4
  { opened := Bits.bit w 46, mr := Bits.fld w 104 8, d := Bits.fld w 96 8, keys := x.s (Bits.fld w 81 5), cw := x.s (Bits.fld w 76 5)
    qo := { f := Bits.fld w 32 4, bs := bs, along := true, base := x.a (Bits.fld w 48 4), pitch := Bits.fld sp 0 32 }
    ko := { f := Bits.fld w 36 4, bs := bs, along := true, base := x.a (Bits.fld w 52 4), pitch := Bits.fld sp 32 32 }
    vo := { f := fv, bs := bs, along := Fmt.isBlock fv, base := x.a (Bits.fld w 56 4), pitch := Bits.fld (x.s (Bits.fld w 91 5)) 0 32 }
    ql := x.a (Bits.fld w 60 4), kl := x.a (Bits.fld w 64 4), rr := x.a (Bits.fld w 72 4), pb := x.a (Bits.fld w 68 4)
    reg := Bits.fld w 112 6 }

/-- Fields of the attention control word (Table 4-4). -/
def cwScale (cw : Nat) : Nat := Bits.fld cw 0 32
def cwWin (cw : Nat) : Nat := Bits.fld cw 32 24
def cwCausal (cw : Nat) : Bool := Bits.bit cw 56
def cwSeq (cw : Nat) : Bool := Bits.bit cw 57
def cwWindow (cw : Nat) : Bool := Bits.bit cw 58
def cwStorep (cw : Nat) : Bool := Bits.bit cw 59
def cwRefmode (cw : Nat) : Bool := Bits.bit cw 60

/-- A malformed control word (R126). -/
def cwMalformed (cw : Nat) : Bool :=
  let sc := Fp.decode Ff.b32 (cwScale cw)
  Bits.fld cw 61 3 != 0 || !sc.isFin || sc.sign || sc.isZero || (cwWindow cw && cwWin cw == 0)

/-- A score is masked (R123). -/
def maskedScore (cw ql kl : Nat) : Bool :=
  let pq := Bits.fld ql 0 24
  let pk := Bits.fld kl 0 24
  Bits.bit ql 31 || Bits.bit kl 31 || (cwSeq cw && Bits.fld ql 24 3 != Bits.fld kl 24 3) || (cwCausal cw && decide (pq < pk))
    || (cwWindow cw && decide ((cwWin cw : Int) ≤ ((pq : Int) - pk).natAbs))

/-- An unmasked score of different SEQ tags under no SEQ masking (R125). -/
def crossSeq (cw ql kl : Nat) : Bool := !cwSeq cw && !maskedScore cw ql kl && Bits.fld ql 24 3 != Bits.fld kl 24 3

/-- The scaled score: τ times the exact score, rounded once to binary32 (R127). -/
def scaled (cw : Nat) (score : L640) : Nat :=
  match score.read with
  | .nan .. => Ff.b32.cnan
  | .inf s => Ff.b32.inf s
  | .num s m e => let t := (Fp.decode Ff.b32 (cwScale cw)).val; if m = 0 then 0 else (Ff.b32.round s (m * t.m.natAbs) 1 (e + t.e)).bits

/-- The exponential term of a scaled score in a max-free pass, and whether it sets OOR (R128 to R130). -/
def termFree (x : Nat) : Fp × Bool :=
  match Fp.decode Ff.b32 x with
  | .nan .. => (.nan false 1 false, false)
  | .inf true => (.num false 0 0, false)
  | .inf false => (.inf false, false)
  | .num s m e =>
    let v := (Fp.num s m e).val
    if v.abs.le (Dy.ofInt 88) then (Fp.ofDy (Expo.term v), false) else (.num false 0 0, true)

/-- The exponential term of a second pass against REF (R131, R132). -/
def termRef (x ref : Nat) : Fp :=
  match Fp.decode Ff.b32 ref, Fp.decode Ff.b32 x with
  | .num s m e, .num s' m' e' => Fp.ofDy (Expo.term ((Fp.num s' m' e').val.sub (Fp.num s m e).val))
  | .num .., .inf true => .num false 0 0
  | .num .., .inf false => .inf false
  | _, _ => .nan false 1 false

/-- One row of the attention over the keys [k0, k0 + len), whose scores stand in slot 0: the keys in turn, with their terms (R124, R127). -/
def Core.rowTerms (c : Core) (o : AttnOps) (k0 len i : Nat) (ref : Option Nat) : List (Nat × Nat × Fp × Bool) :=
  let ql := c.readNat (o.ql + 4 * i) 4
  (List.range len).filterMap fun j =>
    if maskedScore o.cw ql (c.readNat (o.kl + 4 * (k0 + j)) 4) then none
    else
      let x := scaled o.cw (c.tile0.get (128 * i + j))
      match ref with
      | some r => some (k0 + j, x, termRef x r, false)
      | none => let (e, out) := termFree x; some (k0 + j, x, e, out)

/-- What a row's terms make of its record: denominator, COUNT, MAX over the finite scaled scores, OOR (R130, R141). -/
def RowRec.take (r : RowRec) (ts : List (Nat × Nat × Fp × Bool)) : RowRec :=
  ts.foldl (fun r t =>
    let (_, x, e, out) := t
    let r := if (Fp.decode Ff.b32 x).isFin then { r with max := maxB32 r.max x } else r
    { r with sum := r.sum.addFp e, count := sat (r.count + 1) (2 ^ 32 - 1), status := if out then r.status ||| 1 else r.status }) r

/-- The P buffer's binary32 terms of a row over some keys, masked ones zero (R126; log entry 17). -/
def pTerms (k0 len : Nat) (ts : List (Nat × Nat × Fp × Bool)) : List Fp :=
  ((List.range len).map (k0 + ·)).map fun j => match ts.find? fun e => e.1 == j with | some e => e.2.2.1 | none => .num false 0 0

/-- Binary32 elements in the store, with the exponents of the values stored (R84). -/
def Core.writeB32 (c : Core) (a : Nat) (l : List Fp) : Core :=
  let bits := l.map fun x => (Ff.b32.roundFp x).bits
  c.write a (bits.flatMap (Bits.toBytes 4)) (bits.flatMap fun b => List.replicate 4 (Fmt.expOf (Fp.decode Ff.b32 b)))

/-- ATTN's checks after the slots: control word, key count, alignment, then the sentinel, in the order of its operands.  The spec gives the P
buffer no alignment; its binary32 terms are held to 4 bytes (DESIGN CHOICE, log entry 17). -/
def attnCheck (c : Core) (o : AttnOps) (sc : Nat) : Option (Nat × Nat × Nat) :=
  let keys := List.range o.keys
  let rows := List.range o.mr
  firstOf [
    if cwMalformed o.cw then some (0x22, sc, 0) else none,
    if o.keys = 0 ∨ 2 ^ 24 < o.keys then some (0x20, 4, 0) else none,
    misaligned o.qo.base 64, beyond o.qo.base (o.qo.extent o.mr o.d),
    misaligned o.ko.base 64, beyond o.ko.base (o.ko.extent o.keys o.d),
    misaligned o.vo.base 64, beyond o.vo.base (if o.vo.along then o.vo.extent o.d o.keys else (o.keys - 1) * o.vo.pitch + Fmt.stride o.vo.f * o.d),
    misaligned o.ql 64, beyond o.ql (4 * o.mr), misaligned o.kl 64, beyond o.kl (4 * o.keys),
    if cwStorep o.cw then misaligned o.pb 4 else none, if cwStorep o.cw then beyond o.pb (4 * o.mr * o.keys) else none,
    misaligned o.rr 64, beyond o.rr (256 * o.mr),
    c.accessAll .T false (o.qo.lines rows false o.d),
    c.accessAll .T false (o.ko.lines keys false o.d),
    c.accessAll .T false (o.vo.lines (List.range o.d) false o.keys),
    c.access .T false o.ql (4 * o.mr), c.access .T false o.kl (4 * o.keys),
    if cwStorep o.cw then c.access .T true o.pb (4 * o.mr * o.keys) else none,
    c.access .T true o.rr (256 * o.mr)]

/-- The regions of the core store that ATTN reads: the row records not where a max-free pass opens them (R139). -/
def AttnOps.reads (o : AttnOps) : List (Nat × Nat) :=
  o.qo.lines (List.range o.mr) false o.d ++ o.ko.lines (List.range o.keys) false o.d ++ o.vo.lines (List.range o.d) false o.keys
    ++ [(o.ql, 4 * o.mr), (o.kl, 4 * o.keys)] ++ (if o.opened && !cwRefmode o.cw then [] else [(o.rr, 256 * o.mr)])

/-- Both tile slots hold an attention tile that accumulates (R219). -/
def Core.attnHeld (c : Core) : Bool := c.tile0.st == .accumulating && c.tile0.attn && c.tile1.st == .accumulating && c.tile1.attn

/-- The rows that a second pass recomputes: those whose record has OOR (R131). -/
def oorRows (c : Core) (o : AttnOps) : List Nat := (List.range o.mr).filter fun i => Bits.bit (c.rowRec (o.rr + 256 * i)).status 0

/-- Open the second pass: REF of each OOR row is latched, its denominator and accumulators are cleared (R131, R132). -/
def Core.openSecond (c : Core) (o : AttnOps) : Core :=
  (oorRows c o).foldl (fun c i =>
    let r := c.rowRec (o.rr + 256 * i)
    let t := c.tile1
    let t : Tile := { t with acc := t.acc.filter fun e => e.1 / 128 != i, refs := Tab.set 0 t.refs i (BitVec.ofNat 32 r.ref) }
    { c.putRow (o.rr + 256 * i) { r with sum := {}, count := 0 } with tile1 := t }) { c with tile1 := { c.tile1 with second := true, refs := [] } }

/-- The record's REF with which a row's terms are formed: latched in a second pass (R132). -/
def Core.rowRef (c : Core) (o : AttnOps) (i : Nat) : Option Nat := if cwRefmode o.cw then some (Tab.get 0 c.tile1.refs i).toNat else none

/-- A second pass leaves a row without OOR as it is (R131). -/
def Core.rowSkipped (c : Core) (o : AttnOps) (i : Nat) : Bool := cwRefmode o.cw && !Bits.bit (c.rowRec (o.rr + 256 * i)).status 0

/-- One row of ATTN once the scores of a range of keys are folded: its record takes the terms, and the P buffer with STOREP (R126 to R130). -/
def Core.attnRow (c : Core) (o : AttnOps) (k0 len i : Nat) : Core :=
  if c.rowSkipped o i then c
  else
    let ts := c.rowTerms o k0 len i (c.rowRef o i)
    let c : Core := c.putRow (o.rr + 256 * i) ((c.rowRec (o.rr + 256 * i)).take ts)
    if cwStorep o.cw then c.writeB32 (o.pb + 4 * o.keys * i + 4 * k0) (pTerms k0 len ts) else c

/-- A chunk whose every score is masked: the array skips it (R124). -/
def Core.maskedChunk (c : Core) (o : AttnOps) (ch : Nat × Nat) : Bool :=
  (List.range o.mr).all fun i => (List.range ch.2).all fun j =>
    maskedScore o.cw (c.readNat (o.ql + 4 * i) 4) (c.readNat (o.kl + 4 * (ch.1 + j)) 4)

/-! Splits of a row's keys (R135): each core forms a record and numerators of its own keys, and the owner combines them. -/

/-- A row record with another core's share: the denominators add exactly, STATUS is ORed, and MAX is the larger (R135, R142). -/
def RowRec.combine (r t : RowRec) : RowRec :=
  { r.takeMax t.max with
    status := (r.takeMax t.max).status ||| t.status, count := sat (r.count + t.count) (2 ^ 32 - 1), sum := r.sum.add t.sum, sq := r.sq.add t.sq }

/-- The numerators of a tile with another core's share (R107, R135). -/
def Tile.combine (t u : Tile) : Tile := (cellsOf t.mr t.nc).foldl (fun t n => t.put n ((t.get n).add (u.get n))) t

/-- The owner's attention with the share that another core has formed at the row records `rr` (R135). -/
def Core.combineShare (c share : Core) (own rr : Nat) : Core :=
  let t := c.tile1
  (List.range t.mr).foldl (fun c i => c.putRow (own + 256 * i) ((c.rowRec (own + 256 * i)).combine (share.rowRec (rr + 256 * i))))
    { c with tile1 := t.combine share.tile1 }

/-- The OOR field of a record over `mr` rows at `a`: OOR set and TP clear (R219, Table 6-17). -/
def Core.oorCount (c : Core) (a mr : Nat) : Nat :=
  ((List.range mr).filter fun i => (c.rowRec (a + 256 * i)).status % 4 == 1).length

/-- Keys of one chunk of the attention (R138). -/
def chunkKeys : Nat := 128

/-- The core at the start of an ATTN: opened tiles, cleared records, and a second pass where it opens (R131). -/
def Core.attnOpened (c : Core) (o : AttnOps) : Core :=
  let second := cwRefmode o.cw
  let c0 : Core := if o.opened then
      let t : Tile := { st := .accumulating, attn := true, mr := o.mr, nc := o.d, rows := o.rr }
      let c : Core := { c with tile0 := { t with nc := chunkKeys }, tile1 := t }
      -- a second pass keeps the records that it starts from (log entry 18)
      if second then c else (List.range o.mr).foldl (fun c i => c.putRow (o.rr + 256 * i) {}) c
    else c
  if second && !c0.tile1.second then c0.openSecond o
  else if second then c0 else { c0 with tile1 := { c0.tile1 with second := false } }

/-- The array's work for an ATTN: the chunks of its keys that the array does not skip (R82, R124, R138).  In each, the score product folds into slot
0, whose tile a chunk's scores have to themselves, and then the value product folds the numerators into slot 1; each product is a segment of its
slot's tile (DESIGN CHOICE, log entry 97).  `mf` and `sp`: the rows that the max-free, or second, pass completes. -/
def AttnOps.job (o : AttnOps) (c : Core) (mf sp : Nat) : ArrayJob :=
  { tile := 0, mr := o.mr, nc := o.d, segs := (segsOf o.keys chunkKeys).filter fun ch => !c.maskedChunk o ch, attn := some o, mfRows := mf, spRows := sp }

/-- The last chunk of an ATTN is folded: TP is set in the rows that a second pass has recomputed, and the rows of the pass count (R133, R137).  The
spec does not say which of several ATTNs completes a row: TP is set by each of a second pass, and the rows count at the first (DESIGN CHOICE, log
entry 97). -/
def State.attnDone (s : State) (c : Nat) (o : AttnOps) (j : ArrayJob) : State :=
  let x := s.core c
  let rows := if cwRefmode o.cw then (List.range o.mr).filter fun i => !x.rowSkipped o i else []
  let s := s.setCore c (rows.foldl (fun y i => let a := o.rr + 256 * i; let r := y.rowRec a; y.putRow a { r with status := r.status ||| 2 }) x)
  let s := if j.mfRows = 0 then s else s.countDie ATTN_ROWS (coreDie c) j.mfRows
  if j.spRows = 0 then s else s.countDie ATTN_TWOPASS (coreDie c) j.spRows

/-- What an ATTN does as it issues: its tiles and records open, its chunks go to the array, the P buffer takes the zeros of a chunk that is skipped,
and evidence and the cross-sequence mark are recorded. -/
def State.attnRun (s : State) (q : QRef) (o : AttnOps) : State :=
  let c := s.core q.core.val
  let rows := List.range o.mr
  let second := cwRefmode o.cw
  let c0 := c.attnOpened o
  let skipped := if cwStorep o.cw then (segsOf o.keys chunkKeys).filter (c.maskedChunk o) else []
  let c0 := skipped.foldl (fun c ch => rows.foldl (fun c i => c.attnRow o ch.1 ch.2 i) c) c0
  let nSecond := if second && (o.opened || !c.tile1.second) then (oorRows c o).length else 0
  let bad := c.opMalformed o.qo rows o.d || c.opMalformed o.ko (List.range o.keys) o.d || c.opMalformed o.vo (List.range o.d) o.keys
  let cross := rows.any fun i => (List.range o.keys).any fun j => crossSeq o.cw (c.readNat (o.ql + 4 * i) 4) (c.readNat (o.kl + 4 * j) 4)
  let k := s.ctxOf q
  let ep := s.epochOf k (s.queue q)
  let s := s.evidence k ep bad
  let s := match ep with
    | some n => if cross then s.updEpoch k n fun e => { e with xseq := true } else s
    | none => s
  let j := o.job c (if o.opened && !second then o.mr else 0) nSecond
  let s := s.setCore q.core.val { c0 with job := some j }
  if j.segs.isEmpty then s.attnDone q.core.val o j else s

/-- The products of a cell of a chunk, and their summaries: of the score of row i and key k0 + j where slot 0 runs, else of the numerator of row i and
column j.  An exponential term's summary is the largest of its row, as R84 has it of written operands (DEDUCED, log entry 97), and L of a
numerator's window is the number of the row's unmasked terms, each of them one product (DESIGN CHOICE, log entry 97). -/
def Core.attnCell (c : Core) (o : AttnOps) (tile k0 len n : Nat) : List Prod × Option Int × Option Int :=
  let i := n / 128
  let j := n % 128
  if tile = 0 then
    ((List.range o.d).map fun k => mulFp (c.opVal o.qo i k) (c.opVal o.ko (k0 + j) k), c.summary o.qo i 0 o.d o.d, c.summary o.ko (k0 + j) 0 o.d o.d)
  else
    let ts := if c.rowSkipped o i then [] else c.rowTerms o k0 len i (c.rowRef o i)
    (ts.map fun e => mulFp e.2.2.1 (c.opVal o.vo j e.1), ts.foldl (fun m e => Fmt.maxOpt m (Fmt.expOf e.2.2.1)) none, c.summary o.vo j k0 len o.keys)

/-- The cells of a chunk's product: its scores, or its numerators. -/
def attnCells (o : AttnOps) (tile len : Nat) : List Nat := cellsOf o.mr (if tile = 0 then len else o.d)

/-- Array time of one pass over a chunk's product (R138).  A last chunk of fewer keys takes the time of a whole one (DESIGN CHOICE, log entry 97). -/
def AttnOps.passTime (o : AttnOps) (tile : Nat) : Nat := if tile = 0 then max (8 * Bits.cdiv o.d 8) 128 else 256

/-- What the first pass of a chunk's product takes: after the score product its scores are folded and exponentiated (R138). -/
def AttnOps.handshakes (o : AttnOps) (tile : Nat) : Nat := o.passTime tile + (if tile = 0 then 128 else 0)

/-- Every window of a chunk's product is folded.  After the score product the rows take their terms, rows that set OOR are counted, and the value
product follows; after the value product the next chunk does, or the ATTN's work is over (R127 to R133, R137). -/
def State.attnFold (s : State) (c : Nat) (o : AttnOps) (j : ArrayJob) (k0 len : Nat) : State :=
  let x := s.core c
  if j.tile = 0 then
    let y := (List.range o.mr).foldl (fun x i => x.attnRow o k0 len i) x
    let out := (oorRows y o).length - (oorRows x o).length
    let s := s.setCore c y
    (if out = 0 then s else s.countDie ATTN_OOR (coreDie c) out).segFolded c 0 { j with tile := 1 }
  else
    let s := s.segFolded c 1 { j with tile := 0, segs := j.segs.drop 1 }
    if (j.segs.drop 1).isEmpty then s.attnDone c o j else s

/-- Slot 0 as a chunk's score product begins: its accumulators are zero (log entry 97). -/
def Tile.freshScores (t : Tile) (tile : Nat) : Tile := if tile = 0 then { t with acc := [], poison := [] } else t

/-- The first pass of a chunk's product ends: its clean windows are folded, and the cells that lose bits await replay (R95, R97, R98, R138). -/
def State.attnSegment (s : State) (c : Nat) (o : AttnOps) (j : ArrayJob) (k0 len : Nat) : State :=
  let x := s.core c
  let adj := s.ival ANCHOR_GUARD_ADJ 0
  let ops := x.attnCell o j.tile k0 len
  let (t, cells) := passOver ops (fun l er ec => firstPass l er ec adj) ((x.tile j.tile).freshScores j.tile) (attnCells o j.tile len)
  let s := s.updCore c fun x =>
    { x.setTile j.tile t with job := some { j with cells := cells }, cells := passCells none adj ops (attnCells o j.tile len) }
  let s := s.countDie HS_FIRST (coreDie c) (o.handshakes j.tile)
  if cells.isEmpty then s.attnFold c o j k0 len else s.countDie SEG_REPLAYED (coreDie c) 1

/-- A replay pass over a chunk's product ends, and the windows of the cells that it repairs are folded (R95 to R98, R103). -/
def State.attnReplay (s : State) (c : Nat) (o : AttnOps) (j : ArrayJob) (k0 len : Nat) (p : Plan) : State :=
  let x := s.core c
  let ops := x.attnCell o j.tile k0 len
  let now := (j.cells.filter fun e => e.2 == p).map (·.1)
  let (t, more) := passOver ops (replayPass p) (x.tile j.tile) now
  let j' : ArrayJob := { j with cells := (j.cells.filter fun e => e.2 != p) ++ more }
  let s := s.updCore c fun x =>
    { x.setTile j.tile { t with replays := sat (t.replays + 1) 15 } with job := some j', cells := passCells (some p) 0 ops now }
  let s := s.countDie p.counter (coreDie c) 1
  let s := s.countDie HS_REPLAY (coreDie c) (p.handshakes (o.passTime j.tile))
  if j'.cells.isEmpty then s.attnFold c o j' k0 len else s

/-- The first poisoned place that ATTN reads: in the core store, or in the numerators that it continues (R450). -/
def AttnOps.poisoned (o : AttnOps) (c : Core) : Option Nat :=
  (c.poisonAll o.reads).or (if o.opened then none else c.accPoison 1)

/-- ATTN over a range of keys (R121 to R133, R219). -/
def bodyAttn (q : QRef) (s : State) (w : Nat) : Act :=
  let c := s.core q.core.val
  let o := attnOps (s.queue q) w
  if o.opened && !(c.tile0.st == .free && c.tile1.st == .free) then .wait s .tileSlot true
  else if !o.opened && !c.attnHeld then .halt s 0x23 (if c.tile0.st == .accumulating && c.tile0.attn then 1 else 0) 0
  else
    .check s (firstOf [attnCheck c o (Bits.fld w 76 5), (s.queue q).streamWrite o.reg]) <|
      match o.poisoned c with
      | some a => hc60 s q a
      | none => .go (s.attnRun q o) .attn [] .seq

def execAttn (at_ : QRef) (s : State) : Host.Outcome State Fault Refusal := issue 0x208 true at_ s (bodyAttn at_ s)

/-! ### Ends of passes -/

/-- The first pass of the running segment ends (R95). -/
def State.segmentEnd (s : State) (c : Nat) : State :=
  match (s.core c).job with
  | none => s
  | some j =>
    match j.segs, j.cells with
    | (k0, len) :: _, [] =>
      match j.attn with
      | none => s.mmSegment c j k0 len
      | some o => s.attnSegment c o j k0 len
    | _, _ => s

/-- SEGMENT_END: the first pass of the array's segment ends. -/
def execSegmentEnd (core : CoreId) (s : State) : Host.Outcome State Fault Refusal :=
  onCore core.val s fun s => if s.arrayRuns then s.segmentEnd core.val else s

/-- A replay pass of the running segment ends: the earliest in the ladder that some cell needs (R97, R98). -/
def State.replayPassEnd (s : State) (c : Nat) : State :=
  match (s.core c).job with
  | none => s
  | some j =>
    match j.segs, nextPlan j.cells with
    | (k0, len) :: _, some p =>
      match j.attn with
      | none => s.mmReplay c j k0 len p
      | some o => s.attnReplay c o j k0 len p
    | _, _ => s

/-- REPLAY_PASS_END: a replay pass of the array's segment ends. -/
def execReplayPassEnd (core : CoreId) (s : State) : Host.Outcome State Fault Refusal :=
  onCore core.val s fun s => if s.arrayRuns then s.replayPassEnd core.val else s

/-- TILE_SLOT_WAIT_DONE: the T instruction that waits for a free tile slot issues (R151). -/
def execTileSlotWaitDone (core : CoreId) (s : State) : Host.Outcome State Fault Refusal :=
  onCore core.val s fun s =>
    let q : QRef := ⟨core, .T⟩
    let x := s.queue q
    match x.wait, x.fetch with
    | some .tileSlot, some w =>
      if Bits.fld w 0 8 = 0 then s.resume 0x200 q (bodyMm q) else s.resume 0x208 q (bodyAttn q)
    | _, _ => s

end Sys2Proof.Machine
end

