-- ==== Sys2Proof/Machine/Common.lean ====
section
/-!
DEFINITION. The instructions common to all queues (Tables 6-3 to 6-8).
-/

namespace Sys2Proof.Machine

open Sys2Proof.WB

/-! ### Control (Table 6-4, Table 6-5) -/

/-- NOP does nothing. -/
def execNop (at_ : QRef) (s : State) : Host.Outcome State Fault Refusal :=
  issue 0x000 false at_ s fun _ => .done s

/-- HALT halts the queue with HC-00 and IMM[15:0]; its event is a held effect, for which it waits until the effect queue has room (R345). -/
def execHalt (at_ : QRef) (s : State) : Host.Outcome State Fault Refusal :=
  issue 0x001 false at_ s fun w =>
    let k := s.ctxOf at_
    if (s.epochOf k (s.queue at_)).isSome && !(s.ctx k).effectRoom [.event 0x0001 0 0] then .notYet
    else .halt s 0x00 (Bits.fld w 64 16) 0

/-- The streams that a LOOP word names: register, increment captured from s[IREG], value to restore (R182, R209). -/
def loopStreams (x : QueueSt) (w : Nat) : List Stream :=
  (List.range (Bits.fld w 78 3)).map fun i =>
    let r := Bits.fld w (89 + 9 * i) 4
    { reg := r, inc := BitVec.ofNat 32 (x.s (Bits.fld w (84 + 9 * i) 5)), save := BitVec.ofNat 64 (x.a r) }

/-- LOOP opens a frame, or passes over its body when the trip count is 0 (R182 to R184); HC-09 for an END beyond an enclosing one gives the
opened frame's number (DESIGN CHOICE, log entry 118). -/
def execLoop (at_ : QRef) (s : State) : Host.Outcome State Fault Refusal :=
  issue 0x002 false at_ s fun w =>
    let x := s.queue at_
    let n := Bits.fld w 75 3
    let trip := if Bits.bit w 81 then x.reg (Bits.fld w 32 6) % 2 ^ 32 else Bits.fld w 32 32
    let e := x.pc + Bits.fld w 64 11
    if (x.frame n).active then .halt s 0x08 n 0
    else if x.activeFrames.any fun f => f.2.last < e then .halt s 0x09 n 0
    else if trip = 0 then
      .go (s.updQueue at_ fun x => x.setFrame n { x.frame n with iter := 0, trip := 0, start := x.pc + 1, last := e, streams := loopStreams x w }) .now [] (.past e)
    else
      .go (s.updQueue at_ fun x => x.setFrame n
        { streams := loopStreams x w, active := true, last := e, start := x.pc + 1, iter := 0, trip := BitVec.ofNat 32 trip }) .now [] (.body (x.pc + 1))

/-- A taken branch to `t`: it must stay inside the body of every active frame (R184, R208). -/
def branchTo (s : State) (q : QRef) (t : Nat) : Act :=
  match (s.queue q).activeFrames.find? fun f => t < f.2.start || f.2.last < t with
  | some f => .halt s 0x09 f.1 0
  | none => .go s .now [] (.to t)

/-- BR: pc = TARGET. -/
def execBr (at_ : QRef) (s : State) : Host.Outcome State Fault Refusal :=
  issue 0x003 false at_ s fun w => branchTo s at_ (Bits.fld w 32 11)

/-- The conditions of BRC on 64-bit values (Table 6-4). -/
def brcHolds (cond a b : Nat) : Bool :=
  match cond with
  | 0 => a == b
  | 1 => a != b
  | 2 => decide (Bits.signed a 64 < Bits.signed b 64)
  | 3 => decide (Bits.signed b 64 ≤ Bits.signed a 64)
  | 4 => decide (a < b)
  | _ => decide (b ≤ a)

/-- BRC: pc = TARGET when the condition holds. -/
def execBrc (at_ : QRef) (s : State) : Host.Outcome State Fault Refusal :=
  issue 0x004 false at_ s fun w =>
    let x := s.queue at_
    let b := if Bits.bit w 58 then Bits.wrap (imm32 w 64) 64 else x.reg (Bits.fld w 52 6)
    if brcHolds (Bits.fld w 43 3) (x.reg (Bits.fld w 46 6)) b then branchTo s at_ (Bits.fld w 32 11) else .done s

/-- BSW switches the bank (R180).  A load is whole within one command, so none is in progress here. -/
def execBsw (at_ : QRef) (s : State) : Host.Outcome State Fault Refusal :=
  issue 0x005 true at_ s fun w =>
    let x := s.queue at_
    let t := x.inactive
    let e := Bits.fld w 32 11
    if !t.valid || t.words.length ≤ e || !x.activeFrames.isEmpty then .halt s 0x05 t.words.length 0
    else .go s .now [] (.bank e)

/-! ### Mileposts (Table 6-6) -/

/-- The value operand of formats M and B. -/
def valueOp (x : QueueSt) (rv : Nat) (i : Int) : Nat := addImm (x.reg rv) i

/-- A wait on the Mileposts `mps` for a value: HC-19 when one is not mapped, poisoned status as soon as one is poisoned,
else the value that the queue's epoch sees (R210, R237, R247). -/
def waitFor (s : State) (q : QRef) (mps : List Nat) (v : Nat) (ok : State → Act) (no : Act) : Act :=
  let k := s.ctxOf q
  let ep := s.epochOf k (s.queue q)
  match mps.find? fun mp => !(s.mpEntry k mp).valid with
  | some mp => .halt s 0x19 mp 0
  | none =>
    match mps.find? fun mp => s.mpPoisoned k mp with
    | some mp => s.poisonDone q mp ok
    | none => if mps.all fun mp => v ≤ s.mpSeen k mp ep then ok s else no

/-- WAIT and WAITMIN: `n` Mileposts from MP. -/
def bodyWait (n : Nat → Nat) (q : QRef) (s : State) (w : Nat) : Act :=
  waitFor s q ((List.range (n w)).map (Bits.fld w 32 13 + ·)) (valueOp (s.queue q) (Bits.fld w 54 6) (imm32 w 64)) .done (.wait s .milepost true)

def waitOne (_ : Nat) : Nat := 1
def waitMany (w : Nat) : Nat := Bits.fld w 45 7

/-- WAIT until a Milepost reaches the value operand. -/
def execWait (at_ : QRef) (s : State) : Host.Outcome State Fault Refusal := issue 0x008 true at_ s (bodyWait waitOne at_ s)

/-- WAITMIN until each of N Mileposts does. -/
def execWaitmin (at_ : QRef) (s : State) : Host.Outcome State Fault Refusal := issue 0x009 true at_ s (bodyWait waitMany at_ s)

/-- MPADV advances or raises a Milepost at its retire point (R211, R237). -/
def execMpadv (at_ : QRef) (s : State) : Host.Outcome State Fault Refusal :=
  issue 0x00A true at_ s fun w =>
    let mp := Bits.fld w 32 13
    if !s.mayAdvance (s.ctxOf at_) mp then .halt s 0x19 mp 0
    else .go s .now [(mp, if Bits.fld w 52 2 = 0 then .add else .raise, valueOp (s.queue at_) (Bits.fld w 54 6) (imm32 w 64))] .seq

/-- MPREAD reads the present value; a poisoned Milepost as a wait that completes with poisoned status (R211). -/
def execMpread (at_ : QRef) (s : State) : Host.Outcome State Fault Refusal :=
  issue 0x00B false at_ s fun w =>
    let k := s.ctxOf at_
    let mp := Bits.fld w 32 13
    if !(s.mpEntry k mp).valid then .halt s 0x19 mp 0
    else if s.mpPoisoned k mp then s.poisonDone at_ mp .done
    else s.writeReg at_ (Bits.fld w 54 6) (s.mpSeen k mp (s.epochOf k (s.queue at_))) .done

/-! ### Ridgepole (R252 to R257) -/

/-- A group record (Table 7-3). -/
structure RGroup where
  roles : Nat
  qmask : Nat
  window : Nat
deriving DecidableEq, Repr

/-- Group `g` of a context, when enabled. -/
def State.rgroup (s : State) (k g : Nat) : Option RGroup :=
  let r := s.blobNat RIDGE_GROUPS (k + 1) (128 * g) 128
  if Bits.bit r 13 then some { roles := Bits.fld r 32 640, qmask := Bits.fld r 8 5, window := Bits.fld r 0 8 } else none

/-- The key of a participant in `parts`. -/
def partKey (k g role : Nat) (q : Queue) : Nat := k * 2 ^ 20 + g * 2 ^ 13 + 8 * role + q.num

/-- Participants that exist: roles that ROLES names and that have a core, and the queues of QMASK (R252, R254). -/
def State.participants (s : State) (k : Nat) (g : RGroup) : List (Nat × Queue) :=
  ((List.range (s.ctx k).roles.length).filter fun r => Bits.bit g.roles r).flatMap fun r =>
    (allQueues.filter fun q => Bits.bit g.qmask q.num).map fun q => (r, q)

def State.part (s : State) (key : Nat) : Part := Tab.get {} s.parts key
def State.setPart (s : State) (key : Nat) (p : Part) : State := { s with parts := Tab.set {} s.parts key p }

/-- The step group's participants have SPEC 0; the other groups of a speculating context follow the epochs (R254, R337). -/
def State.partSpec (s : State) (k g : Nat) : Bool := match s.stepGroup k with | some sg => sg != g | none => false

/-- The value of a participant Milepost as epoch `ep` sees it (R247, R254). -/
def State.partSeen (s : State) (k g key : Nat) (ep : Option Nat) : Nat :=
  let p := s.part key
  match s.partSpec k g, ep, (s.ctx k).oldest with
  | true, some n, some e =>
    let pe (m : Nat) : Nat := if m % 2 = 0 then p.pend0 else p.pend1
    if n = e then p.val + pe e else if n = e + 1 then p.val + pe e + pe (e + 1) else p.val
  | _, _, _ => p.val

/-- Raise a participant Milepost, in its epoch's pending field where the group follows epochs (R248); a poisoned one keeps its value (R268). -/
def State.raisePart (s : State) (k g key v : Nat) (ep : Option Nat) : State :=
  let p := s.part key
  if p.poisoned then s else
  let add := v - s.partSeen k g key ep
  match s.partSpec k g, ep with
  | true, some n => s.setPart key (if n % 2 = 0 then { p with pend0 := p.pend0 + add } else { p with pend1 := p.pend1 + add })
  | _, _ => s.setPart key { p with val := p.val + add }

/-- Least value over participants `l`; none when there are none. -/
def State.partMin (s : State) (k g : Nat) (l : List (Nat × Queue)) (ep : Option Nat) : Option Nat :=
  (l.map fun e => s.partSeen k g (partKey k g e.1 e.2) ep).min?

/-- One raising step of an arrival at round `r` (R255). -/
def State.ridgeRaise (s : State) (k gn : Nat) (g : RGroup) (role : Nat) (q : Queue) (r : Nat) (ep : Option Nat) : State :=
  let key := partKey k gn role q
  let others := (s.participants k g).filter fun e => !(e.1 == role && e.2 == q)
  let target := match s.partMin k gn others ep with
    | none => r
    | some m => min r (m + g.window)
  if s.partSeen k gn key ep < target then s.raisePart k gn key target ep else s

/-- The group and round of the RIDGE at which a queue waits. -/
def State.ridgeAt (s : State) (q : QRef) : Option (Nat × Nat) :=
  let x := s.queue q
  match x.wait, x.fetch with
  | some .ridge, some w => some (Bits.fld w 32 6, valueOp x (Bits.fld w 54 6) (imm32 w 64))
  | _, _ => none

/-- Raise every waiting arrival of a group as far as the others allow, until nothing rises (R255).  `n` bounds the passes: each raises some
value, and values and rounds have 64 bits. -/
def State.ridgeSettle (s : State) (k gn : Nat) (g : RGroup) : Nat → State
  | 0 => s
  | n + 1 =>
    let s' := (s.participants k g).foldl (fun s e =>
      match (s.ctx k).roles[e.1]? with
      | some c =>
        if h : c < 704 then
          let q : QRef := ⟨⟨c, h⟩, e.2⟩
          match s.ridgeAt q with
          | some (g', r) => if g' = gn then s.ridgeRaise k gn g e.1 e.2 r (s.epochOf k (s.queue q)) else s
          | none => s
        else s
      | none => s) s
    if s'.parts = s.parts then s' else s'.ridgeSettle k gn g n

/-- The role of a core in its context. -/
def State.roleOf (s : State) (c : Nat) : Nat := (s.core c).role

/-- The queue is a participant of the group (R256). -/
def State.isPart (s : State) (k : Nat) (g : RGroup) (q : QRef) : Bool :=
  (s.participants k g).contains (s.roleOf q.core.val, q.queue)

/-- RIDGE arrives: the participant Milepost rises as far as the window allows, and the queue waits for the group's minimum,
which RIDGE_COMPLETE brings (R212, R255, R256). -/
def execRidge (at_ : QRef) (s : State) : Host.Outcome State Fault Refusal :=
  issue 0x00C true at_ s fun w =>
    let k := s.ctxOf at_
    let gn := Bits.fld w 32 6
    match s.rgroup k gn with
    | none => .halt s 0x1E gn 0
    | some g =>
      if !s.isPart k g at_ then .halt s 0x1E gn 0
      else
        let x := s.queue at_
        let r := valueOp x (Bits.fld w 54 6) (imm32 w 64)
        let s := s.ridgeRaise k gn g (s.roleOf at_.core.val) at_.queue r (s.epochOf k x)
        .wait (s.ridgeSettle k gn g ((s.participants k g).length * 2 ^ 64)) .ridge true

/-! ### Buffers (Tables 5-3, 6-7) -/

def Core.buf (c : Core) (n : Nat) : Option Buf := Tab.get none c.bufs n
def Core.setBuf (c : Core) (n : Nat) (b : Option Buf) : Core := { c with bufs := Tab.set none c.bufs n b }

/-- The core's buffer table has been recorded for the epoch that the queue works on (R347). -/
def State.bufsRecorded (s : State) (q : QRef) : Bool :=
  match s.epochOf (s.ctxOf q) (s.queue q) with
  | some n => (s.core q.core.val).bufRec.any fun e => e.1 == n
  | none => true

/-- A buffer instruction waits until the table has been recorded (R171, R347). -/
def afterRecord (s : State) (q : QRef) (a : Act) : Act := if s.bufsRecorded q then a else .wait s .bufTable false

/-- BDEF defines a buffer, which the queue then holds in write mode (R173, R174, R213). -/
def bodyBdef (q : QRef) (s : State) (w : Nat) : Act :=
  afterRecord s q <|
    let x := s.queue q
    let c := s.core q.core.val
    let n := Bits.fld w 32 6
    let base := addImm (x.a (Bits.fld w 44 4)) (imm32 w 96)
    let len := x.reg (Bits.fld w 48 6)
    if base % 64 ≠ 0 ∨ len % 64 ≠ 0 ∨ len = 0 then .halt s 0x13 64 base
    else if storeSize < base + len then .halt s 0x13 0 base
    else if (c.buf n).isSome ∨ c.buffers.any (fun e => e.2.base < base + len && base < e.2.base + e.2.len) then .halt s 0x12 n base
    else .done (s.updCore q.core.val fun c => c.setBuf n (some { base := base, len := len, writer := some q.queue }))

def execBdef (at_ : QRef) (s : State) : Host.Outcome State Fault Refusal := issue 0x010 true at_ s (bodyBdef at_ s)

/-- Core-local bytes of [a, a + n) overlap the destination of a prefetch: unconfirmed, or confirmed with the rest of its chunk still
running (R292, R295). -/
def unconfirmed (c : Core) (a n : Nat) : Bool :=
  c.slots.any fun e =>
    match e.2.run with
    | some r => (r.pref || !(c.qO.inflight.any fun i => i.work == .dgo e.1)) && e.2.covers a n
    | none => false

/-- The effect of GIVE: the hold is released and offers are recorded (R173). -/
def Buf.give (b : Buf) (q : Queue) (write : Bool) (mask : Nat) : Buf :=
  { b with
    writer := if b.writer = some q then none else b.writer
    readers := b.readers.filter (· != q)
    offers := b.offers ++ (allQueues.filter fun t => Bits.bit mask t.num).map fun t => (write, t) }

/-- GIVE releases the hold and offers the buffer; in the O queue it waits for an unconfirmed prefetch (R173, R174, R292). -/
def bodyGive (q : QRef) (s : State) (w : Nat) : Act :=
  afterRecord s q <|
    let n := Bits.fld w 32 6
    match (s.core q.core.val).buf n with
    | none => .halt s 0x12 n 0
    | some b =>
      if b.writer ≠ some q.queue ∧ !b.readers.contains q.queue then .halt s 0x12 n 0
      else if q.queue = .O && unconfirmed (s.core q.core.val) b.base b.len then .wait s .unconfirmed false
      else .done (s.updCore q.core.val fun c => c.setBuf n (some (b.give q.queue (Bits.bit w 38) (Bits.fld w 39 5))))

def execGive (at_ : QRef) (s : State) : Host.Outcome State Fault Refusal := issue 0x011 true at_ s (bodyGive at_ s)

/-- The effect of TAKE: the queue holds the buffer and its offer is used. -/
def Buf.take (b : Buf) (q : Queue) (write : Bool) : Buf :=
  { b with
    writer := if write then some q else b.writer
    readers := if write || b.readers.contains q then b.readers else b.readers ++ [q]
    offers := b.offers.erase (write, q) }

/-- TAKE holds the buffer once its Milepost has reached the value and an offer names the queue; in write mode also once no
queue holds it (R173, R175).  In read mode Table 5-3 gives no such wait, and an offer that was left outstanding is granted even while
another queue holds the buffer in write mode (DESIGN CHOICE, log entry 100). -/
def bodyTake (q : QRef) (s : State) (w : Nat) : Act :=
  afterRecord s q <|
    let n := Bits.fld w 32 6
    let write := Bits.bit w 38
    waitFor s q [Bits.fld w 54 13] (valueOp (s.queue q) (Bits.fld w 48 6) (imm32 w 96))
      (fun s =>
        match (s.core q.core.val).buf n with
        | some b =>
          if b.offers.contains (write, q.queue) && (!write || (b.writer.isNone && b.readers.isEmpty)) then
            .done (s.updCore q.core.val fun c => c.setBuf n (some (b.take q.queue write)))
          else if s.mpPoisoned (s.ctxOf q) (Bits.fld w 54 13) then .done s
          else .wait s .take true
        | none => if s.mpPoisoned (s.ctxOf q) (Bits.fld w 54 13) then .done s else .wait s .take true)
      (.wait s .take true)

def execTake (at_ : QRef) (s : State) : Host.Outcome State Fault Refusal := issue 0x012 true at_ s (bodyTake at_ s)

/-- BREL frees the entry and clears the summaries of its runs (R150, R173, R174). -/
def bodyBrel (q : QRef) (s : State) (w : Nat) : Act :=
  afterRecord s q <|
    let n := Bits.fld w 32 6
    match (s.core q.core.val).buf n with
    | none => .halt s 0x12 n 0
    | some b =>
      if b.writer ≠ some q.queue ∨ b.offers ≠ [] then .halt s 0x12 n 0
      else .done (s.updCore q.core.val fun c =>
        { c.setBuf n none with summ := Tab.clearRange c.summ b.base (b.base + b.len) })

def execBrel (at_ : QRef) (s : State) : Host.Outcome State Fault Refusal := issue 0x013 true at_ s (bodyBrel at_ s)

/-! ### Scalar instructions (Table 6-8, R214) -/

/-- LI: R[RD] = IMM64. -/
def execLi (at_ : QRef) (s : State) : Host.Outcome State Fault Refusal :=
  issue 0x018 false at_ s fun w => s.writeReg at_ (Bits.fld w 32 6) (Bits.fld w 64 64) .done

/-- The scalar functions on `n`-bit values (Table 6-8); shifts take the low bits of their second operand. -/
def scalarFn (n fn a b : Nat) : Nat :=
  let sa := Bits.signed a n
  let sb := Bits.signed b n
  match fn with
  | 0 => (a + b) % 2 ^ n
  | 1 => Bits.wrap ((a : Int) - b) n
  | 2 => a * b % 2 ^ n
  | 3 => a &&& b
  | 4 => a ||| b
  | 5 => a ^^^ b
  | 6 => a * 2 ^ (b % n) % 2 ^ n
  | 7 => a / 2 ^ (b % n)
  | 8 => Bits.wrap (sa / 2 ^ (b % n)) n
  | 9 => if sa ≤ sb then a else b
  | 10 => if sb ≤ sa then a else b
  | 11 => min a b
  | 12 => max a b
  | _ => a

/-- SOP: R[RD] = R[RA] FN (IMMB ? sext(IMM) : R[RB]). -/
def execSop (at_ : QRef) (s : State) : Host.Outcome State Fault Refusal :=
  issue 0x019 false at_ s fun w =>
    let x := s.queue at_
    let b := if Bits.bit w 54 then Bits.wrap (imm32 w 64) 64 else x.reg (Bits.fld w 44 6)
    s.writeReg at_ (Bits.fld w 32 6) (scalarFn 64 (Bits.fld w 50 4) (x.reg (Bits.fld w 38 6)) b) .done

/-- SLD loads SZ bytes, zero- or sign-extended (R214, R174, R206). -/
def execSld (at_ : QRef) (s : State) : Host.Outcome State Fault Refusal :=
  issue 0x01A true at_ s fun w =>
    let c := s.core at_.core.val
    let n := 2 ^ Bits.fld w 55 2
    let a := addImm ((s.queue at_).a (Bits.fld w 58 4)) (imm32 w 64)
    .check s (firstOf [coreRegion a n n, c.access at_.queue false a n]) <|
      if linePoisoned c.poison a n then hc60 s at_ a
      else
        let v := c.readNat a n
        s.writeReg at_ (Bits.fld w 32 6) (if Bits.bit w 57 then Bits.wrap (Bits.signed v (8 * n)) 64 else v) .done

/-- SST stores the low SZ bytes of R[RD], with no format for the summaries (R84, R214). -/
def execSst (at_ : QRef) (s : State) : Host.Outcome State Fault Refusal :=
  issue 0x01B true at_ s fun w =>
    let c := s.core at_.core.val
    let n := 2 ^ Bits.fld w 55 2
    let a := addImm ((s.queue at_).a (Bits.fld w 58 4)) (imm32 w 64)
    .check s (firstOf [coreRegion a n n, c.access at_.queue true a n]) <|
      .done (s.updCore at_.core.val fun c => c.write a (Bits.toBytes n ((s.queue at_).reg (Bits.fld w 32 6))) (noFormat n))

end Sys2Proof.Machine
end

