-- ==== Sys2Proof/Machine/Eau.lean ====
section
/-!
DEFINITION. The Exact Atomic Units (R453 to R457) and W128 elements in gradient stores (R71 to R74, R310, R319, R321, R322).
-/

namespace Sys2Proof.Machine

open Sys2Proof.WB

/-! ### Gradient-store elements -/

/-- The enabled store whose element area holds a word, with the element's position (R319). -/
def State.storeAt (s : State) (k va : Nat) : Option (Nat × GStore × Nat) :=
  (s.gstores k).findSome? fun (i, g) =>
    if g.elem ≤ va ∧ va < g.elem + 16 * g.nelem then some (i, g, (va - g.elem) / 16) else none

/-- The group record of the element at position `p`, and the address of slot `i` (Table 2-11, R319). -/
def GStore.recAt (g : GStore) (p : Nat) : Nat := g.grec + 64 * (p / 64)
def GStore.slotAt (g : GStore) (i : Nat) : Nat := g.spill + 96 * i

/-- An element read under R69 with its spill slot: the L640 form of its value (R310). -/
def State.w128Read (s : State) (k : Nat) (g : GStore) (p : Nat) : L640 :=
  let r := s.memNat k (g.recAt p) 64
  let st := Fmt.grpState r (p % 64)
  let w := s.memNat k (g.elem + 16 * p) 16
  if Bits.bit st 3 then
    let sl := L640.ofNat (s.memNat k (g.slotAt (w % 2 ^ 32)) 96)
    { sl with nan := sl.nan || Bits.bit st 2, ninf := sl.ninf || Bits.bit st 1, pinf := sl.pinf || Bits.bit st 0 }
  else Fmt.w128Slot (Fmt.grpAnchor r) st w

/-- The key of a spill slot of store `i`. -/
def spillKey (i n : Nat) : Nat := 2 ^ 32 * i + n

/-- The free spill slot of a store that an add takes: R71 says only "a free spill slot", and the model takes the one with the lowest number
(DESIGN CHOICE, log entry 98). -/
def State.freeSlot (s : State) (k i : Nat) (g : GStore) : Option Nat :=
  let used := ((s.ctx k).spill.filter fun e => spillKey i 0 ≤ e.1 && e.1 < spillKey (i + 1) 0).map fun e => e.1 - spillKey i 0
  let rec look : Nat → Nat → Option Nat
    | 0, _ => none
    | fuel + 1, n => if g.nslot ≤ n then none else if used.contains n then look fuel (n + 1) else some n
  look (used.length + 1) 0

/-- The refusal of an add: halt code, DETAIL and ADDR, for HC-60 the first byte of the poisoned access in both places (R230); or the state with the add
applied whole, and whether it spilled. -/
abbrev Added := Except (Nat × Nat × Nat) (State × Bool)

/-- The first byte of what a target holds that lies in the core-store window, HC-32; else the first in no present page, HC-48 (R441, R445,
R454). -/
def State.partsStop (s : State) (k : Nat) (parts : List (Nat × Nat)) : Option (Nat × Nat × Nat) :=
  let bad := parts.filterMap fun p => s.memCheck k p.1 p.2
  match bad.find? fun b => b.2 == .coreWin with
  | some b => some (0x32, 0, b.1)
  | none => bad.head?.map fun b => (0x48, 0, b.1)

/-- Lines that an uncorrectable error has poisoned (R450). -/
def State.eauPoison (s : State) (k va n : Nat) : Bool := s.memPoisoned k va n

/-- Add `x` exactly into element `p` of store `i` (R71 to R74, R454). -/
def State.w128Add (s : State) (k i : Nat) (g : GStore) (p : Nat) (x : L640) : Added :=
  let ra := g.recAt p
  let ea := g.elem + 16 * p
  let r := s.memNat k ra 64
  let st := Fmt.grpState r (p % 64)
  let w := s.memNat k ea 16
  let A := Fmt.grpAnchor r
  let spilled := Bits.bit st 3
  if s.eauPoison k ea 16 then .error (0x60, ea, ea)
  else if s.eauPoison k ra 64 then .error (0x60, ra, ra)
  else if spilled && s.eauPoison k (g.slotAt (w % 2 ^ 32)) 96 then .error (0x60, g.slotAt (w % 2 ^ 32), g.slotAt (w % 2 ^ 32))
  else if !Fmt.anchorOk A then .error (0x31, Bits.fld r 256 16, ra)
  else
    let st' := st ||| (4 * Bits.ofBool x.nan + 2 * Bits.ofBool x.ninf + Bits.ofBool x.pinf)
    let put (s : State) (r : Nat) : State := s.memWriteNat k ra 64 r
    if spilled then
      let sa := g.slotAt (w % 2 ^ 32)
      let slot := (L640.ofNat (s.memNat k sa 96)).add x
      .ok (put (s.memWriteNat k sa 96 slot.toNat) (Fmt.grpSetState r (p % 64) st'), false)
    else
      let present := Fmt.w128Slot A st w
      let sum := present.k + x.k
      if Fmt.fitsAt x.k A && Fmt.fitsAt sum A then
        let word := Bits.wrap (sum / 2 ^ (A + 300).toNat) 128
        .ok (put (s.memWriteNat k ea 16 word) (Fmt.grpSetState r (p % 64) st'), false)
      else
        match s.freeSlot k i g with
        | none => .error (0x30, p % 64, ea)
        | some n =>
          match s.partsStop k [(g.slotAt n, 96)] with
          | some e => .error e
          | none =>
          let s := s.memWriteNat k (g.slotAt n) 96 (present.add x).toNat
          let s := s.memWriteNat k ea 16 n
          let s := s.updCtx k fun c => { c with spill := Tab.set false c.spill (spillKey i n) true }
          .ok (put s (Fmt.grpSetState r (p % 64) (st' ||| 8) + 2 ^ 272), true)

/-- Add `x` exactly into the L640 slot at `va` (R68, R454). -/
def State.l640Add (s : State) (k va : Nat) (x : L640) : Added :=
  if s.eauPoison k va 96 then .error (0x60, va, va)
  else .ok (s.memWriteNat k va 96 ((L640.ofNat (s.memNat k va 96)).add x).toNat, false)

/-! ### Targets -/

/-- The address that a target stands for: a window of this device leads to RBASE and its offset (R447). -/
def State.eauLanding (s : State) (k va : Nat) : Nat :=
  match s.whereIs k va with
  | .window w => (match s.cgroup k w.group with
    | some g => if g.rank = w.rank then w.rbase + (va - w.vbase) else va
    | none => va)
  | _ => va

/-- The window of another member that a target lies in (R402). -/
def State.eauRemote (s : State) (k va : Nat) : Option RWin :=
  match s.whereIs k va with
  | .window w => (match s.cgroup k w.group with
    | some g => if g.rank = w.rank then none else some w
    | none => some w)
  | _ => none

/-- The shape of a target (R454). -/
def State.eauShape (s : State) (k va : Nat) (w128 : Bool) : Bool :=
  if w128 then va % 16 == 0 && (s.storeAt k va).isSome else va % 32 == 0 && va / pageSize == (va + 95) / pageSize

/-- The window lies at a group of another job, which carries no RADD (R373). -/
def State.noRadd (s : State) (k : Nat) (w : RWin) : Bool := match s.cgroup k w.group with | some g => !g.carriesType 7 | none => false

/-- The group record of a W128 element, and its spill slot where it has one: with the word they are the target (R455). -/
def State.w128Parts (s : State) (k va : Nat) : List (Nat × Nat) :=
  match s.storeAt k va with
  | none => []
  | some (_, g, p) =>
    (g.recAt p, 64) :: (if Bits.bit (Fmt.grpState (s.memNat k (g.recAt p) 64) (p % 64)) 3 then
      [(g.slotAt (s.memNat k (g.elem + 16 * p) 16 % 2 ^ 32), 96)] else [])

/-- The checks of a target before any add of its instruction is applied (R454, items 1 to 3), at the address that it stands for (R447); an add into
another member's window is checked there.  A window at a group of another job takes no add: HC-48 (DESIGN CHOICE, log entry 107). -/
def State.eauCheck (s : State) (k va : Nat) (w128 : Bool) : Option (Nat × Nat × Nat) :=
  if (s.eauRemote k va).any (s.noRadd k) then some (0x48, 0, va)
  else if (s.eauRemote k va).isSome then (if va % (if w128 then 16 else 32) ≠ 0 then some (0x32, 0, va) else none)
  else
    let a := s.eauLanding k va
    (s.partsStop k [(a, if w128 then 16 else 96)]).or <|
      if s.eauShape k a w128 = false then some (0x32, 0, a) else if w128 then s.partsStop k (s.w128Parts k a) else none

/-- Apply an add at an address of this context's memory. -/
def State.eauApply (s : State) (k va : Nat) (w128 : Bool) (x : L640) : Added :=
  match s.eauCheck k va w128 with
  | some e => .error e
  | none =>
    let a := s.eauLanding k va
    if w128 then
      match s.storeAt k a with
      | some (i, g, p) => s.w128Add k i g p x
      | none => .error (0x32, 0, va)
    else s.l640Add k a x

/-- Count an applied add on its EAU (Table 13-7). -/
def State.countAdd (s : State) (k va : Nat) (spilled : Bool) : State :=
  let t := s.targetOf k (s.eauLanding k va) + 1
  let s := s.count EAU_ADDS t 1
  if spilled then s.count EAU_SPILLS t 1 else s

/-- Put the adds of an instruction in flight, in order; an add into another member's window leaves as RADD (R402, R456). -/
def State.putAdds (s : State) (q : QRef) (id k : Nat) (ep : Option Nat) (l : List (Nat × Bool × L640)) : State :=
  l.foldl (fun s (va, w128, x) =>
    let rem := s.eauRemote k va
    let a : EauAdd := { q := some q, instr := id, k := k, va := va, w128 := w128, value := x, epoch := ep, pgen := s.pgen k, remote := rem.isSome }
    let s : State := { s with eauq := s.eauq ++ [a] }
    match rem with
    | none => s
    | some w =>
      match s.cgroup k w.group with
      | none => s
      | some g =>
        let h := g.hdr w.group 7 (ep.getD 0) (s.runOf k (ep.getD 0)) (s.pgen k)
        s.sendMsg k w.group w.rank { hdr := { h with oprec := s.rwinNum k va, offset := (va - w.vbase) / 32 }
                                     payload := .radd [(va - w.vbase, x)] }) s

end Sys2Proof.Machine
end

