-- ==== Sys2Proof/Machine/Flags.lean ====
section
/-!
DEFINITION. Every flag computation: the IEEE 754-2019 operations of the vector engine with their results and the five exception
flags that they raise (R40 to R46, R157).
-/

namespace Sys2Proof.Ieee

/-- Result bits and flags: 4 invalid, 3 divide by zero, 2 overflow, 1 underflow, 0 inexact, by bit. -/
abbrev Res := Nat × Nat

def invalid : Nat := 16
def divZero : Nat := 8

/-- The flags of a rounding (R43, R44). -/
def roundFlags (r : Rounded) : Nat := 4 * Bits.ofBool r.overflow + 2 * Bits.ofBool r.underflow + Bits.ofBool r.inexact

def ofRounded (r : Rounded) : Res := (r.bits, roundFlags r)

/-- An invalid operation without a NaN operand gives the canonical NaN (R45). -/
def bad (f : Ff) : Res := (f.cnan, invalid)

/-- The first NaN operand, quietened; a signaling one raises invalid (R45, R46). -/
def nanOf (f : Ff) : List Fp → Option Res
  | [] => none
  | l =>
    match l.find? Fp.isNan with
    | some (.nan s fr _) => some (f.quiet f s fr, if l.any Fp.isSnan then invalid else 0)
    | _ => none

/-- A zero or infinity of sign `s`. -/
def zero (f : Ff) (s : Bool) : Res := (f.signBit s, 0)
def inf (f : Ff) (s : Bool) : Res := (f.inf s, 0)

/-- An exact value rounded; an exact zero takes the sign `zs`. -/
def fin (f : Ff) (a : Dy) (zs : Bool) : Res :=
  if a.m = 0 then zero f zs else ofRounded (f.roundDy a)

def negFp : Fp → Fp
  | .nan s fr sg => .nan s fr sg
  | .inf s => .inf (!s)
  | .num s m e => .num (!s) m e

/-- a + b -/
def addFp (f : Ff) (a b : Fp) : Res :=
  match a, b with
  | .inf s, .inf t => if s = t then inf f s else bad f
  | .inf s, _ => inf f s
  | _, .inf t => inf f t
  | _, _ => fin f (a.val.add b.val) (a.sign && b.sign && a.isZero && b.isZero)

def add (f : Ff) (a b : Fp) : Res := (nanOf f [a, b]).getD (addFp f a b)
def sub (f : Ff) (a b : Fp) : Res := (nanOf f [a, b]).getD (addFp f a (negFp b))

/-- a b, exact or special: `none` for infinity times zero. -/
def prod (a b : Fp) : Option Fp :=
  let s := a.sign != b.sign
  match a, b with
  | .num _ m e, .num _ n g => some (.num s (m * n) (e + g))
  | _, _ => if a.isZero || b.isZero then none else some (.inf s)

def mul (f : Ff) (a b : Fp) : Res :=
  (nanOf f [a, b]).getD <|
    match prod a b with
    | none => bad f
    | some (.inf s) => inf f s
    | some p => fin f p.val p.sign

/-- a b + c; infinity times zero raises invalid whatever c is (R45). -/
def fma (f : Ff) (a b c : Fp) : Res :=
  match nanOf f [a, b, c] with
  | some r => if (!a.isNan && !b.isNan && (prod a b).isNone) then (r.1, r.2 ||| invalid) else r
  | none =>
    match prod a b with
    | none => bad f
    | some p =>
      match p, c with
      | .inf s, .inf t => if s = t then inf f s else bad f
      | .inf s, _ => inf f s
      | _, .inf t => inf f t
      | _, _ => fin f (p.val.add c.val) (p.sign && c.sign && p.isZero && c.isZero)

def div (f : Ff) (a b : Fp) : Res :=
  (nanOf f [a, b]).getD <|
    let s := a.sign != b.sign
    match a, b with
    | .inf _, .inf _ => bad f
    | .inf _, _ => inf f s
    | _, .inf _ => zero f s
    | .num _ m e, .num _ n g =>
      if n = 0 then (if m = 0 then bad f else (f.inf s, divZero))
      else if m = 0 then zero f s else ofRounded (f.round s m n (e - g))
    | _, _ => bad f

def sqrt (f : Ff) (a : Fp) : Res :=
  (nanOf f [a]).getD <|
    match a with
    | .num s m e => if m = 0 then zero f s else if s then bad f else ofRounded (f.roundSqrt m 1 e)
    | .inf false => inf f false
    | _ => bad f

/-- The integer nearest to n / d, ties to even, of either sign. -/
def rheInt (n d : Int) : Int :=
  let q := rhe n.natAbs d.natAbs
  if (n < 0) = (d < 0) then q else -(q : Int)

/-- IEEE remainder: a - b n, n the integer nearest to a / b. -/
def rem (f : Ff) (a b : Fp) : Res :=
  (nanOf f [a, b]).getD <|
    match a, b with
    | .inf _, _ => bad f
    | .num s m e, .inf _ => fin f (Fp.num s m e).val s
    | .num s m e, .num t n g =>
      if n = 0 then bad f
      else
        let lo := min e g
        let x := (Fp.num s m e).val.at_ lo
        let y := (Fp.num t n g).val.at_ lo
        fin f ⟨x - rheInt x y * y, lo⟩ s
    | _, _ => bad f

/-- roundToIntegral, ties to even; inexact is not raised. -/
def rint (f : Ff) (a : Fp) : Res :=
  (nanOf f [a]).getD <|
    match a with
    | .num s m e => if 0 ≤ e then fin f (Fp.num s m e).val s else fin f ⟨if s then -(rheAt m 1 e 0 : Int) else rheAt m 1 e 0, 0⟩ s
    | .inf s => inf f s
    | _ => bad f

/-- a < b, with -0 below +0 when `zeros`. -/
def ltFp (zeros : Bool) (a b : Fp) : Bool :=
  match a, b with
  | .inf s, .inf t => s && !t
  | .inf s, _ => s
  | _, .inf t => !t
  | _, _ => a.val.lt b.val || (zeros && a.isZero && b.isZero && a.sign && !b.sign)

/-- IEEE 754-2019 minimum and maximum: the bits of the chosen operand. -/
def minMax (f : Ff) (mx : Bool) (a b : Fp) (x y : Nat) : Res :=
  (nanOf f [a, b]).getD (if (if mx then ltFp true a b else ltFp true b a) then (y, 0) else (x, 0))

/-- VCMP's relations; the ordered ones are signaling (Table 6-13, log entry 19). -/
def cmp (fn : Nat) (a b : Fp) : Bool × Nat :=
  let un := a.isNan || b.isNan
  let fl := if a.isSnan || b.isSnan || (un && decide (2 ≤ fn) && decide (fn ≤ 5)) then invalid else 0
  if un then (fn == 1 || fn == 6, fl)
  else
    let lt := ltFp false a b
    let gt := ltFp false b a
    (match fn with
      | 0 => !lt && !gt
      | 1 => lt || gt
      | 2 => lt
      | 3 => !gt
      | 4 => gt
      | 5 => !lt
      | _ => false, fl)

/-- Conversion between interchange formats and bfloat16 (R75).  A zero between two formats of IEEE 754-2019 keeps its sign, as that
standard's conversion has it (R41, R157 and the conformance statement of chapter 2, against R39); to or from bfloat16 it gives +0 (R39)
(DEDUCED, log entry 96). -/
def cvt (src dst : Ff) (x : Nat) : Res :=
  match Fp.decode src x with
  | .nan s fr sg => (dst.quiet src s fr, if sg then invalid else 0)
  | .inf s => inf dst s
  | .num s m e => if m = 0 then zero dst (s && src != Ff.bf16 && dst != Ff.bf16) else ofRounded (dst.round s m 1 e)

end Sys2Proof.Ieee
end

