-- ==== Sys2Proof/Machine/Transc.lean ====
section
/-!
DEFINITION. The transcendental functions of the vector engine (R159, R160, Table 4-8): each function to more than 250 significant bits, its
correctly rounded result, which fixes the overflow and underflow flags, and the results that the error bound admits.
-/

namespace Sys2Proof.Transc

/-- a / b to about 400 significant bits. -/
def quot (a b : Dy) : Dy :=
  let sh : Nat := 400 + Nat.log2 b.m.natAbs - Nat.log2 a.m.natAbs
  ⟨Int.tdiv (a.m * 2 ^ sh) b.m, a.e - b.e - sh⟩

/-- a cut to its leading 400 significant bits. -/
def cut (a : Dy) : Dy :=
  let n := Nat.log2 a.m.natAbs
  if n ≤ 400 then a else ⟨Int.tdiv a.m (2 ^ (n - 400)), a.e + (n - 400 : Nat)⟩

/-- Fraction bits of a series. -/
def fb : Nat := 400
def unit : Int := 2 ^ fb
def toFix (a : Dy) : Int := a.truncAt (-400)
def ofFix (i : Int) : Dy := ⟨i, -400⟩

/-- ln 2. -/
def ln2 : Dy := ⟨Expo.ln2, -320⟩

/-- The sum of a series whose first term is `t` and whose term `i + 1` is the term `i` times `x` times `num i` over `den i`. -/
def series (x : Int) (num den : Nat → Nat) : Nat → Nat → Int → Int → Int
  | 0, _, _, acc => acc
  | n + 1, i, t, acc =>
    let t' := t * x * (num i : Int) / (unit * (den i : Int))
    series x num den n (i + 1) t' (acc + t')

/-- The sum of the terms x^i / (2i + 1): the tail of an inverse hyperbolic or circular tangent. -/
def oddSeries (x : Int) : Nat → Nat → Int → Int → Int
  | 0, _, _, acc => acc
  | n + 1, i, t, acc =>
    let t' := t * x / unit
    oddSeries x n (i + 1) t' (acc + t' / (2 * i + 3 : Nat))

/-- exp y; beyond ±4000 a stand-in of the same rounding. -/
def exp (y : Dy) : Dy :=
  if (Dy.ofInt 4000).lt y then Dy.pow2 5000
  else if y.lt (Dy.ofInt (-4000)) then Dy.pow2 (-5000)
  else let r := Expo.exp y; ⟨r.1, r.2⟩

/-- exp y - 1: near zero y times the sum of y^i / (i + 1)!. -/
def expm1 (y : Dy) : Dy :=
  if y.abs.lt (Dy.pow2 (-1)) then cut (y.mul (ofFix (series (toFix y) (fun _ => 1) (fun i => i + 2) 90 0 unit unit)))
  else (exp y).sub Dy.one

/-- log1p of a number above -1/2 and below 1/2: 2 z times the sum of z^2i / (2i + 1), with z = d / (2 + d). -/
def log1pSmall (d : Dy) : Dy :=
  let z := quot d (d.add (Dy.ofInt 2))
  (Dy.ofInt 2).mul (cut (z.mul (ofFix (oddSeries (toFix (z.mul z)) 140 0 unit unit))))

/-- log of a positive number: its exponent times ln 2, and the logarithm of what is left, between 3/4 and 3/2. -/
def log (a : Dy) : Dy :=
  let n := a.log2
  let f : Dy := ⟨a.m, a.e - n⟩
  let (n, f) : Int × Dy := if (Dy.ofInt 3).lt (f.mul (Dy.ofInt 2)) then (n + 1, ⟨f.m, f.e - 1⟩) else (n, f)
  let d := f.sub Dy.one
  let l := if d.isZero then Dy.zero else log1pSmall d
  if n = 0 then l else (ln2.mul (Dy.ofInt n)).add l

def log1p (d : Dy) : Dy := if d.abs.lt (Dy.pow2 (-1)) then log1pSmall d else log (d.add Dy.one)

/-- Fraction bits of π, enough to reduce every binary64 number. -/
def piBits : Nat := 1600

/-- The inverse tangent of 1 / q to `piBits` fraction bits. -/
def atanInv (q : Nat) : Nat → Nat → Int → Int → Int
  | 0, _, _, acc => acc
  | n + 1, i, t, acc =>
    let t' := -t / (q * q : Nat)
    atanInv q n (i + 1) t' (acc + t' / (2 * i + 3 : Nat))

/-- π / 2, by Machin's formula. -/
def halfPi : Int :=
  let at_ (q : Nat) : Int := let t : Int := 2 ^ piBits / q; atanInv q 400 0 t t
  8 * at_ 5 - 2 * at_ 239

/-- sin and cos of a number between -π/4 and π/4. -/
def sinSmall (r : Dy) : Dy :=
  cut (r.mul (ofFix (series (-(toFix (r.mul r))) (fun _ => 1) (fun i => (2 * i + 2) * (2 * i + 3)) 50 0 unit unit)))
def cosSmall (r : Dy) : Dy := ofFix (series (-(toFix (r.mul r))) (fun _ => 1) (fun i => (2 * i + 1) * (2 * i + 2)) 50 0 unit unit)

/-- The quadrant of a number, and what is left of it (full range reduction). -/
def reduce (a : Dy) : Int × Dy :=
  if a.abs.lt (Dy.pow2 (-1)) then (0, a)
  else
    let x := a.truncAt (-(piBits : Int))
    let n := (x + halfPi / 2) / halfPi
    (n % 4, cut ⟨x - n * halfPi, -(piBits : Int)⟩)

def sin (a : Dy) : Dy :=
  let (n, r) := reduce a
  match n with
  | 0 => sinSmall r
  | 1 => cosSmall r
  | 2 => (sinSmall r).neg
  | _ => (cosSmall r).neg

def cos (a : Dy) : Dy :=
  let (n, r) := reduce a
  match n with
  | 0 => cosSmall r
  | 1 => (sinSmall r).neg
  | 2 => (cosSmall r).neg
  | _ => sinSmall r

/-- tanh y = t / (t + 2) with t = exp 2|y| - 1; beyond 300 it rounds as 1 does. -/
def tanh (a : Dy) : Dy :=
  let y := a.abs
  let r := if (Dy.ofInt 300).lt y then Dy.one else let t := expm1 (y.mul (Dy.ofInt 2)); quot t (t.add (Dy.ofInt 2))
  if a.m < 0 then r.neg else r

def logistic (a : Dy) : Dy :=
  if (Dy.ofInt 4000).lt a then Dy.one
  else let t := exp a.neg; quot Dy.one (t.add Dy.one)

/-- erf y = 2 / sqrt π exp(-y^2) times the sum of 2^i y^(2i + 1) / (2i + 1)!!; beyond 13 it rounds as 1 does. -/
def erf (a : Dy) : Dy :=
  let y := a.abs
  let r :=
    if (Dy.ofInt 13).lt y then Dy.one
    else
      let s := ofFix (series (toFix (y.mul y)) (fun _ => 2) (fun i => 2 * i + 3) 1200 0 unit unit)
      -- 1 / sqrt π, as 2^q over the root of π 2^2q
      let root : Dy := ⟨isqrt (2 * halfPi).toNat, -800⟩
      cut ((quot (Dy.ofInt 2) root).mul (cut ((exp (y.mul y).neg).mul (cut (y.mul s)))))
  if a.m < 0 then r.neg else r

/-- One over the square root of a positive number. -/
def rsqrt (a : Dy) : Dy := let r := sqrtQ 1 a.m.natAbs (-a.e); ⟨r.1, r.2⟩

/-- Function `fn` of Table 6-13 at a finite operand inside its domain, where its result is no exact one. -/
def eval (fn : Nat) (a : Dy) : Dy :=
  match fn with
  | 0 => exp a
  | 1 => if (Dy.ofInt 4000).lt a then Dy.pow2 5000 else if a.lt (Dy.ofInt (-4000)) then Dy.pow2 (-5000) else exp (a.mul ln2)
  | 2 => expm1 a
  | 3 => log a
  | 4 => quot (log a) ln2
  | 5 => log1p a
  | 6 => sin a
  | 7 => cos a
  | 8 => tanh a
  | 9 => logistic a
  | 10 => erf a
  | _ => rsqrt a

/-- The magnitude of function `fn` at `a` lies below the short number that it comes too near for 400 bits to tell apart: 1 under exp and exp2 of a
negative operand and under cos, sin, tanh, logistic and erf, and the operand itself under expm1, log1p, sin and tanh; else above it. -/
def below (fn : Nat) (a : Dy) : Bool :=
  match fn with
  | 0 | 1 | 2 => decide (a.m < 0)
  | 5 => decide (0 < a.m)
  | 6 | 7 | 8 | 9 | 10 => true
  | _ => false

/-- A number of 64 significant bits at most. -/
def short (v : Dy) : Bool := v.m.natAbs % 2 ^ (Nat.log2 v.m.natAbs - 63) == 0

/-- `eval`, moved off a short number to the side on which the exact result lies: no result that is not an exact one is short (R159). -/
def exact (fn : Nat) (a : Dy) : Dy :=
  let v := eval fn a
  if short v then ⟨v.m * 2 ^ 400 + (if below fn a then -v.m.sign else v.m.sign), v.e - 400⟩ else v

/-- The bound of Table 4-8 in units in the last place. -/
def bound (fn : Nat) : Nat := if fn ≤ 5 ∨ fn = 11 then 1 else 2

/-- The correctly rounded result; an irrational value lies beside each number near it, which the last bit here stands for. -/
def correct (f : Ff) (v : Dy) : Rounded := f.round (decide (v.m < 0)) (v.m.natAbs * 2 ^ 64 + 1) 1 (v.e - 64)

/-- One unit in the last place of `v` in `f`. -/
def ulp (f : Ff) (v : Dy) : Dy := Dy.pow2 (max (v.log2 - f.fb) (f.emin - f.fb))

/-- The encoding that lies `d` places above the encoding `x` in the order of the numbers; none beyond an infinity. -/
def step (f : Ff) (x : Nat) (d : Int) : Option Nat :=
  let m : Nat := 2 ^ (f.eb + f.fb)
  let i : Int := (if m ≤ x then -((x - m : Nat) : Int) else x) + d
  if i.natAbs ≤ f.inf false then some (if i < 0 then m + i.natAbs else i.natAbs) else none

/-- The number that an encoding stands for in a measure of distance: an infinity lies where the next binade would begin. -/
def place (f : Ff) (x : Nat) : Dy :=
  match Fp.decode f x with
  | .inf s => ⟨if s then -1 else 1, 2 ^ (f.eb - 1)⟩
  | v => v.val

/-- Every result within the bound of Table 4-8: the correctly rounded one, and those near it whose error is no larger than the bound. -/
def admitted (f : Ff) (fn : Nat) (v : Dy) : List Nat :=
  let c := (correct f v).bits
  c :: ([-4, -3, -2, -1, 1, 2, 3, 4] : List Int).filterMap fun d =>
    match step f c d with
    | some x => if ((place f x).sub v).abs.le ((Dy.ofInt (bound fn)).mul (ulp f v)) then some x else none
    | none => none

/-- A result that is no exact one: an admitted one, by a free value, with overflow and underflow as the correctly rounded result raises
them, and inexact (R159, R160; log entry 2). -/
def approx (f : Ff) (fn : Nat) (p : Bool) (x : Nat) (a : Dy) : Ieee.Res :=
  let v := exact fn a
  let l := admitted f fn v
  (l.getD (Config.vtrn fn p x % l.length) 0, Ieee.roundFlags (correct f v) ||| 1)

end Sys2Proof.Transc
end

