-- ==== Sys2Proof/Machine/Vector.lean ====
section
/-!
DEFINITION. The vector engine: the V queue's instructions for every active thread (R153 to R160, R220 to R222).
-/

namespace Sys2Proof.Machine

open Sys2Proof.WB

/-! ### Threads -/

/-- A vector register of a thread, and a pair (R153). -/
def Core.vreg (c : Core) (t r : Nat) : Nat := (Tab.get 0 c.vregs (64 * t + r)).toNat
def Core.vget (c : Core) (p : Bool) (t r : Nat) : Nat := if p then c.vreg t r + 2 ^ 32 * c.vreg t (r + 1) else c.vreg t r

def Core.setV (c : Core) (t r v : Nat) : Core := { c with vregs := Tab.set 0 c.vregs (64 * t + r) (BitVec.ofNat 32 v) }
def Core.vput (c : Core) (p : Bool) (t r v : Nat) : Core := if p then (c.setV t r v).setV t (r + 1) (v / 2 ^ 32) else c.setV t r v

/-- Sticky flags of a thread (R44). -/
def Core.flags (c : Core) (t : Nat) : Nat := (Tab.get 0 c.vflags t).toNat
def Core.setFlags (c : Core) (t v : Nat) : Core := { c with vflags := Tab.set 0 c.vflags t (BitVec.ofNat 5 v) }
def Core.raise (c : Core) (t v : Nat) : Core := c.setFlags t (c.flags t ||| v)

/-- The active threads (R153, R154). -/
def Core.threads (c : Core) : List Nat := List.range (64 * c.vslots)

/-- Fields of format V (Table 6-14). -/
def vdF (w : Nat) : Nat := Bits.fld w 44 6
def vaF (w : Nat) : Nat := Bits.fld w 50 6
def vbF (w : Nat) : Nat := Bits.fld w 56 6
def vcF (w : Nat) : Nat := Bits.fld w 62 6
def vP (w : Nat) : Bool := Bits.bit w 40
def vFmt (w : Nat) : Ff := if vP w then Ff.b64 else Ff.b32

/-- The second operand b of a thread: a vector register, or R[RS] broadcast (R220). -/
def opB (x : QueueSt) (c : Core) (w : Nat) (p : Bool) (t : Nat) : Nat :=
  if Bits.bit w 41 then (let r := x.reg (Bits.fld w 68 6); if p then r else r % 2 ^ 32) else c.vget p t (vbF w)

/-- Every active thread takes a result: it goes to register `vd`, or the pair at `vd`, and its flags are raised (R44, R154). -/
def Core.eachThread (c : Core) (p : Bool) (vd : Nat) (f : Nat → Ieee.Res) : Core :=
  c.threads.foldl (fun n t => let r := f t; (n.vput p t vd r.1).raise t r.2) c

/-- Apply `f` to every active thread of the core. -/
def perThread (q : QRef) (s : State) (w : Nat) (p : Bool) (f : Core → Nat → Ieee.Res) : Act :=
  .done (s.updCore q.core.val fun c => c.eachThread p (vdF w) (f c))

/-- A two-operand floating-point instruction. -/
def vOp2 (q : QRef) (s : State) (w : Nat) (f : Ff → Fp → Fp → Ieee.Res) : Act :=
  let x := s.queue q
  let g := vFmt w
  perThread q s w (vP w) fun c t => f g (Fp.decode g (c.vget (vP w) t (vaF w))) (Fp.decode g (opB x c w (vP w) t))

/-- A one-operand floating-point instruction. -/
def vOp1 (q : QRef) (s : State) (w : Nat) (f : Ff → Fp → Ieee.Res) : Act :=
  let g := vFmt w
  perThread q s w (vP w) fun c t => f g (Fp.decode g (c.vget (vP w) t (vaF w)))

/-! ### Arithmetic (Table 6-13) -/

/-- VADD: vd = va + b. -/
def execVadd (at_ : QRef) (s : State) : Host.Outcome State Fault Refusal := issue 0x300 true at_ s fun w => vOp2 at_ s w Ieee.add
/-- VSUB: vd = va - b. -/
def execVsub (at_ : QRef) (s : State) : Host.Outcome State Fault Refusal := issue 0x301 true at_ s fun w => vOp2 at_ s w Ieee.sub
/-- VMUL: vd = va b. -/
def execVmul (at_ : QRef) (s : State) : Host.Outcome State Fault Refusal := issue 0x302 true at_ s fun w => vOp2 at_ s w Ieee.mul

/-- VFMA: vd = va b + vc, rounded once. -/
def execVfma (at_ : QRef) (s : State) : Host.Outcome State Fault Refusal :=
  issue 0x303 true at_ s fun w =>
    let x := s.queue at_
    let g := vFmt w
    let p := vP w
    perThread at_ s w p fun c t =>
      Ieee.fma g (Fp.decode g (c.vget p t (vaF w))) (Fp.decode g (opB x c w p t)) (Fp.decode g (c.vget p t (vcF w)))

/-- VDIV: vd = va / b. -/
def execVdiv (at_ : QRef) (s : State) : Host.Outcome State Fault Refusal := issue 0x304 true at_ s fun w => vOp2 at_ s w Ieee.div
/-- VSQRT: the square root of va. -/
def execVsqrt (at_ : QRef) (s : State) : Host.Outcome State Fault Refusal := issue 0x305 true at_ s fun w => vOp1 at_ s w Ieee.sqrt
/-- VREM: the IEEE remainder of va by b. -/
def execVrem (at_ : QRef) (s : State) : Host.Outcome State Fault Refusal := issue 0x306 true at_ s fun w => vOp2 at_ s w Ieee.rem
/-- VRINT: roundToIntegral of va, ties to even. -/
def execVrint (at_ : QRef) (s : State) : Host.Outcome State Fault Refusal := issue 0x307 true at_ s fun w => vOp1 at_ s w Ieee.rint

/-- VMIN and VMAX. -/
def vMinMax (q : QRef) (s : State) (w : Nat) (mx : Bool) : Act :=
  let x := s.queue q
  let g := vFmt w
  let p := vP w
  perThread q s w p fun c t =>
    let a := c.vget p t (vaF w)
    let b := opB x c w p t
    Ieee.minMax g mx (Fp.decode g a) (Fp.decode g b) a b

def execVmin (at_ : QRef) (s : State) : Host.Outcome State Fault Refusal := issue 0x308 true at_ s fun w => vMinMax at_ s w false
def execVmax (at_ : QRef) (s : State) : Host.Outcome State Fault Refusal := issue 0x309 true at_ s fun w => vMinMax at_ s w true

/-- VCMP: all ones when the relation holds, else 0; under P both registers of the pair. -/
def execVcmp (at_ : QRef) (s : State) : Host.Outcome State Fault Refusal :=
  issue 0x30A true at_ s fun w =>
    let x := s.queue at_
    let g := vFmt w
    let p := vP w
    perThread at_ s w p fun c t =>
      let r := Ieee.cmp (Bits.fld w 32 8) (Fp.decode g (c.vget p t (vaF w))) (Fp.decode g (opB x c w p t))
      (if r.1 then (if p then 2 ^ 64 - 1 else 2 ^ 32 - 1) else 0, r.2)

/-- VSEL: vd = vc nonzero ? va : b, as bit patterns. -/
def execVsel (at_ : QRef) (s : State) : Host.Outcome State Fault Refusal :=
  issue 0x30B true at_ s fun w =>
    let x := s.queue at_
    let p := vP w
    perThread at_ s w p fun c t => (if c.vget p t (vcF w) ≠ 0 then c.vget p t (vaF w) else opB x c w p t, 0)

/-- VCVT converts va from FS to FD (R75, R220). -/
def execVcvt (at_ : QRef) (s : State) : Host.Outcome State Fault Refusal :=
  issue 0x30C true at_ s fun w =>
    let fs := Bits.fld w 82 4
    let fd := Bits.fld w 86 4
    let src := (Fmt.ff fs).getD Ff.b32
    let dst := (Fmt.ff fd).getD Ff.b32
    perThread at_ s w (fd == 3) fun c t => Ieee.cvt src dst (c.vget (fs == 3) t (vaF w) % 2 ^ src.width)

/-! ### VTRN (R159, R160) -/

/-- The domain of a function of Table 6-13 excludes the operand: log, log2 and rsqrt below zero, log1p below -1, sin and cos
of an infinity. -/
def trnInvalid (fn : Nat) (a : Fp) : Bool :=
  match fn with
  | 3 | 4 | 11 => a.sign && !a.isZero
  | 5 => (match a with | .inf s => s | _ => a.val.lt (Dy.ofInt (-1)))
  | 6 | 7 => a.isInf
  | _ => false

/-- What IEEE 754-2019 clause 9 and exactness fix of a transcendental function: exact results and those at zero and infinity
(R160); none where the result is an approximation. -/
def trnFixed (f : Ff) (fn : Nat) (a : Fp) : Option Ieee.Res :=
  let one : Ieee.Res := (f.round false 1 1 0).bits |> fun b => (b, 0)
  let negOne : Ieee.Res := ((f.round true 1 1 0).bits, 0)
  let half : Ieee.Res := ((f.round false 1 1 (-1)).bits, 0)
  match fn, a with
  | 0, .inf s | 1, .inf s => some (if s then Ieee.zero f false else Ieee.inf f false)
  | 2, .inf s => some (if s then negOne else Ieee.inf f false)
  | 3, .inf _ | 4, .inf _ | 5, .inf _ => some (Ieee.inf f false)
  | 8, .inf s | 10, .inf s => some (if s then negOne else one)
  | 9, .inf s => some (if s then Ieee.zero f false else one)
  | 11, .inf _ => some (Ieee.zero f false)
  | _, .num s m e =>
    if m = 0 then
      match fn with
      | 0 | 1 | 7 => some one
      | 2 | 5 | 6 | 8 | 10 => some (Ieee.zero f s)
      | 3 | 4 => some (f.inf true, Ieee.divZero)
      | 9 => some half
      | _ => some (f.inf s, Ieee.divZero)
    else
      let v := (Fp.num s m e).val
      match fn with
      | 1 => if v.multOf 0 then some (Ieee.ofRounded (f.roundDy (Dy.pow2 (clampI (v.truncAt 0) (-5000) 5000)))) else none
      | 3 => if v.eq Dy.one then some (Ieee.zero f false) else none
      | 4 => if v.abs.eq (Dy.pow2 v.log2) && !s then some (Ieee.fin f (Dy.ofInt v.log2) false) else none
      | 5 => if v.eq (Dy.ofInt (-1)) then some (f.inf true, Ieee.divZero) else none
      | 11 =>
        let l := v.log2
        if v.abs.eq (Dy.pow2 l) && !s && l % 2 == 0 then some (Ieee.ofRounded (f.roundDy (Dy.pow2 (-l / 2)))) else none
      | _ => none
  | _, _ => none

/-- A transcendental function: NaN and domain rules, the fixed results, else one of the results that the error bound admits, with
the flags of the correctly rounded result and inexact (R159, R160; log entry 2). -/
def trn (f : Ff) (fn : Nat) (p : Bool) (x : Nat) : Ieee.Res :=
  let a := Fp.decode f x
  (Ieee.nanOf f [a]).getD <|
    if trnInvalid fn a then Ieee.bad f
    else (trnFixed f fn a).getD (Transc.approx f fn p x a.val)

/-- VTRN: function FN of Table 4-8. -/
def execVtrn (at_ : QRef) (s : State) : Host.Outcome State Fault Refusal :=
  issue 0x30D true at_ s fun w =>
    let p := vP w
    perThread at_ s w p fun c t => trn (vFmt w) (Bits.fld w 32 8) p (c.vget p t (vaF w))

/-! ### Integer operations, loads and stores -/

/-- VIOP: a 32-bit integer operation, coded as SOP's FN. -/
def execViop (at_ : QRef) (s : State) : Host.Outcome State Fault Refusal :=
  issue 0x30E true at_ s fun w =>
    let x := s.queue at_
    perThread at_ s w false fun c t => (scalarFn 32 (Bits.fld w 32 8) (c.vget false t (vaF w)) (opB x c w false t), 0)

/-- A thread's address: a[AB] + va + sext(IMM), va unsigned (R156). -/
def vAddr (x : QueueSt) (c : Core) (w t : Nat) : Nat := addImm (x.a (Bits.fld w 74 4) + c.vreg t (vaF w)) (imm32 w 96)

/-- The checks of every thread's access: alignment of the lowest-numbered misaligned thread (R220), before any thread accesses the store; then
extent (R206) and then the sentinel (R174).  The spec gives these two no rank over the threads: every thread's extent comes before any thread's
sentinel here, as the bases of an MM are checked before its sentinels (R626; DESIGN CHOICE, log entry 46). -/
def vAccess (q : QRef) (x : QueueSt) (c : Core) (w n al : Nat) (wr : Bool) : Option (Nat × Nat × Nat) :=
  let as_ := c.threads.map (vAddr x c w)
  firstOf [as_.findSome? fun a => misaligned a al, as_.findSome? fun a => beyond a n, as_.findSome? fun a => c.access q.queue wr a n]

/-- VLD: 4 or 8 bytes. -/
def execVld (at_ : QRef) (s : State) : Host.Outcome State Fault Refusal :=
  issue 0x310 true at_ s fun w =>
    let x := s.queue at_
    let c := s.core at_.core.val
    let n := if vP w then 8 else 4
    .check s (vAccess at_ x c w n n false) <|
      match c.threads.find? fun t => linePoisoned c.poison (vAddr x c w t) n with
      | some t => hc60 s at_ (vAddr x c w t)
      | none => perThread at_ s w (vP w) fun c t => (c.readNat (vAddr x c w t) n, 0)

/-- VST: the highest-numbered thread stands (R156); no format for the summaries (R84). -/
def execVst (at_ : QRef) (s : State) : Host.Outcome State Fault Refusal :=
  issue 0x311 true at_ s fun w =>
    let x := s.queue at_
    let c := s.core at_.core.val
    let n := if vP w then 8 else 4
    .check s (vAccess at_ x c w n n true) <|
      .done (s.setCore at_.core.val
        (c.threads.foldl (fun d t => d.write (vAddr x c w t) (Bits.toBytes n (c.vget (vP w) t (vbF w))) (noFormat n)) c))

/-- What a thread's VXADD adds, and the flags of its rounding to binary32 (R158, R221). -/
def vxTerm (p : Bool) (v : Nat) : L640 × Nat :=
  if p then
    let a := Fp.decode Ff.b64 v
    let fl := (Ieee.cvt Ff.b64 Ff.b32 v).2
    match a with
    | .num s m e => (({} : L640).addFp (Fp.decode Ff.b32 (Ff.b32.round s m 1 e).bits), fl)
    | _ => (({} : L640).addFp a, fl)
  else
    let a := Fp.decode Ff.b32 v
    (({} : L640).addFp a, if a.isSnan then Ieee.invalid else 0)

/-- A VXADD into an EAU target in the element area of an enabled gradient store is a W128 add, any other an L640 add (chapter 9, Gradient
stores; R319, R454; DEDUCED, log entry 40).  In another member's window it is that member that judges the target's shape, so the address is
held here to the alignment of a W128 element alone (log entry 40). -/
def State.vxW128 (s : State) (k va : Nat) : Bool := (s.eauRemote k va).isSome || (s.storeAt k (s.eauLanding k va)).isSome

/-- VXADD adds vb exactly into L640 slots: of the core store (FN 0), or into EAU targets (FN 1) (R158, R221, R454). -/
def execVxadd (at_ : QRef) (s : State) : Host.Outcome State Fault Refusal :=
  issue 0x312 true at_ s fun w =>
    let x := s.queue at_
    let c := s.core at_.core.val
    let p := vP w
    let term := fun (t : Nat) => vxTerm p (c.vget p t (vbF w))
    if Bits.fld w 32 8 = 0 then
      .check s (vAccess at_ x c w 96 32 true) <|
        match c.threads.find? fun t => linePoisoned c.poison (vAddr x c w t) 96 with
        | some t => hc60 s at_ (vAddr x c w t)
        | none =>
          .done (s.setCore at_.core.val
            (c.threads.foldl (fun d t =>
              let a := vAddr x c w t
              let y := (L640.ofNat (d.readNat a 96)).add (term t).1
              (d.write a (Bits.toBytes 96 y.toNat) (noFormat 96)).raise t (term t).2) c))
    else
      let k := s.ctxOf at_
      .check s (c.threads.findSome? fun t => s.eauCheck k (vAddr x c w t) (s.vxW128 k (vAddr x c w t))) <|
        let s' := s.updCore at_.core.val fun c => c.threads.foldl (fun d t => d.raise t (term t).2) c
        .go (s'.putAdds at_ s.nextId k (s.epochOf k x) (c.threads.map fun t => (vAddr x c w t, s.vxW128 k (vAddr x c w t), (term t).1))) (.adds 0) [] .seq

/-- VTID: vd = thread number. -/
def execVtid (at_ : QRef) (s : State) : Host.Outcome State Fault Refusal :=
  issue 0x313 true at_ s fun w => perThread at_ s w false fun _ t => (t, 0)

/-- VBCAST: vd = low 32 bits of R[RS]. -/
def execVbcast (at_ : QRef) (s : State) : Host.Outcome State Fault Refusal :=
  issue 0x314 true at_ s fun w => let x := s.queue at_; perThread at_ s w false fun _ _ => (x.reg (Bits.fld w 68 6) % 2 ^ 32, 0)

/-- VCFG: active context slots = R[RS], 1 to 64 (R154, R220). -/
def execVcfg (at_ : QRef) (s : State) : Host.Outcome State Fault Refusal :=
  issue 0x315 true at_ s fun w =>
    let n := (s.queue at_).reg (Bits.fld w 68 6)
    if n = 0 ∨ 64 < n then .halt s 0x03 68 0 else .done (s.updCore at_.core.val fun c => { c with vslots := n })

/-- VFLAGS: vd[4:0] = sticky flags; FN 1 also clears them. -/
def execVflags (at_ : QRef) (s : State) : Host.Outcome State Fault Refusal :=
  issue 0x316 true at_ s fun w =>
    .done (s.updCore at_.core.val fun c => c.threads.foldl (fun n t =>
      let n := n.vput false t (vdF w) (c.flags t)
      if Bits.fld w 32 8 = 1 then n.setFlags t 0 else n) c)

/-! ### VBENC (R222) -/

/-- A block-format byte or pinned code that is malformed (R51, R59). -/
def bfbMalformed (b pin : Nat) : Bool :=
  let elem := b % 16
  (elem != 4 && elem != 5) || (Bits.bit b 4 && Bits.bit b 7) || (Bits.bit b 4 && decide (0xE0 ≤ pin))

/-- Cut a list into runs of `n`, the last padded with zeros (R53). -/
def blocksOf (n : Nat) (l : List Fp) : List (List Fp) :=
  (List.range (Bits.cdiv l.length n)).map fun i =>
    let b := (l.drop (i * n)).take n
    b ++ List.replicate (n - b.length) (.num false 0 0)

/-- The bytes of a block record, with the exponents that they contribute (R52, R84). -/
def recOf (f bs : Nat) (b : Fmt.Block) : List Byte × List (Option Int) :=
  (Bits.toBytes 4 b.hdr ++ b.bytes.map fun x => BitVec.ofNat 8 x, List.replicate 4 none ++ (b.vals f bs).map Fmt.expOf)

/-- Encode a row of elements into contiguous block records (R57 to R60). -/
def encodeRow (f bs : Nat) (esc : Bool) (pin : Option Nat) (l : List Fp) : List Fmt.Block :=
  (blocksOf (Fmt.blockSize bs) l).map (Fmt.encode f esc pin)

/-- Elements of an encoded row that are padding never crush or saturate: they are zero.  Totals of a list of blocks. -/
def crushes (l : List Fmt.Block) : Nat := (l.map (·.crush)).sum
def saturations (l : List Fmt.Block) : Nat := (l.map (·.sat)).sum

/-- Count crushed and saturated elements into a tensor's census (R146, R324); none counted is no row of the census, so SEEN stays (R325; DESIGN
CHOICE, log entry 121). -/
def State.countCrush (s : State) (k : Nat) (ep : Option Nat) (t cr sa : Nat) : State :=
  if cr = 0 ∧ sa = 0 then s else s.updCensus k ep t fun c => { c with crush := c.crush + cr, sat := c.sat + sa }

/-- VBENC encodes R[RS] binary32 values as block records: one operation of the whole engine. -/
def execVbenc (at_ : QRef) (s : State) : Host.Outcome State Fault Refusal :=
  issue 0x317 true at_ s fun w =>
    let x := s.queue at_
    let c := s.core at_.core.val
    let bfb := Bits.fld w 96 8
    let pin := Bits.fld w 104 8
    let n := x.reg (Bits.fld w 68 6)
    let src := x.a (Bits.fld w 74 4)
    let dst := x.a (Bits.fld w 78 4)
    let f := bfb % 16
    let bs := Bits.fld bfb 5 2
    let out := Fmt.rowBytes f bs n
    .check s (firstOf [
        if bfbMalformed bfb pin then some (0x28, bfb + 256 * pin, 0) else none,
        coreRegion src (4 * n) 4, coreRegion dst out 64,
        c.access at_.queue false src (4 * n), c.access at_.queue true dst out]) <|
      if linePoisoned c.poison src (4 * n) then hc60 s at_ src
      else
        let l := (List.range n).map fun i => Fp.decode Ff.b32 (c.readNat (src + 4 * i) 4)
        let bl := encodeRow f bs (Bits.bit bfb 7) (if Bits.bit bfb 4 then some pin else none) l
        let rs := bl.map (recOf f bs)
        let s := s.updCore at_.core.val fun c => c.write dst (rs.flatMap (·.1)) (rs.flatMap (·.2))
        let k := s.ctxOf at_
        .done (s.countCrush k (s.epochOf k x) (Bits.fld w 112 16) (crushes bl) (saturations bl))

end Sys2Proof.Machine
end

