-- ==== Sys2Proof/Machine/Fold.lean ====
section
/-!
DEFINITION. The Fold engine: RET, NORM, NSQ and CENS (R108, R115, R119, R120, R134, R139 to R146, R223 to R225, R317, R324,
R627), and tile replay (R349 to R351).
-/

namespace Sys2Proof.Machine

open Sys2Proof.WB

/-! ### Tile replay (Table 10-5) -/

/-- The spares on which a replay runs. -/
def State.replayCores (s : State) : List Nat :=
  s.cores.filterMap fun e => match e.2.qF.wait with
    | some (.replay _ _ spare) => spare
    | _ => none

/-- The lowest idle spare of a die, other than a retired one (R350). -/
def State.idleSpare (s : State) (die : Nat) : Option Nat :=
  (s.spares.filter fun c => coreDie c == die && !s.retired.contains c && !s.replayCores.contains c).min?

/-- The die of the `i`-th place in the order of R350. -/
def replayDie (core i : Nat) : Nat := (coreDie core + 1 + i) % 8

/-- The spare on which a tile of a core is replayed: on the first die that has an idle one, from place `after` of the order on. -/
def State.replaySpare (s : State) (core after : Nat) : Option Nat :=
  (List.range 8).findSome? fun i => s.idleSpare (replayDie core (after + i))

/-- The place of a spare's die in the order. -/
def replayPlace (core spare : Nat) : Nat := (coreDie spare + 7 - coreDie core) % 8

/-- Begin a replay for a core, or wait for a spare. -/
def State.replayWait (s : State) (core after : Nat) (t : Trigger) : Wait := .replay after t (s.replaySpare core after)

/-- Log a core FB or FC: it is retired at the next step boundary (Table 10-5, R629). -/
def State.logCore (s : State) (cls sub action core : Nat) (k : Option Nat) : State :=
  let s := s.logFault cls sub action (some core) k (coreDie core) s.syndrome 0
  { s with retiring := if s.retiring.contains core then s.retiring else s.retiring ++ [core] }

/-- DOUBT: the part enters Safe Hold (R351, R352, R364). -/
def State.doubt (s : State) (core : Nat) (k : Option Nat) : State :=
  (s.logFault 0xFB 0x05 5 (some core) k (coreDie core) s.syndrome 0).enterSafeHold 0

/-- The twin of a core in full redundancy (R358). -/
def State.twinOf (s : State) (core : Nat) : Option Nat :=
  if s.val REDUNDANCY 0 = 1 then (s.core core).ctx.bind fun k => (s.ctx k).twins[(s.core core).role]? else none

/-- What of a RET's or NORM's checks asks for a replay: a residue failure, unless REDUNDANCY 2 has switched the checks off; another digest of
the twin, where the core has one; or a new non-finite output (R349, R350, R358, R359). -/
def State.triggerOf (s : State) (core : Nat) (check : RetFind) (newnf : Bool) : Option Trigger :=
  if check = .residue ∧ s.val REDUNDANCY 0 ≠ 2 then some .residue
  else if check = .twin ∧ (s.twinOf core).isSome = true then some .twin
  else if newnf then some .nonfinite
  else none

/-- Whether a RET or NORM is held for a replay: residue failures always are, and beyond RESFAIL_MAX give DOUBT; new
non-finite retires are while the epoch's REPLAY_NF_MAX lasts (R350, R351). -/
inductive Hold where
  | no
  | doubt
  | replay (s : State) (t : Trigger)

def State.holdFor (s : State) (q : QRef) (check : RetFind) (newnf : Bool) : Hold :=
  let k := s.ctxOf q
  match s.triggerOf q.core.val check newnf with
  | none => .no
  | some t =>
    match (s.epochOf k (s.queue q)).bind (s.ctx k).epoch with
    | none => .replay s t
    | some e =>
      match t with
      | .residue =>
        if s.val RESFAIL_MAX 0 < e.resfail + 1 then .doubt else .replay (s.updEpoch k e.n fun e => { e with resfail := e.resfail + 1 }) t
      | .nonfinite =>
        if e.nfReplays < s.val REPLAY_NF_MAX 0 then .replay (s.updEpoch k e.n fun e => { e with nfReplays := e.nfReplays + 1 }) t else .no
      | .twin => .replay s t

/-! ### RET (R108, R115, R120, R139 to R146, R224) -/

/-- What RET takes from its word and registers. -/
structure RetOps where
  t : Nat
  dk : Nat
  fd : Nat
  ori : Bool
  rrop : Nat
  scat : Bool
  keep : Bool
  bfb : Nat
  psc : Nat
  ad : Nat
  ar : Nat
  ax : Nat
  pitch : Nat
  n : Nat
  reg : Nat
  cid : Nat
deriving DecidableEq, Repr

def retOps (x : QueueSt) (w : Nat) : RetOps :=
  { t := Bits.fld w 32 1, dk := Bits.fld w 41 3, fd := Bits.fld w 44 4, ori := Bits.bit w 48, rrop := Bits.fld w 49 2
    scat := Bits.bit w 51, keep := Bits.bit w 52, bfb := Bits.fld w 56 8, psc := Bits.fld w 64 8, ad := x.a (Bits.fld w 76 4)
    ar := x.a (Bits.fld w 80 4), ax := x.a (Bits.fld w 84 4), pitch := x.s (Bits.fld w 88 5), n := x.s (Bits.fld w 93 5)
    reg := Bits.fld w 98 6, cid := Bits.fld w 112 16 }

/-- The destination is block-scaled. -/
def RetOps.blk (o : RetOps) : Bool := o.dk == 0 && Fmt.isBlock o.fd
def RetOps.bs (o : RetOps) : Nat := Bits.fld o.bfb 5 2

/-- A row or column of accumulators in a tile. -/
def Tile.rowAcc (t : Tile) (i : Nat) : List L640 := (List.range t.nc).map fun j => t.get (128 * i + j)
def Tile.colAcc (t : Tile) (j : Nat) : List L640 := (List.range t.mr).map fun i => t.get (128 * i + j)

/-- One line that a retire writes: its bytes, the exponents that they record, the values written, crushes and saturations. -/
structure Line where
  bytes : List Byte
  exps : List (Option Int)
  vals : List Fp
  crush : Nat := 0
  sat : Nat := 0

/-- Accumulators rounded once into an interchange format (R109). -/
def roundLine (fd : Nat) (l : List L640) : Line :=
  let f := (Fmt.ff fd).getD Ff.b32
  let bits := l.map fun a => (f.roundFp a.read).bits
  let vals := bits.map (Fp.decode f)
  { bytes := bits.flatMap (Bits.toBytes (Fmt.stride fd)), exps := vals.flatMap fun v => List.replicate (Fmt.stride fd) (Fmt.expOf v), vals := vals }

/-- Accumulators encoded as block records (R110, R144). -/
def blockLine (o : RetOps) (l : List L640) : Line :=
  let bl := encodeRow o.fd o.bs (Bits.bit o.bfb 7) (if Bits.bit o.bfb 4 then some o.psc else none) (l.map L640.read)
  let rs := bl.map (recOf o.fd o.bs)
  { bytes := rs.flatMap (·.1), exps := rs.flatMap (·.2), vals := (bl.flatMap fun b => b.vals o.fd o.bs).take l.length
    crush := crushes bl, sat := saturations bl }

/-- Accumulators as L640 slots, unrounded (R115); no array operand. -/
def slotLine (l : List L640) : Line := { bytes := l.flatMap fun a => Bits.toBytes 96 a.toNat, exps := [], vals := l.map L640.read }

/-- The lines that a retire into the core store writes, by their numbers: rows, or columns under ORI. -/
def RetOps.lines (o : RetOps) (t : Tile) : List Line :=
  if o.blk && o.ori then (List.range t.nc).map fun j => blockLine o (t.colAcc j)
  else (List.range t.mr).map fun i =>
    if o.blk then blockLine o (t.rowAcc i) else if o.dk = 0 then roundLine o.fd (t.rowAcc i) else slotLine (t.rowAcc i)

/-- Destination row of each tile row (R120). -/
def RetOps.rows (o : RetOps) (c : Core) (t : Tile) : List Nat := if o.scat then c.indices o.ax t.mr else List.range t.mr

/-- Address of line `i`. -/
def RetOps.lineAt (o : RetOps) (rows : List Nat) (i : Nat) : Nat :=
  Bits.wrap (o.ad + (if o.blk && o.ori then i else rows.getD i 0) * o.pitch : Nat) 64

/-- Bytes of a line. -/
def RetOps.lineLen (o : RetOps) (t : Tile) : Nat :=
  if o.blk then Fmt.rowBytes o.fd o.bs (if o.ori then t.mr else t.nc) else if o.dk = 0 then Fmt.stride o.fd * t.nc else 96 * t.nc

/-- Alignment of the destination base (R52, R627; an interchange format is aligned to its element, log entry 20). -/
def RetOps.align (o : RetOps) : Nat := if o.blk then 64 else if o.dk = 0 then Fmt.align o.fd else 32

/-- The target of output (i, j) of a retire by EAU adds. -/
def RetOps.targetAt (o : RetOps) (rows : List Nat) (i j : Nat) : Nat :=
  Bits.wrap (o.ad + rows.getD i 0 * o.pitch + (if o.dk = 2 then 96 else 16) * j : Nat) 64

/-- The values of each tile row over which statistics are taken (R140), and every output value (Table 6-17). -/
def RetOps.outputs (o : RetOps) (t : Tile) (ls : List Line) : List (List Fp) :=
  if o.dk ≠ 0 then (List.range t.mr).map fun i => (t.rowAcc i).map L640.read
  else if o.blk && o.ori then (List.range t.mr).map fun i => ls.map fun l => l.vals.getD i (.num false 0 0)
  else ls.map (·.vals)

/-- A value as binary32 bits, with the sign of a zero kept. -/
def toB32 (x : Fp) : Nat := if x.isZero then Ff.b32.signBit x.sign else (Ff.b32.roundFp x).bits

/-- The exact square of a value. -/
def squareFp : Fp → Fp
  | .nan s f g => .nan s f g
  | .inf _ => .inf false
  | .num _ m e => .num false (m * m) (e + e)

/-- A row record takes the values of a row (R140, R142). -/
def RowRec.stats (r : RowRec) (unrounded : Bool) (l : List Fp) : RowRec :=
  l.foldl (fun r v =>
    let b := toB32 v
    let v := if unrounded then Fp.decode Ff.b32 b else v
    { r.takeMax b with sum := r.sum.addFp v, sq := r.sq.addFp (squareFp v), count := sat (r.count + 1) (2 ^ 32 - 1) }) r

/-- The retire record of Table 6-17. -/
def retireRecord (oor satd crush : Nat) (nan inf : Bool) (slot replays segs : Nat) : Nat :=
  2 ^ 48 * oor + 2 ^ 32 * sat satd 65535 + 2 ^ 16 * sat crush 65535 + 1024 * Bits.ofBool nan + 512 * Bits.ofBool inf + 256 * slot
    + 16 * sat replays 15 + sat segs 15

/-- The tile slot holds a tile whose T instructions have retired: an MM works on one slot, an ATTN on both (R121, R224). -/
def Core.retirable (c : Core) (t : Nat) : Bool :=
  (c.tile t).st != .free && !(c.qT.inflight.any fun i =>
    i.work == .attn || (i.work == .array && (match c.job with | some j => j.tile == t | none => false)))

/-! #### Shares (R106, R107, R135) -/

/-- A value read back from an EAU target (R106). -/
def State.backVal (s : State) (k va : Nat) (w128 : Bool) : L640 :=
  if !w128 then L640.ofNat (s.memNat k va 96)
  else match s.storeAt k va with
    | some (_, g, p) => s.w128Read k g p
    | none => {}

/-- A tile with a share added exactly: the slots of a core of the same context that holds a tile of the same shape, or what an EAU target in mapped
memory holds; anything else is no share of the tile's reduction, and adds nothing (DESIGN CHOICE, log entry 97). -/
def State.shareTile (s : State) (c : Nat) (t : Tile) : Share → Tile
  | .slots d slot1 =>
    let u := (s.core d.val).tile (Bits.ofBool slot1)
    if d.val ≠ c ∧ (s.core d.val).ctx = (s.core c).ctx ∧ u.st ≠ .free ∧ u.mr = t.mr ∧ u.nc = t.nc ∧ u.attn = t.attn then t.combine u else t
  | .target va pitch w128 =>
    let k := (s.core c).ctx.getD 0
    let len := if w128 then 16 else 96
    (cellsOf t.mr t.nc).foldl (fun t n =>
      let a := va + n / 128 * pitch + n % 128 * len
      if (s.memCheck k a len).isNone then t.put n ((t.get n).add (s.backVal k a w128)) else t) t

/-- The shares of a tile that RET retires, in order of arrival. -/
def State.takeShares (s : State) (q : QRef) (slot : Nat) (l : List Share) : State :=
  l.foldl (fun s x => s.updCore q.core.val fun c => c.setTile slot (s.shareTile q.core.val (c.tile slot) x)) s

/-- The shares of an attention whose row records stand at `rr`: a core's numerators in slot 1 come with its row records, and values of an EAU target
are numerators. -/
def State.takeAttn (s : State) (q : QRef) (rr : Nat) (l : List Share) : State :=
  l.foldl (fun s x => s.updCore q.core.val fun c =>
    match x with
    | .slots d _ =>
      let y := s.core d.val
      if d.val ≠ q.core.val ∧ y.ctx = c.ctx ∧ y.tile1.st ≠ .free ∧ y.tile1.attn = true ∧ y.tile1.mr = c.tile1.mr ∧ y.tile1.nc = c.tile1.nc then
        c.combineShare y rr y.tile1.rows
      else c
    | .target .. => { c with tile1 := s.shareTile q.core.val c.tile1 x }) s

/-- RET's checks (R120, R224, R627). -/
def State.retCheck (s : State) (q : QRef) (o : RetOps) : Option (Nat × Nat × Nat) :=
  let c := s.core q.core.val
  let t := c.tile o.t
  let rows := o.rows c t
  let nl := if o.blk && o.ori then t.nc else t.mr
  firstOf [
    if c.retirable o.t then none else some (0x23, o.t, 0),
    if o.blk && (bfbMalformed o.bfb o.psc || o.bfb % 16 != o.fd || (o.scat && o.ori)) then some (0x28, o.bfb + 256 * o.psc, 0) else none,
    if o.dk < 2 then misaligned o.ad o.align else none,
    if o.rrop = 0 then none else coreRegion o.ar (256 * t.mr) 64,
    if o.scat then coreRegion o.ax (4 * t.mr) 64 else none,
    if o.scat then c.access .F false o.ax (4 * t.mr) else none,
    if o.scat then badIndex rows o.n o.ax else none,
    if o.dk < 2 then (List.range nl).findSome? fun i => beyond (o.lineAt rows i) (o.lineLen t) else none,
    if o.dk < 2 then (List.range nl).findSome? fun i => c.access .F true (o.lineAt rows i) (o.lineLen t) else none,
    if o.rrop = 0 then none else c.access .F true o.ar (256 * t.mr),
    if 2 ≤ o.dk then (List.range t.mr).findSome? fun i => (List.range t.nc).findSome? fun j =>
      s.eauCheck (s.ctxOf q) (o.targetAt rows i j) (o.dk == 3) else none,
    (s.queue q).streamWrite o.reg]

/-- A new non-finite retire (R350). -/
def RetOps.newNonfinite (o : RetOps) (t : Tile) (out : List (List Fp)) : Bool :=
  o.dk == 0 && out.any (fun l => l.any fun v => !v.isFin) && (List.range t.mr).all fun i => (t.rowAcc i).all fun a => !a.special

/-- What a RET leaves beside its destination: row records, the retire record, and the slot kept or freed (R120, R140, R224, R225). -/
def State.retFinish (s : State) (q : QRef) (o : RetOps) (out : List (List Fp)) (cr sa : Nat) : State :=
  let c := s.core q.core.val
  let t := c.tile o.t
  let upd := fun (c : Core) (e : List Fp × Nat) =>
    let a := o.ar + 256 * e.2
    c.putRow a ((if o.rrop = 1 then {} else c.rowRec a).stats (o.dk != 0) e.1)
  let c := if o.rrop = 0 then c else out.zipIdx.foldl upd c
  let c := c.setTile o.t (if o.keep then { t with st := .retiring } else {})
  let r := retireRecord (if o.rrop = 0 then 0 else c.oorCount o.ar t.mr) sa cr (out.any fun l => l.any Fp.isNan) (out.any fun l => l.any Fp.isInf) o.t t.replays t.segs
  ((s.setCore q.core.val c).updQueue q fun x => x.setReg o.reg r).countCrush (s.ctxOf q) (s.epochOf (s.ctxOf q) (s.queue q)) o.cid cr sa

/-- A RET into the core store: each line of the tile at its place, and what a RET leaves (R115, R140). -/
def State.retStore (s : State) (q : QRef) (o : RetOps) : State :=
  let c := s.core q.core.val
  let t := c.tile o.t
  let rows := o.rows c t
  let ls := o.lines t
  let s := s.setCore q.core.val (ls.zipIdx.foldl (fun c (l, i) => c.write (o.lineAt rows i) l.bytes l.exps) c)
  s.retFinish q o (o.outputs t ls) (ls.map (·.crush)).sum (ls.map (·.sat)).sum

/-- The adds of a RET by exact adds: target, whether it is a W128 element, and accumulator of each cell (R115, R454). -/
def RetOps.adds (o : RetOps) (t : Tile) (rows : List Nat) : List (Nat × Bool × L640) :=
  (List.range t.mr).flatMap fun i => (List.range t.nc).map fun j => (o.targetAt rows i j, o.dk == 3, t.get (128 * i + j))

/-- The first poisoned place that a RET reads: its index list, the row records that it continues, or an output of its tile (R450). -/
def RetOps.poisoned (o : RetOps) (c : Core) : Option Nat :=
  ((if o.scat && linePoisoned c.poison o.ax (4 * (c.tile o.t).mr) then some o.ax else none).or
    (if o.rrop = 2 && linePoisoned c.poison o.ar (256 * (c.tile o.t).mr) then some o.ar else none)).or (c.accPoison o.t)

/-- The slot of a tile whose RET is in flight or held for a replay is retiring (R151). -/
def State.retireTile (s : State) (q : QRef) (t : Nat) : State :=
  s.updCore q.core.val fun c => c.setTile t { c.tile t with st := .retiring }

/-- RET retires a tile into the core store, or by exact adds (R115), once the shares that have reached it are added (R106, R107).  `check`: what comes
from outside the queue; `forced`: the replay of R350 has resolved. -/
def bodyRet (check : RetCheck) (forced : Bool) (q : QRef) (s : State) (w : Nat) : Act :=
  let o := retOps (s.queue q) w
  .check s (s.retCheck q o) <|
    match o.poisoned (s.core q.core.val) with
    | some a => hc60 s q a
    | none =>
      let s := s.takeShares q o.t check.shares
      let c := s.core q.core.val
      let t := c.tile o.t
      let ls := if o.dk < 2 then o.lines t else []
      match if forced then Hold.no else s.holdFor q check.find (o.newNonfinite t (o.outputs t ls)) with
      | .doubt => .stopped ((s.logFault 0xFB 0x05 5 (some q.core.val) (some (s.ctxOf q)) (coreDie q.core.val) s.syndrome 0).enterSafeHold 0)
      | .replay s t => .wait (s.retireTile q o.t) (s.replayWait q.core.val 0 t) false
      | .no =>
        if o.dk < 2 then .done (s.retStore q o)
        else
          .go ((s.retireTile q o.t).putAdds q s.nextId (s.ctxOf q) (s.epochOf (s.ctxOf q) (s.queue q)) (o.adds t (o.rows c t))) (.adds 0) [] .seq

def execRet (at_ : QRef) (check : RetCheck) (s : State) : Host.Outcome State Fault Refusal :=
  issue 0x400 true at_ s (bodyRet check false at_ s)

/-! ### NORM (R134) -/

/-- One normalised output: numerator over denominator, rounded once; whether the row is EMPTY (R134). -/
def normOut (f : Ff) (invalid : Bool) (n d : L640) : Nat × Bool :=
  if invalid || n.special || d.special then (f.cnan, false)
  else if d.acc = 0 then (0, true)
  else if n.acc = 0 then (0, false)
  else ((f.round ((n.k < 0) != (d.k < 0)) n.k.natAbs d.k.natAbs 0).bits, false)

/-- The slots of an attention are in this state, and its T instructions have retired. -/
def Core.attnIn (c : Core) (st : TileState) : Bool :=
  c.tile0.st == st && c.tile0.attn && c.tile1.st == st && c.tile1.attn && c.qT.inflight.isEmpty

/-- Segments and replays of the tiles of both slots (log entry 97). -/
def Core.attnSegs (c : Core) : Nat := sat (c.tile0.segs + c.tile1.segs) 15
def Core.attnReplays (c : Core) : Nat := sat (c.tile0.replays + c.tile1.replays) 15

/-- NORM's checks (R134, R206, R224).  `st`: what its slots must hold, an open attention, or, after a tile replay, the one that it left retiring. -/
def State.normCheck (s : State) (q : QRef) (st : TileState) (o : RetOps) : Option (Nat × Nat × Nat) :=
  let c := s.core q.core.val
  let t := c.tile1
  firstOf [
    if c.attnIn st then none else some (0x23, o.t, 0),
    if Fmt.isBlock o.fd then some (0x29, o.fd, 0) else none,
    misaligned o.ad (Fmt.align o.fd),
    coreRegion o.ar (256 * t.mr) 64,
    (List.range t.mr).findSome? fun i => beyond (Bits.wrap (o.ad + i * o.pitch : Nat) 64) (Fmt.stride o.fd * t.nc),
    (List.range t.mr).findSome? fun i => c.access .F true (Bits.wrap (o.ad + i * o.pitch : Nat) 64) (Fmt.stride o.fd * t.nc),
    c.access .F true o.ar (256 * t.mr),
    (s.queue q).streamWrite o.reg]

/-- The outputs of a row, and whether its denominator is zero. -/
def Core.normRow (c : Core) (o : RetOps) (i : Nat) : List Nat × Bool :=
  let r := c.rowRec (o.ar + 256 * i)
  let l := (c.tile1.rowAcc i).map fun n => normOut ((Fmt.ff o.fd).getD Ff.b32) (r.status % 4 == 1) n r.sum
  (l.map (·.1), l.any (·.2))

/-- A NORM of both tile slots: each row normalised at its place, EMPTY rows marked, both slots freed, and the retire record (R134, R224). -/
def State.normStore (s : State) (q : QRef) (o : RetOps) : State :=
  let c := s.core q.core.val
  let t := c.tile1
  let f := (Fmt.ff o.fd).getD Ff.b32
  let rows := (List.range t.mr).map (c.normRow o)
  let vals := rows.flatMap fun r => r.1.map (Fp.decode f)
  let put := fun (c : Core) (e : (List Nat × Bool) × Nat) =>
    let vs := e.1.1.map (Fp.decode f)
    let c := c.write (Bits.wrap (o.ad + e.2 * o.pitch : Nat) 64) (e.1.1.flatMap (Bits.toBytes (Fmt.stride o.fd)))
      (vs.flatMap fun v => List.replicate (Fmt.stride o.fd) (Fmt.expOf v))
    let a := o.ar + 256 * e.2
    let r := c.rowRec a
    if e.1.2 then c.putRow a { r with status := r.status ||| 4 } else c
  let rec_ := retireRecord (c.oorCount o.ar t.mr) 0 0 (vals.any Fp.isNan) (vals.any Fp.isInf) o.t c.attnReplays c.attnSegs
  (s.setCore q.core.val { rows.zipIdx.foldl put c with tile0 := {}, tile1 := {} }).updQueue q fun x => x.setReg o.reg rec_

/-- A new non-finite output of a NORM: none of its slots is special (R350). -/
def Core.normNewNonfinite (c : Core) (o : RetOps) : Bool :=
  let t := c.tile1
  let f := (Fmt.ff o.fd).getD Ff.b32
  ((List.range t.mr).all fun i => !(c.rowRec (o.ar + 256 * i)).sum.special && (t.rowAcc i).all fun a => !a.special)
    && ((List.range t.mr).map (c.normRow o)).any fun r => r.1.any fun v => !(Fp.decode f v).isFin

/-- The first poisoned place that a NORM reads: the row records, or a numerator (R450). -/
def RetOps.normPoisoned (o : RetOps) (c : Core) : Option Nat :=
  (if linePoisoned c.poison o.ar (256 * c.tile1.mr) then some o.ar else none).or (c.accPoison 1)

/-- Both slots of an attention are retiring while its NORM is held for a replay (R151). -/
def State.retireAttn (s : State) (q : QRef) : State := (s.retireTile q 0).retireTile q 1

def bodyNorm (check : RetCheck) (forced : Bool) (q : QRef) (s : State) (w : Nat) : Act :=
  let o := retOps (s.queue q) w
  .check s (s.normCheck q (if forced then .retiring else .accumulating) o) <|
    match o.normPoisoned (s.core q.core.val) with
    | some a => hc60 s q a
    | none =>
      let s := s.takeAttn q o.ar check.shares
      match if forced then Hold.no else s.holdFor q check.find ((s.core q.core.val).normNewNonfinite o) with
      | .doubt => .stopped ((s.logFault 0xFB 0x05 5 (some q.core.val) (some (s.ctxOf q)) (coreDie q.core.val) s.syndrome 0).enterSafeHold 0)
      | .replay s t => .wait (s.retireAttn q) (s.replayWait q.core.val 0 t) false
      | .no => .done (s.normStore q o)

/-- NORM writes the normalised attention outputs and frees both tile slots. -/
def execNorm (at_ : QRef) (check : RetCheck) (s : State) : Host.Outcome State Fault Refusal :=
  issue 0x401 true at_ s (bodyNorm check false at_ s)

/-! ### NSQ and CENS (R310, R317, R324, R627) -/

/-- What NSQ and CENS read: format, base, group-record base, block-format byte, count. -/
structure SrcOps where
  f : Nat
  a : Nat
  ax : Nat
  bfb : Nat
  n : Nat
deriving DecidableEq, Repr

def srcOps (x : QueueSt) (w : Nat) : SrcOps :=
  { f := Bits.fld w 44 4, a := x.a (Bits.fld w 72 4), ax := x.a (Bits.fld w 84 4), bfb := Bits.fld w 56 8, n := x.s (Bits.fld w 93 5) }

/-- The checks of a W128 source of `n` elements at `a` with group records at `ax` (R310): HC-33, then an address, spill slots too, that no mapping
covers, HC-48, then a malformed anchor, HC-31. -/
def State.w128Source (s : State) (k a ax n : Nat) : Option (Nat × Nat × Nat) :=
  if n = 0 then none
  else
    match s.storeAt k a with
    | none => some (0x33, 0, a)
    | some (_, g, p) =>
      if g.nelem < p + n ∨ ax ≠ g.recAt p then some (0x33, 0, a)
      else
        match s.memCheck k a (16 * n), s.memCheck k ax (64 * ((p + n - 1) / 64 - p / 64 + 1)) with
        | some (b, _), _ => some (0x48, 0, b)
        | _, some (b, _) => some (0x48, 0, b)
        | _, _ =>
          (((List.range n).findSome? fun i => s.partsStop k ((s.w128Parts k (a + 16 * i)).drop 1)).map fun e => (0x48, 0, e.2.2)).or <|
            (List.range ((p + n - 1) / 64 - p / 64 + 1)).findSome? fun i =>
              let r := s.memNat k (ax + 64 * i) 64
              if Fmt.anchorOk (Fmt.grpAnchor r) then none else some (0x31, Bits.fld r 256 16, ax + 64 * i)

/-- A poisoned line that a W128 source reads. -/
def State.w128Poison (s : State) (k a n : Nat) : Option Nat :=
  match s.storeAt k a with
  | none => none
  | some (_, g, p) =>
    (List.range n).findSome? fun i =>
      let st := Fmt.grpState (s.memNat k (g.recAt (p + i)) 64) ((p + i) % 64)
      let sl := g.slotAt (s.memNat k (a + 16 * i) 16 % 2 ^ 32)
      if s.memPoisoned k (a + 16 * i) 16 then some (a + 16 * i)
      else if s.memPoisoned k (g.recAt (p + i)) 64 then some (g.recAt (p + i))
      else if Bits.bit st 3 && s.memPoisoned k sl 96 then some sl else none

/-- The elements of a W128 source. -/
def State.w128Vals (s : State) (k a n : Nat) : List L640 :=
  match s.storeAt k a with
  | some (_, g, p) => (List.range n).map fun i => s.w128Read k g (p + i)
  | none => []

/-- Bytes of a core-local source. -/
def SrcOps.bytes (o : SrcOps) : Nat := Fmt.rowBytes o.f (Bits.fld o.bfb 5 2) o.n

/-- The checks of the source. -/
def State.srcCheck (s : State) (q : QRef) (o : SrcOps) : Option (Nat × Nat × Nat) :=
  let c := s.core q.core.val
  if o.f = 7 then firstOf [misaligned o.a 16, misaligned o.ax 64, s.w128Source (s.ctxOf q) o.a o.ax o.n]
  else firstOf [
    if Fmt.isBlock o.f && (o.bfb % 16 != o.f || Bits.bit o.bfb 4 || Bits.bit o.bfb 7) then some (0x28, o.bfb, 0) else none,
    coreRegion o.a o.bytes (Fmt.align o.f),
    c.access .F false o.a o.bytes]

/-- The exact values of the source (R55, R69, R627). -/
def State.srcVals (s : State) (q : QRef) (o : SrcOps) : List Fp :=
  let c := s.core q.core.val
  if o.f = 7 then (s.w128Vals (s.ctxOf q) o.a o.n).map L640.read
  else if o.f = 8 then (List.range o.n).map fun i => (L640.ofNat (c.readNat (o.a + 96 * i) 96)).read
  else (List.range o.n).map fun i => c.elem o.f (Bits.fld o.bfb 5 2) o.a i

/-- The first element, or block record, of the source with a poisoned line (R230, R450). -/
def State.srcPoison (s : State) (q : QRef) (o : SrcOps) : Option Nat :=
  let bs := Bits.fld o.bfb 5 2
  let bad := linePoisoned (s.core q.core.val).poison
  if o.f = 7 then s.w128Poison (s.ctxOf q) o.a o.n
  else if Fmt.isBlock o.f then firstElem bad o.a (Fmt.recBytes bs) (Bits.cdiv o.n (Fmt.blockSize bs))
  else firstElem bad o.a (if o.f = 8 then 96 else Fmt.stride o.f) o.n

/-- A malformed block in the source is numeric evidence (R56, R352). -/
def State.srcEvidence (s : State) (q : QRef) (o : SrcOps) : State :=
  let c := s.core q.core.val
  let bs := Bits.fld o.bfb 5 2
  let bad := Fmt.isBlock o.f && (List.range (Bits.cdiv o.n (Fmt.blockSize bs))).any fun i =>
    Fmt.malformed bs (c.readNat (o.a + i * Fmt.recBytes bs) 4)
  s.evidence (s.ctxOf q) (s.epochOf (s.ctxOf q) (s.queue q)) bad

/-- The sum of squares that NSQ adds: each value rounded once to binary32, squared exactly (R317). -/
def squares (l : List Fp) : L640 :=
  l.foldl (fun a v =>
    match v with
    | .nan .. => a.addFp v
    | _ => a.addFp (squareFp (Fp.decode Ff.b32 (toB32 v)))) {}

/-- NSQ adds exact squares into an L640 slot of the core store (DK 0) or an EAU target (DK 2). -/
def bodyNsq (q : QRef) (s : State) (w : Nat) : Act :=
  let x := s.queue q
  let o := srcOps x w
  let c := s.core q.core.val
  let ad := x.a (Bits.fld w 76 4)
  let eau := Bits.fld w 41 3 = 2
  let reg := Bits.fld w 98 6
  let k := s.ctxOf q
  .check s (firstOf [
      if eau then none else misaligned ad 32,
      s.srcCheck q o,
      if eau then s.eauCheck k ad false else firstOf [beyond ad 96, c.access .F true ad 96],
      x.streamWrite reg]) <|
    match s.srcPoison q o with
    | some a => hc60 s q a
    | none =>
      let y := squares (s.srcVals q o)
      let s := s.srcEvidence q o
      if eau then .go (s.putAdds q s.nextId k (s.epochOf k x) [(ad, false, y)]) (.adds (retireRecord 0 0 0 y.read.isNan y.read.isInf 0 0 0)) [] .seq
      else if linePoisoned c.poison ad 96 then hc60 s q ad
      else
        let s := s.updCore q.core.val fun c => c.write ad (Bits.toBytes 96 ((L640.ofNat (c.readNat ad 96)).add y).toNat) []
        .done (s.updQueue q fun x => x.setReg reg 0)

def execNsq (at_ : QRef) (s : State) : Host.Outcome State Fault Refusal := issue 0x402 true at_ s (bodyNsq at_ s)

/-- What an element adds to the census (R324). -/
def Census.countElem (c : Census) (uexp : Int) (v : Fp) : Census :=
  { c with
    elems := c.elems + 1
    zero := c.zero + (if v.isZero then 1 else 0)
    under := c.under + (if v.isFin && !v.isZero && v.val.abs.lt (Dy.pow2 uexp) then 1 else 0)
    nonfin := c.nonfin + (if v.isFin then 0 else 1) }

/-- CENS counts elements into the gradient census of tensor CID. -/
def execCens (at_ : QRef) (s : State) : Host.Outcome State Fault Refusal :=
  issue 0x403 true at_ s fun w =>
    let x := s.queue at_
    let o := srcOps x w
    let reg := Bits.fld w 98 6
    let k := s.ctxOf at_
    .check s (firstOf [s.srcCheck at_ o, x.streamWrite reg]) <|
      match s.srcPoison at_ o with
      | some a => hc60 s at_ a
      | none =>
        let vs := s.srcVals at_ o
        let s := s.srcEvidence at_ o
        let u := s.ival CENS_UEXP (k + 1)
        let s := if vs.isEmpty then s
          else s.updCensus k (s.epochOf k x) (Bits.fld w 112 16) fun c => vs.foldl (fun c v => c.countElem u v) c
        .done (s.updQueue at_ fun x => x.setReg reg 0)

/-! ### The end of a replay (Table 10-5) -/

/-- The F instruction held at the replay completes. -/
def State.endReplay (s : State) (q : QRef) : State :=
  match (s.queue q).fetch with
  | some w => if Bits.fld w 0 8 = 0 then s.resume 0x400 q (bodyRet {} true q) else s.resume 0x401 q (bodyNorm {} true q)
  | none => s

/-- The epoch's residue verdict is REPAIRED (R352). -/
def State.markRepaired (s : State) (k : Nat) (ep : Option Nat) : State :=
  match ep with
  | some n => s.updEpoch k n fun e => { e with repaired := true }
  | none => s

/-- One more tile replay of the epoch (REPL of Table 10-10). -/
def State.countReplay (s : State) (k : Nat) (ep : Option Nat) : State :=
  match ep with
  | some n => s.updEpoch k n fun e => { e with repl := e.repl + 1 }
  | none => s

/-- A replay whose residue check passes, by its trigger (Table 10-5, R359): the state with what it logs, or none for DOUBT.  The loser of two
twins is retired at the next step boundary, as every other core that a replay convicts (DESIGN CHOICE, log entry 104). -/
def State.replayed (s : State) (core k : Nat) (ep : Option Nat) (t : Trigger) (x : ReplayCheck) : Option State :=
  match t with
  | .residue => some ((s.logCore 0xFB 0x03 1 core (some k)).markRepaired k ep)
  | .nonfinite => some (if x.identical then s else (s.logCore 0xFC 0x01 4 core (some k)).markRepaired k ep)
  | .twin =>
    if x.identical then some (match s.twinOf core with | some c => s.logCore 0xFC 0x02 4 c (some k) | none => s)
    else if x.twinMatch then some (s.logCore 0xFC 0x02 4 core (some k))
    else none

/-- TILE_REPLAY_DONE: a replay of the held retire ends (Table 10-5).  One that waits for a spare has not begun, unless a spare has become
idle since. -/
def execTileReplayDone (core : CoreId) (residuePass : Bool) (found : ReplayCheck) (s : State) : Host.Outcome State Fault Refusal :=
  onCore core.val s fun s =>
    let q : QRef := ⟨core, .F⟩
    let x := s.queue q
    let k := s.ctxOf q
    match x.wait with
    | some (.replay after t on) =>
      match on.or (s.replaySpare core.val after) with
      | none => s
      | some spare =>
        -- a spare under test starts the test again once the replay is done (R599)
        let s : State := { s with testAt := Tab.set [] s.testAt spare s.stepsNow }
        let ep := s.epochOf k x
        let s := (s.countDie TILE_REPLAYS (coreDie core.val) 1).countReplay k ep
        if residuePass then
          match s.replayed core.val k ep t found with
          | some s => (s.endReplay q).retireIdle
          | none => s.doubt core.val (some k)
        else if after = 0 then
          let s := s.logCore 0xFB 0x04 4 spare (some k)
          let w := s.replayWait core.val (replayPlace core.val spare + 1) t
          s.updQueue q fun x => { x with wait := some w }
        else s.doubt spare (some k)
    | _ => s

end Sys2Proof.Machine
end

