-- ==== Sys2Proof/Machine/Outrider.lean ====
section
/-!
DEFINITION. Outrider (chapter 8): descriptors and their slots, chunks, runs and transfers, prefetches, faults in a stream.
-/

namespace Sys2Proof.Machine

open Sys2Proof.WB

/-! ### Descriptors (Table 8-1) -/

/-- The fields of a descriptor. -/
structure Desc where
  src : Nat
  dst : Nat
  sstr3 : Int
  sstr2 : Int
  sstr1 : Int
  dstr3 : Int
  dstr2 : Int
  dstr1 : Int
  cnt3 : Nat
  cnt2 : Nat
  cnt1 : Nat
  len0 : Nat
  peer : Nat
  dring : Nat
  dmp : Nat
  dinc : Nat
  emp : Nat
  eos : Bool
  srck : Nat
  dstk : Nat
  sumf : Nat
  sbs : Nat
deriving DecidableEq, Repr

def descOf (d : Nat) : Desc where
  src := Bits.fld d 448 64
  dst := Bits.fld d 384 64
  sstr3 := Bits.signed (Bits.fld d 352 32) 32
  sstr2 := Bits.signed (Bits.fld d 320 32) 32
  sstr1 := Bits.signed (Bits.fld d 288 32) 32
  dstr3 := Bits.signed (Bits.fld d 256 32) 32
  dstr2 := Bits.signed (Bits.fld d 224 32) 32
  dstr1 := Bits.signed (Bits.fld d 192 32) 32
  cnt3 := Bits.fld d 176 16
  cnt2 := Bits.fld d 160 16
  cnt1 := Bits.fld d 144 16
  len0 := Bits.fld d 120 24
  peer := Bits.fld d 110 10
  dring := Bits.fld d 102 8
  dmp := Bits.fld d 89 13
  dinc := Bits.fld d 83 6
  emp := Bits.fld d 70 13
  eos := Bits.bit d 69
  srck := Bits.fld d 67 2
  dstk := Bits.fld d 65 2
  sumf := Bits.fld d 61 4
  sbs := Bits.fld d 59 2

/-- A malformed descriptor (R273). -/
def descMalformed (d : Nat) : Bool :=
  let x := descOf d
  let odd32 (i : Int) : Bool := i % 32 != 0
  Bits.fld d 0 59 != 0 || x.srck == 3 || x.dstk == 3 || (x.srck != 0 && x.dstk != 0)
    || 639 < x.peer || (x.peer != 0 && x.srck != 2 && x.dstk != 2)
    || x.cnt1 == 0 || x.cnt2 == 0 || x.cnt3 == 0 || x.len0 == 0
    || [(x.len0 : Int), x.src, x.dst, x.sstr1, x.sstr2, x.sstr3, x.dstr1, x.dstr2, x.dstr3].any odd32
    || (x.dinc == 0 && x.dmp != 0) || (!x.eos && x.emp != 0)
    || !List.contains [0, 1, 2, 4, 5, 15] x.sumf || (x.sbs != 0 && x.sumf != 4 && x.sumf != 5)

/-- Source and destination of the run (i2, i1) of chunk i3 (R276). -/
def Desc.runAt (x : Desc) (i3 i2 i1 : Nat) : Nat × Nat :=
  let j := if x.dring = 0 then i3 else i3 % x.dring
  (Bits.wrap (x.src + i1 * x.sstr1 + i2 * x.sstr2 + i3 * x.sstr3) 64, Bits.wrap (x.dst + i1 * x.dstr1 + i2 * x.dstr2 + j * x.dstr3) 64)

/-- The core of the descriptor's peer role, if the context has one. -/
def State.peerOf (s : State) (k : Nat) (x : Desc) : Option Nat := (s.ctx k).roles[x.peer]?

/-- The slot is busy. -/
def SlotState.busy (x : SlotState) : Bool := !(x == .empty || x == .armed)

/-! ### Slot instructions (Table 6-9) -/

/-- A run in flight of this core's O queue writes core-local bytes of [a, a + n). -/
def Core.runWrites (c : Core) (a n : Nat) : Bool :=
  c.slots.any fun e =>
    e.2.run.isSome && (
      let x := descOf e.2.desc.toNat
      x.dstk == 0 && (List.range x.cnt2).any fun i2 => (List.range x.cnt1).any fun i1 =>
        let d := (x.runAt e.2.chunk i2 i1).2
        decide (d < a + n) && decide (a < d + x.len0))

/-- The descriptor that DARM and DREARM load: its address and bits, with the checks of R174, R206 and R274. -/
def loadDesc (q : QRef) (s : State) (w : Nat) (go : Nat → BitVec 512 → Act) : Act :=
  let c := s.core q.core.val
  let a := addImm ((s.queue q).a (Bits.fld w 38 4)) (imm32 w 96)
  .check s (firstOf [coreRegion a 64 64, c.access q.queue false a 64]) <|
    if c.runWrites a 64 then .notYet
    else if linePoisoned c.poison a 64 then hc60 s q a
    else
      let d := c.readNat a 64
      if descMalformed d then .halt s 0x41 (Bits.fld w 32 6) a else go a (BitVec.ofNat 512 d)

/-- DARM loads a descriptor into an idle slot; it waits for a busy one (R215, R288). -/
def bodyDarm (q : QRef) (s : State) (w : Nat) : Act :=
  let ds := Bits.fld w 32 6
  if ((s.core q.core.val).slot ds).st.busy then .wait s (.slot ds) false
  else loadDesc q s w fun a d => .done (s.updCore q.core.val fun c => c.setSlot ds (armedSlot d a))

def execDarm (at_ : QRef) (s : State) : Host.Outcome State Fault Refusal := issue 0x100 false at_ s (bodyDarm at_ s)

/-- DREARM: on a busy slot the descriptor is pending; a second one waits (R216, R288). -/
def bodyDrearm (q : QRef) (s : State) (w : Nat) : Act :=
  let ds := Bits.fld w 32 6
  let x := (s.core q.core.val).slot ds
  if x.st.busy && x.pend.isSome then .wait s (.slot ds) false
  else loadDesc q s w fun a d =>
    .done (s.updCore q.core.val fun c => c.setSlot ds (if x.st.busy then { x with pend := some (d, a) } else armedSlot d a))

def execDrearm (at_ : QRef) (s : State) : Host.Outcome State Fault Refusal := issue 0x101 false at_ s (bodyDrearm at_ s)

/-- The core-store ranges that the chunk of a slot reads, or writes: core and first byte of each run (R275, R276). -/
def State.sidesOf (s : State) (c k chunk : Nat) (x : Desc) (dest : Bool) : List (Nat × Nat) :=
  let kind := if dest then x.dstk else x.srck
  if kind = 1 then []
  else
    let o := if kind = 2 then (s.peerOf k x).getD c else c
    (List.range x.cnt2).flatMap fun i2 => (List.range x.cnt1).map fun i1 =>
      let r := x.runAt chunk i2 i1
      (o, if dest then r.2 else r.1)

/-- Ranges of `n` bytes and of `m` bytes share a byte. -/
def sidesMeet (l : List (Nat × Nat)) (n : Nat) (l' : List (Nat × Nat)) (m : Nat) : Bool :=
  l.any fun a => l'.any fun b => a.1 == b.1 && decide (a.2 < b.2 + m) && decide (b.2 < a.2 + n)

/-- The chunk that slot `ds` is about to run touches core-store bytes that a run of an earlier instruction of this O queue still writes, or
would overwrite bytes that one still reads (R167).  A held prefetch is R292's concern. -/
def State.slotHazard (s : State) (c k ds : Nat) : Bool :=
  let x := (s.core c).slot ds
  let d := descOf x.desc.toNat
  let rd := s.sidesOf c k x.chunk d false
  let wr := s.sidesOf c k x.chunk d true
  (s.core c).slots.any fun e =>
    e.1 != ds && e.2.run.isSome && e.2.st != .held && (
      let y := descOf e.2.desc.toNat
      let rd' := s.sidesOf c k e.2.chunk y false
      let wr' := s.sidesOf c k e.2.chunk y true
      sidesMeet rd d.len0 wr' y.len0 || sidesMeet wr d.len0 wr' y.len0 || sidesMeet wr d.len0 rd' y.len0)

/-- The peer side of a descriptor whose role has no core: the address of its first run (R280). -/
def State.peerMissing (s : State) (k chunk : Nat) (x : Desc) : Option Nat :=
  if x.srck ≠ 2 ∧ x.dstk ≠ 2 then none
  else if (s.peerOf k x).isSome then none
  else let r := x.runAt chunk 0 0; some (if x.srck = 2 then r.1 else r.2)

/-- The advances of a DGO at its retire point (R279). -/
def Desc.advs (x : Desc) (chunk : Nat) : List (Nat × AdvMode × Nat) :=
  (if x.dinc = 0 then [] else [(x.dmp, .add, x.dinc)]) ++ (if x.eos && chunk + 1 == x.cnt3 then [(x.emp, .add, 1)] else [])

/-- A Milepost of the descriptor that the context may not advance (R279). -/
def State.descRefused (s : State) (k : Nat) (x : Desc) : Option Nat :=
  ((if x.dinc = 0 then [] else [x.dmp]) ++ (if x.eos then [x.emp] else [])).find? fun mp => !s.mayAdvance k mp

/-- DGO runs the chunk that CHUNK names (R167, R276, R279, R280, R288). -/
def bodyDgo (q : QRef) (s : State) (w : Nat) : Act :=
  let ds := Bits.fld w 32 6
  let k := s.ctxOf q
  let x := (s.core q.core.val).slot ds
  let d := descOf x.desc.toNat
  if x.st = .empty then .halt s 0x42 ds 0
  else if x.st.busy then .wait s (.slot ds) false
  else
    match s.descRefused k d with
    | some mp => .halt s 0x19 mp 0
    | none =>
      match s.peerMissing k x.chunk d with
      | some a => .halt s 0x43 ds a
      | none =>
        if s.slotHazard q.core.val k ds then .notYet
        else
        let run : ChunkRun := { instr := s.nextId, epoch := s.epochOf k (s.queue q) }
        .go (s.updCore q.core.val fun c => c.setSlot ds { x with st := .running, run := some run }) (.dgo ds) (d.advs x.chunk) .seq

def execDgo (at_ : QRef) (s : State) : Host.Outcome State Fault Refusal := issue 0x102 false at_ s (bodyDgo at_ s)

/-- PREF fetches the chunk, unconfirmed until its Milepost reaches the value operand (R167, R290, R291). -/
def bodyPref (q : QRef) (s : State) (w : Nat) : Act :=
  let ds := Bits.fld w 32 6
  let k := s.ctxOf q
  let x := (s.core q.core.val).slot ds
  let d := descOf x.desc.toNat
  let mp := Bits.fld w 48 13
  if !(s.mpEntry k mp).valid then .halt s 0x19 mp 0
  else if x.st = .empty then .halt s 0x42 ds 0
  else if x.st.busy then .wait s (.slot ds) false
  else if d.dstk ≠ 0 then .halt s 0x41 ds x.addr
  else
    match s.peerMissing k x.chunk d with
    | some a => .halt s 0x43 ds a
    | none =>
      if s.slotHazard q.core.val k ds then .notYet
      else
      let v := addImm ((s.queue q).reg (Bits.fld w 42 6)) (imm32 w 96)
      let ep := s.epochOf k (s.queue q)
      let run : ChunkRun :=
        { pref := true, instr := s.nextId, reached := decide (v ≤ s.mpSeen k mp ep), mp := mp, value := BitVec.ofNat 64 v, epoch := ep }
      .go (s.updCore q.core.val fun c => c.setSlot ds { x with st := .prefetching, run := some run }) (.pref ds) [] .seq

def execPref (at_ : QRef) (s : State) : Host.Outcome State Fault Refusal := issue 0x103 false at_ s (bodyPref at_ s)

/-- DSTOP cancels a held prefetch and discards a pending re-arm; the slot ends ARMED, or EMPTY if it was (R289, R293).  It retires with the
slot idle (Table 6-9), so it waits for a confirmed prefetch whose rest still runs. -/
def bodyDstop (q : QRef) (s : State) (w : Nat) : Act :=
  let c := q.core.val
  let ds := Bits.fld w 32 6
  let x := (s.core c).slot ds
  if x.st = .running ∨ x.st = .paused then .wait s (.slot ds) false
  else
    let held := match x.run with
      | some r => r.pref
      | none => false
    let y : DSlot := { x with st := (if x.st = .empty then .empty else .armed), run := none, pff := false, pend := none }
    let s := s.updCore c fun co => co.setSlot ds y
    .done (if held then s.countDie PREF_CANCELLED (coreDie c) 1 else s)

def execDstop (at_ : QRef) (s : State) : Host.Outcome State Fault Refusal := issue 0x104 true at_ s (bodyDstop at_ s)

/-- Outstanding transfers of a slot (R284). -/
def DSlot.out (x : DSlot) : Nat := match x.run with | some r => r.out.length | none => 0

def SlotState.num : SlotState → Nat
  | .empty => 0
  | .armed => 1
  | .running => 2
  | .prefetching => 3
  | .held => 4
  | .paused => 5

/-- The slot state word of Table 8-4. -/
def DSlot.word (x : DSlot) : Nat :=
  2 ^ 47 * x.out + 2 ^ 31 * x.chunk + 2 ^ 15 * x.passes + 64 * Bits.ofBool x.pff + 32 * Bits.ofBool x.pend.isSome + x.st.num

/-- DSTAT: R[RV] = the slot state word. -/
def execDstat (at_ : QRef) (s : State) : Host.Outcome State Fault Refusal :=
  issue 0x105 false at_ s fun w =>
    s.writeReg at_ (Bits.fld w 42 6) ((s.core at_.core.val).slot (Bits.fld w 32 6)).word .done

/-- DESCRIPTOR_SLOT_READY: an O instruction that waits for slot `slot` looks at it again (R216, R288). -/
def execDescriptorSlotReady (core : CoreId) (slot : Fin 64) (s : State) : Host.Outcome State Fault Refusal :=
  onCore core.val s fun s =>
    let q : QRef := ⟨core, .O⟩
    let x := s.queue q
    match x.wait, x.fetch with
    | some (.slot ds), some w =>
      if ds ≠ slot.val then s
      else
        match Bits.fld w 0 8 with
        | 0 => s.resume 0x100 q (bodyDarm q)
        | 1 => s.resume 0x101 q (bodyDrearm q)
        | 2 => s.resume 0x102 q (bodyDgo q)
        | 4 => s.resume 0x104 q (bodyDstop q)
        | _ => s.resume 0x103 q (bodyPref q)
    | _, _ => s

/-! ### Exponent summaries of what Outrider writes (R281) -/

/-- The exponent that each byte of a run contributes, for the format SUMF. -/
def runExps (sumf sbs : Nat) (bs : List Byte) : List (Option Int) :=
  if sumf = 15 then noFormat bs.length
  else if Fmt.isBlock sumf then
    let rb := Fmt.recBytes sbs
    (List.range (Bits.cdiv bs.length rb)).flatMap fun i =>
      let r := (bs.drop (i * rb)).take rb
      if r.length < rb then noFormat r.length
      else
        let hdr := Bits.ofBytes (r.take 4)
        List.replicate 4 none ++ ((r.drop 4).zipIdx.map fun (b, j) => Fmt.expOf (Fmt.blockVal sumf sbs hdr b.toNat j))
  else
    match Fmt.ff sumf with
    | none => noFormat bs.length
    | some f =>
      let n := Fmt.stride sumf
      (List.range (bs.length / n)).flatMap fun i =>
        List.replicate n (Fmt.expOf (Fp.decode f (Bits.ofBytes ((bs.drop (i * n)).take n))))

/-! ### Chunk ends -/

/-- A chunk is complete: CHUNK and PASSES advance and the slot is ARMED (R277, R288). -/
def DSlot.chunkDone (x : DSlot) : DSlot :=
  let last := x.chunk + 1 == (descOf x.desc.toNat).cnt3
  { x with chunk := (if last then 0 else x.chunk + 1), passes := (if last then sat (x.passes + 1) 65535 else x.passes) }.toArmed

/-- The run has issued and completed every transfer. -/
def ChunkRun.complete (r : ChunkRun) : Bool := r.issued && r.out.isEmpty

/-- The O queue has a DGO in flight on slot `ds`. -/
def State.dgoAt (s : State) (c ds : Nat) : Option InFlight := (s.core c).qO.inflight.find? fun i => i.work == .dgo ds

/-- A confirmed prefetch whose chunk is complete leaves its slot ARMED (R291). -/
def State.settleSlot (s : State) (c ds : Nat) : State :=
  let x := (s.core c).slot ds
  match x.run with
  | some r =>
    if !r.pref && r.complete && (s.dgoAt c ds).isNone then s.updCore c fun co => co.setSlot ds x.chunkDone else s
  | none => s

/-! ### Faults in a stream (R296 to R299) -/

/-- A fault halts the O queue at the DGO or PREF that runs the slot, or where it stands for a confirmed prefetch. -/
def State.haltStream (s : State) (core : CoreId) (ds hc detail addr : Nat) : State :=
  let q : QRef := ⟨core, .O⟩
  match (s.core core.val).qO.inflight.find? fun i => i.work == .dgo ds || i.work == .pref ds with
  | some i => s.haltIssued q i hc detail addr
  | none => s.haltQ q hc detail addr

/-- A fault of slot `ds` reaches the O queue when every earlier instruction has retired (R191): the slot's DGO or PREF is the oldest issued
instruction, or nothing is issued while the rest of a confirmed prefetch runs. -/
def State.streamTurn (s : State) (c ds : Nat) : Bool :=
  match (s.core c).qO.inflight with
  | [] => true
  | i :: _ => i.work == .dgo ds || i.work == .pref ds

/-- Cancel every prefetch of a context (R293). -/
def State.cancelAllPrefs (s : State) (k : Nat) : State :=
  ((s.ctxCores k).foldl (fun s c => s.cancelPrefs c fun _ => true) s).cancelSaved k fun _ => true

/-- The queue stands at a wait with nothing issued that has not retired. -/
def QueueSt.atWait (x : QueueSt) : Bool := x.wait.isSome && !x.replaying && x.inflight.isEmpty

/-- Every queue of a context that waits halts at once with HC-1C and DETAIL `d`; one that runs does so at its next retire
point (R198, R297). -/
def State.abortQueues (s : State) (k d : Nat) : State :=
  let s := s.eachQueue k fun s q => if (s.queue q).live && (s.queue q).atWait then s.haltRaw q 0x1C d 0 else s
  s.updCtx k fun c => { c with aborting := some d }

/-- A page fault that no one repairs aborts the whole task (Table 8-6). -/
def State.taskAbort (s : State) (core : CoreId) (ds addr : Nat) : State :=
  let c := s.core core.val
  let s := s.haltStream core ds 0x40 ds addr
  match c.ctx with
  | none => s
  | some k =>
    let rec_ := match (s.core core.val).qO.halt with | some h => h.toNat | none => 0
    let s := s.event 0x0005 (some k) 8 rec_
    ((s.abortQueues k 0x2000).cancelAllPrefs k).squashAllVote k

/-- Free frames of a target (R442, WB 0x2111): what WB shows for a stack, and for a CXL port its capacity less the pages
that lie on it. -/
def State.pagesOn (s : State) (t : Nat) : Nat :=
  ((List.range 16).map fun k =>
    ((List.range 64).map fun i =>
      match s.region k i with
      | some r => ((List.range r.npage).filter fun p => r.target (r.vbase + p * pageSize) == t && s.pagePresent k i r p).length
      | none => 0).sum).sum

/-- Frames of a target in all: 0x9E00 of each stack (Table 13-7), and what the port's device holds, of which at most 4 TiB are mapped (R438). -/
def State.framesOf (s : State) (t : Nat) : Nat :=
  if t < 16 then Dict.dflt FRAMES_FREE (t + 1)
  else if s.cxlDown.contains (t - 16) then 0
  else min (2 ^ 21) (((s.cxl.getD (t - 16) []).getD 3 0) / pageSize)

/-- Frames of a stack that the save areas take (R434). -/
def State.savesOn (s : State) (t : Nat) : Nat := ((List.range 16).map fun k => (s.ctx k).saveArea.getD t 0).sum

def State.freeOn (s : State) (t : Nat) : Nat := s.framesOf t - s.pagesOn t - s.savesOn t

/-- Make the page of a DEMAND region present (R444); none when no frame is free on its target. -/
def State.mapPage (s : State) (k va : Nat) : Option State :=
  match s.regionAt k va with
  | none => none
  | some (i, r) =>
    let p := (va - r.vbase) / pageSize
    if s.pagePresent k i r p then some s
    else if s.freeOn (r.target va) = 0 then none
    else some (s.updCtx k fun c => { c with present := Tab.set false c.present (2 ^ 27 * i + p) true })

/-- A stream meets a page that is not present: a task abort, or in a Phofer-compatible context a pause, which ends in an abort at once when
no frame is free (R297 to R299).  An abort waits until every earlier instruction has retired (R191). -/
def State.pageFault (s : State) (core : CoreId) (k ds addr : Nat) : State :=
  let turn := s.streamTurn core.val ds
  if !(s.ctx k).phofer then (if turn then s.taskAbort core ds addr else s)
  else
    let s := s.updCore core.val fun c => c.setSlot ds { c.slot ds with st := .paused }
    let s := s.countDie PAGE_PAUSES (coreDie core.val) 1
    if (s.mapPage k addr).isNone && turn then s.taskAbort core ds addr else s

/-! ### Transfers -/

/-- What stops a transfer: a halt code with DETAIL and ADDR, a page fault, or an uncorrectable line. -/
inductive Stop where
  | halt (hc detail addr : Nat)
  | page (addr : Nat)
  | poison (addr : Nat)
deriving DecidableEq, Repr

/-- The core-store side of a run: it lies within one buffer that the O queue holds, in write mode where it is written (R280). -/
def coreSide (c : Core) (wr : Bool) (a n : Nat) : Option Stop :=
  let around := c.buffers.filter fun e =>
    (e.2.writer == some .O || e.2.readers.contains .O) && decide (e.2.base ≤ a) && decide (a + n ≤ e.2.base + e.2.len)
  if storeSize < a + n then some (.halt 0x13 0 a)
  else
    match around with
    | [] => some (.halt 0x10 0 a)
    | e :: _ => if wr && !(around.any fun e => e.2.writer == some .O) then some (.halt 0x11 e.1 a) else none

/-- A kind-1 address of a transfer of slot `ds` (R296, R297, R441, R447); a window whose member is this device leads to the
address that it stands for. -/
def State.kind1 (s : State) (k ds : Nat) (dest : Bool) (a : Nat) : Option Stop :=
  match s.whereIs k a with
  | .mem => none
  | .notPresent => some (.page a)
  | .window w =>
    if !dest then some (.halt 0x43 ds a)
    else
      match s.cgroup k w.group with
      | some g =>
        if g.rank = w.rank ∧ s.whereIs k (w.rbase + (a - w.vbase)) ≠ .mem then some (.halt 0x43 ds (w.rbase + (a - w.vbase))) else none
      | none => some (.halt 0x43 ds a)
  | _ => some (.halt 0x43 ds a)

/-- The next transfer of a slot: the run's addresses, this transfer's, and its length (R283). -/
structure NextXfer where
  rs : Nat
  rd : Nat
  a : Nat
  b : Nat
  len : Nat
deriving DecidableEq, Repr

def Desc.next (x : Desc) (chunk : Nat) (r : ChunkRun) : NextXfer :=
  let (rs, rd) := x.runAt chunk r.i2 r.i1
  let a := Bits.wrap (rs + r.off : Nat) 64
  let b := Bits.wrap (rd + r.off : Nat) 64
  let cut := if x.dstk = 1 then b else a
  { rs := rs, rd := rd, a := a, b := b, len := min (x.len0 - r.off) (65536 - cut % 65536) }

/-- The stores of the two sides: own core store, or the peer's. -/
def State.sideCore (s : State) (c k : Nat) (x : Desc) (kind : Nat) : Nat := if kind = 2 then (s.peerOf k x).getD c else c

/-- The checks of R280, before the first transfer of a run: source, then destination. -/
def State.runStop (s : State) (c k : Nat) (x : Desc) (r : ChunkRun) (n : NextXfer) : Option Stop :=
  let side (dest : Bool) (kind ra : Nat) : Option Stop :=
    if kind = 1 ∨ r.off ≠ 0 then none else coreSide (s.core (s.sideCore c k x kind)) dest ra x.len0
  (side false x.srck n.rs).orElse fun _ => side true x.dstk n.rd

/-- Where a transfer's bytes land in this context's memory: a window of this device stands for RBASE and its offset (R447). -/
def State.landing (s : State) (k b : Nat) : Nat :=
  match s.whereIs k b with
  | .window w => w.rbase + (b - w.vbase)
  | _ => b

/-- What stops a transfer itself: its kind-1 address, its source, or a destination behind a CXL port that is down (R439). -/
def State.xferStop (s : State) (c k ds : Nat) (x : Desc) (n : NextXfer) : Option Stop :=
  let side (dest : Bool) (kind a : Nat) : Option Stop := if kind = 1 then s.kind1 k ds dest a else none
  match side false x.srck n.a with
  | some e => some e
  | none =>
    match side true x.dstk n.b with
    | some e => some e
    | none =>
      if (if x.srck = 1 then s.memPoisoned k n.a n.len else linePoisoned (s.core (s.sideCore c k x x.srck)).poison n.a n.len) then
        some (.poison n.a)
      else if x.dstk = 1 then (s.portLost k (s.landing k n.b) n.len).map .poison
      else none

/-- A run, or the next transfer of one that has begun, waits for the unconfirmed bytes of a prefetch of another slot, here or at the peer
(R292); of two unconfirmed prefetches the later waits. -/
def State.blocked (s : State) (c k ds : Nat) (x : Desc) (r : ChunkRun) (n : NextXfer) : Bool :=
  let len := if r.off = 0 then x.len0 else n.len
  let side (kind ra : Nat) : Bool :=
    if kind = 1 then false
    else
      let o := s.sideCore c k x kind
      let co := s.core o
      let co : Core := if o = c then { co with slots := co.slots.filter fun e => e.1 != ds } else co
      co.slots.any fun e =>
        match e.2.run with
        | some p => p.pref && (o != c || decide (p.instr < r.instr) || !r.pref) && e.2.covers ra len
        | none => false
  side x.srck n.a || side x.dstk n.b

/-- The position after a transfer of length `len`. -/
def ChunkRun.step (r : ChunkRun) (x : Desc) (len : Nat) : ChunkRun :=
  if r.off + len < x.len0 then { r with off := r.off + len }
  else if r.i1 + 1 < x.cnt1 then { r with off := 0, i1 := r.i1 + 1 }
  else if r.i2 + 1 < x.cnt2 then { r with off := 0, i1 := 0, i2 := r.i2 + 1 }
  else { r with issued := true }

/-- The bank that work of epoch `n` sees for tensor `t` of an open epoch's overlay, if one has written it (Table 10-3). -/
def Ctx.overlayAt (c : Ctx) (n t : Nat) : Option Nat :=
  (c.epochs.filter fun e => e.live && decide (e.n ≤ n)).foldl (fun b e => (Tab.get none e.overlay t).or b) none

/-- Device memory as work of an epoch reads it: the bank map through the overlay of the chain (R304, Table 10-3). -/
def State.memReadIn (s : State) (k : Nat) (ep : Option Nat) (a n : Nat) : List Byte :=
  let m := s.val BANKMAP_ADDR (k + 1)
  let l := s.memRead k a n
  match ep with
  | none => l
  | some e =>
    if a + n ≤ m ∨ m + 4096 ≤ a then l
    else
      let c := s.ctx k
      l.zipIdx.map fun (x, i) =>
        if m ≤ a + i ∧ a + i < m + 4096 then
          match c.overlayAt e (a + i - m) with
          | some b => BitVec.ofNat 8 b
          | none => x
        else x

/-- The source bytes of a range. -/
def State.sideRead (s : State) (c k : Nat) (x : Desc) (ep : Option Nat) (kind a n : Nat) : List Byte :=
  if kind = 1 then s.memReadIn k ep a n else (s.core (s.sideCore c k x kind)).read a n

/-- Cut bytes into pieces of at most 8,192, with their offsets. -/
def pieces (bs : List Byte) : List (Nat × List Byte) :=
  (List.range (Bits.cdiv bs.length 8192)).map fun i => (8192 * i, (bs.drop (8192 * i)).take 8192)

/-- The SEND messages of a transfer into the window `w` at `b` (R401). -/
def State.sendsOf (s : State) (k : Nat) (w : RWin) (b : Nat) (epoch : Option Nat) (bs : List Byte) (last : Bool) : List CMsg :=
  match s.cgroup k w.group with
  | none => []
  | some g =>
    (pieces bs).map fun (o, p) =>
      let h := g.hdr w.group 6 (epoch.getD 0) (s.runOf k (epoch.getD 0)) (s.pgen k)
      { hdr := { h with oprec := s.rwinNum k b, offset := (b - w.vbase + o) / 32, endB := last && o + p.length == bs.length }
        payload := .raw p }

/-- A SEND of a group of another job is a held effect (R345, R373); the others leave at once. -/
def State.sendOut (s : State) (k : Nat) (w : RWin) (epoch : Option Nat) (m : CMsg) : State :=
  match s.cgroup k w.group, epoch with
  | some g, some n => if g.xjob then s.updEpoch k n fun e => { e with effects := e.effects ++ [.send w.group w.rank m] } else s.sendMsg k w.group w.rank m
  | _, _ => s.sendMsg k w.group w.rank m

/-- The window that a transfer writes and whose member is another device. -/
def State.remoteWin (s : State) (k : Nat) (x : Desc) (b : Nat) : Option RWin :=
  if x.dstk ≠ 1 then none
  else
    match s.whereIs k b with
    | .window w =>
      match s.cgroup k w.group with
      | some g => if g.rank = w.rank then none else some w
      | none => none
    | _ => none

/-- Issue the transfer of a slot. -/
def State.putXfer (s : State) (c k ds : Nat) (x : Desc) (slot : DSlot) (r : ChunkRun) (n : NextXfer) : State :=
  let last := decide (x.len0 ≤ r.off + n.len)
  let rem := s.remoteWin k x n.b
  let bs := match rem with | some _ => s.sideRead c k x r.epoch x.srck n.a n.len | none => []
  let xjob := match rem with
    | some w => (match s.cgroup k w.group with | some g => g.xjob && r.epoch.isSome | none => false)
    | none => false
  let f : Xfer :=
    { n := r.next, src := n.a, dst := n.b, len := n.len, i2 := r.i2, i1 := r.i1, off := r.off, lastOfRun := last
      acks := if rem.isSome && !xjob then (pieces bs).length else 0 }
  let r' : ChunkRun := { r.step x n.len with next := r.next + 1, out := r.out ++ [f] }
  let s := s.updCore c fun co => co.setSlot ds { slot with run := some r' }
  match rem with
  | some w => (s.sendsOf k w n.b r.epoch bs last).foldl (fun s m => s.sendOut k w r.epoch m) s
  | none => s

/-- The transfer's SENDs are held effects for which the effect queue has no room: Outrider waits (R345). -/
def State.effectWaits (s : State) (c k : Nat) (x : Desc) (r : ChunkRun) (n : NextXfer) : Bool :=
  match s.remoteWin k x n.b, r.epoch with
  | some w, some _ =>
    match s.cgroup k w.group with
    | some g =>
      g.xjob && !(s.ctx k).effectRoom ((s.sendsOf k w n.b r.epoch (s.sideRead c k x r.epoch x.srck n.a n.len) false).map (.send w.group w.rank))
    | none => false
  | _, _ => false

/-- Outstanding transfers of a core's O queue (R284). -/
def Core.outstanding (c : Core) : Nat := (c.slots.map fun e => e.2.out).sum

/-- TRANSFER_ISSUE: Outrider issues the next transfer of a running slot while the limit allows (R280, R283, R284, R295).  The checks of R280
halt the O queue for a run of a prefetch too; a fault of its transfer sets PFF (R295). -/
def execTransferIssue (core : CoreId) (slot : Fin 64) (s : State) : Host.Outcome State Fault Refusal :=
  onCore core.val s fun s =>
    let c := core.val
    let co := s.core c
    let x := co.slot slot.val
    let k := co.ctx.getD 0
    let d := descOf x.desc.toNat
    match x.run with
    | none => s
    | some r =>
      if s.phase ≠ .running ∨ s.safeHold = true ∨ co.qO.st = .halted ∨ (x.st ≠ .running ∧ x.st ≠ .prefetching) ∨ r.issued = true
          ∨ (r.pref = true ∧ x.pff = true) ∨ s.val OUTSTANDING (k + 1) ≤ co.outstanding then s
      else
        let n := d.next x.chunk r
        -- a halt takes effect once earlier instructions have retired, and the runs issued before it are written (R191, R280)
        let ripe := s.streamTurn c slot.val && r.out.isEmpty
        if s.blocked c k slot.val d r n then s
        else
          match s.runStop c k d r n with
          | some (.halt hc det a) => if ripe then s.haltStream core slot.val hc det a else s
          | _ =>
            match s.xferStop c k slot.val d n with
            | none => if s.effectWaits c k d r n then s else s.putXfer c k slot.val d x r n
            | some e =>
              if r.pref then s.updCore c fun co => co.setSlot slot.val { x with pff := true }
              else
                match e with
                | .halt hc det a => if ripe then s.haltStream core slot.val hc det a else s
                | .page a => s.pageFault core k slot.val a
                | .poison a =>
                  if ripe then
                    let s := s.logFault 0xFA 0x03 3 (some c) co.ctx (coreDie c) s.syndrome a
                    s.haltStream core slot.val 0x60 (s.faults.length - 1) a
                  else s

/-- Minimum efficient size of the transfer's kind (Table 8-2).  Bytes for another device are counted as for HBM3E: the spec does not
say what the sender takes the far side for (log entry 101). -/
def State.minEfficient (s : State) (k : Nat) (x : Desc) (f : Xfer) : Nat :=
  if x.srck = 1 then (if s.targetOf k f.src < 16 then 4096 else 8192)
  else if x.dstk = 1 then
    (if (s.remoteWin k x f.dst).isSome || decide (s.targetOf k (s.landing k f.dst) < 16) then 4096 else 8192)
  else 512

/-- Write the bytes of a transfer at its destination, with the exponent summaries of R281. -/
def State.moveXfer (s : State) (c k : Nat) (x : Desc) (ep : Option Nat) (chunk : Nat) (f : Xfer) : State :=
  let bs := s.sideRead c k x ep x.srck f.src f.len
  if x.dstk = 1 then (s.memWriteIn k ep (s.landing k f.dst) bs).noteWrite k (s.landing k f.dst) f.len
  else
    let rs := (x.runAt chunk f.i2 f.i1).1
    let es := runExps x.sumf x.sbs (s.sideRead c k x ep x.srck rs x.len0)
    s.updCore (s.sideCore c k x x.dstk) fun co => co.write f.dst bs ((es.drop f.off).take f.len)

/-- Bytes written through a window of this device have landed: its arrival Milepost advances by 1 (R401, R447). -/
def State.arriveAt (s : State) (k : Nat) (w : RWin) (epoch : Option Nat) : State :=
  let e := s.mpEntry k w.arrmp
  if e.valid && !e.shared then s.applyAdv { k := k, mp := w.arrmp, pmp := e.pmp, amount := 1, epoch := epoch } else s

/-- Once the last transfer of a run into a window of this device has landed, its arrival Milepost advances (R401, R447). -/
def State.arrived (s : State) (k : Nat) (x : Desc) (r : ChunkRun) (f : Xfer) : State :=
  if x.dstk ≠ 1 then s
  else
    match s.whereIs k f.dst with
    | .window w =>
      let same (g : Xfer) : Bool := g.i2 == f.i2 && g.i1 == f.i1
      let left := (r.i2 == f.i2 && r.i1 == f.i1 && !r.issued) || r.out.any same
      match s.cgroup k w.group with
      | some g =>
        if left || g.rank ≠ w.rank then s else s.arriveAt k w r.epoch
      | none => s
    | _ => s

/-- The last byte of a transfer is at its destination: it is no longer outstanding, and the counters rise (R284, R286). -/
def State.endXfer (s : State) (c k ds : Nat) (f : Xfer) : State :=
  let x := (s.core c).slot ds
  match x.run with
  | none => s
  | some r =>
    let d := descOf x.desc.toNat
    let r' : ChunkRun := { r with out := r.out.filter fun g => g.n != f.n }
    let s := s.updCore c fun co => co.setSlot ds { x with run := some r' }
    let s := s.arrived k d r' f
    let s := s.countDie XFERS (coreDie c) 1
    let s := if f.len < s.minEfficient k d f then s.countDie XFER_SMALL (coreDie c) 1 else s
    (s.countDie XFER_BYTES (coreDie c) f.len).settleSlot c ds

/-! ### Pages (R298, R299) -/

/-- The kind-1 address at which a paused slot stands. -/
def DSlot.pausedAt (x : DSlot) : Nat :=
  match x.run with
  | some r =>
    let d := descOf x.desc.toNat
    let n := d.next x.chunk r
    if d.srck = 1 then n.a else n.b
  | none => 0

end Sys2Proof.Machine
end

