-- ==== Sys2Proof/Machine/Caravan.lean ====
section
/-!
DEFINITION. Caravan's endpoints (chapter 11): what a member does with each message and with its own triggers.
-/

namespace Sys2Proof.Machine

open Sys2Proof.WB

/-! ### Operation records (Table 11-5) -/

structure OpRec where
  src : Nat
  dst : Nat
  anch : Nat
  startrec : Nat
  compl : Nat
  nelem : Nat
  unit : Nat
  poff : Nat
  doneMp : Nat
  form : Nat
  op : Nat
  group : Nat
  reg : Nat
  nodl : Bool
  regv : Bool
deriving DecidableEq, Repr

def opRecOf (r : Nat) : OpRec :=
  { src := Bits.fld r 448 64, dst := Bits.fld r 384 64, anch := Bits.fld r 320 64, startrec := Bits.fld r 256 64
    compl := Bits.fld r 192 64, nelem := Bits.fld r 160 32, unit := Bits.fld r 128 32, poff := Bits.fld r 64 64
    doneMp := Bits.fld r 51 13, form := Bits.fld r 49 2, op := Bits.fld r 47 2, group := Bits.fld r 41 6, reg := Bits.fld r 37 4
    nodl := Bits.bit r 36, regv := Bits.bit r 35 }

/-- Operation record `op` of a context, when enabled. -/
def State.opRec (s : State) (k op : Nat) : Option OpRec :=
  if s.blobByte OPRECS (k + 1) (64 * op) &&& 1 = 1 then some (opRecOf (s.blobNat OPRECS (k + 1) (64 * op) 64)) else none

/-- An address in the epoch's parity (POFF, R377). -/
def OpRec.at_ (r : OpRec) (a n : Nat) : Nat := if n % 2 = 1 then a + r.poff else a

/-- A member's record of operation `op` in epoch `n`. -/
def opKey (op n : Nat) : Nat := 2 * op + n % 2
def State.opRun (s : State) (k op n : Nat) : OpRun :=
  let o := Tab.get {} (s.ctx k).ops (opKey op n)
  if o.epoch = n then o else { epoch := n }
def State.setOp (s : State) (k op n : Nat) (o : OpRun) : State :=
  s.updCtx k fun c => { c with ops := Tab.set {} c.ops (opKey op n) { o with epoch := n } }
def State.updOp (s : State) (k op n : Nat) (f : OpRun → OpRun) : State := s.setOp k op n (f (s.opRun k op n))

/-- A carried region (CARRIED): BASE, LEN, BOFF. -/
structure Carried where
  base : Nat
  len : Nat
  boff : Nat
deriving DecidableEq, Repr

def State.carried (s : State) (k i : Nat) : Carried :=
  let f (j : Nat) : Nat := s.blobNat CARRIED (k + 1) (24 * i + 8 * j) 8
  { base := f 0, len := f 1, boff := f 2 }

/-- Region REG in the bank that epoch `n` reads, or writes (R342). -/
def State.regBase (s : State) (k : Nat) (r : OpRec) (n : Nat) (write : Bool) : Nat :=
  let c := s.carried k r.reg
  match (s.ctx k).epoch n with
  | some e => c.base + (if write then e.wbank else e.rbank) * c.boff
  | none => c.base

/-- A store of the shape that a carried contribution takes in its region: words, then group records, then one slot for each
element (R392; log entry 27). -/
def carryStore (base nelem : Nat) : GStore :=
  { elem := base, grec := base + 16 * nelem, spill := base + 17 * nelem, nelem := nelem, nslot := nelem, ainit := 0, adaptive := false, par := 0 }

/-! ### Contributions (R384, R385, R388, R392) -/

/-- The exact value of an element of the source. -/
def State.srcElem (s : State) (k : Nat) (r : OpRec) (n i : Nat) : L640 :=
  let a := r.at_ r.src n
  if r.form = 0 then L640.ofNat (s.memNat k (a + 96 * i) 96)
  else
    match s.storeAt k (a + 16 * i) with
    | some (_, g, p) => s.w128Read k g p
    | none => {}

/-- The operation carries a contribution into epoch `n` (R392). -/
def State.hasCarry (s : State) (k op n : Nat) : Bool := (s.ctx k).carries.contains (op, n - 1)

/-- A carried element as it stands in its region. -/
def State.carryElem (s : State) (k : Nat) (r : OpRec) (base i : Nat) : L640 :=
  if r.form = 0 then L640.ofNat (s.memNat k (base + 96 * i) 96) else s.w128Read k (carryStore base r.nelem) i

/-- The member's contribution to element `i`. -/
def State.contribAt (s : State) (k op : Nat) (r : OpRec) (n i : Nat) : L640 :=
  let x := s.srcElem k r n i
  if s.hasCarry k op n then x.add (s.carryElem k r (s.regBase k r n false) i) else x

/-- A poisoned line among `n` source elements from `i` (R450). -/
def State.srcBad (s : State) (k : Nat) (r : OpRec) (ep i n : Nat) : Bool :=
  let a := r.at_ r.src ep
  if r.form = 0 then s.memPoisoned k (a + 96 * i) (96 * n) else (s.w128Poison k (a + 16 * i) n).isSome

/-! ### Segments (R382 to R387) -/

/-- One element of a segment: state bits, word, spill entry. -/
structure SElem where
  st : Nat := 0
  w : Int := 0
  sp : Option L640 := none

/-- One group of a segment; no elements when the segment is stamped or carries records only. -/
structure SGroup where
  g : Nat
  anchor : Int
  raise : Bool := false
  spfull : Bool := false
  es : List SElem := []

structure Seg where
  restarts : Nat := 0
  sumw : Nat := 0
  stamp : Bool := false
  form : Nat := 1
  contrib : BitVec 4096 := 0
  taint : BitVec 4096 := 0
  groups : List SGroup := []
  sparse : List (Nat × L640) := []

/-- The L640 value of an element. -/
def SElem.val (e : SElem) (A : Int) : L640 :=
  let sp := (e.sp.getD {})
  let x : L640 := if e.sp.isSome then sp else { acc := BitVec.ofInt 640 (e.w * 2 ^ (A + 300).toNat) }
  { x with nan := x.nan || Bits.bit e.st 2, ninf := x.ninf || Bits.bit e.st 1, pinf := x.pinf || Bits.bit e.st 0 }

/-- The groups of a message, from group `g` on (R375). -/
def unpackGroups (g : Nat) (gs : List WGroup) (sp : List L640) : List SGroup :=
  gs.zipIdx.map fun (w, i) =>
    { g := g + i, anchor := w.anchor, raise := w.raise, spfull := w.spfull
      es := w.words.zipIdx.map fun (x, j) =>
        let st := Bits.fld w.state.toNat (4 * j) 4
        if Bits.bit st 3 then { st := st, sp := some (sp.getD (x.toNat % 2 ^ 32) {}) } else { st := st, w := x.toInt } }

/-- Add the content of one message to a segment. -/
def Seg.take (sg : Seg) (m : CMsg) : Seg :=
  let h := m.hdr
  let sg := { sg with
    restarts := h.restarts
    sumw := h.sumw
    stamp := sg.stamp || h.stamp
    form := h.form
    contrib := if h.bmap then m.contrib else sg.contrib
    taint := if h.bmap then m.taint else sg.taint }
  match m.payload with
  | .groups gs sp => { sg with groups := sg.groups ++ unpackGroups (h.offset / 64) gs sp }
  | .sparse es => { sg with sparse := sg.sparse ++ es }
  | _ => sg

/-- Spill entries of a group. -/
def SGroup.spills (g : SGroup) : List L640 := g.es.filterMap (·.sp)

/-- Message payload of consecutive groups. -/
def packGroups (gs : List SGroup) : CPayload :=
  let step := fun (acc : List WGroup × List L640) (g : SGroup) =>
    let word := fun (a : List (BitVec 128) × List L640) (e : SElem) =>
      match e.sp with
      | some x => (a.1 ++ [BitVec.ofNat 128 a.2.length], a.2 ++ [x])
      | none => (a.1 ++ [BitVec.ofInt 128 e.w], a.2)
    let (ws, sp) := g.es.foldl word ([], acc.2)
    let st := g.es.zipIdx.foldl (fun n (e, j) => n + e.st % 16 * 2 ^ (4 * j)) 0
    (acc.1 ++ [{ anchor := g.anchor, state := BitVec.ofNat 256 st, raise := g.raise, spfull := g.spfull, words := ws }], sp)
  let (ws, sp) := gs.foldl step ([], [])
  .groups ws sp

/-- Bytes that a group takes in a message (Table 11-4). -/
def SGroup.bytes (g : SGroup) : Nat := 1088 + 96 * g.spills.length

/-- Cut groups into messages, as many whole groups as fit. -/
def cutGroups : List SGroup → List SGroup → Nat → List (List SGroup)
  | [], cur, _ => if cur.isEmpty then [] else [cur]
  | g :: t, cur, n =>
    if cur.isEmpty || n + g.bytes ≤ 8192 then cutGroups t (cur ++ [g]) (n + g.bytes) else cur :: cutGroups t [g] g.bytes

/-- Cut a list into pieces of at most `c`. -/
def cutList {α : Type} (c : Nat) (l : List α) : List (List α) := (List.range (Bits.cdiv l.length c)).map fun i => (l.drop (c * i)).take c

/-- The messages of a segment; the last has END and the bitmaps. -/
def Seg.pack (sg : Seg) (h : CHdr) : List CMsg :=
  let parts : List (Nat × CPayload) :=
    if sg.form = 0 && !sg.stamp && sg.groups.isEmpty then (cutList 81 sg.sparse).map fun l => ((l.head?.map (·.1)).getD 0, .sparse l)
    else (cutGroups sg.groups [] 0).map fun l => (64 * (l.head?.map (·.g)).getD 0, packGroups l)
  let parts := if parts.isEmpty then [(0, .empty)] else parts
  parts.zipIdx.map fun ((off, p), i) =>
    let last := decide (i + 1 = parts.length)
    { hdr := { h with form := sg.form, stamp := sg.stamp, restarts := min sg.restarts 31, sumw := sg.sumw, offset := off, endB := last, bmap := last }
      payload := p
      contrib := if last then sg.contrib else 0
      taint := if last then sg.taint else 0 }

/-- The elements or groups of segment `j` of `S` of `u`: first and count (R382). -/
def segSpan (j S u : Nat) : Nat × Nat := (j * u / S, (j + 1) * u / S - j * u / S)

/-- Number of segments, and units of an operation. -/
def CGroup.segs (g : CGroup) : Nat := g.nmem * g.split
def OpRec.units (r : OpRec) : Nat := if r.form = 0 then r.nelem else r.nelem / 64

/-- What an element becomes when `x` is added at anchor `A`: stamped by RAISE (`inl true`) or SPFULL, or the element (R384). -/
def SElem.add (e : SElem) (A : Int) (spills : Nat) (x : L640) : Bool ⊕ SElem :=
  let st := e.st ||| (4 * Bits.ofBool x.nan + 2 * Bits.ofBool x.ninf + Bits.ofBool x.pinf)
  match e.sp with
  | some y => .inr { e with st := st, sp := some (y.add x) }
  | none =>
    let g : Int := 2 ^ (A + 300).toNat
    let y := e.w * g + x.k
    if (2 ^ 127 - 1) * g < y ∨ y < -(2 ^ 127) * g then .inl true
    else if y % g ≠ 0 then
      if spills < 8 then .inr { st := st ||| 8, sp := some ({ x with acc := BitVec.ofInt 640 y, terms := x.terms }) } else .inl false
    else .inr { e with st := st, w := y / g }

/-- Add contributions to the elements of a group, one by one; it stops at a stamp. -/
def addElems (A : Int) : List SElem → List L640 → Nat → Bool ⊕ List SElem
  | e :: es, x :: xs, n =>
    match e.add A n x with
    | .inl b => .inl b
    | .inr e' =>
      match addElems A es xs (n + (if e'.sp.isSome && e.sp.isNone then 1 else 0)) with
      | .inl b => .inl b
      | .inr l => .inr (e' :: l)
  | es, _, _ => .inr es

/-- Add contributions to groups, in order; a stamp leaves the records without words. -/
def addGroups (f : Nat → List L640) : List SGroup → List SGroup → List SGroup × Bool
  | done, [] => (done, false)
  | done, g :: t =>
    match addElems g.anchor g.es (f g.g) g.spills.length with
    | .inl b =>
      let g' := if b then { g with raise := true } else { g with spfull := true }
      ((done ++ g' :: t).map fun g => { g with es := [] }, true)
    | .inr es => addGroups f (done ++ [{ g with es := es }]) t

/-- Merge a sorted entry list with another slot (R385). -/
def mergeEntry (i : Nat) (x : L640) : List (Nat × L640) → List (Nat × L640)
  | [] => [(i, x)]
  | (j, y) :: t => if i < j then (i, x) :: (j, y) :: t else if i = j then (j, y.add x) :: t else (j, y) :: mergeEntry i x t

/-- A slot that is sent: ACC nonzero or a flag set. -/
def L640.sent (x : L640) : Bool := x.acc != 0 || x.special || x.snan

/-- Bit `r` of a bitmap. -/
def bitAt (r : Nat) : BitVec 4096 := BitVec.ofNat 4096 (2 ^ r)

/-- The member of rank `rank` adds its contribution to segment `j` (R383 to R385). -/
def State.hop (s : State) (k op : Nat) (r : OpRec) (g : CGroup) (n j : Nat) (sg : Seg) : Seg :=
  let w := if s.hasCarry k op n then 2 * r.unit else r.unit
  let span := segSpan j g.segs r.units
  let first := if r.form = 0 then span.1 else 64 * span.1
  let cnt := if r.form = 0 then span.2 else 64 * span.2
  let nan (x : L640) : Bool := x.nan || x.snan
  let bits (sg : Seg) (tn : Bool) : Seg := { sg with
    contrib := sg.contrib ||| bitAt g.rank
    taint := if tn then sg.taint ||| bitAt g.rank else sg.taint
    sumw := sg.sumw + w }
  if sg.form = 0 then
    let xs := (List.range cnt).map fun i => (first + i, s.contribAt k op r n (first + i))
    let l := (xs.filter fun e => L640.sent e.2).foldl (fun l e => mergeEntry e.1 e.2 l) sg.sparse
    bits { sg with sparse := l.filter fun e => L640.sent e.2 } (xs.any fun e => nan e.2)
  else
    let f (q : Nat) : List L640 := (List.range 64).map fun i => s.contribAt k op r n (64 * q + i)
    let (gs, st) := addGroups f [] sg.groups
    if st then { sg with groups := gs, stamp := true }
    else bits { sg with groups := gs } (sg.groups.any fun q => (f q.g).any nan)

/-- The anchor of a group in the ANCH table, inside the range of R74. -/
def State.anchAt (s : State) (k : Nat) (r : OpRec) (q : Nat) : Int := clampI (Bits.signed (s.memNat k (r.anch + 2 * q) 2) 16) (-300) 212

/-- A fresh segment at its origin. -/
def freshSeg (restarts form : Nat) (groups : List (Nat × Int)) : Seg :=
  { restarts := restarts, form := form
    groups := if form = 0 then [] else groups.map fun q => { g := q.1, anchor := q.2, es := List.replicate 64 {} } }

/-- A stamped segment back at its origin: exact sparse after SPFULL, else raised anchors (R386). -/
def Seg.restart (sg : Seg) : Seg :=
  if sg.groups.any (·.spfull) then freshSeg (sg.restarts + 1) 0 []
  else freshSeg (sg.restarts + 1) 1 (sg.groups.map fun q => (q.g, if q.raise then min (q.anchor + 8) 212 else q.anchor))

/-- The exact elements of a result, by element index. -/
def Seg.values (sg : Seg) (r : OpRec) (g : CGroup) (j : Nat) : List (Nat × L640) :=
  if sg.form = 0 then
    let span := segSpan j g.segs r.units
    let first := if r.form = 0 then span.1 else 64 * span.1
    let cnt := if r.form = 0 then span.2 else 64 * span.2
    (List.range cnt).map fun i => (first + i, ((sg.sparse.find? fun e => e.1 == first + i).map (·.2)).getD {})
  else sg.groups.flatMap fun q => q.es.zipIdx.map fun (e, i) => (64 * q.g + i, e.val q.anchor)

/-- Release the spill slot of element `p` and set the element to zero. -/
def State.clearElem (s : State) (k i : Nat) (g : GStore) (p : Nat) : State :=
  let ra := g.recAt p
  let r := s.memNat k ra 64
  let st := Fmt.grpState r (p % 64)
  let w := s.memNat k (g.elem + 16 * p) 16
  let s := if Bits.bit st 3 then s.updCtx k fun c => { c with spill := Tab.set false c.spill (spillKey i (w % 2 ^ 32)) false } else s
  let r := Fmt.grpSetState r (p % 64) 0 - (if Bits.bit st 3 then 2 ^ 272 else 0)
  (s.memWriteNat k ra 64 r).memWriteNat k (g.elem + 16 * p) 16 0

/-- What the endpoint reads of `n` elements of a destination store from `a` as it writes all of them, where an uncorrectable error holds it: a group
record, or the word that names a spill slot (R450). -/
def State.resultPoison (s : State) (k a n : Nat) : Option Nat :=
  (List.range n).findSome? fun i =>
    match s.storeAt k (a + 16 * i) with
    | none => none
    | some (_, g, p) =>
      if s.memPoisoned k (g.recAt p) 64 then some (g.recAt p)
      else if Bits.bit (Fmt.grpState (s.memNat k (g.recAt p) 64) (p % 64)) 3 && s.memPoisoned k (a + 16 * i) 16 then some (a + 16 * i)
      else none

/-- What the adds of the endpoint leave beside the state: that a store ran out of slots, and the first uncorrectable line (R391, R450). -/
structure EndAdd where
  bad : Bool := false
  poison : Option Nat := none

/-- Note a refused add. -/
def EndAdd.refuse (x : EndAdd) (e : Nat × Nat × Nat) : EndAdd :=
  if e.1 = 0x60 then { x with poison := x.poison.or (some e.2.2) } else { x with bad := true }

/-- Write an element of a destination store, or why it cannot be: it has no free spill slot (R71, R390, R391). -/
def State.putElem (s : State) (k a : Nat) (anchor : Option Int) (x : L640) : Except (Nat × Nat × Nat) State :=
  match s.storeAt k a with
  | none => .ok s
  | some (i, g, p) =>
    let s := s.clearElem k i g p
    let s := match anchor with
      | some A =>
        if p % 64 = 0 then
          let r := s.memNat k (g.recAt p) 64
          s.memWriteNat k (g.recAt p) 64 (r - Bits.fld r 256 16 * 2 ^ 256 + Bits.wrap A 16 * 2 ^ 256)
        else s
      | none => s
    match s.w128Add k i g p x with
    | .ok (s, _) => .ok s
    | .error e => .error e

/-- Write the result of a segment at DST, whole lines of which stand clean afterwards (R390, R391, R450). -/
def State.writeResult (s : State) (k : Nat) (r : OpRec) (g : CGroup) (n j : Nat) (sg : Seg) : State × EndAdd :=
  let d := r.at_ r.dst n
  let span := segSpan j g.segs r.units
  match if r.form = 0 then none else s.resultPoison k (d + 1024 * span.1) (64 * span.2) with
  | some a => (s, { poison := some a })
  | none =>
  let s := if r.form = 0 then s else s.updCtx k fun c => { c with poison := clearPoison c.poison (d + 1024 * span.1) (1024 * span.2) }
  let anchors (i : Nat) : Option Int :=
    if sg.form = 0 then some (s.anchAt k r (i / 64)) else (sg.groups.find? fun q => q.g == i / 64).map (·.anchor)
  (sg.values r g j).foldl (fun (s, bad) (i, x) =>
    if r.form = 0 then (s.memWriteNat k (d + 96 * i) 96 x.toNat, bad)
    else
      match s.putElem k (d + 16 * i) (anchors i) x with
      | .ok s => (s, bad)
      | .error e => (s, bad.refuse e)) (s, {})

/-- The next anchor of a group of results: its largest magnitude less 104; none keeps the entry (R322, R387). -/
def nextAnchor (xs : List L640) : Option Int :=
  if xs.any L640.special then none
  else
    match (xs.filterMap fun x => if x.acc = 0 then none else some (Dy.log2 ⟨x.k, -300⟩)).max? with
    | some h => some (clampI (h - 104) (-300) 212)
    | none => none

/-- Rewrite the ANCH entries of a segment's groups (R387). -/
def State.rewriteAnch (s : State) (k : Nat) (r : OpRec) (l : List (Nat × Option Int)) : State :=
  l.foldl (fun s (q, a) =>
    match a with
    | some A => s.memWriteNat k (r.anch + 2 * q) 2 (Bits.wrap A 16)
    | none => s) s

/-- The rewritten anchors of the groups of a result. -/
def Seg.anchors (sg : Seg) (r : OpRec) (g : CGroup) (j : Nat) : List (Nat × Option Int) :=
  let span := segSpan j g.segs r.units
  let vs := sg.values r g j
  (List.range span.2).map fun i => (span.1 + i, nextAnchor (((vs.drop (64 * i)).take 64).map (·.2)))

/-! ### Completion (R391, R395, R396) -/

/-- Bits set in a bitmap of `n` members. -/
def popOf (b : BitVec 4096) (n : Nat) : Nat := ((List.range n).filter fun i => b.getLsbD i).length

/-- The completion record: header of Table 11-6, CONTRIB, TAINT. -/
def completion (o : OpRun) (r : OpRec) (g : CGroup) (n : Nat) : Nat :=
  let pop := popOf o.contrib g.nmem
  n + 2 ^ 64 * Bits.ofBool o.exhausted + 2 ^ 73 * Bits.ofBool (o.status == some false) + 2 ^ 74 * Bits.ofBool (pop != g.nmem)
    + 2 ^ 75 * Bits.ofBool (o.sumw != r.unit * pop) + 2 ^ 80 * sat o.restarts 65535 + 2 ^ 96 * sat o.fallback 65535 + 2 ^ 112 * pop
    + 2 ^ 128 * o.sumw + 2 ^ 1024 * o.contrib.toNat + 2 ^ 5120 * o.taint.toNat

/-- An advance that an endpoint makes, with the epoch of its work as its tag (R380). -/
def State.endpointAdv (s : State) (k mp : Nat) (ep : Option Nat) : State :=
  let e := s.mpEntry k mp
  if e.valid && !e.shared then s.applyAdv { k := k, mp := mp, pmp := e.pmp, amount := 1, epoch := ep } else s

/-- The bucket is complete on this member. -/
def State.completeOp (s : State) (k op : Nat) (r : OpRec) (g : CGroup) (n : Nat) : State :=
  let o := s.opRun k op n
  let rec_ := completion o r g n
  let s := s.memWriteNat k (r.compl + 1152 * (n % 2)) 1152 rec_
  let s := s.setOp k op n { o with complete := true }
  let dropped := decide (popOf o.contrib g.nmem ≠ g.nmem)
  let carry := decide (o.sumw ≠ r.unit * popOf o.contrib g.nmem)
  let s := s.updEpoch k n fun e => { e with
    void := e.void ||| (if r.form = 2 then 1 else 0) ||| (if dropped then 2 else 0)
      ||| (if (dropped && g.carry && r.form != 2) || carry then 4 else 0)
    drecs := if dropped then e.drecs ++ [{ bucket := op, contrib := o.contrib, divisor := o.sumw }] else e.drecs }
  let s := if o.taint = 0 then s else s.updCtx k fun c => { c with taints := logPush 256 c.taints (op, rec_) }
  let e := s.mpEntry k r.doneMp
  if o.exhausted then (if e.valid && !e.shared then s.poisonPmp e.pmp false else s) else s.endpointAdv k r.doneMp (some n)

/-- A segment, or an origin of BIT messages, is done on this member; the bucket completes with the last. -/
def State.partDone (s : State) (k op : Nat) (r : OpRec) (g : CGroup) (n j total : Nat) (f : OpRun → OpRun) : State :=
  let o := s.opRun k op n
  if o.doneSegs.contains j then s
  else
    let o := { f o with doneSegs := o.doneSegs ++ [j] }
    let s := s.setOp k op n o
    if o.doneSegs.length = total then s.completeOp k op r g n else s

def Seg.finish (sg : Seg) (r : OpRec) (bad : Bool) (o : OpRun) : OpRun :=
  { o with contrib := o.contrib ||| sg.contrib, taint := o.taint ||| sg.taint, sumw := sg.sumw, restarts := o.restarts + sg.restarts
           fallback := o.fallback + (if sg.form = 0 ∧ r.form ≠ 0 then 1 else 0), exhausted := o.exhausted || bad }

/-! ### The path of a segment (R382 to R386, R390) -/

/-- The member after this one, and the one before. -/
def CGroup.next (g : CGroup) : Nat := (g.rank + 1) % g.nmem
def CGroup.prev (g : CGroup) : Nat := (g.rank + g.nmem - 1) % g.nmem

/-- Header of a message of an operation. -/
def State.opHdr (s : State) (k op : Nat) (r : OpRec) (g : CGroup) (n mtype : Nat) : CHdr :=
  { g.hdr r.group mtype n (s.runOf k n) (s.pgen k) with oprec := op }

def State.sendSeg (s : State) (k op : Nat) (r : OpRec) (g : CGroup) (n j mtype : Nat) (sg : Seg) : State :=
  let h := { s.opHdr k op r g n mtype with seg := j, origin := j % g.nmem }
  (sg.pack h).foldl (fun s m => s.sendMsg k r.group g.next m) s

/-- A poisoned source, or memory that the endpoint cannot reach: FA, and the member votes SQUASH (R439, R450). -/
def State.endpointPoison (s : State) (k n addr : Nat) : State :=
  (s.logFault 0xFA 0x04 2 none (some k) 8 s.syndrome addr).strike k n

/-- Bytes of an operation's destination: W128 words, or L640 slots. -/
def OpRec.dstBytes (r : OpRec) : Nat := if r.form = 0 then 96 * r.nelem else 16 * r.nelem

/-- An address that the endpoint writes for the operation, behind a CXL port that is down (R439). -/
def State.opLost (s : State) (k : Nat) (r : OpRec) (n : Nat) : Option Nat :=
  (s.portLost k (r.at_ r.dst n) r.dstBytes).or (s.portLost k (r.compl + 1152 * (n % 2)) 1152)

/-- What the endpoint writes of an operation, unless it cannot. -/
def State.opWrite (s : State) (k : Nat) (r : OpRec) (n : Nat) (f : State → State) : State :=
  match s.opLost k r n with
  | some a => s.endpointPoison k n a
  | none => f s

/-- The ANCH entries of the groups of a segment, where an uncorrectable error holds them (R450). -/
def State.anchPoison (s : State) (k : Nat) (r : OpRec) (g : CGroup) (j : Nat) : Option Nat :=
  let span := segSpan j g.segs r.units
  if r.form ≠ 0 ∧ s.memPoisoned k (r.anch + 2 * span.1) (2 * span.2) = true then some (r.anch + 2 * span.1) else none

/-- A carried contribution of the region at `base`, where an uncorrectable error holds some of it (R392, R450). -/
def State.carryPoison (s : State) (k : Nat) (r : OpRec) (base : Nat) : Option Nat :=
  let st := carryStore base r.nelem
  if s.memPoisoned k base (if r.form = 0 then 96 * r.nelem else 17 * r.nelem) then some base
  else if r.form = 0 then none
  else (List.range r.nelem).findSome? fun i =>
    let sl := st.slotAt (s.memNat k (st.elem + 16 * i) 16 % 2 ^ 32)
    if Bits.bit (Fmt.grpState (s.memNat k (st.recAt i) 64) (i % 64)) 3 && s.memPoisoned k sl 96 then some sl else none

/-- The first uncorrectable error in what the endpoint reads for this member's contribution: the source, a carried contribution, the error memory of
the 1-bit form (R450). -/
def State.contribPoison (s : State) (k op : Nat) (r : OpRec) (n : Nat) : Option Nat :=
  if s.srcBad k r n 0 r.nelem then some (r.at_ r.src n)
  else
    let rb := s.regBase k r n false
    if r.form = 2 then (if s.memPoisoned k rb (96 * r.nelem) then some rb else none)
    else if s.hasCarry k op n then s.carryPoison k r rb else none

/-- The owner holds the result: it writes it, rewrites its anchors and sends RES (R390).  The RES of a reduce-scatter carries records without
words; its FORM stays 0 after a fall-back, from which the other members count it (R391; DESIGN CHOICE, log entry 110). -/
def State.ownerResult (s : State) (k op : Nat) (r : OpRec) (g : CGroup) (n j : Nat) (sg : Seg) : State :=
  s.opWrite k r n fun s =>
  let an := if r.form = 0 then [] else sg.anchors r g j
  let (s, x) := s.writeResult k r g n j sg
  match (if r.op = 1 then s.anchPoison k r g j else none).or x.poison with
  | some a => s.endpointPoison k n a
  | none =>
  let s := s.rewriteAnch k r an
  let res : Seg := if r.op = 1 then
      { sg with sparse := []
                groups := if r.form = 0 then [] else an.map fun (q, a) => { g := q, anchor := a.getD (s.anchAt k r q) } }
    else sg
  let s := if 1 < g.nmem then s.sendSeg k op r g n j 2 res else s
  s.partDone k op r g n j g.segs (sg.finish r x.bad)

/-- What this member does with segment `j` once its status is decided; `fuel` bounds the restarts of a group of one member. -/
def State.runSeg (s : State) (k op : Nat) (r : OpRec) (g : CGroup) (n j : Nat) : Nat → Seg → State
  | 0, _ => s
  | fuel + 1, sg =>
    let o := j % g.nmem
    let own (sg : Seg) : Seg := if (s.opRun k op n).status = some true then s.hop k op r g n j sg else sg
    let pass (s : State) (sg : Seg) : State :=
      if !sg.stamp && (g.rank + 1) % g.nmem = o then s.ownerResult k op r g n j sg
      else if g.nmem = 1 then s.runSeg k op r g n j fuel sg
      else s.sendSeg k op r g n j 0 sg
    if sg.stamp then
      if g.rank = o then
        let s := s.count SEG_RESTARTS (k + 1) 1
        let sg' := sg.restart
        let s := if sg'.form = 0 then s.count SEG_FALLBACKS (k + 1) 1 else s
        pass s (own sg')
      else s.sendSeg k op r g n j 0 sg
    else pass s (own sg)

/-- Restarts end before this many: each raises the anchor of a group by 8, at most 64 times from -300 to 212, and the exact sparse form is
never stamped (R386). -/
def Seg.fuel (sg : Seg) : Nat := 64 * sg.groups.length + 3

/-- Run every whole segment that waits at this member. -/
def State.runWaiting (s : State) (k op : Nat) (r : OpRec) (g : CGroup) (n : Nat) : State :=
  let o := s.opRun k op n
  match if o.status = some true then s.contribPoison k op r n else none with
  | some a => s.endpointPoison k n a
  | none =>
  let ends := o.waiting.filter fun m => m.hdr.mtype == 0 && m.hdr.endB
  let s := s.setOp k op n { o with waiting := o.waiting.filter fun m => !(ends.any fun e => e.hdr.seg == m.hdr.seg) }
  ends.foldl (fun s e =>
    let sg := (o.waiting.filter fun m => m.hdr.seg == e.hdr.seg).foldl Seg.take { form := r.form }
    s.runSeg k op r g n e.hdr.seg sg.fuel sg) s

/-! ### The 1-bit form (R388, R389) -/

/-- Error memory and its element `i` (L640 slots; log entry 27). -/
def State.errAt (s : State) (k base i : Nat) : L640 := L640.ofNat (s.memNat k (base + 96 * i) 96)

/-- The binary32 value of a block's scale times a sign, as it is added. -/
def bitVal (scale : BitVec 32) (neg : Bool) : Fp :=
  match Fp.decode Ff.b32 scale.toNat with
  | .num s m e => .num (s != neg) m e
  | .inf s => .inf (s != neg)
  | x => x

/-- One block: scale, signs and new error memory, and whether a value is not finite.  Where NELEM is an odd multiple of 64 the last block
has the 64 elements that are left (DESIGN CHOICE, log entry 111). -/
def bitBlock (vs : List L640) : BitVec 32 × BitVec 128 × List L640 × Bool :=
  if vs.any L640.special then (BitVec.ofNat 32 Ff.b32.cnan, 0, vs.map fun _ => {}, true)
  else
    let mag : Nat := (vs.map fun v => v.k.natAbs).sum
    let scale := BitVec.ofNat 32 (Ff.b32.round false mag vs.length (-300)).bits
    let signs : Nat := vs.zipIdx.foldl (fun n (v, i) => if v.k < 0 then n + 2 ^ i else n) 0
    (scale, BitVec.ofNat 128 signs, vs.map fun v =>
      match bitVal scale (!decide (v.k < (0 : Int))) with
      | .num s m e => v.addDy (Fp.val (.num s m e)) 0
      | x => v.addFp x, false)

/-- The L640 value of a decoded element. -/
def bitTerm (scale : BitVec 32) (neg : Bool) : L640 := ({} : L640).addFp (bitVal scale neg)

/-- Add decoded blocks from element `first` into the destination (R389). -/
def State.addBits (s : State) (k : Nat) (r : OpRec) (n first : Nat) (bs : List (BitVec 32 × BitVec 128)) : State × EndAdd :=
  let d := r.at_ r.dst n
  bs.zipIdx.foldl (fun (s, bad) (b, q) =>
    (List.range (min 128 (r.nelem - (first + 128 * q)))).foldl (fun (s, bad) i =>
      let a := d + 16 * (first + 128 * q + i)
      match s.storeAt k a with
      | none => (s, bad)
      | some (st, g, p) =>
        match s.w128Add k st g p (bitTerm b.1 (b.2.getLsbD i)) with
        | .ok (s, _) => (s, bad)
        | .error e => (s, bad.refuse e)) (s, bad)) (s, {})

/-- An in member's 1-bit contribution: error memory, own addition, BIT messages. -/
def State.sendBits (s : State) (k op : Nat) (r : OpRec) (g : CGroup) (n : Nat) : State :=
  s.opWrite k r n fun s =>
  let rb := s.regBase k r n false
  let wb := s.regBase k r n true
  let blocks := (List.range (Bits.cdiv r.nelem 128)).map fun q =>
    bitBlock ((List.range (min 128 (r.nelem - 128 * q))).map fun i => (s.srcElem k r n (128 * q + i)).add (s.errAt k rb (128 * q + i)))
  let s := blocks.zipIdx.foldl (fun s (b, q) =>
    b.2.2.1.zipIdx.foldl (fun s (e, i) => s.memWriteNat k (wb + 96 * (128 * q + i)) 96 e.toNat) s) s
  let bs := blocks.map fun b => (b.1, b.2.1)
  let (s, x) := s.addBits k r n 0 bs
  match x.poison with
  | some a => s.endpointPoison k n a
  | none =>
  let tn := blocks.any fun b => b.2.2.2
  let taint := if tn then bitAt g.rank else 0
  let parts := cutList 409 bs
  let h := { s.opHdr k op r g n 1 with origin := g.rank, form := 2, sumw := r.unit }
  let s := if g.nmem = 1 then s
    else parts.zipIdx.foldl (fun s (p, i) =>
      let last := decide (i + 1 = parts.length)
      s.sendMsg k r.group g.next { hdr := { h with offset := 128 * 409 * i, endB := last, bmap := last }, payload := .bits p
                                   contrib := if last then bitAt g.rank else 0, taint := if last then taint else 0 }) s
  s.partDone k op r g n g.rank g.nmem fun o =>
    { o with contrib := o.contrib ||| bitAt g.rank, taint := o.taint ||| taint, sumw := o.sumw + r.unit, exhausted := o.exhausted || x.bad }

/-- An out member's one BIT message (R389). -/
def State.sendNoBits (s : State) (k op : Nat) (r : OpRec) (g : CGroup) (n : Nat) : State :=
  let h := { s.opHdr k op r g n 1 with origin := g.rank, form := 2, endB := true, bmap := true }
  let s := if g.nmem = 1 then s else s.sendMsg k r.group g.next { hdr := h, payload := .bits [] }
  s.partDone k op r g n g.rank g.nmem id

/-! ### In and out (R381, R392) -/

/-- The status is decided: the member originates its segments and handles what waits (R383). -/
def State.decide_ (s : State) (k op : Nat) (r : OpRec) (g : CGroup) (n : Nat) (inn : Bool) : State :=
  let s := s.updOp k op n fun o => { o with status := some inn }
  let mine := (List.range g.segs).filter fun j => j % g.nmem == g.rank
  match (if inn then s.contribPoison k op r n else none).or (if r.form = 2 then none else mine.findSome? fun j => s.anchPoison k r g j) with
  | some a => s.endpointPoison k n a
  | none =>
  if r.form = 2 then (if inn then s.sendBits k op r g n else s.sendNoBits k op r g n)
  else
    let s := mine.foldl (fun s j =>
      let span := segSpan j g.segs r.units
      let gs := (List.range span.2).map fun i => (span.1 + i, s.anchAt k r (span.1 + i))
      let sg := freshSeg 0 r.form (if r.form = 0 then [] else gs)
      s.runSeg k op r g n j sg.fuel sg) s
    s.runWaiting k op r g n

/-- The trigger record at `a` holds epoch `n`, and was written in this run where the epoch runs again (R379, R398). -/
def State.trigHolds (s : State) (k a n : Nat) : Bool :=
  s.memNat k a 8 == n && (match (s.ctx k).epoch n with
    | some e => !e.rerun || e.wrote.any fun w => decide (w.1 ≤ a) && decide (a + 8 ≤ w.1 + w.2)
    | none => true)

/-- A trigger record, read for an epoch that is open, that an uncorrectable error holds: the epoch and the record's address (R379, R450). -/
def State.trigPoison (s : State) (k a n : Nat) (want : Epoch → Bool) : Option (Nat × Nat) :=
  ((s.ctx k).epochs.find? fun e => want e && s.memPoisoned k (a + n * (e.n % 2)) n).map fun e => (e.n, a + n * (e.n % 2))

/-- A store that holds some of an operation's destination is being cleared for the epoch: what adds into it waits (R321, R456). -/
def State.dstClearing (s : State) (k : Nat) (r : OpRec) (n : Nat) : Bool :=
  let d := r.at_ r.dst n
  r.form != 0 && (s.gstores k).any fun e =>
    (s.ctx k).clearing.contains e.1 && decide (d < e.2.elem + 16 * e.2.nelem) && decide (e.2.elem < d + 16 * r.nelem)

/-- The oldest open epoch whose trigger record stands in memory and has not been seen (R379). -/
def State.triggered (s : State) (k op : Nat) (r : OpRec) : Option Nat :=
  ((s.ctx k).epochs.find? fun e => e.st == .opened && !(s.opRun k op e.n).triggered
    && s.trigHolds k (r.startrec + 32 * (e.n % 2)) e.n).map (·.n)

/-- An enabled reduction of the context with its group. -/
def State.reduction (s : State) (k op : Nat) : Option (OpRec × CGroup) :=
  match s.opRec k op with
  | some r => if r.op = 2 then none else (s.cgroup k r.group).map fun g => (r, g)
  | none => none

def State.rotation (s : State) (k op : Nat) : Option (OpRec × CGroup) :=
  match s.opRec k op with
  | some r => if r.op = 2 then (s.cgroup k r.group).map fun g => (r, g) else none
  | none => none

/-- The member's trigger record holds the epoch: an undecided member starts, is in, and sends START (R381). -/
def State.onTrigger (s : State) (k op : Nat) : State :=
  match s.reduction k op with
  | none => s
  | some (r, g) =>
    match s.trigPoison k r.startrec 32 fun e => e.st == .opened && !(s.opRun k op e.n).triggered with
    | some (n, a) => s.endpointPoison k n a
    | none =>
    match s.triggered k op r with
    | none => s
    | some n =>
      if s.dstClearing k r n then s
      else
      let o := s.opRun k op n
      let s := s.setOp k op n { o with triggered := true, start := some (o.start.getD (s.clock 8)) }
      if o.status.isSome then s
      else
        let s := s.sendAll k r.group { hdr := s.opHdr k op r g n 3 }
        s.decide_ k op r g n true

/-- DEADLINE has passed since the member's start without its trigger: it is out (R381). -/
def State.onDeadline (s : State) (k op : Nat) : State :=
  match s.reduction k op with
  | none => s
  | some (r, g) =>
    let hit := (s.ctx k).epochs.find? fun e =>
      let o := s.opRun k op e.n
      e.st == .opened && o.start.isSome && o.status.isNone && !s.trigHolds k (r.startrec + 32 * (e.n % 2)) e.n
    if g.deadline = 0 ∨ r.nodl = true then s
    else
      match s.trigPoison k r.startrec 32 fun e =>
          e.st == .opened && (s.opRun k op e.n).start.isSome && (s.opRun k op e.n).status.isNone with
      | some (n, a) => s.endpointPoison k n a
      | none =>
      match hit.filter fun e => !s.dstClearing k r e.n with
      | none => s
      | some e => (s.count LATE_OUT (k + 1) 1).decide_ k op r g e.n false

/-- Element at `a` is spilled in its store. -/
def State.isSpilled (s : State) (k a : Nat) : Bool :=
  match s.storeAt k a with
  | some (_, g, p) => Bits.bit (Fmt.grpState (s.memNat k (g.recAt p) 64) (p % 64)) 3
  | none => false

/-- Copy the contribution of an out member into WBANK of REG: words, group records with NSPILL, and spill slots (R392; log entry 27). -/
def State.carryOut (s : State) (k : Nat) (r : OpRec) (n : Nat) : State :=
  let base := s.regBase k r n true
  if r.form = 0 then
    (List.range r.nelem).foldl (fun t i => t.memWriteNat k (base + 96 * i) 96 (s.srcElem k r n i).toNat) s
  else
    let st := carryStore base r.nelem
    (List.range (r.nelem / 64)).foldl (fun t q =>
      let xs := (List.range 64).map fun i => s.srcElem k r n (64 * q + i)
      let A := match s.storeAt k (r.at_ r.src n + 1024 * q) with
        | some (_, g, p) => clampI (Fmt.grpAnchor (s.memNat k (g.recAt p) 64)) (-300) 212
        | none => 0
      let put := fun (acc : State × Nat) (e : L640 × Nat) =>
        let (t, states) := acc
        let (x, i) := e
        let fits := Fmt.fitsAt x.k A && !s.isSpilled k (r.at_ r.src n + 16 * (64 * q + i))
        let bits := 8 * Bits.ofBool (!fits) + 4 * Bits.ofBool x.nan + 2 * Bits.ofBool x.ninf + Bits.ofBool x.pinf
        let slot := 64 * q + i
        let t := t.memWriteNat k (st.elem + 16 * slot) 16 (if fits then Bits.wrap (x.k / 2 ^ (A + 300).toNat) 128 else slot)
        (if fits then t else t.memWriteNat k (st.slotAt slot) 96 x.toNat, states + bits * 2 ^ (4 * i) + (if fits then 0 else 2 ^ 272))
      let (t, states) := xs.zipIdx.foldl put (t, 0)
      t.memWriteNat k (st.grec + 64 * q) 64 (states + Bits.wrap A 16 * 2 ^ 256)) s

/-- An out member's contribution is ready (Table 11-8). -/
def State.onLate (s : State) (k op : Nat) : State :=
  match s.reduction k op with
  | none => s
  | some (r, g) =>
    let hit := (s.ctx k).epochs.find? fun e =>
      let o := s.opRun k op e.n
      e.uncommitted && e.st != .held && o.status == some false && !o.lateDone && s.trigHolds k (r.startrec + 32 * (e.n % 2)) e.n
    let reads (e : Epoch) : Bool := let o := s.opRun k op e.n; e.uncommitted && e.st != .held && o.status == some false && !o.lateDone
    match s.trigPoison k r.startrec 32 reads with
    | some (n, a) => s.endpointPoison k n a
    | none =>
    match hit with
    | none => s
    | some e =>
      let n := e.n
      match if r.form = 2 then s.contribPoison k op r n
          else if g.carry && r.regv && s.srcBad k r n 0 r.nelem then some (r.at_ r.src n) else none with
      | some a => s.endpointPoison k n a
      | none =>
      let s := s.updOp k op n fun o => { o with triggered := true, lateDone := true }
      if r.form = 2 then
        let rb := s.regBase k r n false
        let wb := s.regBase k r n true
        (List.range r.nelem).foldl (fun t i => t.memWriteNat k (wb + 96 * i) 96 ((s.srcElem k r n i).add (s.errAt k rb i)).toNat) s
      else if g.carry && r.regv then
        let s := (s.carryOut k r n).count CARRIES (k + 1) 1
        (s.updEpoch k n fun e => { e with void := e.void ||| 4 }).updCtx k fun c => { c with
          carries := (c.carries.filter fun x => !(x.1 == op) || x.2 + 1 == n) ++ [(op, n)] }
      else s.count LATE_DROPS (k + 1) 1

/-! ### Which messages apply (R376, R397, R399) -/

/-- A message is applied, or has been dealt with. -/
inductive Screen where
  | apply (g : CGroup)
  | done (s : State)

/-- The message waits until its epoch opens, or until a store's clear ends. -/
def State.keepEarly (s : State) (k : Nat) (m : CMsg) : State := s.updCtx k fun c => { c with early := c.early ++ [m] }

/-- The checks of R376, R397 and R399, in this order. A message of a reduction waits for the clear of a store that it adds into (R321). A SAVED context, whose
epochs stand still, keeps the message until it is restored (DEDUCED, log entry 103). -/
def State.screen (s : State) (k : Nat) (m : CMsg) (senderOk : CGroup → Bool) : Screen :=
  if (s.ctx k).st = .saved then .done (s.keepEarly k m)
  else
  match s.cgroup k m.hdr.group with
  | none => .done (s.count BAD_MSGS (k + 1) 1)
  | some g =>
    let wait (x : Screen) : Screen := match s.opRec k m.hdr.oprec with
      | some r => if m.hdr.mtype ≤ 2 ∧ s.dstClearing k r m.hdr.epoch = true then .done (s.keepEarly k m) else x
      | none => x
    if g.job ≠ m.hdr.job ∨ senderOk g = false ∨ g.nmem ≤ m.hdr.sender ∨ g.carriesType m.hdr.mtype = false then .done (s.count BAD_MSGS (k + 1) 1)
    else if m.hdr.pgen ≠ s.pgen k then
      let s := s.count GEN_DISCARDS (k + 1) 1
      .done (match (s.ctx k).epoch m.hdr.epoch with
        | some e => if e.st = .opened then s.strike k e.n else s
        | none => s)
    else if (s.stepGroup k).isNone || g.xjob then .apply g
    else
      let c := s.ctx k
      let stale := Screen.done (s.count STALE_DISCARDS (k + 1) 1)
      match c.epoch m.hdr.epoch with
      | some e =>
        if e.st = .opened ∨ e.st = .closed then
          if m.hdr.run = e.run then wait (.apply g) else if e.run < m.hdr.run then .done (s.keepEarly k m) else stale
        else if e.st = .squashed ∧ c.runNext ≤ m.hdr.run then .done (s.keepEarly k m)
        else stale
      | none =>
        if (c.epochs.all fun e => e.n < m.hdr.epoch) && s.val COMMITTED_STEP (k + 1) < m.hdr.epoch then .done (s.keepEarly k m) else stale

/-- From any other member. -/
def fromOther (m : CMsg) (g : CGroup) : Bool := m.hdr.sender != g.rank
/-- From the member before this one. -/
def fromPrev (m : CMsg) (g : CGroup) : Bool := m.hdr.sender == g.prev && 1 < g.nmem

/-- The reduction that a message names, of its group. -/
def State.opOf (s : State) (k : Nat) (m : CMsg) : Option OpRec :=
  match s.opRec k m.hdr.oprec with
  | some r => if r.group = m.hdr.group then some r else none
  | none => none

/-! ### Messages of reductions -/

def State.onStart (s : State) (k : Nat) (m : CMsg) : State :=
  match s.screen k m (fromOther m) with
  | .done s => s
  | .apply _ =>
    match s.opOf k m with
    | none => s.count BAD_MSGS (k + 1) 1
    | some _ => s.updOp k m.hdr.oprec m.hdr.epoch fun o => { o with start := some (o.start.getD (s.clock 8)) }

/-- SEG: buffered until the member's status is decided and the segment is whole (R383). -/
def State.onSeg (s : State) (k : Nat) (m : CMsg) : State :=
  match s.screen k m (fromPrev m) with
  | .done s => s
  | .apply g =>
    match s.opOf k m with
    | none => s.count BAD_MSGS (k + 1) 1
    | some r =>
      let n := m.hdr.epoch
      let s := s.updOp k m.hdr.oprec n fun o => { o with waiting := o.waiting ++ [m] }
      if (s.opRun k m.hdr.oprec n).status.isSome && m.hdr.endB then s.runWaiting k m.hdr.oprec r g n else s

/-- BIT: added into the destination and passed on round the ring (R389). -/
def State.onBit (s : State) (k : Nat) (m : CMsg) : State :=
  match s.screen k m (fromPrev m) with
  | .done s => s
  | .apply g =>
    match s.opOf k m with
    | none => s.count BAD_MSGS (k + 1) 1
    | some r =>
      let n := m.hdr.epoch
      let op := m.hdr.oprec
      s.opWrite k r n fun s =>
      let (s, x) := match m.payload with
        | .bits bs => s.addBits k r n m.hdr.offset bs
        | _ => (s, {})
      match x.poison with
      | some a => s.endpointPoison k n a
      | none =>
      let s := if x.bad then s.updOp k op n fun o => { o with exhausted := true } else s
      let s := if g.next = m.hdr.origin then s else s.sendMsg k m.hdr.group g.next { m with hdr := { m.hdr with sender := g.rank } }
      if m.hdr.endB then
        s.partDone k op r g n m.hdr.origin g.nmem fun o =>
          { o with contrib := o.contrib ||| m.contrib, taint := o.taint ||| m.taint, sumw := o.sumw + m.hdr.sumw }
      else s

/-- The result of a segment is whole at this member: written, its anchors kept, and passed on (R387, R390). -/
def State.takeRes (s : State) (k op : Nat) (r : OpRec) (g : CGroup) (n j : Nat) (ms : List CMsg) : State :=
  s.opWrite k r n fun s =>
  let sg := ms.foldl Seg.take { form := r.form }
  let (s, x) := if r.op = 1 then (s, {}) else s.writeResult k r g n j sg
  match x.poison with
  | some a => s.endpointPoison k n a
  | none =>
  let an := if r.form = 0 then []
    else if r.op = 1 then sg.groups.map fun q => (q.g, some q.anchor)
    else sg.anchors r g j
  let s := s.rewriteAnch k r an
  let o := j % g.nmem
  let s := if (g.rank + 2) % g.nmem = o then s
    else ms.foldl (fun s m => s.sendMsg k r.group g.next { m with hdr := { m.hdr with sender := g.rank } }) s
  s.partDone k op r g n j g.segs (sg.finish r x.bad)

def State.onRes (s : State) (k : Nat) (m : CMsg) : State :=
  match s.screen k m (fromPrev m) with
  | .done s => s
  | .apply g =>
    match s.opOf k m with
    | none => s.count BAD_MSGS (k + 1) 1
    | some r =>
      let n := m.hdr.epoch
      let op := m.hdr.oprec
      let o := s.opRun k op n
      if !m.hdr.endB then s.setOp k op n { o with waiting := o.waiting ++ [m] }
      else
        let mine (x : CMsg) : Bool := x.hdr.mtype == 2 && x.hdr.seg == m.hdr.seg
        let ms := o.waiting.filter mine ++ [m]
        (s.setOp k op n { o with waiting := o.waiting.filter fun x => !mine x }).takeRes k op r g n m.hdr.seg ms

/-! ### Rotations (R403, R404) -/

/-- EPOCH and COUNT of a trigger record. -/
def State.trigger (s : State) (k a n : Nat) : Nat := if s.trigHolds k a n then s.memNat k (a + 8) 8 else 0

/-- Landing buffer of rotation `i`. -/
def OpRec.landing (r : OpRec) (i : Nat) : Nat := r.dst + (i - 1) % 2 * r.poff

/-- Send rotation `i`: the own shard, or the buffer in which the one before landed. -/
def State.sendRot (s : State) (k op : Nat) (r : OpRec) (g : CGroup) (n i : Nat) : State :=
  let a := if i = 1 then r.src else r.landing (i - 1)
  let len := 32 * r.nelem
  if s.memPoisoned k a len then s.endpointPoison k n a
  else
    let h := { s.opHdr k op r g n 4 with seg := i }
    let ps := pieces (s.memRead k a len)
    let s := ps.foldl (fun s (o, b) =>
      s.sendMsg k r.group g.next { hdr := { h with offset := o / 32, endB := decide (len ≤ o + b.length) }, payload := .raw b }) s
    s.updOp k op n fun o => { o with sent := i }

/-- Send every rotation that R403 allows now, then every REL that R404 allows; `fuel` bounds their number. -/
def State.rotate (s : State) (k op : Nat) (r : OpRec) (g : CGroup) (n : Nat) : Nat → State
  | 0 => s
  | fuel + 1 =>
    let o := s.opRun k op n
    let t := r.startrec + 64 * (n % 2)
    let i := o.sent + 1
    if i + 1 ≤ g.nmem ∧ i ≤ s.trigger k t n ∧ (i = 1 ∨ i - 1 ≤ o.arrived) ∧ (i ≤ 2 ∨ i - 2 ≤ o.relGot) then
      (s.sendRot k op r g n i).rotate k op r g n fuel
    else
      let j := o.relSent + 1
      if j + 1 ≤ g.nmem ∧ j ≤ s.trigger k (t + 32) n ∧ (j + 1 = g.nmem ∨ j + 1 ≤ o.sent) then
        let s := s.sendMsg k r.group g.prev { hdr := { s.opHdr k op r g n 5 with seg := j } }
        (s.updOp k op n fun o => { o with relSent := j }).rotate k op r g n fuel
      else s

/-- A trigger record of a rotation has been written: look at every open epoch. -/
def State.onRotTrigger (s : State) (k op : Nat) : State :=
  match s.rotation k op with
  | none => s
  | some (r, g) =>
    match s.trigPoison k r.startrec 64 fun e => e.st == .opened with
    | some (n, a) => s.endpointPoison k n a
    | none =>
    (s.ctx k).epochs.foldl (fun s e => if e.st = .opened then s.rotate k op r g e.n (2 * g.nmem + 2) else s) s

/-- ROT: bytes into the landing buffer; a whole arrival advances DONE_MP. -/
def State.onRot (s : State) (k : Nat) (m : CMsg) : State :=
  match s.screen k m (fromPrev m) with
  | .done s => s
  | .apply g =>
    match s.opOf k m with
    | none => s.count BAD_MSGS (k + 1) 1
    | some r =>
      let n := m.hdr.epoch
      let op := m.hdr.oprec
      let a := r.landing m.hdr.seg + 32 * m.hdr.offset
      let (s, lost) := match m.payload with
        | .raw b => (s.memWrite k a b, s.portLost k a b.length)
        | _ => (s, none)
      if let some a := lost then s.endpointPoison k n a
      else if m.hdr.endB then
        let s := (s.updOp k op n fun o => { o with arrived := max o.arrived m.hdr.seg }).endpointAdv k r.doneMp (some n)
        s.rotate k op r g n (2 * g.nmem + 2)
      else s

/-- REL: the successor's landing buffer is free again. -/
def State.onRel (s : State) (k : Nat) (m : CMsg) : State :=
  match s.screen k m (fun g => m.hdr.sender == g.next && 1 < g.nmem) with
  | .done s => s
  | .apply g =>
    match s.opOf k m with
    | none => s.count BAD_MSGS (k + 1) 1
    | some r =>
      (s.updOp k m.hdr.oprec m.hdr.epoch fun o => { o with relGot := max o.relGot m.hdr.seg }).rotate k m.hdr.oprec r g m.hdr.epoch (2 * g.nmem + 2)

/-! ### Remote writes and adds (R401, R402, R447) -/

/-- The window that a SEND or RADD names, in the receiver's table (R376). -/
def State.winOf (s : State) (k : Nat) (m : CMsg) (g : CGroup) : Option RWin :=
  match s.rwin k m.hdr.oprec with
  | some w => if w.group = m.hdr.group ∧ w.rank = g.rank then some w else none
  | none => none

/-- The ACK of a message: its header with SEG naming what it answers (log entry 26). -/
def State.ack (s : State) (k : Nat) (m : CMsg) (g : CGroup) (p : CPayload) : State :=
  s.sendMsg k m.hdr.group m.hdr.sender
    { hdr := { m.hdr with mtype := 8, sender := g.rank, seg := m.hdr.mtype, endB := false, bmap := false, sumw := 0 }, payload := p }

/-- The epoch tag of what a message delivers. -/
def State.tagOf (s : State) (k : Nat) (m : CMsg) (g : CGroup) : Option Nat :=
  if (s.stepGroup k).isNone || g.xjob then none else some m.hdr.epoch

def State.onSend (s : State) (k : Nat) (m : CMsg) : State :=
  match s.screen k m (fun g => (s.winOf k m g).isSome) with
  | .done s => s
  | .apply g =>
    match s.winOf k m g, m.payload with
    | some w, .raw b =>
      let a := w.rbase + 32 * m.hdr.offset
      match s.memCheck k a b.length with
      | some (bad, _) => s.ack k m g (.refusal 0x43 0 bad)
      | none =>
        let s := match s.portLost k a b.length with
          | some b => s.endpointPoison k m.hdr.epoch b
          | none => s
        let s := s.memWrite k a b
        let s := if m.hdr.endB then s.endpointAdv k w.arrmp (s.tagOf k m g) else s
        s.ack k m g .empty
    | _, _ => s.count BAD_MSGS (k + 1) 1

/-- The adds of a RADD message, in order, up to the first that is refused: its code, DETAIL and address (R402; log entry 28 for the shape). -/
def State.applyRadds (s : State) (k : Nat) (w : RWin) : List (Nat × L640) → State × Option (Nat × Nat × Nat)
  | [] => (s, none)
  | (off, x) :: t =>
    let a := w.rbase + off
    let w128 := (s.storeAt k a).isSome
    match s.eauApply k a w128 x with
    | .ok (s, sp) => (s.countAdd k a sp).applyRadds k w t
    | .error (hc, d, ea) =>
      if hc = 0x60 then
        let s := s.logFault 0xFA 0x03 3 none (some k) 8 s.syndrome ea
        (s, some (hc, s.faults.length - 1, ea))
      else (s, some (hc, d, ea))

def State.onRadd (s : State) (k : Nat) (m : CMsg) : State :=
  match s.screen k m (fun g => (s.winOf k m g).isSome) with
  | .done s => s
  | .apply g =>
    match s.winOf k m g, m.payload with
    | some w, .radd es =>
      if es.any fun e => (match s.storeAt k (w.rbase + e.1) with
          | some (i, _, _) => (s.ctx k).clearing.contains i
          | none => false) then s.keepEarly k m
      else
        match s.applyRadds k w es with
        | (s, none) => s.ack k m g .empty
        | (s, some (hc, d, a)) => s.ack k m g (.refusal hc d a)
    | _, _ => s.count BAD_MSGS (k + 1) 1

/-- The transfer of a SEND that an ACK answers: core, slot, its number. -/
def State.sendAt (s : State) (k va : Nat) (ep : Nat) : Option (Nat × Nat × Xfer) :=
  (s.ctxCores k).findSome? fun c =>
    (s.core c).slots.findSome? fun e =>
      match e.2.run with
      | some r =>
        if r.epoch.getD 0 ≠ ep then none
        else (r.out.find? fun f => decide (0 < f.acks) && decide (f.dst ≤ va) && decide (va < f.dst + f.len)).map fun f => (c, e.1, f)
      | none => none

/-- ACK of a SEND: one fewer to come; a refusal halts the O queue (R401, R447). -/
def State.ackSend (s : State) (ds : Nat) (core : CoreId) (f : Xfer) (hc addr : Nat) : State :=
  if hc ≠ 0 then s.haltStream core ds hc ds addr
  else
    s.updCore core.val fun c =>
      let x := c.slot ds
      match x.run with
      | some r => c.setSlot ds { x with run := some { r with out := r.out.map fun g => if g.n = f.n then { g with acks := g.acks - 1 } else g } }
      | none => c

/-- ACK of a RADD, or of the SEND of a U instruction: it is done; a refusal halts the queue that issued it, with HC-48 for a SEND (R402, R447). -/
def State.ackRadd (s : State) (k : Nat) (a : EauAdd) (hc detail addr : Nat) : State :=
  if hc = 0 then { s with eauq := s.eauq.erase a }
  else
    let s : State := { s with eauq := s.eauq.filter fun b => !(b.k == k && b.q == a.q && b.instr == a.instr) }
    match a.q with
    | none => s
    | some q =>
      match (s.queue q).inflight.find? fun i => i.id == a.instr with
      | some i => if a.send then s.haltIssued q i 0x48 0 addr else s.haltIssued q i hc detail addr
      | none => s

/-- ACK: from the member that the window names; screened by PGEN, epoch and RUN as every message is (R376, R397, R399). -/
def State.onAck (s : State) (k : Nat) (m : CMsg) (hc detail addr : Nat) : State :=
  let win := (s.rwin k m.hdr.oprec).filter fun w => w.group == m.hdr.group && m.hdr.sender == w.rank
  match s.screen k m (fun _ => win.isSome), win with
  | .done s, _ => s
  | .apply _, none => s
  | .apply _, some w =>
      let va := w.vbase + 32 * m.hdr.offset
      let ra := s.eauq.find? fun a => a.remote && a.send == (m.hdr.seg == 6) && a.k == k && a.va / 32 == va / 32 && a.epoch.getD 0 == m.hdr.epoch
      match ra with
      | some a => s.ackRadd k a hc detail addr
      | none =>
        match if m.hdr.seg = 6 then s.sendAt k va m.hdr.epoch else none with
        | some (c, ds, f) => if h : c < 704 then s.ackSend ds ⟨c, h⟩ f hc addr else s
        | none => s.count STALE_DISCARDS (k + 1) 1

end Sys2Proof.Machine
end

