-- ==== Sys2Proof/Machine/Update.lean ====
section
/-!
DEFINITION. The Update engine: USGD, UMOM, UADAM and UFACT (R226, R227, R628, R302 to R316, R324, R326, R332).
-/

namespace Sys2Proof.Machine

open Sys2Proof.WB

/-! ### Exact numbers with quotients

`exact(…)` of R313 on finite values; beside a NaN or an infinity, what IEEE 754-2019 gives (R312; log entry 21). -/

/-- A real `n / d` with `d` positive, an infinity, or a quiet NaN with its sign and binary64 fraction (R45). -/
inductive Xr where
  | nan (s : Bool) (fr : Nat)
  | inf (s : Bool)
  | fin (n d : Dy)
deriving DecidableEq, Repr

namespace Xr

def ofDy (a : Dy) : Xr := .fin a Dy.one
def ofNat (n : Nat) : Xr := ofDy (Dy.ofInt n)

/-- The NaN that an operation on other values creates (R45). -/
def invalid : Xr := .nan false (2 ^ 51)

/-- A datum; a NaN's payload is that of an encoding of `f`. -/
def ofFp (f : Ff) : Fp → Xr
  | .nan s fr _ => .nan s (Ff.b64.quiet f s fr % 2 ^ 52)
  | .inf s => .inf s
  | x => ofDy x.val

/-- The value of an encoding of `f`. -/
def dec (f : Ff) (x : Nat) : Xr := ofFp f (Fp.decode f x)

/-- What an exact slot reads as (R69); its NaN has no payload. -/
def ofSlot (a : L640) : Xr :=
  match a.read with
  | .nan .. => invalid
  | x => ofFp Ff.b64 x

def isNan : Xr → Bool
  | .nan .. => true
  | _ => false

/-- The sign, of an infinity or a nonzero number. -/
def neg? : Xr → Bool
  | .inf s => s
  | .fin n _ => decide (n.m < 0)
  | .nan .. => false

def isZero : Xr → Bool
  | .fin n _ => n.isZero
  | _ => false

def negate : Xr → Xr
  | .nan s fr => .nan s fr
  | .inf s => .inf (!s)
  | .fin n d => .fin n.neg d

def add : Xr → Xr → Xr
  | .nan s fr, _ => .nan s fr
  | _, .nan s fr => .nan s fr
  | .inf s, .inf t => if s = t then .inf s else invalid
  | .inf s, _ => .inf s
  | _, .inf t => .inf t
  | .fin n d, .fin n' d' => if d = d' then .fin (n.add n') d else .fin ((n.mul d').add (n'.mul d)) (d.mul d')

def sub (a b : Xr) : Xr := a.add b.negate

def mul (a b : Xr) : Xr :=
  match a, b with
  | .nan s fr, _ => .nan s fr
  | _, .nan s fr => .nan s fr
  | .fin n d, .fin n' d' => .fin (n.mul n') (d.mul d')
  | _, _ => if a.isZero || b.isZero then invalid else .inf (a.neg? != b.neg?)

def div (a b : Xr) : Xr :=
  match a, b with
  | .nan s fr, _ => .nan s fr
  | _, .nan s fr => .nan s fr
  | .inf _, .inf _ => invalid
  | .inf s, _ => .inf (s != b.neg?)
  | .fin .., .inf _ => ofNat 0
  | .fin n d, .fin n' d' =>
    if n'.isZero then (if n.isZero then invalid else .inf (decide (n.m < 0)))
    else if n'.m < 0 then .fin (n.neg.mul d') (d.mul n'.neg)
    else .fin (n.mul d') (d.mul n')

def sum (l : List Xr) : Xr := l.foldl add (ofNat 0)

/-- One rounding into `f` (R36, R37, R39); a NaN keeps its sign and the payload that fits (R45). -/
def bits (f : Ff) : Xr → Nat
  | .nan s fr => f.quiet Ff.b64 s fr
  | .inf s => f.inf s
  | .fin n d => if n.isZero then 0 else (f.round (decide (n.m < 0)) n.m.natAbs d.m.natAbs (n.e - d.e)).bits

/-- The value after one rounding into `f`. -/
def rnd (f : Ff) (x : Xr) : Xr := dec f (x.bits f)

/-- The square root rounded once to binary64. -/
def sqrt64 : Xr → Xr
  | .nan s fr => .nan s fr
  | .inf s => if s then invalid else .inf false
  | .fin n d => if n.m < 0 then invalid else dec Ff.b64 (Ff.b64.roundSqrt n.m.natAbs d.m.natAbs (n.e - d.e)).bits

/-- a ≤ b of finite values. -/
def le (a b : Xr) : Bool :=
  match a, b with
  | .fin n d, .fin n' d' => (n.mul d').le (n'.mul d)
  | .inf s, _ => s
  | _, .inf t => !t
  | _, _ => false

def min (a b : Xr) : Xr := if a.le b then a else b

end Xr

/-! ### The hyperparameter record (Table 9-2) -/

/-- The fields of a record, decoded. -/
structure Hyper where
  tid : Nat
  clip : Bool
  sfmt : Ff
  nest : Bool
  cfmt : Nat
  ndiv : Nat
  lr : Xr
  wd : Xr
  beta1 : Xr
  beta2 : Xr
  eps : Xr
  bc1 : Xr
  bc2 : Xr
  maxnorm : Xr
  boff : Nat
  caddr : Nat
  normaddr : Nat

def f64At (r lo : Nat) : Xr := .dec Ff.b64 (Bits.fld r lo 64)

def hyperOf (r : Nat) : Hyper where
  tid := Bits.fld r 0 12
  clip := Bits.bit r 17
  sfmt := if Bits.bit r 18 then Ff.m48 else Ff.b32
  nest := Bits.bit r 19
  cfmt := Bits.fld r 20 4
  ndiv := Bits.fld r 32 32
  lr := f64At r 64
  wd := f64At r 128
  beta1 := f64At r 192
  beta2 := f64At r 256
  eps := f64At r 320
  bc1 := f64At r 384
  bc2 := f64At r 448
  maxnorm := f64At r 512
  boff := Bits.fld r 576 64
  caddr := Bits.fld r 640 64
  normaddr := Bits.fld r 704 64

/-- Finite, and satisfies `p`. -/
def finiteAnd (p : Xr → Bool) : Xr → Bool
  | .fin n d => p (.fin n d)
  | _ => false

def nonNeg (x : Xr) : Bool := finiteAnd (fun y => (Xr.ofNat 0).le y) x
def positive (x : Xr) : Bool := finiteAnd (fun y => !y.le (Xr.ofNat 0)) x
def atLeastOne (x : Xr) : Bool := finiteAnd (fun y => (Xr.ofNat 1).le y) x
def belowOne (x : Xr) : Bool := nonNeg x && finiteAnd (fun y => !(Xr.ofNat 1).le y) x

/-- Byte offset of the lowest field that fails (R307, R309): fields by lowest bit, those that the operation `op` uses. -/
def hyperBad (op r : Nat) (enabled : Bool) : Option Nat :=
  let h := hyperOf r
  let mom := 1 ≤ op
  let adam := 2 ≤ op
  (([(0, enabled), (12, Bits.fld r 12 5 == 0), (20, [0, 1, 2, 15].contains h.cfmt), (24, Bits.fld r 24 8 == 0), (32, h.ndiv != 0),
      (64, nonNeg h.lr), (128, nonNeg h.wd), (192, !mom || belowOne h.beta1), (256, !adam || belowOne h.beta2),
      (320, !adam || positive h.eps), (384, !adam || atLeastOne h.bc1), (448, !adam || atLeastOne h.bc2),
      (512, !h.clip || positive h.maxnorm), (576, h.boff != 0 && h.boff % 64 == 0), (704, !h.clip || h.normaddr % 32 == 0),
      (768, Bits.fld r 768 256 == 0)] : List (Nat × Bool)).find? fun e => !e.2).map (·.1 / 8)

/-! ### Operands (Table 6-19, R628) -/

structure UOps where
  op : Nat
  fg : Nat
  aw : Nat
  ag : Nat
  agr : Nat
  as1 : Nat
  as2 : Nat
  as3 : Nat
  ah : Nat
  rows : Nat
  cols : Nat
  /-- elements -/
  n : Nat
  /-- binary32 of SCL -/
  scl : Nat
deriving DecidableEq, Repr

def uOps (x : QueueSt) (op w : Nat) : UOps :=
  let sn := x.s (Bits.fld w 68 5)
  let rows := if op = 3 then sn % 2 ^ 32 else 1
  let cols := if op = 3 then sn / 2 ^ 32 else sn
  { op := op, fg := Bits.fld w 32 4, aw := x.a (Bits.fld w 40 4), ag := x.a (Bits.fld w 44 4), agr := x.a (Bits.fld w 48 4)
    as1 := x.a (Bits.fld w 52 4), as2 := x.a (Bits.fld w 56 4), as3 := x.a (Bits.fld w 60 4), ah := x.a (Bits.fld w 64 4)
    rows := rows, cols := cols, n := rows * cols, scl := x.s (Bits.fld w 73 5) % 2 ^ 32 }

/-- The state arrays of the operation: base and count. -/
def UOps.states (o : UOps) : List (Nat × Nat) :=
  match o.op with
  | 0 => []
  | 1 => [(o.as1, o.n)]
  | 2 => [(o.as1, o.n), (o.as2, o.n)]
  | _ => [(o.as1, o.n), (o.as2, o.rows), (o.as3, o.cols)]

/-- Bytes of a state value. -/
def sBytes (f : Ff) : Nat := if f = Ff.m48 then 6 else 4
def sAlign (f : Ff) : Nat := if f = Ff.m48 then 2 else 4

/-- The base alignments of R628, in the order AW, states, AG, AGR. -/
def UOps.aligned (o : UOps) (h : Hyper) : Option (Nat × Nat × Nat) :=
  firstOf ([misaligned o.aw 2] ++ o.states.map (fun e => misaligned e.1 (sAlign h.sfmt)) ++ [misaligned o.ag (Fmt.align o.fg),
    if o.fg = 7 then misaligned o.agr 64 else none])

/-- Arrays that the instruction reads, then those that it writes: base, stride, count.  `c`: the committed bank. -/
def UOps.reads (o : UOps) (h : Hyper) (c : Nat) : List (Nat × Nat × Nat) :=
  let b (a : Nat) : Nat := Bits.wrap (a + c * h.boff : Nat) 64
  (if h.clip then [(h.normaddr, 96, 1)] else []) ++ (if o.fg = 7 then [] else [(o.ag, Fmt.stride o.fg, o.n)])
    ++ [(b o.aw, 6, o.n)] ++ o.states.map fun e => (b e.1, sBytes h.sfmt, e.2)

def UOps.writes (o : UOps) (h : Hyper) (c : Nat) : List (Nat × Nat × Nat) :=
  let b (a : Nat) : Nat := Bits.wrap (a + (1 - c) * h.boff : Nat) 64
  [(b o.aw, 6, o.n)] ++ o.states.map (fun e => (b e.1, sBytes h.sfmt, e.2))
    ++ (if h.cfmt = 15 then [] else [(b h.caddr, Fmt.stride h.cfmt, o.n)])

/-- HC-48 of an array: the address of the first element that no mapping covers whole (R227, R230). -/
def State.arrayMapped (s : State) (k : Nat) (e : Nat × Nat × Nat) : Option (Nat × Nat × Nat) :=
  (s.memCheck k e.1 (e.2.1 * e.2.2)).map fun b => (0x48, 0, e.1 + (b.1 - e.1) / e.2.1 * e.2.1)

/-! ### Writes into remote windows (R447) -/

/-- The remote window in which an array of `n` bytes begins, with the group and the address for which its base stands. -/
def State.arrayWin (s : State) (k a : Nat) : Option (RWin × CGroup × Nat) :=
  match s.whereIs k a with
  | .window w => (s.cgroup k w.group).map fun g => (w, g, w.rbase + (a - w.vbase))
  | _ => none

/-- HC-48 of an array that is written: in memory as every array; in a window of this device at the address that it stands for; in another
member's, it must lie in the window and fill whole units of 32 bytes, as SEND carries them (R401, Table 11-4; DESIGN CHOICE, log entry 124). -/
def State.arrayTaken (s : State) (k : Nat) (e : Nat × Nat × Nat) : Option (Nat × Nat × Nat) :=
  match s.arrayWin k e.1 with
  | none => s.arrayMapped k e
  | some (w, g, a) =>
    let n := e.2.1 * e.2.2
    if g.rank = w.rank then s.arrayMapped k (a, e.2)
    else if n ≠ 0 ∧ (e.1 % 32 ≠ 0 ∨ n % 32 ≠ 0) then some (0x48, 0, e.1)
    else if w.vbase + w.npage * pageSize < e.1 + n then
      some (0x48, 0, e.1 + (w.vbase + w.npage * pageSize - e.1) / e.2.1 * e.2.1)
    else none

/-- The SEND messages of an array that lies in another member's window. -/
def State.arraySends (s : State) (k n a : Nat) (bs : List Byte) : List (RWin × CMsg) :=
  match s.arrayWin k a with
  | some (w, g, _) => if g.rank = w.rank then [] else (s.sendsOf k w a (some n) bs true).map fun m => (w, m)
  | none => []

/-- Write the bytes of an array: in memory; in a window of this device, at the address that it stands for, with the arrival Milepost's advance; or
as SENDs, each with an entry that waits for its ACK, where its group is not of another job (R345, R401). -/
def State.putOut (s : State) (q : QRef) (k n a : Nat) (bs : List Byte) : State :=
  match s.arrayWin k a with
  | none => s.memWrite k a bs
  | some (w, g, b) =>
    if bs.isEmpty then s
    else if g.rank = w.rank then (s.memWrite k b bs).arriveAt k w (some n)
    else
      (s.arraySends k n a bs).foldl (fun s (w, m) =>
        let e : EauAdd := { q := some q, instr := s.nextId, k := k, va := w.vbase + 32 * m.hdr.offset, epoch := some n, pgen := s.pgen k, remote := true,
                            send := true }
        let s : State := if g.xjob then s else { s with eauq := s.eauq ++ [e] }
        s.sendOut k w (some n) m) s

/-- The address of the committed bank byte of tensor `t`, and the committed bank c(t) (R303). -/
def State.bankAddr (s : State) (k t : Nat) : Nat := Bits.wrap (s.val BANKMAP_ADDR (k + 1) + t : Nat) 64
def State.cbankOf (s : State) (k t : Nat) : Nat := s.memNat k (s.bankAddr k t) 1 % 2

/-- ENABLE and NELEM of a tensor (Table 9-1). -/
def State.tensorOn (s : State) (k t : Nat) : Bool := (s.blobByte TENSORS (k + 1) (8 * t + 7)).toNat / 128 == 1
def State.nelem (s : State) (k t : Nat) : Nat := s.blobNat TENSORS (k + 1) (8 * t) 6

/-- The bank of tensor `t` is pinned (R332, R464). -/
def Ctx.pinned (c : Ctx) (t bank : Nat) : Bool := c.pins.any fun p => !p.carried && p.item == t && p.bank == bank

/-! ### The gradient (R310 to R312) -/

/-- The clip scale c (R311); `S`: what the slot at NORMADDR reads as.  A zero s gives +0 only where S is a usable number: with CLIP 1 and S a NaN,
infinite or negative, c is NaN (DESIGN CHOICE, log entry 121). -/
def clipScale (h : Hyper) (scl : Nat) (S : Fp) : Xr :=
  let s := Xr.dec Ff.b32 scl
  match s with
  | .nan .. => s
  | _ =>
    if !s.isZero && s.neg? then .invalid
    else if !h.clip then s
    else
      match S with
      | .num sg m e =>
        if sg && m ≠ 0 then .invalid
        else
          let a := h.maxnorm.mul (Xr.ofNat h.ndiv)
          let sq := a.mul a
          if (Xr.ofDy ⟨m, e⟩).le sq then s.min (Xr.ofNat 1)
          else s.min (sq.div (Xr.ofDy ⟨m, e⟩)).sqrt64
      | _ => .invalid

/-- The exact gradients G. -/
def State.grads (s : State) (k : Nat) (o : UOps) : List Xr :=
  if o.fg = 7 then (s.w128Vals k o.ag o.n).map Xr.ofSlot
  else (List.range o.n).map fun e =>
    let v := s.memNat k (o.ag + Fmt.stride o.fg * e) (Fmt.stride o.fg)
    if o.fg = 8 then .ofSlot (L640.ofNat v) else .dec ((Fmt.ff o.fg).getD Ff.b32) v

/-- The `n` values of an array in `f`, `w` bytes apart. -/
def State.arr (s : State) (k a w n : Nat) (f : Ff) : List Nat := (List.range n).map fun e => s.memNat k (a + w * e) w % 2 ^ f.width

/-! ### The operations (R313, R314) -/

/-- New states as bits, array by array, and each element's step u. -/
structure Stepped where
  states : List (List Nat)
  us : List Xr

def valOf (f : Ff) (b : Nat) : Xr := .dec f b

/-- m' = rndS(BETA1 m + (1 - BETA1) g), or + g in UMOM. -/
def momentum (h : Hyper) (w : Xr) (m g : Xr) : Nat := ((h.beta1.mul m).add (w.mul g)).bits h.sfmt

/-- u = rnd64(BC1 m' / (d + EPS)), d = rnd64(sqrt(BC2 v)). -/
def precond (h : Hyper) (m v : Xr) : Xr := ((h.bc1.mul m).div ((h.bc2.mul v).sqrt64.add h.eps)).rnd Ff.b64

def one_ : Xr := Xr.ofNat 1

def stepMom (h : Hyper) (ms gs : List Xr) : Stepped :=
  let m' := List.zipWith (momentum h one_) ms gs
  { states := [m']
    us := List.zipWith (fun g b => let m := valOf h.sfmt b; if h.nest then g.add (h.beta1.mul m) else m) gs m' }

def stepAdam (h : Hyper) (ms vs gs : List Xr) : Stepped :=
  let m' := List.zipWith (momentum h (one_.sub h.beta1)) ms gs
  let v' := List.zipWith (fun v g => ((h.beta2.mul v).add (((one_.sub h.beta2).mul g).mul g)).bits h.sfmt) vs gs
  { states := [m', v'], us := List.zipWith (fun m v => precond h (valOf h.sfmt m) (valOf h.sfmt v)) m' v' }

/-- Rows of `c` values. -/
def rowsOf (c : Nat) (l : List Xr) : Nat → List (List Xr)
  | 0 => []
  | n + 1 => l.take c :: rowsOf c (l.drop c) n

/-- A factor: rndS(BETA2 old + (1 - BETA2) sum / count). -/
def factor (h : Hyper) (count : Nat) (old : Xr) (l : List Xr) : Nat :=
  ((h.beta2.mul old).add (((one_.sub h.beta2).mul (Xr.sum l)).div (Xr.ofNat count))).bits h.sfmt

def stepFact (h : Hyper) (R C : Nat) (ms rs ks gs : List Xr) : Stepped :=
  let q2 := gs.map fun g => let q := g.rnd Ff.b32; q.mul q
  let qr := rowsOf C q2 R
  let r' := List.zipWith (factor h C) rs qr
  let k' := List.zipWith (fun k j => factor h R k (qr.map fun row => row.getD j .invalid)) ks (List.range C)
  let rv := r'.map (valOf h.sfmt)
  let kv := k'.map (valOf h.sfmt)
  let T := Xr.sum rv
  let vhat := rv.flatMap fun r => kv.map fun k => if T.isZero then Xr.ofNat 0 else ((r.mul k).mul (Xr.ofNat R)).div T
  let m' := List.zipWith (momentum h (one_.sub h.beta1)) ms gs
  { states := [m', r', k'], us := List.zipWith (fun m v => precond h (valOf h.sfmt m) v) m' vhat }

/-- Run the operation over the states read. -/
def UOps.run (o : UOps) (h : Hyper) (st : List (List Xr)) (gs : List Xr) : Stepped :=
  match o.op with
  | 0 => { states := [], us := gs }
  | 1 => stepMom h (st.getD 0 []) gs
  | 2 => stepAdam h (st.getD 0 []) (st.getD 1 []) gs
  | _ => stepFact h o.rows o.cols (st.getD 0 []) (st.getD 1 []) (st.getD 2 []) gs

/-- LR u + LR WD w. -/
def updateOf (h : Hyper) (u w : Xr) : Xr := (h.lr.mul u).add ((h.lr.mul h.wd).mul w)

/-- Write packed values of `w` bytes from `a`. -/
def State.putArr (s : State) (q : QRef) (k n a w : Nat) (l : List Nat) : State := s.putOut q k n a (l.flatMap (Bits.toBytes w))

/-- The effect of a U instruction of queue `q` over its elements. -/
def State.update (s : State) (q : QRef) (k n : Nat) (o : UOps) (h : Hyper) (c : Nat) : State :=
  let b (bank a : Nat) : Nat := Bits.wrap (a + bank * h.boff : Nat) 64
  let S := (L640.ofNat (s.memNat k h.normaddr 96)).read
  let cs := clipScale h o.scl S
  let gs := (s.grads k o).map fun G => ((G.mul cs).div (Xr.ofNat h.ndiv)).rnd Ff.b64
  let wb := s.arr k (b c o.aw) 6 o.n Ff.m48
  let ws := wb.map (valOf Ff.m48)
  let st := o.states.map fun e => (s.arr k (b c e.1) (sBytes h.sfmt) e.2 h.sfmt).map (valOf h.sfmt)
  let r := o.run h st gs
  let ups := List.zipWith (updateOf h) r.us ws
  let w' := List.zipWith (fun w u => (w.sub u).bits Ff.m48) ws ups
  let same (a b : Nat) : Bool := a == b || ((Fp.decode Ff.m48 a).isZero && (Fp.decode Ff.m48 b).isZero)
  let stall := ((ups.zip (wb.zip w')).filter fun (u, a, b) => !u.isZero && same a b && (Fp.decode Ff.m48 b).isNan == false).length
  let s := s.putArr q k n (b (1 - c) o.aw) 6 w'
  let s := (o.states.zip r.states).foldl (fun s (e, l) => s.putArr q k n (b (1 - c) e.1) (sBytes h.sfmt) l) s
  let s := if h.cfmt = 15 then s
    else s.putArr q k n (b (1 - c) h.caddr) (Fmt.stride h.cfmt)
      (w'.map fun v => (valOf Ff.m48 v).bits ((Fmt.ff h.cfmt).getD Ff.b32))
  let bad (f : Ff) (l : List Nat) : Bool := l.any fun v => !(Fp.decode f v).isFin
  let ev := cs.isNan || bad Ff.m48 w' || r.states.any (bad h.sfmt)
  let u := s.ival CENS_UEXP (k + 1)
  let s := s.updCensus k (some n) h.tid fun x =>
    let x := gs.foldl (fun x g => x.countElem u (Fp.decode Ff.b64 (g.bits Ff.b64))) x
    { x with stall := x.stall + stall }
  s.updEpoch k n fun e => { e with
    evidence := e.evidence || ev
    writes := Tab.upd 0 e.writes h.tid (· + o.n)
    overlay := Tab.set none e.overlay h.tid (some (1 - c)) }

/-! ### Issue -/

/-- The checks of the operands after the record's own: bases, bank map, W128 source, mappings. -/
def State.uCheck (s : State) (k : Nat) (o : UOps) (h : Hyper) (c : Nat) : Option (Nat × Nat × Nat) :=
  firstOf ([o.aligned h, s.arrayMapped k (s.bankAddr k h.tid, 1, 1), if o.fg = 7 then s.w128Source k o.ag o.agr o.n else none]
    ++ (o.reads h c).map (s.arrayMapped k) ++ (o.writes h c).map (s.arrayTaken k))

/-- The first element of an array with a poisoned line that the instruction reads, or that it writes behind a CXL port that is down (R230, R439,
R450). -/
def State.uPoison (s : State) (k : Nat) (o : UOps) (h : Hyper) (c : Nat) : Option Nat :=
  match if o.fg = 7 then s.w128Poison k o.ag o.n else none with
  | some a => some a
  | none => ((o.reads h c).findSome? fun e => firstElem (s.memPoisoned k) e.1 e.2.1 e.2.2).or
      ((o.writes h c).findSome? fun e =>
        firstElem (fun a n => (s.portLost k a n).isSome) ((s.arrayWin k e.1).elim e.1 fun x => x.2.2) e.2.1 e.2.2)

/-- The writes' SENDs to a group of another job are held effects for which the effect queue has no room: U waits (R345). -/
def State.uEffectWaits (s : State) (k n : Nat) (o : UOps) (h : Hyper) (c : Nat) : Bool :=
  let l := ((o.writes h c).flatMap fun e => s.arraySends k n e.1 (List.replicate (e.2.1 * e.2.2) 0)).filter fun e =>
    (s.cgroup k e.1.group).any fun g => g.xjob
  !l.isEmpty && !(s.ctx k).effectRoom (l.map fun e => .send e.1.group e.1.rank e.2)

/-- A U instruction: HC-51 without epochs; the wait of R305; nothing for a count of zero (R227); its record's checks; the wait of
R332; its operands' checks; its effect. -/
def bodyU (op : Nat) (q : QRef) (s : State) (w : Nat) : Act :=
  let k := s.ctxOf q
  let x := s.queue q
  let o := uOps x op w
  let co := s.core q.core.val
  match s.epochOf k x with
  | none => .halt s 0x51 0 o.ah
  | some n =>
    if (s.ctx k).oldest ≠ some n then .wait s .uIssue false
    else if o.n = 0 then .done s
    else
      .check s (firstOf [coreRegion o.ah 128 64, co.access .U false o.ah 128]) <|
        if linePoisoned co.poison o.ah 128 then hc60 s q o.ah
        else
          let r := co.readNat o.ah 128
          let h := hyperOf r
          match hyperBad op r (s.tensorOn k h.tid) with
          | some d => .halt s 0x50 d o.ah
          | none =>
            let c := s.cbankOf k h.tid
            if (s.ctx k).pinned h.tid (1 - c) then .wait s .uIssue false
            else
              .check s (s.uCheck k o h c) <|
                match s.uPoison k o h c with
                | some a => hc60 s q a
                | none =>
                  if s.uEffectWaits k n o h c then .notYet
                  else
                    let t := s.update q k n o h c
                    .go t (if t.eauq = s.eauq then .now else .sends) [] .seq

/-- USGD: the plain step. -/
def execUsgd (at_ : QRef) (s : State) : Host.Outcome State Fault Refusal := issue 0x500 true at_ s (bodyU 0 at_ s)
/-- UMOM: with momentum in state 1. -/
def execUmom (at_ : QRef) (s : State) : Host.Outcome State Fault Refusal := issue 0x501 true at_ s (bodyU 1 at_ s)
/-- UADAM: moments in states 1 and 2. -/
def execUadam (at_ : QRef) (s : State) : Host.Outcome State Fault Refusal := issue 0x502 true at_ s (bodyU 2 at_ s)
/-- UFACT: row factors in state 2, column factors in state 3. -/
def execUfact (at_ : QRef) (s : State) : Host.Outcome State Fault Refusal := issue 0x503 true at_ s (bodyU 3 at_ s)

/-- U_ISSUE_WAIT_DONE: the U queue looks again at the instruction that waits (R305, R332). -/
def execUIssueWaitDone (core : CoreId) (s : State) : Host.Outcome State Fault Refusal :=
  onCore core.val s fun s =>
    let q : QRef := ⟨core, .U⟩
    let x := s.queue q
    match x.wait, x.fetch with
    | some .uIssue, some w => s.resume (0x500 + Bits.fld w 0 8) q (bodyU (Bits.fld w 0 8) q)
    | _, _ => s

end Sys2Proof.Machine
end

