-- ==== Sys2Proof/Machine/Stage.lean ====
section
/-!
DEFINITION. Bivouac's images, records and copies (R459 to R467).
-/

namespace Sys2Proof.Machine

open Sys2Proof.WB

/-! ### Configuration (Tables 14-1 and 14-6) -/

/-- The Bivouac record of a context. -/
structure BivRec where
  sbase : Nat
  stage : Nat
  parea : Nat
  snsid : Nat
  genEvery : Nat
  slotc : Nat
  shev : Nat
  flev : Nat
  sslots : Nat
  fkeep : Nat
  stgt : Nat
  group : Nat
  prank : Nat
  rrank : Nat
  verify : Nat
  enable : Bool
deriving DecidableEq, Repr

def State.biv (s : State) (k : Nat) : BivRec :=
  let r := s.blobNat BIV_CONFIG (k + 1) 0 64
  { sbase := Bits.fld r 448 64, stage := Bits.fld r 384 64, parea := Bits.fld r 320 64, snsid := Bits.fld r 288 32
    genEvery := Bits.fld r 256 32, slotc := Bits.fld r 240 16, shev := Bits.fld r 232 8, flev := Bits.fld r 224 8
    sslots := Bits.fld r 216 8, fkeep := Bits.fld r 208 8, stgt := Bits.fld r 202 6, group := Bits.fld r 196 6
    prank := Bits.fld r 184 12, rrank := Bits.fld r 172 12, verify := Bits.fld r 6 2, enable := Bits.bit r 0 }

/-- A save record. -/
structure SaveRec where
  base : Nat
  boff : Nat
  len : Nat
  tid : Nat
deriving DecidableEq, Repr

/-- The enabled save records, in record order. -/
def State.saves (s : State) (k : Nat) : List SaveRec :=
  if s.blobTouched SAVESET (k + 1) then
    (List.range 256).filterMap fun i =>
      let r := s.blobNat SAVESET (k + 1) (32 * i) 32
      if Bits.bit r 0 then
        some { base := Bits.fld r 192 64, boff := Bits.fld r 128 64, len := Bits.fld r 64 64, tid := Bits.fld r 2 12 }
      else none
  else []

/-- The carried regions in use, in region order. -/
def State.carriedRegions (s : State) (k : Nat) : List (Nat × Carried) :=
  if s.blobTouched CARRIED (k + 1) then
    (List.range 16).filterMap fun i =>
      let c := s.carried k i
      if c.len = 0 then none else some (i, c)
  else []

/-! ### The image (R459) -/

/-- Bytes of the state block. -/
def stateBlock : Nat := 131072

/-- A multiple of 64 bytes. -/
def pad64 (n : Nat) : Nat := 64 * Bits.cdiv n 64

/-- The arrays of an image: start and length in device memory, in order. -/
def State.imageParts (s : State) (k : Nat) : List (Nat × Nat) :=
  (s.saves k).map (fun r => (r.base + s.cbankOf k r.tid * r.boff, r.len))
    ++ (s.carriedRegions k).map fun e => (e.2.base + Tab.get 0 (s.ctx k).cbank 0 * e.2.boff, e.2.len)

/-- BYTES of an image. -/
def State.imageBytes (s : State) (k : Nat) : Nat := stateBlock + ((s.imageParts k).map fun p => pad64 p.2).sum

/-- Copy the listed bytes of device memory [a, a + n) into an image at `off`. -/
def copyPart (m : Tab Byte) (a n off : Nat) (im : Tab Byte) : Tab Byte :=
  (m.filter fun e => decide (a ≤ e.1) && decide (e.1 < a + n)).foldl (fun im e => Tab.set 0 im (off + (e.1 - a)) e.2) im

/-- The state block (R459, item 1). -/
def State.stateBlock (s : State) (k step : Nat) : Tab Byte :=
  let c := s.ctx k
  let put (im : Tab Byte) (off n x : Nat) : Tab Byte := Tab.setRange 0 im off (Bits.toBytes n x)
  let im := c.mpmap.foldl (fun im e => if e.2.valid then put im (8 * e.1) 8 (s.pmp e.2.pmp).cval else im) []
  let im := c.census.foldl (fun im e => if e.1 < 4096 then put im (65536 + 4 * e.1) 4 e.2.qrun else im) im
  let im := put im 81920 8 step
  let im := put im 81928 8 (step * s.val GLOBAL_BATCH (k + 1))
  put im 81936 1 (s.val REJECT_RUN (k + 1))

/-- The image of a context at its committed step. -/
def State.image (s : State) (k step : Nat) : Tab Byte :=
  let c := s.ctx k
  ((s.imageParts k).foldl (fun (acc : Tab Byte × Nat) p => (copyPart c.mem p.1 p.2 acc.2 acc.1, acc.2 + pad64 p.2))
    (s.stateBlock k step, Machine.stateBlock)).1

/-! ### Digests (R461, R462) -/

def chunkSize : Nat := 67108864

/-- SHA3-256 of the configuration: MAP, TENSORS, GSTORES, CARRIED, SAVESET. -/
def State.configDigest (s : State) (k : Nat) : Nat :=
  let b (e n : Nat) : List Byte := s.blob e (k + 1) 0 n
  Sha3.digest (b MAP 2048 ++ b TENSORS 32768 ++ b GSTORES 2048 ++ b CARRIED 384 ++ b SAVESET 8192)

def chunksOf (bytes : Nat) : Nat := Bits.cdiv bytes chunkSize

/-- The digests of the chunks of an image. -/
def chunkDigests (im : Tab Byte) (bytes : Nat) : List Nat :=
  (List.range (chunksOf bytes)).map fun i => Sha3.digest (Tab.getRange 0 im (chunkSize * i) (min chunkSize (bytes - chunkSize * i)))

/-- The header bytes from 64 through the last chunk digest. -/
def manifest (cfg : Nat) (ds : List Nat) : List Byte :=
  Bits.toBytes 32 cfg ++ List.replicate 4000 0 ++ ds.flatMap (Bits.toBytes 32)

/-! ### Generation records (Table 14-2) -/

def GenSlot.toNat (g : GenSlot) : Nat :=
  Bits.ofBool g.valid + 2 * Bits.ofBool g.complete + 16 * g.tier + 256 * g.slot + 2 ^ 80 * g.invRev + 2 ^ 96 * (g.pgen % 2 ^ 32)
    + 2 ^ 128 * (g.step % 2 ^ 64) + 2 ^ 192 * g.bytes + 2 ^ 256 * g.digest

/-- Slots of a tier (R466). -/
def BivRec.slots (b : BivRec) (tier : Nat) : Nat := if tier = 0 then 2 else if tier = 1 then b.fkeep else b.sslots

/-- The records of the slots that a tier holds, the oldest first. -/
def Ctx.tierGens (c : Ctx) (b : BivRec) (tier : Nat) : List GenSlot := c.gens.filter fun g => g.tier == tier && decide (g.slot < b.slots tier)

/-- The oldest slot of a tier that is not COMPLETE, one never used before any other. -/
def Ctx.freeGen (c : Ctx) (b : BivRec) (tier : Nat) : Option Nat :=
  let mine := c.tierGens b tier
  match (List.range (b.slots tier)).find? fun i => !mine.any fun g => g.slot == i with
  | some i => some i
  | none => (mine.find? fun g => !g.complete).map (·.slot)

/-- The slot that a tier reuses: the oldest that is not COMPLETE, else the oldest (R466). -/
def Ctx.reuse (c : Ctx) (b : BivRec) (tier : Nat) : Nat :=
  (c.freeGen b tier).getD (((c.tierGens b tier).head?.map (·.slot)).getD 0)

/-! ### Taking and copying (R463 to R467) -/

/-- A generation of step `n` is due (R463). -/
def State.genDue (s : State) (k n : Nat) : Bool :=
  let b := s.biv k
  b.enable && b.genEvery != 0 && n != 0 && n % b.genEvery == 0

/-- The context is paired: PAIRED or DEGRADED (R465, R470, R471). -/
def State.paired (s : State) (k : Nat) : Bool := s.val PAIR_STATE (k + 1) == 1 || s.val PAIR_STATE (k + 1) == 2

/-- The tiers to which generation number `i` of a context is copied, in their order (R465, R471, R472). -/
def State.tiersOf (s : State) (k i : Nat) : List Nat :=
  let b := s.biv k
  let st := s.val PAIR_STATE (k + 1)
  let p := if s.paired k then [0] else []
  let f := if b.flev ≠ 0 ∧ i % b.flev = 0 then [1] else []
  let h := if b.shev ≠ 0 ∧ i % b.shev = 0 then [2] else []
  if st = 2 then [1] ++ p ++ h else p ++ f ++ h

/-- The banks that a generation pins (R463, R464). -/
def State.genPins (s : State) (k step : Nat) : List Pin :=
  (s.saves k).map (fun r => { item := r.tid, bank := s.cbankOf k r.tid, step := step })
    ++ (s.carriedRegions k).map fun e => { carried := true, item := e.1, bank := Tab.get 0 (s.ctx k).cbank 0, step := step }

/-- Bivouac takes generation `n`, unless the stage is not free or the image is too large (R462, R463, R465). -/
def State.takeGen (s : State) (k n : Nat) : State :=
  let c := s.ctx k
  let bytes := s.imageBytes k
  if c.stage.isSome then s.count GEN_SKIPPED (k + 1) 1
  else if (s.biv k).slotc < chunksOf bytes then (s.count GEN_SKIPPED (k + 1) 1).event 0x0033 (some k) 8 (evData2 n bytes)
  else
    let im := s.image k n
    let st : Stage := { step := n, pgen := s.pgen k, bytes := bytes, image := im, cfg := s.configDigest k, chunks := chunkDigests im bytes
                        digest := Sha3.digest (manifest (s.configDigest k) (chunkDigests im bytes)), tiers := s.tiersOf k (c.genCount + 1) }
    let pins := s.genPins k n
    s.updCtx k fun c => { c with stage := some st, genCount := c.genCount + 1, pins := c.pins ++ pins }

/-- The record of the slot that a stage's generation takes. -/
def State.stageSlot (s : State) (st : Stage) (tier slot : Nat) : GenSlot :=
  { tier := tier, slot := slot, valid := true, step := st.step, pgen := st.pgen, invRev := s.val INV_REV 0, bytes := st.bytes, digest := st.digest
    cfg := st.cfg, chunks := st.chunks }

/-- The header of a slot: record, configuration digest, chunk digests, zeros to 1 MiB (R462). -/
def GenSlot.head (g : GenSlot) : List Byte :=
  let h := Bits.toBytes 64 g.toNat ++ manifest g.cfg g.chunks
  h ++ List.replicate (0x100000 - h.length) 0

/-- Write the stage's slot, header and image, into device memory at STAGE (R462). -/
def State.writeStage (s : State) (k : Nat) (st : Stage) : State :=
  let a := (s.biv k).stage
  let head := (s.stageSlot st 0 0).head
  let s := s.updCtx k fun c => { c with
    mem := Tab.clearRange c.mem a (a + 0x100000 + st.bytes), poison := clearPoison c.poison a (0x100000 + st.bytes) }
  let s := s.hubWrite k a head
  s.updCtx k fun c => { c with mem := st.image.foldl (fun m e => Tab.set 0 m (a + 0x100000 + e.1) e.2) c.mem }

/-- Bytes of a slot of a context's tiers (R462). -/
def BivRec.slotBytes (b : BivRec) : Nat := 0x100000 + b.slotc * chunkSize

/-- The messages of a partner copy: raw bytes as a SEND's, with the slot in SEG, 0 or the chunk's number plus 1 in OPREC, and the place in the header
or the chunk in OFFSET (R467; DESIGN CHOICE, log entry 73). -/
def State.copyMsgs (s : State) (b : BivRec) (g : CGroup) (i : Nat) (st : Stage) : List CMsg :=
  let part (n : Nat) (bs : List Byte) : List CMsg := (pieces bs).map fun (o, p) =>
    { hdr := { g.hdr b.group 6 st.step 0 st.pgen with seg := i, oprec := n, offset := o / 32, endB := o + p.length == bs.length }, payload := .raw p }
  part 0 (s.stageSlot st 0 i).head ++ (List.range (chunksOf st.bytes)).flatMap fun c =>
    part (c + 1) (Tab.getRange 0 st.image (chunkSize * c) (min chunkSize (st.bytes - chunkSize * c)))

/-- Send a partner copy over the ports of its group, on VC14 (R467, Table 11-2). -/
def State.sendPartner (s : State) (k i : Nat) (st : Stage) : State :=
  let b := s.biv k
  match s.cgroup k b.group with
  | none => s
  | some g =>
    (s.copyMsgs b g i st).foldl (fun s m =>
      (s.route g.ports { vc := 14, hops := s.val MAXHOPS 0, len := cmsgLen m, src := s.val NODE_ADDR 0, dst := s.member k b.group b.prank
                         body := m }).1) s

/-- A message of a partner's copy arrives: its bytes go to their place in PAREA of the context that names the sender as its partner (log entry
73). -/
def State.onPartner (s : State) (m : CMsg) : State :=
  let mine (k : Nat) : Bool :=
    let b := s.biv k
    b.enable && b.group == m.hdr.group && b.prank == m.hdr.sender && (s.cgroup k b.group).any fun g => g.job == m.hdr.job
  match (List.range 16).find? mine, m.payload with
  | some k, .raw bs =>
    let b := s.biv k
    let a := b.parea + m.hdr.seg * b.slotBytes + (if m.hdr.oprec = 0 then 0 else 0x100000 + (m.hdr.oprec - 1) * chunkSize) + 32 * m.hdr.offset
    if 2 ≤ m.hdr.seg ∨ b.slotc < m.hdr.oprec ∨ (s.memCheck k a bs.length).isSome = true then s.count BAD_MSGS (k + 1) 1 else s.hubWrite k a bs
  | _, _ => s

/-- The copy of generation `st` leaves for slot `i` of tier `t`: over VC14 to the partner, or as writes of a slot of the shared store, which
leave at once since the step has committed, to a target whose record is in use (R409, R462, R467). -/
def State.sendCopy (s : State) (k t i : Nat) (st : Stage) : State :=
  let b := s.biv k
  match t with
  | 0 => s.sendPartner k i st
  | 2 =>
    if !(s.targetUsed b.stgt && s.ethUp) then s
    else
    s.emit (.genWrite k b.stgt b.snsid (b.sbase + i * b.slotBytes / Config.blockSize b.stgt b.snsid) (0x100000 + st.bytes) st.step)
  | _ => s

/-- Start the copy to the first tier that is left, clearing COMPLETE of the slot that it overwrites; with none left the stage is free.
The partner's copy is left out where the context is no longer paired (R465 to R467). -/
def State.nextCopy (s : State) (k : Nat) : State :=
  let c := s.ctx k
  match c.stage with
  | none => s
  | some st =>
    match st.tiers.dropWhile fun t => t == 0 && !s.paired k with
    | [] => s.updCtx k fun c => { c with stage := none }
    | t :: rest =>
      let i := c.reuse (s.biv k) t
      (s.updCtx k fun c => { c with
        stage := some { st with slot := i, tiers := t :: rest }
        gens := (c.gens.filter fun x => !(x.tier == t && x.slot == i)) ++ [s.stageSlot st t i] }).sendCopy k t i st

/-- The copy in progress ends: COMPLETE once every digest has been checked; then the next tier's copy starts (R465, R466). -/
def State.endCopy (s : State) (k : Nat) (ok : Bool) : State :=
  match (s.ctx k).stage with
  | none => s
  | some st =>
    match st.tiers with
    | [] => s
    | t :: rest =>
      let fin := fun (g : GenSlot) =>
        if g.tier = t ∧ g.slot = st.slot then { g with complete := true, image := st.image } else g
      let s := s.updCtx k fun c => { c with
        stage := some { st with tiers := rest }
        gens := if ok then c.gens.map fin else c.gens }
      s.nextCopy k

end Sys2Proof.Machine
end

