-- ==== Sys2Proof/Machine/Commit.lean ====
section
/-!
DEFINITION. Verdicts and the commit ordering (R306, R325 to R333, R352 to R357, R367, R368, R397, R400).
-/

namespace Sys2Proof.Machine

open Sys2Proof.WB

/-! ### Closing (R353) -/

/-- An enabled reduction has begun in epoch `n`, by a message or by its trigger record, and is not complete on this member; or an
out member's contribution is ready and not yet handled. -/
def State.opBusy (s : State) (k n op : Nat) : Bool :=
  match s.opRec k op with
  | none => false
  | some r =>
    let o := s.opRun k op n
    let rec_ := s.memNat k (r.startrec + 32 * (n % 2)) 8 == n
    r.op != 2 && ((!o.complete && (rec_ || o.start.isSome || !o.waiting.isEmpty || !o.doneSegs.isEmpty))
      || (o.status == some false && !o.lateDone && rec_))

def State.opsDone (s : State) (k n : Nat) : Bool :=
  !s.blobTouched OPRECS (k + 1) || (List.range 1024).all fun op => !s.opBusy k n op

/-- A slot of the context runs a chunk of epoch `n`. -/
def State.runsOf (s : State) (k n : Nat) : Bool :=
  (s.ctxCores k).any fun c => (s.core c).slots.any fun e =>
    match e.2.run with
    | some r => r.epoch == some n
    | none => false

/-- What keeps every queue of the context in its RIDGE of epoch `n` until `n` is final: SPEC_DEPTH 1, a pitch, a swap of one of its
cores, a placement change (R339, R400, R536, R601). -/
def State.holdOpen (s : State) (k : Nat) : Bool :=
  s.val SPEC_DEPTH (k + 1) == 1 || s.pitching.isSome || (s.ctx k).draining || (s.swaps.any fun p => (s.core p.1).ctx == some k)

/-- The queue waits at the step group's RIDGE of round `r`, and every participant has reached it. -/
def State.ridgeReached (s : State) (k r : Nat) (q : QRef) : Bool :=
  match s.stepGroup k, s.ridgeAt q with
  | some sg, some (g, r') =>
    if g = sg ∧ r' = r then
      match s.rgroup k sg with
      | some rg => (match s.partMin k sg (s.participants k rg) none with
        | some m => decide (r ≤ m)
        | none => true)
      | none => false
    else false
  | _, _ => false

/-- Every queue of the context has retired its RIDGE for the round of epoch `n`, or is held in it with the group's minimum reached
(log entry 31). -/
def State.roundPassed (s : State) (k n : Nat) : Bool :=
  let r := n - s.val STEP_BASE (k + 1)
  let held := s.holdOpen k && ((s.ctx k).epoch (n + 1)).isNone
  (s.ctxQueues k).all fun q => decide (r ≤ (s.queue q).round) || (held && s.ridgeReached k r q)

/-- Epoch `n` may close (R353). -/
def State.closeReady (s : State) (k n : Nat) : Bool :=
  s.roundPassed k n && !s.runsOf k n && !(s.eauq.any fun a => a.k == k && a.epoch == some n)
    && !(s.transit.any fun a => a.k == k && a.epoch == some n) && s.opsDone k n
    && (s.ctxQueues k).all fun q => !((s.queue q).inflight.any fun i => i.epoch == some n)

/-! ### Verdicts (R306, R326, R352) -/

/-- An enabled tensor into which the epoch wrote some elements but not NELEM of them (R306). -/
def State.countFail (s : State) (k : Nat) (e : Epoch) : Option Nat :=
  (e.writes.find? fun w => s.tensorOn k w.1 && w.2 != 0 && w.2 != s.nelem k w.1).map (·.1)

/-- The sentinel verdict is REJECT (R326, R352). -/
def Epoch.rejected (e : Epoch) : Bool := e.evidence || e.census.any fun c => c.2.nonfin != 0

/-- The local vote. -/
def Epoch.vote (e : Epoch) : Vote := if e.struck then .squash else if e.rejected then .reject else .accept

/-! ### The ledger (R362, R367, R368) -/

/-- The ledger record of Table 10-10. -/
def State.ledgerRec (s : State) (k : Nat) (e : Epoch) (v : Vote) (xseq : Bool) (drec : Nat) : BitVec 512 :=
  let prev := (s.ctx k).ledger.getLast?
  let unc : Nat := 2 ^ 227
  let chain := match prev with
    | none => 0
    | some r => Sha3.digest (Bits.toBytes 64 (if Bits.bit r.toNat 227 then r.toNat - unc else r.toNat)) % 2 ^ 64
  BitVec.ofNat 512 (e.n % 2 ^ 64 + 2 ^ 64 * (e.dpos % 2 ^ 64) + 2 ^ 148 * (s.pgen k % 2 ^ 32) + 2 ^ 180 * (s.val MICROBATCHES (k + 1) % 2 ^ 17)
    + 2 ^ 197 * sat e.repl 65535 + 2 ^ 213 * sat e.resfail 255 + (if v = .reject then 2 ^ 221 else 0) + 2 ^ 223 * e.void.toNat
    + (if e.rejected then 2 ^ 226 else 0) + (if s.val REDUNDANCY 0 = 1 ∧ (s.ctx k).twins ≠ [] then 2 ^ 228 else 0) + (if xseq then 2 ^ 229 else 0)
    + 2 ^ 256 * (s.clock 8 % 2 ^ 64) + 2 ^ 320 * drec + 2 ^ 448 * chain)

/-- Step 7: the record, the deadline record and the commit log; the epoch is COMMITTING. -/
def State.commitPoint (s : State) (k : Nat) (e : Epoch) (v : Vote) (xseq : Bool) : State :=
  let c := s.ctx k
  let drec := if e.drecs.isEmpty then 0 else min (c.drecs.length + 1) 65536
  let r := s.ledgerRec k e v xseq drec
  let s : State := { s with commitLog := s.commitLog ++ [(k, e.n)] }
  s.updCtx k fun c =>
    { c.updEpoch e.n (fun e => { e with st := .committing, verdict := v, xseq := xseq }) with
      ledger := logPush 1048576 c.ledger r
      drecs := if e.drecs.isEmpty then c.drecs else logPush 65536 c.drecs (e.n, e.drecs) }

/-! ### Steps 8 to 10 -/

/-- Step 8 for an ACCEPT: the overlay becomes the committed bank map, WBANK the committed bank (R303, R342). -/
def State.mergeBanks (s : State) (k : Nat) (e : Epoch) : State :=
  let s := e.overlay.foldl (fun s x =>
    match x.2 with
    | some b => s.hubWriteNat k (s.bankAddr k x.1) 1 b
    | none => s) s
  s.updCtx k fun c => { c.updEpoch e.n (fun e => { e with overlay := [] }) with cbank := Tab.set 0 c.cbank 0 e.wbank }

/-- Step 9: the pending field of the epoch's parity joins CVAL, in the Mileposts of the context and in its participants (R249, R254). -/
def State.commitMps (s : State) (k n : Nat) : State :=
  let mine := s.pmps.filter fun e => e.2.owner = k ∧ e.2.spec = true ∧ e.2.pend n ≠ 0
  let s := mine.foldl (fun s e =>
    let p := s.pmp e.1
    let up := if p.st = .live ∨ p.st = .frozen then p.pend n else 0
    let s := s.setPmp e.1 ({ p with cval := p.cval + up }.setPend n 0)
    if up = 0 then s else s.cvalChanged e.1) s
  { s with parts := s.parts.map fun e =>
      if e.1 / 2 ^ 20 = k ∧ s.partSpec k (e.1 / 2 ^ 13 % 128) then
        let p := e.2
        let up (x : Nat) : Nat := if p.poisoned then 0 else x
        (e.1, if n % 2 = 0 then { p with val := p.val + up p.pend0, pend0 := 0 } else { p with val := p.val + up p.pend1, pend1 := 0 })
      else e }

/-- QRUN of a tensor after a step that is not skipped (R327); it stands at 2^32 - 1 (DESIGN CHOICE, log entry 121). -/
def qrunAfter (old : Nat) (c : Census) : Nat :=
  if !c.seen then old else if c.elems ≠ 0 ∧ c.zero = c.elems then sat (old + 1) (2 ^ 32 - 1) else 0

/-- Step 10: the census of the epoch replaces the table, QRUN is carried, and the Quiet Layer rule posts its events (R325 to R328). -/
def State.commitCensus (s : State) (k : Nat) (e : Epoch) (skipped : Bool) : State :=
  let old := (s.ctx k).census
  let keys := (e.census.map (·.1)) ++ ((old.map (·.1)).filter fun t => !(e.census.any fun x => x.1 == t))
  let new : Tab Census := keys.foldl (fun t i =>
    let c := Tab.get {} e.census i
    let q := (Tab.get {} old i).qrun
    Tab.set {} t i { c with qrun := if skipped then q else qrunAfter q c }) []
  let s := (s.updCtx k fun c => { c with census := new }).setVal CENSUS_STEP (k + 1) e.n
  let lim := s.val QUIET_LIMIT (k + 1)
  if skipped ∨ lim = 0 then s
  else new.foldl (fun (s : State) (x : Nat × Census) =>
    if x.2.seen ∧ x.2.qrun ≠ 0 ∧ x.2.qrun % lim = 0 then s.event 0x0007 (some k) 8 (evData3 x.1 x.2.qrun e.n) else s) s

/-- REJECT_RUN, STEPS_SKIPPED and the REJECT event (R329, R330). -/
def State.commitReject (s : State) (k n : Nat) (skipped : Bool) : State :=
  if skipped then
    let s := s.setVal REJECT_RUN (k + 1) (sat (s.val REJECT_RUN (k + 1) + 1) 255)
    (s.count STEPS_SKIPPED (k + 1) 1).event 0x0006 (some k) 8 n
  else s.setVal REJECT_RUN (k + 1) 0

/-! ### Steps 11 to 13 -/

/-- Commits write the commit log synchronously (R471, R473). -/
def State.mustFlash (s : State) (k : Nat) : Bool := s.val PAIR_STATE (k + 1) == 2 || s.val HOLDUP_CHARGE 0 < 80

/-- Step 12: one held effect leaves (R345). -/
def State.release (s : State) (k : Nat) (e : Effect) : State :=
  match e with
  | .event code die data => s.event code (some k) die data
  | .post n => s.postMp n
  | .send g r m => s.sendMsg k g r m
  | .storage x => s.emit (.storageWrite k x)

/-- The evaluation that a non-skipped commit of step `n` starts (R331): pins, the bank-map copy, the start Milepost. -/
def State.startEval (s : State) (k n : Nat) : State :=
  let every := s.val EVAL_EVERY (k + 1)
  let ek := s.val EVAL_CTX (k + 1)
  let est := (s.ctx ek).st
  if every = 0 ∨ n % every ≠ 0 ∨ 16 ≤ ek ∨ est = .free then s
  else
    let pins : List Pin := ((List.range 4096).filter (s.tensorOn k)).map fun t =>
      { item := t, bank := s.cbankOf k t, step := n, eval := true }
    let s := s.updCtx k fun c => { c with pins := c.pins ++ pins }
    let s := s.hubWrite k (s.val EVAL_BANKMAP (k + 1) + 4096 * (n % 2)) (s.memRead k (s.val BANKMAP_ADDR (k + 1)) 4096)
    s.serviceAdv ek (s.val EVAL_START_MP (k + 1)) .raise n

/-- Steps 12 and 13: held effects leave, and the epoch is final; the step boundary follows.  REJECT_LIMIT is the one in force at step 10, before
the boundary brings in a new one (R330). -/
def State.finishCommit (s : State) (k n : Nat) : State :=
  match (s.ctx k).epoch n with
  | none => s
  | some e =>
    let skipped := decide (e.verdict = .reject)
    let s := e.effects.foldl (fun s x => s.release k x) s
    let s := s.updCtx k fun c => { c with
      epochs := (c.epochs.filter fun x => n < x.n + 2).map fun x =>
        if x.n = n then { x with st := (if skipped then .skipped else .committed), effects := [] } else x }
    let s := ((s.setVal COMMITTED_STEP (k + 1) n).count COMMITS (k + 1) 1).startIngest k
    let s := if s.genDue k n && !e.genTaken then s.takeGen k n else s
    let s := if skipped then s else s.startEval k n
    let atLimit := skipped && decide (s.val REJECT_LIMIT (k + 1) ≤ s.val REJECT_RUN (k + 1))
    let wait := !(s.dueCores k).isEmpty && !s.ownsRun k && (s.ctx k).epochs.any Epoch.uncommitted
    let s := s.stepBoundary k
    let s := if atLimit then s.haltCtx k 0x2001 0 else s
    if wait then s else s.runOn k

/-- Steps 7 to 13 of Table 10-6, as far as step 11 lets them go. -/
def State.commitEpoch (s : State) (k : Nat) (e : Epoch) (v : Vote) (xseq : Bool) (run : Nat) (place : Bool) : State :=
  let skipped := decide (v = .reject)
  let s := s.commitPoint k e v xseq
  let s := if skipped then
      -- the committed bank of the carried regions stays (R342), so that what the epoch carried forward is not in it (R393)
      s.updCtx k fun c => { c.updEpoch e.n (fun e => { e with overlay := [] }) with carries := c.carries.filter fun x => x.2 != e.n }
    else s.mergeBanks k e
  let s := if skipped || place then (s.squash k (e.n + 1) false).updCtx k fun c => { c with runNext := run } else s
  let s := if place then s.updCtx k fun c => { c with draining := true } else s
  let s := s.commitMps k e.n
  let s := (s.commitCensus k e skipped).commitReject k e.n skipped
  if s.mustFlash k then
    let gen := s.val PAIR_STATE (k + 1) == 2 && s.genDue k e.n
    let s := if gen then s.takeGen k e.n else s
    let staged := match (s.ctx k).stage with | some st => st.step == e.n && st.tiers.contains 1 | none => false
    s.updEpoch k e.n fun e => { e with flashWait := true, genWait := gen && staged, genTaken := gen }
  else s.finishCommit k e.n

/-- REJECT under REJECT_POLICY 1 (R356). -/
def State.rejectHalt (s : State) (k n : Nat) : State :=
  let s := (s.squash k n false).event 0x0006 (some k) 8 n
  s.haltCtx k 0x2001 0

/-! ### The job verdict (R352, R397, R400; log entries 23, 24) -/

/-- A verdict reaches the context: SQUASH ends the run of `n` and of every later epoch; the others end a closed epoch that has been
voted on, once every earlier one is final. -/
def State.takeVerdict (s : State) (k n : Nat) (v : Vote) (xseq : Bool) (run : Nat) (place : Bool) : State :=
  let c := s.ctx k
  match c.epoch n with
  | none => s
  | some e =>
    if v = .squash then
      if e.squashable = true ∨ e.st = .squashed then
        ((s.squash k n false).updCtx k fun c => { c with runNext := run }).runOn k
      else s
    else if e.st ≠ .closed ∨ e.voted = false ∨ s.safeHold = true then s
    else if v = .reject ∧ s.val REJECT_POLICY (k + 1) = 1 then s.rejectHalt k n
    else s.commitEpoch k e v xseq run place

/-- The verdict of a set of votes. -/
def verdictOf (l : List (Nat × Vote × Bool)) : Vote :=
  if l.any fun x => x.2.1 == .squash then .squash else if l.any fun x => x.2.1 == .reject then .reject else .accept

/-- The seat forms the verdict when every vote is in, at once on a SQUASH, sends it to every member and takes it itself. -/
def State.seatVerdict (s : State) (k n : Nat) : State :=
  match s.jobGroup k, (s.ctx k).epoch n with
  | some (g, r), some e =>
    let v := verdictOf e.votes
    if v ≠ .squash ∧ e.votes.length < r.nmem then s
    else
      let xseq := e.votes.any (·.2.2)
      let c := s.ctx k
      let place := c.placing && !c.draining && v != .squash
      let run := if v = .accept ∧ !place then c.runNext else c.runNext + 1
      let s := s.sendAll k g (s.verdictMsg k g r n v xseq run (s.pgen k + Bits.ofBool place) place)
      s.takeVerdict k n v xseq run place
  | _, _ => s

/-- Step 6: the local vote of a closed epoch.  A job of one device takes its own verdict at once; the seat records its vote; another
member sends it. -/
def State.castVote (s : State) (k : Nat) (e : Epoch) : State :=
  let v := e.vote
  let s := s.updEpoch k e.n fun x => { x with voted := true }
  match s.jobGroup k with
  | none =>
    let c := s.ctx k
    s.takeVerdict k e.n v e.xseq (c.runNext + (if v = .accept ∧ !c.placing then 0 else 1)) (c.placing && !c.draining)
  | some (g, r) =>
    if r.rank = 0 then (s.updEpoch k e.n fun x => { x with votes := (x.votes.filter fun y => y.1 != 0) ++ [(0, v, e.xseq)] }).seatVerdict k e.n
    else s.sendMsg k g 0 (s.voteMsg k g r e.n v e.xseq)

/-- Close the oldest open epoch when R353 allows, with the check of R306 (step 3). -/
def State.closeNext (s : State) (k : Nat) : State :=
  match (s.ctx k).epochs.find? fun e => e.st == .opened with
  | none => s
  | some e =>
    if !s.closeReady k e.n then s
    else
      match s.countFail k e with
      | some t => ((s.squash k e.n false).voteSquash k e.n).haltCtx k 0x2002 t
      | none => s.updEpoch k e.n fun e => { e with st := .closed }

/-- Vote on the oldest closed epoch once every earlier one is final (step 5). -/
def State.voteNext (s : State) (k : Nat) : State :=
  match (s.ctx k).epochs.find? Epoch.live with
  | some e => if e.st = .closed ∧ e.voted = false then s.castVote k e else s
  | none => s

/-! ### Messages of the control plane -/

/-- A message that names an epoch of this member and the run that it is in; a saved context takes it up when it is restored (R266). -/
def State.screenRun (s : State) (k : Nat) (m : CMsg) : Screen :=
  if (s.ctx k).st = .saved then .done (s.keepEarly k m)
  else
  match s.cgroup k m.hdr.group with
  | none => .done (s.count BAD_MSGS (k + 1) 1)
  | some g =>
    if g.job ≠ m.hdr.job ∨ m.hdr.sender = g.rank ∨ g.nmem ≤ m.hdr.sender ∨ g.carriesType m.hdr.mtype = false then .done (s.count BAD_MSGS (k + 1) 1)
    else if m.hdr.pgen ≠ s.pgen k then
      let s := s.count GEN_DISCARDS (k + 1) 1
      .done (match (s.ctx k).epoch m.hdr.epoch with
        | some e => if e.st = .opened then s.strike k e.n else s
        | none => s)
    else
      let c := s.ctx k
      match c.epoch m.hdr.epoch with
      | some e =>
        if e.st ≠ .opened ∧ e.st ≠ .closed ∧ e.st ≠ .squashed then .done (s.count STALE_DISCARDS (k + 1) 1)
        else if m.hdr.run = e.run then .apply g
        else if e.run < m.hdr.run then .done (s.keepEarly k m)
        else .done (s.count STALE_DISCARDS (k + 1) 1)
      | none =>
        if (c.epochs.all fun e => e.n < m.hdr.epoch) && s.val COMMITTED_STEP (k + 1) < m.hdr.epoch then .done (s.keepEarly k m)
        else .done (s.count STALE_DISCARDS (k + 1) 1)

/-- A vote reaches the seat of the control plane. -/
def State.onVote (s : State) (k : Nat) (m : CMsg) : State :=
  match s.screenRun k m, m.payload with
  | .done s, _ => s
  | .apply g, .vote v x =>
    if g.rank ≠ 0 then s
    else
      let n := m.hdr.epoch
      (s.updEpoch k n fun e => { e with votes := (e.votes.filter fun y => y.1 != m.hdr.sender) ++ [(m.hdr.sender, v, x)] }).seatVerdict k n
  | .apply _, _ => s.count BAD_MSGS (k + 1) 1

/-- The job verdict reaches a member. -/
def State.onVerdict (s : State) (k : Nat) (m : CMsg) : State :=
  match s.screenRun k m, m.payload with
  | .done s, _ => s
  | .apply _, .verdict v x run _ place => s.takeVerdict k m.hdr.epoch v x run place
  | .apply _, _ => s.count BAD_MSGS (k + 1) 1

/-! ### Going on -/

/-- One message by its MTYPE (Table 11-3). -/
def State.onMsg (s : State) (k : Nat) (m : CMsg) : State :=
  match m.hdr.mtype with
  | 0 => s.onSeg k m
  | 1 => s.onBit k m
  | 2 => s.onRes k m
  | 3 => s.onStart k m
  | 4 => s.onRot k m
  | 5 => s.onRel k m
  | 6 => s.onSend k m
  | 7 => s.onRadd k m
  | 9 => s.onVote k m
  | 10 => s.onVerdict k m
  | _ => s

/-- Messages that waited for their epoch, or for a clear, arrive again (R397). -/
def State.deliverEarly (s : State) (k : Nat) : State :=
  let l := (s.ctx k).early
  if l.isEmpty then s else l.foldl (fun s m => s.onMsg k m) (s.updCtx k fun c => { c with early := [] })

/-- After any event of a context: what waited for a clear goes on; with epochs, waiting messages, closing and voting, as far as they go. -/
def State.progressGo (s : State) (k : Nat) : Nat → State
  | 0 => s
  | n + 1 => (((s.deliverEarly k).closeNext k).voteNext k).progressGo k n

def State.progress (s : State) (k : Nat) : State :=
  if s.safeHold || (s.ctx k).st == .saved then s
  else if (s.stepGroup k).isNone then s.deliverEarly k
  else s.progressGo k 4

end Sys2Proof.Machine
end

