-- ==== Sys2Proof/Machine/Loader.lean ====
section
/-!
DEFINITION. Answers to requests (R513, R521, R524, R525), the loader and its verifier (R177 to R188, R234, R235).
-/

namespace Sys2Proof.Machine

open Sys2Proof.WB

/-! ### Answers -/

/-- A host function's paths are all kept, a ring's last 8 (R525). -/
def isHost : Path → Bool
  | .host _ => true
  | .ring _ => false

def State.pathSt (s : State) (p : Path) : Option PathSt := s.paths.find? fun x => x.path == p

/-- A ring source beyond the last 8 keeps no SEQ and response, but the stage that it has open (R525, R526). -/
def PathSt.forget (x : PathSt) : Option PathSt := if x.stage.isSome then some { path := x.path, stage := x.stage } else none

/-- Change what is kept of a path; a ring source beyond the last 8 pushes out the oldest. -/
def State.updPath (s : State) (p : Path) (f : PathSt → PathSt) : State :=
  let old := (s.pathSt p).getD { path := p }
  let l := (s.paths.filter fun x => x.path != p) ++ [f old]
  let ring := l.filter fun x => !isHost x.path
  { s with paths := (l.filter fun x => isHost x.path) ++ (ring.take (ring.length - 8)).filterMap PathSt.forget ++ ring.drop (ring.length - 8) }

/-- The response to a request (R524). -/
def wbAnswer (m : WbMsg) (status : Nat) (data : List Byte) (offset : Nat) : WbMsg :=
  { op := m.op, resp := true, status := status, seq := m.seq, entry := m.entry, sub := m.sub, offset := offset, data := data }

/-- Send a response, and keep it for a repeat of its request.  On the host link it stands in the response window, WB_DONE is its
SEQ, and WB_VEC fires (R513); on the ring it leaves by the port of the request with HOPS at RING_HOPS (R521). -/
def State.respond (s : State) (p : Path) (port1 : Bool) (r : WbMsg) : State :=
  match p with
  | .host fn =>
    let s := s.updPath p fun x => { x with seq := some r.seq, resp := r }
    let s := s.emit (.response p r)
    let v := s.val WB_VEC (fn.val + 1)
    if v = 0xFFFF then s else s.emit (.msix fn.val v)
  | .ring src =>
    let r := { r with hops := s.val RING_HOPS 0 }
    let s := s.updPath p fun x => { x with seq := some r.seq, resp := r }
    s.emit (.ring port1 { dst := src, src := s.val MG_MAC 0, msg := r })

/-- The answer of a context command, in the response to its request when it came by one. -/
def State.answerTo (s : State) (req : Option (Path × WbMsg × Bool)) (code : Nat) : State :=
  let s := { s with answer := code }
  match req with
  | some (p, m, port1) => s.respond p port1 (wbAnswer m code [] m.offset)
  | none => s

/-! ### The verifier (Table 5-6) -/

/-- Branch targets and BSW entries inside the image, END words inside it, frames nested, and no BSW inside a frame's body. -/
def flowBad (ws : List IWord) (i : Nat) (w : Nat) : Bool :=
  let n := ws.length
  let t := Bits.fld w 32 11
  let loops := ws.zipIdx.filterMap fun (x, j) =>
    if Bits.fld x.toNat 0 11 = 2 then some (j + 1, j + Bits.fld x.toNat 64 11, Bits.fld x.toNat 75 3) else none
  let encl := loops.filter fun l => decide (l.1 ≤ i) && decide (i ≤ l.2.1)
  match Bits.fld w 0 11 with
  | 2 => let e := i + Bits.fld w 64 11
         decide (n ≤ e) || encl.any fun l => decide (l.2.1 < e) || l.2.2 == Bits.fld w 75 3
  | 3 => decide (n ≤ t) || encl.any fun l => decide (t < l.1) || decide (l.2.1 < t)
  | 4 => decide (n ≤ t) || encl.any fun l => decide (t < l.1) || decide (l.2.1 < t)
  | 5 => decide (n ≤ t) || !encl.isEmpty
  | _ => false

/-- The Mileposts that a word waits on or advances: MP fields of formats M and B, of TAKE and of PREF, and the carried advance. -/
def wordMps (w : Nat) : List Nat :=
  (if Bits.bit w 12 then [Bits.fld w 13 13] else []) ++
  (match Bits.fld w 0 11 with
  | 0x008 => [Bits.fld w 32 13]
  | 0x009 => (List.range (Bits.fld w 45 7)).map (Bits.fld w 32 13 + ·)
  | 0x00A => [Bits.fld w 32 13]
  | 0x00B => [Bits.fld w 32 13]
  | 0x012 => [Bits.fld w 54 13]
  | 0x103 => [Bits.fld w 48 13]
  | _ => [])

/-- The Shapes of a word that its fields show: a block-scaled operand of MM that is not laid out along the reduction dimension (R114), an
attention head dimension beyond R121's. -/
def shapeBad (w : Nat) : Bool :=
  match Bits.fld w 0 11 with
  | 0x200 => (Fmt.isBlock (Bits.fld w 32 4) && Bits.bit w 44) || (Fmt.isBlock (Bits.fld w 36 4) && !Bits.bit w 45)
  | 0x208 => decide (128 < Bits.fld w 96 8)
  | _ => false

/-- The Mileposts that a descriptor advances (Table 8-1). -/
def descMps (d : Nat) : List Nat :=
  let x := descOf d
  (if x.dinc = 0 then [] else [x.dmp]) ++ (if x.eos then [x.emp] else [])

/-- A declared buffer that lies outside the core store or is misaligned (R148, R172). -/
def bufOut (b : List Nat × Nat × Nat) : Bool := b.2.1 % 64 != 0 || b.2.2 % 64 != 0 || b.2.2 == 0 || decide (storeSize < b.2.1 + b.2.2)

/-- The Buffers check: each declared buffer by itself, then against the earlier ones of a role that it shares. -/
def bufsBad (l : List (List Nat × Nat × Nat)) : Option Nat :=
  (List.range l.length).find? fun i =>
    let b := l.getD i ([], 0, 0)
    bufOut b || (l.take i).any fun c => c.1.any b.1.contains && decide (c.2.1 < b.2.1 + b.2.2) && decide (b.2.1 < c.2.1 + c.2.2)

/-! Values that a program does not compute: what an LI puts into a register, along the straight line of words that follows it (log entry 7). -/

/-- Control reaches word `p` of an image otherwise than from the word before it: it is an entry, the target of a branch, or next to the first or
after the last word of a loop's body. -/
def entered (c : CodeImage) (bsw : List Nat) (p : Nat) : Bool :=
  p == c.entry || bsw.contains p || c.words.zipIdx.any fun (x, j) =>
    let w := x.toNat
    match Bits.fld w 0 11 with
    | 2 => p == j + 1 || p == j + Bits.fld w 64 11 + 1
    | 3 | 4 => p == Bits.fld w 32 11
    | _ => false

/-- The registers that a word may write, by Table 6-2; a wait that ends poisoned writes s0 (R192). -/
def wordWrites (w : Nat) : List Nat :=
  match Bits.fld w 0 11 with
  | 0x018 | 0x019 | 0x01A => [Bits.fld w 32 6]
  | 0x00B => [Bits.fld w 54 6]
  | 0x105 => [Bits.fld w 42 6]
  | 0x208 => [Bits.fld w 112 6]
  | 0x400 | 0x401 | 0x402 | 0x403 => [Bits.fld w 98 6]
  | 0x008 | 0x009 | 0x00C | 0x011 | 0x012 => [0]
  | _ => []

/-- What register `reg` holds at word `i` of an image on every path, where an LI shows it. -/
def constAt (c : CodeImage) (bsw : List Nat) (reg : Nat) : Nat → Option Nat
  | 0 => none
  | i + 1 =>
    if reg = 0x30 then some 0
    else if entered c bsw (i + 1) then none
    else
      let w := (c.words.getD i 0).toNat
      if Bits.fld w 0 11 = 0x018 ∧ Bits.fld w 32 6 = reg then some (Bits.fld w 64 64)
      else if (wordWrites w).contains reg then none
      else constAt c bsw reg i

/-- The entry words of a package's BSWs. -/
def bswEntries (p : Package) : List Nat :=
  p.code.flatMap fun c => c.words.filterMap fun w => if Bits.fld w.toNat 0 11 = 5 then some (Bits.fld w.toNat 32 11) else none

/-- The region of a BDEF whose base and length an LI shows. -/
def bdefAt (c : CodeImage) (bsw : List Nat) (i w : Nat) : Option (Nat × Nat) :=
  if Bits.fld w 0 11 ≠ 0x010 then none
  else
    match constAt c bsw (0x20 + Bits.fld w 44 4) i, constAt c bsw (Bits.fld w 48 6) i with
    | some a, some n => some (addImm a (imm32 w 96), n)
    | _, _ => none

/-- The Buffers check of a word: such a BDEF misses the core store or R148, or overlaps one of another entry on the same core, where the package
frees neither entry. -/
def bdefBad (p : Package) (c : CodeImage) (i w : Nat) : Bool :=
  let bsw := bswEntries p
  match bdefAt c bsw i w with
  | none => false
  | some (a, n) =>
    bufOut ([], a, n) || p.code.any fun d => d.roles.any c.roles.contains && d.words.zipIdx.any fun (x, j) =>
      let v := x.toNat
      let freed (b : Nat) : Bool := p.code.any fun e => e.roles.any c.roles.contains && e.words.any fun y =>
        Bits.fld y.toNat 0 11 == 0x013 && Bits.fld y.toNat 32 6 == b
      match bdefAt d bsw j v with
      | some (b, m) => Bits.fld v 32 6 != Bits.fld w 32 6 && decide (b < a + n) && decide (a < b + m) && !freed (Bits.fld w 32 6) && !freed (Bits.fld v 32 6)
      | none => false

/-- The Shapes check of an MM whose K an LI shows: it exceeds the extent of R79 by itself. -/
def extentBad (p : Package) (c : CodeImage) (i w : Nat) : Bool :=
  Bits.fld w 0 11 == 0x200 && match constAt c (bswEntries p) (Bits.fld w 72 5) i with
    | some k => decide (2 ^ 40 < k)
    | none => false

/-- The first failing check of a package: the rows of Table 5-6 are numbered from 1, sections from 0 in the order of Table 5-5 (log
entry 29). -/
def verify (p : Package) (inv : Nat) (extra : Option Refused) : Option Refused :=
  let words := p.code.zipIdx.flatMap fun (c, g) => c.words.zipIdx.map fun (w, i) => (c, g, w.toNat, i)
  let at_ (c : CodeImage) (g i row : Nat) : Refused := { section_ := 1, group := g, queue := c.queue.num, word := i, row := row }
  match words.find? fun (c, _, w, _) => encodingBad c.queue w with
  | some (c, g, _, i) => some (at_ c g i 1)
  | none =>
    if p.target = false ∨ p.invRev ≠ inv then some { section_ := 0, group := 0, queue := 0, word := 0, row := 2 }
    else
      match words.find? fun (c, _, w, i) => flowBad c.words i w with
      | some (c, g, _, i) => some (at_ c g i 3)
      | none =>
       match bufsBad p.bufs with
       | some i => some { section_ := 3, group := 0, queue := 0, word := i, row := 4 }
       | none =>
        match words.find? fun (c, _, w, i) => bdefBad p c i w with
        | some (c, g, _, i) => some (at_ c g i 4)
        | none =>
        match words.find? fun (_, _, w, _) => (wordMps w).any fun m => !(p.mps.any fun d => d.mp == m) with
        | some (c, g, _, i) => some (at_ c g i 7)
        | none =>
          match words.find? fun (c, _, w, i) => shapeBad w || extentBad p c i w with
          | some (c, g, _, i) => some (at_ c g i 8)
          | none =>
            match p.descs.find? fun d => descMalformed d.2.2.toNat with
            | some _ => some { section_ := 5, group := 0, queue := 0, word := 0, row := 9 }
            | none =>
              match p.descs.find? fun d => (descMps d.2.2.toNat).any fun m => !(p.mps.any fun x => x.mp == m) with
              | some _ => some { section_ := 5, group := 0, queue := 0, word := 0, row := 7 }
              | none => extra

/-- What the loader says of a package: refused by its seal, or by the verifier where that runs (R186, R187). -/
def State.loadRefusal (s : State) (e : Env) : Option Refused :=
  if e.pkg.sealed && !e.sealOk then some { section_ := 6, group := 0, queue := 0, word := 0, row := 0 }
  else if e.pkg.sealed && s.val VERIFY_SEALED 0 == 0 then none
  else verify e.pkg (s.val INV_REV 0) e.static

/-- LOAD_REFUSAL keeps the last refusal. -/
def State.keepRefusal (s : State) (k : Nat) (r : Refused) : State := s.updCtx k fun c => { c with refused := some r }

/-! ### Mileposts of a package (R234, R235) -/

/-- Traces hops between two dies (R23, R24). -/
def hops (a b : Nat) : Nat :=
  if a = b then 0
  else if a < 8 ∧ b < 8 then (if (a + 1) % 8 = b ∨ (b + 1) % 8 = a then 1 else 2)
  else 1

/-- Used physical Mileposts of a die. -/
def State.pmpsOn (s : State) (die : Nat) : List Nat :=
  (s.pmps.filter fun e => pmpHome e.1 == die && e.2.st != .free).map (·.1)

/-- Free physical Mileposts of a die (PMP_FREE). -/
def State.pmpFree (s : State) (die : Nat) : Nat := 16384 - (s.pmpsOn die).length

/-- The lowest number from `n` that is not in a list. -/
def lowestFrom (used : List Nat) : Nat → Nat → Nat
  | 0, n => n
  | fuel + 1, n => if used.contains n then lowestFrom used fuel (n + 1) else n

/-- The die on which a Milepost is placed: the wanted one, else the nearest with room, the lowest-numbered among equals. -/
def State.placeMp (s : State) (want : Nat) : Nat :=
  let ok := (List.range 10).filter fun d => s.pmpFree d != 0
  (ok.foldl (fun (b : Option Nat) d => match b with
    | some x => if hops want d < hops want x then some d else some x
    | none => some d) none).getD want

/-- Allocate one Milepost of a package. -/
def State.allocMp (s : State) (k : Nat) (d : MpDecl) : State :=
  let c := s.ctx k
  let want := if d.hostw then 8 else coreDie (c.roles.getD d.homeRole 0)
  let die := s.placeMp want
  let used := s.pmpsOn die
  let n := lowestFrom used (used.length + 1) (16384 * die)
  let s := s.setPmp n { st := .live, owner := k, spec := d.adv && !d.hostw && (s.stepGroup k).isSome }
  let e : MpEntry := { valid := true, hostp := d.hostp, hostw := d.hostw, adv := d.adv && !d.hostw, pmp := n }
  s.updCtx k fun c => { c with mpmap := Tab.set {} c.mpmap d.mp e }

/-- The Mileposts that a package lists and the context lacks. -/
def State.newMps (s : State) (k : Nat) (p : Package) : List MpDecl := p.mps.filter fun d => !(s.mpEntry k d.mp).valid

/-- The device has too few free Mileposts for them, over all ten dies. -/
def State.mpShort (s : State) (l : List MpDecl) : Bool := ((List.range 10).map s.pmpFree).sum < l.length

/-! ### Banks -/

/-- The image of a queue of a role. -/
def imageOf (p : Package) (role : Nat) (q : Queue) : Option CodeImage := p.code.find? fun c => c.queue == q && c.roles.contains role

/-- Load one bank of a queue of a role: `one` names bank 1 (R179). -/
def QueueSt.load (x : QueueSt) (one : Bool) (img : Option CodeImage) : QueueSt :=
  match img with
  | none => x
  | some c =>
    let b : Bank := { words := c.words.take 2048, entry := c.entry, valid := true }
    if one then { x with bank1 := b } else { x with bank0 := b }

/-- An image names the active bank of a queue that it would be loaded into (R178). -/
def Core.namesActive (c : Core) (p : Package) : Bool :=
  allQueues.any fun q => match imageOf p c.role q with
    | some i => i.bank == some (c.q q).bank
    | none => false

/-- Load the inactive banks of a core. -/
def Core.loadInactive (c : Core) (p : Package) : Core :=
  allQueues.foldl (fun c q => c.setQ q ((c.q q).load (!(c.q q).bank) (imageOf p c.role q))) c

/-- A core as a context receives it: bank 0 loaded and active, and its initial descriptors in the core store. -/
def freshCore (k role : Nat) (p : Package) : Core :=
  let c : Core := { ctx := some k, role := role }
  let c := allQueues.foldl (fun c q => c.setQ q ((c.q q).load false (imageOf p role q))) c
  (p.descs.filter fun d => d.1 == role).foldl (fun c d => { c with store := Tab.setRange 0 c.store d.2.1 (Bits.toBytes 64 d.2.2.toNat) }) c

end Sys2Proof.Machine
end

