-- ==== Sys2Proof/Machine/Contexts.lean ====
section
/-!
DEFINITION. Context commands (Tables 17-3, 17-4): opening, loading, starting, saving, resuming, tearing down, aborting
(R189, R193 to R199, R266 to R270, R434, R545, R546).
-/

namespace Sys2Proof.Machine

open Sys2Proof.WB

/-! ### Cores -/

/-- Pair cores of opposite dies for full redundancy (R358). -/
def pairUp : Nat → List Nat → List (Nat × Nat)
  | 0, _ => []
  | _ + 1, [] => []
  | fuel + 1, c :: t =>
    match t.find? fun d => coreDie d == (coreDie c + 4) % 8 with
    | some d => (c, d) :: pairUp fuel (t.filter (· != d))
    | none => pairUp fuel t

/-- The cores for `n` roles, with their twins in full redundancy; none when too few are idle (R193, R358, WS-2C). -/
def State.pickCores (s : State) (n : Nat) : Option (List Nat × List Nat) :=
  let idle := s.idleCores
  if s.val REDUNDANCY 0 = 1 then
    let l := (pairUp 704 idle).take n
    if l.length < n then none else some (l.map (·.1), l.map (·.2))
  else if idle.length < n then none
  else some (idle.take n, [])

/-- Give cores to a context; a service period opens for each (R362). -/
def State.giveCores (s : State) (k : Nat) (roles twins : List Nat) (f : Nat → Core) : State :=
  let step := s.val COMMITTED_STEP (k + 1)
  let s := roles.zipIdx.foldl (fun s (c, r) => s.setCore c (f r)) s
  let s := twins.zipIdx.foldl (fun s (c, r) => s.setCore c { ctx := some k, role := r }) s
  let s : State := { s with service := s.service ++ (roles ++ twins).map fun c => { core := c, k := k, first := step + 1 } }
  s.updCtx k fun c => { c with roles := roles, twins := twins }

/-- Take the cores of a context away, cleared to zero (Table 5-10); their service periods close. -/
def State.dropCores (s : State) (k : Nat) : State :=
  let c := s.ctx k
  let mine := c.roles ++ c.twins
  let step := s.lastRan k
  let s := mine.foldl (fun s c => s.setCore c {}) s
  let s : State := { s with
    service := s.service.map fun p => if mine.contains p.core && p.last.isNone then { p with last := some step } else p
    swaps := s.swaps.filter fun p => !mine.contains p.1 }
  s.updCtx k fun c => { c with roles := [], twins := [] }

/-! ### Opening and loading -/

/-- The contexts, other than `k`, that run speculatively. -/
def State.specRunning (s : State) (k : Nat) : List Nat :=
  (List.range 16).filter fun j => j != k && (s.stepGroup j).isSome && (s.ctx j).st == .running

/-- CTX_OPEN_GO between steps: the answer, with the context LOADED when it is WS-00.  A Milepost number of the package that a share has taken in
this table names the new Milepost from here on (R234; DESIGN CHOICE, log entry 119). -/
def State.openNow (s : State) (k : Nat) (e : Env) : State × Nat :=
  if (s.ctx k).st ≠ .free then (s, 0x2B)
  else
    match s.pickCores (s.val CTX_CORES (k + 1)) with
    | none => (s, 0x2C)
    | some (roles, twins) =>
      if s.mpShort e.pkg.mps then (s, 0x26)
      else
        match s.loadRefusal e with
        | some r => (s.keepRefusal k r, 0x2A)
        | none =>
          let s := (((s.setVal COMMITTED_STEP (k + 1) 0).setVal STEP_BASE (k + 1) 0).setVal CENSUS_STEP (k + 1) 0).setVal REJECT_RUN (k + 1) 0
          let s := s.updCtx k fun c => { c with
            st := .loaded, phofer := e.pkg.phofer, pkg := e.pkg, fresh := true, reloaded := false, aborting := none
            census := [], cbank := [], runNext := 0, opened := 0 }
          let s := s.giveCores k roles twins (freshCore k · e.pkg)
          (e.pkg.mps.foldl (fun s d => s.allocMp k d) s, 0)

/-- The buffers of an aborted program are reclaimed (R199), and its tile slots with them (log entry 41). -/
def Core.reclaim (c : Core) : Core := { c with bufs := [], bufRec := [], tile0 := {}, tile1 := {}, job := none }

/-- LOAD_GO: the inactive banks of every queue, and the Mileposts that the context lacks (R178, R179, R189). -/
def State.loadNow (s : State) (k : Nat) (e : Env) : State × Nat :=
  let st := (s.ctx k).st
  if st ≠ .loaded ∧ st ≠ .running ∧ st ≠ .halted then (s, 0x2B)
  else if (s.ctxCores k).any fun c => (s.core c).namesActive e.pkg then (s, 0x28)
  else
    let new := s.newMps k e.pkg
    if s.mpShort new then (s, 0x26)
    else
      match s.loadRefusal e with
      | some r => (s.keepRefusal k r, 0x2A)
      | none =>
        let s := if st = .halted ∧ (s.ctx k).aborting.isSome then s.eachCore k Core.reclaim else s
        let s := s.eachCore k fun c => c.loadInactive e.pkg
        let s := s.updCtx k fun c => { c with pkg := e.pkg, phofer := e.pkg.phofer, reloaded := true }
        (new.foldl (fun s d => s.allocMp k d) s, 0)

/-! ### Starting -/

/-- Start a queue at the entry word of its active bank. -/
def QueueSt.begin (x : QueueSt) (round : Nat) : QueueSt :=
  { x with st := .running, wait := none, pc := x.active.entry, frames := [], halt := none, round := round, entries := [], inflight := [] }

/-- Every queue's entry state and every core's buffer table are recorded for epoch `n` (R347). -/
def State.recordAll (s : State) (k n : Nat) : State :=
  let s := s.eachQueue k fun s q => s.recordEntry q n
  (s.ctxCores k).foldl (fun s c => s.recordBufs c n) s

/-- START_GO, refused in Safe Hold, where no queue runs (R365; DESIGN CHOICE of the code, log entry 104), and of a member that
is PAUSED, RESTORING or VERIFIED, which waits for the others (R483; DESIGN CHOICE of the code, log entry 125): every queue starts; the next epoch opens,
or, without epochs, every enabled store is cleared once (R336, R338). -/
def State.startNow (s : State) (k : Nat) : State × Nat :=
  let c := s.ctx k
  let js := s.val JOB_STATE (k + 1)
  if s.safeHold = true ∨ (1 ≤ js ∧ js ≤ 3) ∨ (c.st ≠ .loaded ∧ !(c.st = .halted ∧ c.reloaded)) then (s, 0x2B)
  else
    let s := (s.releaseHeld k).pairTwins k
    let done := s.val COMMITTED_STEP (k + 1)
    let round := done - s.val STEP_BASE (k + 1)
    let s := s.eachQueue k fun s q => s.updQueue q fun x => x.begin round
    let s := s.updCtx k fun c => { c with st := .running, reloaded := false, fresh := false, aborting := none }
    let s := if s.val JOB_STATE (k + 1) = 4 then s.setVal JOB_STATE (k + 1) 0 else s
    if (s.stepGroup k).isSome then
      let s := (s.ctxCores k).foldl (fun s c => s.squashCore (done + 1) c) (s.dropStray k (done + 1))
      let s := s.updCtx k fun c => { c with
        epochs := c.epochs.filter fun e => !e.uncommitted && e.st != .squashed
        ops := c.ops.filter fun o => o.2.epoch ≤ done }
      ((s.recordAll k (done + 1)).openEpoch k (done + 1), 0)
    else (s.beginClear k none, 0)

/-! ### Saving and resuming -/

/-- A queue stops issuing: to be saved where it has started and not halted (R196), for a teardown in any state (Table 5-10). -/
def QueueSt.stopIssue (x : QueueSt) (every : Bool) : QueueSt :=
  { x with st := if every ∨ x.st = .running ∨ x.st = .waiting then .draining else x.st }

def State.drainQueues (s : State) (k : Nat) (every : Bool) : State := s.eachQueue k fun s q => s.updQueue q fun x => x.stopIssue every

/-- Take `n` frames one by one from the stacks with the most free frames (R434). -/
def takeFrames : Nat → List Nat → List Nat → List Nat
  | 0, _, area => area
  | n + 1, free, area =>
    let best := (free.zipIdx.foldl (fun (b : Nat × Nat) x => if b.1 < x.1 then x else b) (0, 0)).2
    takeFrames n (free.set best (free.getD best 0 - 1)) (area.set best (area.getD best 0 + 1))

/-- SAVE_GO is accepted: the save area is taken and issue stops. -/
def State.saveStart (s : State) (k : Nat) : State × Option Nat :=
  let c := s.ctx k
  if c.st ≠ .running ∧ c.st ≠ .halted then (s, some 0x2B)
  else
    let n := Bits.cdiv (11 * c.roles.length) 2
    let free := (List.range 16).map s.freeOn
    if free.sum < n then (s, some 0x39)
    else
      let s := s.updCtx k fun c => { c with st := .draining, tearing := false, saveArea := takeFrames n free (List.replicate 16 0) }
      (s.drainQueues k false, none)

/-- The state in which a queue goes on: a queue that stands at a wait of Table 5-2 waits. -/
def QueueSt.goOn (x : QueueSt) : QueueSt :=
  if x.st = .draining then
    { x with st := match x.wait with
        | some .milepost => .waiting
        | some .take => .waiting
        | some .ridge => .waiting
        | some .tileSlot => .waiting
        | _ => .running }
  else x

/-- The context's Mileposts become `st` where they were `old` (R266, R267). -/
def State.markMps (s : State) (k : Nat) (old st : PmpState) : State :=
  { s with pmps := s.pmps.map fun e => if e.2.owner = k ∧ e.2.st = old then (e.1, { e.2 with st := st }) else e }

/-- A DGO of the queue stands PAUSED with nothing outstanding, and whatever was issued before or after it is paused too, or complete and only
waits to retire (R298, R300). -/
def Core.parked (c : Core) : Bool :=
  (c.qO.inflight.any fun i => match i.work with
    | .dgo ds => (c.slot ds).st == .paused
    | _ => false) && c.qO.inflight.all fun i => match i.work with
    | .dgo ds => ((c.slot ds).st == .paused && (c.slot ds).out == 0) || (match (c.slot ds).run with
      | some r => r.complete
      | none => true)
    | .pref ds => (match (c.slot ds).run with
      | some r => r.instr != i.id || r.complete || ((c.slot ds).pff && r.out.isEmpty)
      | none => true)
    | _ => true

/-- A context is ready to be saved: every issued instruction has retired, but for those of an O queue that a PAUSED stream holds, which are
saved with its position (R196, R300). -/
def State.saveReady (s : State) (k : Nat) : Bool :=
  ((s.ctxQueues k).all fun q => (q.queue == .O && (s.core q.core.val).parked) || ((s.queue q).inflight.isEmpty && !(s.queue q).replaying))
    && !(s.transit.any fun a => a.k == k && a.src.isSome)

/-- Every issued instruction has retired: the context is SAVED, its Mileposts frozen and its cores released (R195, R196, R266). -/
def State.saveEnd (s : State) (k : Nat) : State :=
  let s := s.markMps k .live .frozen
  let cores := (s.ctxCores k).map fun c =>
    let x := s.core c
    allQueues.foldl (fun c q => c.setQ q (c.q q).goOn) x
  let s := s.updCtx k fun c => { c with st := .saved, saved := cores }
  s.dropCores k

/-- RESUME_GO between steps (R196, R267); refused in Safe Hold, as START_GO is. -/
def State.resumeNow (s : State) (k : Nat) : State × Nat :=
  let c := s.ctx k
  if c.st ≠ .saved ∨ s.safeHold = true then (s, 0x2B)
  else
    match s.pickCores c.saved.length with
    | none => (s, 0x2C)
    | some (roles, twins) =>
      let s := s.giveCores k roles twins fun r => c.saved.getD r {}
      let s := s.markMps k .frozen .live
      let halted := c.saved.any fun x => allQueues.any fun q => (x.q q).st == .halted
      (s.updCtx k fun c => { c with st := (if halted then .halted else .running), saved := [], saveArea := [] }, 0)

/-! ### Teardown (Table 5-10) -/

/-- Step 5: every Milepost of the context is poisoned. -/
def State.poisonAll (s : State) (k : Nat) (abort : Bool) : State :=
  (s.pmps.filter fun e => e.2.owner = k ∧ (e.2.st = .live ∨ e.2.st = .frozen)).foldl (fun s e => s.poisonPmp e.1 abort) s

/-- A poisoned Milepost to which no table refers is FREE again (R270). -/
def State.freeMps (s : State) : State :=
  { s with pmps := s.pmps.filter fun e =>
      e.2.st != .poisoned || s.ctxs.any fun c => c.2.mpmap.any fun m => m.2.valid && m.2.pmp == e.1 }

/-- Steps 5 to 7: poison, squash, release. -/
def State.tearEnd (s : State) (k : Nat) : State :=
  let s := ((s.poisonAll k false).cancelAllPrefs k).squashAllVote k
  let s := s.dropCores k
  let s : State := { s with
    transit := s.transit.filter fun a => a.k != k
    eauq := s.eauq.filter fun a => a.k != k
    parts := s.parts.filter fun e => e.1 / 2 ^ 20 != k }
  let s := s.updCtx k fun c => { c with
    st := .free, phofer := false, pkg := {}, reloaded := false, fresh := false, tearing := false, aborting := none, mpmap := []
    epochs := [], clearing := [], pins := [], saved := [], saveArea := [], ops := [], carries := [], early := [], runNext := 0
    placing := false, draining := false, ingest := false, samples := [], started := [], stuck := [], arrivals := []
    filled := [], raised := 0, sampleWait := [] }
  s.freeMps

/-- A teardown or disable is accepted (Table 5-10, steps 1 and 2). -/
def State.tearStart (s : State) (k : Nat) : State :=
  if (s.ctx k).st = .free then s
  else (s.updCtx k fun c => { c with st := .draining, tearing := true }).drainQueues k true

/-! ### What waits -/

/-- The answers that wait for a context command of a kind. -/
def State.answerLate (s : State) (k kind code : Nat) : State :=
  let hit := s.late.filter fun l => l.k == k && l.kind == kind
  let s : State := { s with late := s.late.filter fun l => !(l.k == k && l.kind == kind) }
  hit.foldl (fun s l => s.answerTo l.req code) s

/-- An epoch is past its commit point and completes its commit (R357). -/
def Ctx.committing (c : Ctx) : Bool := c.epochs.any fun e => e.st == .committing

/-- A draining context whose issued instructions have all retired is saved, or torn down once a commit under way is complete (R357). -/
def State.drainDone (s : State) (k : Nat) : State :=
  let c := s.ctx k
  if c.st ≠ .draining then s
  else if c.tearing then (if s.drainedOut k && (s.safeHold || !c.committing) then ((s.tearEnd k).answerLate k 1 0x2B).answerLate k 3 0 else s)
  else if s.saveReady k then (s.saveEnd k).answerLate k 1 0
  else s

/-- A command of a context waits behind an earlier one that has not been accepted yet (R546). -/
def State.behind (s : State) (k : Nat) : Bool := s.late.any fun l => l.k == k && l.kind != 1 && l.kind != 3

/-- START_GO waits for a commit under way, which leaves the epoch that starts next behind it (R355, R357; DESIGN CHOICE, log entry 117). -/
def State.startWaits (s : State) (k : Nat) : Bool := (s.ctx k).st == .halted && (s.ctx k).reloaded && (s.ctx k).committing && !s.safeHold

/-- A SAVE_GO, or a TEARDOWN_GO, that is accepted drains its context and is answered at the end of that. -/
def State.acceptDrain (s : State) (k kind : Nat) (req : Option (Path × WbMsg × Bool)) : State :=
  State.drainDone { s with late := s.late ++ [{ kind := kind, k := k, req := req }] } k

/-- Carry out a context command that has waited. -/
def State.runCmd (s : State) (l : Late) : State :=
  match l.kind with
  | 0 => let (s, code) := s.openNow l.k l.env; s.answerTo l.req code
  | 2 => let (s, code) := s.resumeNow l.k; s.answerTo l.req code
  | 4 => let (s, code) := s.startNow l.k; ((s.answerTo l.req code).progress l.k).drainDone l.k
  | 5 => let (s, code) := s.loadNow l.k l.env; s.answerTo l.req code
  | 6 => match s.saveStart l.k with
    | (s, some code) => s.answerTo l.req code
    | (s, none) => s.acceptDrain l.k 1 l.req
  | _ =>
    if (s.ctx l.k).st = .free ∨ (s.ctx l.k).st = .draining then s.answerTo l.req 0x2B
    else (s.tearStart l.k).acceptDrain l.k 3 l.req

/-- The first command with nothing left to wait for: no step boundary, no earlier command of its context, no commit. -/
def State.readyCmd (s : State) : List Late → List Nat → Option Late
  | [], _ => none
  | l :: t, seen =>
    if l.kind = 1 ∨ l.kind = 3 then s.readyCmd t seen
    else if l.need.isEmpty && !seen.contains l.k && !(l.kind == 4 && s.startWaits l.k) then some l
    else s.readyCmd t (l.k :: seen)

def State.runLateGo (s : State) : Nat → State
  | 0 => s
  | n + 1 =>
    match s.readyCmd s.late [] with
    | some l => (State.runCmd { s with late := s.late.erase l } l).runLateGo n
    | none => s

/-- Commands that wait for step boundaries no longer wait for a context that has stopped running speculatively; those with nothing
left to wait for are carried out, in order of arrival (R546). -/
def State.runLate (s : State) : State :=
  State.runLateGo { s with late := s.late.map fun l => { l with need := l.need.filter fun j => (s.specRunning l.k).contains j } } s.late.length

/-- After an event of context `k`: what it lets happen. -/
def State.after (s : State) (k : Nat) : State := ((s.progress k).drainDone k).runLate

/-! ### The commands -/

/-- The part serves requests and events. -/
def State.up (s : State) : Bool := s.phase == .running

/-- An event that only a running part can take. -/
def whenUp (s : State) (f : State → State) : Host.Outcome State Fault Refusal := .next (if s.up then f s else s)

/-- The same of an event on a die: one whose state a scan has left undefined cannot take it (R608). -/
def onDie (d : Nat) (s : State) (f : State → State) : Host.Outcome State Fault Refusal :=
  if s.scanned.contains d then .fault (.dieStateUndefined d) else whenUp s f

/-- A context command takes its place behind an earlier one of the context that waits (R546). -/
def State.enqueue (s : State) (kind k : Nat) (e : Env) (req : Option (Path × WbMsg × Bool)) : State :=
  State.runLate { s with late := s.late ++ [{ kind := kind, k := k, env := e, need := if kind = 0 ∨ kind = 2 then s.specRunning k else [], req := req }] }

/-- A context command of Table 17-3 with the request that it answers; no cores are assigned until a start has reached step 8 (R558). -/
def State.goOpen (s : State) (k : Nat) (e : Env) (req : Option (Path × WbMsg × Bool)) : State :=
  if s.startDone = false then s.answerTo req 0x2C
  else if (s.ctx k).st ≠ .free && !s.behind k then s.answerTo req 0x2B
  else s.enqueue 0 k e req

def State.goLoad (s : State) (k : Nat) (e : Env) (req : Option (Path × WbMsg × Bool)) : State :=
  if s.behind k then s.enqueue 5 k e req
  else
    let (s, code) := s.loadNow k e
    s.answerTo req code

def State.goStart (s : State) (k : Nat) (req : Option (Path × WbMsg × Bool)) : State :=
  if s.behind k || s.startWaits k then s.enqueue 4 k {} req
  else
    let (s, code) := s.startNow k
    (s.answerTo req code).after k

def State.goSave (s : State) (k : Nat) (req : Option (Path × WbMsg × Bool)) : State :=
  if s.behind k then s.enqueue 6 k {} req
  else
    match s.saveStart k with
    | (s, some code) => s.answerTo req code
    | (s, none) => (s.acceptDrain k 1 req).runLate

def State.goResume (s : State) (k : Nat) (req : Option (Path × WbMsg × Bool)) : State :=
  if s.startDone = false then s.answerTo req 0x2C
  else if (s.ctx k).st ≠ .saved && !s.behind k then s.answerTo req 0x2B
  else (s.enqueue 2 k {} req).after k

def State.goTear (s : State) (k : Nat) (req : Option (Path × WbMsg × Bool)) : State :=
  let st := (s.ctx k).st
  if s.behind k then s.enqueue 7 k {} req
  else if st = .free ∨ st = .draining then s.answerTo req 0x2B
  else ((s.tearStart k).acceptDrain k 3 req).runLate

/-- A disable of a function tears its context down; a draining save becomes a teardown (R197, R510, R511). -/
def State.disable (s : State) (k : Nat) : State := ((s.tearStart k).drainDone k).runLate

def execCtxOpenGo (k : CtxId) (e : Env) (s : State) : Host.Outcome State Fault Refusal := whenUp s fun s => s.goOpen k e none
def execLoadGo (k : CtxId) (e : Env) (s : State) : Host.Outcome State Fault Refusal := whenUp s fun s => s.goLoad k e none
def execStartGo (k : CtxId) (s : State) : Host.Outcome State Fault Refusal := whenUp s fun s => s.goStart k none
def execSaveGo (k : CtxId) (s : State) : Host.Outcome State Fault Refusal := whenUp s fun s => s.goSave k none
def execResumeGo (k : CtxId) (s : State) : Host.Outcome State Fault Refusal := whenUp s fun s => s.goResume k none
def execTeardownGo (k : CtxId) (s : State) : Host.Outcome State Fault Refusal := whenUp s fun s => s.goTear k none

/-- DRAIN_LIMIT_EXPIRE: every instruction that has not retired is aborted and its queue halts with HC-1D (Table 5-10, step 4). -/
def execDrainLimitExpire (k : CtxId) (s : State) : Host.Outcome State Fault Refusal :=
  whenUp s fun s =>
    let c := s.ctx k.val
    if c.st ≠ .draining ∨ c.tearing = false then s
    else
      let s := s.eachQueue k.val fun s q =>
        match (s.queue q).inflight with
        | i :: _ => s.haltAt q i.bank i.pc 0x1D 0 0
        | [] => if (s.queue q).replaying then s.haltRaw q 0x1D 0 0 else s
      s.after k.val

/-! ### Abort (R198) -/

/-- The advances of a context that are on their way reach their homes, in the order in which they left. -/
def State.landAdvs (s : State) (k : Nat) : State :=
  let mine := s.transit.filter fun a => a.k == k && a.src.isSome
  mine.foldl (fun s a => s.applyAdv a) { s with transit := s.transit.filter fun a => !(a.k == k && a.src.isSome) }

/-- The abort that ABORT_TARGET and ABORT_VALUE name.  An instruction past its retire point keeps its effect, so its advance comes before the
abort in the order of R198 (DEDUCED, log entry 102).  WS-29 when the target has reached the value, or names no Milepost of a
context (log entry 30). -/
def State.abortNow (s : State) : State × Nat :=
  let t := s.val ABORT_TARGET 1
  let v := s.val ABORT_VALUE 2
  let k := Bits.fld t 16 4
  let mp := Bits.fld t 0 13
  let e := s.mpEntry k mp
  let s := s.landAdvs k
  let p := s.pmp e.pmp
  if !e.valid || e.shared || (s.ctx k).st == .free then (s, 0x29)
  else if v ≤ p.cval then (s, 0x29)
  else
    let s := s.abortQueues k mp
    let s := if p.st = .poisoned then s else s.poisonPmp e.pmp true
    (((s.cancelAllPrefs k).squashAllVote k).after k, 0)

def State.goAbort (s : State) (req : Option (Path × WbMsg × Bool)) : State :=
  let (s, code) := s.abortNow
  s.answerTo req code

def execAbortGo (s : State) : Host.Outcome State Fault Refusal := whenUp s fun s => s.goAbort none

/-! ### Functions of the host link (R510, R511, R619) -/

/-- A VF is disabled: its window, mailbox and posts end, and its context is torn down. -/
def State.vfOff (s : State) (fn : Nat) : State :=
  if s.vfs.contains fn then
    let s : State := { s with vfs := s.vfs.filter (· != fn), mailboxes := Tab.set {} s.mailboxes fn {} }
    s.disable fn
  else s

def execVfDisable (fn : CtxId) (s : State) : Host.Outcome State Fault Refusal := whenUp s fun s => s.vfOff fn.val

/-- VF_ENABLE: the VF's window, mailbox and posts come into being. -/
def execVfEnable (fn : CtxId) (s : State) : Host.Outcome State Fault Refusal :=
  whenUp s fun s =>
    if fn.val = 0 ∨ s.vfs.contains fn.val = true then s
    else { s with vfs := s.vfs ++ [fn.val], mailboxes := Tab.set {} s.mailboxes fn.val {} }

/-- FLR_VF: disable of the VF, and its context torn down. -/
def execFlrVf (fn : CtxId) (s : State) : Host.Outcome State Fault Refusal :=
  whenUp s fun s => if fn.val = 0 then s else s.vfOff fn.val

/-- Function level reset of PF0: VF Enable cleared, every enabled VF's context torn down, and k0 when `own`. -/
def State.flrPf0 (s : State) (own : Bool) : State :=
  let s := s.vfs.foldl (fun s fn => s.vfOff fn) s
  if own then State.disable { s with mailboxes := Tab.set {} s.mailboxes 0 {} } 0 else s

def execFlrPf0 (s : State) : Host.Outcome State Fault Refusal := whenUp s fun s => s.flrPf0 true

/-- HOST_HOT_RESET: by the master that MGR_SEL reported at the last start (Table 16-2). -/
def execHostHotReset (s : State) : Host.Outcome State Fault Refusal := whenUp s fun s => s.flrPf0 (!s.mgrSel)

/-- HL_PERST_N acts as a hot reset of the host link (R619). -/
def execHlPerstN (s : State) : Host.Outcome State Fault Refusal := whenUp s fun s => s.flrPf0 (!s.mgrSel)

end Sys2Proof.Machine
end

