-- ==== Sys2Proof/Machine/Engine.lean ====
section
/-!
DEFINITION. Events of the tensor cores: retire points, waits that end, confirmations, transfers and advances that arrive
(R166 to R168, R210, R232, R255, R284, R291, R347).
-/

namespace Sys2Proof.Machine

open Sys2Proof.WB

/-- An event of a core, and what it lets happen in the context that holds it. -/
def onEngine (c : Nat) (s : State) (f : State → State) : Host.Outcome State Fault Refusal :=
  onCore c s fun s =>
    if s.up then
      match (s.core c).ctx with
      | some k => (f s).after k
      | none => f s
    else s

/-! ### Retire points (R166 to R168, Table 5-1) -/

/-- The array has folded every segment of its work (R99, R100). -/
def Core.arrayDone (c : Core) : Bool :=
  match c.job with
  | some j => j.segs.isEmpty && j.cells.isEmpty
  | none => true

/-- The work of an issued instruction is over. -/
def State.workDone (s : State) (q : QRef) (i : InFlight) : Bool :=
  let c := s.core q.core.val
  match i.work with
  | .now => true
  | .dgo ds => (match (c.slot ds).run with
    | some r => r.complete
    | none => true)
  | .pref ds => (match (c.slot ds).run with
    | some r => r.instr != i.id || r.complete || ((c.slot ds).pff && r.out.isEmpty)
    | none => true)
  | .array => c.arrayDone
  | .attn => c.arrayDone
  | .adds _ => !(s.eauq.any fun a => a.q == some q && a.instr == i.id)
  | .sends => !(s.eauq.any fun a => a.q == some q && a.instr == i.id)

/-- Where confirmation leaves a held slot: its chunk ends, or the rest of it runs as a stream (R291, R295). -/
def DSlot.confirmed (x : DSlot) (r : ChunkRun) : DSlot :=
  let y : DSlot := { x with run := some { r with pref := false }, pff := false }
  if r.complete then y.chunkDone else { y with st := .running }

/-- The prefetch of a slot is confirmed (R291). -/
def State.confirmPref (s : State) (c ds : Nat) (r : ChunkRun) : State :=
  (s.updCore c fun co => co.setSlot ds ((co.slot ds).confirmed r)).countDie PREF_CONFIRMED (coreDie c) 1

/-- The prefetch of a slot is cancelled; a pending re-arm takes effect (R288, R293). -/
def State.cancelPref (s : State) (c ds : Nat) : State :=
  (s.updCore c fun co => co.setSlot ds (co.slot ds).toArmed).countDie PREF_CANCELLED (coreDie c) 1

/-- A PREF retires: its slot is HELD, and its prefetch confirmed when the value had been reached at issue (R291). -/
def State.prefEnd (s : State) (c ds id : Nat) : State :=
  match ((s.core c).slot ds).run with
  | some r =>
    if r.instr ≠ id then s
    else
      let s := s.updCore c fun x => x.setSlot ds { x.slot ds with st := .held }
      if r.reached then s.confirmPref c ds r else s
  | none => s

/-- What the end of the work itself does: a chunk completes, a prefetch is held, the array is free, a retire by adds is finished. -/
def State.workEnd (s : State) (q : QRef) (i : InFlight) : State :=
  let c := q.core.val
  match i.work with
  | .now => s
  | .sends => s
  | .dgo ds => s.updCore c fun x => x.setSlot ds (x.slot ds).chunkDone
  | .pref ds => s.prefEnd c ds i.id
  | .array => s.updCore c fun x => { x with job := none }
  | .attn =>
    -- the attention record, with the segments and replays of both slots' tiles so far (R219, Table 6-17; DEDUCED, log entry 97)
    match (s.core c).job.bind (·.attn) with
    | some o =>
      let v := retireRecord ((s.core c).oorCount o.rr o.mr) 0 0 false false 0 (s.core c).attnReplays (s.core c).attnSegs
      (s.updCore c fun x => { x with job := none }).updQueue q fun x => x.setReg o.reg v
    | none => s
  | .adds r =>
    let w := i.word.toNat
    if Bits.fld w 0 11 = 0x400 then
      let o := retOps { s.queue q with regs := i.regs } w
      let t := (s.core c).tile o.t
      s.retFinish q o (o.outputs t []) 0 0
    else if Bits.fld w 0 11 = 0x402 then s.updQueue q fun x => x.setReg (Bits.fld w 98 6) r
    else s

/-- INSTRUCTION_RETIRE: the oldest issued instruction of a queue reaches its retire point once its work is over. -/
def State.retireNow (s : State) (q : QRef) : State :=
  match (s.queue q).inflight with
  | [] => s
  | i :: rest =>
    if s.workDone q i then
      let s := if (s.ctx (s.ctxOf q)).aborting.isSome then s else s.workEnd q i
      (s.updQueue q fun x => { x with inflight := { i with work := .now } :: rest }).drain q (rest.length + 1)
    else s

def execInstructionRetire (at_ : QRef) (s : State) : Host.Outcome State Fault Refusal :=
  onEngine at_.core.val s fun s => s.retireNow at_

/-! ### Waits that end -/

/-- MILEPOST_WAIT_DONE: a WAIT or WAITMIN looks at its Mileposts again. -/
def State.waitAgain (s : State) (q : QRef) : State :=
  let x := s.queue q
  match x.wait, x.fetch with
  | some .milepost, some w =>
    if Bits.fld w 0 11 = 8 then s.resume 0x008 q (bodyWait waitOne q) else s.resume 0x009 q (bodyWait waitMany q)
  | _, _ => s

def execMilepostWaitDone (at_ : QRef) (s : State) : Host.Outcome State Fault Refusal :=
  onEngine at_.core.val s fun s => s.waitAgain at_

/-- TAKE_GRANT: a TAKE looks at its Milepost, its offer and the holders again (R175). -/
def execTakeGrant (at_ : QRef) (s : State) : Host.Outcome State Fault Refusal :=
  onEngine at_.core.val s fun s => if (s.queue at_).wait = some .take then s.resume 0x012 at_ (bodyTake at_) else s

/-- Every queue of a core works on epoch `n` or a later one. -/
def State.coreInEpoch (s : State) (c : CoreId) (k n : Nat) : Bool :=
  allQueues.all fun t => match s.epochOf k (s.queue ⟨c, t⟩) with
    | some m => decide (n ≤ m)
    | none => false

/-- The core's buffer table is recorded for epoch `n` once its five queues have come to it (R347). -/
def State.recordCore (s : State) (c : CoreId) (k n : Nat) : State :=
  if s.coreInEpoch c k n && !((s.core c.val).bufRec.any fun e => e.1 == n) then s.recordBufs c.val n else s

/-- A buffer instruction that waits for the record looks again (R171). -/
def State.bufAgain (s : State) (q : QRef) : State :=
  let x := s.queue q
  match x.wait, x.fetch with
  | some .bufTable, some w =>
    match Bits.fld w 0 11 with
    | 0x010 => s.resume 0x010 q (bodyBdef q)
    | 0x011 => s.resume 0x011 q (bodyGive q)
    | 0x012 => s.resume 0x012 q (bodyTake q)
    | _ => s.resume 0x013 q (bodyBrel q)
  | _, _ => s

/-- BUFFER_TABLE_RECORDED: the table is recorded for the newest epoch that all five queues have reached, and the waiting buffer
instructions proceed. -/
def execBufferTableRecorded (core : CoreId) (s : State) : Host.Outcome State Fault Refusal :=
  onEngine core.val s fun s =>
    let k := s.ctxOf ⟨core, .O⟩
    let s := (s.ctx k).epochs.foldl (fun s e => if e.st = .opened then s.recordCore core k e.n else s) s
    allQueues.foldl (fun s t => s.bufAgain ⟨core, t⟩) s

/-! ### Ridgepole (R255 to R257, R338 to R342, R347) -/

/-- Epoch `n` is open, or may open now: no pitch, swap or placement change holds it, and a bank is free (R342). -/
def State.mayOpen (s : State) (k n : Nat) : Bool :=
  let c := s.ctx k
  (c.epoch n).isSome || n ≤ s.val COMMITTED_STEP (k + 1)
    || (s.pitching.isNone && !c.draining && !(c.epochs.any fun e => e.st == .squashed) && !(s.swaps.any fun p => (s.core p.1).ctx == some k) && (c.freeBank n).isSome)

/-- The RIDGE of a step group for round `r` may retire: every epoch up to N + 1 - SPEC_DEPTH is final (R339). -/
def State.depthAllows (s : State) (k r : Nat) : Bool :=
  s.val STEP_BASE (k + 1) + r + 1 ≤ s.val COMMITTED_STEP (k + 1) + s.val SPEC_DEPTH (k + 1)

/-- A waiting RIDGE: poisoned with its group, or complete once the group's minimum has reached its round (R192, R255, R257). -/
def bodyRidgeEnd (q : QRef) (s : State) (w : Nat) : Act :=
  let k := s.ctxOf q
  let gn := Bits.fld w 32 6
  let x := s.queue q
  match s.rgroup k gn with
  | none => .halt s 0x1E gn 0
  | some g =>
    let ps := s.participants k g
    let r := valueOp x (Bits.fld w 54 6) (imm32 w 64)
    if ps.any fun e => (s.part (partKey k gn e.1 e.2)).poisoned then s.poisonDone q (0x2000 + gn) .done
    else if (match s.partMin k gn ps (s.epochOf k x) with
      | some m => decide (m < r)
      | none => false) then .wait s .ridge true
    else if s.stepGroup k = some gn ∧ x.round < r ∧ !(s.depthAllows k r && s.mayOpen k (s.val STEP_BASE (k + 1) + r + 1)) then .wait s .ridge true
    else .done s

/-- A queue has retired the step group's RIDGE for round `r`: it works on the next epoch, which opens with the first queue, and whose
entry state the queue records. -/
def State.enterEpoch (s : State) (q : QRef) (k r : Nat) : State :=
  let n := s.val STEP_BASE (k + 1) + r + 1
  let s := s.updQueue q fun x => { x with round := r }
  let s := if ((s.ctx k).epoch n).isSome || n ≤ s.val COMMITTED_STEP (k + 1) then s else s.openEpoch k n
  (s.recordEntry q n).recordCore q.core k n

/-- RIDGE_COMPLETE: the waiting RIDGE of a queue looks at its group's minimum again. -/
def State.ridgeAgain (s : State) (q : QRef) : State :=
  let k := s.ctxOf q
  let x := s.queue q
  match s.ridgeAt q with
  | none => s
  | some (g, r) =>
    let s := s.resume 0x00C q (bodyRidgeEnd q)
    let y := s.queue q
    if s.stepGroup k = some g ∧ x.round < r ∧ y.wait = none ∧ y.st = .running then s.enterEpoch q k r else s

def execRidgeComplete (at_ : QRef) (s : State) : Host.Outcome State Fault Refusal :=
  onEngine at_.core.val s fun s => s.ridgeAgain at_

/-! ### Outrider (R284, R289 to R295) -/

/-- The GIVE at which a core's O queue stands offers a buffer that overlaps the destination of slot `ds`. -/
def Core.giveMeets (c : Core) (ds : Nat) : Bool :=
  match c.qO.fetch with
  | some w => (match c.buf (Bits.fld w 32 6) with
    | some b => (c.slot ds).covers b.base b.len
    | none => false)
  | none => false

/-- A GIVE that waits for a prefetch looks again; where the prefetch that covers its buffer was cancelled on a poisoned confirmation, it
completes with poisoned status (R192, R292, R293). -/
def State.giveAgain (s : State) (core : CoreId) (poison : Option Nat) : State :=
  let q : QRef := ⟨core, .O⟩
  if (s.queue q).wait ≠ some .unconfirmed then s
  else
    match poison with
    | none => s.resume 0x011 q (bodyGive q)
    | some mp => s.resume 0x011 q fun s w => s.poisonDone q mp fun s => bodyGive q s w

/-- PREF_CONFIRM: the confirming Milepost of a held prefetch has reached its value, or that of any prefetch is poisoned and the
prefetch is cancelled (R291, R293). -/
def execPrefConfirm (core : CoreId) (slot : Fin 64) (s : State) : Host.Outcome State Fault Refusal :=
  onEngine core.val s fun s =>
    let c := core.val
    let q : QRef := ⟨core, .O⟩
    let k := s.ctxOf q
    let x := (s.core c).slot slot.val
    match x.run with
    | some r =>
      if !r.pref then s
      else if s.mpPoisoned k r.mp then
        (s.cancelPref c slot.val).giveAgain core (if (s.core c).giveMeets slot.val then some r.mp else none)
      else if x.st = .held ∧ r.value.toNat ≤ s.mpSeen k r.mp (s.epochOf k (s.queue q)) then
        (s.confirmPref c slot.val r).giveAgain core none
      else s
    | none => s

/-- TRANSFER_COMPLETE: transfer `n` of a slot is written; where an earlier one of the chunk still writes the same bytes, it
comes first (R278, R283). -/
def execTransferComplete (core : CoreId) (slot : Fin 64) (n : Nat) (s : State) : Host.Outcome State Fault Refusal :=
  onEngine core.val s fun s =>
    let c := core.val
    let x := (s.core c).slot slot.val
    let k := (s.core c).ctx.getD 0
    let d := descOf x.desc.toNat
    match x.run with
    | none => s
    | some r =>
      match r.out.find? fun f => f.n == n with
      | none => s
      | some f =>
        if f.acks ≠ 0 then s
        else if r.out.any fun g => g.n < n && g.dst < f.dst + f.len && f.dst < g.dst + g.len then s
        else
          let s := if (s.remoteWin k d f.dst).isSome then s else s.moveXfer c k d r.epoch x.chunk f
          (s.endXfer c k slot.val f).giveAgain core none

/-- PAGE_MAPPED: the Hub maps the page and the stream resumes; an address in no mapping any more halts it (R298, R299). -/
def execPageMapped (core : CoreId) (slot : Fin 64) (s : State) : Host.Outcome State Fault Refusal :=
  onEngine core.val s fun s =>
    let x := (s.core core.val).slot slot.val
    let k := (s.core core.val).ctx.getD 0
    if x.st ≠ .paused then s
    else
      let a := x.pausedAt
      let run := fun (s : State) => s.updCore core.val fun c => c.setSlot slot.val { c.slot slot.val with st := .running }
      match s.whereIs k a with
      | .mem => run s
      | .notPresent =>
        match s.mapPage k a with
        | some s => run s
        | none => if s.streamTurn core.val slot.val then s.taskAbort core slot.val a else s
      | _ => if s.streamTurn core.val slot.val then s.haltStream core slot.val 0x43 slot.val a else s

/-- PAGE_WAIT_LIMIT_EXPIRE: the page was not mapped in time, and the task aborts (R299). -/
def execPageWaitLimitExpire (core : CoreId) (slot : Fin 64) (s : State) : Host.Outcome State Fault Refusal :=
  onEngine core.val s fun s =>
    let x := (s.core core.val).slot slot.val
    if x.st ≠ .paused ∨ s.streamTurn core.val slot.val = false then s else s.taskAbort core slot.val x.pausedAt

/-! ### Advances (R232, R246, R248) -/

/-- MILEPOST_ADVANCE_ARRIVE: the `i`-th advance in transit reaches its home; those of one queue in program
order (R241). -/
def execMilepostAdvanceArrive (i : Nat) (s : State) : Host.Outcome State Fault Refusal :=
  onDie (((s.transit[i]?).map fun a => pmpHome a.pmp).getD 8) s fun s =>
    match s.transit[i]? with
    | none => s
    | some a =>
      if a.src.isSome && (s.transit.take i).any fun b => b.src == a.src then s
      else (State.applyAdv { s with transit := s.transit.eraseIdx i } a).after a.k

end Sys2Proof.Machine
end

