-- ==== Sys2Proof/Machine/Memory.lean ====
section
/-!
DEFINITION. Events of the memory tiers: adds and clears that end, scrubs, spares, CXL ports, pages made present (R321, R322, R439,
R444, R448 to R456).
-/

namespace Sys2Proof.Machine

open Sys2Proof.WB

/-! ### Exact adds (R454 to R456) -/

/-- The add's target lies in a gradient store whose clear is in progress (R321). -/
def State.addWaits (s : State) (a : EauAdd) : Bool :=
  match s.storeAt a.k (s.eauLanding a.k a.va) with
  | some (i, _, _) => a.w128 && (s.ctx a.k).clearing.contains i
  | none => false

/-- An add is refused: the queue that issued it halts at the instruction, whose other adds in flight go with it (R191, R454). -/
def State.addRefused (s : State) (a : EauAdd) (hc detail addr : Nat) : State :=
  let s : State := { s with eauq := s.eauq.filter fun b => !(b.k == a.k && b.q == a.q && b.instr == a.instr) }
  match a.q with
  | none => s
  | some q =>
    match (s.queue q).inflight.find? fun i => i.id == a.instr with
    | none => s
    | some i =>
      if hc = 0x60 then
        let s := s.logFault 0xFA 0x03 3 (some q.core.val) (some a.k) (coreDie q.core.val) s.syndrome detail
        s.haltIssued q i 0x60 (s.faults.length - 1) addr
      else s.haltIssued q i hc detail addr

/-- Apply the `i`-th add in flight, or discard it by its placement generation (R399, R456). -/
def State.applyAdd (s : State) (i : Nat) (a : EauAdd) : State :=
  let gone : State := { s with eauq := s.eauq.eraseIdx i }
  if a.pgen ≠ s.pgen a.k then
    let t := gone.count GEN_DISCARDS (a.k + 1) 1
    match a.epoch.bind (t.ctx a.k).epoch with
    | some e => if e.st = .opened then t.strike a.k e.n else t
    | none => t
  else
    match gone.eauApply a.k a.va a.w128 a.value with
    | .ok (t, sp) => t.countAdd a.k a.va sp
    | .error (hc, detail, addr) => s.addRefused a hc detail addr

/-- EAU_ADD_APPLY: an EAU applies the `i`-th add in flight; one into another member's window waits for its ACK instead. -/
def execEauAddApply (i : Nat) (s : State) : Host.Outcome State Fault Refusal :=
  whenUp s fun s =>
    match s.eauq[i]? with
    | none => s
    | some a => if a.remote || s.addWaits a then s else (s.applyAdd i a).after a.k

/-! ### Clears (R321, R322) -/

/-- ANCHOR of a group after its clear: AINIT, or by the largest magnitude that the group held. -/
def State.clearAnchor (s : State) (k : Nat) (g : GStore) (grp : Nat) : Int :=
  let old := Fmt.grpAnchor (s.memNat k (g.grec + 64 * grp) 64)
  if g.adaptive then
    (nextAnchor ((List.range (min 64 (g.nelem - 64 * grp))).map fun i => s.w128Read k g (64 * grp + i))).getD old
  else g.ainit

/-- The record of a group after its clear: STATE and NSPILL zero, ANCHOR as given (Table 2-11). -/
def clearRecord (old : Nat) (a : Int) : Nat := old / 2 ^ 288 * 2 ^ 288 + Bits.wrap a 16 * 2 ^ 256

/-- Clear gradient store `i` of a context. -/
def State.clearStore (s : State) (k i : Nat) (g : GStore) : State :=
  let recs := (List.range (Bits.cdiv g.nelem 64)).map fun j =>
    (g.grec + 64 * j, clearRecord (s.memNat k (g.grec + 64 * j) 64) (s.clearAnchor k g j))
  let hi := g.elem + 16 * g.nelem
  let s := s.updCtx k fun c => { c with
    mem := Tab.clearRange c.mem g.elem hi
    poison := clearPoison c.poison g.elem (hi - g.elem)
    spill := Tab.clearRange c.spill (spillKey i 0) (spillKey (i + 1) 0) }
  recs.foldl (fun s r => s.hubWriteNat k r.1 64 r.2) s

/-- GSTORE_CLEAR_DONE: the clear of a store completes, and what waited for it goes on. -/
def execGstoreClearDone (k : CtxId) (store : Fin 32) (s : State) : Host.Outcome State Fault Refusal :=
  whenUp s fun s =>
    if (s.ctx k.val).clearing.contains store.val then
      let s := match s.gstore k.val store.val with
        | some g => s.clearStore k.val store.val g
        | none => s
      (s.updCtx k.val fun c => { c with clearing := c.clearing.filter (· != store.val) }).after k.val
    else s

/-! ### Scrub and spares (R448 to R452) -/

/-- The counter sub-entry of a location: its stack or port, or SRAM. -/
def State.eccUnit (s : State) : MemLoc → Nat
  | .dev k va => s.targetOf k.val va + 1
  | .line t _ => t.val + 1
  | _ => 0x15

/-- The row or column that an error at a location counts for: 32-byte units lie across the 64 banks of a core store (R147). -/
def State.spareUnit (s : State) (loc : MemLoc) (r : ScrubRead) : Option SpareUnit :=
  match loc with
  | .dev k va => if h : s.targetOf k.val va < 20 then some (.row ⟨s.targetOf k.val va, h⟩ r.row) else none
  | .line t _ => some (.row t r.row)
  | .coreStore c a => some (.column c (Fin.ofNat 64 (a / 32)) r.row)
  | _ => none

/-- The time by which an error of a row or a column is told from others: the scrub pass, or the local count of the die (R452). -/
def State.spareStamp (s : State) : SpareUnit → Nat
  | .row _ _ => s.val SCRUB_PASSES 0
  | .column c _ _ => s.clock (coreDie c.val)

/-- 24 hours of local count (R593). -/
def dayCounts : Nat := 24 * 3600 * 10 ^ 8

/-- How long an error counts: the two passes before, or 24 hours. -/
def spareSpan : SpareUnit → Nat
  | .row _ _ => 2
  | .column _ _ _ => dayCounts

/-- A row has had no corrected error yet in this pass (R448). -/
def State.firstInPass (s : State) (u : SpareUnit) : Bool := !s.sparing.corrected.contains (u, s.spareStamp u)

/-- A corrected error of a row, once a pass, or of a column. -/
def State.noteCorrected (s : State) (u : SpareUnit) : State :=
  let t := s.spareStamp u
  let l := s.sparing.corrected.filter fun e => !(e.1 == u && decide (e.2 + spareSpan u < t))
  match u with
  | .row _ _ => if l.contains (u, t) then s else { s with sparing := { s.sparing with corrected := l ++ [(u, t)] } }
  | .column _ _ _ => { s with sparing := { s.sparing with corrected := l ++ [(u, t)] } }

/-- A corrected error: masked and counted; logged in memory for the first of its row, in SRAM for each (R448, R629). -/
def State.scrubCorrected (s : State) (loc : MemLoc) (r : ScrubRead) : State :=
  let u := s.spareUnit loc r
  let first := match u with | some u => s.firstInPass u | none => true
  let s := s.count ECC_CORR (s.eccUnit loc) 1
  let s := match loc with
    | .dev k va => if first then s.logFault 0xFA 0x01 0 none (some k.val) (targetDie (s.targetOf k.val va)) s.syndrome va else s
    | .line t n => if first then s.logFault 0xFA 0x01 0 none none (targetDie t.val) s.syndrome (64 * n) else s
    | .coreStore c a => s.logFault 0xFA 0x02 0 (some c.val) (s.core c.val).ctx (coreDie c.val) s.syndrome a
    | .accStore c a => s.logFault 0xFA 0x02 0 (some c.val) (s.core c.val).ctx (coreDie c.val) s.syndrome a
    | _ => s
  match u with
  | some u => s.noteCorrected u
  | none => s

/-- An uncorrectable error that the scrub finds: the line, the slot or the Milepost is poisoned; in the commit log or the ledger it drives the
part into Safe Hold (R268, R364, R450).  In the CXL tier it is the device's poison that the read returns, logged as SUB 0x07 (R439; DEDUCED, log
entry 105). -/
def State.scrubUncorrectable (s : State) (loc : MemLoc) : State :=
  let s := s.count ECC_UNCORR (s.eccUnit loc) 1
  match loc with
  | .dev k va =>
    let t := s.targetOf k.val va
    let s := s.updCtx k.val fun c => { c with poison := Tab.set false c.poison (va / 64) true }
    s.logFault 0xFA (if t < 16 then 0x05 else 0x07) 8 none (some k.val) (targetDie t) s.syndrome va
  | .coreStore c a =>
    (s.updCore c.val fun x => { x with poison := Tab.set false x.poison (a / 64) true }).logFault 0xFA 0x05 8 (some c.val)
      (s.core c.val).ctx (coreDie c.val) s.syndrome a
  | .accStore c a =>
    (s.updCore c.val fun x => x.setTile (a / 16384) { x.tile (a / 16384) with poison := (x.tile (a / 16384)).poison ++ [a % 16384] }).logFault
      0xFA 0x05 8 (some c.val) (s.core c.val).ctx (coreDie c.val) s.syndrome a
  | .participant k g role q =>
    let key := partKey k.val g.val role.val q
    let c := (s.ctx k.val).roles[role.val]?
    (s.setPart key { s.part key with poisoned := true }).logFault 0xFA 0x06 8 c (some k.val) ((c.map coreDie).getD 8) s.syndrome
      (64 * role.val + g.val)
  | .milepost n => (s.poisonPmp n.val false).logFault 0xFA 0x06 8 none none (pmpHome n.val) s.syndrome n.val
  | .line t n => s.logFault 0xFA (if t.val < 16 then 0x05 else 0x07) 8 none none (targetDie t.val) s.syndrome (64 * n)
  | .commitLog => (s.logFault 0xFA 0x08 5 none none 9 s.syndrome 0).enterSafeHold 3
  | .ledger k => (s.logFault 0xFA 0x08 5 none (some k.val) 8 s.syndrome 0).enterSafeHold 3

/-- The context whose events a location lets go on. -/
def State.locCtx (s : State) : MemLoc → Option Nat
  | .dev k _ => some k.val
  | .participant k _ _ _ => some k.val
  | .milepost n => if (s.pmp n.val).st = .free then none else some (s.pmp n.val).owner
  | _ => none

/-- A location that exists: a present page, a store address, or a line of memory that no page holds. -/
def State.locExists (s : State) : MemLoc → Bool
  | .dev k va => s.whereIs k.val va == .mem
  | .coreStore _ a => decide (a < storeSize)
  | .participant k g role q => match s.rgroup k.val g.val with
    | some r => (s.participants k.val r).contains (role.val, q)
    | none => false
  | _ => true

/-- A location of HBM3E. -/
def State.isHbm (s : State) (loc : MemLoc) : Bool :=
  match loc with
  | .dev k va => decide (s.targetOf k.val va < 16)
  | .line t _ => decide (t.val < 16)
  | _ => false

/-- The last line of HBM3E that a pass reads ends the pass (R451, SCRUB_PASSES). -/
def State.scrubPass (s : State) (loc : MemLoc) (r : ScrubRead) : State :=
  if r.passEnd && s.isHbm loc then s.count SCRUB_PASSES 0 1 else s

/-- SCRUB_LINE: the scrub reads a line or word (R451). -/
def execScrubLine (loc : MemLoc) (ecc : Ecc) (r : ScrubRead) (s : State) : Host.Outcome State Fault Refusal :=
  whenUp s fun s =>
    if s.locExists loc then
      match ecc with
      | .clean => s.scrubPass loc r
      | .corrected => (s.scrubCorrected loc r).scrubPass loc r
      | .uncorrectable =>
        let k := s.locCtx loc
        let s := (s.scrubUncorrectable loc).scrubPass loc r
        match k with
        | some k => s.after k
        | none => s
    else s

/-- A row with corrected errors in 3 successive passes, or a column with 3 within 24 hours (R452). -/
def Sparing.qualifies (x : Sparing) (u : SpareUnit) : Bool :=
  let ts := (x.corrected.filter fun e => e.1 == u).map (·.2)
  match u with
  | .row _ _ => ts.any fun t => ts.contains (t + 1) && ts.contains (t + 2)
  | .column _ _ _ => 3 ≤ ts.length

/-- ROW_SPARE: a row or column that qualifies is replaced at the next step boundary, at once while no step runs (R452; DESIGN CHOICE, log entry
85). -/
def execRowSpare (unit : SpareUnit) (spare : Bool) (s : State) : Host.Outcome State Fault Refusal :=
  whenUp s fun s =>
    if s.sparing.qualifies unit then
      let s : State := { s with sparing := { s.sparing with
        due := s.sparing.due ++ [(unit, spare)], corrected := s.sparing.corrected.filter fun e => e.1 != unit } }
      if s.anyStep then s else s.spareDue
    else s

/-- CXL_LINK_DOWN: the port is marked down, and every access to its frames fails as uncorrectable from now on (R439). -/
def execCxlLinkDown (port : Fin 4) (s : State) : Host.Outcome State Fault Refusal :=
  whenUp s fun s =>
    if s.cxlDown.contains port.val then s
    else State.logFault { s with cxlDown := s.cxlDown ++ [port.val] } 0xFA 0x07 8 none none (targetDie (16 + port.val)) port.val 0

/-! ### Pages made present (R444) -/

/-- MAP_PRESENT: WS-38 outside a DEMAND region, WS-39 with no free frame. -/
def State.mapPresentNow (s : State) (k va : Nat) : State × Nat :=
  match s.regionAt k va with
  | none => (s, 0x38)
  | some (_, r) =>
    if r.demand then
      match s.mapPage k va with
      | some s => (s, 0)
      | none => (s, 0x39)
    else (s, 0x38)

def State.goMapPresent (s : State) (k va : Nat) (req : Option (Path × WbMsg × Bool)) : State :=
  let (s, code) := s.mapPresentNow k va
  s.answerTo req code

def execMapPresent (k : CtxId) (va : W64) (s : State) : Host.Outcome State Fault Refusal :=
  whenUp s fun s => s.goMapPresent k.val va.toNat none

end Sys2Proof.Machine
end

