-- ==== Sys2Proof/Machine/Collectives.lean ====
section
/-!
DEFINITION. The events of Caravan and of the commit ordering (R352 to R357, R370 to R404, R471, R476).
-/

namespace Sys2Proof.Machine

open Sys2Proof.WB

/-! ### Messages -/

/-- A message of type `t` reaches the endpoint of context `k`; it leaves the inbox that a frame put it into.  In Safe Hold no epoch
is open and no message applies (R365). -/
def onMessage (t : Nat) (k : CtxId) (m : CMsg) (s : State) (f : State → State) : Host.Outcome State Fault Refusal :=
  whenUp s fun s =>
    if s.safeHold || m.hdr.mtype != t then s
    else (f { s with inbox := s.inbox.erase m }).after k.val

def execCaravanSeg (k : CtxId) (m : CMsg) (s : State) : Host.Outcome State Fault Refusal := onMessage 0 k m s fun s => s.onSeg k.val m
def execCaravanBit (k : CtxId) (m : CMsg) (s : State) : Host.Outcome State Fault Refusal := onMessage 1 k m s fun s => s.onBit k.val m
def execCaravanRes (k : CtxId) (m : CMsg) (s : State) : Host.Outcome State Fault Refusal := onMessage 2 k m s fun s => s.onRes k.val m
def execCaravanStart (k : CtxId) (m : CMsg) (s : State) : Host.Outcome State Fault Refusal := onMessage 3 k m s fun s => s.onStart k.val m
def execCaravanRot (k : CtxId) (m : CMsg) (s : State) : Host.Outcome State Fault Refusal := onMessage 4 k m s fun s => s.onRot k.val m
def execCaravanRel (k : CtxId) (m : CMsg) (s : State) : Host.Outcome State Fault Refusal := onMessage 5 k m s fun s => s.onRel k.val m
def execCaravanSend (k : CtxId) (m : CMsg) (s : State) : Host.Outcome State Fault Refusal := onMessage 6 k m s fun s => s.onSend k.val m
def execCaravanRadd (k : CtxId) (m : CMsg) (s : State) : Host.Outcome State Fault Refusal := onMessage 7 k m s fun s => s.onRadd k.val m
def execCaravanVote (k : CtxId) (m : CMsg) (s : State) : Host.Outcome State Fault Refusal := onMessage 9 k m s fun s => s.onVote k.val m
def execCaravanVerdict (k : CtxId) (m : CMsg) (s : State) : Host.Outcome State Fault Refusal :=
  onMessage 10 k m s fun s => s.onVerdict k.val m

/-- ACK ends a transfer's or an add's wait, or carries a refusal (R401, R402, R447). -/
def execCaravanAck (k : CtxId) (m : CMsg) (hc : Nat) (r : RefusedAt) (s : State) : Host.Outcome State Fault Refusal :=
  onMessage 8 k m s fun s => s.onAck k.val m hc r.detail r.addr

/-! ### A member's own triggers and limits (R379, R381, R392, R403, R404) -/

/-- An event of the Caravan engine of context `k`. -/
def onCaravan (k : CtxId) (s : State) (f : State → State) : Host.Outcome State Fault Refusal :=
  whenUp s fun s => if s.safeHold then s else (f s).after k.val

def execCaravanTrigger (k : CtxId) (op : Fin 1024) (s : State) : Host.Outcome State Fault Refusal := onCaravan k s fun s => s.onTrigger k.val op.val
def execCaravanDeadlineExpire (k : CtxId) (op : Fin 1024) (s : State) : Host.Outcome State Fault Refusal :=
  onCaravan k s fun s => s.onDeadline k.val op.val
def execLateContributionReady (k : CtxId) (op : Fin 1024) (s : State) : Host.Outcome State Fault Refusal :=
  onCaravan k s fun s => s.onLate k.val op.val
def execRotationSendTrigger (k : CtxId) (op : Fin 1024) (s : State) : Host.Outcome State Fault Refusal :=
  onCaravan k s fun s => s.onRotTrigger k.val op.val
def execRotationReleaseTrigger (k : CtxId) (op : Fin 1024) (s : State) : Host.Outcome State Fault Refusal :=
  onCaravan k s fun s => s.onRotTrigger k.val op.val

/-! ### The commit (Table 10-6, R352, R471, R476) -/

/-- Every member pauses: uncommitted epochs squashed, queues halted, JOB_STATE PAUSED (R363, R476, R479). -/
def State.pauseJob (s : State) (k detail : Nat) : State := ((s.squash k 0 false).haltCtx k detail 0).setVal JOB_STATE (k + 1) 1

/-- A member of the job has failed: it enters the refill queue, or enters it again at the end (R482). -/
def State.failMember (s : State) (k rank : Nat) : State :=
  s.updCtx k fun c => { c with refillQueue := (c.refillQueue.filter fun r => r != rank) ++ [rank] }

/-- VOTE_LIMIT_EXPIRE: the vote of `rank` for an epoch has not arrived, whether or not the epoch could close here without that member; it is
counted SQUASH and the job pauses for repair, on a member that has opened the epoch again too (R352, R476). -/
def execVoteLimitExpire (k : CtxId) (epoch rank : Nat) (s : State) : Host.Outcome State Fault Refusal :=
  onCaravan k s fun s =>
    if (s.ctx k.val).st = .saved then s
    else
    match s.jobGroup k.val, (s.ctx k.val).epoch epoch with
    | some (g, r), some e =>
      let waits := if r.rank = 0 then e.squashable && !(e.votes.any fun v => v.1 == rank) else e.squashable || e.st == .squashed
      if !waits || r.nmem ≤ rank || rank == r.rank then s
      else
        let s := if r.rank = 0 then
            s.sendAll k.val g (s.verdictMsg k.val g r epoch .squash false ((s.ctx k.val).runNext + 1) (s.pgen k.val) false)
          else s
        ((s.pauseJob k.val 0x2003).failMember k.val rank).event 0x0030 (some k.val) 8 rank
    | _, _ => s

/-- The epoch of a context that waits at step 11. -/
def Ctx.atFlash (c : Ctx) : Option Epoch := c.epochs.find? fun e => e.st == .committing && (e.flashWait || e.genWait)

/-- COMMIT_FLASH_WRITE_DONE: the synchronous write of the commit log, or then of the generation, ends and the commit goes on (R471). -/
def execCommitFlashWriteDone (k : CtxId) (s : State) : Host.Outcome State Fault Refusal :=
  onCaravan k s fun s =>
    match (s.ctx k.val).atFlash with
    | none => s
    | some e =>
      if e.flashWait then
        let s : State := { s with flashLog := s.commitLog }
        let s := s.updEpoch k.val e.n fun e => { e with flashWait := false }
        if e.genWait then s else s.finishCommit k.val e.n
      else
        match (s.ctx k.val).stage with
        | some st =>
          if st.staged && st.tiers.head? == some 1 then
            ((s.endCopy k.val true).updEpoch k.val e.n fun e => { e with genWait := false }).finishCommit k.val e.n
          else s
        | none => s

/-! ### Placement changes (R400) -/

/-- PLACE_GO: WS-31 while a change is pending. -/
def State.placeNow (s : State) (k : Nat) : State × Nat :=
  if (s.ctx k).placing then (s, 0x31) else (s.updCtx k fun c => { c with placing := true }, 0)

def State.goPlace (s : State) (k : Nat) (req : Option (Path × WbMsg × Bool)) : State :=
  let (s, code) := s.placeNow k
  s.answerTo req code

def execPlaceGo (k : CtxId) (s : State) : Host.Outcome State Fault Refusal := whenUp s fun s => s.goPlace k.val none

/-- Messages and adds of the old placement that still wait for their ACKs. -/
def State.unacked (s : State) (k : Nat) : Bool :=
  (s.eauq.any fun a => a.remote && a.k == k)
    || (s.ctxCores k).any fun c => (s.core c).slots.any fun e => match e.2.run with
      | some r => r.out.any fun f => f.acks != 0
      | none => false

/-- The pending tables take force and PGEN rises by 1. -/
def State.installPlace (s : State) (k : Nat) : State :=
  let s := s.setBlob CGROUPS (k + 1) 0 (s.blob PLACE_GROUPS (k + 1) 0 2048)
  let s := s.setBlob RWINDOWS (k + 1) 0 (s.blob PLACE_RWINDOWS (k + 1) 0 2048)
  let s := (List.range 64).foldl (fun s g =>
    if s.blobTouched (PLACE_MEMBERS + k) (g + 1) || s.blobTouched (MEMBERS + k) (g + 1) then
      s.setBlob (MEMBERS + k) (g + 1) 0 (s.blob (PLACE_MEMBERS + k) (g + 1) 0 16384)
    else s) s
  s.setVal PGEN (k + 1) (s.pgen k + 1)

/-- The digest of the pending tables of group `g`: its record with RANK cleared, its member table, and the remote windows (R400; log entry 108). -/
def State.placeDigest (s : State) (k g : Nat) : BitVec 256 :=
  let r := s.blobNat PLACE_GROUPS (k + 1) (32 * g) 32
  BitVec.ofNat 256 (Sha3.digest (Bits.toBytes 32 (r - Bits.fld r 68 12 * 2 ^ 68) ++ s.blob (PLACE_MEMBERS + k) (g + 1) 0 16384
    ++ s.blob PLACE_RWINDOWS (k + 1) 0 2048))

/-- PLACEMENT_DRAINED: the members' pending tables agree and take force, or the change is refused; the squashed epoch runs again. -/
def execPlacementDrained (k : CtxId) (theirs : List (Fin 64 × BitVec 256)) (s : State) : Host.Outcome State Fault Refusal :=
  onCaravan k s fun s =>
    if !(s.ctx k.val).draining || s.unacked k.val then s
    else
      -- step 4: DRAINED to every member of each group that the others report on (log entry 108)
      let s := theirs.foldl (fun s x => s.emit (.drained k.val x.1.val (s.placeDigest k.val x.1.val))) s
      let s := match theirs.find? fun x => x.2 != s.placeDigest k.val x.1.val with
        | none => s.installPlace k.val
        | some (g, d) => s.event 0x0014 (some k.val) 8 (g.val + 2 ^ 64 * d.toNat)
      (s.updCtx k.val fun c => { c with placing := false, draining := false }).runOn k.val

/-- MIG_DRAIN_LIMIT_EXPIRE: what still waits for its ACK is abandoned (Table 11-9, step 3). -/
def execMigDrainLimitExpire (k : CtxId) (s : State) : Host.Outcome State Fault Refusal :=
  onCaravan k s fun s =>
    if (s.ctx k.val).draining then
      let s : State := { s with eauq := s.eauq.filter fun a => !(a.remote && a.k == k.val) }
      s.eachCore k.val fun c => { c with slots := c.slots.map fun e => match e.2.run with
        | some r => (e.1, { e.2 with run := some { r with out := r.out.filter fun f => f.acks == 0 } })
        | none => e }
    else s

end Sys2Proof.Machine
end

