-- ==== Sys2Proof/Machine/Bivouac.lean ====
section
/-!
DEFINITION. The events and commands of Bivouac (R459 to R486).
-/

namespace Sys2Proof.Machine

open Sys2Proof.WB

/-- An event of Bivouac, which Safe Hold stops (R365, R468). -/
def onBivouac (k : CtxId) (s : State) (f : State → State) : Host.Outcome State Fault Refusal :=
  whenUp s fun s => if s.safeHold then s else (f s).after k.val

/-! ### Staging and copies (R463 to R467, R471) -/

/-- GEN_STAGE_DONE: the image is complete in the stage, its pins are released and the copies begin. -/
def execGenStageDone (k : CtxId) (s : State) : Host.Outcome State Fault Refusal :=
  onBivouac k s fun s =>
    match (s.ctx k.val).stage with
    | some st =>
      if st.staged then s
      else
        let s := (s.writeStage k.val st).count GEN_TAKEN (k.val + 1) 1
        (s.updCtx k.val fun c => { c with
          stage := some { st with staged := true }
          pins := c.pins.filter fun p => p.eval || p.step != st.step }).nextCopy k.val
    | none => s

/-- A flash copy that a commit waits for is COMPLETE (R471). -/
def State.genArrived (s : State) (k step : Nat) : State :=
  match (s.ctx k).atFlash with
  | some e =>
    if e.genWait && e.n == step then
      let s := s.updEpoch k e.n fun e => { e with genWait := false }
      if e.flashWait then s else s.finishCommit k e.n
    else s
  | none => s

/-- GEN_COPY_DONE: the copy to a tier completes, its digests checked, or fails. -/
def execGenCopyDone (k : CtxId) (ok : Bool) (s : State) : Host.Outcome State Fault Refusal :=
  onBivouac k s fun s =>
    match (s.ctx k.val).stage with
    | some st =>
      if st.staged then
        let flash := st.tiers.head? == some 1
        let s := s.endCopy k.val ok
        if flash && ok then s.genArrived k.val st.step else s
      else s
    | none => s

/-! ### Partners (R470, R472) -/

/-- The partner's rank stops answering: PAIR_STATE ABSENT; a copy on its way there fails. -/
def execPartnerTimeout (k : CtxId) (s : State) : Host.Outcome State Fault Refusal :=
  onBivouac k s fun s =>
    let p := s.val PAIR_STATE (k.val + 1)
    if p = 1 ∨ p = 2 then
      let s := (s.setVal PAIR_STATE (k.val + 1) 3).event 0x0031 (some k.val) 8 (s.biv k.val).prank
      match (s.ctx k.val).stage with
      | some st => if st.staged && st.tiers.head? == some 0 then s.endCopy k.val false else s
      | none => s
    else s

/-- PAIR_GO: the pairing succeeds when both name each other, both domains are set, and they differ or both sides override. -/
def State.pairNow (s : State) (k : Nat) (e : Env) : State × Nat :=
  let b := s.biv k
  let dom := s.val POWER_DOMAIN 0
  match s.cgroup k b.group, e.partner with
  | some g, some p =>
    if p.rank ≠ b.prank ∨ p.namesRank ≠ g.rank ∨ p.job ≠ g.job ∨ dom = 0 ∨ p.domain = 0 then (s, 0x3B)
    else if p.domain ≠ dom then (s.setVal PAIR_STATE (k + 1) 1, 0)
    else if s.val PAIR_OVERRIDE 0 = 1 ∧ p.override = true then (s.setVal PAIR_STATE (k + 1) 2, 0)
    else (s, 0x3A)
  | _, _ => (s, 0x3B)

def State.goPair (s : State) (k : Nat) (e : Env) (req : Option (Path × WbMsg × Bool)) : State :=
  let (s, code) := s.pairNow k e
  s.answerTo req code

def execPairGo (k : CtxId) (e : Env) (s : State) : Host.Outcome State Fault Refusal := whenUp s fun s => s.goPair k.val e none

/-! ### Restore (R478 to R483) -/

/-- The tier of the first source of generation `g` by this device's own records, in the order partner, flash, shared store. -/
def Ctx.sourceOf (c : Ctx) (g : Nat) : Option Nat := [0, 1, 2].find? fun t => c.gens.any fun x => x.tier == t && x.step == g && x.complete

/-- The last step that the commit log names for a context, where the last start followed a loss of power (R355, R475). -/
def State.loggedStep (s : State) (k : Nat) : Option Nat :=
  if s.startCause = 0 then ((s.commitLog.filter fun e => e.1 == k).getLast?).map (·.2) else none

/-- The steps that a restore may choose: those every member can reach, a job of one device its own copies; a start with input power bounds them
by the commit log (R475, R479; log entry 116). -/
def State.reachable (s : State) (k : Nat) (e : Env) : List Nat :=
  let c := s.ctx k
  let l := if (s.jobGroup k).isNone then (c.gens.filter (·.complete)).map (·.step) ++ e.reach else e.reach
  let l := match c.uncertain with
    | some u => l.filter (· < u)
    | none => l
  match s.loggedStep k with
  | some n => l.filter (· ≤ n)
  | none => l

/-- A refill of generation `g` begins at offset 0. -/
def State.startRefill (s : State) (k g source : Nat) : State :=
  let n := chunksOf (s.imageBytes k)
  (s.updCtx k fun c => { c with refill := some { g := g, source := (c.sourceOf g).getD source, chunks := n } }).setVal JOB_STATE (k + 1) 2

/-- The configuration digest and INVREV in the header of the generation to be restored: of this device's record of its first source, else as the
source reports them (R478, R480). -/
def Ctx.restoreHead (c : Ctx) (g : Nat) (e : Env) : Nat × Nat :=
  match c.gens.find? fun x => some x.tier == c.sourceOf g && x.step == g && x.complete with
  | some x => (x.cfg, x.invRev)
  | none => (e.genDigest.toNat, e.genInvRev)

/-- RESTORE_GO. -/
def State.restoreNow (s : State) (k : Nat) (e : Env) : State × Nat :=
  let c := s.ctx k
  let want := s.val RESTORE_STEP (k + 1)
  let reach := s.reachable k e
  let head := c.restoreHead (if want = 0 then reach.max?.getD 0 else want) e
  if c.st ≠ .loaded ∨ c.fresh = false ∨ s.configDigest k ≠ head.1 ∨ head.2 ≠ s.val INV_REV 0 then (s, 0x3C)
  else
    if want = 0 then
      match reach.max? with
      | some g => (s.startRefill k g e.source, 0)
      | none => ((s.setVal JOB_STATE (k + 1) 1).event 0x0035 (some k) 8 0, 0)
    else if reach.contains want then (s.startRefill k want e.source, 0)
    else (s, 0x3D)

def State.goRestore (s : State) (k : Nat) (e : Env) (req : Option (Path × WbMsg × Bool)) : State :=
  let (s, code) := s.restoreNow k e
  s.answerTo req code

def execRestoreGo (k : CtxId) (e : Env) (s : State) : Host.Outcome State Fault Refusal := whenUp s fun s => s.goRestore k.val e none

/-- Copy `n` bytes of an image at `off` to device memory at `a`. -/
def copyBack (im : Tab Byte) (off n a : Nat) (m : Tab Byte) : Tab Byte :=
  (im.filter fun e => decide (off ≤ e.1) && decide (e.1 < off + n)).foldl (fun m e => Tab.set 0 m (a + (e.1 - off)) e.2)
    (Tab.clearRange m a (a + n))

/-- What a complete refill does with the image (R480); the cores of the context serve it from step G + 1 on (R362). -/
def State.restoreImage (s : State) (k g : Nat) (im : Tab Byte) : State :=
  let at_ (off n : Nat) : Nat := Bits.ofBytes (Tab.getRange 0 im off n)
  let parts := (s.saves k).map (fun r => (r.base, r.len)) ++ (s.carriedRegions k).map fun e => (e.2.base, e.2.len)
  let s := s.updCtx k fun c => { c with
    poison := parts.foldl (fun t p => clearPoison t p.1 p.2) c.poison
    mem := (parts.foldl (fun (acc : Tab Byte × Nat) p => (copyBack im acc.2 p.2 p.1 acc.1, acc.2 + pad64 p.2)) (c.mem, Machine.stateBlock)).1
    cbank := [] }
  let map := s.val BANKMAP_ADDR (k + 1)
  let s := s.updCtx k fun c => { c with mem := Tab.clearRange c.mem map (map + 4096), poison := clearPoison c.poison map 4096 }
  let s := (s.ctx k).mpmap.foldl (fun s e => if e.2.valid then s.serviceAdv k e.1 .raise (at_ (8 * e.1) 8) else s) s
  let census : Tab Census := (List.range 4096).foldl (fun t i =>
    let q := at_ (65536 + 4 * i) 4
    Tab.upd {} t i fun c => { c with qrun := q }) (s.ctx k).census
  let s := s.updCtx k fun c => { c with census := census }
  let s : State := { s with service := s.service.map fun p => if p.k = k ∧ p.last = none then { p with first := g + 1 } else p }
  ((s.setVal REJECT_RUN (k + 1) (at_ 81936 1)).setVal STEP_BASE (k + 1) g).setVal COMMITTED_STEP (k + 1) g

/-- Restored, and VERIFIED once every chunk is. -/
def State.refillDone (s : State) (k : Nat) : State :=
  match (s.ctx k).refill with
  | some r =>
    if (List.range r.chunks).all r.verified.contains then
      (((s.restoreImage k r.g r.image).updCtx k fun c => { c with uncertain := none }).setVal JOB_STATE (k + 1) 3).restartIngest k
    else s
  | none => s

/-- The tier from which a chunk is read. -/
def Refill.from_ (r : Refill) (chunk : Nat) : Nat := ((r.moved.find? fun e => e.1 == chunk).map (·.2)).getD r.source

/-- The chunks in flight: they are read in order, up to 8 at a time (R480). -/
def Refill.inFlight (r : Refill) : List Nat := ((List.range r.chunks).filter fun i => !r.restored.contains i).take 8

/-- The tier after `t` of which a record of this device names a COMPLETE copy of `g`; else the chunk waits on `t` for REFILL_SOURCE_FAIL (log entry
125). -/
def Ctx.nextSource (c : Ctx) (g t : Nat) : Nat :=
  ([0, 1, 2].find? fun u => decide (t < u) && c.gens.any fun x => x.tier == u && x.step == g && x.complete).getD t

/-- A chunk is read again; `why` notes what has failed. -/
def State.rereadFrom (s : State) (k chunk tier why : Nat) (r : Refill) : State :=
  (s.updCtx k fun c => { c with refill := some { r with
    failed := r.failed ++ [(chunk, why)]
    restored := r.restored.filter fun x => x != chunk
    moved := (r.moved.filter fun e => e.1 != chunk) ++ [(chunk, tier)] } }).count CHUNK_REFETCH (k + 1) 1

/-- A chunk whose digest fails is read again, once from its source and then from the next one (R480). -/
def State.refetch (s : State) (k chunk : Nat) (r : Refill) : State :=
  let t := r.from_ chunk
  s.rereadFrom k chunk (if r.failed.contains (chunk, t) then (s.ctx k).nextSource r.g t else t) t r

/-- The slot's manifest matches DIGEST, and the chunk its digest (R462, R484). -/
def headFits (h : SlotHead) (chunk : Nat) (bytes : List Byte) : Bool :=
  Sha3.digest (manifest h.cfg.toNat (h.chunks.map BitVec.toNat)) == h.digest.toNat
    && (h.chunks[chunk]?).any fun d => d.toNat == Sha3.digest bytes

/-- Bytes of a chunk of a refill. -/
def State.chunkLen (s : State) (k chunk : Nat) : Nat := min chunkSize (s.imageBytes k - chunkSize * chunk)

/-- What a chunk's read gives: the device's own flash slot holds header and image; another source brings them. -/
def State.readChunk (s : State) (k chunk : Nat) (r : Refill) (h : SlotHead) (bytes : List Byte) : SlotHead × List Byte :=
  match if r.from_ chunk = 1 then (s.ctx k).gens.find? fun x => x.tier == 1 && x.step == r.g && x.complete else none with
  | some x =>
    ({ cfg := BitVec.ofNat 256 x.cfg, digest := BitVec.ofNat 256 x.digest, chunks := x.chunks.map (BitVec.ofNat 256) },
      Tab.getRange 0 x.image (chunkSize * chunk) (s.chunkLen k chunk))
  | none => (h, bytes)

/-- A chunk in flight arrives: checked against its digest, and written; it counts as verified unless the replica comparison is to come. -/
def State.takeChunk (s : State) (k chunk : Nat) (r : Refill) (h : SlotHead) (bytes : List Byte) : State :=
  let v := (s.biv k).verify
  let x := s.readChunk k chunk r h bytes
  if Bits.bit v 0 && !headFits x.1 chunk x.2 then s.refetch k chunk r
  else
    let r' : Refill := { r with
      restored := r.restored ++ [chunk]
      verified := if Bits.bit v 1 then r.verified else r.verified ++ [chunk]
      image := Tab.setRange 0 r.image (chunkSize * chunk) (x.2.take chunkSize) }
    (s.updCtx k fun c => { c with refill := some r' }).refillDone k

/-- Every chunk is written, and the member at RRANK reports the digest of its own: equal, the chunk is verified; else both read it again from their
next sources, once, and a second difference keeps the member RESTORING (R484). -/
def State.compareChunk (s : State) (k chunk : Nat) (r : Refill) (rep : Replica) : State :=
  let all := (List.range r.chunks).all r.restored.contains
  if !all || rep.rank != (s.biv k).rrank || r.failed.contains (chunk, 4) then s
  else if rep.digest.toNat = Sha3.digest (Tab.getRange 0 r.image (chunkSize * chunk) (s.chunkLen k chunk)) then
    (s.updCtx k fun c => { c with refill := some { r with verified := r.verified ++ [chunk] } }).refillDone k
  else if r.failed.contains (chunk, 3) then
    (s.updCtx k fun c => { c with refill := some { r with failed := r.failed ++ [(chunk, 4)] } }).event 0x0036 (some k) 8 chunk
  else s.rereadFrom k chunk ((s.ctx k).nextSource r.g (r.from_ chunk)) 3 r

/-- REFILL_CHUNK_DONE: a chunk in flight arrives, or the digest of one that is written comes from the replica (R480, R484). -/
def execRefillChunkDone (k : CtxId) (chunk : Nat) (head : SlotHead) (replica : Replica) (bytes : List Byte) (s : State) :
    Host.Outcome State Fault Refusal :=
  onBivouac k s fun s =>
    match (s.ctx k.val).refill with
    | none => s
    | some r =>
      if s.val JOB_STATE (k.val + 1) ≠ 2 ∨ r.chunks ≤ chunk ∨ r.verified.contains chunk = true then s
      else if r.restored.contains chunk then s.compareChunk k.val chunk r replica
      else if r.inFlight.contains chunk then s.takeChunk k.val chunk r head bytes
      else s

/-- REFILL_SOURCE_FAIL: on from the next source, or G is lowered, or no step qualifies (R481, Table 14-4). -/
def execRefillSourceFail (k : CtxId) (next lowered : Option Nat) (s : State) : Host.Outcome State Fault Refusal :=
  onBivouac k s fun s =>
    let js := s.val JOB_STATE (k.val + 1)
    match (s.ctx k.val).refill with
    | none => s
    | some r =>
      if js ≠ 2 ∧ js ≠ 3 then s
      else
        -- a partner that fails while a member reads from it is a failed member (R482, Table 14-5)
        let s := if r.source = 0 then s.failMember k.val (s.biv k.val).prank else s
        match next, lowered with
        | some t, _ => if js = 2 then s.updCtx k.val fun c => { c with refill := some { r with source := t, moved := [] } } else s
        | none, some g =>
          let s := s.event 0x0034 (some k.val) 8 (evData2 r.g g)
          let s := s.startRefill k.val g r.source
          if js = 2 then s.setVal JOB_STATE (k.val + 1) 1 else s
        | none, none => ((s.updCtx k.val fun c => { c with refill := none }).setVal JOB_STATE (k.val + 1) 1).event 0x0035 (some k.val) 8 0

/-- JOB_RESUMABLE: every member of the job is VERIFIED (R483). -/
def execJobResumable (k : CtxId) (s : State) : Host.Outcome State Fault Refusal :=
  onBivouac k s fun s =>
    if s.val JOB_STATE (k.val + 1) = 3 then (s.updCtx k.val fun c => { c with refillQueue := [] }).setVal JOB_STATE (k.val + 1) 4 else s

/-! ### Salvage and hold-up (R473, R485) -/

/-- The step whose state the committed banks hold: an epoch that waits at step 11 has passed its commit point (R355). -/
def State.committedNow (s : State) (k : Nat) : Nat :=
  match (s.ctx k).epochs.find? fun e => e.st == .committing with
  | some e => e.n
  | none => s.val COMMITTED_STEP (k + 1)

/-- A generation of a context's last committed step, whole in a free slot of module flash; with none free, or none long enough, it is not taken (R462,
R485; DESIGN CHOICE of GEN_SKIPPED, log entry 125). -/
def State.salvage (s : State) (k : Nat) : State :=
  let b := s.biv k
  let c := s.ctx k
  let n := s.committedNow k
  let bytes := s.imageBytes k
  if !b.enable || c.st == .free then s
  else if b.slotc < chunksOf bytes then (s.count GEN_SKIPPED (k + 1) 1).event 0x0033 (some k) 8 (evData2 n bytes)
  else
    match c.freeGen b 1 with
    | none => s.count GEN_SKIPPED (k + 1) 1
    | some i =>
    let im := s.image k n
    let g : GenSlot :=
      { tier := 1, slot := i, valid := true, complete := true, step := n, pgen := s.pgen k, invRev := s.val INV_REV 0, bytes := bytes
        cfg := s.configDigest k, chunks := chunkDigests im bytes
        digest := Sha3.digest (manifest (s.configDigest k) (chunkDigests im bytes)), image := im }
    (s.updCtx k fun c => { c with gens := (c.gens.filter fun x => !(x.tier == 1 && x.slot == i)) ++ [g] }).count GEN_TAKEN (k + 1) 1

/-- SALVAGE_GO: WS-3C outside Safe Hold. -/
def State.salvageNow (s : State) : State × Nat :=
  if s.safeHold then (s.eachCtx State.salvage, 0) else (s, 0x3C)

def State.goSalvage (s : State) (req : Option (Path × WbMsg × Bool)) : State :=
  let (s, code) := s.salvageNow
  s.answerTo req code

def execSalvageGo (s : State) : Host.Outcome State Fault Refusal := whenUp s fun s => s.goSalvage none

/-- HOLDUP_CHARGE_LOW: the charge changes, and a crossing of 80 percent posts HOLDUP_LOW. -/
def execHoldupChargeLow (percent : Nat) (s : State) : Host.Outcome State Fault Refusal :=
  whenUp s fun s =>
    let old := s.val HOLDUP_CHARGE 0
    let s := s.setVal HOLDUP_CHARGE 0 percent
    if 80 ≤ old ∧ percent < 80 then s.event 0x0032 none 8 (evData2 percent 1)
    else if old < 80 ∧ 80 ≤ percent then s.event 0x0032 none 8 (evData2 percent 0)
    else s

end Sys2Proof.Machine
end

