-- ==== Sys2Proof/Machine/FieldTest.lean ====
section
/-!
DEFINITION. Rotation and field tests of spares, watchdogs, power and temperature, Traces links (R360 to R364, R594 to R603, R610).
-/

namespace Sys2Proof.Machine

open Sys2Proof.WB

/-! ### Rotation (R600, R601) -/

/-- `a` comes before `b` among cores of oldest last pass: never passed first, then the older, then the lower number. -/
def olderPass (t : Tab (Option Nat)) (a b : Nat) : Bool :=
  match Tab.get none t a, Tab.get none t b with
  | none, none => decide (a < b)
  | none, some _ => true
  | some _, none => false
  | some x, some y => decide (x < y) || (x == y && decide (a < b))

/-- Put a core in its place in the order of oldest last pass. -/
def insertOldest (t : Tab (Option Nat)) (a : Nat) : List Nat → List Nat
  | [] => [a]
  | b :: l => if olderPass t a b then a :: b :: l else b :: insertOldest t a l

/-- Spares of a die that have passed since they became spare and stand in no pair. -/
def State.readySpares (s : State) (die : Nat) : List Nat :=
  (List.range 704).filter fun c => coreDie c == die && s.spares.contains c && s.passed.contains c && !s.retired.contains c
    && !(s.swaps.any fun p => p.2 == c)

/-- Active cores of a die that stand in no pair, oldest last pass first. -/
def State.oldestActive (s : State) (die : Nat) : List Nat :=
  ((List.range 704).filter fun c => coreDie c == die && !s.spares.contains c && !(s.swaps.any fun p => p.1 == c)).foldr
    (insertOldest s.lastPass) []

/-- FIELD_TEST_ROTATION: every passed spare of the die is paired with an active core of oldest pass. -/
def execFieldTestRotation (die : Fin 8) (s : State) : Host.Outcome State Fault Refusal :=
  whenUp s fun s =>
    if s.safeHold then s
    else { s with swaps := s.swaps ++ (s.oldestActive die.val).zip (s.readySpares die.val) }

/-- Frames of one core's save area: ceil(5.5 MiB / 2 MiB) pages of the stacks together (R434). -/
def oneCoreFrames : Nat := Bits.cdiv 11 2

/-- CORE_SWAP: a pair of the last rotation changes places once the context that holds the outgoing core has every epoch final; a context
without a step group needs a save area, or keeps the core. -/
def execCoreSwap (out inc : CoreId) (s : State) : Host.Outcome State Fault Refusal :=
  onDie (coreDie out.val) s fun s =>
    if !s.swaps.contains (out.val, inc.val) || s.safeHold then s
    else
      match (s.core out.val).ctx with
      | none => s.swapCore out.val inc.val
      | some k =>
        if (s.stepGroup k).isSome then
          if (s.ctx k).epochs.any Epoch.live then s else (s.swapCore out.val inc.val).after k
        else if allQueues.any fun q => !((s.core out.val).q q).inflight.isEmpty || ((s.core out.val).q q).replaying then s
        else if ((List.range 16).map s.freeOn).sum < oneCoreFrames then
          (State.after { s with swaps := s.swaps.filter fun p => p != (out.val, inc.val) } k)
        else (s.swapCore out.val inc.val).after k

/-! ### Field tests (R362, R363, R602, R603) -/

/-- The service record of a core, emptied by a pass (R362, R602). -/
def State.serviceOf (s : State) (c : Nat) : List Service := s.service.filter fun p => p.core == c

/-- A pass: FT_PASSES, FT_LAST of every context, the last pass, and an empty service record. -/
def State.testPassed (s : State) (c : Nat) : State :=
  let at_ := Tab.get [] s.testAt c
  let s := s.countDie FT_PASSES (coreDie c) 1
  let s := (List.range 16).foldl (fun s k => s.setBlob FT_LAST (k + 1) (8 * c) (Bits.toBytes 8 (at_.getD k 0))) s
  { s with
    passed := s.passed ++ [c]
    lastPass := Tab.set none s.lastPass c (some (s.clock 8))
    service := s.service.filter fun p => p.core != c }

/-- A ledger record whose step lies in a period of service. -/
def Service.covers (p : Service) (r : BitVec 512) : Bool :=
  let step := Bits.fld r.toNat 0 64
  decide (p.first ≤ step) && (match p.last with
    | some l => decide (step ≤ l)
    | none => true)

/-- UNCERTAIN is set in every record of the periods (R362). -/
def markUncertain (ps : List Service) (l : List (BitVec 512)) : List (BitVec 512) :=
  l.map fun r => if ps.any fun p => p.covers r then r ||| BitVec.ofNat 512 (2 ^ 227) else r

/-- The first step that a failed test makes uncertain in a context. -/
def firstUncertain (ps : List Service) (l : List (BitVec 512)) : Option Nat :=
  ((l.filter fun r => ps.any fun p => p.covers r).map fun r => Bits.fld r.toNat 0 64).min?

/-- What a failed test does in one context of the service record (R362, R363, R602).  A pause for repair votes SQUASH (R352), keeps the first
uncertain step, and its JOB_PAUSED event names the member's own rank (R479; DESIGN CHOICE, log entry 122). -/
def State.uncertainCtx (s : State) (ps : List Service) (k : Nat) : State :=
  let mine := ps.filter fun p => p.k == k
  if mine.isEmpty then s
  else
    let c := s.ctx k
    let first := firstUncertain mine c.ledger
    let s := s.updCtx k fun c => { c with ledger := markUncertain mine c.ledger }
    match first with
    | some u =>
      if s.val UNCERTAIN_POLICY 0 = 1 then
        let rank := match s.jobGroup k with | some (_, r) => r.rank | none => 0
        let s := (((s.squashAllVote k).pauseJob k 0x2004).event 0x0030 (some k) 8 rank).updCtx k fun c =>
          { c with uncertain := some (min u (c.uncertain.getD u)) }
        let u := (s.ctx k).uncertain.getD u
        if (s.ctx k).gens.any fun g => g.complete && decide (g.step < u) then s else s.event 0x0008 (some k) 8 u
      else s.strike k 0
    | none => s.strike k 0

/-- A failure: FT_FAILS, FB SUB 0x01, the contexts of the service record, and the core is retired. -/
def State.testFailed (s : State) (c : Nat) : State :=
  let ps := s.serviceOf c
  let s := s.countDie FT_FAILS (coreDie c) 1
  let s := s.logFault 0xFB 0x01 4 (some c) none (coreDie c) s.syndrome 0
  (s.eachCtx fun s k => (s.uncertainCtx ps k).after k).retireCore c

/-- FIELD_TEST_DONE: the test of a spare that has not yet passed ends; Safe Hold has ended every test, and a spare that
replays a tile has abandoned its own (R350, R599). -/
def execFieldTestDone (core : CoreId) (pass : Bool) (s : State) : Host.Outcome State Fault Refusal :=
  onDie (coreDie core.val) s fun s =>
    let c := core.val
    if !s.spares.contains c || s.retired.contains c || s.passed.contains c || s.safeHold || s.replayCores.contains c then s
    else if pass then s.testPassed c else s.testFailed c

/-- FT_OVERDUE: an active core's last pass has become older than FT_PERIOD (R603). -/
def execFtOverdue (core : CoreId) (s : State) : Host.Outcome State Fault Refusal :=
  onDie (coreDie core.val) s fun s =>
    if s.spares.contains core.val then s
    else s.logFault 0xFB 0x02 8 (some core.val) (s.core core.val).ctx (coreDie core.val) s.syndrome 0

/-! ### Watchdogs and links (R360, R364, R595) -/

/-- A residue failure of a vector or Update engine, or of a sum of squares: its result is computed again, the core is logged FB and retired at
the next step boundary, and beyond RESFAIL_MAX in the epoch the verdict is DOUBT (R349, R351, R629; DESIGN CHOICE, log entry 104). -/
def State.residueHit (s : State) (q : QRef) : State :=
  let c := q.core.val
  let ctx := (s.core c).ctx
  let fix (s : State) : State := (s.logCore 0xFB 0x03 1 c ctx).retireIdle
  if s.val REDUNDANCY 0 = 2 then s
  else
    match ctx with
    | none => fix s
    | some k =>
      match (s.epochOf k (s.queue q)).bind (s.ctx k).epoch with
      | none => fix s
      | some e =>
        if s.val RESFAIL_MAX 0 < e.resfail + 1 then s.doubt c ctx
        else fix (s.updEpoch k e.n fun e => { e with resfail := e.resfail + 1, repaired := true })

/-- What a scan of a die reports: a handshake pending too long, or a finding of the die's checkers (Tables 10-8 and 10-12). -/
def State.watchdogHit (s : State) (die : Nat) (h : WdHit) : State :=
  match h with
  | .core c ch =>
    if coreDie c.val ≠ die then s
    else
      let k := (s.core c.val).ctx
      let s := s.logFault 0xFD 0x01 4 (some c.val) k die ch 0
      match k with
      | some k => ((s.strike k 0).retireCore c.val).after k
      | none => s.retireCore c.val
  | .hub ch => (s.logFault 0xFD 0x02 5 none none die ch 0).enterSafeHold 2
  | .traces ch => (s.logFault 0xFD 0x02 5 none none die ch 0).enterSafeHold 2
  -- a memory controller is taken as Hub logic: Table 10-12 has no cause of its own for it (DESIGN CHOICE, log entry 104)
  | .memory ch => (s.logFault 0xFD 0x02 5 none none die ch 0).enterSafeHold 2
  | .wagonmaster => if die < 8 then s else (s.logFault 0xFC 0x04 5 none none die s.syndrome 0).enterSafeHold 1
  | .logic c =>
    if coreDie c.val ≠ die then s
    else
      let k := (s.core c.val).ctx
      let s := s.logFault 0xFC 0x03 2 (some c.val) k die s.syndrome 0
      match k with
      | some k => (s.strike k 0).after k
      | none => s
  | .residue q => if coreDie q.core.val ≠ die then s else s.residueHit q

/-- WATCHDOG_SCAN. -/
def execWatchdogScan (die : DieId) (hits : List WdHit) (s : State) : Host.Outcome State Fault Refusal :=
  onDie die.val s fun s => hits.foldl (fun s h => s.watchdogHit die.val h) s

/-- TRACES_LINK_FAILURE: FE SUB 0x02, and Safe Hold.  DIE is 8, H0: the spec does not say which end of a link reports (DESIGN CHOICE, log entry
81). -/
def execTracesLinkFailure (link : Fin 26) (s : State) : Host.Outcome State Fault Refusal :=
  whenUp s fun s => (s.logFault 0xFE 0x02 5 none none 8 link.val 0).enterSafeHold 2

/-! ### Power and temperature (R163, R610, Tables 20-1 and 20-2) -/

/-- Sustained power limit in W: 600 in Safe Hold (R365). -/
def State.powerLimit (s : State) : Nat := if s.safeHold then 600 else min (s.val POWER_CAP 0) 7200

/-- POWER_THERMAL_CHECK: the measurements are reported, arrays paced, and Safe Hold entered above an absolute rating. -/
def execPowerThermalCheck (temps : List Int) (inputMv inputW : Nat) (coolantIn : Int) (coolantFlow : Nat) (s : State) :
    Host.Outcome State Fault Refusal :=
  whenUp s fun s =>
    let s := (temps.take 26).zipIdx.foldl (fun s (t, i) => s.setVal TEMP (i + 1) (Bits.wrap t 32)) s
    let s := (((s.setVal INPUT_MV 0 inputMv).setVal INPUT_W 0 inputW).setVal COOLANT_IN 0 (Bits.wrap coolantIn 32)).setVal COOLANT_FLOW 0 coolantFlow
    let paced := decide (s.powerLimit < inputW) || (temps.take 26).any fun t => decide (8500 < t)
    let s := s.setVal PACED 0 (Bits.ofBool paced)
    if (temps.take 10).any fun t => decide (10500 < t) then s.enterSafeHold 4
    else if ((temps.take 26).drop 10).any fun t => decide (10000 < t) then s.enterSafeHold 6
    else s

end Sys2Proof.Machine
end

