-- ==== Sys2Proof/Machine/Drawbar.lean ====
section
/-!
DEFINITION. Writing a setting (R530, R533), and the Drawbar fabric (R487 to R507).
-/

namespace Sys2Proof.Machine

open Sys2Proof.WB

/-! ### Settings -/

/-- A step of a context is in progress: an epoch of it is not final. -/
def State.stepping (s : State) (k : Nat) : Bool := (s.ctx k).epochs.any Epoch.live

/-- The steps that a write waits for: of the context that the entry serves, or of any. -/
def State.mustWait (s : State) : Option Nat → Bool
  | some k => s.stepping k
  | none => (List.range 16).any s.stepping

/-- Store the value of an entry.  Where it takes effect at the next step boundary and a step is in progress, the value in force stays until
then; NODE_ADDR waits for the next start (R489, R530, R533). -/
def State.putVal (s : State) (e sub v : Nat) : State :=
  match Dict.find e sub with
  | none => s
  | some r =>
    let k := Dict.key e sub
    let old := s.val e sub
    let s1 := if r.ground then { s with gs := Tab.set none s.gs k (if v = r.dflt then none else some v) } else s.setVal e sub v
    let waits := e == NODE_ADDR || (r.step && s.mustWait (r.ctxOf e sub))
    if waits && (Tab.get none s.held k).isNone && s1.latest e sub != old then { s1 with held := Tab.set none s1.held k (some old) } else s1

/-- The active Flysheet, or the one being pitched, overlays an entry, so that a write of its Groundsheet value is answered WS-0E (R533,
R550). -/
def State.overlaid (s : State) (e sub : Nat) : Bool :=
  let holds (v : Nat) : Bool := (s.flyItems v).any fun i => i.1 == Dict.key e sub
  match Dict.find e sub with
  | some r => r.ground && (holds s.fly || (match s.pitching with | some v => holds v | none => false))
  | none => false

def State.written (s : State) (e sub : Nat) : Nat := if s.overlaid e sub then 0x0E else 0

/-- RWS entries are written in Service mode and in Safe Hold only (R534). -/
def State.service_ (s : State) : Bool := s.fly == 5 || s.safeHold

/-! ### Port records and bypasses (R489, R490, R504, R505) -/

/-- ENABLE of a port record, and EXPECT and ALT as its training took them (R490). -/
def State.portEnabled (s : State) (p : Nat) : Bool := Bits.bit (s.val PORT_CFG (p + 1)) 0
def State.portExpect (s : State) (p : Nat) : Nat := Bits.fld (s.port p).cfg 32 16
def State.portAlt (s : State) (p : Nat) : Nat := Bits.fld (s.port p).cfg 16 16

/-- A malformed port record (R490). -/
def portCfgBad (v : Nat) : Bool :=
  Bits.fld v 48 16 != 0 || Bits.fld v 1 15 != 0 || (Bits.fld v 32 16 == Bits.fld v 16 16 && Bits.fld v 16 16 != 0)

/-- The switches of the ring pair of port `p` are closed. -/
def State.pairClosed (s : State) (p : Nat) : Bool := if p < 2 then s.pairA else if p < 4 then s.pairB else false

/-- A case of R505 holds for a pair. -/
def State.mustClose (s : State) (b : Bool) : Bool :=
  let p := if b then 2 else 0
  s.phase != .running || s.safeHold || s.val NODE_ADDR 0 == 0 || !s.portEnabled p || !s.portEnabled (p + 1)
    || Bits.bit (s.val BYPASS_FORCE 0) (if b then 1 else 0) || s.bootSafe

/-- A port may train (R489, R491, R557). -/
def State.canTrain (s : State) (p : Nat) : Bool :=
  s.up && !s.safeHold && !s.bootSafe && s.val NODE_ADDR 0 != 0 && s.portEnabled p && !s.pairClosed p

/-- A port that holds nothing, in state `st`; its counters stay. -/
def Port.clear (x : Port) (st : PortState) : Port :=
  { x with st := st, lanes := 0, peer := 0, pport := 0, queued := [], replay := [], credits := [], pool := [] }

/-- A port gives up what it holds; frames that waited on it leave the receive pools of other ports. -/
def State.clearPort (s : State) (p : Nat) (st : PortState) : State :=
  let waiting := (s.port p).queued
  waiting.foldl (fun s f => s.freeVia f) (s.updPort p fun x => x.clear st)

/-- The credit allocations of VC_ALLOC (R496). -/
def State.vcAlloc (s : State) (p : Nat) : List Nat := (List.range 16).map fun i => s.blobNat VC_ALLOC (p + 1) (2 * i) 2

/-- A training frame. -/
def trainFrame (t : Training) : DFrame := { len := (trainBytes t).length, src := t.node, training := some t }

/-- A port begins to train: its record and VC_ALLOC are taken, LANES fills where light is on all lanes, and its training frame leaves (R490, R491,
R496; what else a training frame's header holds, and that one frame leaves at each beginning: DESIGN CHOICE, log entry 75). -/
def State.startTraining (s : State) (p : Nat) (lit : Bool) : State :=
  let s := (s.clearPort p .training).updPort p fun x => { x with
    cfg := s.val PORT_CFG (p + 1), alloc := s.vcAlloc p, lanes := if lit then 0xFF else 0 }
  s.emit (.drawbar p (trainFrame { node := s.val NODE_ADDR 0, port := p, alloc := s.vcAlloc p }))

/-- What a port does at once when its record changes: ENABLE 0 disables it, and any change sends an ISOLATED one into training (R490, R491). -/
def State.portFollows (s old : State) (p : Nat) : State :=
  if !s.portEnabled p then (if (s.port p).st = .bypassed then s else s.clearPort p .disabled)
  else if s.val PORT_CFG (p + 1) ≠ old.val PORT_CFG (p + 1) ∧ (s.port p).st = .isolated then s.startTraining p true
  else s

/-- As `portFollows`, of every port whose record a Flysheet changes. -/
def State.portsFollow (s old : State) : State :=
  (List.range 24).foldl (fun s p => if s.val PORT_CFG (p + 1) = old.val PORT_CFG (p + 1) then s else s.portFollows old p) s

/-- PORT_CFG: WS-32 for a malformed record. -/
def State.portCfgNow (s : State) (p v : Nat) : State × Nat :=
  if portCfgBad v then (s, 0x32)
  else
    let t := s.putVal PORT_CFG (p + 1) v
    (t.portFollows s p, t.written PORT_CFG (p + 1))

def State.goPortCfg (s : State) (p v : Nat) (req : Option (Path × WbMsg × Bool)) : State :=
  let (s, code) := s.portCfgNow p v
  s.answerTo req code

def execPortCfg (p : PortId) (v : W64) (s : State) : Host.Outcome State Fault Refusal := whenUp s fun s => s.goPortCfg p.val v.toNat none

/-- BYPASS_FORCE, an RWS entry. -/
def State.goBypassForce (s : State) (v : Nat) (req : Option (Path × WbMsg × Bool)) : State :=
  if s.service_ then (s.putVal BYPASS_FORCE 0 v).answerTo req (s.written BYPASS_FORCE 0) else s.answerTo req 0x04

def execBypassForce (v : Byte) (s : State) : Host.Outcome State Fault Refusal := whenUp s fun s => s.goBypassForce v.toNat none

/-- Both ports of a pair after its switches have latched. -/
def State.latch (s : State) (b closed : Bool) : State :=
  let s : State := if b then { s with pairB := closed } else { s with pairA := closed }
  [0, 1].foldl (fun s i =>
    let p := (if b then 2 else 0) + i
    if closed then s.clearPort p .bypassed else if s.canTrain p then s.startTraining p false else s.clearPort p .disabled) s

/-- BYPASS_LATCHED: the switches of a pair finish closing when a case of R505 holds, or opening when none does. -/
def execBypassLatched (pairB closed : Bool) (s : State) : Host.Outcome State Fault Refusal :=
  .next (if s.mustClose pairB = closed ∧ (if pairB then s.pairB else s.pairA) ≠ closed then s.latch pairB closed else s)

/-! ### Training (R491, Table 15-3) -/

/-- A port that may train begins to. -/
def State.train (s : State) (p : Nat) (lit : Bool) : State := if s.canTrain p then s.startTraining p lit else s

/-- DRAWBAR_LIGHT_DETECT, light on all lanes: a DOWN or TRAINING port trains; for an ISOLATED one it is a change of the signal. -/
def execDrawbarLightDetect (p : PortId) (s : State) : Host.Outcome State Fault Refusal :=
  .next (match (s.port p.val).st with
    | .down => s.train p.val true
    | .training => s.train p.val true
    | .isolated => s.train p.val true
    | _ => s)

/-- DRAWBAR_TRAINING_RETRY: an enabled port that has not trained starts again. -/
def execDrawbarTrainingRetry (p : PortId) (s : State) : Host.Outcome State Fault Refusal :=
  .next (match (s.port p.val).st with
    | .disabled => s.train p.val false
    | .down => s.train p.val false
    | .training => s.train p.val false
    | _ => s)

/-- DRAWBAR_TRAINING_FRAME: the peer is checked, and an accepted one brings the port up with its credits (R503); closed switches pass the frame on
(R504). -/
def execDrawbarTrainingFrame (p : PortId) (node port : Nat) (alloc : List Nat) (s : State) : Host.Outcome State Fault Refusal :=
  .next <|
    if s.pairClosed p.val then s.emit (.drawbar (p.val ^^^ 1) (trainFrame { node := node, port := port, alloc := alloc }))
    else if s.up = false ∨ (s.port p.val).st ≠ .training ∨ s.safeHold = true then s
    else
      let s := s.updPort p.val fun x => { x with lanes := 0xFF, peer := node, pport := port }
      let isolated (s : State) : State := s.updPort p.val fun x => { x with st := .isolated }
      let open_ (st : PortState) (s : State) : State := s.updPort p.val fun x => { x with
        st := st
        withdrawn := x.withdrawn || x.wasDown
        wasDown := false
        txSeq := 0
        rxSeq := 0
        credits := Tab.setRange 0 [] 0 (alloc.take 16) }
      if node = s.val NODE_ADDR 0 then (isolated s).event 0x0013 none 8 p.val
      else if s.portExpect p.val = node ∨ s.portExpect p.val = 0 then open_ .up s
      else if s.portAlt p.val = node ∧ node ≠ 0 then (open_ .upAlt s).event 0x0011 none 8 (evData2 p.val node)
      else (isolated s).event 0x0012 none 8 (evData2 p.val node)

/-! ### Frames (R492 to R499) -/

/-- Frames that ACKSEQ covers leave the replay buffer. -/
def ackReplay (l : List (DFrame × Nat)) (a : Nat) : List (DFrame × Nat) :=
  match l.findIdx? fun e => e.1.seq == a with
  | some i => l.drop (i + 1)
  | none => l

/-- What any good frame carries: the count, an acknowledgement and credits. -/
def State.takeAck (s : State) (p : Nat) (f : DFrame) : State :=
  s.updPort p fun x => { x with
    framesRx := x.framesRx + 1
    replay := ackReplay x.replay f.ackseq
    credits := if f.cred = 0 then x.credits else Tab.upd 0 x.credits f.cvc (· + f.cred) }

/-- Frames that waited for credits or for room may go. -/
def State.flushPort (s : State) (p : Nat) : State := s.flush p (s.port p).queued.length

def State.goodFrame (s : State) (p : Nat) (f : DFrame) : State := (s.takeAck p f).flushPort p

/-- Symbols that the FEC of a port corrects (FEC_SYMBOLS). -/
def State.corrected (s : State) (p n : Nat) : State := if n = 0 then s else s.updPort p fun x => { x with fecSymbols := x.fecSymbols + n }

/-- A frame reaches a port.  Closed switches pass it out of the other port of the pair, as it is (R504); else a port that carries frames takes
it. -/
def onFrame (p : PortId) (kind : Nat) (f : DFrame) (s : State) (go : State → State) : Host.Outcome State Fault Refusal :=
  .next (if s.pairClosed p.val then s.emit (.drawbar (p.val ^^^ 1) f)
    else if !s.up || s.safeHold || !(s.port p.val).carries || f.kind != kind then s
    else go (s.corrected p.val f.fec))

/-- A frame with a failed CRC. -/
def State.badCrc (s : State) (p : Nat) : State := s.updPort p fun x => { x with crcErr := x.crcErr + 1 }

/-- The context that a message reaches: the lowest whose group GROUP is enabled and has its JOB; k0 where there is none (DESIGN CHOICE, log
entry 112). -/
def State.receiver (s : State) (m : CMsg) : Nat :=
  ((List.range 16).find? fun k => match s.cgroup k m.hdr.group with
    | some g => g.job == m.hdr.job
    | none => false).getD 0

/-- A data frame in order is delivered, expires, or is forwarded on its VC (R499); it leaves the receive pool at once, or when it is sent on
(R497).  A message of an unused MTYPE is discarded and counted in BAD_MSGS (R376). -/
def State.takeFrame (s : State) (p : Nat) (f : DFrame) : State :=
  if f.dst = s.val NODE_ADDR 0 then
    State.freeSpace (if f.vc = 14 then s.onPartner f.body else if 12 ≤ f.body.hdr.mtype then s.count BAD_MSGS (s.receiver f.body + 1) 1 else { s with inbox := s.inbox ++ [f.body] })
      p f.vc (frameNeed f)
  else if f.hops = 0 then (s.updPort p fun x => { x with hopsExpired := x.hopsExpired + 1 }).freeSpace p f.vc (frameNeed f)
  else
    match s.route (2 ^ 24 - 1) { f with hops := f.hops - 1, fec := 0, via := some p } with
    | (s, some _) => s
    | (s, none) => s.freeSpace p f.vc (frameNeed f)

/-- DRAWBAR_DATA_FRAME: go-back-N by CRC and sequence; a frame out of sequence is discarded whole (log entry 75), and an accepted frame takes its
place in the receive pool (R493, R497). -/
def execDrawbarDataFrame (p : PortId) (f : DFrame) (s : State) : Host.Outcome State Fault Refusal :=
  onFrame p 0 f s fun s =>
    if !f.crcOk then (s.badCrc p.val).control p.val 2 0 0
    else if f.seq ≠ ((s.port p.val).rxSeq + 1) % 65536 then s.control p.val 2 0 0
    else
      let s := s.updPort p.val fun x => { x with rxSeq := f.seq, pool := Tab.upd 0 x.pool f.vc (· + frameNeed f) }
      (s.goodFrame p.val f).takeFrame p.val f

def execDrawbarCreditFrame (p : PortId) (f : DFrame) (s : State) : Host.Outcome State Fault Refusal :=
  onFrame p 1 f s fun s => if f.crcOk then s.goodFrame p.val f else s.badCrc p.val

def execDrawbarIdleFrame (p : PortId) (f : DFrame) (s : State) : Host.Outcome State Fault Refusal :=
  onFrame p 3 f s fun s => if f.crcOk then s.goodFrame p.val f else s.badCrc p.val

/-- Send every frame of the replay buffer again (R493). -/
def State.resend (s : State) (p : Nat) : State :=
  let x := s.port p
  let s := s.setPort p { x with
    replay := x.replay.map fun e => (e.1, e.2 + 1)
    replays := x.replays + x.replay.length
    framesTx := x.framesTx + x.replay.length }
  x.replay.foldl (fun s e => s.emit (.drawbar p { e.1 with ackseq := x.rxSeq })) s

/-- DRAWBAR_NAK_FRAME: every frame after its ACKSEQ is sent again, and then frames that waited may go. -/
def execDrawbarNakFrame (p : PortId) (f : DFrame) (s : State) : Host.Outcome State Fault Refusal :=
  onFrame p 2 f s fun s => if f.crcOk then ((s.takeAck p.val f).resend p.val).flushPort p.val else s.badCrc p.val

/-- DRAWBAR_IDLE_TIMER: nothing sent for 1 microsecond. -/
def execDrawbarIdleTimer (p : PortId) (s : State) : Host.Outcome State Fault Refusal := whenUp s fun s => s.control p.val 3 0 0

/-! ### Link faults (R494, R502) -/

/-- The context and group mask of a message that this device sent. -/
def State.senderOf (s : State) (m : CMsg) : Nat :=
  ((List.range 16).findSome? fun k => match s.cgroup k m.hdr.group with
    | some g => if g.job = m.hdr.job then some g.ports else none
    | none => none).getD (2 ^ 24 - 1)

/-- The services that send a discarded frame again: control, ingest and Bivouac, and held effects already released (R502). -/
def State.sendsAgain (s : State) (f : DFrame) : Bool :=
  f.src == s.val NODE_ADDR 0 && (f.vc == 0 || f.vc == 1 || f.vc == 14 || (List.range 16).any fun k =>
    match s.cgroup k f.body.hdr.group with
    | some g => g.job == f.body.hdr.job && g.xjob
    | none => false)

/-- Open epochs that have sent over the port vote SQUASH. -/
def State.squashPort (s : State) (p : Nat) : State :=
  s.eachCtx fun s k =>
    match (s.ctx k).epochs.find? fun e => e.st == .opened && e.ports.contains p with
    | some e => (s.strike k e.n).after k
    | none => s

/-- A port goes DOWN. -/
def State.portDown (s : State) (p : Nat) : State :=
  let x := s.port p
  let lost := x.replay.map (·.1) ++ x.queued
  let s := (s.clearPort p .down).updPort p fun y => { y with lost := y.lost + lost.length, wasDown := true }
  let s := (s.logFault 0xFE 0x01 6 none none (p % 8) p 0).event 0x0010 none (p % 8) p
  let s := (lost.filter s.sendsAgain).foldl (fun s f => (s.route (s.senderOf f.body) f).1) s
  s.squashPort p

/-- DRAWBAR_RX_TIMEOUT: no good frame for 16 microseconds. -/
def execDrawbarRxTimeout (p : PortId) (s : State) : Host.Outcome State Fault Refusal :=
  whenUp s fun s => if (s.port p.val).carries || (s.port p.val).st == .isolated then s.portDown p.val else s

/-- DRAWBAR_RESEND_LIMIT: a frame has been sent 32 times. -/
def execDrawbarResendLimit (p : PortId) (s : State) : Host.Outcome State Fault Refusal :=
  whenUp s fun s => if (s.port p.val).replay.any fun e => decide (32 ≤ e.2) then s.portDown p.val else s

/-- DRAWBAR_LANE_LOCK_LOSS: a port runs on all 8 lanes or not at all (R488). -/
def execDrawbarLaneLockLoss (p : PortId) (lane : Fin 8) (s : State) : Host.Outcome State Fault Refusal :=
  whenUp s fun s =>
    let x := s.port p.val
    if x.lanes.getLsbD lane.val then s.portDown p.val else s

/-! ### Routes (R498, R501) -/

/-- The entries of the pending table that differ from zero. -/
def State.pendingRoutes (s : State) : Tab Nat :=
  let lo := blobKey ROUTES 0 0
  (s.wbb.filter fun e => decide (lo ≤ e.1) && decide (e.1 < lo + 262144)).foldl
    (fun t e => let i := (e.1 - lo) / 4; Tab.set 0 t i (s.blobNat ROUTES 0 (4 * i) 4)) []

/-- An entry names a port above 23, or has a nonzero reserved bit. -/
def badRoute (e : Nat) : Bool := Bits.fld e 24 8 != 0 || (routePorts e).any fun p => decide (23 < p)

def State.routeNow (s : State) : State × Nat :=
  let t := s.pendingRoutes
  if (List.range 16).any fun k => (s.ctx k).st == .running || (s.ctx k).st == .draining then (s, 0x33)
  else if t.any fun e => badRoute e.2 then (s, 0x32)
  else ({ s with routes := t, ports := s.ports.map fun p => (p.1, { p.2 with withdrawn := false }) }, 0)

def State.goRoute (s : State) (req : Option (Path × WbMsg × Bool)) : State :=
  let (s, code) := s.routeNow
  s.answerTo req code

def execRouteGo (s : State) : Host.Outcome State Fault Refusal := whenUp s fun s => s.goRoute none

end Sys2Proof.Machine
end

