-- ==== Sys2Proof/Machine/Pixels.lean ====
section
/-!
DEFINITION. From a range to tokens (R412 to R421): the limits of the decode profiles, woven fields, the conformance window; keyed crop, resize, colour, normalisation, with every intermediate value exact.
-/

namespace Sys2Proof.Machine

open Sys2Proof.WB

/-- An exact quotient, not reduced. -/
structure Quo where
  n : Int
  d : Nat
deriving DecidableEq, Repr

namespace Quo
def add (a b : Quo) : Quo := ⟨a.n * b.d + b.n * a.d, a.d * b.d⟩
def scale (a : Quo) (n : Int) (d : Nat) : Quo := ⟨a.n * n, a.d * d⟩
end Quo

/-- n / d rounded to the nearest integer, ties to even. -/
def rheInt (n : Int) (d : Nat) : Int := if n < 0 then -(rhe n.natAbs d : Int) else rhe n.natAbs d

/-! ### Resizing (R419) -/

/-- 2 × 64^3 times the bicubic kernel at the distance t / 64. -/
def cubic (t : Nat) : Int :=
  let t : Int := t
  if t ≤ 64 then 3 * t * t * t - 5 * t * t * 64 + 2 * 64 * 64 * 64
  else if t < 128 then -(t * t * t) + 5 * t * t * 64 - 8 * t * 64 * 64 + 4 * 64 * 64 * 64
  else 0

/-- Place of the first tap of largest magnitude. -/
def largestTap (l : List Int) : Nat :=
  (l.zipIdx.foldl (fun (b : Nat × Nat) x => if b.1 < x.1.natAbs then (x.1.natAbs, x.2) else b) (0, 0)).2

/-- The four bicubic taps of phase `p`, in units of 2^-14. -/
def bicubicTaps (p : Nat) : List Int :=
  let l := [p + 64, p, 64 - p, 128 - p].map fun t => rheInt (cubic t * 16384) (2 * 64 * 64 * 64)
  let i := largestTap l
  l.set i (l.getD i 0 + (16384 - l.sum))

/-- An index clamped to the line. -/
def clampIdx (i : Int) (n : Nat) : Nat := (clampI i 0 (n - 1 : Int)).toNat

/-- Source indexes and integer weights of output `j` of `m` over a line of `n` samples; the weights are over `tapUnit`. -/
def taps (kernel n m j : Nat) : List (Nat × Int) :=
  if kernel = 2 then (List.range (n / m)).map fun i => (j * (n / m) + i, 1)
  else
    let q := rheInt (64 * ((2 * j + 1 : Nat) * n - m : Int)) (2 * m)
    let b := q / 64
    let p := (q % 64).toNat
    if kernel = 0 then [(clampIdx b n, (64 - p : Int)), (clampIdx (b + 1) n, (p : Int))]
    else (bicubicTaps p).zipIdx.map fun (w, i) => (clampIdx (b - 1 + i) n, w)

def tapUnit (kernel n m : Nat) : Nat := if kernel = 0 then 64 else if kernel = 1 then 16384 else n / m

/-- A plane with the part of it that a crop leaves. -/
structure Plane where
  w : Nat
  samples : List Nat
  x0 : Nat
  y0 : Nat
  cw : Nat
  ch : Nat
deriving DecidableEq, Repr

/-- The exact resized value at row `y`, column `x` of the output. -/
def Plane.resized (p : Plane) (d : IDesc) (y x : Nat) : Quo :=
  let ys := taps d.kernel p.ch d.outh y
  let xs := taps d.kernel p.cw d.outw x
  let row (yi : Nat) : Int := (xs.map fun t => t.2 * (p.samples.getD ((p.y0 + yi) * p.w + p.x0 + t.1) 0 : Int)).sum
  ⟨(ys.map fun t => t.2 * row t.1).sum, tapUnit d.kernel p.ch d.outh * tapUnit d.kernel p.cw d.outw⟩

/-! ### Colour and normalisation (R420) -/

/-- Kr and Kb of a matrix, times 10,000. -/
def matrixK (color : Nat) : Nat × Nat := if color = 2 then (2627, 593) else (2126, 722)

/-- The three components at a place as exact values of R420, from their resized sample values. -/
def colour (d : IDesc) (bits : Nat) (full : Bool) (y cb cr : Quo) : List Quo :=
  let top := 2 ^ bits - 1
  if d.color = 0 then [y, cb, cr].map fun v => v.scale 1 top
  else
    let u := 2 ^ (bits - 8)
    let y := if full then y.scale 1 top else (y.add ⟨-(16 * u : Nat), 1⟩).scale 1 (219 * u)
    let c (v : Quo) : Quo := if full then (v.add ⟨-(2 ^ (bits - 1) : Nat), 1⟩).scale 1 top else (v.add ⟨-(128 * u : Nat), 1⟩).scale 1 (224 * u)
    let (kr, kb) := matrixK d.color
    let kg := 10000 - kr - kb
    [ y.add ((c cr).scale (2 * (10000 - kr : Nat)) 10000),
      (y.add ((c cb).scale (-(2 * kb * (10000 - kb) : Nat)) (10000 * kg))).add ((c cr).scale (-(2 * kr * (10000 - kr) : Nat)) (10000 * kg)),
      y.add ((c cb).scale (2 * (10000 - kb : Nat)) 10000) ]

/-- n / d 2^e with an integer scale. -/
def Quo.roundTo (q : Quo) (e : Int) (f : Ff) : Nat := (f.round (decide (q.n < 0)) q.n.natAbs q.d e).bits

/-- o = (v - MEAN) / STD, rounded once. -/
def normalise (f : Ff) (v : Quo) (mean std : Nat) : Nat :=
  match Fp.decode Ff.b32 mean, Fp.decode Ff.b32 std with
  | .num ms mm me, .num ss sm se =>
    -- MEAN = mm 2^me at the common exponent -149; STD at -149 too
    let mi : Int := (if ms then -(mm : Int) else mm) * 2 ^ (me + 149).toNat
    let si : Int := (if ss then -(sm : Int) else sm) * 2 ^ (se + 149).toNat
    let num : Int := v.n * 2 ^ 149 - mi * v.d
    Quo.roundTo ⟨if si < 0 then -num else num, v.d * si.natAbs⟩ 0 f
  | _, _ => Config.normBeyond mean (v.n.natAbs / (v.d + 1))

/-- MEAN, or STD from the fourth, of INGEST_NORM. -/
def State.norm (s : State) (k i : Nat) : Nat := s.blobNat INGEST_NORM (k + 1) (4 * i) 4

/-! ### What a decode hands over (R412 to R414) -/

/-- A frame: its three planes, each its width, height and row-major samples. -/
abbrev Raster := List (Nat × Nat × List Nat)

/-- Width and height of a frame's luma. -/
def lumaSize (f : Raster) : Nat × Nat := ((f.headD (0, 0, [])).1, (f.headD (0, 0, [])).2.1)

/-- Largest picture, chroma and bit depths of a codec (Table 12-5). -/
def codecLimit (codec : Nat) : (Nat × Nat) × List Nat × List Nat :=
  if codec = 0 then ((1920, 1088), [0, 1], [8])
  else if codec = 1 then ((4096, 2304), [0, 1], [8, 10])
  else if codec = 2 then ((8192, 4320), [0, 1], [8, 10])
  else if codec = 3 then ((8192, 4352), [0, 2], [8, 10])
  else if codec = 4 then ((8192, 8192), [1, 2], List.range 13)
  else ((8192, 4320), [1, 2], List.range 13)

/-- The container can carry the codec, and STREAM names a stream of it (Tables 12-3, 12-4; a CONT of no standard breaks its rule, log entry 114). -/
def contOk (r : SRec) : Bool :=
  decide (r.cont < 3) && (r.cont != 1 || r.stream != 0) && (r.cont != 2 || (decide (4 ≤ r.codec) && r.stream == 0))

/-- The boxes of a file, from its first byte: each box's type where the whole box stands in the bytes (ISO/IEC 14496-12, PRESUMED; log entry 114). -/
def boxes : Nat → List Byte → List Nat
  | 0, _ => []
  | fuel + 1, b =>
    let be (n o : Nat) : Nat := ((b.drop o).take n).foldl (fun a x => 256 * a + x.toNat) 0
    let len := if be 4 0 = 0 then b.length else if be 4 0 = 1 then be 8 8 else be 4 0
    if len < 8 ∨ b.length < len then [] else be 4 4 :: boxes fuel (b.drop len)

/-- The box types moov, mdat and moof. -/
def moovBox : Nat := 0x6D6F6F76
def mdatBox : Nat := 0x6D646174
def moofBox : Nat := 0x6D6F6F66

/-- What Table 12-4 asks of the container itself: packets of 188 bytes from the first byte on; the boxes of a whole or of a fragmented file; a
codestream of the codec (sync byte and start markers of the standards that the table names, PRESUMED; log entry 114). -/
def contForm (r : SRec) (b : List Byte) : Bool :=
  if r.cont = 0 then decide (188 ≤ b.length) && (List.range (b.length / 188)).all fun i => (b.drop (188 * i)).head? == some 0x47
  else if r.cont = 1 then
    let l := boxes b.length b
    l.contains mdatBox && (l.contains moovBox || l.contains moofBox)
  else b.take 2 == (if r.codec = 4 then [0xFF, 0x4F] else [0xFF, 0x10])

/-- A sample of the 9/7 transform, rounded to the nearest integer with ties to even, then clipped to `bits` bits (R413). -/
def liftedSample (bits x : Nat) : Nat :=
  match Fp.decode Ff.b64 x with
  | .num s m e =>
    let v : Nat := if 0 ≤ e then m * 2 ^ e.toNat else rhe m (2 ^ (-e).toNat)
    if s then 0 else min v (2 ^ bits - 1)
  | _ => 0

/-- The planes of a picture as integer samples. -/
def Picture.settle (x : Decoded) (p : Picture) : Picture :=
  if x.lifted then { p with planes := p.planes.map fun pl => (pl.1, pl.2.1, pl.2.2.map (liftedSample x.bits)) } else p

/-- The frames stay within the codec's limits. -/
def withinLimit (codec : Nat) (x : Decoded) (fs : List Picture) : Bool :=
  let l := codecLimit codec
  l.2.1.contains x.chroma && l.2.2.contains x.bits
    && fs.all fun p => decide ((lumaSize p.planes).1 ≤ l.1.1) && decide ((lumaSize p.planes).2 ≤ l.1.2)

/-- The lines of two planes of one width in turn, the first plane's on even lines. -/
def weaveLines (w : Nat) (a b : List Nat) : Nat → List Nat
  | 0 => []
  | n + 1 => a.take w ++ b.take w ++ weaveLines w (a.drop w) (b.drop w) n

/-- Two fields as one frame; the window is the first field's over the lines of both. -/
def weavePair (top bottom first : Picture) : Picture :=
  { first with field := none, y0 := 2 * first.y0, h := 2 * first.h
               planes := (top.planes.zip bottom.planes).map fun (a, b) => (a.1, 2 * a.2.1, weaveLines a.1 a.2.2 b.2.2 a.2.1) }

/-- R414: the fields in pairs, one frame a pair; a field whose second does not follow ends the range before its frame. -/
def weave : List Picture → List Picture
  | [] => []
  | [p] => if p.field.isNone then [p] else []
  | p :: p2 :: l =>
    match p.field, p2.field with
    | none, _ => p :: weave (p2 :: l)
    | some true, some false => weavePair p p2 p :: weave l
    | some false, some true => weavePair p2 p p :: weave l
    | _, _ => []

/-- A plane's part within the window, in the plane's share of the luma's size. -/
def windowPlane (p : Picture) (pl : Nat × Nat × List Nat) : Nat × Nat × List Nat :=
  let (lw, lh) := lumaSize p.planes
  let (x0, w) := (p.x0 * pl.1 / lw, Bits.cdiv (p.w * pl.1) lw)
  let (y0, h) := (p.y0 * pl.2.1 / lh, Bits.cdiv (p.h * pl.2.1) lh)
  (w, h, (List.range h).flatMap fun y => (pl.2.2.drop ((y0 + y) * pl.1 + x0)).take w)

/-- The frame that leaves a decode: cropped to the conformance window or the render size. -/
def Picture.frame (p : Picture) : Raster := p.planes.map (windowPlane p)

/-- What a range decodes to: bit depth, full range (limited where the stream signals none, R420) and frames; `none` where it does not decode
(SUB 0x04). Film grain is AV1's, where GRAIN asks for it. -/
def decodeRange (d : IDesc) (r : SRec) (bytes : List Byte) : Option (Nat × Bool × List Raster) :=
  if contOk r && contForm r bytes then
    match Config.decode r.codec r.cont r.stream (r.codec == 3 && d.grain) bytes with
    | some x =>
      let fs := weave (x.pics.map (Picture.settle x))
      if withinLimit r.codec x fs then some (x.bits, x.range.getD false, fs.map Picture.frame) else none
    | none => none
  else none

/-! ### A sample's tokens (R417, R418, R421) -/

/-- The digest that keys a sample's crop and flip. -/
def State.keyed (s : State) (k q x : Nat) : Nat :=
  let key := shuffleKey (s.val DATA_SEED (k + 1))
  Sha3.digest (key ++ Bits.toBytes 8 (q / (s.ctx k).ns) ++ Bits.toBytes 8 x ++ [0x41])

/-- Part of a plane's line that a luma crop of `n` from `o` leaves, for a plane line of `pl` beside a luma line of `ll`. -/
def cropLine (o n pl ll : Nat) : Nat × Nat :=
  if o * pl % ll = 0 ∧ n * pl % ll = 0 then (o * pl / ll, n * pl / ll) else Config.chromaCrop o n pl ll

/-- The planes of a frame after its crop; each plane is width, height and samples. -/
def cropFrame (d : IDesc) (ox oy : Nat) (f : Raster) : List Plane :=
  let (lw, lh) := lumaSize f
  f.map fun p =>
    if d.crop then
      let (x0, cw) := cropLine ox d.cropw p.1 lw
      let (y0, ch) := cropLine oy d.croph p.2.1 lh
      { w := p.1, samples := p.2.2, x0 := x0, y0 := y0, cw := cw, ch := ch }
    else { w := p.1, samples := p.2.2, x0 := 0, y0 := 0, cw := p.1, ch := p.2.1 }

/-- The area kernel has no rule for a line: luma must be an integer multiple, of 2 or more, of the output, and a chroma line an integer
multiple (log entry 36). -/
def areaBad (d : IDesc) (ps : List Plane) : Bool :=
  d.kernel == 2 && ps.zipIdx.any fun (p, i) =>
    p.cw % d.outw != 0 || p.ch % d.outh != 0 || decide (p.cw / d.outw < (if i = 0 then 2 else 1))
      || decide (p.ch / d.outh < (if i = 0 then 2 else 1))

/-- The frames of a sample: `none` with fewer decoded frames than the record promises, or a frame of other than three planes. -/
def usedFrames (d : IDesc) (r : SRec) (fs : List Raster) : Option (List Raster) :=
  (List.range (d.used r)).mapM fun i =>
    match fs[r.first + i * d.stride]? with
    | some f => if f.length = 3 then some f else none
    | none => none

/-- The token vectors of a sample, or the cause that makes it void. -/
def State.tokensOf (s : State) (k q : Nat) (bits : Nat) (full : Bool) (fs : List Raster) : Except Nat (List Byte) :=
  let d := s.idesc k
  let x := s.sampleAt k q
  let r := s.srec k x
  match usedFrames d r fs with
  | none => .error 4
  | some us =>
    let a := s.keyed k q x
    let luma := lumaSize (us.headD [])
    if d.crop && us.any fun f => decide ((lumaSize f).1 < d.cropw) || decide ((lumaSize f).2 < d.croph) then .error 2
    else
      let ox := Bits.fld a 0 64 % (luma.1 - d.cropw + 1)
      let oy := Bits.fld a 64 64 % (luma.2 - d.croph + 1)
      let frames := us.map (cropFrame d ox oy)
      if frames.any (areaBad d) then .error 3
      else
        let flip := d.flip && Bits.bit a 128
        let f := if d.ofmt = 0 then Ff.b16 else Ff.bf16
        let pixel (ps : List Plane) (y x : Nat) : List Quo :=
          let x := if flip then d.outw - 1 - x else x
          let g (i : Nat) : Quo := (ps.getD i ⟨0, [], 0, 0, 0, 0⟩).resized d y x
          colour d bits full (g 0) (g 1) (g 2)
        .ok ((List.range (us.length / d.t)).flatMap fun tau =>
          (List.range (d.outh / d.ph)).flatMap fun py => (List.range (d.outw / d.pw)).flatMap fun px =>
            (List.range d.t).flatMap fun t => (List.range d.ph).flatMap fun y => (List.range d.pw).flatMap fun xx =>
              (pixel (frames.getD (tau * d.t + t) []) (py * d.ph + y) (px * d.pw + xx)).zipIdx.flatMap fun (v, c) =>
                Bits.toBytes 2 (normalise f v (s.norm k c) (s.norm k (3 + c))))

end Sys2Proof.Machine
end

