-- ==== Sys2Proof/Machine/Ingest.lean ====
section
/-!
DEFINITION. The ingest service (R407 to R432): starting it, reads of ranges and their retries, decodes, and samples that arrive.
-/

namespace Sys2Proof.Machine

open Sys2Proof.WB

/-- An event of the ingest service of a context, which Safe Hold stops. -/
def onIngest (k : CtxId) (s : State) (f : State → State) : Host.Outcome State Fault Refusal :=
  whenUp s fun s => if s.safeHold || !(s.ctx k.val).ingest then s else (f s).after k.val

/-! ### INGEST_GO (R410, R425) -/

/-- Every sample record from the table on names a shard below NSH; fewer records than NS refuse too. -/
def shardsOk (nsh : Nat) : Nat → List Byte → Bool
  | 0, _ => true
  | n + 1, l => l.length ≥ 64 && decide (Bits.ofBytes ((l.drop 16).take 4) < nsh) && shardsOk nsh n (l.drop 64)

/-- WS-35: the image's digest, NS, or a record's shard. -/
def State.catalogBad (s : State) (k : Nat) (im : List Byte) : Bool :=
  let at_ (off n : Nat) : Nat := Bits.ofBytes ((im.drop off).take n)
  Sha3.digest im != s.val CATALOG_DIGEST (k + 1) || !between 1 (2 ^ 40) (at_ 0 8) || im.length < at_ 24 8 + 64 * at_ 0 8
    || !shardsOk (at_ 8 4) (at_ 0 8) (im.drop (at_ 24 8))

/-- Where CATALOG_SRC says that the image lies. -/
def State.catalogSrc (s : State) (k : Nat) : Extent := extentOf (s.blobNat CATALOG_SRC (k + 1) 0 24)

/-- The image that CATALOG_SRC names is read: the Reads leave and its bytes count; none comes where the target has no enabled record (R410,
log entry 115). -/
def State.readCatalog (s : State) (k : Nat) (im : List Byte) : State × List Byte :=
  let e := s.catalogSrc k
  if s.targetUsed e.target && s.ethUp then
    ((s.count BYTES_READ (k + 1) im.length).emit (.catalogRead k e.target e.nsid e.slba e.nlb), im)
  else (s, [])

/-- The image is read and stored, and the service starts, but in Safe Hold, where no storage is read (R365; WS-35, DESIGN CHOICE, log entry 104);
a refusal on the image's contents comes after it has been read into memory. -/
def State.ingestNow (s : State) (k : Nat) (im : List Byte) : State × Nat :=
  let a := s.val CATALOG_ADDR (k + 1)
  if s.safeHold then (s, 0x35)
  else if s.batch k % (s.ctx k).nown ≠ 0 ∨ idescBad (s.blobNat INGEST_DESC (k + 1) 0 32) = true ∨ (s.memCheck k a im.length).isSome = true then (s, 0x34)
  else
    let (s, im) := s.readCatalog k im
    let s := s.hubWrite k a im
    if s.catalogBad k im then (s, 0x35)
    else
      let s := s.updCtx k fun c => { c with ingest := true, ns := Bits.ofBytes (im.take 8), nsh := Bits.ofBytes ((im.drop 8).take 4) }
      (s.restartIngest k, 0)

def State.goIngest (s : State) (k : Nat) (im : List Byte) (req : Option (Path × WbMsg × Bool)) : State :=
  let (s, code) := s.ingestNow k im
  s.answerTo req code

def execIngestGo (k : CtxId) (e : Env) (s : State) : Host.Outcome State Fault Refusal := whenUp s fun s => s.goIngest k.val e.catalog none

/-! ### Reads (R411, R430) -/

def State.sampleSt (s : State) (k q : Nat) : SampleSt := Tab.get {} (s.ctx k).samples q
def State.updSample (s : State) (k q : Nat) (f : SampleSt → SampleSt) : State :=
  s.updCtx k fun c => { c with samples := Tab.upd {} c.samples q f }

/-- Read the range again, on the other port where the target has both. -/
def State.readAgain (s : State) (k q : Nat) : State :=
  let ports := s.samplePorts k q
  let s := s.updSample k q fun x => { x with port1 := if ports.1 && ports.2 then !x.port1 else x.port1 }
  (s.count RANGE_RETRIES (k + 1) 1).readSample k q

/-- A read has failed: it is read again, until the retries are exhausted (Table 12-7). -/
def State.readFailed (s : State) (k q sub : Nat) : State :=
  let x := s.sampleAt k q
  let s := s.logFault 0xFF sub 7 none (some k) 8 q x
  let st := s.sampleSt k q
  if st.exhausted then s.updSample k q fun x => { x with busy := false }
  else if st.tries < s.val INGEST_RETRIES 0 then (s.updSample k q fun x => { x with tries := x.tries + 1 }).readAgain k q
  else
    let s := s.updSample k q fun x => { x with busy := false, exhausted := true }
    (s.logFault 0xFF 0x03 8 none (some k) 8 q x).event 0x0020 (some k) 8 (evData2 q x)

/-- STORAGE_READ_COMPLETE: the digest is checked, and a sound range goes to a decode slice. -/
def execStorageReadComplete (k : CtxId) (pos : Nat) (bytes : List Byte) (s : State) : Host.Outcome State Fault Refusal :=
  onIngest k s fun s =>
    if (s.sampleSt k.val pos).busy then
      let s := s.count BYTES_READ (k.val + 1) bytes.length
      let r := s.srec k.val (s.sampleAt k.val pos)
      if bytes.length = r.len ∧ Sha3.digest bytes = r.digest then
        (s.updSample k.val pos fun x => { x with busy := false, read := true, range := bytes }).emit (.decode k.val pos)
      else s.readFailed k.val pos 0x01
    else s

/-- STORAGE_READ_TIMEOUT: a read error, a timeout or a lost connection. -/
def execStorageReadTimeout (k : CtxId) (pos : Nat) (s : State) : Host.Outcome State Fault Refusal :=
  onIngest k s fun s => if (s.sampleSt k.val pos).busy then s.readFailed k.val pos 0x02 else s

/-- SHARD_RETRY_TIMER: a range whose retries are exhausted is read again. -/
def execShardRetryTimer (k : CtxId) (pos : Nat) (s : State) : Host.Outcome State Fault Refusal :=
  onIngest k s fun s =>
    let st := s.sampleSt k.val pos
    if st.exhausted && !st.busy && !st.read then s.readAgain k.val pos else s

/-! ### Decodes (R412 to R421, R430, R431) -/

/-- Luma pixels of decoded frames. -/
def lumaPixels (fs : List Raster) : Nat := (fs.map fun f => (lumaSize f).1 * (lumaSize f).2).sum

/-- A decode slice is retired (SUB 0x05); its range is decoded again on another. -/
def State.sliceOut (s : State) (k q slice : Nat) : State :=
  let m := s.val SLICES_IN_SERVICE 0
  let s := if slice < 64 ∧ Bits.bit m slice then s.setVal SLICES_IN_SERVICE 0 (m - 2 ^ slice) else s
  (s.logFault 0xFF 0x05 7 none (some k) (if slice < 32 then 8 else 9) slice 0).emit (.decode k q)

/-- A range that does not decode, or decodes to fewer frames than its record promises: SUB 0x04, the sample void. -/
def State.decodeBad (s : State) (k q x : Nat) : State := (s.logFault 0xFF 0x04 8 none (some k) 8 q x).voidSample k q x 4

/-- What a range decoded to is cut into tokens and sent to its owner, or the sample is void. -/
def State.decoded (s : State) (k q : Nat) (r : Option (Nat × Bool × List Raster)) : State :=
  let x := s.sampleAt k q
  match r with
  | none => s.decodeBad k q x
  | some (bits, full, fs) =>
    let s := s.count PIXELS_DECODED (k + 1) (lumaPixels fs)
    match s.tokensOf k q bits full fs with
    | .ok bs => (s.count SAMPLES_READ (k + 1) 1).deliverSample k q bs
    | .error 4 => s.decodeBad k q x
    | .error c => s.voidSample k q x c

/-- DECODE_COMPLETE: the slice has worked a range through, or has failed at it. -/
def execDecodeComplete (k : CtxId) (pos : Nat) (r : DecodeRes) (s : State) : Host.Outcome State Fault Refusal :=
  onIngest k s fun s =>
    let st := s.sampleSt k.val pos
    if !st.read || st.delivered then s
    else
      match r with
      | .sliceFault n => s.sliceOut k.val pos n
      | .done => s.decoded k.val pos (decodeRange (s.idesc k.val) (s.srec k.val (s.sampleAt k.val pos)) st.range)

/-- CARAVAN_SAMPLE: a SAMPLE message reaches its owner (R428). -/
def execCaravanSample (k : CtxId) (m : CMsg) (s : State) : Host.Outcome State Fault Refusal := onMessage 11 k m s fun s => s.onSample k.val m

end Sys2Proof.Machine
end

