-- ==== Sys2Proof/Machine/Start.lean ====
section
/-!
DEFINITION. Starts, resets and the loss of power (R364, R366, R474, R552 to R561, R569 to R577, R611, R617, R618).
-/

namespace Sys2Proof.Machine

open Sys2Proof.WB

/-! ### Firmware slots and the staged image (Table 18-3, R570 to R577) -/

def Fw.active (f : Fw) : FwSlot := if f.active1 then f.slot1 else f.slot0
def Fw.other (f : Fw) : FwSlot := if f.active1 then f.slot0 else f.slot1
def Fw.setActive (f : Fw) (x : FwSlot) : Fw := if f.active1 then { f with slot1 := x } else { f with slot0 := x }
def Fw.setOther (f : Fw) (x : FwSlot) : Fw := if f.active1 then { f with slot0 := x } else { f with slot1 := x }
def Fw.num (f : Fw) : Nat := Bits.ofBool f.active1

/-- Bytes of the staged image as a number. -/
def Fw.staged (f : Fw) (off n : Nat) : Nat := Bits.ofBytes (Tab.getRange 0 f.vest off n)
def Fw.vestVersion (f : Fw) : Nat := f.staged 24 4

/-- The Vestibule emptied, in state `st`. -/
def Fw.emptyVest (f : Fw) (st : Nat) : Fw := { f with vest := [], blocks := 0, have_ := [], stage := st }

/-- The other slot can be run: VALID, and its version not below FW_ARB. -/
def Fw.otherGood (f : Fw) : Bool := f.other.st == .valid && decide (f.arb ≤ f.other.version)

/-- The other slot becomes active with state `a`, and the slot that was active takes state `b`. -/
def Fw.flip (f : Fw) (a b : FwState) : Fw :=
  let f := (f.setActive { f.active with st := b }).setOther { f.other with st := a }
  { f with active1 := !f.active1 }

/-- R577: the active slot's check; the other slot runs instead, or no slot can. -/
def Fw.check (f : Fw) (i : StartIn) : Option (Fw × List (Nat × Nat)) :=
  let ok (one : Bool) : Bool := if one then i.slot1Ok else i.slot0Ok
  if ok f.active1 then some (f, [])
  else if f.otherGood && ok (!f.active1) then
    some (f.flip .active .failed, [(0x0054, evData3 f.num (1 - f.num) 2)])
  else none

def anyTag : Nat := 0xFFFFFFFFFFFFFFFF

/-- The staged image is activated by a start of this tag (R572). -/
def Fw.activates (f : Fw) (tag : Nat) (safe : Bool) : Bool :=
  f.stage == 2 && f.actTag != 0 && (f.actTag == tag || f.actTag == anyTag) && tag != anyTag && !safe && !f.lock && decide (f.arb ≤ f.vestVersion)

/-- R573: the copy into the slot that is not active, which becomes the TRIAL slot. -/
def Fw.activate (f : Fw) (tag : Nat) (i : StartIn) : Fw × List (Nat × Nat) :=
  if i.copyOk then
    let x : FwSlot := { st := .trial, version := f.vestVersion, arbSet := f.staged 28 4, invRev := f.staged 32 2, digest := f.staged 48 32 }
    let f := (f.setOther x).flip .trial .valid
    ({ f.emptyVest 0 with actTag := 0 }, [(0x0053, evData3 f.num x.version tag)])
  else (f.setOther {}, [])

/-- R575: a rollback makes the VALID slot active. -/
def Fw.rollback (f : Fw) (tag : Nat) : Fw × List (Nat × Nat) :=
  if tag = anyTag ∧ f.other.st = .valid then (f.flip .active .valid, [(0x0054, evData3 f.num (1 - f.num) 0)]) else (f, [])

/-- What a start does with the slots at step 3: a rollback or an activation, and the check of the slot that it runs (log entry 64). -/
def Fw.boot (f : Fw) (tag : Nat) (i : StartIn) : Option (Fw × List (Nat × Nat)) :=
  let (f, ev0) := f.rollback tag
  match f.check i with
  | none => none
  | some (f, ev) =>
    if f.activates tag i.bootSafe then
      let (f, ev2) := f.activate tag i
      some (f, ev0 ++ ev ++ ev2)
    else some (f, ev0 ++ ev)

/-! ### Self-test (R560, R561, Table 18-2) -/

/-- Retire the failed cores; each active one of them gives its place to a sound spare of its die. -/
def State.retireAtStart (s : State) (cores : List Nat) : State :=
  let cores := cores.filter (· < 704)
  let s : State := { s with retired := s.retired ++ cores }
  cores.foldl (fun (s : State) c =>
    if s.spares.contains c then s
    else
      match s.usableSpare (coreDie c) with
      | some b => { s with spares := (s.spares.filter (· != b)) ++ [c] }
      | none => s) s

/-- A die short of 80 sound cores, a failed link or a failed stack; and a failed EAU, for which the spec names no other effect (DESIGN CHOICE, log
entry 126). -/
def State.selfTestBad (s : State) (i : StartIn) : Bool :=
  (List.range 8).any (fun d => s.sound d < 80) || !i.links.isEmpty || !i.hbm.isEmpty || !i.eaus.isEmpty

/-- The cores that fail: those that the tests name, and those with a bank short of spare columns (R449, R560). -/
def StartIn.failed (i : StartIn) : List Nat :=
  i.cores ++ (i.columns.filter fun x => decide (4 < x.2.2) && !i.cores.contains x.1).map (·.1)

/-- A mask of the bits that a list names. -/
def maskOf (n : Nat) (l : List Nat) : Nat := ((List.range n).filter fun i => l.contains i).foldl (fun m i => m + 2 ^ i) 0

/-- Step 5: cores, slices, links and stacks; SELFTEST and, when it has not passed, the events of step 8. -/
def State.selfTest (s : State) (cause : Nat) (i : StartIn) : State × List (Nat × Nat) :=
  let cores := StartIn.failed i
  let s := s.retireAtStart cores
  let used := i.columns.foldl (fun t x => Tab.set 0 t (64 * x.1 + x.2.1) (min 4 x.2.2)) ([] : Tab Nat)
  let s : State := { s with sparing := { s.sparing with columns := used } }
  let bad := s.selfTestBad i
  let result := if bad then 2 else if cores.isEmpty then 0 else 1
  let t := Tab.setRange 0 [] 0 (Bits.toBytes 8 result ++ [BitVec.ofNat 8 cause] ++ List.replicate 7 0 ++ Bits.toBytes 88 (maskOf 704 cores)
    ++ Bits.toBytes 8 (maskOf 64 i.slices) ++ Bits.toBytes 4 (maskOf 26 i.links) ++ Bits.toBytes 2 (maskOf 16 i.hbm))
  let s := State.setVal { s with selftest := t, safeHold := bad, shCause := if bad then 7 else 0 } SLICES_IN_SERVICE 0 (2 ^ 64 - 1 - maskOf 64 i.slices)
  (s, (if result = 0 then [] else [(0x0056, evData2 result cause)]) ++ (if bad then [(0x0009, 7)] else []))

/-! ### The start (Table 18-1) -/

/-- What module flash and the outside keep of a context: its ledger, its deadline records and its complete flash generations. -/
def Ctx.kept (c : Ctx) : Ctx := { ledger := c.ledger, drecs := c.drecs, gens := c.gens.filter fun g => g.tier == 1 && g.valid && g.complete }

/-- The entry is of the Groundsheet, or its value is measured or set by the device. -/
def keepVal (key : Nat) : Bool := match Dict.find (key / 256) (key % 256) with
  | some r => r.acc == .ro && !r.given && r.e != LOCAL_COUNT
  | none => false

def keepBlob (key : Nat) : Bool := match Dict.find (key / 256) (key % 256) with
  | some r => r.ground
  | none => false

/-- The part as a start finds it: what is in module flash, the key store, the straps' place and the TAP stays; memory, cores and
every register that is not of the Groundsheet are cleared (Caution after R558, R541). -/
def State.cleared (s : State) : State :=
  { gs := s.gs
    wbv := s.wbv.filter fun e => keepVal e.1
    wbb := s.wbb.filter fun e => keepBlob (e.1 / 2 ^ 32)
    spares := sparesAtStart
    ctxs := (s.ctxs.map fun e => (e.1, e.2.kept)).filter fun e => e.2 != {}
    evSeq := s.evSeq
    commitLog := s.commitLog
    flashLog := s.commitLog
    fw := { s.fw with status := 0, startTag := 0, fbOffset := 0, fbLen := 0, fbDone := 0, fbCode := 0, starts := s.fw.starts + 1 }
    paths := s.paths.map fun p => { p with stage := none }
    tap := s.tap.release
    freeCount := s.freeCount
    nextId := s.nextId
    answer := s.answer
    out := s.out
    pending := s.pending }

/-- Ports and ring pairs at step 7. -/
def State.portsUp (s : State) : State :=
  let s : State := { s with pairA := s.mustClose false, pairB := s.mustClose true, ethUp := !s.bootSafe }
  (List.range 24).foldl (fun (s : State) p =>
    if s.pairClosed p then s.clearPort p .bypassed else if s.canTrain p then s.startTraining p false else s.clearPort p .disabled) s

/-- Post the events of a start. -/
def State.startEvents (s : State) (l : List (Nat × Nat)) : State := l.foldl (fun s e => s.event e.1 none 8 e.2) s

/-- Step 8: a TRIAL slot becomes ACTIVE, and the events leave. -/
def State.startEnd (s : State) (cause tag : Nat) (ev : List (Nat × Nat)) : State :=
  let f := s.fw
  let f := if f.active.st = .trial then { f.setActive { f.active with st := .active } with arb := max f.arb f.active.arbSet } else f
  State.startEvents { s with fw := f } (ev ++ [(0x0050, evData3 cause tag f.num + 2 ^ 192 * f.active.version)])

/-! ### Loss of power and reset (Table 14-3) -/

/-- The sequence of Table 14-3, after which the part is in `phase`. -/
def State.powerDown (s : State) (p : Phase) : State :=
  let s := s.eachCtx fun s k => s.updCtx k fun c => { c with
    epochs := c.epochs.map fun e => { e with effects := [] }
    gens := c.gens.map fun g => if g.tier = 1 ∧ g.complete = false then { g with valid := false } else g }
  { s with
    flashLog := s.commitLog
    ethUp := false
    cxl := []
    ports := s.ports.map fun e => (e.1, if e.2.st = .bypassed ∨ e.2.st = .disabled then e.2 else e.2.clear .down)
    phase := p }

/-- A start that the open loop has abandoned, from the state that it had reached (R617). -/
def State.abandon (s : State) : State := { s.powerDown .off with startDone := false }

/-- Steps 1 to 8 of a start; a TRIAL start that enters Safe Hold is reverted with cause 4 (R574), and the loop that opens before step 7 abandons the
start (R617). -/
def State.boot : Nat → State → Nat → Nat → StartIn → List (Nat × Nat) → State
  | 0, s, _, _, _, _ => s
  | fuel + 1, s, cause, tag, i, ev0 =>
    let s := s.cleared
    let s : State := { s with mgrSel := i.mgrSel, bootSafe := i.bootSafe, slotId := i.slotId % 64, startCause := cause, lastStart := i }
    let opens := i.opens.getD 7
    if opens ≤ 2 then s.abandon
    else
    let s : State := if s.fw.stage = 1 ∨ s.fw.stage = 3 then { s with fw := s.fw.emptyVest 0 } else s
    match s.fw.boot tag i with
    | none => { s with phase := .stuck, startDone := false, ports := [(0, { st := .bypassed }), (1, { st := .bypassed }), (2, { st := .bypassed }), (3, { st := .bypassed })] }
    | some (f, ev) =>
      let s := State.setVal { s with fw := f } INV_REV 0 f.active.invRev
      if opens ≤ 4 then s.abandon
      else
      let (s, ev5) := s.selfTest cause i
      let s : State := { s with fly := if i.bootSafe then 5 else if cause = 3 then 4 else 0 }
      let trial := f.active.st == .trial && !i.bootSafe
      if opens ≤ 6 then s.abandon
      else if trial && s.safeHold then
        let f := s.fw
        State.boot fuel { s with fw := f.flip .active .failed } 4 0 i [(0x0054, evData3 f.num (1 - f.num) 1)]
      else
        let s := State.portsUp { s with cxl := i.cxl }
        if i.hangs then { s with startDone := false } else s.startEnd cause tag (ev0 ++ ev ++ ev5)

/-- The revert of a TRIAL start: its slot FAILED, the VALID one active, and a start of cause 4 (R574). -/
def State.revertStart (s : State) (i : StartIn) : State :=
  let f := s.fw
  State.boot 2 { s with fw := f.flip .active .failed } 4 0 i [(0x0054, evData3 f.num (1 - f.num) 1)]

/-- A start of `cause` with `tag` (R552, R553), or the revert that is due. -/
def State.startPart (s : State) (cause tag : Nat) (i : StartIn) : State := if s.revert then s.revertStart i else State.boot 2 s cause tag i []

/-- The part is powered, running or in reset: a detection begins the sequence. -/
def State.losePower (s : State) : State :=
  match s.phase with
  | .running => s.powerDown .off
  | .off => s
  | .inReset => { s with phase := .off }
  | .stuck => { s with phase := .off }

/-- POWER_FAIL_DETECT: the input leaves its range, and with it the standby rail and the TAP (R615). -/
def execPowerFailDetect (s : State) : Host.Outcome State Fault Refusal := .next { s.losePower with standby := false, tap := {} }

/-- PRESENT_N_OPEN: the loop opens while the input may stay in range (R617). -/
def execPresentNOpen (s : State) : Host.Outcome State Fault Refusal := .next s.losePower

/-- POWER_ON: a start of cause 0, or reset while the reset input is held (R552). -/
def execPowerOn (i : StartIn) (s : State) : Host.Outcome State Fault Refusal :=
  .next (if s.phase = .off then
      let s : State := { s with standby := true }
      if s.resetHeld then { s with phase := .inReset } else s.startPart 0 0 i
    else s)

/-- MOD_RESET_ASSERT: the sequence of Table 14-3 on input power, then reset, for as long as the input is held. -/
def execModResetAssert (s : State) : Host.Outcome State Fault Refusal :=
  .next (let s : State := { s with resetHeld := true }
    match s.phase with
    | .running => s.powerDown .inReset
    | .stuck => { s with phase := .inReset }
    | _ => s)

/-- MOD_RESET_RELEASE: a start of cause 1. -/
def execModResetRelease (i : StartIn) (s : State) : Host.Outcome State Fault Refusal :=
  .next (let s : State := { s with resetHeld := false }
    if s.phase = .inReset then s.startPart 1 0 i else s)

/-- TRIAL_TIMEOUT: a TRIAL start has not reached step 8 within 600 s; with BOOT_SAFE held there is no revert (R557). -/
def execTrialTimeout (i : StartIn) (s : State) : Host.Outcome State Fault Refusal :=
  whenUp s fun s =>
    if s.fw.active.st = .trial ∧ s.startDone = false ∧ s.bootSafe = false then s.revertStart i else s

/-! ### RESTART_GO, SH_EXIT, SH_ENTER -/

/-- A refusal by the firmware rules: WS-10, FW_STATUS and FW_REFUSED (R547, R565). -/
def State.fwRefuse (s : State) (code what : Nat) : State := State.event { s with fw := { s.fw with status := code } } 0x0052 none 8 (evData2 code what)

/-- Why RESTART_GO is refused (R559, R575). -/
def State.restartRefused (s : State) : Option Nat :=
  if !s.safeHold && (List.range 16).any fun k => (s.ctx k).st != .free then some 0x08
  else if s.fw.startTag = anyTag then (if s.fw.lock then some 0x0A else if s.fw.otherGood then none else some 0x0C)
  else none

def State.goRestart (s : State) (i : StartIn) (req : Option (Path × WbMsg × Bool)) : State :=
  match s.restartRefused with
  | some c => (s.fwRefuse c RESTART_GO).answerTo req 0x10
  | none => (s.answerTo req 0).startPart 2 s.fw.startTag i

def execRestartGo (i : StartIn) (s : State) : Host.Outcome State Fault Refusal := whenUp s fun s => s.goRestart i none

/-- SH_EXIT, an RWS entry: leaves Safe Hold by a start of cause 3, and does nothing outside it. -/
def State.goShExit (s : State) (i : StartIn) (req : Option (Path × WbMsg × Bool)) : State :=
  if s.safeHold then (s.answerTo req 0).startPart 3 0 i
  else s.answerTo req (if s.service_ then 0 else 0x04)

def execShExit (i : StartIn) (s : State) : Host.Outcome State Fault Refusal := whenUp s fun s => s.goShExit i none

def State.goShEnter (s : State) (req : Option (Path × WbMsg × Bool)) : State := (s.enterSafeHold 5).answerTo req 0

def execShEnter (s : State) : Host.Outcome State Fault Refusal := whenUp s fun s => s.goShEnter none

end Sys2Proof.Machine
end

