-- ==== Sys2Proof/Machine/Clock.lean ====
section
/-!
DEFINITION. What time alone does in the model: the local elapsed counters of the ten dies (R243, R593; log entry 1).
-/

namespace Sys2Proof.Machine

open Sys2Proof.WB

/-- How many counts of a die fall in one count of H0's oscillator: within 50 ppm of each other, none, one or two (R593). -/
def State.dieCounts (s : State) (die : Nat) : Nat := if die = 8 then 1 else min 2 (Config.dieCounts die s.fw.starts (s.clock 8))

/-- A die's local elapsed counter counts on, but on a die that a scan has stopped (R608). -/
def State.tickDie (s : State) (die n : Nat) : State :=
  if s.scanned.contains die then s else s.setVal LOCAL_COUNT (die + 1) ((s.clock die + n) % 2 ^ 64)

/-- One tick of a part that serves: one count of H0's counter, by which each die's counts on, and context commands that nothing holds back go on.  A
revert that is due starts the part again (R574). -/
def State.tick (s : State) : State :=
  if !s.up then s
  else if s.revert then s.startPart 4 0 { s.lastStart with hangs := false, opens := none }
  else ((List.range 10).foldl (fun (t : State) d => t.tickDie d (s.dieCounts d)) s).runLate

end Sys2Proof.Machine
end

