-- ==== Sys2Proof/Machine/Firmware.lean ====
section
/-!
DEFINITION. Firmware blocks, the activation tag, the owner lock and attestation (R562 to R570, R578 to R583).
-/

namespace Sys2Proof.Machine

open Sys2Proof.WB

/-! ### Block transfer (R564 to R568) -/

/-- A step in flight, or a context moving between dies (R566). -/
def State.stepInFlight (s : State) : Bool :=
  !s.late.isEmpty || (List.range 16).any fun k =>
    (s.ctx k).st == .draining || (s.ctx k).epochs.any fun e => e.st == .opened || e.st == .closed || e.st == .committing

/-- The transient checks of R565. -/
def State.fbTransient (s : State) : Option Nat :=
  if s.fw.lock then some 0x0A
  else if s.stepInFlight || !s.startDone then some 0x08
  else if s.val HOLDUP_CHARGE 0 < 80 then some 0x09
  else none

def blockSize : Nat := 65536

/-- Bytes of the image whose header starts a block: header and body. -/
def imageSize (hdr : List Byte) : Nat := 4096 + Bits.ofBytes ((hdr.drop 40).take 8)

/-- Check 2: offset and length (FW-06).  Block 0 is held to the image that its own header names. -/
def Fw.placeBad (f : Fw) (off len : Nat) (win : List Byte) : Bool :=
  if off % blockSize ≠ 0 then true
  else if off = 0 then decide (4096 ≤ len) && len != min blockSize (imageSize win) || decide (blockSize < len)
  else
    let total := imageSize (Tab.getRange 0 f.vest 0 48)
    f.stage != 1 || decide (total ≤ off) || len != min blockSize (total - off)

/-- "KXB-9600-L", zero-padded to 16 bytes. -/
def partCode : Nat := Dict.dflt PART_CODE 0

/-- A signature verifies under a key over the SHA3-256 digest of some bytes. -/
def Env.verifies (e : Env) (key msg sig : List Byte) : Bool := e.sigs.contains { key := key, digest := Sha3.digest msg, sig := sig }

/-- SIG of a header verifies under the boot ROM key that KEYIDX selects, over bytes 0 to 1,675 (R562). -/
def headerSigned (win : List Byte) (e : Env) : Bool :=
  Env.verifies e (Config.firmwareKey ((win.getD 36 0).toNat)) (win.take 1676) ((win.drop 1676).take 2420)

/-- Check 3: the header of block 0. -/
def headerBad (f : Fw) (len : Nat) (win : List Byte) (e : Env) : Option Nat :=
  let at_ (off n : Nat) : Nat := Bits.ofBytes ((win.drop off).take n)
  if len < 4096 then some 0x01
  else if at_ 0 4 ≠ 0x5746584B ∨ at_ 4 2 ≠ 1 ∨ at_ 6 2 ≠ 0 ∨ at_ 34 2 ≠ 0 ∨ at_ 37 3 ≠ 0 ∨ at_ 80 1596 ≠ 0 then some 0x01
  else if at_ 8 16 ≠ partCode then some 0x02
  else if headerSigned win e = false ∨ 3 < at_ 36 1 then some 0x04
  else if at_ 24 4 < f.arb then some 0x03
  else if !between 1 1073737728 (at_ 40 8) then some 0x05
  else none

/-- The block in the Vestibule; with the last one the body's digest decides (R567, R568). -/
def State.stageBlock (s : State) (off len : Nat) (win : List Byte) : State × Nat :=
  let f := s.fw
  let f : Fw := if off = 0 then { f.emptyVest 1 with actTag := 0, blocks := Bits.cdiv (imageSize win) blockSize } else f
  let n := off / blockSize
  let f : Fw := { f with vest := Tab.setRange 0 f.vest off (win.take len), have_ := if f.have_.contains n then f.have_ else f.have_ ++ [n] }
  if f.have_.length < f.blocks then ({ s with fw := f }, 0)
  else if Sha3.digest (Tab.getRange 0 f.vest 4096 (f.staged 40 8)) = f.staged 48 32 then
    (State.event { s with fw := { f with stage := 2 } } 0x0051 none 8 f.vestVersion, 0)
  else ({ s with fw := f.emptyVest 3 }, 0x07)

/-- One submission: the state that it leaves, and the FW code. -/
def State.submit (s : State) (off len : Nat) (win : List Byte) (e : Env) : State × Nat :=
  match s.fbTransient with
  | some c => (s, c)
  | none =>
    if s.fw.placeBad off len win then (s, 0x06)
    else
      match (if off = 0 then headerBad s.fw len win e else none) with
      | some c => ({ s with fw := s.fw.emptyVest 3 }, c)
      | none => if e.flashOk then s.stageBlock off len win else (s, 0x0F)

/-- FB_GO: the submission, FB_CODE and FB_DONE, and the vector of WB_VEC of PF0. -/
def State.goFb (s : State) (off len : Nat) (e : Env) : State :=
  let s : State := { s with fw := { s.fw with fbOffset := off, fbLen := len } }
  let (s, code) := s.submit off (len % 2 ^ 32) (e.window.take 65536) e
  let s := if code = 0 then s else s.fwRefuse code off
  let s : State := { s with fw := { s.fw with fbCode := code, fbDone := s.fw.fbDone + 1 } }
  let v := s.val WB_VEC 1
  if v = 0xFFFF then s else s.emit (.msix 0 v)

def execFbGo (offset len : Nat) (e : Env) (s : State) : Host.Outcome State Fault Refusal := whenUp s fun s => s.goFb offset len e

/-! ### ACT_TAG and the owner lock (R570, R578 to R580) -/

/-- A write that the firmware rules check: refused with WS-10, or done. -/
def State.fwWrite (s : State) (entry : Nat) (refused : Option Nat) (req : Option (Path × WbMsg × Bool)) (f : State → State) : State :=
  match refused with
  | some c => (s.fwRefuse c entry).answerTo req 0x10
  | none => (f s).answerTo req 0

def State.actTagRefused (s : State) : Option Nat := if s.fw.lock then some 0x0A else if s.fw.stage ≠ 2 then some 0x0B else none

def State.goActTag (s : State) (v : Nat) (req : Option (Path × WbMsg × Bool)) : State :=
  s.fwWrite ACT_TAG s.actTagRefused req fun s => { s with fw := { s.fw with actTag := v } }

def execActTag (v : W64) (s : State) : Host.Outcome State Fault Refusal := whenUp s fun s => s.goActTag v.toNat none

/-- The owner key, and whether it is empty. -/
def State.ownerKey (s : State) : List Byte := s.blob OWNER_KEY 0 0 1312
def State.ownerKeyEmpty (s : State) : Bool := s.ownerKey.all (· == 0)

/-- Why a token is refused; SIG is under OWNER_KEY, over bytes 0 to 31 (R579). -/
def State.tokenBad (s : State) (t : List Byte) (e : Env) : Bool :=
  let at_ (off n : Nat) : Nat := Bits.ofBytes ((t.drop off).take n)
  t.length != 2452 || s.ownerKeyEmpty || at_ 0 16 != s.val SERIAL 0 || decide (at_ 16 8 ≤ s.fw.counter) || !between 1 2 (at_ 24 1)
    || at_ 25 7 != 0 || !Env.verifies e s.ownerKey (t.take 32) ((t.drop 32).take 2420)

/-- OWNER_TOKEN: lock or unlock. -/
def State.goToken (s : State) (t : List Byte) (e : Env) (req : Option (Path × WbMsg × Bool)) : State :=
  s.fwWrite OWNER_TOKEN (if s.tokenBad t e then some 0x0D else none) req fun s =>
    let n := Bits.ofBytes ((t.drop 16).take 8)
    let lock := (t.drop 24).headD 0 == 1
    State.event { s with fw := { s.fw with counter := n, lock := lock } } 0x0055 none 8 (evData2 (Bits.ofBool lock) n)

def execOwnerToken (token : List Byte) (e : Env) (s : State) : Host.Outcome State Fault Refusal := whenUp s fun s => s.goToken token e none

/-- OWNER_KEY, an RWS entry: written whole, 1,312 zero bytes to empty it. -/
def State.goOwnerKey (s : State) (key : List Byte) (req : Option (Path × WbMsg × Bool)) : State :=
  if s.service_ then
    s.fwWrite OWNER_KEY (if s.fw.lock ∨ key.length ≠ 1312 then some 0x0E else none) req fun s => s.setBlob OWNER_KEY 0 0 key
  else s.answerTo req 0x04

def execOwnerKey (key : List Byte) (s : State) : Host.Outcome State Fault Refusal := whenUp s fun s => s.goOwnerKey key none

/-! ### Attestation (R543, R583, Table 18-8) -/

/-- Put an entry and sub-entry range in its place. -/
def insertRow (r : Dict.Row) : List Dict.Row → List Dict.Row
  | [] => [r]
  | x :: l => if r.e < x.e || (r.e == x.e && decide (r.lo < x.lo)) then r :: x :: l else x :: insertRow r l

/-- The Groundsheet in entry and sub-entry order: each entry as its READ data, a BLOB as its bytes. -/
def State.groundBytes (s : State) : List Byte :=
  ((Dict.rows.filter Dict.Row.ground).foldr insertRow []).flatMap fun r =>
    (List.range (r.hi - r.lo + 1)).flatMap fun i =>
      let sub := r.lo + i
      if r.ty = .blob then s.blob r.e sub 0 r.size
      else Bits.toBytes r.bytes ((Tab.get none s.gs (Dict.key r.e sub)).getD r.dflt)

/-- Bytes 0 to 271 of the report for a nonce. -/
def State.reportBody (s : State) (nonce : Nat) : List Byte :=
  let f := s.fw
  let b := Bits.toBytes
  b 4 1 ++ b 4 272 ++ b 32 nonce ++ b 16 (s.val SERIAL 0) ++ b 16 partCode ++ b 4 f.active.version ++ b 4 f.arb ++ b 32 f.slot0.digest
    ++ b 32 f.slot1.digest ++ b 1 f.num ++ b 1 s.slotId ++ b 1 (Bits.ofBool s.mgrSel) ++ b 1 (Bits.ofBool s.bootSafe)
    ++ b 1 (Bits.ofBool f.lock) ++ b 1 s.fly ++ b 1 (s.val REDUNDANCY 0) ++ b 1 (Bits.ofBool s.safeHold) ++ b 2 (s.val INV_REV 0) ++ b 6 0
    ++ b 32 (if s.ownerKeyEmpty then 0 else Sha3.digest s.ownerKey) ++ b 32 (Sha3.digest (s.blob SEAL_KEYS 0 0 10496))
    ++ b 32 (Sha3.digest s.groundBytes) ++ b 8 f.starts ++ b 8 (s.clock 8)

/-- ATTEST_NONCE: the report, with the identity key's signature, and then the answer. -/
def State.goAttest (s : State) (nonce : Nat) (req : Option (Path × WbMsg × Bool)) : State :=
  let body := s.reportBody nonce
  let r := body ++ Bits.toBytes 2420 (Config.identitySig (Sha3.digest body))
  State.answerTo { s with fw := { s.fw with report := Tab.setRange 0 [] 0 r } } req 0

def execAttestNonce (nonce : BitVec 256) (s : State) : Host.Outcome State Fault Refusal := whenUp s fun s => s.goAttest nonce.toNat none

end Sys2Proof.Machine
end

