-- ==== Sys2Proof/Machine/Records.lean ====
section
/-!
DEFINITION. The checks that a write of a record table must pass, made on the state that the write would leave (R253, R262, R320, R342,
R371, R378, R409, R416, R443, R446, R486, R496, R532), and what a table that is taken changes elsewhere.
-/

namespace Sys2Proof.Machine

open Sys2Proof.WB

/-! ### Values of single entries -/

/-- The entries of R432. -/
def ingestEntry (e : Nat) : Bool := between 0x7020 0x7029 e

/-- A value of an entry's type lies outside its range. -/
def outOfRange (r : Dict.Row) (v : Nat) : Bool :=
  match r.rng with
  | none => false
  | some (lo, hi) =>
    let x : Int := if r.ty = .i32 then Bits.signed v 32 else v
    decide (x < lo) || decide (hi < x)

/-- Ranges that an entry's text states beside the Default column's. -/
def specialBad (e sub v : Nat) : Bool :=
  if e = SEG_MAX then 2 ^ Nat.log2 v != v
  else if e = CORE_VSET then v % 10 != 0
  else if e = NODE_ADDR then v == 0xFFFF
  else if e = STEP_GROUP || e = INGEST_GROUP then decide (63 < v) && v != 0xFF
  else if e = EVAL_CTX then decide (15 < v) && v != 0xFF
  else if e = MBOX_VEC then decide ((if sub = 1 then 256 else 64) ≤ v)
  else if e = WB_VEC then decide ((if sub = 1 then 256 else 64) ≤ v) && v != 0xFFFF
  else if e = EVENT_MAC then decide (2 ^ 48 ≤ v)
  else if e = BANKMAP_ADDR || e = EVAL_BANKMAP || e = EPOCH_INFO || e = CATALOG_ADDR || e = TESTREAD_ADDR || e = SLOT_ADDR || e = SLOT_BYTES then
    v % 64 != 0
  else false

/-- A value that its entry does not take: WS-05, or WS-34 in ingest. -/
def State.valueBad (s : State) (r : Dict.Row) (e sub v : Nat) : Option Nat :=
  let bad := outOfRange r v || specialBad e sub v || (e == GLOBAL_BATCH && v % (s.ctx (sub - 1)).nown != 0)
  if bad then some (if ingestEntry e then 0x34 else 0x05) else none

/-- A write of an entry in a context state that its rule does not allow. -/
def State.stateRefused (s : State) (r : Dict.Row) (e sub : Nat) : Option Nat :=
  match r.ctxOf e sub with
  | none => none
  | some k =>
    let st := (s.ctx k).st
    let idle := st == .loaded || st == .saved
    if e = CTX_CORES then (if st = .free then none else some 0x2B)
    else if e = PACKAGE then (if st = .free ∨ st = .loaded ∨ st = .running ∨ st = .halted then none else some 0x2B)
    else if between STEP_GROUP SPEC_DEPTH e then (if idle then none else some 0x2B)
    else if e = RIDGE_GROUPS then (if idle then none else some 0x25)
    else if e = MAP || e = GSTORES || e = TENSORS || e = BIV_CONFIG || e = SAVESET then (if idle then none else some 0x06)
    else if e = CGROUPS || e = OPRECS || between MEMBERS (MEMBERS + 15) e then (if idle then none else some 0x30)
    else if e = RWINDOWS then some 0x30
    else if ingestEntry e then (if idle then none else some 0x34)
    else none

/-! ### Tables -/

/-- Two runs of bytes share a byte. -/
def meets (a an b bn : Nat) : Bool := decide (a < b + bn) && decide (b < a + an) && an != 0 && bn != 0

/-- Some two runs at different places of a list share a byte. -/
def anyMeet : List (Nat × Nat) → Bool
  | [] => false
  | x :: t => (t.any fun y => meets x.1 x.2 y.1 y.2) || anyMeet t

/-- Every byte run of one list lies apart from every run of another. -/
def listsMeet (l m : List (Nat × Nat)) : Bool := l.any fun x => m.any fun y => meets x.1 x.2 y.1 y.2

/-- The records of a table, `n` of `w` bytes. -/
def State.records (s : State) (e sub n w : Nat) : List Nat := (List.range n).map fun i => s.blobNat e sub (w * i) w

/-- A Ridgepole group record (R253). -/
def ridgeBad (r : Nat) : Bool :=
  Bits.fld r 672 352 != 0 || Bits.fld r 14 18 != 0
    || (Bits.bit r 13 && (Bits.fld r 0 8 == 0 || Bits.fld r 32 640 == 0 || Bits.fld r 8 5 == 0))

/-- A carried region (Table 10-11). -/
def carriedBad (r : Nat) : Bool :=
  let len := Bits.fld r 64 64
  let boff := Bits.fld r 128 64
  len != 0 && (boff == 0 || boff % 64 != 0 || decide (boff < len))

/-- A gradient store record (Table 9-3): R320 asks the ranges and the alignment of every record, enabled or not; in one that is not enabled
a field may hold its reset value, zero. -/
def gstoreBad (r : Nat) : Bool :=
  let n := Bits.fld r 288 32
  let ainit := Bits.signed (Bits.fld r 48 16) 16
  Bits.fld r 64 192 != 0 || Bits.fld r 4 44 != 0 || Bits.bit r 1
    || Bits.fld r 448 64 % 64 != 0 || Bits.fld r 384 64 % 64 != 0 || Bits.fld r 320 64 % 64 != 0 || n % 64 != 0
    || decide (ainit < -300) || decide (212 < ainit) || (Bits.bit r 0 && (n == 0 || Bits.fld r 256 32 == 0))

/-- The element, group record and spill areas of a store. -/
def GStore.areas (g : GStore) : List (Nat × Nat) := [(g.elem, 16 * g.nelem), (g.grec, g.nelem), (g.spill, 96 * g.nslot)]

/-- Areas of two enabled stores overlap. -/
def storesMeet : List GStore → Bool
  | [] => false
  | g :: t => (t.any fun h => listsMeet g.areas h.areas) || storesMeet t

/-- A tensor table entry (Table 9-1, R320); one that is not enabled may hold NELEM 0, its reset value. -/
def tensorBad (r : Nat) : Bool := Bits.fld r 48 15 != 0 || !between (Bits.fld r 63 1) (2 ^ 40) (Bits.fld r 0 48)

/-- A Caravan group record (Table 11-1, R371): reserved bits of every record are zero (R7, log entry 57). -/
def cgroupBad (r : Nat) : Bool :=
  let n := Bits.fld r 55 13
  let cls := Bits.fld r 9 3
  let dl := Bits.fld r 128 32
  Bits.fld r 160 96 != 0 || Bits.fld r 96 8 != 0 || Bits.fld r 48 7 != 0 || Bits.fld r 12 32 != 0 || Bits.fld r 1 8 != 0
    || Bits.bit r 0 && (decide (4 < cls) || !between 1 4096 n || decide (n ≤ Bits.fld r 68 12) || Bits.fld r 104 24 == 0
    || (dl != 0 && (!between 1000 10000000 dl || cls != 0)) || (Bits.bit r 45 && cls != 0))

/-- Bytes of an operation's source or destination: W128 words and 1-bit elements, L640 slots, or a shard. -/
def OpRec.size (r : OpRec) : Nat := if r.op = 2 then 32 * r.nelem else if r.form = 0 then 96 * r.nelem else 16 * r.nelem

/-- The source and destination overlap in a parity (R378). -/
def OpRec.meetsSelf (r : OpRec) : Bool :=
  if r.op = 2 then listsMeet [(r.src, r.size)] [(r.dst, r.size), (r.dst + r.poff, r.size)]
  else listsMeet [(r.src, r.size)] [(r.dst, r.size)]

/-- An operation record (R378): an enabled one within its ranges, against the group that it names when that group is enabled; reserved bits
of every record are zero (R7). -/
def State.opBad (s : State) (k raw : Nat) : Bool :=
  let r := opRecOf raw
  let g := s.cgroup k r.group
  let cls := (g.map (·.cls)).getD 0
  let carry := (g.map (·.carry)).getD false
  let nelemOk := if r.op = 2 then r.nelem != 0
    else if r.form = 0 then between 1 1048576 r.nelem else between 65536 16777216 r.nelem && r.nelem % 64 == 0
  Bits.fld raw 1 34 != 0 || Bits.bit raw 0 && (r.form == 3 || r.op == 3 || (r.op == 2 && r.form != 0) || r.unit == 0 || r.poff == 0
    || r.poff % 64 != 0 || !nelemOk || ([r.src, r.dst, r.anch, r.startrec, r.compl].any fun a => a % 64 != 0) || r.meetsSelf
    || (r.form == 2 && (r.op != 0 || !r.regv)) || (carry && !r.regv) || (g.isSome && (r.op == 2) != (cls == 3)))

/-- A storage target record (Table 12-2); at least one port when it is enabled. -/
def targetBad (r : Nat) : Bool :=
  Bits.fld r 32 2144 != 0 || Bits.fld r 6 10 != 0 || Bits.bit r 1 || decide (1 < Bits.fld r 2 2) || Bits.fld r 4088 8 != 0
    || (Bits.bit r 0 && Bits.fld r 4 2 == 0)

/-- A region record: an enabled one outside its ranges (R443), or reserved bits that are not zero (R7). -/
def State.regionBad (s : State) (r : Nat) : Bool :=
  let vb := Bits.fld r 160 64
  let n := Bits.fld r 128 32
  let tg := Bits.fld r 16 16
  let kind := Bits.fld r 1 2
  Bits.fld r 224 32 != 0 || Bits.fld r 32 96 != 0 || Bits.fld r 4 12 != 0 || Bits.bit r 0 && (vb % pageSize != 0 || !between 1 (2 ^ 27) n
    || decide (1 < kind) || decide (coreWinBase < vb + n * pageSize) || tg == 0
    || (kind == 1 && (decide (15 < tg) || (setBits tg).any fun i => s.framesOf (16 + i) == 0)))

/-- The enabled regions and remote windows as runs of addresses. -/
def State.regionRuns (s : State) (k : Nat) : List (Nat × Nat) :=
  (List.range 64).filterMap fun i => (s.region k i).map fun r => (r.vbase, r.npage * pageSize)
def windowRun (r : Nat) : List (Nat × Nat) := if Bits.bit r 0 then [(Bits.fld r 112 64, Bits.fld r 80 32 * pageSize)] else []

/-- The regions that a write of MAP writes afresh (R444). -/
def State.freshRegions (s old : State) (k : Nat) : List Nat :=
  (List.range 64).filter fun i => (s.region k i).isSome && s.region k i != old.region k i

/-- Too few free frames on a target that a region written afresh selects. -/
def State.framesShort (s old : State) (k : Nat) : Bool :=
  let ts := (s.freshRegions old k).flatMap fun i => match s.region k i with
    | some r => (setBits r.targets).map fun t => t + (if r.kind = 1 then 16 else 0)
    | none => []
  ts.any fun t => decide (s.framesOf t < s.pagesOn t + s.savesOn t)

/-- A pending remote window record (R446); the group is one of the pending or of the present table. -/
def State.windowBad (s : State) (k r : Nat) : Bool :=
  let g := Bits.fld r 13 6
  let rank := Bits.fld r 19 12
  let has (x : Option CGroup) : Bool := match x with | some x => decide (rank < x.nmem) | none => false
  Bits.fld r 240 16 != 0 || Bits.fld r 44 36 != 0 || Bits.fld r 1 12 != 0 || Bits.bit r 0 && (Bits.fld r 176 64 % pageSize != 0
    || Bits.fld r 112 64 % pageSize != 0 || !between 1 (2 ^ 27) (Bits.fld r 80 32)
    || decide (coreWinBase < Bits.fld r 112 64 + Bits.fld r 80 32 * pageSize)
    || !(has (cgroupOf (s.blobNat PLACE_GROUPS (k + 1) (32 * g) 32)) || has (s.cgroup k g)))

/-- The post records of a context (R262). -/
def State.postBad (s : State) (k r : Nat) : Bool :=
  let e := s.mpEntry k (Bits.fld r 0 13)
  Bits.fld r 28 36 != 0 || Bits.fld r 14 2 != 0
    || (Bits.bit r 13 && (!(e.valid && e.hostp) || Bits.fld r 64 64 % 8 != 0 || decide ((if k = 0 then 256 else 64) ≤ Bits.fld r 16 11)))

/-- Some element occurs twice. -/
def twice : List Nat → Bool
  | [] => false
  | x :: t => t.contains x || twice t

/-- A Bivouac record, and a save record (Tables 14-6 and 14-1). -/
def bivBad (r : Nat) : Bool :=
  Bits.fld r 8 164 != 0 || Bits.fld r 1 5 != 0
    || (Bits.bit r 0 && (!between 1 16384 (Bits.fld r 240 16) || Bits.fld r 216 8 == 0 || !between 1 64 (Bits.fld r 208 8) || Bits.fld r 6 2 == 0
      || Bits.fld r 384 64 % 64 != 0))
def saveBad (r : Nat) : Bool :=
  let len := Bits.fld r 64 64
  Bits.fld r 14 50 != 0 || Bits.bit r 1
    || (Bits.bit r 0 && (Bits.fld r 192 64 % 64 != 0 || len == 0 || len % 64 != 0 || decide (Bits.fld r 128 64 < len)))

/-- Chunks of module flash that the Bivouac records of all contexts ask for. -/
def State.flashChunks (s : State) : Nat := ((List.range 16).map fun k => (s.biv k).fkeep * (s.biv k).slotc).sum

/-! ### Flysheets (R532) -/

/-- What is wrong with an item of a Flysheet: entry, type and length, range; a malformed port record is out of range (R490, R532; DEDUCED, log
entry 75). -/
def State.itemBad (s : State) (i : Nat × Nat × Nat) : Option Nat :=
  let (key, len, v) := i
  match Dict.find (key / 256) (key % 256) with
  | none => some 0x06
  | some r =>
    if !r.ground || r.ty == .blob || len != r.bytes then some 0x06
    else if key / 256 = PORT_CFG ∧ portCfgBad v = true then some 0x05
    else s.valueBad r (key / 256) (key % 256) v

/-- A Flysheet's header and items. -/
def State.flyBad (s : State) (sub : Nat) : Option Nat :=
  let count := s.blobNat FLYSHEET sub 0 2
  let items := s.flyItemsGo sub (min count 255) 16
  let size := 16 + (items.map fun i => 4 + 4 * Bits.cdiv i.2.1 4).sum
  let name := s.blob FLYSHEET sub 8 8
  if 255 < count ∨ s.blobNat FLYSHEET sub 3 5 ≠ 0 ∨ 4096 < size ∨ (name.any fun b => decide (128 ≤ b.toNat)) = true then some 0x06
  else items.findSome? s.itemBad

/-- A new NODE_ADDR waits for the next start, wherever it comes from (R489). -/
def State.holdNode (s old : State) : State :=
  let k := Dict.key NODE_ADDR 0
  if (Tab.get none s.held k).isNone && s.latest NODE_ADDR 0 != old.val NODE_ADDR 0 then
    { s with held := Tab.set none s.held k (some (old.val NODE_ADDR 0)) }
  else s

/-- Settings of step-boundary entries that the active Flysheet changes under a step in progress stay in force until the boundary. -/
def State.holdFly (s old : State) : State :=
  ((old.flyItems s.fly ++ s.flyItems s.fly).map (·.1)).foldl (fun (s : State) key =>
    let e := key / 256
    let sub := key % 256
    match Dict.find e sub with
    | some r =>
      if r.step && s.mustWait (r.ctxOf e sub) && (Tab.get none s.held key).isNone && s.latest e sub != old.val e sub then
        { s with held := Tab.set none s.held key (some (old.val e sub)) }
      else s
    | none => s) s

/-! ### One table -/

/-- What refuses the table that a write leaves; `old` is the state before the write. -/
def State.tableBad (s old : State) (e sub : Nat) : Option Nat :=
  let k := sub - 1
  let bad (code : Nat) (b : Bool) : Option Nat := if b then some code else none
  if e = RIDGE_GROUPS then bad 0x25 ((s.records e sub 64 128).any ridgeBad)
  else if e = CARRIED then bad 0x05 ((s.records e sub 16 24).any carriedBad)
  else if e = GSTORES then bad 0x06 ((s.records e sub 32 64).any gstoreBad || storesMeet ((s.gstores k).map (·.2)))
  else if e = TENSORS then bad 0x06 ((s.records e sub 4096 8).any tensorBad)
  else if e = CGROUPS || e = PLACE_GROUPS then
    bad 0x30 ((s.records e sub 64 32).any cgroupBad
      || (e == CGROUPS && s.blobTouched OPRECS sub && (s.records OPRECS sub 1024 64).any (s.opBad k)))
  else if e = OPRECS then bad 0x30 ((s.records e sub 1024 64).any (s.opBad k))
  else if e = TARGETS then bad 0x06 ((s.records e sub 64 512).any targetBad)
  else if e = MAP then
    let wins := (s.records RWINDOWS sub 64 32).flatMap windowRun
    if (s.records e sub 64 32).any s.regionBad || anyMeet (s.regionRuns k) || listsMeet (s.regionRuns k) wins then some 0x38
    else bad 0x39 (s.framesShort old k)
  else if e = PLACE_RWINDOWS then
    let rs := s.records e sub 64 32
    bad 0x30 (rs.any (s.windowBad k) || anyMeet (rs.flatMap windowRun) || listsMeet (s.regionRuns k) (rs.flatMap windowRun))
  else if e = HOST_POST then
    let rs := s.records e sub 64 24
    bad 0x27 (rs.any (s.postBad k) || twice ((rs.filter fun r => Bits.bit r 13).map fun r => Bits.fld r 0 13))
  else if e = BIV_CONFIG then
    if (s.records e sub 1 64).any bivBad then some 0x06 else bad 0x3E (decide (491520 < s.flashChunks))
  else if e = SAVESET then bad 0x06 ((s.records e sub 256 32).any saveBad)
  else if e = FLYSHEET then s.flyBad sub
  else if e = VC_ALLOC then
    let a := s.records e sub 16 2
    bad 0x32 ((a.any fun x => decide (x < 145)) || decide (65536 < a.sum))
  else if e = INGEST_DESC then bad 0x34 (idescBad (s.blobNat e sub 0 32))
  else if e = INGEST_NORM then
    bad 0x34 (((s.records e sub 6 4).drop 3).any fun x => Bits.fld x 0 31 == 0 || Bits.fld x 23 8 == 255)
  else none

/-- A region of a context loses its pages and what they held. -/
def State.dropRegion (s : State) (k i : Nat) (r : Region) : State :=
  let hi := r.vbase + r.npage * pageSize
  s.updCtx k fun c => { c with
    mem := Tab.clearRange c.mem r.vbase hi
    poison := Tab.clearRange c.poison (r.vbase / 64) (hi / 64)
    present := Tab.clearRange c.present (2 ^ 27 * i) (2 ^ 27 * (i + 1)) }

/-- What the bytes of a table bring with them before its check: regions disabled or written afresh lose their pages (R444). -/
def State.tableMoves (s old : State) (e sub : Nat) : State :=
  let k := sub - 1
  if e = MAP then
    let ch := (List.range 64).filter fun i => s.region k i != old.region k i
    let drop (t : State) (s : State) (i : Nat) : State := match t.region k i with | some r => s.dropRegion k i r | none => s
    ch.foldl (drop s) (ch.foldl (drop old) s)
  else s

/-- What a table that is taken changes: the participants of a group that becomes enabled start at zero (R254), the number of owners that
a write gives (log entry 34), and settings held for a step boundary. -/
def State.tableTaken (s old : State) (e sub hi : Nat) : State :=
  let k := sub - 1
  if e = RIDGE_GROUPS then
    (List.range 64).foldl (fun (s : State) g =>
      if (s.rgroup k g).isSome && (old.rgroup k g).isNone then
        { s with parts := Tab.clearRange s.parts (partKey k g 0 .O) (partKey k (g + 1) 0 .O) }
      else s) s
  else if e = OWNERS then s.updCtx k fun c => { c with nown := max 1 (hi / 2) }
  else if e = FLYSHEET ∧ s.fly + 1 = sub then ((s.holdFly old).holdNode old).portsFollow old
  else s

end Sys2Proof.Machine
end

