-- ==== Sys2Proof/Machine/Pitch.lean ====
section
/-!
DEFINITION. Flysheets pitched (R533 to R535, R550), Mileposts shared (R238), post records armed (R264), step groups named (R337, R338).
-/

namespace Sys2Proof.Machine

open Sys2Proof.WB

/-! ### Flysheets -/

/-- Step 4 of Table 16-10: the sheet is active, and every setting but NODE_ADDR is in force at once, and the ports follow their records (R489, R490). -/
def State.setFly (s : State) (v : Nat) : State :=
  let t : State := { s with
    fly := v
    pitching := none
    held := s.held.filter fun e => e.1 == Dict.key NODE_ADDR 0 }
  (t.holdNode s).portsFollow s

/-- A pitch ends: the waiting RIDGEs retire and PITCHED is posted. -/
def State.pitched (s : State) (v : Nat) : State :=
  State.event ((s.setFly v).eachCtx fun s k => s.after k) 0x000A none 8 v

/-- A write of PITCH. -/
def State.pitchNow (s : State) (v : Nat) : State × Nat :=
  if 7 < v ∨ s.flyValid v = false then (s, 0x05)
  else if s.pitching.isSome then (s, 0x0C)
  else if s.safeHold then (State.event (s.setFly v) 0x000A none 8 v, 0)
  else if (List.range 16).any fun k => (s.ctx k).st == .running && (s.stepGroup k).isNone then (s, 0x0C)
  else ({ s with pitching := some v }, 0)

def State.goPitch (s : State) (v : Nat) (req : Option (Path × WbMsg × Bool)) : State :=
  let (s, code) := s.pitchNow v
  s.answerTo req code

def execPitch (slot : Byte) (s : State) : Host.Outcome State Fault Refusal := whenUp s fun s => s.goPitch slot.toNat none

/-- Every epoch of every running context is final. -/
def State.allFinal (s : State) : Bool :=
  (List.range 16).all fun k =>
    let c := s.ctx k
    !(c.st == .running || c.st == .draining) || !(c.epochs.any fun e => e.live || e.st == .squashed)

/-- PITCH_APPLY: speculation has drained and the pending sheet takes force. -/
def execPitchApply (s : State) : Host.Outcome State Fault Refusal :=
  whenUp s fun s =>
    match s.pitching with
    | some v => if s.allFinal then s.pitched v else s
    | none => s

/-! ### Sharing a Milepost -/

/-- SHARE_GO: SHARE_SRC and SHARE_DST hold a context in [19:16] and a Milepost number in [12:0]; their other bits are kept and name nothing
(R271; DESIGN CHOICE, log entry 119). -/
def State.shareNow (s : State) : State × Nat :=
  let a := s.val SHARE_SRC 1
  let b := s.val SHARE_DST 2
  let e := s.mpEntry (Bits.fld a 16 4) (Bits.fld a 0 13)
  let kd := Bits.fld b 16 4
  let md := Bits.fld b 0 13
  let st := (s.pmp e.pmp).st
  if !e.valid || e.shared || !(st == .live || st == .frozen) || (s.mpEntry kd md).valid then (s, 0x24)
  else (s.updCtx kd fun c => { c with mpmap := Tab.set {} c.mpmap md { valid := true, shared := true, pmp := e.pmp } }, 0)

def State.goShare (s : State) (req : Option (Path × WbMsg × Bool)) : State :=
  let (s, code) := s.shareNow
  s.answerTo req code

def execShareGo (s : State) : Host.Outcome State Fault Refusal := whenUp s fun s => s.goShare none

/-! ### Arming a post record -/

/-- POST_REARM: ARM is set, and a CVAL already at THRESH is posted and fires the vector at once; a number that no Milepost bears any more has no
CVAL. -/
def State.rearmNow (s : State) (k mp : Nat) : State × Nat :=
  if 8191 < mp then (s, 0x05)
  else
    match s.postRec k mp with
    | none => (s, 0x27)
    | some (i, r) =>
      let s := s.setArm k i true
      let e := s.mpEntry k mp
      (if e.valid = true ∧ Bits.fld r 128 64 ≤ (s.pmp e.pmp).cval then s.postMp e.pmp else s, 0)

def State.goRearm (s : State) (k mp : Nat) (req : Option (Path × WbMsg × Bool)) : State :=
  let (s, code) := s.rearmNow k mp
  s.answerTo req code

def execPostRearm (k : CtxId) (mp : BitVec 16) (s : State) : Host.Outcome State Fault Refusal :=
  whenUp s fun s => s.goRearm k.val mp.toNat none

/-! ### The step group -/

/-- The group has every queue of every core role as a participant (R337). -/
def State.stepGroupOk (s : State) (k g : Nat) : Bool :=
  match s.rgroup k g with
  | none => false
  | some r => r.qmask == 0x1F && (List.range (max (s.ctx k).roles.length (s.ctx k).saved.length)).all fun i => Bits.bit r.roles i

/-- STEP_GROUP: STEP_BASE takes the committed step, and the Mileposts that the context maps with ADV follow its epochs (R245, R338). -/
def State.stepGroupNow (s : State) (k v : Nat) : State × Nat :=
  let st := (s.ctx k).st
  if specialBad STEP_GROUP (k + 1) v then (s, 0x05)
  else if st ≠ .loaded ∧ st ≠ .saved then (s, 0x2B)
  else if v < 64 ∧ s.stepGroupOk k v = false then (s, 0x25)
  else
    let s := s.setVal STEP_GROUP (k + 1) v
    let s := if v < 64 then s.setVal STEP_BASE (k + 1) (s.val COMMITTED_STEP (k + 1)) else s
    let own := (s.ctx k).mpmap.filter fun e => e.2.valid && e.2.adv
    (own.foldl (fun s e => s.setPmp e.2.pmp { s.pmp e.2.pmp with spec := decide (v < 64) }) s, 0)

def State.goStepGroup (s : State) (k v : Nat) (req : Option (Path × WbMsg × Bool)) : State :=
  let (s, code) := s.stepGroupNow k v
  s.answerTo req code

def execStepGroup (k : CtxId) (v : Byte) (s : State) : Host.Outcome State Fault Refusal :=
  whenUp s fun s => s.goStepGroup k.val v.toNat none

end Sys2Proof.Machine
end

