-- ==== Sys2Proof/Machine/Waybill.lean ====
section
/-!
DEFINITION. The Waybill: what a read returns, what a write does, transactions (R522 to R533, R537 to R541, R547, R548).
-/

namespace Sys2Proof.Machine

open Sys2Proof.WB

/-! ### Reading a value -/

def CtxState.num : CtxState → Nat
  | .free => 0
  | .loaded => 1
  | .running => 2
  | .halted => 3
  | .saved => 4
  | .draining => 5

def QState.num : QState → Nat
  | .idle => 0
  | .running => 1
  | .waiting => 2
  | .draining => 3
  | .halted => 4

def PortState.num : PortState → Nat
  | .disabled => 0
  | .bypassed => 1
  | .training => 2
  | .up => 3
  | .upAlt => 4
  | .isolated => 5
  | .down => 6

def FwState.num : FwState → Nat
  | .empty => 0
  | .valid => 1
  | .active => 2
  | .trial => 3
  | .failed => 4

/-- The state word of a port (Table 15-2). -/
def State.portWord (s : State) (p : Nat) : Nat :=
  let x := s.port p
  x.st.num + 16 * Bits.ofBool (s.pairClosed p) + 2 ^ 27 * (x.pport % 32) + 2 ^ 32 * (x.peer % 2 ^ 16) + 2 ^ 48 * x.lanes.toNat

/-- CELL_RATE: a die's rate monitor, or the mean of the eight (R590; log entry 42). -/
def State.cellRate (s : State) (sub : Nat) : Nat :=
  let one (d : Nat) : Nat := Config.cellRate d (s.val CORE_VSET 0) (s.val DELAY_MARGIN 0) (s.clock d)
  if sub ≤ 8 then one (sub - 1) else ((List.range 8).map one).sum / 8

/-- The value that a READ returns: of an entry whose value lies in its own structure, else the value in force. -/
def State.readVal (s : State) (e sub : Nat) : Nat :=
  let k := sub - 1
  if e = CTX_STATE then (s.ctx k).st.num
  else if e = CTX_MODE then Bits.ofBool (s.ctx k).phofer
  else if e = PORT_STATE then s.portWord k
  else if e = PMP_FREE then s.pmpFree k
  else if e = FRAMES_FREE then s.freeOn k
  else if e = FW_ACTIVE_VER then s.fw.active.version
  else if e = FW_SLOT_ACTIVE then s.fw.num
  else if e = FW_ARB then s.fw.arb
  else if e = FW_STAGE_STATE then s.fw.stage
  else if e = FW_STATUS then s.fw.status
  else if e = ACT_TAG then s.fw.actTag
  else if e = OWNER_LOCK then Bits.ofBool s.fw.lock
  else if e = SLOT_ID then s.slotId
  else if e = BOOT_SAFE then Bits.ofBool s.bootSafe
  else if e = MGR_SEL_STATE then Bits.ofBool s.mgrSel
  else if e = ACTIVE_FLYSHEET then s.fly
  else if e = PITCH_STATE then Bits.ofBool s.pitching.isSome
  else if e = SH_STATE then Bits.ofBool s.safeHold
  else if e = CELL_RATE then s.cellRate sub
  else if e = CORE_MV then Config.coreMv k (s.val CORE_VSET 0) (s.clock k)
  else s.val e sub

/-! ### Reading a BLOB -/

/-- `n` bytes from `off` of an array of records of `w` bytes. -/
def recBytes (w : Nat) (f : Nat → Nat) (off n : Nat) : List Byte :=
  (List.range n).map fun i => BitVec.ofNat 8 (f ((off + i) / w) >>> (8 * ((off + i) % w)))

/-- `n` bytes from `off` of a byte list, zero beyond its end. -/
def listBytes (l : List Byte) (off n : Nat) : List Byte := (List.range n).map fun i => l.getD (off + i) 0

/-- A translation entry (Table 7-2). -/
def MpEntry.toNat (e : MpEntry) : Nat :=
  e.pmp % 2 ^ 18 + 2 ^ 27 * Bits.ofBool e.shared + 2 ^ 28 * Bits.ofBool e.adv + 2 ^ 29 * Bits.ofBool e.hostw + 2 ^ 30 * Bits.ofBool e.hostp
    + 2 ^ 31 * Bits.ofBool e.valid

/-- A census record (Table 9-4). -/
def Census.toNat (c : Census) : Nat :=
  let w := 2 ^ 64
  Bits.ofBool c.seen + 2 ^ 32 * (c.qrun % 2 ^ 32) + 2 ^ 64 * (c.stall % w) + 2 ^ 128 * (c.sat % w) + 2 ^ 192 * (c.crush % w)
    + 2 ^ 256 * (c.nonfin % w) + 2 ^ 320 * (c.under % w) + 2 ^ 384 * (c.zero % w) + 2 ^ 448 * (c.elems % w)

/-- One queue state of a context: index 5 role + queue (Table 17-3); IDLE while the context is saved (Table 5-2). -/
def State.queueByte (s : State) (k i : Nat) : Nat :=
  let c := s.ctx k
  let q := Queue.ofNum (i % 5)
  match (c.roles[i / 5]?).map s.core with
  | some x => (x.q q).st.num
  | none => 0

/-- Bytes of the deadline records (R368): step, number of records, and of each the bucket, the bitmap and the divisor. -/
def State.deadlineBytes (s : State) (k : Nat) : List Byte :=
  (s.ctx k).drecs.flatMap fun e => Bits.toBytes 8 e.1 ++ Bits.toBytes 8 e.2.length
    ++ e.2.flatMap fun d => Bits.toBytes 8 d.bucket ++ Bits.toBytes 512 d.contrib.toNat ++ Bits.toBytes 8 d.divisor

/-- The generation record of a slot in the order of GENERATIONS: 2 partner, FKEEP flash, SSLOTS shared. -/
def State.genRec (s : State) (k i : Nat) : Nat :=
  let b := s.biv k
  let (tier, slot) := if i < 2 then (0, i) else if i < 2 + b.fkeep then (1, i - 2) else (2, i - 2 - b.fkeep)
  match (s.ctx k).gens.find? fun g => g.tier == tier && g.slot == slot with
  | some g => g.toNat
  | none => 0

/-- REFILL: G, source tier, verified offset, chunks verified, chunk count. -/
def State.refillWord (s : State) (k i : Nat) : Nat :=
  match (s.ctx k).refill with
  | none => 0
  | some r =>
    match i with
    | 0 => r.g
    | 1 => r.source
    | 2 => 67108864 * lowestFrom r.verified r.chunks 0
    | 3 => r.verified.length
    | _ => r.chunks

/-- LINKCNT: eight counters, which do not wrap (R101). -/
def Port.counter (x : Port) (i : Nat) : Nat :=
  [x.framesTx, x.framesRx, x.crcErr, x.replays, x.fecSymbols, x.lost, x.noroute, x.hopsExpired].getD i 0 |> min (2 ^ 64 - 1)

/-- LOAD_REFUSAL: section, core group, queue, word, check. -/
def State.refusalWord (s : State) (k i : Nat) : Nat :=
  match (s.ctx k).refused with
  | some r => [r.section_, r.group, r.queue, r.word, r.row].getD i 0
  | none => 0

/-- A mask of the cores of a die that a list names. -/
def dieMask (d : Nat) (l : List Nat) : Nat := maskOf 88 ((l.filter fun c => coreDie c == d).map (· % 88))

/-- FW_SLOTS: version, state, digest of each slot. -/
def FwSlot.toNat (x : FwSlot) : Nat := x.version % 2 ^ 32 + 2 ^ 32 * x.st.num + 2 ^ 64 * (x.digest % 2 ^ 256)

/-- TESTREAD: core stores of the active cores, while every context is FREE in Service mode or Safe Hold (R441, R548). -/
def State.testRead (s : State) (off n : Nat) : List Byte :=
  let a := s.val TESTREAD_ADDR 0
  let ok := s.service_ && ((List.range 16).all fun k => (s.ctx k).st == .free) && decide (coreWinBase ≤ a) && decide (a < coreWinEnd)
  let cores := s.idleCores
  (List.range n).map fun i =>
    let x := a + off + i - coreWinBase
    match ok, cores[x / 0x800000]? with
    | true, some c => if x % 0x800000 < storeSize then Tab.get 0 (s.core c).store (x % 0x800000) else 0
    | _, _ => 0

/-- The BLOB is as long as this: its declared size, or what it holds where its table gives none.  Each of the 256 records of TAINTS has its
operation record number behind it, as a U16 (R396; DESIGN CHOICE, log entry 109). -/
def State.blobSize (s : State) (r : Dict.Row) (e sub : Nat) : Nat :=
  if e = DEADLINES then (s.deadlineBytes (sub - 1)).length
  else if e = TAINTS then 256 * 1154
  else if e = GENERATIONS then 64 * (2 + (s.biv (sub - 1)).fkeep + (s.biv (sub - 1)).sslots)
  else r.size

/-- DEVICE_CERT: each certificate behind its length (R582). -/
def State.certBytes (s : State) : List Byte :=
  (Config.certChain Config.deviceKey (s.val SERIAL 0) (s.val PART_CODE 0)).flatMap fun d => Bits.toBytes 4 d.length ++ d

/-- `n` bytes of a BLOB from `off`. -/
def State.readBlob (s : State) (e sub off n : Nat) : List Byte :=
  let k := sub - 1
  if e = MP_MAP then recBytes 4 (fun i => (s.mpEntry k i).toNat) off n
  else if e = QUEUE_STATE then recBytes 1 (s.queueByte k) off n
  else if e = CTX_ROLES then recBytes 2 (fun i => (s.ctx k).roles.getD i 0xFFFF) off n
  else if e = LOAD_REFUSAL then recBytes 4 (s.refusalWord k) off n
  else if e = CENSUS then recBytes 64 (fun i => (Tab.get {} (s.ctx k).census i).toNat) off n
  else if e = LEDGER then recBytes 64 (fun i => ((s.ctx k).ledger.getD i 0).toNat) off n
  else if e = DEADLINES then listBytes (s.deadlineBytes k) off n
  else if e = FAULT_LOG then recBytes 32 (fun i => (s.faults.getD i 0).toNat) off n
  else if e = EVENT_LOG then recBytes 64 (fun i => (s.events.getD i 0).toNat) off n
  else if e = TAINTS then
    recBytes 1154 (fun i => let x := (s.ctx k).taints.getD i (0, 0); x.2 % 2 ^ 9216 + 2 ^ 9216 * (x.1 % 2 ^ 16)) off n
  else if e = VOID_LOG then
    recBytes 17 (fun i => let x := (s.ctx k).voidLog.getD i (0, 0, 0); x.1 % 2 ^ 64 + 2 ^ 64 * (x.2.1 % 2 ^ 64) + 2 ^ 128 * (x.2.2 % 256)) off n
  else if e = CXL_PORT then recBytes 8 (fun i => if i = 0 && s.cxlDown.contains k then 0 else (s.cxl.getD k []).getD i 0) off n
  else if e = GENERATIONS then recBytes 64 (s.genRec k) off n
  else if e = REFILL then recBytes 8 (s.refillWord k) off n
  else if e = LINKCNT then recBytes 8 (s.port k).counter off n
  else if e = ATTEST_REPORT then Tab.getRange 0 s.fw.report off n
  else if e = FW_SLOTS then recBytes 40 (fun i => if i = 0 then s.fw.slot0.toNat else s.fw.slot1.toNat) off n
  else if e = SPARE_SET then recBytes 16 (fun _ => dieMask k s.spares) off n
  else if e = RETIRED then recBytes 16 (fun _ => dieMask k s.retired) off n
  else if e = TESTREAD then s.testRead off n
  else if e = SELFTEST then Tab.getRange 0 s.selftest off n
  else if e = DEVICE_KEY then listBytes Config.deviceKey off n
  else if e = DEVICE_CERT then listBytes s.certBytes off n
  else s.blob e sub off n

/-! ### Requests and answers -/

/-- The largest LEN of a path (R522). -/
def maxLen (p : Path) : Nat := if isHost p then 4064 else 1368

/-- WS-01 or WS-02 of an entry that the Waybill lacks (R538). -/
def missing (e : Nat) : Nat := if Dict.hasEntry e then 0x02 else 0x01

/-- Answer a request that returns data: in the response to its message, or, for a bare command, by a response of its own. -/
def State.reply (s : State) (p : Path) (m : WbMsg) (req : Option (Path × WbMsg × Bool)) (code : Nat) (data : List Byte) : State :=
  let s := { s with answer := code }
  match req with
  | some (p, m, port1) => s.respond p port1 (wbAnswer m code data m.offset)
  | none => s.emit (.response p (wbAnswer m code data m.offset))

/-- READ. -/
def State.readCode (s : State) (e sub : Nat) : Nat × List Byte :=
  match Dict.find e sub with
  | none => (missing e, [])
  | some r =>
    if r.acc = .wo then (0x03, [])
    else if r.ty = .blob then (0x07, [])
    else (0, Bits.toBytes r.bytes (s.readVal e sub))

/-- READ_BLOCK: the bytes, fewer at the end of the BLOB. -/
def State.readBlockCode (s : State) (p : Path) (e sub off len : Nat) : Nat × List Byte :=
  match Dict.find e sub with
  | none => (missing e, [])
  | some r =>
    if len = 0 ∨ maxLen p < len then (0x06, [])
    else if r.acc = .wo then (0x03, [])
    else if r.ty ≠ .blob then (0x07, [])
    else
      let size := s.blobSize r e sub
      if size ≤ off then (0x08, []) else (0, s.readBlob e sub off (min len (size - off)))

/-! ### Writing -/

/-- The first code whose condition holds. -/
def firstCode (l : List (Bool × Nat)) : Option Nat := (l.find? (·.1)).map (·.2)

/-- The function that serves another context (R528). -/
def foreign (p : Path) (r : Dict.Row) (e sub : Nat) : Bool :=
  match p with
  | .host fn => fn.val != 0 && r.ctxOf e sub != some fn.val
  | .ring _ => false

/-- What refuses a write before its value is looked at; `shape` is the refusal of its length, type or place. -/
def State.accessBad (s : State) (p : Path) (r : Dict.Row) (e sub : Nat) (shape : Option Nat) : Option Nat :=
  firstCode [(r.acc == .ro, 0x03), (shape.isSome, shape.getD 0), (foreign p r e sub, 0x09), (r.acc == .rws && !s.service_, 0x04)]

/-- A write of the entry `e` with value `v` that has passed its checks.  A command entry does nothing unless 1 is written to it. -/
def State.doWrite (s : State) (e sub v : Nat) (env : Env) (req : Option (Path × WbMsg × Bool)) : State :=
  let k := sub - 1
  let go (t : State) : State := if v = 1 then t else s.answerTo req 0
  if e = PITCH then s.goPitch v req
  else if e = MAP_PRESENT then s.goMapPresent k v req
  else if e = CTX_OPEN_GO then go (s.goOpen k env req)
  else if e = LOAD_GO then go (s.goLoad k env req)
  else if e = START_GO then go (s.goStart k req)
  else if e = SAVE_GO then go (s.goSave k req)
  else if e = RESUME_GO then go (s.goResume k req)
  else if e = TEARDOWN_GO then go (s.goTear k req)
  else if e = ABORT_GO ∧ sub = 3 then go (s.goAbort req)
  else if e = SHARE_GO ∧ sub = 3 then go (s.goShare req)
  else if e = POST_REARM then s.goRearm k v req
  else if e = STEP_GROUP then s.goStepGroup k v req
  else if e = PLACE_GO then go (s.goPlace k req)
  else if e = PORT_CFG then s.goPortCfg k v req
  else if e = BYPASS_FORCE then s.goBypassForce v req
  else if e = ROUTE_GO then go (s.goRoute req)
  else if e = INGEST_GO then go (s.goIngest k env.catalog req)
  else if e = PAIR_GO then go (s.goPair k env req)
  else if e = RESTORE_GO then go (s.goRestore k env req)
  else if e = SALVAGE_GO then go (s.goSalvage req)
  else if e = ACT_TAG then s.goActTag v req
  else if e = START_TAG then State.answerTo { s with fw := { s.fw with startTag := v } } req 0
  else if e = RESTART_GO then go (s.goRestart env.start req)
  else if e = SH_ENTER then go (s.goShEnter req)
  else if e = SH_EXIT then go (s.goShExit env.start req)
  else if e = ATTEST_NONCE then s.goAttest v req
  else
    let s := s.putVal e sub v
    let code := s.written e sub
    -- TAP_ENABLE 0 ends what EXTEST and its kin drive outside reset (R605)
    let s : State := if e = TAP_ENABLE ∧ v = 0 then { s with tap := s.tap.release } else s
    (if e = SLOT_BYTES then s.startIngest k else s).answerTo req code

/-- The checks of a write of `data` at `off` of the entry that row `r` describes, in their order. -/
def State.writeBad (s : State) (p : Path) (r : Dict.Row) (e sub off : Nat) (data : List Byte) (env : Env) : Option Nat :=
  let v := Bits.ofBytes data
  let shape := if r.ty = .blob ∨ data.length ≠ r.bytes then some 0x07 else if off ≠ 0 then some 0x08 else none
  (s.accessBad p r e sub shape).or <| (firstCode [(e == REDUNDANCY && v == 2 && !s.service_, 0x04)]).or <|
    (s.valueBad r e sub v).or <| (s.stateRefused r e sub).or (firstCode [(r.ground && !env.flashOk, 0x0D)])

/-- WRITE, and an item of a transaction that names no BLOB. -/
def State.goWrite (s : State) (p : Path) (e sub off : Nat) (data : List Byte) (env : Env) (req : Option (Path × WbMsg × Bool)) : State :=
  match Dict.find e sub with
  | none => s.answerTo req (missing e)
  | some r =>
    match s.writeBad p r e sub off data env with
    | some c => s.answerTo req c
    | none => s.doWrite e sub (Bits.ofBytes data) env req

/-! ### Transactions (R526) -/

/-- Entry, sub-entry, offset, bytes. -/
abbrev TxnItem := Nat × Nat × Nat × List Byte

/-- The bytes that the items of one BLOB give in order, from its start. -/
def assemble (items : List TxnItem) (e sub : Nat) : List Byte :=
  (items.filter fun i => i.1 == e && i.2.1 == sub).foldl (fun acc i => if i.2.2.1 = acc.length then acc ++ i.2.2.2 else acc.take i.2.2.1 ++ i.2.2.2) []

/-- The checks of an item into a BLOB; the firmware rules refuse an OWNER_KEY of another length (R578). -/
def State.blobBad (s : State) (p : Path) (r : Dict.Row) (i : TxnItem) (env : Env) : Option Nat :=
  let (e, sub, off, data) := i
  let shape := if r.size < off + data.length ∧ e ≠ OWNER_KEY then some 0x08 else none
  (s.accessBad p r e sub shape).or <| (s.stateRefused r e sub).or <|
    firstCode [(e == SEAL_KEYS && s.fw.lock, 0x10), (r.ground && !env.flashOk, 0x0D)]

/-- An item into a BLOB: its bytes stand in the working state.  OWNER_TOKEN and OWNER_KEY act whole, at the end. -/
def State.blobItem (s : State) (p : Path) (r : Dict.Row) (i : TxnItem) (env : Env) : State × Nat :=
  let (e, sub, off, data) := i
  match s.blobBad p r i env with
  | some c => (s, c)
  | none => if e = OWNER_TOKEN ∨ e = OWNER_KEY then (s, 0) else (s.setBlob e sub off data, 0)

def State.txnItem (s : State) (p : Path) (i : TxnItem) (env : Env) : State × Nat :=
  match Dict.find i.1 i.2.1 with
  | none => (s, missing i.1)
  | some r =>
    if r.ty = .blob then s.blobItem p r i env
    else
      let s := State.goWrite { s with answer := 0 } p i.1 i.2.1 i.2.2.1 i.2.2.2 env none
      (s, s.answer)

/-- A code of a write that is done. -/
def taken (code : Nat) : Bool := code == 0 || code == 0x0E

/-- The items in order: the state, the code so far, and how many have been taken. -/
def State.txnItems (s : State) (p : Path) (env : Env) : List TxnItem → Nat → Nat → State × Nat × Nat
  | [], code, n => (s, code, n)
  | i :: t, code, n =>
    let (s, c) := s.txnItem p i env
    if taken c then s.txnItems p env t (if c = 0 then code else c) (n + 1) else (s, c, n)

/-- The BLOBs that items name, each with the index of its first item. -/
def blobsOf (items : List TxnItem) : List (Nat × Nat × Nat) :=
  (items.zipIdx.foldl (fun (acc : List (Nat × Nat × Nat)) (i, n) =>
    match Dict.find i.1 i.2.1 with
    | some r => if r.ty = .blob && !(acc.any fun b => b.1 == i.1 && b.2.1 == i.2.1) then acc ++ [(i.1, i.2.1, n)] else acc
    | none => acc) [])

/-- The end of one BLOB's items. -/
def State.blobEnd (s old : State) (items : List TxnItem) (e sub : Nat) (env : Env) : State × Nat :=
  if e = OWNER_TOKEN then let s := s.goToken (assemble items e sub) env none; (s, s.answer)
  else if e = OWNER_KEY then let s := s.goOwnerKey (assemble items e sub) none; (s, s.answer)
  else
    let s := s.tableMoves old e sub
    match s.tableBad old e sub with
    | some c => (s, c)
    | none =>
      let hi := ((items.filter fun i => i.1 == e && i.2.1 == sub).map fun i => i.2.2.1 + i.2.2.2.length).max?.getD 0
      (s.tableTaken old e sub hi, 0)

/-- The first item of a BLOB after which its table is refused, as the items are taken in order. -/
def State.badAt (w old : State) (e sub : Nat) : List (TxnItem × Nat) → Option Nat
  | [] => none
  | (i, n) :: t =>
    if i.1 = e ∧ i.2.1 = sub then
      let w := (w.setBlob e sub i.2.2.1 i.2.2.2).tableMoves old e sub
      if (w.tableBad old e sub).isSome then some n else w.badAt old e sub t
    else w.badAt old e sub t

def State.blobEnds (s old : State) (items : List TxnItem) (env : Env) : List (Nat × Nat × Nat) → State × Option (Nat × Nat)
  | [] => (s, none)
  | (e, sub, n) :: t =>
    let (s, c) := s.blobEnd old items e sub env
    if taken c then s.blobEnds old items env t else (s, some (c, (old.badAt old e sub items.zipIdx).getD n))

/-- The check of an item as the transaction finds the part. -/
def State.itemCheck (s : State) (p : Path) (i : TxnItem) (env : Env) : Option Nat :=
  match Dict.find i.1 i.2.1 with
  | none => some (missing i.1)
  | some r => if r.ty = .blob then s.blobBad p r i env else s.writeBad p r i.1 i.2.1 i.2.2.1 i.2.2.2 env

/-- A transaction's BLOBs with all their items in them, and what refuses each, with the index of the item that does. -/
def State.tablesBad (s : State) (items : List TxnItem) : List (Nat × Nat) :=
  let w := items.foldl (fun (w : State) i => if i.1 = OWNER_TOKEN ∨ i.1 = OWNER_KEY then w else match Dict.find i.1 i.2.1 with
    | some r => if r.ty = .blob then w.setBlob i.1 i.2.1 i.2.2.1 i.2.2.2 else w
    | none => w) s
  (blobsOf items).filterMap fun (e, sub, n) =>
    if e = OWNER_TOKEN ∨ e = OWNER_KEY then none
    else ((w.tableMoves s e sub).tableBad s e sub).map fun c => (c, (s.badAt s e sub items.zipIdx).getD n)

/-- The first item of a transaction that a check refuses before any is applied, with its code (R526).  What a command among the items itself answers
shows as the items are applied. -/
def State.txnBad (s : State) (p : Path) (items : List TxnItem) (env : Env) : Option (Nat × Nat) :=
  let bad := items.zipIdx.filterMap fun (i, n) => (s.itemCheck p i env).map fun c => (c, n)
  let bad := bad ++ if bad.isEmpty then s.tablesBad items else (s.tablesBad ((items.take ((bad.head?.map (·.2)).getD 0))))
  bad.foldl (fun (m : Option (Nat × Nat)) b => match m with
    | some a => if b.2 < a.2 then some b else m
    | none => some b) none

/-- What a refused transaction leaves: the status of a firmware refusal, and the record of a refused package (R188, R547). -/
def State.refusedTxn (s w : State) (code : Nat) (entry sub : Nat) : State :=
  if code = 0x10 then s.fwRefuse (if entry = SEAL_KEYS then 0x0A else w.fw.status) entry
  else if code = 0x2A then s.updCtx (sub - 1) fun c => { c with refused := (w.ctx (sub - 1)).refused }
  else s

/-- Give the last element of a list that meets `p` another value. -/
def updLast {α : Type} (p : α → Bool) (f : α → α) : List α → List α
  | [] => []
  | x :: t => if p x && !t.any p then f x :: t else x :: updLast p f t

/-- The answer of a transaction: with a command that waits among its items, when that command completes (R545). -/
def State.answerTxn (s old : State) (req : Option (Path × WbMsg × Bool)) (code : Nat) : State :=
  let new (l : Late) : Bool := l.req.isNone && !old.late.contains l
  if s.late.any new && req.isSome then { s with late := updLast new (fun l => { l with req := req }) s.late }
  else s.answerTo req code

/-- Check every item and apply them in order, or none of them. -/
def State.applyTxn (s : State) (p : Path) (items : List TxnItem) (env : Env) (req : Option (Path × WbMsg × Bool)) : State :=
  let fail (w : State) (code n : Nat) : State :=
    let i := items.getD n (0, 0, 0, [])
    let s := { s.refusedTxn w code i.1 i.2.1 with answer := code }
    match req with
    | some (p, m, port1) => s.respond p port1 (wbAnswer m code [] n)
    | none => s
  match s.txnBad p items env with
  | some (c, n) => fail s c n
  | none =>
  let (w, code, n) := s.txnItems p env items 0 0
  if taken code = false then fail w code n
  else
    match w.blobEnds s items env (blobsOf items) with
    | (w, some (c, n)) => fail w c n
    | (w, none) => w.answerTxn s req code

/-- Bytes of a stage. -/
def stageBytes (l : List TxnItem) : Nat := (l.map fun i => i.2.2.2.length).sum

/-- A stage ends by itself: its path keeps its place (R525). -/
def State.dropStage (s : State) (p : Path) : State := { s with paths := s.paths.map fun x => if x.path = p then { x with stage := none } else x }

def State.setStage (s : State) (p : Path) (st : Option (List TxnItem)) : State := s.updPath p fun x => { x with stage := st }

/-- WRITE_BLOCK with its FIRST and LAST. -/
def State.goBlock (s : State) (p : Path) (first last : Bool) (i : TxnItem) (env : Env) (req : Option (Path × WbMsg × Bool)) : State :=
  match (if first then some [] else (s.pathSt p).bind (·.stage)) with
  | none => s.answerTo req 0x0A
  | some l =>
    let l := l ++ [i]
    if 16777216 < stageBytes l then (s.setStage p none).answerTo req 0x0B
    else if last then (s.setStage p none).applyTxn p l env req
    else (s.setStage p (some l)).answerTo req 0

/-! ### The bare operations -/

/-- A path brings requests: a function of the host link only while it is enabled (R12, R510), the ring always. -/
def State.pathOpen (s : State) : Path → Bool
  | .host fn => s.fnEnabled fn.val
  | .ring _ => true

/-- A bare operation of a path that brings requests. -/
def onPath (p : Path) (s : State) (f : State → State) : Host.Outcome State Fault Refusal := whenUp s fun s => if s.pathOpen p then f s else s

def execWbRead (p : Path) (entry sub : Nat) (s : State) : Host.Outcome State Fault Refusal :=
  onPath p s fun s =>
    let (c, d) := s.readCode entry sub
    s.reply p { op := 1, entry := entry, sub := sub } none c d

def execWbReadBlock (p : Path) (entry sub offset reqlen : Nat) (s : State) : Host.Outcome State Fault Refusal :=
  onPath p s fun s =>
    let (c, d) := s.readBlockCode p entry sub offset reqlen
    s.reply p { op := 3, entry := entry, sub := sub, offset := offset, reqlen := reqlen } none c d

def execWbWrite (p : Path) (entry sub : Nat) (data : List Byte) (e : Env) (s : State) : Host.Outcome State Fault Refusal :=
  onPath p s fun s => s.goWrite p entry sub 0 data e none

def execWbTxnOpen (p : Path) (entry sub offset : Nat) (data : List Byte) (s : State) : Host.Outcome State Fault Refusal :=
  onPath p s fun s => s.goBlock p true false (entry, sub, offset, data) {} none

def execWbWriteBlock (p : Path) (entry sub offset : Nat) (data : List Byte) (s : State) : Host.Outcome State Fault Refusal :=
  onPath p s fun s => s.goBlock p false false (entry, sub, offset, data) {} none

def execWbTxnApply (p : Path) (entry sub offset : Nat) (data : List Byte) (e : Env) (s : State) : Host.Outcome State Fault Refusal :=
  onPath p s fun s => s.goBlock p false true (entry, sub, offset, data) e none

/-- WB_TXN_TIMEOUT: a stage without a message for 10 s is discarded. -/
def execWbTxnTimeout (p : Path) (s : State) : Host.Outcome State Fault Refusal :=
  whenUp s fun s => if ((s.pathSt p).bind (·.stage)).isSome then s.dropStage p else s

end Sys2Proof.Machine
end

