-- ==== Sys2Proof/Machine/Wire.lean ====
section
/-!
DEFINITION. The bytes of Forlar's own frames and messages, little-endian (R4): Caravan messages (Tables 11-3 and 11-4, R374, R375), Drawbar
frames (Table 15-4, R492) and Waybill messages (Table 16-6, R522).  The commands carry them as records; here is how each lies on its link.
-/

namespace Sys2Proof

/-! ### Caravan messages -/

/-- Groups, entries or blocks of a payload: NENT. -/
def CPayload.nent : CPayload → Nat
  | .groups gs _ => gs.length
  | .sparse es => es.length
  | .bits bs => bs.length
  | .radd es => es.length
  | _ => 0

/-- The header of Table 11-3, 512 bits. -/
def CHdr.bits (h : CHdr) (len nent : Nat) : Nat :=
  Bits.pack [(4, h.mtype), (2, h.form), (1, Bits.ofBool h.stamp), (1, Bits.ofBool h.bmap), (5, h.restarts), (1, Bits.ofBool h.endB), (2, 0)
    , (14, len), (2, 0), (12, h.sender), (12, h.origin), (8, h.group), (16, h.oprec), (16, h.seg), (16, h.job), (16, h.run), (64, h.epoch)
    , (32, h.pgen), (32, h.offset), (16, nent), (16, 0), (32, h.sumw)]

/-- NSPILL of a transport group: its spill entries in the message (R375). -/
def WGroup.nspill (g : WGroup) : Nat :=
  if g.words.isEmpty then 0 else ((List.range 64).filter fun j => Bits.bit g.state.toNat (4 * j + 3)).length

/-- A transport group record: Table 2-11 with RAISE in bit 288 and SPFULL in bit 289 (R375). -/
def WGroup.bits (g : WGroup) : Nat :=
  Bits.pack [(256, g.state.toNat), (16, Bits.wrap g.anchor 16), (16, g.nspill), (1, Bits.ofBool g.raise), (1, Bits.ofBool g.spfull)]

/-- A group as it lies in a payload: its record and its words. -/
def WGroup.bytes (g : WGroup) : List Byte := Bits.toBytes 64 g.bits ++ g.words.flatMap fun w => Bits.toBytes 16 w.toNat

/-- The code of a vote in byte 0 of VOTE and VERDICT. -/
def Vote.code : Vote → Nat
  | .accept => 0
  | .reject => 1
  | .squash => 2

/-- The payload bytes of Table 11-4. -/
def CPayload.bytes : CPayload → List Byte
  | .empty => []
  | .groups gs spill => gs.flatMap WGroup.bytes ++ spill.flatMap fun x => Bits.toBytes 96 x.toNat
  | .sparse es => es.flatMap fun e => Bits.toBytes 4 e.1 ++ Bits.toBytes 96 e.2.toNat
  | .bits bs => bs.flatMap fun b => Bits.toBytes 4 b.1.toNat ++ Bits.toBytes 16 b.2.toNat
  | .radd es => es.flatMap fun e => Bits.toBytes 8 e.1 ++ Bits.toBytes 96 e.2.toNat
  | .raw b => b
  | .vote v x => Bits.toBytes 16 (Bits.pack [(8, v.code), (8, Bits.ofBool x)])
  | .verdict v x run pgen place =>
    Bits.toBytes 16 (Bits.pack [(8, v.code), (8, Bits.ofBool x), (16, run), (32, pgen), (8, Bits.ofBool place)])
  | .refusal .. => []

/-- A whole message: header, payload, and with BMAP the two bitmaps (R374). -/
def CMsg.bytes (m : CMsg) : List Byte :=
  Bits.toBytes 64 (m.hdr.bits m.payload.bytes.length m.payload.nent) ++ m.payload.bytes
    ++ (if m.hdr.bmap then Bits.toBytes 512 m.contrib.toNat ++ Bits.toBytes 512 m.taint.toNat else [])

/-! ### Drawbar frames -/

/-- The header of Table 15-4, 128 bits. -/
def DFrame.bits (f : DFrame) : Nat :=
  Bits.pack [(16, 0), (16, f.dst), (16, f.src), (2, f.kind), (4, f.vc), (4, f.hops), (14, f.len), (4, 0), (4, f.cvc), (16, f.cred), (16, f.seq)
    , (16, f.ackseq)]

/-- One bit of the CRC-32C register, least significant bit first: 0x82F6_3B78 is the polynomial 0x1EDC_6F41 in that order. -/
def crcBit (c : BitVec 32) : BitVec 32 := if c.getLsbD 0 then c >>> 1 ^^^ 0x82F63B78 else c >>> 1

/-- CRC-32C of bytes, with the initial value, bit order and final complement of the published code of that name (PRESUMED, log entry 106). -/
def crc32c (bs : List Byte) : BitVec 32 :=
  ~~~(bs.foldl (fun c b => (List.range 8).foldl (fun c _ => crcBit c) (c ^^^ b.setWidth 32)) 0xFFFFFFFF)

/-- The body of a frame: none unless KIND is 0. -/
def DFrame.bodyBytes (f : DFrame) : List Byte :=
  if f.kind ≠ 0 then []
  else match f.training with
    | some t => Machine.trainBytes t
    | none => f.body.bytes

/-- The frame: header, body padded to 16 bytes, and the trailer (R492). -/
def DFrame.bytes (f : DFrame) : List Byte :=
  let body := f.bodyBytes
  let front := Bits.toBytes 16 f.bits ++ body ++ List.replicate ((16 - body.length % 16) % 16) 0
  front ++ Bits.toBytes 16 (crc32c front).toNat

/-! ### Waybill messages -/

/-- The header of Table 16-6, 256 bits; what the reserved fields hold, in order from the lowest, stands in `reserved`. -/
def WbMsg.bits (m : WbMsg) : Nat :=
  let r := m.reserved
  Bits.pack [(8, m.ver), (7, m.op), (1, Bits.ofBool m.resp), (1, Bits.ofBool m.first), (1, Bits.ofBool m.last), (6, r), (8, m.status), (32, m.seq)
    , (16, m.entry), (8, m.sub), (8, r / 2 ^ 6), (16, m.data.length), (8, m.hops), (8, r / 2 ^ 14), (64, m.offset), (32, m.reqlen)
    , (32, r / 2 ^ 22)]

/-- The message: header and data (R522). -/
def WbMsg.bytes (m : WbMsg) : List Byte := Bits.toBytes 32 m.bits ++ m.data

end Sys2Proof
end

