-- ==== Sys2Proof/Machine/HostLink.lean ====
section
/-!
DEFINITION. What reaches the part over the host link and the management ring (R258 to R261, R510 to R526).
-/

namespace Sys2Proof.Machine

open Sys2Proof.WB

/-! ### Requests -/

/-- A request that is answered WS-06 (R522 to R524, Table 16-6). -/
def msgBad (p : Path) (m : WbMsg) : Bool :=
  m.ver != 1 || !between 1 4 m.op || m.reserved != 0 || m.status != 0 || decide (maxLen p < m.data.length) || (m.op != 3 && m.reqlen != 0)

/-- A request of the path whose answer waits. -/
def State.waitingReq (s : State) (p : Path) : Option Nat :=
  s.late.findSome? fun l => match l.req with
    | some (q, m, _) => if q = p then some m.seq else none
    | none => none

/-- The operation of a well-formed request. -/
def State.serve (s : State) (p : Path) (port1 : Bool) (m : WbMsg) (e : Env) : State :=
  let req := some (p, m, port1)
  match m.op with
  | 1 =>
    let (c, d) := s.readCode m.entry m.sub
    s.reply p m req c d
  | 2 => s.goWrite p m.entry m.sub 0 m.data e req
  | 3 =>
    let (c, d) := s.readBlockCode p m.entry m.sub m.offset m.reqlen
    s.reply p m req c d
  | _ => s.goBlock p m.first m.last (m.entry, m.sub, m.offset, m.data) e req

/-- A Waybill message reaches the device: a response is discarded, a repeat of the kept SEQ gets the kept response, a repeat of a request
whose answer waits gets nothing yet (R523, R525). -/
def State.receive (s : State) (p : Path) (port1 : Bool) (m : WbMsg) (e : Env) : State :=
  if m.resp || s.waitingReq p == some m.seq then s
  else
    match s.pathSt p with
    | some x =>
      if x.seq = some m.seq then s.respond p port1 x.resp
      else if msgBad p m then s.answerTo (some (p, m, port1)) 0x06 else s.serve p port1 m e
    | none => if msgBad p m then s.answerTo (some (p, m, port1)) 0x06 else s.serve p port1 m e

/-- WB_GO: the message that stands in the request window, when WB_GO names its SEQ and no request of the function is executing (R513). -/
def execWbGo (fn : CtxId) (seq : Nat) (m : WbMsg) (e : Env) (s : State) : Host.Outcome State Fault Refusal :=
  whenUp s fun s =>
    if !s.fnEnabled fn.val then s
    else
      let s : State := { s with reqWin := Tab.set [] s.reqWin fn.val m.bytes }
      if (s.waitingReq (.host fn)).isSome || seq % 2 ^ 32 != m.seq then s else s.receive (.host fn) false m e

/-! ### The ring -/

def broadcastMac : Nat := 0xFFFFFFFFFFFF

/-- Forward a frame by the other port with HOPS lowered by one (R520). -/
def State.forward (s : State) (port1 : Bool) (f : MgFrame) : State :=
  if f.msg.hops = 0 then s else s.emit (.ring (!port1) { f with msg := { f.msg with hops := f.msg.hops - 1 } })

/-- The relay that joins MG0 to MG1 is closed: the module is unpowered or in reset, where a start that finds no slot leaves it too (R519, R577). -/
def State.relayClosed (s : State) : Bool := s.phase != .running

/-- MG_FRAME_RECEIVE: a frame is discarded, executed, forwarded, or both (R518, R520); through the closed relay it passes to the other port
as it is (R519). -/
def execMgFrameReceive (port1 : Bool) (f : MgFrame) (e : Env) (s : State) : Host.Outcome State Fault Refusal :=
  if s.relayClosed then .next (s.emit (.ring (!port1) f))
  else whenUp s fun s =>
    let mac := s.val MG_MAC 0
    if f.ethertype ≠ 0x88B5 ∨ f.src = mac then s
    else if f.dst = mac then s.receive (.ring f.src) port1 f.msg e
    else if f.dst = broadcastMac then (s.forward port1 f).receive (.ring f.src) port1 f.msg e
    else s.forward port1 f

/-! ### The host Milepost window (R258 to R261) -/

/-- STATE of Tables 7-1 and 7-5. -/
def PmpState.code : PmpState → Nat
  | .free => 0
  | .live => 1
  | .frozen => 2
  | .poisoned => 3

/-- The physical Mileposts on which a queue waits: of the context-local numbers that its WAIT, WAITMIN or TAKE names (Table 6-6, Table 6-7). -/
def State.waitsOn (s : State) (q : QRef) : List Nat :=
  let x := s.queue q
  let pmpOf (mp : Nat) : Nat := (s.mpEntry (s.ctxOf q) mp).pmp
  match x.wait, x.fetch with
  | some .milepost, some w =>
    (List.range (if Bits.fld w 8 3 * 256 + Bits.fld w 0 8 = 0x009 then waitMany w else 1)).map fun i => pmpOf (Bits.fld w 32 13 + i)
  | some .take, some w => [pmpOf (Bits.fld w 54 13)]
  | _, _ => []

/-- The physical Mileposts on which prefetches of a core, and the GIVEs held on them, await confirmation (R291 to R293). -/
def State.prefsOn (s : State) (c : Nat) : List Nat :=
  ((s.core c).prefSlots fun r => !r.reached).filterMap fun e => e.2.run.map fun r => (s.mpEntry ((s.core c).ctx.getD 0) r.mp).pmp

/-- The evaluation pins of some context await pmp `n` as their EVAL_DONE_MP (R332). -/
def State.pinsOn (s : State) (n : Nat) : Bool :=
  (List.range 16).any fun k =>
    let e := s.mpEntry (s.val EVAL_CTX (k + 1)) (s.val EVAL_DONE_MP (k + 1))
    ((s.ctx k).pins.any fun p => p.eval) && e.valid && e.pmp == n

/-- SUBS of Table 7-1: bit `d` is set where a queue or a prefetch of Tensor die `d` has a wait pending on pmp `n`, and bit 8, H0, where an evaluation
pin has (which Hub die releases a pin: DESIGN CHOICE, log entry 123). -/
def State.subs (s : State) (n : Nat) : Nat :=
  ((List.range 8).filter fun d => s.cores.any fun c => coreDie c.1 == d && ((s.prefsOn c.1).contains n || (if h : c.1 < 704 then
    allQueues.any fun q => (s.waitsOn ⟨⟨c.1, h⟩, q⟩).contains n else false))).foldl (fun t d => t + 2 ^ d) 0
    + 2 ^ 8 * Bits.ofBool (s.pinsOn n)

/-- The 64-byte object of a physical Milepost (R233, Table 7-1). -/
def State.pmpObject (s : State) (n : Nat) : Nat :=
  let p := s.pmp n
  Bits.pack [(64, p.cval), (64, p.pend0), (64, p.pend1), (2, p.st.code), (1, Bits.ofBool p.spec), (4, p.owner), (10, s.subs n)]

/-- The status word of entry `n` of a function's window (Table 7-5); an unmapped entry reads STATE 00. -/
def State.windowStatus (s : State) (k n : Nat) : Nat :=
  let e := s.mpEntry k n
  Bits.ofBool e.valid + 2 * Bits.ofBool e.hostw + 4 * Bits.ofBool e.hostp + 8 * Bits.ofBool e.shared
    + (if e.valid then 64 * (s.pmp e.pmp).st.code else 0)

/-- The 16 bytes of entry `n`: CVAL of the mapped Milepost or zero, and the status word (R258, R259). -/
def State.windowEntry (s : State) (k n : Nat) : List Byte :=
  let e := s.mpEntry k n
  Bits.toBytes 8 (if e.valid then (s.pmp e.pmp).cval else 0) ++ Bits.toBytes 8 (s.windowStatus k n)

/-- What a host read of the window of function `k` returns: `len` bytes at `offset`; none while the function is not enabled (R510).  A read
changes nothing, so the opcode table has no row for it. -/
def State.windowRead (s : State) (k offset len : Nat) : Option (List Byte) :=
  if s.fnEnabled k then some ((List.range len).map fun i => ((s.windowEntry k ((offset + i) / 16)).getD ((offset + i) % 16) 0)) else none

/-- The code with which a window write is refused, the first that applies. -/
def State.windowRefused (s : State) (k offset len : Nat) : Option Nat :=
  let e := s.mpEntry k (offset / 16)
  let st := (s.pmp e.pmp).st
  if offset % 16 ≠ 0 ∨ len ≠ 8 then some 0x23
  else if !e.valid || !e.hostw then some 0x20
  else if (s.ctx k).st = .saved ∨ st = .frozen then some 0x21
  else if (s.ctx k).st = .draining ∨ st ≠ .live then some 0x22
  else none

/-- An accepted write raises CVAL to the larger of CVAL and the written value (R260). -/
def State.windowWrite (s : State) (k offset v : Nat) : State :=
  let n := (s.mpEntry k (offset / 16)).pmp
  let p := s.pmp n
  if p.cval < v then ((s.setPmp n { p with cval := v }).cvalChanged n).after k else s

/-! ### Reads of the base address regions (R512, R563)

A read changes nothing, so the opcode table has no row for it. -/

/-- The bytes of a window that holds `l`, from `off` on, zeros behind them. -/
def windowBytes (l : List Byte) (off len : Nat) : List Byte := (List.range len).map fun i => l.getD (off + i) 0

/-- The firmware block control region (Table 18-4); FB_GO is written only. -/
def State.fbControl (s : State) : List Byte :=
  let f := s.fw
  let b := Bits.toBytes 8
  b f.fbOffset ++ b f.fbLen ++ b 0 ++ b f.fbDone ++ b (f.fbCode % 256) ++ b (f.have_.length % 2 ^ 32 + 2 ^ 32 * (f.blocks % 2 ^ 32))

/-- The records of a mailbox in their slots. -/
def Mailbox.bytes (m : Mailbox) (off len : Nat) : List Byte :=
  (List.range len).map fun i => BitVec.ofNat 8 ((Tab.get 0 m.recs ((off + i) / 64)).toNat / 2 ^ (8 * ((off + i) % 64)))

/-- `len` bytes of BAR0, or of BAR2, of function `fn` (Table 16-3): what it does not list, and what is only written, reads as zero; so do a VF's firmware
regions.  None while the function is not enabled (R510). -/
def State.barRead (s : State) (fn : CtxId) (bar2 : Bool) (off len : Nat) : Option (List Byte) :=
  let m := s.mailbox fn.val
  let resp := ((s.pathSt (.host fn)).filter fun x => x.seq.isSome).map (·.resp)
  let byte (o : Nat) : Byte :=
    if bar2 then
      if 0x10000 ≤ o ∧ o < 0x11000 then (if fn.val = 0 then s.fbControl.getD (o - 0x10000) 0 else 0)
      else if 0x20000 ≤ o ∧ o < 0x30000 then (m.bytes (o - 0x20000) 1).headD 0
      else if 0x30000 ≤ o ∧ o < 0x30018 then (Bits.toBytes 8 m.prod ++ Bits.toBytes 8 m.cons ++ Bits.toBytes 8 m.lost).getD (o - 0x30000) 0
      else 0
    else if o < 0x1000 then (Tab.get [] s.reqWin fn.val).getD o 0
    else if o < 0x2000 then ((resp.map WbMsg.bytes).getD []).getD (o - 0x1000) 0
    else if 0x2008 ≤ o ∧ o < 0x2010 then (Bits.toBytes 8 ((resp.map (·.seq)).getD 0)).getD (o - 0x2008) 0
    else if 0x20000 ≤ o ∧ o < 0x40000 then ((s.windowRead fn.val (o - 0x20000) 1).getD []).headD 0
    else 0
  if s.fnEnabled fn.val then some ((List.range len).map fun i => byte (off + i)) else none

/-- HOST_MP_WINDOW_WRITE: accepted, or counted in WIN_REFUSED and reported. -/
def execHostMpWindowWrite (fn : CtxId) (offset : Fin 131072) (data : List Byte) (s : State) : Host.Outcome State Fault Refusal :=
  whenUp s fun s =>
    if s.fnEnabled fn.val then
      match s.windowRefused fn.val offset.val data.length with
      | none => s.windowWrite fn.val offset.val (Bits.ofBytes data)
      | some c => (s.count WIN_REFUSED (fn.val + 1) 1).event 0x0003 (some fn.val) 8 (evData2 offset.val c)
    else s

/-! ### The event mailbox (R516) -/

/-- EV_CONS: discarded when the value is below EV_CONS or above EV_PROD. -/
def execEvConsWrite (fn : CtxId) (v : W64) (s : State) : Host.Outcome State Fault Refusal :=
  whenUp s fun s =>
    let m := s.mailbox fn.val
    if s.fnEnabled fn.val && decide (m.cons ≤ v.toNat) && decide (v.toNat ≤ m.prod) then
      { s with mailboxes := Tab.set {} s.mailboxes fn.val { m with cons := v.toNat } }
    else s

end Sys2Proof.Machine
end

