-- ==== Sys2Proof/Machine/Tap.lean ====
section
/-!
DEFINITION. The test access port (R604 to R608, Table 19-5).
-/

namespace Sys2Proof.Machine

open Sys2Proof.WB

/-- The TAP has power: the standby rail, which is present while the input is in range (R615). -/
def State.tapUp (s : State) : Bool := s.phase != .off || s.standby

/-- The part is in reset; a start that finds no slot to run stays there (R577). -/
def State.isReset (s : State) : Bool := s.phase == .inReset || s.phase == .stuck

/-! ### Boundary cells (R606)

The order of the cells is the model's (log entry 6): the straps, the PRESENT_N loop's two pins and the reset input, then the lanes of the host link, of C0
to C3 and of E0 and E1, transmit before receive, then the pairs of MG0 and MG1. -/

/-- Cells under IEEE 1149.1: MGR_SEL, BOOT_SAFE, SLOT_ID, PRESENT_N_A, PRESENT_N_B, MOD_RESET_N. -/
def strapCells : Nat := 11

/-- Cells of lanes under IEEE 1149.6. -/
def laneCells : Nat := 8 + 4 * 32 + 2 * 16 + 2

def cellCount : Nat := strapCells + laneCells

/-- The boundary register after `l` has been shifted in, the first bit of it first. -/
def Tap.shift (t : Tap) (l : List Bool) : List Bool :=
  let old := if t.cells.isEmpty then List.replicate cellCount false else t.cells
  (old ++ l).drop (old.length + l.length - cellCount)

/-- What the cells capture: the straps as they stood at the last start, the closed loop low, the reset input low while it is held, and of the lanes a free
value. -/
def State.pinLevels (s : State) : List Bool :=
  [s.mgrSel, s.bootSafe] ++ (List.range 6).map (Nat.testBit s.slotId) ++ [s.phase == .off, s.phase == .off, !s.resetHeld]
    ++ (List.range laneCells).map fun i => Config.laneLevel (s.freeCount + i)

/-! ### Output pins (Table 20-4, R615, R620) -/

inductive OutPin where
  | tdo | hlTx | ethTx | cxlTx | cxlRefclk | cxlPerst | mg
deriving DecidableEq, Repr

inductive OutLevel where
  | highZ | low | high | electricalIdle | transmitterOff | stopped | bypass | driven
deriving DecidableEq, Repr

/-- The level of an output pin: unpowered, in reset, and once a start has reached step 7, which every running part has. -/
def State.outLevel (s : State) (p : OutPin) : OutLevel :=
  if s.phase = .running then (match p with
    | .cxlPerst => .high
    | .ethTx => if s.ethUp then .driven else .transmitterOff
    | _ => .driven)
  else match p with
    | .tdo => if s.tapUp then .driven else .highZ
    | .hlTx => if s.tapUp then .electricalIdle else .highZ
    | .ethTx => if s.tapUp then .transmitterOff else .highZ
    | .cxlTx => if s.tapUp then .electricalIdle else .highZ
    | .cxlRefclk => if s.tapUp then .stopped else .highZ
    | .cxlPerst => .low
    | .mg => .bypass

/-- EXTEST and its kin are available: in reset, and in Safe Hold with TAP_ENABLE 1. -/
def State.extestOk (s : State) : Bool := s.isReset || (s.phase == .running && s.safeHold && s.val TAP_ENABLE 0 == 1)

/-- DIE_SELECT and INT_SCAN are available: in reset, and in Safe Hold or Service mode with TAP_ENABLE 1. -/
def State.dieSelectOk (s : State) : Bool := s.isReset || (s.phase == .running && s.service_ && s.val TAP_ENABLE 0 == 1)

/-- An instruction of code `ir` that lets go of the pins. -/
def Tap.load (t : Tap) (ir : BitVec 8) : Tap := { t with ir := ir, driven := [], highz := false }

/-- The one-bit bypass register stands between TDI and TDO, and captures 0. -/
def Tap.bypass (t : Tap) (ir : BitVec 8) : Tap := { t.load ir with bypassBit := false, tdo := 0 }

/-- A TAP instruction: its effect where it is available, else BYPASS (R605). -/
def tapDo (ir : BitVec 8) (s : State) (ok : Bool) (f : Tap → Tap) : Host.Outcome State Fault Refusal :=
  .next (if s.tapUp then { s with tap := if ok then f s.tap else s.tap.bypass ir } else s)

/-- TAP_RESET: TRST_N resets the controller, and IDCODE is loaded (R604). -/
def execTapReset (s : State) : Host.Outcome State Fault Refusal :=
  .next (if s.tapUp then { s with tap := { s.tap.load 0x01 with tdo := 0x19600A5B } } else s)

def execExtest (cells : List Bool) (s : State) : Host.Outcome State Fault Refusal :=
  tapDo 0x00 s s.extestOk fun t => { t with ir := 0x00, cells := t.shift cells, driven := t.shift cells, highz := false }

def execIdcode (s : State) : Host.Outcome State Fault Refusal := tapDo 0x01 s true fun t => { t.load 0x01 with tdo := 0x19600A5B }

/-- SAMPLE_PRELOAD: the cells capture the pins, and are loaded; they drive nothing. -/
def execSamplePreload (cells : List Bool) (s : State) : Host.Outcome State Fault Refusal :=
  tapDo 0x02 (if s.tapUp then { s with freeCount := s.freeCount + laneCells } else s) true fun t =>
    { t.load 0x02 with cells := t.shift cells, captured := s.pinLevels }

/-- CLAMP: the preloaded cells drive the pins, and the bypass register is selected. -/
def execClamp (s : State) : Host.Outcome State Fault Refusal :=
  tapDo 0x03 s s.extestOk fun t => { t.bypass 0x03 with driven := t.shift [] }

/-- HIGHZ: the pins float, and the bypass register is selected. -/
def execHighz (s : State) : Host.Outcome State Fault Refusal := tapDo 0x04 s s.extestOk fun t => { t.bypass 0x04 with highz := true }

def execExtestPulse (cells : List Bool) (s : State) : Host.Outcome State Fault Refusal :=
  tapDo 0x05 s s.extestOk fun t => { t with ir := 0x05, cells := t.shift cells, driven := t.shift cells, highz := false }

def execExtestTrain (cells : List Bool) (s : State) : Host.Outcome State Fault Refusal :=
  tapDo 0x06 s s.extestOk fun t => { t with ir := 0x06, cells := t.shift cells, driven := t.shift cells, highz := false }

/-- DIE_SELECT: bits 0 to 7 select T0 to T7, bit 8 selects H1 (R607). -/
def execDieSelect (v : BitVec 16) (s : State) : Host.Outcome State Fault Refusal :=
  tapDo 0x10 s s.dieSelectOk fun t => { t.load 0x10 with dieSel := v }

/-- The dies that the selection register names, by their number (0-7 T0-T7, 9 H1). -/
def Tap.dies (t : Tap) : List Nat :=
  ((List.range 8).filter fun d => t.dieSel.getLsbD d) ++ (if t.dieSel.getLsbD 8 then [9] else [])

/-- The last 32 of `n` bits that a scan shifts out, the first of them lowest, from free value `fc` on (log entry 6). -/
def scanWord (fc n : Nat) : Nat :=
  let m := min n 32
  ((List.range m).map fun i => 2 ^ i * Bits.ofBool (Config.scanOut (fc + (n - m) + i))).sum

/-- INT_SCAN: the selected dies stop every handshake, their chains shift, and their state is undefined until the next start. -/
def execIntScan (bits : List Bool) (s : State) : Host.Outcome State Fault Refusal :=
  .next (if s.tapUp then
      if s.dieSelectOk then
        let new := s.tap.dies.filter fun d => !s.scanned.contains d
        let s := new.foldl (fun (t : State) d => t.setVal LOCAL_COUNT (d + 1) (Config.scannedCount d (s.freeCount + bits.length) % 2 ^ 64)) s
        { s with
          tap := { s.tap.load 0x20 with tdo := BitVec.ofNat 32 (scanWord s.freeCount bits.length) }
          freeCount := s.freeCount + bits.length
          scanned := s.scanned ++ new }
      else { s with tap := s.tap.bypass 0x20 }
    else s)

def execBypass (s : State) : Host.Outcome State Fault Refusal := tapDo 0xFF s true fun t => t.bypass 0xFF

end Sys2Proof.Machine
end

