-- ==== Sys2Proof/Machine/Dispatch.lean ====
section
/-! DEFINITION. One arm per command of spec/opcode_table.json, each one call of that command's meaning. -/

namespace Sys2Proof.Machine

def exec (i : Instr) (s : State) : Host.Outcome State Fault Refusal :=
  match i with
  | .nop at_ => Sys2Proof.Machine.execNop at_ s
  | .halt at_ => Sys2Proof.Machine.execHalt at_ s
  | .loop at_ => Sys2Proof.Machine.execLoop at_ s
  | .br at_ => Sys2Proof.Machine.execBr at_ s
  | .brc at_ => Sys2Proof.Machine.execBrc at_ s
  | .bsw at_ => Sys2Proof.Machine.execBsw at_ s
  | .wait at_ => Sys2Proof.Machine.execWait at_ s
  | .waitmin at_ => Sys2Proof.Machine.execWaitmin at_ s
  | .mpadv at_ => Sys2Proof.Machine.execMpadv at_ s
  | .mpread at_ => Sys2Proof.Machine.execMpread at_ s
  | .ridge at_ => Sys2Proof.Machine.execRidge at_ s
  | .bdef at_ => Sys2Proof.Machine.execBdef at_ s
  | .give at_ => Sys2Proof.Machine.execGive at_ s
  | .take at_ => Sys2Proof.Machine.execTake at_ s
  | .brel at_ => Sys2Proof.Machine.execBrel at_ s
  | .li at_ => Sys2Proof.Machine.execLi at_ s
  | .sop at_ => Sys2Proof.Machine.execSop at_ s
  | .sld at_ => Sys2Proof.Machine.execSld at_ s
  | .sst at_ => Sys2Proof.Machine.execSst at_ s
  | .darm at_ => Sys2Proof.Machine.execDarm at_ s
  | .drearm at_ => Sys2Proof.Machine.execDrearm at_ s
  | .dgo at_ => Sys2Proof.Machine.execDgo at_ s
  | .pref at_ => Sys2Proof.Machine.execPref at_ s
  | .dstop at_ => Sys2Proof.Machine.execDstop at_ s
  | .dstat at_ => Sys2Proof.Machine.execDstat at_ s
  | .mm at_ => Sys2Proof.Machine.execMm at_ s
  | .attn at_ => Sys2Proof.Machine.execAttn at_ s
  | .vadd at_ => Sys2Proof.Machine.execVadd at_ s
  | .vsub at_ => Sys2Proof.Machine.execVsub at_ s
  | .vmul at_ => Sys2Proof.Machine.execVmul at_ s
  | .vfma at_ => Sys2Proof.Machine.execVfma at_ s
  | .vdiv at_ => Sys2Proof.Machine.execVdiv at_ s
  | .vsqrt at_ => Sys2Proof.Machine.execVsqrt at_ s
  | .vrem at_ => Sys2Proof.Machine.execVrem at_ s
  | .vrint at_ => Sys2Proof.Machine.execVrint at_ s
  | .vmin at_ => Sys2Proof.Machine.execVmin at_ s
  | .vmax at_ => Sys2Proof.Machine.execVmax at_ s
  | .vcmp at_ => Sys2Proof.Machine.execVcmp at_ s
  | .vsel at_ => Sys2Proof.Machine.execVsel at_ s
  | .vcvt at_ => Sys2Proof.Machine.execVcvt at_ s
  | .vtrn at_ => Sys2Proof.Machine.execVtrn at_ s
  | .viop at_ => Sys2Proof.Machine.execViop at_ s
  | .vld at_ => Sys2Proof.Machine.execVld at_ s
  | .vst at_ => Sys2Proof.Machine.execVst at_ s
  | .vxadd at_ => Sys2Proof.Machine.execVxadd at_ s
  | .vtid at_ => Sys2Proof.Machine.execVtid at_ s
  | .vbcast at_ => Sys2Proof.Machine.execVbcast at_ s
  | .vcfg at_ => Sys2Proof.Machine.execVcfg at_ s
  | .vflags at_ => Sys2Proof.Machine.execVflags at_ s
  | .vbenc at_ => Sys2Proof.Machine.execVbenc at_ s
  | .ret at_ check => Sys2Proof.Machine.execRet at_ check s
  | .norm at_ check => Sys2Proof.Machine.execNorm at_ check s
  | .nsq at_ => Sys2Proof.Machine.execNsq at_ s
  | .cens at_ => Sys2Proof.Machine.execCens at_ s
  | .usgd at_ => Sys2Proof.Machine.execUsgd at_ s
  | .umom at_ => Sys2Proof.Machine.execUmom at_ s
  | .uadam at_ => Sys2Proof.Machine.execUadam at_ s
  | .ufact at_ => Sys2Proof.Machine.execUfact at_ s
  | .instructionRetire at_ => Sys2Proof.Machine.execInstructionRetire at_ s
  | .milepostWaitDone at_ => Sys2Proof.Machine.execMilepostWaitDone at_ s
  | .takeGrant at_ => Sys2Proof.Machine.execTakeGrant at_ s
  | .ridgeComplete at_ => Sys2Proof.Machine.execRidgeComplete at_ s
  | .tileSlotWaitDone core => Sys2Proof.Machine.execTileSlotWaitDone core s
  | .bufferTableRecorded core => Sys2Proof.Machine.execBufferTableRecorded core s
  | .uIssueWaitDone core => Sys2Proof.Machine.execUIssueWaitDone core s
  | .descriptorSlotReady core slot => Sys2Proof.Machine.execDescriptorSlotReady core slot s
  | .segmentEnd core => Sys2Proof.Machine.execSegmentEnd core s
  | .replayPassEnd core => Sys2Proof.Machine.execReplayPassEnd core s
  | .tileReplayDone core residuePass identical => Sys2Proof.Machine.execTileReplayDone core residuePass identical s
  | .transferIssue core slot => Sys2Proof.Machine.execTransferIssue core slot s
  | .transferComplete core slot n => Sys2Proof.Machine.execTransferComplete core slot n s
  | .pageMapped core slot => Sys2Proof.Machine.execPageMapped core slot s
  | .pageWaitLimitExpire core slot => Sys2Proof.Machine.execPageWaitLimitExpire core slot s
  | .prefConfirm core slot => Sys2Proof.Machine.execPrefConfirm core slot s
  | .milepostAdvanceArrive n => Sys2Proof.Machine.execMilepostAdvanceArrive n s
  | .eauAddApply n => Sys2Proof.Machine.execEauAddApply n s
  | .gstoreClearDone k store => Sys2Proof.Machine.execGstoreClearDone k store s
  | .drainLimitExpire k => Sys2Proof.Machine.execDrainLimitExpire k s
  | .caravanVote k m => Sys2Proof.Machine.execCaravanVote k m s
  | .caravanVerdict k m => Sys2Proof.Machine.execCaravanVerdict k m s
  | .commitFlashWriteDone k => Sys2Proof.Machine.execCommitFlashWriteDone k s
  | .voteLimitExpire k epoch rank => Sys2Proof.Machine.execVoteLimitExpire k epoch rank s
  | .fieldTestRotation die => Sys2Proof.Machine.execFieldTestRotation die s
  | .coreSwap out inc => Sys2Proof.Machine.execCoreSwap out inc s
  | .fieldTestDone core pass => Sys2Proof.Machine.execFieldTestDone core pass s
  | .ftOverdue core => Sys2Proof.Machine.execFtOverdue core s
  | .watchdogScan die hits => Sys2Proof.Machine.execWatchdogScan die hits s
  | .powerThermalCheck temps inputMv inputW coolantIn coolantFlow => Sys2Proof.Machine.execPowerThermalCheck temps inputMv inputW coolantIn coolantFlow s
  | .scrubLine loc ecc r => Sys2Proof.Machine.execScrubLine loc ecc r s
  | .rowSpare unit spare => Sys2Proof.Machine.execRowSpare unit spare s
  | .cxlLinkDown port => Sys2Proof.Machine.execCxlLinkDown port s
  | .mapPresent k va => Sys2Proof.Machine.execMapPresent k va s
  | .caravanTrigger k op => Sys2Proof.Machine.execCaravanTrigger k op s
  | .caravanStart k m => Sys2Proof.Machine.execCaravanStart k m s
  | .caravanDeadlineExpire k op => Sys2Proof.Machine.execCaravanDeadlineExpire k op s
  | .lateContributionReady k op => Sys2Proof.Machine.execLateContributionReady k op s
  | .caravanSeg k m => Sys2Proof.Machine.execCaravanSeg k m s
  | .caravanBit k m => Sys2Proof.Machine.execCaravanBit k m s
  | .caravanRes k m => Sys2Proof.Machine.execCaravanRes k m s
  | .rotationSendTrigger k op => Sys2Proof.Machine.execRotationSendTrigger k op s
  | .rotationReleaseTrigger k op => Sys2Proof.Machine.execRotationReleaseTrigger k op s
  | .caravanRot k m => Sys2Proof.Machine.execCaravanRot k m s
  | .caravanRel k m => Sys2Proof.Machine.execCaravanRel k m s
  | .caravanSend k m => Sys2Proof.Machine.execCaravanSend k m s
  | .caravanRadd k m => Sys2Proof.Machine.execCaravanRadd k m s
  | .caravanAck k m hc addr => Sys2Proof.Machine.execCaravanAck k m hc addr s
  | .caravanSample k m => Sys2Proof.Machine.execCaravanSample k m s
  | .placeGo k => Sys2Proof.Machine.execPlaceGo k s
  | .placementDrained k theirs => Sys2Proof.Machine.execPlacementDrained k theirs s
  | .migDrainLimitExpire k => Sys2Proof.Machine.execMigDrainLimitExpire k s
  | .drawbarDataFrame p f => Sys2Proof.Machine.execDrawbarDataFrame p f s
  | .drawbarCreditFrame p f => Sys2Proof.Machine.execDrawbarCreditFrame p f s
  | .drawbarNakFrame p f => Sys2Proof.Machine.execDrawbarNakFrame p f s
  | .drawbarIdleFrame p f => Sys2Proof.Machine.execDrawbarIdleFrame p f s
  | .drawbarIdleTimer p => Sys2Proof.Machine.execDrawbarIdleTimer p s
  | .drawbarRxTimeout p => Sys2Proof.Machine.execDrawbarRxTimeout p s
  | .drawbarResendLimit p => Sys2Proof.Machine.execDrawbarResendLimit p s
  | .drawbarLaneLockLoss p lane => Sys2Proof.Machine.execDrawbarLaneLockLoss p lane s
  | .drawbarLightDetect p => Sys2Proof.Machine.execDrawbarLightDetect p s
  | .drawbarTrainingRetry p => Sys2Proof.Machine.execDrawbarTrainingRetry p s
  | .drawbarTrainingFrame p node port alloc => Sys2Proof.Machine.execDrawbarTrainingFrame p node port alloc s
  | .bypassLatched pairB closed => Sys2Proof.Machine.execBypassLatched pairB closed s
  | .portCfg p v => Sys2Proof.Machine.execPortCfg p v s
  | .bypassForce v => Sys2Proof.Machine.execBypassForce v s
  | .routeGo => Sys2Proof.Machine.execRouteGo s
  | .ingestGo k e => Sys2Proof.Machine.execIngestGo k e s
  | .storageReadComplete k pos bytes => Sys2Proof.Machine.execStorageReadComplete k pos bytes s
  | .shardRetryTimer k pos => Sys2Proof.Machine.execShardRetryTimer k pos s
  | .decodeComplete k pos r => Sys2Proof.Machine.execDecodeComplete k pos r s
  | .genStageDone k => Sys2Proof.Machine.execGenStageDone k s
  | .genCopyDone k ok => Sys2Proof.Machine.execGenCopyDone k ok s
  | .partnerTimeout k => Sys2Proof.Machine.execPartnerTimeout k s
  | .pairGo k e => Sys2Proof.Machine.execPairGo k e s
  | .restoreGo k e => Sys2Proof.Machine.execRestoreGo k e s
  | .refillChunkDone k chunk head replica bytes => Sys2Proof.Machine.execRefillChunkDone k chunk head replica bytes s
  | .refillSourceFail k next lowered => Sys2Proof.Machine.execRefillSourceFail k next lowered s
  | .salvageGo => Sys2Proof.Machine.execSalvageGo s
  | .holdupChargeLow percent => Sys2Proof.Machine.execHoldupChargeLow percent s
  | .powerFailDetect => Sys2Proof.Machine.execPowerFailDetect s
  | .presentNOpen => Sys2Proof.Machine.execPresentNOpen s
  | .powerOn e => Sys2Proof.Machine.execPowerOn e s
  | .modResetAssert => Sys2Proof.Machine.execModResetAssert s
  | .modResetRelease e => Sys2Proof.Machine.execModResetRelease e s
  | .trialTimeout e => Sys2Proof.Machine.execTrialTimeout e s
  | .restartGo e => Sys2Proof.Machine.execRestartGo e s
  | .shEnter => Sys2Proof.Machine.execShEnter s
  | .shExit e => Sys2Proof.Machine.execShExit e s
  | .wbGo fn seq m e => Sys2Proof.Machine.execWbGo fn seq m e s
  | .mgFrameReceive port1 f e => Sys2Proof.Machine.execMgFrameReceive port1 f e s
  | .wbRead p entry sub => Sys2Proof.Machine.execWbRead p entry sub s
  | .wbReadBlock p entry sub offset reqlen => Sys2Proof.Machine.execWbReadBlock p entry sub offset reqlen s
  | .wbWrite p entry sub data e => Sys2Proof.Machine.execWbWrite p entry sub data e s
  | .wbTxnOpen p entry sub offset data => Sys2Proof.Machine.execWbTxnOpen p entry sub offset data s
  | .wbWriteBlock p entry sub offset data => Sys2Proof.Machine.execWbWriteBlock p entry sub offset data s
  | .wbTxnApply p entry sub offset data e => Sys2Proof.Machine.execWbTxnApply p entry sub offset data e s
  | .wbTxnTimeout p => Sys2Proof.Machine.execWbTxnTimeout p s
  | .hostMpWindowWrite fn offset data => Sys2Proof.Machine.execHostMpWindowWrite fn offset data s
  | .evConsWrite fn v => Sys2Proof.Machine.execEvConsWrite fn v s
  | .fbGo offset len e => Sys2Proof.Machine.execFbGo offset len e s
  | .actTag v => Sys2Proof.Machine.execActTag v s
  | .ownerToken token e => Sys2Proof.Machine.execOwnerToken token e s
  | .ownerKey key => Sys2Proof.Machine.execOwnerKey key s
  | .attestNonce nonce => Sys2Proof.Machine.execAttestNonce nonce s
  | .pitch slot => Sys2Proof.Machine.execPitch slot s
  | .pitchApply => Sys2Proof.Machine.execPitchApply s
  | .ctxOpenGo k e => Sys2Proof.Machine.execCtxOpenGo k e s
  | .loadGo k e => Sys2Proof.Machine.execLoadGo k e s
  | .startGo k => Sys2Proof.Machine.execStartGo k s
  | .saveGo k => Sys2Proof.Machine.execSaveGo k s
  | .resumeGo k => Sys2Proof.Machine.execResumeGo k s
  | .teardownGo k => Sys2Proof.Machine.execTeardownGo k s
  | .vfDisable fn => Sys2Proof.Machine.execVfDisable fn s
  | .abortGo => Sys2Proof.Machine.execAbortGo s
  | .shareGo => Sys2Proof.Machine.execShareGo s
  | .postRearm k mp => Sys2Proof.Machine.execPostRearm k mp s
  | .stepGroup k v => Sys2Proof.Machine.execStepGroup k v s
  | .flrVf fn => Sys2Proof.Machine.execFlrVf fn s
  | .flrPf0 => Sys2Proof.Machine.execFlrPf0 s
  | .hostHotReset => Sys2Proof.Machine.execHostHotReset s
  | .hlPerstN => Sys2Proof.Machine.execHlPerstN s
  | .tapReset => Sys2Proof.Machine.execTapReset s
  | .extest cells => Sys2Proof.Machine.execExtest cells s
  | .idcode => Sys2Proof.Machine.execIdcode s
  | .samplePreload cells => Sys2Proof.Machine.execSamplePreload cells s
  | .clamp => Sys2Proof.Machine.execClamp s
  | .highz => Sys2Proof.Machine.execHighz s
  | .extestPulse cells => Sys2Proof.Machine.execExtestPulse cells s
  | .extestTrain cells => Sys2Proof.Machine.execExtestTrain cells s
  | .dieSelect v => Sys2Proof.Machine.execDieSelect v s
  | .intScan bits => Sys2Proof.Machine.execIntScan bits s
  | .bypass => Sys2Proof.Machine.execBypass s
  | .tracesLinkFailure link => Sys2Proof.Machine.execTracesLinkFailure link s
  | .vfEnable fn => Sys2Proof.Machine.execVfEnable fn s
  | .storageReadTimeout k pos => Sys2Proof.Machine.execStorageReadTimeout k pos s
  | .jobResumable k => Sys2Proof.Machine.execJobResumable k s

end Sys2Proof.Machine
end

