-- ==== Sys2Proof/Machine/Step.lean ====
section
/-! DEFINITION. One step: the command at the front of the queue, or one tick of the dies' local elapsed counters. -/

namespace Sys2Proof.Machine

/-- Take the command at the front of `pending` and run it on the machine with the queue's rest; with none waiting, one
count of the ten dies' local elapsed counters passes (log entry 1). -/
def step (s : State) : Host.Outcome State Fault Refusal :=
  match s.pending with
  | [] => .next s.tick
  | c :: rest => exec c { s with pending := rest }

/-- The table gives no row bits, so a word spells no command and the queue stays as it is. -/
def State.withFetchWord (s : State) (nbits w : Nat) : State :=
  match decodeTableWord nbits w with
  | none => s
  | some c => { s with pending := c :: s.pending }

end Sys2Proof.Machine
end

