-- ==== Sys2Proof/WellFormed.lean ====
section
/-!
DEFINITION. Well-formed commands: every operand fits the field, the message or the part that the spec gives it.  `exec`
answers for ill-formed ones too; a sender of well-formed commands is what the spec describes.
-/

namespace Sys2Proof

/-- `n` fits a field of `w` bits. -/
def fits (w n : Nat) : Bool := decide (n < 2 ^ w)

/-- Header fields of a Caravan message (Table 11-3). -/
def CHdr.wf (h : CHdr) : Bool :=
  fits 4 h.mtype && fits 2 h.form && fits 5 h.restarts && fits 12 h.sender && fits 12 h.origin && fits 8 h.group && fits 16 h.oprec
    && fits 16 h.seg && fits 16 h.job && fits 16 h.run && fits 64 h.epoch && fits 32 h.pgen && fits 32 h.offset && fits 32 h.sumw

/-- A transport group has 64 words, or none where the segment is stamped (Table 11-4), and a 16-bit ANCHOR (Table 2-11). -/
def WGroup.wf (g : WGroup) : Bool :=
  (g.words.length == 64 || g.words.isEmpty) && decide (-(2 ^ 15) ≤ g.anchor) && decide (g.anchor < 2 ^ 15)

/-- Payload bounds of Table 11-4: at most 8,192 bytes in the layout of the type. -/
def CPayload.wf : CPayload → Bool
  | .empty => true
  | .groups gs spill => gs.all WGroup.wf && gs.length ≤ 7 && 1088 * gs.length + 96 * spill.length ≤ 8192
  | .sparse es => es.length ≤ 81 && es.all fun e => fits 32 e.1
  | .bits bs => bs.length ≤ 409
  | .radd es => es.length ≤ 78 && es.all fun e => fits 64 e.1
  | .raw bytes => bytes.length ≤ 8192
  | .vote _ _ => true
  | .verdict _ _ run pgen _ => fits 16 run && fits 32 pgen
  | .refusal hc detail addr => fits 8 hc && fits 16 detail && fits 64 addr

/-- Raw bytes come in multiples of 32 in ROT and SEND; SAMPLE has the sizes of its chapter (R426). -/
def CMsg.wf (m : CMsg) : Bool :=
  m.hdr.wf && m.payload.wf && (match m.payload with | .raw bytes => m.hdr.mtype == 11 || bytes.length % 32 == 0 | _ => true)

/-- Header fields of a Drawbar frame (R492, Table 15-4); LEN is the length of the body, and 0 unless KIND is 0. -/
def DFrame.wf (f : DFrame) : Bool :=
  fits 2 f.kind && fits 4 f.vc && fits 4 f.hops && f.len ≤ 9280 && fits 4 f.cvc && fits 16 f.cred && fits 16 f.seq && fits 16 f.ackseq
    && fits 16 f.src && fits 16 f.dst && f.body.wf && f.via.isNone && (f.kind == 0 || f.training.isNone) && f.len == Machine.frameBodyLen f

/-- Header fields of a Waybill message (Table 16-6), and the largest data of any path (R522). -/
def WbMsg.wf (m : WbMsg) : Bool :=
  fits 8 m.ver && fits 7 m.op && fits 8 m.status && fits 32 m.seq && fits 16 m.entry && fits 8 m.sub && fits 8 m.hops && fits 64 m.offset
    && fits 32 m.reqlen && m.data.length ≤ 4064

/-- An Ethernet frame of the management ring (R518): type, addresses, and at most 1,400 bytes of payload (R522). -/
def MgFrame.wf (f : MgFrame) : Bool :=
  fits 16 f.ethertype && fits 48 f.dst && fits 48 f.src && f.msg.wf && f.msg.data.length + f.pad.length ≤ 1368

def Path.wf : Path → Bool
  | .host _ => true
  | .ring src => fits 48 src

/-- What a start finds names parts that exist (R9 to R11). -/
def StartIn.wf (i : StartIn) : Bool :=
  i.cores.all (fun c => decide (c < 704)) && i.slices.all (fun c => decide (c < 64)) && i.links.all (fun c => decide (c < 26))
    && i.hbm.all (fun c => decide (c < 16)) && i.cxl.length ≤ 4 && i.cxl.all (fun p => p.length == 5) && fits 6 i.slotId
    && i.columns.all (fun x => decide (x.1 < 704) && decide (x.2.1 < 64)) && i.opens.all (fun n => decide (1 ≤ n) && decide (n ≤ 6))

/-- The firmware block window holds 65,536 bytes (Table 16-3). -/
def Env.wf (e : Env) : Bool := e.start.wf && e.window.length ≤ 65536

/-- Waybill block operations: entry, sub-entry, offset and data fit their fields. -/
def blockWf (p : Path) (entry sub offset : Nat) (data : List Byte) : Bool :=
  p.wf && fits 16 entry && fits 8 sub && fits 64 offset && data.length ≤ 4064

/-- A memory that a scrub reads exists: the address and the word of a store fit (R147, R151). -/
def MemLoc.wf : MemLoc → Bool
  | .dev _ va => fits 64 va
  | .coreStore _ a => decide (a < 0x600000)
  | .accStore _ w => decide (w < 2 * 16384)
  | .milepost _ | .participant _ _ _ _ | .commitLog | .ledger _ | .line _ _ => true

/-- One of the 64 decode slices. -/
def DecodeRes.wf : DecodeRes → Bool
  | .done => true
  | .sliceFault n => decide (n < 64)

/-- The operands of a command are what the spec lets its sender give. -/
def Instr.wf : Instr → Bool
  | .caravanVote _ m | .caravanVerdict _ m | .caravanStart _ m | .caravanSeg _ m | .caravanBit _ m | .caravanRes _ m
  | .caravanRot _ m | .caravanRel _ m | .caravanSend _ m | .caravanRadd _ m | .caravanSample _ m => m.wf
  | .caravanAck _ m hc r => m.wf && fits 8 hc && fits 16 r.detail && fits 64 r.addr
  | .voteLimitExpire _ epoch rank => fits 64 epoch && fits 12 rank
  | .coreSwap out inc => decide (out ≠ inc)
  | .powerThermalCheck temps _ _ _ _ => temps.length == 26
  | .scrubLine loc _ _ => loc.wf
  | .refillChunkDone _ _ _ rep _ => fits 12 rep.rank
  | .rowSpare _ _ => true
  | .drawbarDataFrame _ f => f.wf && f.kind == 0
  | .drawbarCreditFrame _ f => f.wf && f.kind == 1
  | .drawbarNakFrame _ f => f.wf && f.kind == 2
  | .drawbarIdleFrame _ f => f.wf && f.kind == 3
  | .drawbarTrainingFrame _ node port alloc => fits 16 node && decide (port < 24) && alloc.length == 16
  | .holdupChargeLow percent => percent ≤ 100
  | .powerOn e | .modResetRelease e | .trialTimeout e | .restartGo e | .shExit e => e.wf
  | .decodeComplete _ _ r => r.wf
  | .wbGo _ seq m e => fits 32 seq && m.wf && e.wf
  | .mgFrameReceive _ f e => f.wf && e.wf
  | .wbRead p entry sub => p.wf && fits 16 entry && fits 8 sub
  | .wbReadBlock p entry sub offset reqlen => blockWf p entry sub offset [] && fits 32 reqlen
  | .wbWrite p entry sub data e => blockWf p entry sub 0 data && e.wf
  | .wbTxnOpen p entry sub offset data | .wbWriteBlock p entry sub offset data => blockWf p entry sub offset data
  | .wbTxnApply p entry sub offset data e => blockWf p entry sub offset data && e.wf
  | .wbTxnTimeout p => p.wf
  | .fbGo offset len e => fits 64 offset && fits 32 len && e.wf
  | .ingestGo _ e | .pairGo _ e | .restoreGo _ e | .ownerToken _ e | .ctxOpenGo _ e | .loadGo _ e => e.wf
  | .nop _ | .halt _ | .loop _ | .br _ | .brc _ | .bsw _ | .wait _ | .waitmin _ | .mpadv _ | .mpread _ | .ridge _ | .bdef _ | .give _
  | .take _ | .brel _ | .li _ | .sop _ | .sld _ | .sst _ | .darm _ | .drearm _ | .dgo _ | .pref _ | .dstop _ | .dstat _ | .mm _ | .attn _
  | .vadd _ | .vsub _ | .vmul _ | .vfma _ | .vdiv _ | .vsqrt _ | .vrem _ | .vrint _ | .vmin _ | .vmax _ | .vcmp _ | .vsel _ | .vcvt _
  | .vtrn _ | .viop _ | .vld _ | .vst _ | .vxadd _ | .vtid _ | .vbcast _ | .vcfg _ | .vflags _ | .vbenc _ | .ret _ _ | .norm _ _ | .nsq _
  | .cens _ | .usgd _ | .umom _ | .uadam _ | .ufact _ | .instructionRetire _ | .milepostWaitDone _ | .takeGrant _ | .ridgeComplete _
  | .tileSlotWaitDone _ | .bufferTableRecorded _ | .uIssueWaitDone _ | .descriptorSlotReady _ _ | .segmentEnd _ | .replayPassEnd _
  | .tileReplayDone _ _ _ | .transferIssue _ _ | .transferComplete _ _ _ | .pageMapped _ _ | .pageWaitLimitExpire _ _ | .prefConfirm _ _
  | .milepostAdvanceArrive _ | .eauAddApply _ | .gstoreClearDone _ _ | .drainLimitExpire _ | .commitFlashWriteDone _
  | .fieldTestRotation _ | .fieldTestDone _ _ | .ftOverdue _ | .watchdogScan _ _ | .cxlLinkDown _ | .mapPresent _ _ | .caravanTrigger _ _
  | .caravanDeadlineExpire _ _ | .lateContributionReady _ _ | .rotationSendTrigger _ _ | .rotationReleaseTrigger _ _ | .placeGo _
  | .placementDrained _ _ | .migDrainLimitExpire _ | .drawbarIdleTimer _ | .drawbarRxTimeout _ | .drawbarResendLimit _
  | .drawbarLaneLockLoss _ _ | .drawbarLightDetect _ | .drawbarTrainingRetry _ | .bypassLatched _ _ | .portCfg _ _ | .bypassForce _
  | .routeGo | .storageReadComplete _ _ _ | .shardRetryTimer _ _ | .genStageDone _ | .genCopyDone _ _ | .partnerTimeout _
  | .refillSourceFail _ _ _ | .salvageGo | .powerFailDetect | .presentNOpen | .modResetAssert | .shEnter
  | .hostMpWindowWrite _ _ _ | .evConsWrite _ _ | .actTag _ | .ownerKey _ | .attestNonce _ | .pitch _ | .pitchApply | .startGo _ | .saveGo _
  | .resumeGo _ | .teardownGo _ | .vfDisable _ | .abortGo | .shareGo | .postRearm _ _ | .stepGroup _ _ | .flrVf _ | .flrPf0 | .hostHotReset
  | .hlPerstN | .tapReset | .extest _ | .idcode | .samplePreload _ | .clamp | .highz | .extestPulse _ | .extestTrain _ | .dieSelect _
  | .intScan _ | .bypass | .tracesLinkFailure _ | .vfEnable _ | .storageReadTimeout _ _ | .jobResumable _ => true

end Sys2Proof
end

