-- ==== Sys2Proof/Safety.lean ====
section
/-!
DEFINITION. The terms in which claims are stated: a safe run, a queue that is ready to issue a word, the state in which an instruction has
issued and retired, and states that read the same.
-/

namespace Sys2Proof

/-- `n` steps from `s` all answer a next state. -/
def Safe : Nat → Machine.State → Prop
  | 0, _ => True
  | n + 1, s => ∃ t, Machine.step s = .next t ∧ Safe n t

namespace Machine

/-- States that read the same: equal in every field, and in every core of the table of cores. -/
def State.Same (t s : State) : Prop := (∀ c, t.core c = s.core c) ∧ { t with cores := s.cores } = s

/-- The command answers a next state, which reads as `e`. -/
def Gives (c : Instr) (s e : State) : Prop := ∃ t, exec c s = .next t ∧ t.Same e

/-- Queue `q` can issue the word `w`, an instruction of opcode `oc`: its die has a defined state, it is RUNNING and waits for nothing, every
earlier instruction has retired, its pc names `w`, no check of R181, R201 and R202 refuses `w`, its context is not being aborted, and the
context may advance the Milepost of a carried advance (R203, R237). -/
structure Ready (s : State) (q : QRef) (oc : OpCode) (w : Nat) : Prop where
  alive : s.dieLost q.core.val = false
  can : s.canIssue q = true
  alone : (s.queue q).inflight = []
  word : (s.queue q).fetch = some w
  opcode : Bits.fld w 8 3 * 256 + Bits.fld w 0 8 = oc
  legal : checkWord q.queue w = none
  calm : (s.ctx (s.ctxOf q)).aborting = none
  advance : ((carried w).any fun a => !s.mayAdvance (s.ctxOf q) a.1) = false

/-- The advances of queue `q`, in order, that find their Milepost not poisoned set out for their homes (R191, R203, R268). -/
def State.depart (s : State) (q : QRef) (k : Nat) (ep : Option Nat) : List (Nat × AdvMode × Nat) → State
  | [] => s
  | (mp, m, v) :: t =>
    if (s.pmp (s.mpEntry k mp).pmp).st = .poisoned then s.depart q k ep t else (s.sendAdv (some q) k mp m v ep).depart q k ep t

/-- None of these advances is refused with HC-1A (R203, R211). -/
def State.room (s : State) (q : QRef) (k : Nat) (ep : Option Nat) : List (Nat × AdvMode × Nat) → Bool
  | [] => true
  | (mp, m, v) :: t =>
    if (s.pmp (s.mpEntry k mp).pmp).st = .poisoned then s.room q k ep t
    else !s.advOverflows k mp m v ep && (s.sendAdv (some q) k mp m v ep).room q k ep t

/-- The advances of an instruction with word `w` whose own advances are `own` find room. -/
def State.fits (s : State) (q : QRef) (w : Nat) (own : List (Nat × AdvMode × Nat)) : Bool :=
  s.room q (s.ctxOf q) (s.epochOf (s.ctxOf q) (s.queue q)) (own ++ Machine.carried w)

/-- From `s`, in which the instruction with word `w` has had its effect: it has issued, the pc is where `nx` says, and it has retired, with
its own advances and then the carried one on their way. -/
def State.finish (s : State) (q : QRef) (w : Nat) (own : List (Nat × AdvMode × Nat)) (nx : Next) : State :=
  (State.updQueue { s with nextId := s.nextId + 1 } q fun x => x.advance nx).depart q (s.ctxOf q) (s.epochOf (s.ctxOf q) (s.queue q)) (own ++ Machine.carried w)

/-- From `s`, in which the instruction with word `w` has had its effect: it has issued and stands last among its queue's issued instructions,
waiting for `work` before it retires with its own advances and the carried one. -/
def State.enter (s : State) (q : QRef) (w : Nat) (work : Work) (own : List (Nat × AdvMode × Nat)) (nx : Next) : State :=
  State.updQueue { s with nextId := s.nextId + 1 } q fun x =>
    { x.advance nx with inflight := x.inflight ++ [{ id := s.nextId, word := BitVec.ofNat 128 w, bank := x.bank, pc := x.pc, work := work
                                                     advs := own ++ Machine.carried w, epoch := s.epochOf (s.ctxOf q) x
                                                     regs := if work.late then x.regs else [] }] }

/-- Queue `q` waits at its instruction for `wt`; it is WAITING for a Milepost, else it stays RUNNING (Table 5-2). -/
def State.holdAt (s : State) (q : QRef) (wt : Wait) (waiting : Bool) : State :=
  s.updQueue q fun x => { x with wait := some wt, st := if waiting then .waiting else x.st }

/-- The windows that the passes of a cell fold from plan `p` on, summed, running at most `fuel` passes; none if a plan is still open then
(Table 3-3, R95 to R98). -/
def ladderFrom (l : List Int) (er ec : Option Int) : Nat → Plan → Option Int
  | 0, _ => none
  | fuel + 1, p =>
    match replayPass p l er ec with
    | (w, none) => some (w.getD 0)
    | (w, some p') => (ladderFrom l er ec fuel p').map (w.getD 0 + ·)

/-- The memories of `s` are canonical: the core store of every listed core, and the device memory of every listed context. -/
def State.memoriesWf (s : State) : Bool := s.cores.all (fun e => Memory.wf e.2.store) && s.ctxs.all fun e => Memory.wf e.2.mem

/-- The commands of the TAP (R605). -/
def tapCommand : Instr → Bool
  | .tapReset => true
  | .extest _ => true
  | .idcode => true
  | .samplePreload _ => true
  | .clamp => true
  | .highz => true
  | .extestPulse _ => true
  | .extestTrain _ => true
  | .dieSelect _ => true
  | .intScan _ => true
  | .bypass => true
  | _ => false

/-- `s` with the wait of queue `q` ended, as the instruction at which it waited finds it when it runs again. -/
def State.awake (s : State) (q : QRef) : State :=
  s.updQueue q fun x => { x with wait := none, st := (if x.st = .waiting then .running else x.st) }

/-- The part serves, the die of core `c` has a defined state, and the core runs for context `k`. -/
structure Works (s : State) (c : CoreId) (k : Nat) : Prop where
  alive : s.dieLost c.val = false
  up : s.up = true
  ctx : (s.core c.val).ctx = some k

/-- The machine with message `m` taken from the messages that wait to be heard. -/
def State.heard (s : State) (m : CMsg) : State := { s with inbox := s.inbox.erase m }

/-- The part serves context `k` outside Safe Hold, message `m` is of kind `t`, and the checks of R375 and R376, with `sender` for its sender, take
it for the group `g`. -/
structure Hears (s : State) (k : CtxId) (t : Nat) (m : CMsg) (sender : CGroup → Bool) (g : CGroup) : Prop where
  up : s.up = true
  safe : s.safeHold = false
  kind : m.hdr.mtype = t
  screened : (s.heard m).screen k.val m sender = .apply g

end Machine

end Sys2Proof
end

