-- ==== Sys2Proof/Certificates/Slice0/Obligations.lean ====
section
/-!
DEFINITION. The statements.  Where one says `Gives c s e`, the command `c` answers a next state that reads as `e`; `e` is written out as the
changes that the rules give, so everything that it does not name is unchanged.
-/

open Sys2Proof Sys2Proof.Machine Sys2Proof.WB

/-! ### The machine -/

/-- A step takes the command at the front of the queue of waiting commands and runs it on the machine with the queue's rest. -/
def Obligations.StepRunsTheFrontCommand : Prop :=
  ∀ (c : Instr) (r : List Instr) (s : State), s.pending = c :: r → step s = exec c { s with pending := r }

/-- With no command waiting a step is the model's tick (the model's choice, log entry 1): where no context command waits in a part that serves, the local
elapsed counter of H0 rises by one and that of every other die by none, one or two, modulo 2^64, but on a die that a scan has stopped, and nothing else
changes; a start that is to be reverted begins again with cause 4; nothing at all changes in a part that does not serve. -/
def Obligations.EmptyQueueIdles : Prop :=
  ∀ s : State, s.pending = [] → step s = .next s.tick ∧ (s.up = false → s.tick = s)
    ∧ (s.up = true → s.revert = false → s.late = [] → s.tick = (List.range 10).foldl (fun u d =>
        if u.scanned.contains d then u else u.setVal LOCAL_COUNT (d + 1) ((u.clock d + s.dieCounts d) % 2 ^ 64)) s)
    ∧ s.dieCounts 8 = 1 ∧ (∀ d, s.dieCounts d ≤ 2)
    ∧ (s.up = true → s.revert = true → s.tick = s.startPart 4 0 { s.lastStart with hangs := false, opens := none })

/-! ### Instructions common to all queues -/

/-- LI, SOP and MPREAD write their result to the destination register, issue and retire; the pc moves to the next word (or as the ends of loop frames say), a
carried advance departs, and nothing else changes. A write of a register other than ZERO reads back modulo 2^64 and leaves every other register; a write of ZERO
(or of a reserved name) is discarded, and ZERO reads as 0. -/
def Obligations.ScalarInstructionsWriteTheirRegister : Prop :=
  (∀ (s : State) (q : QRef) (w : Nat), s.fits q w [] = true →
    (Ready s q 0x018 w → (s.queue q).streamFrame (Bits.fld w 32 6) = none →
      Gives (.li q) s ((s.updQueue q fun x => x.setReg (Bits.fld w 32 6) (Bits.fld w 64 64)).finish q w [] .seq))
    ∧ (Ready s q 0x019 w → (s.queue q).streamFrame (Bits.fld w 32 6) = none →
      Gives (.sop q) s ((s.updQueue q fun x => x.setReg (Bits.fld w 32 6)
        (scalarFn 64 (Bits.fld w 50 4) (x.reg (Bits.fld w 38 6))
          (if Bits.bit w 54 then Bits.wrap (imm32 w 64) 64 else x.reg (Bits.fld w 44 6)))).finish q w [] .seq))
    ∧ (Ready s q 0x00B w → (s.queue q).streamFrame (Bits.fld w 54 6) = none → (s.mpEntry (s.ctxOf q) (Bits.fld w 32 13)).valid = true →
      s.mpPoisoned (s.ctxOf q) (Bits.fld w 32 13) = false →
      Gives (.mpread q) s ((s.updQueue q fun x => x.setReg (Bits.fld w 54 6)
        (s.mpSeen (s.ctxOf q) (Bits.fld w 32 13) (s.epochOf (s.ctxOf q) x))).finish q w [] .seq)))
  ∧ (∀ (x : QueueSt) (n v : Nat),
    (n < 0x30 → (x.setReg n v).reg n = v % 2 ^ 64 ∧ ∀ m, m ≠ n → (x.setReg n v).reg m = x.reg m) ∧ (0x30 ≤ n → x.setReg n v = x ∧ x.reg n = 0))

/-- The functions of SOP on 64-bit values (Table 6-8). The relations of BRC on 64-bit values (Table 6-4). -/
def Obligations.ScalarFunctionsAreThoseOfTheTables : Prop :=
  (∀ a b : BitVec 64,
    let f := fun n => BitVec.ofNat 64 (scalarFn 64 n a.toNat b.toNat)
    f 0 = a + b ∧ f 1 = a - b ∧ f 2 = a * b ∧ f 3 = a &&& b ∧ f 4 = a ||| b ∧ f 5 = a ^^^ b
      ∧ f 6 = a <<< (b.toNat % 64) ∧ f 7 = a >>> (b.toNat % 64) ∧ f 8 = a.sshiftRight (b.toNat % 64)
      ∧ f 9 = (if a.sle b then a else b) ∧ f 10 = (if b.sle a then a else b)
      ∧ f 11 = (if a ≤ b then a else b) ∧ f 12 = (if b ≤ a then a else b) ∧ f 13 = a)
  ∧ (∀ a b : BitVec 64,
    let c := fun n => brcHolds n a.toNat b.toNat
    c 0 = (a == b) ∧ c 1 = (a != b) ∧ c 2 = a.slt b ∧ c 3 = !(a.slt b) ∧ c 4 = a.ult b ∧ c 5 = !(a.ult b))

/-- NOP, BR, BRC, BSW and MPADV complete: the pc goes on, to the target, or to the entry in the other bank; MPADV sends its advance before a carried one. HALT
halts its queue with HC-00 and the low 16 bits of IMM, once, in an epoch, the effect queue has room for its event: the queue is HALTED and its halt record
names the instruction. -/
def Obligations.ControlInstructionsComplete : Prop :=
  (∀ (s : State) (q : QRef) (w : Nat),
    (Ready s q 0x000 w → s.fits q w [] = true → Gives (.nop q) s (s.finish q w [] .seq))
    ∧ (Ready s q 0x003 w → s.fits q w [] = true →
        ((s.queue q).activeFrames.all fun f => f.2.start ≤ Bits.fld w 32 11 && Bits.fld w 32 11 ≤ f.2.last) = true →
        Gives (.br q) s (s.finish q w [] (.to (Bits.fld w 32 11))))
    ∧ (Ready s q 0x004 w → s.fits q w [] = true →
        let holds := brcHolds (Bits.fld w 43 3) ((s.queue q).reg (Bits.fld w 46 6))
          (if Bits.bit w 58 then Bits.wrap (imm32 w 64) 64 else (s.queue q).reg (Bits.fld w 52 6))
        (holds = false → Gives (.brc q) s (s.finish q w [] .seq))
        ∧ (holds = true → ((s.queue q).activeFrames.all fun f => f.2.start ≤ Bits.fld w 32 11 && Bits.fld w 32 11 ≤ f.2.last) = true →
            Gives (.brc q) s (s.finish q w [] (.to (Bits.fld w 32 11)))))
    ∧ (Ready s q 0x005 w → s.fits q w [] = true → (s.queue q).inactive.valid = true →
        Bits.fld w 32 11 < (s.queue q).inactive.words.length → (s.queue q).activeFrames = [] →
        Gives (.bsw q) s (s.finish q w [] (.bank (Bits.fld w 32 11))))
    ∧ (Ready s q 0x00A w → s.mayAdvance (s.ctxOf q) (Bits.fld w 32 13) = true →
        let own := [(Bits.fld w 32 13, (if Bits.fld w 52 2 = 0 then AdvMode.add else AdvMode.raise),
          addImm ((s.queue q).reg (Bits.fld w 54 6)) (imm32 w 64))]
        s.fits q w own = true → Gives (.mpadv q) s (s.finish q w own .seq)))
  ∧ (∀ (s : State) (q : QRef) (w : Nat), Ready s q 0x001 w →
    (s.epochOf (s.ctxOf q) (s.queue q) = none ∨ (s.ctx (s.ctxOf q)).effectRoom [.event 0x0001 0 0] = true) →
    ∃ t, exec (.halt q) s = .next t ∧ t = s.haltQ q 0x00 (Bits.fld w 64 16) 0 ∧ (t.queue q).st = .halted
      ∧ (t.queue q).halt = some
          { addr := 0, detail := Bits.fld w 64 16, hc := 0x00, core := q.core.val, ctx := s.ctxOf q, queue := q.queue.num, bank := (s.queue q).bank
            pc := (s.queue q).pc })

/-- LOOP opens its frame with the trip count and the streams that the word names, or, with a trip count of 0, opens none and goes past the END word. At the
END word of the innermost frame, and of no other, the body repeats with its streams stepped while iterations remain, else the frame closes and restores its
streams; away from every END word the pc goes to the next word. -/
def Obligations.LoopsRunTheirTrips : Prop :=
  (∀ (s : State) (q : QRef) (w : Nat), Ready s q 0x002 w → s.fits q w [] = true →
    let x := s.queue q
    let n := Bits.fld w 75 3
    let e := x.pc + Bits.fld w 64 11
    let trip := if Bits.bit w 81 then x.reg (Bits.fld w 32 6) % 2 ^ 32 else Bits.fld w 32 32
    (x.frame n).active = false → (x.activeFrames.all fun f => e ≤ f.2.last) = true →
    (trip ≠ 0 → Gives (.loop q) s ((s.updQueue q fun x => x.setFrame n
        { streams := loopStreams x w, active := true, last := e, start := x.pc + 1, iter := 0, trip := BitVec.ofNat 32 trip }).finish q w []
          (.body (x.pc + 1))))
    ∧ (trip = 0 → Gives (.loop q) s ((s.updQueue q fun x => x.setFrame n
        { x.frame n with iter := 0, trip := 0, start := x.pc + 1, last := e, streams := loopStreams x w }).finish q w [] (.past e))))
  ∧ (∀ (x : QueueSt) (i : Nat) (f : Frame) (outer : List (Nat × Frame)), x.activeFrames = (i, f) :: outer →
    (∀ g ∈ outer, g.2.last ≠ x.pc) →
    (f.last = x.pc → f.iter + 1 < f.trip →
      x.advance .seq = { (x.setFrame i { f with iter := f.iter + 1 }).stepStreams f with pc := f.start })
    ∧ (f.last = x.pc → ¬ f.iter + 1 < f.trip →
      x.advance .seq = { (x.setFrame i { f with iter := f.iter + 1, active := false }).restoreStreams f with pc := x.pc + 1 })
    ∧ (f.last ≠ x.pc → x.advance .seq = { x with pc := x.pc + 1 }))

/-- WAIT names one Milepost and WAITMIN N of them, in a row. Where every one is mapped and none is poisoned, the instruction retires when every one has
reached the value operand, and else its queue is WAITING at it. Where every one is mapped and one is poisoned, it completes with status 2^63 plus the first
poisoned number in s0 if POISON_CONTINUE is 1, and else halts the queue with HC-18 and that number. Where one is not mapped, it halts the queue with HC-19 and
the number of the first such. -/
def Obligations.WaitsComplete : Prop :=
  ∀ (s : State) (q : QRef) (w : Nat) (oc : OpCode) (c : Instr) (n : Nat),
    (oc, c, n) ∈ [(0x008, Instr.wait q, 1), (0x009, .waitmin q, Bits.fld w 45 7)] → Ready s q oc w →
    let k := s.ctxOf q
    let mp := Bits.fld w 32 13
    let v := addImm ((s.queue q).reg (Bits.fld w 54 6)) (imm32 w 64)
    let reached := ∀ i < n, v ≤ s.mpSeen k (mp + i) (s.epochOf k (s.queue q))
    ((∀ i < n, (s.mpEntry k (mp + i)).valid = true) →
      ((∀ i < n, s.mpPoisoned k (mp + i) = false) →
        (reached → s.fits q w [] = true → Gives c s (s.finish q w [] .seq))
        ∧ (¬ reached → exec c s = .next (s.holdAt q .milepost true)))
      ∧ ∀ j < n, s.mpPoisoned k (mp + j) = true → (∀ i < j, s.mpPoisoned k (mp + i) = false) →
        (s.val POISON_CONTINUE 0 = 1 → s.fits q w [] = true → Gives c s ((s.updQueue q fun x => x.setReg 0 (2 ^ 63 + (mp + j))).finish q w [] .seq))
        ∧ (s.val POISON_CONTINUE 0 ≠ 1 → exec c s = .next (s.haltQ q 0x18 (mp + j) 0)))
    ∧ ∀ j < n, (s.mpEntry k (mp + j)).valid = false → (∀ i < j, (s.mpEntry k (mp + i)).valid = true) → exec c s = .next (s.haltQ q 0x19 (mp + j) 0)

/-! ### Issue and retire -/

/-- How an issued instruction settles: one that waits for nothing retires at once, with its advances; one with work stays in flight; one that must wait holds its
queue; one that a check refuses halts it. -/
def Obligations.IssuedInstructionsSettle : Prop :=
  ∀ (s s' : State) (q : QRef) (w : Nat) (own : List (Nat × AdvMode × Nat)) (nx : Next), (s.queue q).inflight = [] →
    (s'.ctxOf q = s.ctxOf q → (s'.queue q).inflight = [] → (s'.ctx (s.ctxOf q)).aborting = none →
      s'.epochOf (s.ctxOf q) (s'.queue q) = s.epochOf (s.ctxOf q) (s.queue q) → s'.fits q w own = true →
      (s.settle q w (.go s' .now own nx)).Same (s'.finish q w own nx))
    ∧ (∀ work, work ≠ .now → s'.queue q = s.queue q → s'.ctxOf q = s.ctxOf q →
      s'.epochOf (s.ctxOf q) (s.queue q) = s.epochOf (s.ctxOf q) (s.queue q) →
      s.settle q w (.go s' work own nx) = s'.enter q w work own nx)
    ∧ (∀ wt b, s.settle q w (.wait s' wt b) = s'.holdAt q wt b)
    ∧ (∀ hc d a, s.settle q w (.halt s' hc d a) = s'.haltQ q hc d a)

/-- Whatever instruction a queue issues: a pc at or beyond the loaded length halts it with HC-04, and a word that the checks of R201 and R202 refuse halts it with
HC-01, HC-02 or HC-03 and the check's DETAIL, once every earlier instruction has retired. -/
def Obligations.EncodingChecksHalt : Prop :=
  ∀ (s : State) (q : QRef) (oc : OpCode) (serial : Bool) (body : Nat → Act), s.dieLost q.core.val = false → s.canIssue q = true →
    (s.queue q).inflight = [] →
    ((s.queue q).fetch = none → issue oc serial q s body = .next (s.haltQ q 0x04 (s.queue q).active.words.length 0))
    ∧ ∀ w hc d, (s.queue q).fetch = some w → checkWord q.queue w = some (hc, d) →
        (hc = 0x01 ∨ Bits.fld w 8 3 * 256 + Bits.fld w 0 8 = oc) → issue oc serial q s body = .next (s.haltQ q hc d 0)

/-! ### Core store and buffers -/

/-- SLD loads 2^SZ bytes, zero- or sign-extended, and SST stores the low 2^SZ bytes of its register, at a[AB] + sext(IMM), aligned, inside the core store and in a
buffer that the queue holds; nothing else changes. -/
def Obligations.ScalarLoadsAndStoresComplete : Prop :=
  ∀ (s : State) (q : QRef) (w : Nat), s.fits q w [] = true →
    let c := s.core q.core.val
    let n := 2 ^ Bits.fld w 55 2
    let a := addImm ((s.queue q).a (Bits.fld w 58 4)) (imm32 w 64)
    a % n = 0 → a + n ≤ storeSize →
    (Ready s q 0x01A w → c.sentinel q.queue false a n = none → linePoisoned c.poison a n = false →
      (s.queue q).streamFrame (Bits.fld w 32 6) = none →
      Gives (.sld q) s ((s.updQueue q fun x => x.setReg (Bits.fld w 32 6)
        (if Bits.bit w 57 then Bits.wrap (Bits.signed (c.readNat a n) (8 * n)) 64 else c.readNat a n)).finish q w [] .seq))
    ∧ (Ready s q 0x01B w → c.sentinel q.queue true a n = none →
      Gives (.sst q) s ((s.updCore q.core.val fun c =>
        c.write a (Bits.toBytes n ((s.queue q).reg (Bits.fld w 32 6))) (noFormat n)).finish q w [] .seq))

/-- A write of the core store puts its bytes at their addresses, leaves every other byte as it was, and changes nothing else of the core but exponent
summaries and poison marks. -/
def Obligations.CoreStoreWritesReadBack : Prop :=
  ∀ (c : Core) (a : Nat) (bs : List Byte) (es : List (Option Int)), Tab.wf 0 c.store = true →
    let d := c.write a bs es
    Tab.wf 0 d.store = true
    ∧ (∀ i < bs.length, Tab.get 0 d.store (a + i) = bs.getD i 0)
    ∧ (∀ m, m < a ∨ a + bs.length ≤ m → Tab.get 0 d.store m = Tab.get 0 c.store m)
    ∧ { d with store := c.store, summ := c.summ, poison := c.poison } = c

/-- The sentinel: an access by a queue that holds no buffer covering its first byte is refused with HC-10, and a write through a buffer that the queue holds
in read mode with HC-11 and the buffer's number; an access within one buffer that the queue holds passes, a write only where the hold is in write mode. -/
def Obligations.SentinelRefuses : Prop :=
  ∀ (c : Core) (q : Queue) (wr : Bool) (a n : Nat), 0 < n →
    ((∀ m b, (m, b) ∈ c.buffers → (b.writer = some q ∨ q ∈ b.readers) → ¬ (b.base ≤ a ∧ a < b.base + b.len)) →
      c.sentinel q wr a n = some (0x10, 0))
    ∧ (∀ m b, c.heldAt q a = some (m, b, false) → c.sentinel q true a n = some (0x11, m))
    ∧ (∀ m b, c.heldAt q a = some (m, b, true) → a + n ≤ b.base + b.len → c.sentinel q wr a n = none)
    ∧ (∀ m b, c.heldAt q a = some (m, b, false) → a + n ≤ b.base + b.len → c.sentinel q false a n = none)

/-- BDEF, GIVE, TAKE and BREL complete, when the core's buffer table has been recorded for the queue's epoch: BDEF defines a buffer that overlaps none and
that its queue holds in write mode; GIVE of a held buffer, in the O queue once no prefetch covers it, releases the hold and offers the buffer to the queues of
its mask; TAKE, once its Milepost has reached the value, uses an offer and holds the buffer, in write mode only where no queue holds it; BREL of a buffer held
in write mode and not on offer frees the number and forgets the summaries of its bytes. BUFFER_TABLE_RECORDED records the core's buffer table for every open
epoch that its five queues have all reached and that has no record yet, and the buffer instructions that wait for it run again. -/
def Obligations.BufferInstructionsComplete : Prop :=
  (∀ (s : State) (q : QRef) (w : Nat), s.bufsRecorded q = true → s.fits q w [] = true →
    let c := s.core q.core.val
    let n := Bits.fld w 32 6
    (Ready s q 0x010 w →
      let base := addImm ((s.queue q).a (Bits.fld w 44 4)) (imm32 w 96)
      let len := (s.queue q).reg (Bits.fld w 48 6)
      base % 64 = 0 → len % 64 = 0 → len ≠ 0 → base + len ≤ storeSize → c.buf n = none →
      (c.buffers.any fun e => e.2.base < base + len && base < e.2.base + e.2.len) = false →
      Gives (.bdef q) s ((s.updCore q.core.val fun c => c.setBuf n (some { base := base, len := len, writer := some q.queue })).finish q w [] .seq))
    ∧ (∀ b, Ready s q 0x011 w → c.buf n = some b → (b.writer = some q.queue ∨ b.readers.contains q.queue = true) →
      (q.queue = .O → unconfirmed c b.base b.len = false) →
      Gives (.give q) s ((s.updCore q.core.val fun c => c.setBuf n (some (b.give q.queue (Bits.bit w 38) (Bits.fld w 39 5)))).finish q w [] .seq))
    ∧ (∀ b, Ready s q 0x012 w → c.buf n = some b → b.offers.contains (Bits.bit w 38, q.queue) = true →
      (Bits.bit w 38 = true → b.writer = none ∧ b.readers = []) →
      (s.mpEntry (s.ctxOf q) (Bits.fld w 54 13)).valid = true → s.mpPoisoned (s.ctxOf q) (Bits.fld w 54 13) = false →
      addImm ((s.queue q).reg (Bits.fld w 48 6)) (imm32 w 96) ≤ s.mpSeen (s.ctxOf q) (Bits.fld w 54 13) (s.epochOf (s.ctxOf q) (s.queue q)) →
      Gives (.take q) s ((s.updCore q.core.val fun c => c.setBuf n (some (b.take q.queue (Bits.bit w 38)))).finish q w [] .seq))
    ∧ (∀ b, Ready s q 0x013 w → c.buf n = some b → b.writer = some q.queue → b.offers = [] →
      Gives (.brel q) s ((s.updCore q.core.val fun c =>
        { c.setBuf n none with summ := Tab.clearRange c.summ b.base (b.base + b.len) }).finish q w [] .seq)))
  ∧ (∀ (s : State) (core : CoreId) (k : Nat), Works s core k →
    let u := (s.ctx k).epochs.foldl (fun u e =>
      if e.st = .opened ∧ u.coreInEpoch core k e.n = true ∧ ((u.core core.val).bufRec.any fun b => b.1 == e.n) = false then u.recordBufs core.val e.n else u) s
    exec (.bufferTableRecorded core) s = .next (State.after (allQueues.foldl (fun u t => u.bufAgain ⟨core, t⟩) u) k))

/-! ### Ridgepole -/

/-- RIDGE of a participant of an enabled group arrives: its participant Milepost rises as far as the window allows, with those of every other arrival that
this lets on, and the queue waits; RIDGE outside its group is refused with HC-1E. A waiting RIDGE of an enabled group completes once no participant is
poisoned, every participant has reached its round, and, in the step group and for a new round, SPEC_DEPTH and the banks let the next epoch open; in the step
group the queue then enters its next epoch. -/
def Obligations.RidgesArriveAndComplete : Prop :=
  (∀ (s : State) (q : QRef) (w : Nat), Ready s q 0x00C w →
    let k := s.ctxOf q
    let gn := Bits.fld w 32 6
    (∀ g, s.rgroup k gn = some g → s.isPart k g q = true →
      let u := s.ridgeRaise k gn g (s.roleOf q.core.val) q.queue (addImm ((s.queue q).reg (Bits.fld w 54 6)) (imm32 w 64)) (s.epochOf k (s.queue q))
      exec (.ridge q) s = .next (State.holdAt (u.ridgeSettle k gn g ((u.participants k g).length * 2 ^ 64)) q .ridge true))
    ∧ ((∀ g, s.rgroup k gn = some g → s.isPart k g q = false) → exec (.ridge q) s = .next (s.haltQ q 0x1E gn 0)))
  ∧ (∀ (s : State) (q : QRef) (k w : Nat) (g : RGroup), Works s q.core k → (s.queue q).wait = some .ridge →
    let u := s.awake q
    Ready u q 0x00C w → u.fits q w [] = true →
    let gn := Bits.fld w 32 6
    let r := addImm ((s.queue q).reg (Bits.fld w 54 6)) (imm32 w 64)
    u.rgroup k gn = some g →
    let ps := u.participants k g
    (∀ e ∈ ps, (u.part (partKey k gn e.1 e.2)).poisoned = false) →
    (∀ m, u.partMin k gn ps (u.epochOf k (u.queue q)) = some m → r ≤ m) →
    (u.stepGroup k = some gn → (u.queue q).round < r → u.depthAllows k r = true ∧ u.mayOpen k (u.val STEP_BASE (k + 1) + r + 1) = true) →
    let t := u.settle q w (.done u)
    exec (.ridgeComplete q) s = .next (State.after (if t.stepGroup k = some gn ∧ (s.queue q).round < r ∧ (t.queue q).wait = none ∧ (t.queue q).st = .running
      then t.enterEpoch q k r else t) k))

/-- Raising an arrival never lowers a participant Milepost, changes no other participant, and keeps the arrival within its round and, while other participants
stand, within the window above the least of them. -/
def Obligations.RidgeRaisesWithinTheWindow : Prop :=
  ∀ (s : State) (k gn : Nat) (g : RGroup) (role : Nat) (q : Queue) (r : Nat) (ep : Option Nat), s.partSpec k gn = false →
    let key := partKey k gn role q
    let t := s.ridgeRaise k gn g role q r ep
    (∀ key', key' ≠ key → t.part key' = s.part key')
    ∧ (s.part key).val ≤ (t.part key).val
    ∧ (t.part key).val ≤ max (s.part key).val r
    ∧ ∀ m, s.partMin k gn ((s.participants k g).filter fun e => !(e.1 == role && e.2 == q)) ep = some m →
        (t.part key).val ≤ max (s.part key).val (m + g.window)

/-! ### Outrider -/

/-- DARM, DREARM, DSTAT and DSTOP complete, and DGO and PREF start their chunk: an idle slot is ARMED with the descriptor at its address, or the descriptor is
pending on a busy slot; the slot state word goes to R[RV]; a slot that no stream runs becomes ARMED, or stays EMPTY, with its prefetch cancelled and counted
and its pending descriptor discarded; the chunk of an ARMED slot that meets no bytes of an earlier chunk in flight runs, with the descriptor's advances at its
retire point, or is prefetched unconfirmed. -/
def Obligations.DescriptorInstructionsComplete : Prop :=
  ∀ (s : State) (q : QRef) (w : Nat),
    let c := s.core q.core.val
    let ds := Bits.fld w 32 6
    let x := c.slot ds
    let k := s.ctxOf q
    let d := descOf x.desc.toNat
    let a := addImm ((s.queue q).a (Bits.fld w 38 4)) (imm32 w 96)
    let loads := a % 64 = 0 ∧ a + 64 ≤ storeSize ∧ c.sentinel q.queue false a 64 = none ∧ c.runWrites a 64 = false ∧ linePoisoned c.poison a 64 = false
      ∧ descMalformed (c.readNat a 64) = false
    (Ready s q 0x100 w → s.fits q w [] = true → x.st.busy = false → loads →
      Gives (.darm q) s ((s.updCore q.core.val fun c => c.setSlot ds (armedSlot (BitVec.ofNat 512 (c.readNat a 64)) a)).finish q w [] .seq))
    ∧ (Ready s q 0x101 w → s.fits q w [] = true → ¬ (x.st.busy = true ∧ x.pend.isSome = true) → loads →
      Gives (.drearm q) s ((s.updCore q.core.val fun c => c.setSlot ds
        (if x.st.busy then { x with pend := some (BitVec.ofNat 512 (c.readNat a 64), a) } else armedSlot (BitVec.ofNat 512 (c.readNat a 64)) a)).finish
          q w [] .seq))
    ∧ (Ready s q 0x102 w → x.st = .armed → s.descRefused k d = none → s.peerMissing k x.chunk d = none → s.slotHazard q.core.val k ds = false →
      exec (.dgo q) s = .next ((s.updCore q.core.val fun c => c.setSlot ds
        { x with st := .running, run := some { instr := s.nextId, epoch := s.epochOf k (s.queue q) } }).enter q w (.dgo ds) (d.advs x.chunk) .seq))
    ∧ (Ready s q 0x103 w → x.st = .armed → (s.mpEntry k (Bits.fld w 48 13)).valid = true → d.dstk = 0 → s.peerMissing k x.chunk d = none →
      s.slotHazard q.core.val k ds = false → let v := addImm ((s.queue q).reg (Bits.fld w 42 6)) (imm32 w 96)
      exec (.pref q) s = .next ((s.updCore q.core.val fun c => c.setSlot ds
        { x with st := .prefetching
                 run := some { pref := true, instr := s.nextId, reached := decide (v ≤ s.mpSeen k (Bits.fld w 48 13) (s.epochOf k (s.queue q)))
                               mp := Bits.fld w 48 13, value := BitVec.ofNat 64 v, epoch := s.epochOf k (s.queue q) } }).enter
          q w (.pref ds) [] .seq))
    ∧ (Ready s q 0x104 w → s.fits q w [] = true → x.st ≠ .running → x.st ≠ .paused →
      let held := match x.run with
        | some r => r.pref
        | none => false
      let t := s.updCore q.core.val fun c => c.setSlot ds
        { x with st := if x.st = .empty then .empty else .armed, run := none, pff := false, pend := none }
      exec (.dstop q) s = .next (s.settle q w (.done (if held then t.countDie WB.PREF_CANCELLED (coreDie q.core.val) 1 else t))))
    ∧ (Ready s q 0x105 w → s.fits q w [] = true → (s.queue q).streamFrame (Bits.fld w 42 6) = none →
      Gives (.dstat q) s ((s.updQueue q fun y => y.setReg (Bits.fld w 42 6) x.word).finish q w [] .seq))

/-! ### Tensor array -/

/-- MM and ATTN issue: MM opens or continues its tile and gives the array the segments of its products; ATTN opens or continues the two tiles and the row
records of its attention and gives the array the chunks of its keys; each stays in flight until the array has folded them. Where one reads a poisoned line or
a poisoned slot of a tile that it continues, the queue halts with HC-60 at the first such place (log entry 85). -/
def Obligations.ArrayInstructionsComplete : Prop :=
  ∀ (s : State) (q : QRef) (w : Nat),
    let c := s.core q.core.val
    (Ready s q 0x200 w →
      let o := mmOps (s.queue q) w
      (o.opened = true → (c.tile o.t).st = .free) → (o.opened = false → (c.tile o.t).st = .accumulating ∧ (c.tile o.t).attn = false) →
      mmCheck c o = none →
      (o.poisoned c = none → exec (.mm q) s = .next (s.settle q w (.go (s.mmRun q o) .array [] .seq)))
      ∧ ∀ a, o.poisoned c = some a → exec (.mm q) s = .next (s.settle q w (hc60 s q a)))
    ∧ (Ready s q 0x208 w →
      let o := attnOps (s.queue q) w
      (o.opened = true → c.tile0.st = .free ∧ c.tile1.st = .free) → (o.opened = false → c.attnHeld = true) →
      attnCheck c o (Bits.fld w 76 5) = none → (s.queue q).streamFrame o.reg = none →
      (o.poisoned c = none → exec (.attn q) s = .next (s.settle q w (.go (s.attnRun q o) .attn [] .seq)))
      ∧ ∀ a, o.poisoned c = some a → exec (.attn q) s = .next (s.settle q w (hc60 s q a)))

/-- What the replay ladder folds into a cell is the exact sum of its products: a clean first pass folds it whole, and otherwise the passes that the ladder runs
after it fold windows whose total is the sum, whatever the summaries and the guard adjustment. No ladder is longer than eight passes. -/
def Obligations.ReplayLadderIsExact : Prop :=
  ∀ (l : List Int) (er ec : Option Int) (adj : Int),
    (∀ n w, firstPass l er ec adj = (w, n) →
      (n = none → w = some l.sum) ∧ ∀ p, n = some p → w = none ∧ ladderFrom l er ec 8 p = some l.sum)

/-- Folding is exact and its order is without effect: the integers of slots add modulo 2^640, a datum adds its value in units of 2^-300, and two additions
commute, in the sum, the flags and the count of terms; flags are ORed and TERMS saturates. -/
def Obligations.SlotsAddExactlyInAnyOrder : Prop :=
  ∀ (a b c : L640) (x y : Fp),
    (a.add b).acc = a.acc + b.acc ∧ (a.add b).terms.toNat = min (a.terms.toNat + b.terms.toNat) (2 ^ 64 - 1)
      ∧ (a.add b).nan = (a.nan || b.nan) ∧ (a.add b).pinf = (a.pinf || b.pinf) ∧ (a.add b).ninf = (a.ninf || b.ninf) ∧ (a.add b).snan = (a.snan || b.snan)
      ∧ (x.isFin = true → (a.addFp x).acc = a.acc + BitVec.ofInt 640 (x.val.truncAt (-300)))
      ∧ (a.add b).add c = (a.add c).add b ∧ (a.addFp x).addFp y = (a.addFp y).addFp x ∧ (a.add b).addFp x = (a.addFp x).add b

/-! ### Vector engine -/

/-- The instructions of the V queue that give each active thread one result: register vd, or the pair, of thread t takes the function of its operands, and the
thread's sticky flags rise. -/
def Obligations.VectorArithmeticCompletes : Prop :=
  ∀ (s : State) (q : QRef) (w : Nat), s.fits q w [] = true →
    let x := s.queue q
    let c := s.core q.core.val
    let g := vFmt w
    let p := vP w
    let A := fun t => Fp.decode g (c.vget p t (vaF w))
    let B := fun t => Fp.decode g (opB x c w p t)
    let put := fun (p : Bool) (f : Nat → Ieee.Res) => (s.updCore q.core.val fun c => c.eachThread p (vdF w) f).finish q w [] .seq
    (Ready s q 0x300 w → Gives (.vadd q) s (put p fun t => Ieee.add g (A t) (B t)))
    ∧ (Ready s q 0x301 w → Gives (.vsub q) s (put p fun t => Ieee.sub g (A t) (B t)))
    ∧ (Ready s q 0x302 w → Gives (.vmul q) s (put p fun t => Ieee.mul g (A t) (B t)))
    ∧ (Ready s q 0x303 w → Gives (.vfma q) s (put p fun t => Ieee.fma g (A t) (B t) (Fp.decode g (c.vget p t (vcF w)))))
    ∧ (Ready s q 0x304 w → Gives (.vdiv q) s (put p fun t => Ieee.div g (A t) (B t)))
    ∧ (Ready s q 0x305 w → Gives (.vsqrt q) s (put p fun t => Ieee.sqrt g (A t)))
    ∧ (Ready s q 0x306 w → Gives (.vrem q) s (put p fun t => Ieee.rem g (A t) (B t)))
    ∧ (Ready s q 0x307 w → Gives (.vrint q) s (put p fun t => Ieee.rint g (A t)))
    ∧ (Ready s q 0x308 w → Gives (.vmin q) s (put p fun t => Ieee.minMax g false (A t) (B t) (c.vget p t (vaF w)) (opB x c w p t)))
    ∧ (Ready s q 0x309 w → Gives (.vmax q) s (put p fun t => Ieee.minMax g true (A t) (B t) (c.vget p t (vaF w)) (opB x c w p t)))
    ∧ (Ready s q 0x30A w → Gives (.vcmp q) s (put p fun t =>
        let r := Ieee.cmp (Bits.fld w 32 8) (A t) (B t)
        (if r.1 then (if p then 2 ^ 64 - 1 else 2 ^ 32 - 1) else 0, r.2)))
    ∧ (Ready s q 0x30B w → Gives (.vsel q) s (put p fun t =>
        (if c.vget p t (vcF w) ≠ 0 then c.vget p t (vaF w) else opB x c w p t, 0)))
    ∧ (Ready s q 0x30C w → Gives (.vcvt q) s (put (Bits.fld w 86 4 == 3) fun t =>
        let src := (Fmt.ff (Bits.fld w 82 4)).getD Ff.b32
        Ieee.cvt src ((Fmt.ff (Bits.fld w 86 4)).getD Ff.b32) (c.vget (Bits.fld w 82 4 == 3) t (vaF w) % 2 ^ src.width)))
    ∧ (Ready s q 0x30D w → Gives (.vtrn q) s (put p fun t => trn g (Bits.fld w 32 8) p (c.vget p t (vaF w))))
    ∧ (Ready s q 0x30E w → Gives (.viop q) s (put false fun t =>
        (scalarFn 32 (Bits.fld w 32 8) (c.vget false t (vaF w)) (opB x c w false t), 0)))
    ∧ (Ready s q 0x313 w → Gives (.vtid q) s (put false fun t => (t, 0)))
    ∧ (Ready s q 0x314 w → Gives (.vbcast q) s (put false fun _ => (x.reg (Bits.fld w 68 6) % 2 ^ 32, 0)))

/-- Giving every active thread a result: threads 0 to 64 N - 1 are active, each of them reads its result back in its destination modulo the register's width with
its flags raised, and no other thread, register or part of the core changes. The same for pairs: the low word goes to vd and the high word to vd + 1. -/
def Obligations.EveryActiveThreadTakesItsResults : Prop :=
  (∀ (c : Core) (vd : Nat) (f : Nat → Ieee.Res), vd < 64 →
    let d := c.eachThread false vd f
    (∀ t < 64 * c.vslots, d.vreg t vd = (f t).1 % 2 ^ 32 ∧ d.flags t = (c.flags t ||| (f t).2) % 32)
    ∧ (∀ t, 64 * c.vslots ≤ t → d.vreg t vd = c.vreg t vd ∧ d.flags t = c.flags t)
    ∧ (∀ t r, r < 64 → r ≠ vd → d.vreg t r = c.vreg t r)
    ∧ { d with vregs := c.vregs, vflags := c.vflags } = c)
  ∧ (∀ (c : Core) (vd : Nat) (f : Nat → Ieee.Res), vd < 63 →
    let d := c.eachThread true vd f
    (∀ t < 64 * c.vslots, d.vget true t vd = (f t).1 % 2 ^ 64 ∧ d.flags t = (c.flags t ||| (f t).2) % 32)
    ∧ (∀ t, 64 * c.vslots ≤ t → d.vget true t vd = c.vget true t vd ∧ d.flags t = c.flags t)
    ∧ (∀ t r, r < 64 → r ≠ vd → r ≠ vd + 1 → d.vreg t r = c.vreg t r)
    ∧ { d with vregs := c.vregs, vflags := c.vflags } = c)

/-- The V queue's accesses of the core store, VCFG, VFLAGS and VBENC: VLD reads 4 or 8 bytes for every thread; VST writes them, thread by thread so that the
highest stands; VXADD adds exactly into slots of the core store, or sends exact adds; VCFG sets the number of active slots; VFLAGS reads the sticky flags and
may clear them; VBENC writes block records and counts crushed and saturated elements. -/
def Obligations.VectorMemoryAndControlComplete : Prop :=
  ∀ (s : State) (q : QRef) (w : Nat),
    let x := s.queue q
    let c := s.core q.core.val
    let p := vP w
    let n := if p then 8 else 4
    let at_ := vAddr x c w
    let term := fun t => vxTerm p (c.vget p t (vbF w))
    (Ready s q 0x310 w → s.fits q w [] = true → vAccess q x c w n n false = none → (∀ t ∈ c.threads, linePoisoned c.poison (at_ t) n = false) →
      Gives (.vld q) s ((s.updCore q.core.val fun c => c.eachThread p (vdF w) fun t => (c.readNat (at_ t) n, 0)).finish q w [] .seq))
    ∧ (Ready s q 0x311 w → s.fits q w [] = true → vAccess q x c w n n true = none →
      Gives (.vst q) s ((s.updCore q.core.val fun c =>
        c.threads.foldl (fun d t => d.write (at_ t) (Bits.toBytes n (c.vget p t (vbF w))) (noFormat n)) c).finish q w [] .seq))
    ∧ (Ready s q 0x312 w → s.fits q w [] = true → Bits.fld w 32 8 = 0 → vAccess q x c w 96 32 true = none →
      (∀ t ∈ c.threads, linePoisoned c.poison (at_ t) 96 = false) →
      exec (.vxadd q) s = .next (s.settle q w (.done (s.setCore q.core.val (c.threads.foldl (fun d t =>
        (d.write (at_ t) (Bits.toBytes 96 ((L640.ofNat (d.readNat (at_ t) 96)).add (term t).1).toNat) (noFormat 96)).raise t (term t).2) c)))))
    ∧ (Ready s q 0x312 w → Bits.fld w 32 8 ≠ 0 →
      let k := s.ctxOf q
      (∀ t ∈ c.threads, s.eauCheck k (at_ t) (s.vxW128 k (at_ t)) = none) →
      exec (.vxadd q) s = .next (s.settle q w (.go
        ((s.updCore q.core.val fun c => c.threads.foldl (fun d t => d.raise t (term t).2) c).putAdds q s.nextId k (s.epochOf k x)
          (c.threads.map fun t => (at_ t, s.vxW128 k (at_ t), (term t).1))) (.adds 0) [] .seq)))
    ∧ (Ready s q 0x315 w → s.fits q w [] = true → 1 ≤ x.reg (Bits.fld w 68 6) → x.reg (Bits.fld w 68 6) ≤ 64 →
      Gives (.vcfg q) s ((s.updCore q.core.val fun c => { c with vslots := x.reg (Bits.fld w 68 6) }).finish q w [] .seq))
    ∧ (Ready s q 0x316 w → s.fits q w [] = true →
      Gives (.vflags q) s ((s.updCore q.core.val fun c => c.threads.foldl (fun d t =>
        let d := d.vput false t (vdF w) (c.flags t)
        if Bits.fld w 32 8 = 1 then d.setFlags t 0 else d) c).finish q w [] .seq))
    ∧ (Ready s q 0x317 w →
      let src := x.a (Bits.fld w 74 4)
      let dst := x.a (Bits.fld w 78 4)
      let bfb := Bits.fld w 96 8
      let f := bfb % 16
      let bs := Bits.fld bfb 5 2
      let m := x.reg (Bits.fld w 68 6)
      let bl := encodeRow f bs (Bits.bit bfb 7) (if Bits.bit bfb 4 then some (Bits.fld w 104 8) else none)
        ((List.range m).map fun i => Fp.decode Ff.b32 (c.readNat (src + 4 * i) 4))
      let rs := bl.map (recOf f bs)
      bfbMalformed bfb (Bits.fld w 104 8) = false → coreRegion src (4 * m) 4 = none → coreRegion dst (Fmt.rowBytes f bs m) 64 = none →
      c.sentinel q.queue false src (4 * m) = none → c.sentinel q.queue true dst (Fmt.rowBytes f bs m) = none →
      linePoisoned c.poison src (4 * m) = false →
      exec (.vbenc q) s = .next (s.settle q w (.done
        ((s.updCore q.core.val fun c => c.write dst (rs.flatMap (·.1)) (rs.flatMap (·.2))).countCrush (s.ctxOf q) (s.epochOf (s.ctxOf q) x)
          (Bits.fld w 112 16) (crushes bl) (saturations bl)))))

/-! ### Fold engine and update engine -/

/-- RET and NORM, where their checks ask for no replay, and NSQ and CENS complete: with the shares that have reached it (R106), a tile goes into the core
store and retires at once, or leaves as exact adds with its slot RETIRING; the normalised outputs of an attention go into the core store; an exact sum of
squares is added into a slot, or leaves as an exact add; the values are counted into a gradient census. A RET or NORM that reads a poisoned line or slot halts
its queue with HC-60 at the first such place (log entry 85). -/
def Obligations.FoldInstructionsComplete : Prop :=
  ∀ (s : State) (q : QRef) (w : Nat),
    let c := s.core q.core.val
    let k := s.ctxOf q
    (∀ chk, Ready s q 0x400 w →
      let o := retOps (s.queue q) w
      let u := s.takeShares q o.t chk.shares
      let t := (u.core q.core.val).tile o.t
      s.retCheck q o = none →
      (∀ a, o.poisoned c = some a → exec (.ret q chk) s = .next (s.settle q w (hc60 s q a)))
      ∧ (o.poisoned c = none → u.holdFor q chk.find (o.newNonfinite t (o.outputs t (if o.dk < 2 then o.lines t else []))) = .no →
      exec (.ret q chk) s = .next (s.settle q w (if o.dk < 2 then .done (u.retStore q o)
        else .go ((u.retireTile q o.t).putAdds q u.nextId (u.ctxOf q) (u.epochOf (u.ctxOf q) (u.queue q)) (o.adds t (o.rows (u.core q.core.val) t)))
          (.adds 0) [] .seq))))
    ∧ (∀ chk, Ready s q 0x401 w →
      let o := retOps (s.queue q) w
      let u := s.takeAttn q o.ar chk.shares
      s.normCheck q .accumulating o = none →
      (∀ a, o.normPoisoned c = some a → exec (.norm q chk) s = .next (s.settle q w (hc60 s q a)))
      ∧ (o.normPoisoned c = none → u.holdFor q chk.find ((u.core q.core.val).normNewNonfinite o) = .no →
        exec (.norm q chk) s = .next (s.settle q w (.done (u.normStore q o)))))
    ∧ (Ready s q 0x402 w →
      let o := srcOps (s.queue q) w
      let ad := (s.queue q).a (Bits.fld w 76 4)
      s.srcCheck q o = none → (s.queue q).streamFrame (Bits.fld w 98 6) = none → s.srcPoison q o = none →
      (Bits.fld w 41 3 = 2 → s.eauCheck k ad false = none →
        exec (.nsq q) s = .next (s.settle q w (.go ((s.srcEvidence q o).putAdds q (s.srcEvidence q o).nextId k ((s.srcEvidence q o).epochOf k (s.queue q))
          [(ad, false, squares (s.srcVals q o))]) (.adds (retireRecord 0 0 0 (squares (s.srcVals q o)).read.isNan (squares (s.srcVals q o)).read.isInf 0 0 0)) [] .seq)))
      ∧ (Bits.fld w 41 3 ≠ 2 → ad % 32 = 0 → ad + 96 ≤ storeSize → c.sentinel .F true ad 96 = none → linePoisoned c.poison ad 96 = false →
        exec (.nsq q) s = .next (s.settle q w (.done (State.updQueue ((s.srcEvidence q o).updCore q.core.val fun c =>
          c.write ad (Bits.toBytes 96 ((L640.ofNat (c.readNat ad 96)).add (squares (s.srcVals q o))).toNat) []) q fun x =>
            x.setReg (Bits.fld w 98 6) 0)))))
    ∧ (Ready s q 0x403 w →
      let o := srcOps (s.queue q) w
      s.srcCheck q o = none → (s.queue q).streamFrame (Bits.fld w 98 6) = none → s.srcPoison q o = none → s.srcVals q o ≠ [] →
      exec (.cens q) s = .next (s.settle q w (.done (State.updQueue ((s.srcEvidence q o).updCensus k ((s.srcEvidence q o).epochOf k (s.queue q))
        (Bits.fld w 112 16) fun n => (s.srcVals q o).foldl (fun n v => n.countElem ((s.srcEvidence q o).ival WB.CENS_UEXP (k + 1)) v) n) q fun x =>
          x.setReg (Bits.fld w 98 6) 0))))

/-- USGD, UMOM, UADAM and UFACT complete in the oldest uncommitted epoch of their context: the update of the elements, from the committed bank into the other
one, with the writes into windows sent, for whose acknowledgements the instruction then waits, once the effect queue has room for those that leave the job.
With a count of zero they do nothing; without epochs they are refused with HC-51. -/
def Obligations.UpdateInstructionsComplete : Prop :=
  ∀ (s : State) (q : QRef) (w op : Nat) (i : Instr), (op, i) ∈ [(0, Instr.usgd q), (1, .umom q), (2, .uadam q), (3, .ufact q)] →
    Ready s q (0x500 + op) w →
    let k := s.ctxOf q
    let o := uOps (s.queue q) op w
    let co := s.core q.core.val
    let h := hyperOf (co.readNat o.ah 128)
    let c := s.cbankOf k h.tid
    (s.epochOf k (s.queue q) = none → exec i s = .next (s.haltQ q 0x51 0 o.ah))
    ∧ ∀ n, s.epochOf k (s.queue q) = some n → (s.ctx k).oldest = some n →
      (o.n = 0 → s.fits q w [] = true → Gives i s (s.finish q w [] .seq))
      ∧ (o.n ≠ 0 → coreRegion o.ah 128 64 = none → co.sentinel .U false o.ah 128 = none → linePoisoned co.poison o.ah 128 = false →
        hyperBad op (co.readNat o.ah 128) (s.tensorOn k h.tid) = none → (s.ctx k).pinned h.tid (1 - c) = false →
        s.uCheck k o h c = none → s.uPoison k o h c = none → s.uEffectWaits k n o h c = false →
        let t := s.update q k n o h c
        exec i s = .next (s.settle q w (.go t (if t.eauq = s.eauq then .now else .sends) [] .seq)))

/-! ### Events of the queues, the array and the Outrider -/

/-- The oldest issued instruction of a queue whose work is over reaches its retire point: what the end of its work does happens, unless its context is being
aborted, and the queue retires it and those behind it that wait for nothing. An advance in transit to a die with a defined state arrives, in the order of its
queue: it leaves the transit and is applied at its home. -/
def Obligations.InstructionsRetireAndAdvancesArrive : Prop :=
  (∀ (s : State) (q : QRef) (k : Nat) (i : InFlight) (rest : List InFlight), Works s q.core k → (s.queue q).inflight = i :: rest →
    s.workDone q i = true →
    let t := if (s.ctx k).aborting.isSome then s else s.workEnd q i
    exec (.instructionRetire q) s = .next (State.after ((t.updQueue q fun x => { x with inflight := { i with work := .now } :: rest }).drain q (rest.length + 1)) k))
  ∧ (∀ (s : State) (i : Nat) (a : Adv), s.up = true → s.transit[i]? = some a → s.scanned.contains (pmpHome a.pmp) = false → (∀ b ∈ s.transit.take i, b.src ≠ a.src ∨ a.src = none) →
    exec (.milepostAdvanceArrive i) s = .next (State.after (State.applyAdv { s with transit := s.transit.eraseIdx i } a) a.k))

/-- An event that ends a wait runs the waiting instruction again, as it would issue then: MILEPOST_WAIT_DONE a WAIT or WAITMIN, TAKE_GRANT a TAKE,
DESCRIPTOR_SLOT_READY a DARM, DREARM, DGO, PREF or DSTOP, U_ISSUE_WAIT_DONE an instruction of the update engine, TILE_SLOT_WAIT_DONE an MM or ATTN. -/
def Obligations.EndedWaitsRunTheInstructionAgain : Prop :=
  ∀ (s : State) (q : QRef) (k w : Nat), Works s q.core k →
    let x := s.queue q
    let u := s.awake q
    (x.wait = some .milepost → Ready u q 0x008 w → ∃ t, exec (.wait q) u = .next t ∧ exec (.milepostWaitDone q) s = .next (t.after k))
    ∧ (x.wait = some .milepost → Ready u q 0x009 w → ∃ t, exec (.waitmin q) u = .next t ∧ exec (.milepostWaitDone q) s = .next (t.after k))
    ∧ (x.wait = some .take → Ready u q 0x012 w → ∃ t, exec (.take q) u = .next t ∧ exec (.takeGrant q) s = .next (t.after k))
    ∧ (q.queue = .O → ∀ ds : Fin 64, x.wait = some (.slot ds.val) →
      (Ready u q 0x100 w → ∃ t, exec (.darm q) u = .next t ∧ exec (.descriptorSlotReady q.core ds) s = .next t)
      ∧ (Ready u q 0x101 w → ∃ t, exec (.drearm q) u = .next t ∧ exec (.descriptorSlotReady q.core ds) s = .next t)
      ∧ (Ready u q 0x102 w → ∃ t, exec (.dgo q) u = .next t ∧ exec (.descriptorSlotReady q.core ds) s = .next t)
      ∧ (Ready u q 0x103 w → ∃ t, exec (.pref q) u = .next t ∧ exec (.descriptorSlotReady q.core ds) s = .next t)
      ∧ (Ready u q 0x104 w → ∃ t, exec (.dstop q) u = .next t ∧ exec (.descriptorSlotReady q.core ds) s = .next t))
    ∧ (q.queue = .U → x.wait = some .uIssue → ∀ op i, (op, i) ∈ [(0, Instr.usgd q), (1, .umom q), (2, .uadam q), (3, .ufact q)] →
      Ready u q (0x500 + op) w → ∃ t, exec i u = .next t ∧ exec (.uIssueWaitDone q.core) s = .next t)
    ∧ (q.queue = .T → x.wait = some .tileSlot →
      (Ready u q 0x200 w → ∃ t, exec (.mm q) u = .next t ∧ exec (.tileSlotWaitDone q.core) s = .next t)
      ∧ (Ready u q 0x208 w → ∃ t, exec (.attn q) u = .next t ∧ exec (.tileSlotWaitDone q.core) s = .next t))

/-- The first pass of a segment of an MM folds the windows of its clean cells into the tile and leaves the flagged cells to replay; a replay pass folds the
windows of the cells of its plan; the segment ends with its last cell. The passes of an ATTN's chunk do the same, and the chunk's last one lets its rows take
their terms. A tile replay that runs on a spare ends (Table 10-5, R359): one more replay is counted; a replay whose residues pass lets the held retire go on,
with the epoch REPAIRED and FB SUB 0x03 against the core after a failed residue check, FC SUB 0x01 where a new non-finite tile differs, or FC SUB 0x02 against
the one of two twins that the replay does not match, and leaves the part in doubt where it matches neither; a first failure in replay logs FB SUB 0x04 against
the spare, and the replay begins on the next idle one; a second leaves the part in doubt. -/
def Obligations.ArrayPassesAndReplaysComplete : Prop :=
  (∀ (s : State) (core : CoreId) (j : ArrayJob) (k0 len : Nat) (segs : List (Nat × Nat)),
    s.dieLost core.val = false → s.arrayRuns = true → (s.core core.val).job = some j → j.segs = (k0, len) :: segs →
    let c := core.val
    let x := s.core c
    let tile := x.tile j.tile
    let adj := s.ival ANCHOR_GUARD_ADJ 0
    (j.attn = none → j.cells = [] →
      let p := x.pass j k0 len tile (fun l er ec => firstPass l er ec adj) (cellsOf j.mr j.nc)
      let u := (s.updCore c fun x =>
        { x.setTile j.tile { p.1 with hs := tile.hs + j.handshakes len } with
          job := some { j with cells := p.2 }
          cells := passCells none adj (x.mmCell j k0 len) (cellsOf j.mr j.nc) }).countDie HS_FIRST (coreDie c) (tile.charge (j.handshakes len))
      exec (.segmentEnd core) s = .next (if p.2 = [] then u.segDone c j else u.countDie SEG_REPLAYED (coreDie c) 1))
    ∧ (∀ p, j.attn = none → nextPlan j.cells = some p →
      let now := (j.cells.filter fun e => e.2 == p).map (·.1)
      let r := x.pass j k0 len tile (replayPass p) now
      let j' : ArrayJob := { j with cells := (j.cells.filter fun e => e.2 != p) ++ r.2 }
      let u := ((s.updCore c fun x =>
        { x.setTile j.tile { r.1 with replays := sat (r.1.replays + 1) 15 } with
          job := some j'
          cells := passCells (some p) 0 (x.mmCell j k0 len) now }).countDie p.counter (coreDie c) 1).countDie HS_REPLAY (coreDie c) (p.handshakes (j.handshakes len))
      exec (.replayPassEnd core) s = .next (if j'.cells = [] then u.segDone c j' else u))
    ∧ ∀ o, j.attn = some o →
      (j.cells = [] → exec (.segmentEnd core) s = .next (s.attnSegment c o j k0 len))
      ∧ ∀ p, nextPlan j.cells = some p → exec (.replayPassEnd core) s = .next (s.attnReplay c o j k0 len p))
  ∧ (∀ (s : State) (core : CoreId) (after spare : Nat) (trig : Trigger) (pass : Bool) (x : ReplayCheck),
    let q : QRef := ⟨core, .F⟩
    let c := core.val
    let k := s.ctxOf q
    s.dieLost c = false → (s.queue q).wait = some (.replay after trig (some spare)) →
    let v : State := { s with testAt := Tab.set [] s.testAt spare s.stepsNow }
    let ep := v.epochOf k (s.queue q)
    let u := (v.countDie TILE_REPLAYS (coreDie c) 1).countReplay k ep
    let done := exec (.tileReplayDone core pass x) s
    let goOn := fun v : State => Host.Outcome.next (φ := Fault) (ρ := Refusal) (State.retireIdle (v.endReplay q))
    (pass = true → trig = .residue → done = goOn ((u.logCore 0xFB 0x03 1 c (some k)).markRepaired k ep))
    ∧ (pass = true → trig = .nonfinite → done = goOn (if x.identical then u else (u.logCore 0xFC 0x01 4 c (some k)).markRepaired k ep))
    ∧ (pass = true → trig = .twin →
      (x.identical = true → ∀ d, u.twinOf c = some d → done = goOn (u.logCore 0xFC 0x02 4 d (some k)))
      ∧ (x.identical = false → x.twinMatch = true → done = goOn (u.logCore 0xFC 0x02 4 c (some k)))
      ∧ (x.identical = false → x.twinMatch = false → done = .next (u.doubt c (some k))))
    ∧ (pass = false → after = 0 →
      let l := u.logCore 0xFB 0x04 4 spare (some k)
      done = .next (l.updQueue q fun x => { x with wait := some (l.replayWait c (replayPlace c spare + 1) trig) }))
    ∧ (pass = false → after ≠ 0 → done = .next (u.doubt spare (some k))))

/-- A transfer of a running or prefetching slot issues when the core's outstanding transfers are below OUTSTANDING, no prefetch of another slot holds its
bytes, no check stops it and the effect queue has room for what it sends; its data moves, unless it went to another device, and its counters rise when it
completes, after every earlier transfer of its chunk whose destination it overlaps. A paused stream goes on when its page is present, or can be mapped and is;
when the wait limit passes first, and every earlier instruction has retired, the task is aborted. The confirmation of a held prefetch: when its Milepost has
reached its value the chunk ends, or runs on as a stream, and PREF_CONFIRMED counts; a prefetch, held or not, whose Milepost is poisoned is cancelled, its
slot is ARMED and PREF_CANCELLED counts; after a completion, a confirmation or a cancellation a GIVE that waits for a prefetch looks again. -/
def Obligations.DescriptorStreamsGoOn : Prop :=
  (∀ (s : State) (core : CoreId) (ds : Fin 64) (r : ChunkRun),
    let c := core.val
    let x := (s.core c).slot ds.val
    let d := descOf x.desc.toNat
    x.run = some r →
    (∀ k, (s.core c).ctx = some k → s.dieLost c = false → s.phase = .running → s.safeHold = false → (s.core c).qO.st ≠ .halted →
      x.st = .running ∨ x.st = .prefetching → r.issued = false → (r.pref = false ∨ x.pff = false) → (s.core c).outstanding < s.val OUTSTANDING (k + 1) →
      s.blocked c k ds.val d r (d.next x.chunk r) = false → s.runStop c k d r (d.next x.chunk r) = none →
      s.xferStop c k ds.val d (d.next x.chunk r) = none → s.effectWaits c k d r (d.next x.chunk r) = false →
      exec (.transferIssue core ds) s = .next (s.putXfer c k ds.val d x r (d.next x.chunk r)))
    ∧ (∀ k f, Works s core k → r.out.find? (fun g => g.n == f.n) = some f → f.acks = 0 →
      (∀ g ∈ r.out, g.n < f.n → ¬ (g.dst < f.dst + f.len ∧ f.dst < g.dst + g.len)) →
      let u := if (s.remoteWin k d f.dst).isSome then s else s.moveXfer c k d r.epoch x.chunk f
      exec (.transferComplete core ds f.n) s = .next (((u.endXfer c k ds.val f).giveAgain core none).after k)))
  ∧ (∀ (s : State) (core : CoreId) (ds : Fin 64) (k : Nat), Works s core k →
    let x := (s.core core.val).slot ds.val
    x.st = .paused →
    let run := fun u : State => u.updCore core.val fun c => c.setSlot ds.val { c.slot ds.val with st := .running }
    (s.whereIs k x.pausedAt = .mem → exec (.pageMapped core ds) s = .next ((run s).after k))
    ∧ (∀ u, s.whereIs k x.pausedAt = .notPresent → s.mapPage k x.pausedAt = some u → exec (.pageMapped core ds) s = .next ((run u).after k))
    ∧ (s.streamTurn core.val ds.val = true → exec (.pageWaitLimitExpire core ds) s = .next ((s.taskAbort core ds.val x.pausedAt).after k)))
  ∧ (∀ (s : State) (core : CoreId) (ds : Fin 64) (k : Nat) (r : ChunkRun), Works s core k →
    let c := core.val
    let x := (s.core c).slot ds.val
    x.run = some r → r.pref = true →
    (s.mpPoisoned k r.mp = true → exec (.prefConfirm core ds) s = .next (State.after
      (((s.updCore c fun co => co.setSlot ds.val x.toArmed).countDie PREF_CANCELLED (coreDie c) 1).giveAgain core
        (if (s.core c).giveMeets ds.val then some r.mp else none)) k))
    ∧ (x.st = .held → s.mpPoisoned k r.mp = false → r.value.toNat ≤ s.mpSeen k r.mp (s.epochOf k (s.queue ⟨core, .O⟩)) → exec (.prefConfirm core ds) s = .next (State.after
      (((s.updCore c fun co => co.setSlot ds.val (x.confirmed r)).countDie PREF_CONFIRMED (coreDie c) 1).giveAgain core none) k)))

/-! ### Mileposts and exact adds -/

/-- The value of a physical Milepost never falls by an advance: an add by n raises a LIVE Milepost that does not speculate by n, a raise to v gives it at least v,
unless its host post is a held effect for which the effect queue has no room; a POISONED or FREE one takes no advance, a FROZEN one leaves it on its way, and
every other Milepost keeps its value. -/
def Obligations.AdvancesNeverLowerAMilepost : Prop :=
  ∀ (s : State) (a : Adv),
    let p := s.pmp a.pmp
    let t := s.applyAdv a
    let room := (∀ q, a.src = some q → q.queue = .U → a.epoch = none) ∨ (s.ctx a.k).effectRoom [.post a.pmp] = true
    (p.st = .poisoned ∨ p.st = .free → t = s)
    ∧ (p.st = .frozen → t = { s with transit := s.transit ++ [{ a with src := none }] })
    ∧ (p.st = .live → p.spec = false → room → a.mode = .add → (t.pmp a.pmp).cval = p.cval + a.amount)
    ∧ (p.st = .live → p.spec = false → room → a.mode = .raise → (t.pmp a.pmp).cval = max p.cval a.amount)
    ∧ ∀ n, p.cval ≤ (t.pmp a.pmp).cval ∧ (n ≠ a.pmp → (t.pmp n).cval = (s.pmp n).cval)

/-- An add of the exact accumulation unit whose store is not being cleared is applied and leaves the queue of adds, or, under another placement generation, is
discarded and counted; a store whose clear completes goes on with its elements zero. GSTORE_CLEAR_DONE clears the store and lets what waited for it go on. -/
def Obligations.ExactAddsAndClearsComplete : Prop :=
  (∀ (s : State) (i : Nat) (a : EauAdd), s.up = true → s.eauq[i]? = some a → a.remote = false → s.addWaits a = false →
    let gone : State := { s with eauq := s.eauq.eraseIdx i }
    (a.pgen = s.pgen a.k → ∀ t sp, gone.eauApply a.k a.va a.w128 a.value = .ok (t, sp) →
      exec (.eauAddApply i) s = .next ((t.countAdd a.k a.va sp).after a.k))
    ∧ (a.pgen ≠ s.pgen a.k → a.epoch = none → exec (.eauAddApply i) s = .next ((gone.count GEN_DISCARDS (a.k + 1) 1).after a.k)))
  ∧ (∀ (s : State) (k : CtxId) (i : Fin 32) (g : GStore), s.up = true → (s.ctx k.val).clearing.contains i.val = true → s.gstore k.val i.val = some g →
    exec (.gstoreClearDone k i) s = .next (State.after ((s.clearStore k.val i.val g).updCtx k.val fun c =>
      { c with clearing := c.clearing.filter (· != i.val) }) k.val))

/-! ### Caravan -/

/-- SEG, BIT and RES that the checks take for a reduction of the context: a SEG waits until the status of its epoch is decided and its segment is whole, and then
runs; a BIT is added into the destination, passed on, and its END ends the originator's part; a RES waits for its END, and is then written and passed on. A BIT
whose destination or completion record stands on a CXL port that is down, or whose add reads a line with an uncorrectable error, is an uncorrectable fault of the
endpoint instead, which squashes its epoch. -/
def Obligations.ReductionMessagesComplete : Prop :=
  ∀ (s : State) (k : CtxId) (m : CMsg) (g : CGroup) (r : OpRec),
    let u := s.heard m
    let n := m.hdr.epoch
    let op := m.hdr.oprec
    u.opOf k.val m = some r →
    (Hears s k 0 m (fromPrev m) g →
      let v := u.updOp k.val op n fun o => { o with waiting := o.waiting ++ [m] }
      exec (.caravanSeg k m) s = .next (State.after
        (if (v.opRun k.val op n).status.isSome ∧ m.hdr.endB = true then v.runWaiting k.val op r g n else v) k.val))
    ∧ (Hears s k 1 m (fromPrev m) g → ∀ a, u.opLost k.val r n = some a →
      exec (.caravanBit k m) s = .next ((u.endpointPoison k.val n a).after k.val))
    ∧ (Hears s k 1 m (fromPrev m) g → u.opLost k.val r n = none → ∀ bs, m.payload = .bits bs →
      let a := u.addBits k.val r n m.hdr.offset bs
      (∀ x, a.2.poison = some x → exec (.caravanBit k m) s = .next ((a.1.endpointPoison k.val n x).after k.val))
      ∧ (a.2.poison = none →
      let v := if a.2.bad then a.1.updOp k.val op n fun o => { o with exhausted := true } else a.1
      let v := if g.next = m.hdr.origin then v else v.sendMsg k.val m.hdr.group g.next { m with hdr := { m.hdr with sender := g.rank } }
      exec (.caravanBit k m) s = .next (State.after (if m.hdr.endB then v.partDone k.val op r g n m.hdr.origin g.nmem fun o =>
        { o with contrib := o.contrib ||| m.contrib, taint := o.taint ||| m.taint, sumw := o.sumw + m.hdr.sumw } else v) k.val)))
    ∧ (Hears s k 2 m (fromPrev m) g →
      let o := u.opRun k.val op n
      let mine := fun x : CMsg => x.hdr.mtype == 2 && x.hdr.seg == m.hdr.seg
      (m.hdr.endB = false → exec (.caravanRes k m) s = .next (State.after (u.setOp k.val op n { o with waiting := o.waiting ++ [m] }) k.val))
      ∧ (m.hdr.endB = true → exec (.caravanRes k m) s = .next (State.after
        ((u.setOp k.val op n { o with waiting := o.waiting.filter fun x => !mine x }).takeRes k.val op r g n m.hdr.seg (o.waiting.filter mine ++ [m])) k.val)))

/-- START dates the member's start; ROT puts its bytes into the landing buffer and a whole arrival advances DONE_MP; REL frees the successor's buffer; after
each, every rotation and release that the rules allow is sent. SEND writes its bytes at the window's base where memory is present there, advances the arrival
Milepost at its END and is acknowledged, or, where the check of its range fails, is refused with HC-43; RADD adds its terms, unless a store that they name is
being cleared, and is acknowledged, or refused with the code, DETAIL and address of the first add that fails; the ACK of an add, or of a U instruction's SEND,
that succeeded takes it from those in flight. The bytes of ROT and SEND stand on no CXL port that is down. -/
def Obligations.RotationAndWindowMessagesComplete : Prop :=
  (∀ (s : State) (k : CtxId) (m : CMsg) (g : CGroup) (r : OpRec),
    let u := s.heard m
    let n := m.hdr.epoch
    let op := m.hdr.oprec
    u.opOf k.val m = some r →
    (Hears s k 3 m (fromOther m) g →
      exec (.caravanStart k m) s = .next (State.after (u.updOp k.val op n fun o => { o with start := some (o.start.getD (u.clock 8)) }) k.val))
    ∧ (Hears s k 4 m (fromPrev m) g → ∀ b, m.payload = .raw b → u.portLost k.val (r.landing m.hdr.seg + 32 * m.hdr.offset) b.length = none →
      let v := u.memWrite k.val (r.landing m.hdr.seg + 32 * m.hdr.offset) b
      exec (.caravanRot k m) s = .next (State.after (if m.hdr.endB then
        ((v.updOp k.val op n fun o => { o with arrived := max o.arrived m.hdr.seg }).endpointAdv k.val r.doneMp (some n)).rotate k.val op r g n (2 * g.nmem + 2)
        else v) k.val))
    ∧ (Hears s k 5 m (fun g => m.hdr.sender == g.next && 1 < g.nmem) g →
      exec (.caravanRel k m) s = .next (State.after ((u.updOp k.val op n fun o => { o with relGot := max o.relGot m.hdr.seg }).rotate k.val op r g n
        (2 * g.nmem + 2)) k.val)))
  ∧ (∀ (s : State) (k : CtxId) (m : CMsg) (g : CGroup) (w : RWin),
    let u := s.heard m
    let here := fun g => (u.winOf k.val m g).isSome
    (Hears s k 6 m here g → u.winOf k.val m g = some w → ∀ b, m.payload = .raw b →
      let a := w.rbase + 32 * m.hdr.offset
      (u.memCheck k.val a b.length = none → u.portLost k.val a b.length = none →
        let v := u.memWrite k.val a b
        let v := if m.hdr.endB then v.endpointAdv k.val w.arrmp (v.tagOf k.val m g) else v
        exec (.caravanSend k m) s = .next (State.after (v.ack k.val m g .empty) k.val))
      ∧ (∀ bad x, u.memCheck k.val a b.length = some (bad, x) →
        exec (.caravanSend k m) s = .next (State.after (u.ack k.val m g (.refusal 0x43 0 bad)) k.val)))
    ∧ (Hears s k 7 m here g → u.winOf k.val m g = some w → ∀ es, m.payload = .radd es →
      (∀ e ∈ es, ∀ i y z, u.storeAt k.val (w.rbase + e.1) = some (i, y, z) → (u.ctx k.val).clearing.contains i = false) →
      (∀ v, u.applyRadds k.val w es = (v, none) → exec (.caravanRadd k m) s = .next (State.after (v.ack k.val m g .empty) k.val))
      ∧ (∀ v hc d a, u.applyRadds k.val w es = (v, some (hc, d, a)) →
        exec (.caravanRadd k m) s = .next (State.after (v.ack k.val m g (.refusal hc d a)) k.val)))
    ∧ (u.rwin k.val m.hdr.oprec = some w → w.group = m.hdr.group → m.hdr.sender = w.rank → Hears s k 8 m (fun _ => true) g → ∀ a r,
      (u.eauq.find? fun a => a.remote && a.send == (m.hdr.seg == 6) && a.k == k.val && a.va / 32 == (w.vbase + 32 * m.hdr.offset) / 32 && a.epoch.getD 0 == m.hdr.epoch) = some a →
      exec (.caravanAck k m 0 r) s = .next (State.after { u with eauq := u.eauq.erase a } k.val)))

/-- A trigger starts an undecided member and sends START to the others; a DEADLINE that passes leaves the member out and counts LATE_OUT; a late contribution
of an out member of a group without CARRY is dropped; a rotation's trigger sends what the rules allow in every open epoch. Each waits while a store that it
adds into is being cleared, and reads trigger records without an uncorrectable error; a trigger record that one holds is a fault of the endpoint instead,
which squashes its epoch. A message of these types of a group that the context does not hold, or of one that crosses jobs, is discarded and counted in
BAD_MSGS; one of another placement generation is discarded and counted in GEN_DISCARDS, and squashes its epoch where that is open; a saved context keeps it
(the model's choice, log entry 103). -/
def Obligations.CollectiveEventsComplete : Prop :=
  (∀ (s : State) (k : CtxId) (op : Fin 1024) (r : OpRec) (g : CGroup), s.up = true → s.safeHold = false →
    let clean := fun (n : Nat) => ∀ e ∈ (s.ctx k.val).epochs, s.memPoisoned k.val (r.startrec + n * (e.n % 2)) n = false
    (s.reduction k.val op.val = some (r, g) → ∀ e, ((s.ctx k.val).epochs.find? fun e => (e.st == .opened && !(s.opRun k.val op.val e.n).triggered)
        && s.memPoisoned k.val (r.startrec + 32 * (e.n % 2)) 32) = some e →
      exec (.caravanTrigger k op) s = .next ((s.endpointPoison k.val e.n (r.startrec + 32 * (e.n % 2))).after k.val))
    ∧ (s.reduction k.val op.val = some (r, g) → clean 32 → ∀ n, s.triggered k.val op.val r = some n → s.dstClearing k.val r n = false →
      let o := s.opRun k.val op.val n
      let u := s.setOp k.val op.val n { o with triggered := true, start := some (o.start.getD (s.clock 8)) }
      exec (.caravanTrigger k op) s = .next (State.after (if o.status.isSome then u
        else (u.sendAll k.val r.group { hdr := u.opHdr k.val op.val r g n 3 }).decide_ k.val op.val r g n true) k.val))
    ∧ (s.reduction k.val op.val = some (r, g) → clean 32 → g.deadline ≠ 0 → r.nodl = false → ∀ e, s.dstClearing k.val r e.n = false →
      ((s.ctx k.val).epochs.find? fun e => e.st == .opened && (s.opRun k.val op.val e.n).start.isSome && (s.opRun k.val op.val e.n).status.isNone
        && !s.trigHolds k.val (r.startrec + 32 * (e.n % 2)) e.n) = some e →
      exec (.caravanDeadlineExpire k op) s = .next (State.after ((s.count LATE_OUT (k.val + 1) 1).decide_ k.val op.val r g e.n false) k.val))
    ∧ (s.reduction k.val op.val = some (r, g) → clean 32 → r.form ≠ 2 → g.carry = false → ∀ e,
      ((s.ctx k.val).epochs.find? fun e => e.uncommitted && e.st != .held && (s.opRun k.val op.val e.n).status == some false
        && !(s.opRun k.val op.val e.n).lateDone && s.trigHolds k.val (r.startrec + 32 * (e.n % 2)) e.n) = some e →
      exec (.lateContributionReady k op) s = .next (State.after
        ((s.updOp k.val op.val e.n fun o => { o with triggered := true, lateDone := true }).count LATE_DROPS (k.val + 1) 1) k.val))
    ∧ (s.rotation k.val op.val = some (r, g) → clean 64 →
      let t := State.after ((s.ctx k.val).epochs.foldl (fun u e =>
        if e.st = .opened then u.rotate k.val op.val r g e.n (2 * g.nmem + 2) else u) s) k.val
      exec (.rotationSendTrigger k op) s = .next t ∧ exec (.rotationReleaseTrigger k op) s = .next t))
  ∧ (∀ (s : State) (k : CtxId) (m : CMsg) (t : Nat) (i : Instr),
    (t, i) ∈ [(0, Instr.caravanSeg k m), (1, .caravanBit k m), (2, .caravanRes k m), (3, .caravanStart k m), (4, .caravanRot k m)] →
    s.up = true → s.safeHold = false → m.hdr.mtype = t →
    let u := s.heard m
    let v := u.count GEN_DISCARDS (k.val + 1) 1
    ((s.ctx k.val).st = .saved → exec i s = .next ((u.keepEarly k.val m).after k.val))
    ∧ ((s.ctx k.val).st ≠ .saved → u.cgroup k.val m.hdr.group = none → exec i s = .next ((u.count BAD_MSGS (k.val + 1) 1).after k.val))
    ∧ ∀ g, (s.ctx k.val).st ≠ .saved → u.cgroup k.val m.hdr.group = some g → g.job = m.hdr.job → m.hdr.sender < g.nmem → 1 < g.nmem →
      m.hdr.sender ≠ g.rank → (t ≠ 3 → m.hdr.sender = g.prev) → (g.xjob = true → exec i s = .next ((u.count BAD_MSGS (k.val + 1) 1).after k.val))
      ∧ (g.xjob = false → m.hdr.pgen ≠ u.pgen k.val →
        (∀ e, (s.ctx k.val).epoch m.hdr.epoch = some e → e.st = .opened → exec i s = .next ((v.strike k.val e.n).after k.val))
        ∧ ((∀ e, (s.ctx k.val).epoch m.hdr.epoch = some e → e.st ≠ .opened) → exec i s = .next (v.after k.val))))

/-! ### Step commit and placement -/

/-- A vote counts at the seat of its job; a verdict of SQUASH squashes its epoch, unless that is past its commit point or HELD, and the later ones under the
new run count, and an accepted one commits a closed epoch that has voted; a vote that is missing at its limit pauses the job, with the member in the refill
queue, on the seat after it has sent the verdict SQUASH. -/
def Obligations.VotesAndVerdictsComplete : Prop :=
  ∀ (s : State) (k : CtxId) (m : CMsg) (g : CGroup), s.up = true → s.safeHold = false →
    let u := s.heard m
    let n := m.hdr.epoch
    (∀ v x, m.hdr.mtype = 9 → u.screenRun k.val m = .apply g → g.rank = 0 → m.payload = .vote v x →
      exec (.caravanVote k m) s = .next (State.after ((u.updEpoch k.val n fun e =>
        { e with votes := (e.votes.filter fun y => y.1 != m.hdr.sender) ++ [(m.hdr.sender, v, x)] }).seatVerdict k.val n) k.val))
    ∧ (∀ v x run pg place e, m.hdr.mtype = 10 → u.screenRun k.val m = .apply g → m.payload = .verdict v x run pg place → (u.ctx k.val).epoch n = some e →
      (v = .squash → e.squashable = true ∨ e.st = .squashed →
        exec (.caravanVerdict k m) s = .next (State.after (((u.squash k.val n false).updCtx k.val fun c => { c with runNext := run }).runOn k.val) k.val))
      ∧ (v ≠ .squash → e.st = .closed → e.voted = true → (v = .reject → s.val REJECT_POLICY (k.val + 1) ≠ 1) →
        exec (.caravanVerdict k m) s = .next (State.after (u.commitEpoch k.val e v x run place) k.val)))
    ∧ (∀ gn e rank, (s.ctx k.val).st ≠ .saved → s.jobGroup k.val = some (gn, g) → (s.ctx k.val).epoch n = some e → rank < g.nmem → rank ≠ g.rank →
      (g.rank ≠ 0 → e.squashable = true ∨ e.st = .squashed →
        exec (.voteLimitExpire k n rank) s = .next (State.after (((s.pauseJob k.val 0x2003).failMember k.val rank).event 0x0030 (some k.val) 8 rank) k.val))
      ∧ (g.rank = 0 → e.squashable = true → (e.votes.any fun v => v.1 == rank) = false →
        let t := s.sendAll k.val gn (s.verdictMsg k.val gn g n .squash false ((s.ctx k.val).runNext + 1) (s.pgen k.val) false)
        exec (.voteLimitExpire k n rank) s = .next (State.after (((t.pauseJob k.val 0x2003).failMember k.val rank).event 0x0030 (some k.val) 8 rank) k.val)))

/-- The write of the commit log in flash ends step 11: the log in flash is the commit log, and the epoch is final unless a generation waits too. PLACE_GO
leaves a placement change pending, and answers WS-31 while one is; once the context has drained DRAINED goes out with the tables' digests, and the change
takes force, unless the members' tables differ; the drain limit ends what waits for acknowledgements. -/
def Obligations.CommitsAndPlacementsComplete : Prop :=
  (∀ (s : State) (k : CtxId) (e : Epoch), s.up = true → s.safeHold = false → (s.ctx k.val).atFlash = some e → e.flashWait = true →
    let u := State.updEpoch { s with flashLog := s.commitLog } k.val e.n fun e => { e with flashWait := false }
    exec (.commitFlashWriteDone k) s = .next (State.after (if e.genWait then u else u.finishCommit k.val e.n) k.val))
  ∧ (∀ (s : State) (k : CtxId), s.up = true →
    ((s.ctx k.val).placing = false → exec (.placeGo k) s = .next { s.updCtx k.val fun c => { c with placing := true } with answer := 0 })
    ∧ ((s.ctx k.val).placing = true → exec (.placeGo k) s = .next { s with answer := 0x31 })
    ∧ (s.safeHold = false → (s.ctx k.val).draining = true → s.unacked k.val = false →
      let run := fun u : State => (u.updCtx k.val fun c => { c with placing := false, draining := false }).runOn k.val
      ∀ theirs, let v := theirs.foldl (fun u x => u.emit (.drained k.val x.1.val (u.placeDigest k.val x.1.val))) s
        ((∀ x ∈ theirs, x.2 = s.placeDigest k.val x.1.val) →
          exec (.placementDrained k theirs) s = .next (State.after (run (v.installPlace k.val)) k.val))
        ∧ ∀ x, (theirs.find? fun x => x.2 != s.placeDigest k.val x.1.val) = some x →
          exec (.placementDrained k theirs) s = .next (State.after (run (v.event 0x0014 (some k.val) 8 (x.1.val + 2 ^ 64 * x.2.toNat))) k.val))
    ∧ (s.safeHold = false → (s.ctx k.val).draining = true →
      exec (.migDrainLimitExpire k) s = .next (State.after (State.eachCore { s with eauq := s.eauq.filter fun a => !(a.remote && a.k == k.val) } k.val fun c =>
        { c with slots := c.slots.map fun e => match e.2.run with
          | some r => (e.1, { e.2 with run := some { r with out := r.out.filter fun f => f.acks == 0 } })
          | none => e }) k.val)))

/-! ### Drawbar -/

/-- Frames that reach a port. Closed switches of its pair pass a frame out of the pair's other port as it is. On a port that carries frames outside Safe Hold
the symbols that the FEC corrected are counted first; then a data frame with the next SEQ takes its place in the receive pool, is counted and acknowledged,
and goes where it is for, its credits going back when it leaves the pool; one out of order is discarded whole (log entry 75) and answered by a NAK; a credit,
idle or NAK frame counts, acknowledges and credits, and a NAK has every frame of the replay buffer sent again before any other; any frame with a failed CRC
only counts in CRC_ERR, and a data frame is then answered by a NAK. -/
def Obligations.FramesComplete : Prop :=
  (∀ (s : State) (p : PortId) (f : DFrame), s.pairClosed p.val = true →
    let t := s.emit (.drawbar (p.val ^^^ 1) f)
    exec (.drawbarDataFrame p f) s = .next t ∧ exec (.drawbarCreditFrame p f) s = .next t ∧ exec (.drawbarNakFrame p f) s = .next t
      ∧ exec (.drawbarIdleFrame p f) s = .next t)
  ∧ (∀ (s : State) (p : PortId) (f : DFrame), s.pairClosed p.val = false → s.up = true → s.safeHold = false → (s.port p.val).carries = true →
    let u := s.corrected p.val f.fec
    let good := u.goodFrame p.val f
    let next := u.updPort p.val fun x => { x with rxSeq := f.seq, pool := Tab.upd 0 x.pool f.vc (· + Bits.cdiv f.len 64) }
    (f.kind = 0 → f.crcOk = true → f.seq = ((u.port p.val).rxSeq + 1) % 65536 →
      exec (.drawbarDataFrame p f) s = .next ((next.goodFrame p.val f).takeFrame p.val f))
    ∧ (f.kind = 0 → f.crcOk = true → f.seq ≠ ((u.port p.val).rxSeq + 1) % 65536 → exec (.drawbarDataFrame p f) s = .next (u.control p.val 2 0 0))
    ∧ (f.kind = 0 → f.crcOk = false → exec (.drawbarDataFrame p f) s = .next ((u.badCrc p.val).control p.val 2 0 0))
    ∧ (f.kind = 1 → exec (.drawbarCreditFrame p f) s = .next (if f.crcOk then good else u.badCrc p.val))
    ∧ (f.kind = 2 → exec (.drawbarNakFrame p f) s = .next (if f.crcOk then ((u.takeAck p.val f).resend p.val).flushPort p.val else u.badCrc p.val))
    ∧ (f.kind = 3 → exec (.drawbarIdleFrame p f) s = .next (if f.crcOk then good else u.badCrc p.val)))

/-- The events of a port: the idle timer sends an idle frame; the loss of a lane, a timeout of reception, or a frame sent 32 times without acknowledgement
takes the port DOWN; light, or a retry, trains a port that may train; a peer that the port expects, by the record with which it began to train, or no
expectation, brings it UP with its credits, the alternative one UP_ALT, and any other, or the module itself, leaves it ISOLATED, while closed switches pass a
training frame on. A malformed PORT_CFG is refused with WS-32; another is written, disables its port at ENABLE 0, and a change sends an ISOLATED port into
training. ROUTE_GO with no running context and no malformed entry puts the pending table in force and ends every withdrawal; else it is refused with WS-33 or
WS-32. BYPASS_FORCE is written in Service mode or Safe Hold only. A pair's switches that must change latch. -/
def Obligations.PortsAndRoutesComplete : Prop :=
  (∀ (s : State) (p : PortId),
    let x := s.port p.val
    (s.up = true → exec (.drawbarIdleTimer p) s = .next (s.control p.val 3 0 0))
    ∧ (s.up = true → ∀ lane : Fin 8, x.lanes.getLsbD lane.val = true → exec (.drawbarLaneLockLoss p lane) s = .next (s.portDown p.val))
    ∧ (s.up = true → x.carries = true ∨ x.st = .isolated → exec (.drawbarRxTimeout p) s = .next (s.portDown p.val))
    ∧ (s.up = true → (∃ e ∈ x.replay, 32 ≤ e.2) → exec (.drawbarResendLimit p) s = .next (s.portDown p.val))
    ∧ (x.st = .down ∨ x.st = .training ∨ x.st = .isolated → exec (.drawbarLightDetect p) s = .next (s.train p.val true))
    ∧ (x.st = .down ∨ x.st = .training ∨ x.st = .disabled → exec (.drawbarTrainingRetry p) s = .next (s.train p.val false))
    ∧ (s.pairClosed p.val = true → ∀ (node port : Nat) (alloc : List Nat), exec (.drawbarTrainingFrame p node port alloc) s =
      .next (s.emit (.drawbar (p.val ^^^ 1) (trainFrame { node := node, port := port, alloc := alloc }))))
    ∧ (s.pairClosed p.val = false → s.up = true → s.safeHold = false → x.st = .training → ∀ (node port : Nat) (alloc : List Nat),
      let u := s.updPort p.val fun x => { x with lanes := 0xFF, peer := node, pport := port }
      let isolated := u.updPort p.val fun x => { x with st := .isolated }
      let opened := fun st : PortState => u.updPort p.val fun x => { x with
        st := st
        withdrawn := x.withdrawn || x.wasDown
        wasDown := false
        txSeq := 0
        rxSeq := 0
        credits := Tab.setRange 0 [] 0 (alloc.take 16) }
      exec (.drawbarTrainingFrame p node port alloc) s = .next (
        if node = u.val NODE_ADDR 0 then isolated.event 0x0013 none 8 p.val
        else if Bits.fld x.cfg 32 16 = node ∨ Bits.fld x.cfg 32 16 = 0 then opened .up
        else if Bits.fld x.cfg 16 16 = node ∧ node ≠ 0 then (opened .upAlt).event 0x0011 none 8 (evData2 p.val node)
        else isolated.event 0x0012 none 8 (evData2 p.val node))))
  ∧ (∀ s : State, s.up = true →
    (∀ (p : PortId) (v : W64),
      let bad := Bits.fld v.toNat 48 16 ≠ 0 ∨ Bits.fld v.toNat 1 15 ≠ 0 ∨ (Bits.fld v.toNat 32 16 = Bits.fld v.toNat 16 16 ∧ Bits.fld v.toNat 16 16 ≠ 0)
      let u := s.putVal PORT_CFG (p.val + 1) v.toNat
      let t := if u.portEnabled p.val = false then (if (u.port p.val).st = .bypassed then u else u.clearPort p.val .disabled)
        else if u.val PORT_CFG (p.val + 1) ≠ s.val PORT_CFG (p.val + 1) ∧ (u.port p.val).st = .isolated then u.startTraining p.val true
        else u
      (bad → exec (.portCfg p v) s = .next { s with answer := 0x32 })
      ∧ (¬ bad → exec (.portCfg p v) s = .next { t with answer := u.written PORT_CFG (p.val + 1) }))
    ∧ (let idle := (List.range 16).all fun k => (s.ctx k).st != .running && (s.ctx k).st != .draining
      let bad := s.pendingRoutes.any fun e => badRoute e.2
      (idle = true → bad = false → exec .routeGo s = .next
        { s with routes := s.pendingRoutes, ports := s.ports.map fun p => (p.1, { p.2 with withdrawn := false }), answer := 0 })
      ∧ (idle = false → exec .routeGo s = .next { s with answer := 0x33 })
      ∧ (idle = true → bad = true → exec .routeGo s = .next { s with answer := 0x32 }))
    ∧ (∀ v : Byte,
      let u := s.putVal BYPASS_FORCE 0 v.toNat
      (s.service_ = true → exec (.bypassForce v) s = .next { u with answer := s.written BYPASS_FORCE 0 })
      ∧ (s.service_ = false → exec (.bypassForce v) s = .next { s with answer := 0x04 }))
    ∧ (∀ b closed : Bool, s.mustClose b = closed → (if b then s.pairB else s.pairA) ≠ closed → exec (.bypassLatched b closed) s = .next (s.latch b closed)))

/-! ### Field test, watchdogs, power and memory -/

/-- The rotation of a die pairs its oldest active cores with its ready spares; a pair of the last rotation is swapped at once where the core serves no
context, at a step boundary of a context with epochs, and else, with its queues retired and none held for a replay, where the stacks have frames for a save
area; without those frames the pair is dropped. Nothing of it happens in Safe Hold. The end of a test of a spare that is not retired, runs no tile replay and
has not yet passed: a pass, or a failure, which is counted and logged in FB SUB 0x01, makes the steps of its service record uncertain and retires the core. A
core that is not a spare and is overdue for its test logs FB SUB 0x02. A scan of one watchdog hit: of a core, it logs FD SUB 0x01, strikes the context's
epochs and retires the core; of a Hub die, of a memory controller (the model's choice, log entry 104) or of the Traces, FD SUB 0x02, and Safe Hold is entered
for cause 2. A scan of one finding of the checkers: the two Wagonmaster instances disagree, which logs FC SUB 0x04 and enters Safe Hold for cause 1;
duplicated logic of a core disagrees, which logs FC SUB 0x03 and strikes the context's epochs; a residue failure of another engine. A failed Traces link logs
FE SUB 0x02 with DIE 8 (the model's choice, log entry 81), and Safe Hold is entered for cause 2. -/
def Obligations.CoresRotateAndRetire : Prop :=
  (∀ s : State, s.up = true →
    (s.safeHold = true → (∀ die : Fin 8, exec (.fieldTestRotation die) s = .next s)
      ∧ (∀ a b : CoreId, s.dieLost a.val = false → exec (.coreSwap a b) s = .next s)
      ∧ ∀ (c : CoreId) (pass : Bool), s.dieLost c.val = false → exec (.fieldTestDone c pass) s = .next s)
    ∧ (s.safeHold = false → ∀ die : Fin 8, exec (.fieldTestRotation die) s =
      .next { s with swaps := s.swaps ++ (s.oldestActive die.val).zip (s.readySpares die.val) })
    ∧ ∀ a b : CoreId, s.dieLost a.val = false → s.safeHold = false → s.swaps.contains (a.val, b.val) = true →
      ((s.core a.val).ctx = none → exec (.coreSwap a b) s = .next (s.swapCore a.val b.val))
      ∧ ∀ k, (s.core a.val).ctx = some k →
        ((s.stepGroup k).isSome = true → (s.ctx k).epochs.any Epoch.live = false → exec (.coreSwap a b) s = .next ((s.swapCore a.val b.val).after k))
        ∧ (s.stepGroup k = none → (∀ q ∈ allQueues, ((s.core a.val).q q).inflight = [] ∧ ((s.core a.val).q q).replaying = false) → oneCoreFrames ≤ ((List.range 16).map s.freeOn).sum →
          exec (.coreSwap a b) s = .next ((s.swapCore a.val b.val).after k))
        ∧ (s.stepGroup k = none → (∀ q ∈ allQueues, ((s.core a.val).q q).inflight = [] ∧ ((s.core a.val).q q).replaying = false) → ((List.range 16).map s.freeOn).sum < oneCoreFrames →
          exec (.coreSwap a b) s = .next (State.after { s with swaps := s.swaps.filter fun p => p != (a.val, b.val) } k)))
  ∧ (∀ (s : State) (core : CoreId), s.up = true → s.dieLost core.val = false →
    let c := core.val
    (s.safeHold = false → s.spares.contains c = true → s.retired.contains c = false → s.passed.contains c = false → s.replayCores.contains c = false →
      exec (.fieldTestDone core true) s = .next (s.testPassed c)
      ∧ (let u := (s.countDie FT_FAILS (coreDie c) 1).logFault 0xFB 0x01 4 (some c) none (coreDie c) (s.countDie FT_FAILS (coreDie c) 1).syndrome 0
        exec (.fieldTestDone core false) s = .next (State.retireCore (u.eachCtx fun v k => (v.uncertainCtx (s.serviceOf c) k).after k) c)))
    ∧ (s.spares.contains c = false →
      exec (.ftOverdue core) s = .next (s.logFault 0xFB 0x02 8 (some c) (s.core c).ctx (coreDie c) s.syndrome 0)))
  ∧ (∀ s : State, s.up = true →
    (∀ (die : DieId) (c : CoreId) (ch k : Nat), s.scanned.contains die.val = false → coreDie c.val = die.val → (s.core c.val).ctx = some k →
      exec (.watchdogScan die [.core c ch]) s =
        .next (State.after (((s.logFault 0xFD 0x01 4 (some c.val) (some k) die.val ch 0).strike k 0).retireCore c.val) k))
    ∧ (∀ (die : DieId) (ch : Nat) (h : WdHit), h = .hub ch ∨ h = .traces ch ∨ h = .memory ch → s.scanned.contains die.val = false →
      exec (.watchdogScan die [h]) s = .next ((s.logFault 0xFD 0x02 5 none none die.val ch 0).enterSafeHold 2))
    ∧ (∀ die : DieId, s.scanned.contains die.val = false → 8 ≤ die.val →
      exec (.watchdogScan die [.wagonmaster]) s = .next ((s.logFault 0xFC 0x04 5 none none die.val s.syndrome 0).enterSafeHold 1))
    ∧ (∀ (die : DieId) (c : CoreId) (k : Nat), s.scanned.contains die.val = false → coreDie c.val = die.val → (s.core c.val).ctx = some k →
      exec (.watchdogScan die [.logic c]) s =
        .next (State.after ((s.logFault 0xFC 0x03 2 (some c.val) (some k) die.val s.syndrome 0).strike k 0) k))
    ∧ (∀ (die : DieId) (q : QRef), s.scanned.contains die.val = false → coreDie q.core.val = die.val → exec (.watchdogScan die [.residue q]) s = .next (s.residueHit q))
    ∧ ∀ link : Fin 26, exec (.tracesLinkFailure link) s = .next ((s.logFault 0xFE 0x02 5 none none 8 link.val 0).enterSafeHold 2))

/-- A check of power and temperature records what it measured, paces the module above the power limit or 85 degrees, and enters Safe Hold for cause 4 above 105
degrees of a die and for cause 6 above 100 degrees of a memory stack. Safe Hold is entered once, with its cause, and the event 0x0009 is posted last; SH_ENTER
enters it for cause 5. -/
def Obligations.PowerChecksAndSafeHold : Prop :=
  (∀ (s : State) (temps : List Int) (mv w : Nat) (cin : Int) (flow : Nat), s.up = true → temps.length = 26 →
    let u := (((((temps.zipIdx.foldl (fun u e => u.setVal TEMP (e.2 + 1) (Bits.wrap e.1 32)) s).setVal INPUT_MV 0 mv).setVal INPUT_W 0 w).setVal COOLANT_IN 0
      (Bits.wrap cin 32)).setVal COOLANT_FLOW 0 flow)
    let t := u.setVal PACED 0 (if u.powerLimit < w ∨ ∃ t ∈ temps, 8500 < t then 1 else 0)
    ((∃ x ∈ temps.take 10, 10500 < x) → exec (.powerThermalCheck temps mv w cin flow) s = .next (t.enterSafeHold 4))
    ∧ ((∀ x ∈ temps.take 10, x ≤ 10500) → (∃ x ∈ temps.drop 10, 10000 < x) → exec (.powerThermalCheck temps mv w cin flow) s = .next (t.enterSafeHold 6))
    ∧ ((∀ x ∈ temps.take 10, x ≤ 10500) → (∀ x ∈ temps.drop 10, x ≤ 10000) → exec (.powerThermalCheck temps mv w cin flow) s = .next t))
  ∧ (∀ (s : State) (cause : Nat), s.up = true →
    (s.safeHold = true → s.enterSafeHold cause = s)
    ∧ (s.safeHold = false → (s.enterSafeHold cause).safeHold = true ∧ (s.enterSafeHold cause).shCause = cause ∧ (s.enterSafeHold cause).phase = s.phase
      ∧ ∃ u, s.enterSafeHold cause = State.event u 0x0009 none 8 cause)
    ∧ exec .shEnter s = .next { s.enterSafeHold 5 with answer := 0 })

/-- A scrub reads a line that exists: a clean one changes nothing; a corrected error is counted, and the first of its row in a pass over device memory is
logged in FA SUB 0x01; an uncorrectable one of device memory is counted, poisons its line, and is logged in FA SUB 0x05, or SUB 0x07 in the CXL tier (log
entry 105), with the die of the line's stack or port, after which the context goes on; one of the accumulation store poisons its slot and is logged in FA SUB
0x05. The last line of HBM3E ends a pass, which is counted. A row or column that qualifies is replaced at the next step boundary, at once while no step runs
(the model's choice, log entry 85), which is counted, or posts the event 0x0021 where no spare is left; a CXL port that goes down is marked and logged in FA
SUB 0x07; MAP_PRESENT maps the page of a DEMAND region, or is refused with WS-39, and with WS-38 elsewhere. -/
def Obligations.MemoryEventsComplete : Prop :=
  ∀ s : State, s.up = true →
    (∀ loc r, s.locExists loc = true →
      exec (.scrubLine loc .clean r) s = .next (s.scrubPass loc r)
      ∧ exec (.scrubLine loc .corrected r) s = .next ((s.scrubCorrected loc r).scrubPass loc r)
      ∧ (s.scrubPass loc r = if r.passEnd = true ∧ s.isHbm loc = true then s.count SCRUB_PASSES 0 1 else s)
      ∧ ∀ k a, loc = .dev k a →
        let n := s.targetOf k.val a
        let c := s.count ECC_CORR (n + 1) 1
        let u := s.count ECC_UNCORR (n + 1) 1
        let v := u.updCtx k.val fun c => { c with poison := Tab.set false c.poison (a / 64) true }
        (∀ h : n < 20, let row := SpareUnit.row ⟨n, h⟩ r.row
          s.scrubCorrected loc r =
            (if s.firstInPass row then c.logFault 0xFA 0x01 0 none (some k.val) (targetDie (c.targetOf k.val a)) c.syndrome a else c).noteCorrected row)
        ∧ exec (.scrubLine loc .uncorrectable r) s = .next (State.after
          ((v.logFault 0xFA (if u.targetOf k.val a < 16 then 0x05 else 0x07) 8 none (some k.val) (targetDie (u.targetOf k.val a)) u.syndrome a).scrubPass loc r) k))
    ∧ (∀ (c : CoreId) (a : Nat) r,
      let u := (s.count ECC_UNCORR 0x15 1).updCore c.val fun x =>
        x.setTile (a / 16384) { x.tile (a / 16384) with poison := (x.tile (a / 16384)).poison ++ [a % 16384] }
      exec (.scrubLine (.accStore c a) .uncorrectable r) s =
        .next (u.logFault 0xFA 0x05 8 (some c.val) ((s.count ECC_UNCORR 0x15 1).core c.val).ctx (coreDie c.val) (s.count ECC_UNCORR 0x15 1).syndrome a))
    ∧ (∀ (unit : SpareUnit) (spare : Bool),
      let rest := s.sparing.corrected.filter fun e => e.1 != unit
      (s.sparing.qualifies unit = false → exec (.rowSpare unit spare) s = .next s)
      ∧ (s.sparing.qualifies unit = true → s.anyStep = true → exec (.rowSpare unit spare) s =
        .next { s with sparing := { s.sparing with due := s.sparing.due ++ [(unit, spare)], corrected := rest } })
      ∧ (s.sparing.qualifies unit = true → s.anyStep = false → s.sparing.due = [] → exec (.rowSpare unit spare) s =
        .next (State.applySpare { s with sparing := { s.sparing with corrected := rest } } (unit, spare))))
    ∧ (∀ (t : Fin 20) (row : Nat), s.applySpare (.row t row, true) = s.count SPARED (t.val + 1) 1
      ∧ s.applySpare (.row t row, false) = s.event 0x0021 none (targetDie t.val) t.val)
    ∧ (∀ (c : CoreId) (b : Fin 64) (col : Nat) (spare : Bool),
      let n := Tab.get 0 s.sparing.columns (64 * c.val + b.val)
      (n < 4 → s.applySpare (.column c b col, spare) =
        State.count { s with sparing := { s.sparing with columns := Tab.set 0 s.sparing.columns (64 * c.val + b.val) (n + 1) } } SPARED 0x15 1)
      ∧ (4 ≤ n → s.applySpare (.column c b col, spare) = s.event 0x0021 none (coreDie c.val) c.val))
    ∧ (∀ p : Fin 4, s.cxlDown.contains p.val = false →
      exec (.cxlLinkDown p) s = .next (State.logFault { s with cxlDown := s.cxlDown ++ [p.val] } 0xFA 0x07 8 none none (targetDie (16 + p.val)) p.val 0))
    ∧ (∀ (k : CtxId) (va : W64), (∀ i r, s.regionAt k.val va.toNat = some (i, r) → r.demand = false) → exec (.mapPresent k va) s = .next { s with answer := 0x38 })
    ∧ ∀ (k : CtxId) (va : W64) (i : Nat) (r : Region), s.regionAt k.val va.toNat = some (i, r) → r.demand = true →
      (∀ u, s.mapPage k.val va.toNat = some u → exec (.mapPresent k va) s = .next { u with answer := 0 })
      ∧ (s.mapPage k.val va.toNat = none → exec (.mapPresent k va) s = .next { s with answer := 0x39 })

/-! ### Ingest -/

/-- INGEST_GO outside Safe Hold, with a batch that every owner divides, a well-formed descriptor and memory for the catalogue, reads the image that
CATALOG_SRC names, counts its bytes and stores it; a well-formed one starts the service over its samples, any other is refused with WS-35, and so is the
command where the target has no enabled record or the Ethernet ports are down (log entry 115) or in Safe Hold (log entry 104); without those conditions it is
refused with WS-34. A SAMPLE message of the ingest group, for a step that has not committed and that has a slot, fills its place there; without a slot it
waits. -/
def Obligations.IngestStartsAndHearsItsGroup : Prop :=
  (∀ (s : State) (k : CtxId) (e : Env), s.up = true →
    let a := s.val CATALOG_ADDR (k.val + 1)
    let im := e.catalog
    let x := s.catalogSrc k.val
    let ready := s.batch k.val % (s.ctx k.val).nown = 0 ∧ idescBad (s.blobNat INGEST_DESC (k.val + 1) 0 32) = false ∧ s.memCheck k.val a im.length = none
    let u := ((s.count BYTES_READ (k.val + 1) im.length).emit (.catalogRead k.val x.target x.nsid x.slba x.nlb)).hubWrite k.val a im
    (s.safeHold = true → exec (.ingestGo k e) s = .next { s with answer := 0x35 })
    ∧ (s.safeHold = false → s.targetUsed x.target = true → s.ethUp = true → ready → u.catalogBad k.val im = false →
      exec (.ingestGo k e) s = .next { (u.updCtx k.val fun c =>
        { c with ingest := true, ns := Bits.ofBytes (im.take 8), nsh := Bits.ofBytes ((im.drop 8).take 4) }).restartIngest k.val with answer := 0 })
    ∧ (s.safeHold = false → s.targetUsed x.target = true → s.ethUp = true → ready → u.catalogBad k.val im = true → exec (.ingestGo k e) s = .next { u with answer := 0x35 })
    ∧ (s.safeHold = false → s.targetUsed x.target = false ∨ s.ethUp = false → ready →
      exec (.ingestGo k e) s = .next { s.hubWrite k.val a [] with answer := 0x35 })
    ∧ (s.safeHold = false → ¬ ready → exec (.ingestGo k e) s = .next { s with answer := 0x34 }))
  ∧ (∀ (s : State) (k : CtxId) (m : CMsg) (gn : Nat) (r : CGroup) (bs : List Byte), s.up = true → s.safeHold = false → m.hdr.mtype = 11 →
    let u := s.heard m
    let n := m.hdr.epoch
    u.ingestGroup k.val = some (gn, r) → m.payload = .raw bs → m.hdr.group = gn → m.hdr.job = r.job → m.hdr.sender ≠ r.rank → m.hdr.sender < r.nmem → r.xjob = false →
    m.hdr.pgen = u.pgen k.val → (u.ctx k.val).ingest = true → u.val COMMITTED_STEP (k.val + 1) < n →
    (∀ w, u.hasSlot k.val n = true → u.ownIndex k.val = some w →
      let d := u.idesc k.val
      let p := u.layout k.val n w
      let start := d.vecOff p.nrows + ((p.at_[m.hdr.seg]?).getD (0, 0, 0)).1 * d.vecBytes
      exec (.caravanSample k m) s = .next
        ((u.putSample k.val n m.hdr.seg (32 * (m.hdr.offset - start / 32)) bs m.hdr.endB (bs.isEmpty && m.hdr.endB)).after k.val))
    ∧ (u.hasSlot k.val n = false →
      exec (.caravanSample k m) s = .next ((u.updCtx k.val fun c => { c with sampleWait := c.sampleWait ++ [m] }).after k.val)))

/-- A read whose length and digest are the sample record's goes with its bytes to a decode slice, else it has failed for SUB 0x01, and for SUB 0x02 when it times
out; a range whose retries are exhausted is read again on its timer; a decode that is done delivers the tokens of what its range decodes to, or, where the range
does not decode, is logged in FF SUB 0x04 and voids the sample with cause 4; a faulty slice is retired. -/
def Obligations.SamplesComplete : Prop :=
  ∀ (s : State) (k : CtxId) (q : Nat), s.up = true → s.safeHold = false → (s.ctx k.val).ingest = true →
    let st := s.sampleSt k.val q
    (∀ bytes, st.busy = true →
      let u := s.count BYTES_READ (k.val + 1) bytes.length
      let r := u.srec k.val (u.sampleAt k.val q)
      exec (.storageReadComplete k q bytes) s = .next (State.after (if bytes.length = r.len ∧ Sha3.digest bytes = r.digest
        then (u.updSample k.val q fun x => { x with busy := false, read := true, range := bytes }).emit (.decode k.val q)
        else u.readFailed k.val q 0x01) k.val))
    ∧ (st.busy = true → exec (.storageReadTimeout k q) s = .next ((s.readFailed k.val q 0x02).after k.val))
    ∧ (st.exhausted = true → st.busy = false → st.read = false → exec (.shardRetryTimer k q) s = .next ((s.readAgain k.val q).after k.val))
    ∧ (st.read = true → st.delivered = false →
      let x := s.sampleAt k.val q
      let dec := decodeRange (s.idesc k.val) (s.srec k.val x) st.range
      exec (.decodeComplete k q .done) s = .next ((s.decoded k.val q dec).after k.val)
      ∧ (∀ bits full fs bs, let u := s.count PIXELS_DECODED (k.val + 1) (lumaPixels fs)
        u.tokensOf k.val q bits full fs = .ok bs →
          s.decoded k.val q (some (bits, full, fs)) = (u.count SAMPLES_READ (k.val + 1) 1).deliverSample k.val q bs)
      ∧ s.decoded k.val q none = (s.logFault 0xFF 0x04 8 none (some k.val) 8 q x).voidSample k.val q x 4
      ∧ ∀ n, exec (.decodeComplete k q (.sliceFault n)) s = .next ((s.sliceOut k.val q n).after k.val))

/-! ### Bivouac -/

/-- A stage is written and counted, its own pin ends, and the copy to its first tier begins; a copy ends with its digests passed or not, and a flash copy that
passed lets the commit that waits for it go on; a partner that does not answer turns PAIRED or DEGRADED into ABSENT, with the event 0x0031, and a copy on its
way there fails. SALVAGE_GO takes a generation of every context in Safe Hold and is refused with WS-3C outside it; the charge of the holdup store is recorded,
with the event 0x0032 where it crosses 80 percent. -/
def Obligations.GenerationsAndSalvageComplete : Prop :=
  (∀ (s : State) (k : CtxId) (st : Stage), s.up = true → s.safeHold = false → (s.ctx k.val).stage = some st →
    (st.staged = false →
      let u := (s.writeStage k.val st).count GEN_TAKEN (k.val + 1) 1
      exec (.genStageDone k) s = .next (State.after ((u.updCtx k.val fun c => { c with
        stage := some { st with staged := true }
        pins := c.pins.filter fun p => p.eval || p.step != st.step }).nextCopy k.val) k.val))
    ∧ (st.staged = true → ∀ ok,
      let u := s.endCopy k.val ok
      exec (.genCopyDone k ok) s = .next (State.after (if st.tiers.head? = some 1 ∧ ok = true then u.genArrived k.val st.step else u) k.val)))
  ∧ (∀ (s : State) (k : CtxId), s.up = true → s.safeHold = false →
    let ps := s.val PAIR_STATE (k.val + 1)
    let u := (s.setVal PAIR_STATE (k.val + 1) 3).event 0x0031 (some k.val) 8 (s.biv k.val).prank
    let copying := match (u.ctx k.val).stage with
      | some st => st.staged && st.tiers.head? == some 0
      | none => false
    (ps = 1 ∨ ps = 2 → exec (.partnerTimeout k) s = .next (State.after (if copying then u.endCopy k.val false else u) k.val)))
  ∧ (∀ s : State, s.up = true →
    (s.safeHold = true → exec .salvageGo s = .next { s.eachCtx State.salvage with answer := 0 })
    ∧ (s.safeHold = false → exec .salvageGo s = .next { s with answer := 0x3C })
    ∧ ∀ p, let old := s.val HOLDUP_CHARGE 0
      let u := s.setVal HOLDUP_CHARGE 0 p
      (80 ≤ old → p < 80 → exec (.holdupChargeLow p) s = .next (u.event 0x0032 none 8 (evData2 p 1)))
      ∧ (old < 80 → 80 ≤ p → exec (.holdupChargeLow p) s = .next (u.event 0x0032 none 8 (evData2 p 0)))
      ∧ ((80 ≤ old ↔ 80 ≤ p) → exec (.holdupChargeLow p) s = .next u))

/-- PAIR_GO answers WS-3B where the two sides do not name each other or a domain is not set, pairs apart domains, and pairs one domain only where both sides
override (else WS-3A); RESTORE_GO starts the refill of a reachable generation of a fresh context with the same configuration. A chunk in flight that passes
the digest check, where it is asked for, is written, and verified unless the replica is to be compared; a failed one is read again, from its source and then
from the next one; once every chunk is written, the replica's digest verifies a chunk, or has it read again once; with the last chunk verified the image is
restored. A source that fails is replaced by the next one, a lower generation starts the refill afresh with the member paused, and with none the refill ends
and the job pauses, with a partner that was the source entered into the refill queue; a verified member becomes RESUMABLE. -/
def Obligations.PairingRestoreAndRefillsComplete : Prop :=
  (∀ (s : State) (k : CtxId) (e : Env), s.up = true →
    let dom := s.val POWER_DOMAIN 0
    (s.cgroup k.val (s.biv k.val).group = none ∨ e.partner = none → exec (.pairGo k e) s = .next { s with answer := 0x3B })
    ∧ (∀ g p, s.cgroup k.val (s.biv k.val).group = some g → e.partner = some p →
      let agree := p.rank = (s.biv k.val).prank ∧ p.namesRank = g.rank ∧ p.job = g.job ∧ dom ≠ 0 ∧ p.domain ≠ 0
      (¬ agree → exec (.pairGo k e) s = .next { s with answer := 0x3B })
      ∧ (agree → p.domain ≠ dom → exec (.pairGo k e) s = .next { s.setVal PAIR_STATE (k.val + 1) 1 with answer := 0 })
      ∧ (agree → p.domain = dom → s.val PAIR_OVERRIDE 0 = 1 ∧ p.override = true →
        exec (.pairGo k e) s = .next { s.setVal PAIR_STATE (k.val + 1) 2 with answer := 0 })
      ∧ (agree → p.domain = dom → ¬ (s.val PAIR_OVERRIDE 0 = 1 ∧ p.override = true) → exec (.pairGo k e) s = .next { s with answer := 0x3A }))
    ∧ (let want := s.val RESTORE_STEP (k.val + 1)
      (s.ctx k.val).st = .loaded → (s.ctx k.val).fresh = true →
      (s.ctx k.val).restoreHead (if want = 0 then (s.reachable k.val e).max?.getD 0 else want) e = (s.configDigest k.val, s.val INV_REV 0) →
      (want ≠ 0 → (s.reachable k.val e).contains want = true → exec (.restoreGo k e) s = .next { s.startRefill k.val want e.source with answer := 0 })
      ∧ (want ≠ 0 → (s.reachable k.val e).contains want = false → exec (.restoreGo k e) s = .next { s with answer := 0x3D })
      ∧ (∀ g, want = 0 → (s.reachable k.val e).max? = some g → exec (.restoreGo k e) s = .next { s.startRefill k.val g e.source with answer := 0 }))
    ∧ ((s.ctx k.val).st ≠ .loaded → exec (.restoreGo k e) s = .next { s with answer := 0x3C }))
  ∧ (∀ (s : State) (k : CtxId), s.up = true → s.safeHold = false →
    let js := s.val JOB_STATE (k.val + 1)
    (js = 3 → exec (.jobResumable k) s = .next (((s.updCtx k.val fun c => { c with refillQueue := [] }).setVal JOB_STATE (k.val + 1) 4).after k.val))
    ∧ ∀ r, (s.ctx k.val).refill = some r → js = 2 →
      (∀ (chunk : Nat) (h : SlotHead) (rep : Replica) (bytes : List Byte), chunk < r.chunks → r.verified.contains chunk = false →
        let v := (s.biv k.val).verify
        (r.restored.contains chunk = false → r.inFlight.contains chunk = true →
          let x := s.readChunk k.val chunk r h bytes
          let r' : Refill := { r with
            restored := r.restored ++ [chunk]
            verified := if Bits.bit v 1 then r.verified else r.verified ++ [chunk]
            image := Tab.setRange 0 r.image (chunkSize * chunk) (x.2.take chunkSize) }
          ((Bits.bit v 0 = true → headFits x.1 chunk x.2 = true) →
            exec (.refillChunkDone k chunk h rep bytes) s = .next (State.after ((s.updCtx k.val fun c => { c with refill := some r' }).refillDone k.val) k.val))
          ∧ (Bits.bit v 0 = true → headFits x.1 chunk x.2 = false → exec (.refillChunkDone k chunk h rep bytes) s = .next ((s.refetch k.val chunk r).after k.val)))
        ∧ (r.restored.contains chunk = true → ((List.range r.chunks).all r.restored.contains) = true → rep.rank = (s.biv k.val).rrank →
          r.failed.contains (chunk, 4) = false →
          let same := rep.digest.toNat = Sha3.digest (Tab.getRange 0 r.image (chunkSize * chunk) (s.chunkLen k.val chunk))
          (same → exec (.refillChunkDone k chunk h rep bytes) s = .next (State.after
            ((s.updCtx k.val fun c => { c with refill := some { r with verified := r.verified ++ [chunk] } }).refillDone k.val) k.val))
          ∧ (¬ same → r.failed.contains (chunk, 3) = false → exec (.refillChunkDone k chunk h rep bytes) s = .next
            ((s.rereadFrom k.val chunk ((s.ctx k.val).nextSource r.g (r.from_ chunk)) 3 r).after k.val))
          ∧ (¬ same → r.failed.contains (chunk, 3) = true → exec (.refillChunkDone k chunk h rep bytes) s = .next (State.after (State.event
            (s.updCtx k.val fun c => { c with refill := some { r with failed := r.failed ++ [(chunk, 4)] } }) 0x0036 (some k.val) 8 chunk) k.val))))
      ∧ (let u := if r.source = 0 then s.failMember k.val (s.biv k.val).prank else s
        (∀ t l, exec (.refillSourceFail k (some t) l) s =
          .next (State.after (u.updCtx k.val fun c => { c with refill := some { r with source := t, moved := [] } }) k.val))
        ∧ (∀ g, exec (.refillSourceFail k none (some g)) s =
          .next (State.after (((u.event 0x0034 (some k.val) 8 (evData2 r.g g)).startRefill k.val g r.source).setVal JOB_STATE (k.val + 1) 1) k.val))
        ∧ exec (.refillSourceFail k none none) s = .next (State.after
          (((u.updCtx k.val fun c => { c with refill := none }).setVal JOB_STATE (k.val + 1) 1).event 0x0035 (some k.val) 8 0) k.val)))

/-! ### Power, starts and Safe Hold -/

/-- The loss of power, the opening of the presence loop and MOD_RESET_N end a running part with the sequence of Table 14-3, after which the Ethernet links are
down and no port is up; without its input the standby rail and the TAP are down too, and the reset input is held until its release. Power and the release of
the reset start the part with causes 0 and 1, but power with the reset input held leaves it in reset; a TRIAL start that has not finished in time, without
BOOT_SAFE, fails its slot and starts the other with cause 4, and so does any start while such a revert is due; RESTART_GO and SH_EXIT start it with causes 2
and 3. -/
def Obligations.PowerAndStartsComplete : Prop :=
  ∀ (s : State) (i : StartIn),
    (s.phase = .running →
      exec .powerFailDetect s = .next { s.powerDown .off with standby := false, tap := {} } ∧ exec .presentNOpen s = .next (s.powerDown .off)
      ∧ exec .modResetAssert s = .next (State.powerDown { s with resetHeld := true } .inReset)
      ∧ (∀ p, (s.powerDown p).phase = p ∧ (s.powerDown p).ethUp = false ∧ (s.powerDown p).wbv = s.wbv ∧ (s.powerDown p).fw = s.fw
        ∧ (s.powerDown p).evSeq = s.evSeq ∧ ∀ e ∈ (s.powerDown p).ports, e.2.st = .down ∨ e.2.st = .bypassed ∨ e.2.st = .disabled))
    ∧ (s.phase ≠ .running → exec .powerFailDetect s = .next { s with phase := .off, standby := false, tap := {} }
      ∧ exec .presentNOpen s = .next { s with phase := .off })
    ∧ (s.phase = .off → s.resetHeld = false → exec (.powerOn i) s = .next (State.startPart { s with standby := true } 0 0 i))
    ∧ (s.phase = .off → s.resetHeld = true → exec (.powerOn i) s = .next { s with standby := true, phase := .inReset })
    ∧ (s.phase = .inReset → exec (.modResetRelease i) s = .next (State.startPart { s with resetHeld := false } 1 0 i))
    ∧ (let reverted := State.boot 2 { s with fw := s.fw.flip .active .failed } 4 0 i [(0x0054, evData3 s.fw.num (1 - s.fw.num) 1)]
      (s.up = true → s.fw.active.st = .trial → s.startDone = false → s.bootSafe = false → exec (.trialTimeout i) s = .next reverted)
      ∧ (s.revert = true → ∀ cause tag, s.startPart cause tag i = reverted)
      ∧ (s.revert = false → ∀ cause tag, s.startPart cause tag i = State.boot 2 s cause tag i []))
    ∧ (s.up = true → s.safeHold = true ∨ (∀ k < 16, (s.ctx k).st = .free) → s.fw.startTag ≠ anyTag →
      exec (.restartGo i) s = .next (State.startPart { s with answer := 0 } 2 s.fw.startTag i))
    ∧ (s.up = true → s.safeHold = false → (∃ k < 16, (s.ctx k).st ≠ .free) →
      exec (.restartGo i) s = .next { s.fwRefuse 0x08 RESTART_GO with answer := 0x10 })
    ∧ (s.up = true → s.safeHold = true → exec (.shExit i) s = .next (State.startPart { s with answer := 0 } 3 0 i))

/-! ### Contexts -/

/-- Once a start has finished, and with no command waiting and no other context running speculatively, CTX_OPEN_GO of a FREE context with cores enough, Mileposts
enough and a package that is not refused leaves it LOADED with that package; without the cores it is refused with WS-2C, without the Mileposts with WS-26, and a
refused package with WS-2A; in another state it is refused with WS-2B, and before step 8 with WS-2C. -/
def Obligations.ContextsOpen : Prop :=
  ∀ (s : State) (k : CtxId) (e : Env), s.up = true →
    (s.startDone = false → exec (.ctxOpenGo k e) s = .next { s with answer := 0x2C })
    ∧ (s.startDone = true → (s.ctx k).st ≠ .free → s.behind k = false → exec (.ctxOpenGo k e) s = .next { s with answer := 0x2B })
    ∧ (s.startDone = true → (s.ctx k).st = .free → s.late = [] → s.specRunning k = [] →
      (s.pickCores (s.val CTX_CORES (k.val + 1)) = none → exec (.ctxOpenGo k e) s = .next { s with answer := 0x2C })
      ∧ (∀ roles twins, s.pickCores (s.val CTX_CORES (k.val + 1)) = some (roles, twins) →
        (s.mpShort e.pkg.mps = true → exec (.ctxOpenGo k e) s = .next { s with answer := 0x26 })
        ∧ (∀ r, s.mpShort e.pkg.mps = false → s.loadRefusal e = some r →
          exec (.ctxOpenGo k e) s = .next { s.keepRefusal k r with answer := 0x2A })
        ∧ (s.mpShort e.pkg.mps = false → s.loadRefusal e = none → ∃ t, exec (.ctxOpenGo k e) s = .next t ∧ t.answer = 0
          ∧ (t.ctx k).st = .loaded ∧ (t.ctx k).pkg = e.pkg ∧ t.pending = s.pending ∧ t.fw = s.fw ∧ t.tap = s.tap)))

/-- LOAD_GO of a LOADED, RUNNING or HALTED context, with a package that names no active bank, finds its Mileposts and is not refused, fills the inactive
banks, after the buffers of an aborted program are reclaimed, and allocates the new Mileposts; a package that names an active bank is refused with WS-28.
START_GO of a LOADED context, or of a HALTED one that was loaded again, begins every queue, and opens the next epoch, with what earlier ones left dropped, or,
without epochs, begins the clear of every enabled store; it waits for a commit under way (log entry 117), and every command of a context waits behind an
earlier one that has not been accepted. SAVE_GO of a RUNNING or HALTED context with frames for its save area, and TEARDOWN_GO of one that is neither FREE nor
DRAINING, drain it; RESUME_GO of a SAVED one waits for a step boundary. In other states each is refused with WS-2B, SAVE_GO without frames with WS-39,
RESUME_GO before step 8 of a start with WS-2C, START_GO in Safe Hold, or of a member that is PAUSED, RESTORING or VERIFIED, with WS-2B (log entries 104 and
125). When the drain limit of a teardown passes, every queue with an instruction that has not retired halts with HC-1D. -/
def Obligations.ContextCommandsComplete : Prop :=
  ∀ (s : State) (k : CtxId) (e : Env), s.up = true →
    let st := (s.ctx k).st
    let active := (s.ctxCores k).any fun c => (s.core c).namesActive e.pkg
    let js := s.val JOB_STATE (k + 1)
    (s.behind k = true →
      exec (.loadGo k e) s = .next (State.runLate { s with late := s.late ++ [{ kind := 5, k := k, env := e, req := none }] })
      ∧ exec (.startGo k) s = .next (State.runLate { s with late := s.late ++ [{ kind := 4, k := k, req := none }] })
      ∧ exec (.saveGo k) s = .next (State.runLate { s with late := s.late ++ [{ kind := 6, k := k, req := none }] })
      ∧ exec (.teardownGo k) s = .next (State.runLate { s with late := s.late ++ [{ kind := 7, k := k, req := none }] }))
    ∧ (s.startWaits k = true → exec (.startGo k) s = .next (State.runLate { s with late := s.late ++ [{ kind := 4, k := k, req := none }] }))
    ∧ (s.behind k = false →
    (st = .loaded ∨ st = .running ∨ st = .halted →
      (active = true → exec (.loadGo k e) s = .next { s with answer := 0x28 })
      ∧ (active = false → s.mpShort (s.newMps k e.pkg) = false → s.loadRefusal e = none →
        let u := if st = .halted ∧ (s.ctx k).aborting.isSome = true then s.eachCore k Core.reclaim else s
        exec (.loadGo k e) s = .next { (s.newMps k e.pkg).foldl (fun (s : State) d => s.allocMp k d)
          ((u.eachCore k fun c => c.loadInactive e.pkg).updCtx k fun c => { c with pkg := e.pkg, phofer := e.pkg.phofer, reloaded := true }) with answer := 0 }))
    ∧ (st = .free ∨ st = .draining ∨ st = .saved → exec (.loadGo k e) s = .next { s with answer := 0x2B })
    ∧ (s.startWaits k = false → s.safeHold = false → js = 0 ∨ 3 < js → st = .loaded ∨ (st = .halted ∧ (s.ctx k).reloaded = true) →
      let u := (s.releaseHeld k).pairTwins k
      let done := u.val COMMITTED_STEP (k + 1)
      let v := (u.eachQueue k fun s q => s.updQueue q fun x => x.begin (done - u.val STEP_BASE (k + 1))).updCtx k fun c =>
        { c with st := .running, reloaded := false, fresh := false, aborting := none }
      let w := if v.val JOB_STATE (k + 1) = 4 then v.setVal JOB_STATE (k + 1) 0 else v
      (w.stepGroup k = none → exec (.startGo k) s = .next (State.after { w.beginClear k none with answer := 0 } k))
      ∧ (w.stepGroup k ≠ none →
        let x := ((w.ctxCores k).foldl (fun s c => s.squashCore (done + 1) c) (w.dropStray k (done + 1))).updCtx k fun c => { c with
          epochs := c.epochs.filter fun e => !e.uncommitted && e.st != .squashed
          ops := c.ops.filter fun o => o.2.epoch ≤ done }
        exec (.startGo k) s = .next (State.after { (x.recordAll k (done + 1)).openEpoch k (done + 1) with answer := 0 } k)))
    ∧ (s.startWaits k = false → s.safeHold = true ∨ (1 ≤ js ∧ js ≤ 3) ∨ (st ≠ .loaded ∧ ¬ (st = .halted ∧ (s.ctx k).reloaded = true)) →
      exec (.startGo k) s = .next (State.after { s with answer := 0x2B } k))
    ∧ (let n := Bits.cdiv (11 * (s.ctx k).roles.length) 2
      let frames := (List.range 16).map s.freeOn
      let t := (s.updCtx k fun c => { c with st := .draining, tearing := false, saveArea := takeFrames n frames (List.replicate 16 0) }).drainQueues k false
      (st = .running ∨ st = .halted → n ≤ frames.sum →
        exec (.saveGo k) s = .next (State.drainDone { t with late := t.late ++ [{ kind := 1, k := k, req := none }] } k).runLate)
      ∧ (st = .running ∨ st = .halted → frames.sum < n → exec (.saveGo k) s = .next { s with answer := 0x39 })
      ∧ (st ≠ .running → st ≠ .halted → exec (.saveGo k) s = .next { s with answer := 0x2B }))
    ∧ (st = .saved → s.startDone = true →
      exec (.resumeGo k) s = .next ((State.runLate { s with late := s.late ++ [{ kind := 2, k := k, need := s.specRunning k, req := none }] }).after k))
    ∧ (s.startDone = false → exec (.resumeGo k) s = .next { s with answer := 0x2C })
    ∧ (s.startDone = true → st ≠ .saved → exec (.resumeGo k) s = .next { s with answer := 0x2B })
    ∧ (st = .running ∨ st = .halted ∨ st = .loaded ∨ st = .saved →
      exec (.teardownGo k) s = .next (State.drainDone { s.tearStart k with late := (s.tearStart k).late ++ [{ kind := 3, k := k, req := none }] } k).runLate)
    ∧ (st = .free ∨ st = .draining → exec (.teardownGo k) s = .next { s with answer := 0x2B }))
    ∧ (st = .draining → (s.ctx k).tearing = true → exec (.drainLimitExpire k) s = .next ((s.eachQueue k fun (s : State) q =>
        match (s.queue q).inflight with
        | i :: _ => s.haltAt q i.bank i.pc 0x1D 0 0
        | [] => if (s.queue q).replaying then s.haltRaw q 0x1D 0 0 else s).after k))

/-- ABORT_GO, after the context's advances on their way have arrived (log entry 102), poisons a Milepost that has not reached ABORT_VALUE and is not poisoned,
halts the queues of the context that wait, cancels its prefetches and votes to squash; any other target is refused with WS-29. SHARE_GO gives another context
a shared entry for a LIVE or FROZEN Milepost, or is refused with WS-24; POST_REARM of a Milepost number arms its record, and posts at once when the Milepost
has already reached it, or is refused with WS-27. STEP_GROUP of a LOADED or SAVED context takes a group with every queue as participant, sets STEP_BASE to
COMMITTED_STEP and makes the Mileposts that the context maps with ADV speculate, or with 0xFF ends that; it is refused with WS-05 for another value, with
WS-2B in another state and with WS-25 for another group. -/
def Obligations.MilepostCommandsComplete : Prop :=
  ∀ (s : State), s.up = true →
    (let k := Bits.fld (s.val ABORT_TARGET 1) 16 4
      let mp := Bits.fld (s.val ABORT_TARGET 1) 0 13
      let e := s.mpEntry k mp
      let u := s.landAdvs k
      let ok := e.valid = true ∧ e.shared = false ∧ (u.ctx k).st ≠ .free ∧ (u.pmp e.pmp).cval < s.val ABORT_VALUE 2
      (ok → (u.pmp e.pmp).st ≠ .poisoned →
        exec .abortGo s = .next { ((((u.abortQueues k mp).poisonPmp e.pmp true).cancelAllPrefs k).squashAllVote k).after k with answer := 0 })
      ∧ (¬ ok → exec .abortGo s = .next { u with answer := 0x29 }))
    ∧ (let a := s.val SHARE_SRC 1
      let b := s.val SHARE_DST 2
      let e := s.mpEntry (Bits.fld a 16 4) (Bits.fld a 0 13)
      let free := (s.mpEntry (Bits.fld b 16 4) (Bits.fld b 0 13)).valid = false
      let ok := e.valid = true ∧ e.shared = false ∧ ((s.pmp e.pmp).st = .live ∨ (s.pmp e.pmp).st = .frozen) ∧ free
      (ok → exec .shareGo s = .next { s.updCtx (Bits.fld b 16 4) (fun c =>
          { c with mpmap := Tab.set {} c.mpmap (Bits.fld b 0 13) { valid := true, shared := true, pmp := e.pmp } }) with answer := 0 })
      ∧ (¬ ok → exec .shareGo s = .next { s with answer := 0x24 }))
    ∧ (∀ (k : CtxId) (mp : BitVec 16), mp.toNat ≤ 8191 →
      (s.postRec k mp.toNat = none → exec (.postRearm k mp) s = .next { s with answer := 0x27 })
      ∧ (∀ i r, s.postRec k mp.toNat = some (i, r) →
        let u := s.setArm k i true
        let e := u.mpEntry k mp.toNat
        exec (.postRearm k mp) s =
          .next { (if e.valid = true ∧ Bits.fld r 128 64 ≤ (u.pmp e.pmp).cval then u.postMp e.pmp else u) with answer := 0 }))
    ∧ (∀ (k : CtxId) (v : Byte),
      let st := (s.ctx k.val).st
      let g := v.toNat
      let u := s.setVal STEP_GROUP (k.val + 1) g
      let speculate := fun (t : State) => ((t.ctx k.val).mpmap.filter fun e => e.2.valid && e.2.adv).foldl
        (fun (t : State) e => t.setPmp e.2.pmp { t.pmp e.2.pmp with spec := decide (g < 64) }) t
      (63 < g → g ≠ 0xFF → exec (.stepGroup k v) s = .next { s with answer := 0x05 })
      ∧ (g < 64 ∨ g = 0xFF → st ≠ .loaded → st ≠ .saved → exec (.stepGroup k v) s = .next { s with answer := 0x2B })
      ∧ (st = .loaded ∨ st = .saved →
        (g < 64 → s.stepGroupOk k.val g = false → exec (.stepGroup k v) s = .next { s with answer := 0x25 })
        ∧ (g < 64 → s.stepGroupOk k.val g = true →
          exec (.stepGroup k v) s = .next { speculate (u.setVal STEP_BASE (k.val + 1) (u.val COMMITTED_STEP (k.val + 1))) with answer := 0 })
        ∧ (g = 0xFF → exec (.stepGroup k v) s = .next { speculate u with answer := 0 })))

/-! ### Functions, resets and pitches -/

/-- A VF is enabled with an empty mailbox; its disable and its reset disable it and tear its context down; a reset of PF0 does so for every VF and for context
0, and a hot reset or HL_PERST_N does not tear context 0 down on a part that is managed from the ring. A valid Flysheet in Safe Hold is pitched at once; while
every context that runs has epochs it waits for the pitch to be applied, once every epoch of those contexts is final, which makes it active, lets go every
held setting but NODE_ADDR, holds the NODE_ADDR in force until the next start, has every port whose record changes follow it, lets every context go on, and
posts PITCHED; an invalid one is refused with WS-05, and a second pitch, or one outside Safe Hold while a context runs without epochs, with WS-0C. -/
def Obligations.FunctionResetsAndPitchesComplete : Prop :=
  (∀ (s : State) (fn : CtxId), s.up = true →
    (fn.val ≠ 0 → s.vfs.contains fn.val = false →
      exec (.vfEnable fn) s = .next { s with vfs := s.vfs ++ [fn.val], mailboxes := Tab.set {} s.mailboxes fn.val {} })
    ∧ (fn.val ≠ 0 → s.vfs.contains fn.val = true →
      let off := State.disable { s with vfs := s.vfs.filter (· != fn.val), mailboxes := Tab.set {} s.mailboxes fn.val {} } fn.val
      exec (.vfDisable fn) s = .next off ∧ exec (.flrVf fn) s = .next off)
    ∧ (let vfsOff := s.vfs.foldl (fun (u : State) v => u.vfOff v) s
      let off := State.disable { vfsOff with mailboxes := Tab.set {} vfsOff.mailboxes 0 {} } 0
      exec .flrPf0 s = .next off
      ∧ (s.mgrSel = false → exec .hostHotReset s = .next off ∧ exec .hlPerstN s = .next off)
      ∧ (s.mgrSel = true → exec .hostHotReset s = .next vfsOff ∧ exec .hlPerstN s = .next vfsOff)))
  ∧ (∀ (s : State) (slot : Byte), s.up = true →
    let v := slot.toNat
    let valid := v ≤ 7 ∧ s.flyValid v = true
    (¬ valid → exec (.pitch slot) s = .next { s with answer := 0x05 })
    ∧ (valid → s.pitching.isSome = true → exec (.pitch slot) s = .next { s with answer := 0x0C })
    ∧ (valid → s.pitching = none → s.safeHold = true → exec (.pitch slot) s = .next { State.event (s.setFly v) 0x000A none 8 v with answer := 0 })
    ∧ (valid → s.safeHold = false → (∃ k < 16, (s.ctx k).st = .running ∧ s.stepGroup k = none) →
      exec (.pitch slot) s = .next { s with answer := 0x0C })
    ∧ (valid → s.safeHold = false → s.pitching = none →
      (∀ k < 16, (s.ctx k).st = .running → (s.stepGroup k).isSome = true) → exec (.pitch slot) s = .next { s with pitching := some v, answer := 0 })
    ∧ (∀ w, s.pitching = some w → s.allFinal = true → exec .pitchApply s =
      .next (State.event ((s.setFly w).eachCtx fun s k => s.after k) 0x000A none 8 w))
    ∧ ∀ w, s.setFly w =
        (State.holdNode { s with fly := w, pitching := none, held := s.held.filter fun e => e.1 == Dict.key NODE_ADDR 0 } s).portsFollow s)

/-! ### Waybill -/

/-- Over a path that brings requests, READ of an entry that is there and is neither write-only nor a BLOB answers WS-00 with its value; a missing entry, a
write-only one and a BLOB are refused; READ_BLOCK of a BLOB answers the bytes from its offset, fewer at the BLOB's end, and WS-08 beyond it; and neither
changes anything but the answer and what is sent. A doorbell of an enabled function whose SEQ is that of its window's request is served, once; a ring frame
for this part is served where nothing is kept of its sender, one for every part is sent on and received, one for another is sent on by the other port with
HOPS lowered, and one from this part, or of another ethertype, is dropped; HOPS 0 is sent on no further. While the part is unpowered or in reset, where a
start that finds no slot leaves it too, a frame of one port leaves by the other. -/
def Obligations.WaybillReadsAndRequestsComplete : Prop :=
  (∀ (s : State) (p : Path) (entry sub : Nat), s.up = true → s.pathOpen p = true →
    let ans := fun (m : WbMsg) (c : Nat) (d : List Byte) => State.emit { s with answer := c } (.response p (wbAnswer m c d m.offset))
    let m : WbMsg := { op := 1, entry := entry, sub := sub }
    (Dict.find entry sub = none → exec (.wbRead p entry sub) s = .next (ans m (missing entry) []))
    ∧ (∀ r, Dict.find entry sub = some r →
      (r.acc = .wo → exec (.wbRead p entry sub) s = .next (ans m 0x03 []))
      ∧ (r.acc ≠ .wo → r.ty = .blob → exec (.wbRead p entry sub) s = .next (ans m 0x07 []))
      ∧ (r.acc ≠ .wo → r.ty ≠ .blob → exec (.wbRead p entry sub) s = .next (ans m 0 (Bits.toBytes r.bytes (s.readVal entry sub))))
      ∧ (∀ off len, 0 < len → len ≤ maxLen p → r.acc ≠ .wo → r.ty = .blob →
        let b : WbMsg := { op := 3, entry := entry, sub := sub, offset := off, reqlen := len }
        (s.blobSize r entry sub ≤ off → exec (.wbReadBlock p entry sub off len) s = .next (ans b 0x08 []))
        ∧ (off < s.blobSize r entry sub → exec (.wbReadBlock p entry sub off len) s =
          .next (ans b 0 (s.readBlob entry sub off (min len (s.blobSize r entry sub - off))))))))
  ∧ (∀ (s : State) (m : WbMsg) (e : Env), s.up = true → m.resp = false →
    (∀ fn : CtxId, s.fnEnabled fn.val = true → s.waitingReq (.host fn) = none → m.seq < 2 ^ 32 →
      let t : State := { s with reqWin := Tab.set [] s.reqWin fn.val m.bytes }
      (∀ x, s.pathSt (.host fn) = some x → x.seq = some m.seq → exec (.wbGo fn m.seq m e) s = .next (t.respond (.host fn) false x.resp))
      ∧ ((∀ x, s.pathSt (.host fn) = some x → x.seq ≠ some m.seq) → msgBad (.host fn) m = false →
        exec (.wbGo fn m.seq m e) s = .next (t.serve (.host fn) false m e)))
    ∧ (∀ (port1 : Bool) (f : MgFrame), f.msg = m → f.ethertype = 0x88B5 → f.src ≠ s.val MG_MAC 0 →
      (f.dst = s.val MG_MAC 0 → s.waitingReq (.ring f.src) = none → s.pathSt (.ring f.src) = none → msgBad (.ring f.src) m = false →
        exec (.mgFrameReceive port1 f e) s = .next (s.serve (.ring f.src) port1 m e))
      ∧ (f.dst ≠ s.val MG_MAC 0 → f.dst = broadcastMac →
        exec (.mgFrameReceive port1 f e) s = .next ((s.forward port1 f).receive (.ring f.src) port1 m e))
      ∧ (f.dst ≠ s.val MG_MAC 0 → f.dst ≠ broadcastMac → m.hops ≠ 0 →
        exec (.mgFrameReceive port1 f e) s = .next (s.emit (.ring (!port1) { f with msg := { m with hops := m.hops - 1 } })))
      ∧ (f.dst ≠ s.val MG_MAC 0 → f.dst ≠ broadcastMac → m.hops = 0 → exec (.mgFrameReceive port1 f e) s = .next s))
    ∧ (∀ (port1 : Bool) (f : MgFrame), f.ethertype ≠ 0x88B5 ∨ f.src = s.val MG_MAC 0 → exec (.mgFrameReceive port1 f e) s = .next s))
  ∧ (∀ (s : State) (port1 : Bool) (f : MgFrame) (e : Env), s.phase ≠ .running →
    exec (.mgFrameReceive port1 f e) s = .next (s.emit (.ring (!port1) f)))

/-- Over a path that brings requests, WRITE of a value that no check refuses is done; a missing entry, a read-only one, another length than the entry's and a
Service entry outside Service mode are refused with WS-01 or WS-02, WS-03, WS-07 and WS-04; a block of a transaction is staged up to 16 MiB, beyond which the
stage is dropped with WS-0B, and refused with WS-0A when none is open; LAST applies the transaction, and its time-out drops it. Over a path that is closed
none of them does anything. -/
def Obligations.WaybillWritesComplete : Prop :=
  ∀ (s : State) (p : Path) (entry sub : Nat) (data : List Byte) (e : Env), s.up = true →
    (s.pathOpen p = false → ∀ off, exec (.wbWrite p entry sub data e) s = .next s ∧ exec (.wbTxnOpen p entry sub off data) s = .next s
      ∧ exec (.wbWriteBlock p entry sub off data) s = .next s ∧ exec (.wbTxnApply p entry sub off data e) s = .next s)
    ∧ (s.pathOpen p = true →
    (Dict.find entry sub = none → exec (.wbWrite p entry sub data e) s = .next { s with answer := missing entry })
    ∧ (∀ r, Dict.find entry sub = some r → r.ty ≠ .blob →
      let v := Bits.ofBytes data
      (r.acc = .ro → exec (.wbWrite p entry sub data e) s = .next { s with answer := 0x03 })
      ∧ (r.acc ≠ .ro → data.length ≠ r.bytes → exec (.wbWrite p entry sub data e) s = .next { s with answer := 0x07 })
      ∧ (r.acc ≠ .ro → data.length = r.bytes → foreign p r entry sub = false → r.acc = .rws → s.service_ = false →
        exec (.wbWrite p entry sub data e) s = .next { s with answer := 0x04 })
      ∧ (data.length = r.bytes → s.accessBad p r entry sub none = none → entry ≠ REDUNDANCY → s.valueBad r entry sub v = none → s.stateRefused r entry sub = none →
        e.flashOk = true → exec (.wbWrite p entry sub data e) s = .next (s.doWrite entry sub v e none)))
    ∧ (∀ off, stageBytes [(entry, sub, off, data)] ≤ 16777216 →
      exec (.wbTxnOpen p entry sub off data) s = .next { s.setStage p (some [(entry, sub, off, data)]) with answer := 0 })
    ∧ (∀ off l, ((s.pathSt p).bind (·.stage)) = some l →
      let l' := l ++ [(entry, sub, off, data)]
      (stageBytes l' ≤ 16777216 →
        exec (.wbWriteBlock p entry sub off data) s = .next { s.setStage p (some l') with answer := 0 }
        ∧ exec (.wbTxnApply p entry sub off data e) s = .next ((s.setStage p none).applyTxn p l' e none))
      ∧ (16777216 < stageBytes l' → exec (.wbWriteBlock p entry sub off data) s = .next { s.setStage p none with answer := 0x0B })
      ∧ exec (.wbTxnTimeout p) s = .next (s.dropStage p))
    ∧ (∀ off, ((s.pathSt p).bind (·.stage)) = none →
      exec (.wbWriteBlock p entry sub off data) s = .next { s with answer := 0x0A } ∧ exec (.wbTxnApply p entry sub off data e) s = .next { s with answer := 0x0A }))

/-- For an enabled function: an eight-byte write at a multiple of 16 of the window to a LIVE Milepost that the host may write raises CVAL to the larger of
CVAL and the value, and leaves it where the value is not larger; any other is counted and posted with its offset and the code of the first cause, and changes
nothing else. A read of bytes 0 to 7 of a window entry gives CVAL of the mapped Milepost, or zero of an unmapped one, and bytes 8 to 15 give the status word.
The event consumer moves only forward and not past the producer. -/
def Obligations.HostWindowsComplete : Prop :=
  ∀ (s : State) (fn : CtxId) (offset : Fin 131072) (data : List Byte) (v : W64), s.up = true → s.fnEnabled fn.val = true →
    (let e := s.mpEntry fn.val (offset.val / 16)
      let p := s.pmp e.pmp
      (offset.val % 16 = 0 → data.length = 8 → e.valid = true → e.hostw = true → (s.ctx fn.val).st ≠ .saved → (s.ctx fn.val).st ≠ .draining → p.st = .live →
        (p.cval < Bits.ofBytes data → exec (.hostMpWindowWrite fn offset data) s =
          .next (((s.setPmp e.pmp { p with cval := Bits.ofBytes data }).cvalChanged e.pmp).after fn.val))
        ∧ (Bits.ofBytes data ≤ p.cval → exec (.hostMpWindowWrite fn offset data) s = .next s))
      ∧ (let refused := fun c => exec (.hostMpWindowWrite fn offset data) s =
          .next ((s.count WIN_REFUSED (fn.val + 1) 1).event 0x0003 (some fn.val) 8 (evData2 offset.val c))
        let form := offset.val % 16 = 0 ∧ data.length = 8
        let host := form ∧ e.valid = true ∧ e.hostw = true
        (¬ form → refused 0x23)
        ∧ (form → ¬ (e.valid = true ∧ e.hostw = true) → refused 0x20)
        ∧ (host → (s.ctx fn.val).st = .saved ∨ p.st = .frozen → refused 0x21)
        ∧ (host → (s.ctx fn.val).st ≠ .saved → p.st ≠ .frozen → (s.ctx fn.val).st = .draining ∨ p.st ≠ .live → refused 0x22)))
    ∧ (∀ n < 8192,
      let e := s.mpEntry fn.val n
      s.windowRead fn.val (16 * n) 8 = some (Bits.toBytes 8 (if e.valid then (s.pmp e.pmp).cval else 0))
      ∧ s.windowRead fn.val (16 * n + 8) 8 = some (Bits.toBytes 8 (s.windowStatus fn.val n)))
    ∧ (let m := s.mailbox fn.val
      (m.cons ≤ v.toNat → v.toNat ≤ m.prod →
        exec (.evConsWrite fn v) s = .next { s with mailboxes := Tab.set {} s.mailboxes fn.val { m with cons := v.toNat } })
      ∧ (v.toNat < m.cons ∨ m.prod < v.toNat → exec (.evConsWrite fn v) s = .next s))

/-! ### Firmware and the test port -/

/-- FB_GO leaves the offset, the length, the code of the submission and one more count, posts a refusal with its code, and fires WB_VEC of PF0 unless it is
0xFFFF. ACT_TAG names the activation of a staged image, and is refused with FW-0A while the lock is set and with FW-0B where no image is staged. A good token
sets the lock and the counter, any other is refused with FW-0D. OWNER_KEY is written whole in Service mode while the lock is open: outside that mode it
answers WS-04, and a set lock or another length FW-0E. ATTEST_NONCE leaves a report whose first 272 bytes are the state that it attests, with the nonce in
bytes 8 to 39, and whose signature is a free value of their digest. -/
def Obligations.FirmwareCommandsComplete : Prop :=
  ∀ (s : State) (e : Env), s.up = true →
    (∀ off len c w, (State.submit { s with fw := { s.fw with fbOffset := off, fbLen := len } } off (len % 2 ^ 32) (e.window.take 65536) e) = (w, c) →
      let x := if c = 0 then w else w.fwRefuse c off
      let y : State := { x with fw := { x.fw with fbCode := c, fbDone := x.fw.fbDone + 1 } }
      exec (.fbGo off len e) s = .next (if y.val WB_VEC 1 = 0xFFFF then y else y.emit (.msix 0 (y.val WB_VEC 1))))
    ∧ (∀ v : W64, (s.fw.lock = false → s.fw.stage = 2 → exec (.actTag v) s = .next { s with fw := { s.fw with actTag := v.toNat }, answer := 0 })
      ∧ (s.fw.lock = true → exec (.actTag v) s = .next { s.fwRefuse 0x0A ACT_TAG with answer := 0x10 })
      ∧ (s.fw.lock = false → s.fw.stage ≠ 2 → exec (.actTag v) s = .next { s.fwRefuse 0x0B ACT_TAG with answer := 0x10 }))
    ∧ (∀ token, let n := Bits.ofBytes ((token.drop 16).take 8)
      let lock := (token.drop 24).headD 0 == 1
      (s.tokenBad token e = false → exec (.ownerToken token e) s =
        .next { State.event { s with fw := { s.fw with counter := n, lock := lock } } 0x0055 none 8 (evData2 (Bits.ofBool lock) n) with answer := 0 })
      ∧ (s.tokenBad token e = true → exec (.ownerToken token e) s = .next { s.fwRefuse 0x0D OWNER_TOKEN with answer := 0x10 })
      ∧ (s.tokenBad token e = false ↔ token.length = 2452 ∧ s.ownerKeyEmpty = false ∧ Bits.ofBytes (token.take 16) = s.val SERIAL 0 ∧ s.fw.counter < n
        ∧ (Bits.ofBytes ((token.drop 24).take 1) = 1 ∨ Bits.ofBytes ((token.drop 24).take 1) = 2) ∧ Bits.ofBytes ((token.drop 25).take 7) = 0
        ∧ Env.verifies e s.ownerKey (token.take 32) ((token.drop 32).take 2420) = true)
      ∧ State.reset.fw.counter = 0)
    ∧ (∀ key : List Byte, (s.service_ = false → exec (.ownerKey key) s = .next { s with answer := 0x04 })
      ∧ (s.service_ = true → s.fw.lock = false → key.length = 1312 → exec (.ownerKey key) s = .next { s.setBlob OWNER_KEY 0 0 key with answer := 0 })
      ∧ (s.service_ = true → s.fw.lock = true ∨ key.length ≠ 1312 → exec (.ownerKey key) s = .next { s.fwRefuse 0x0E OWNER_KEY with answer := 0x10 })
      ∧ (s.setBlob OWNER_KEY 0 0 (List.replicate 1312 0)).ownerKeyEmpty = true)
    ∧ (∀ nonce : BitVec 256, ∃ r, exec (.attestNonce nonce) s = .next { s with fw := { s.fw with report := Tab.setRange 0 [] 0 r }, answer := 0 }
      ∧ r = s.reportBody nonce.toNat ++ Bits.toBytes 2420 (Config.identitySig (Sha3.digest (s.reportBody nonce.toNat)))
      ∧ (s.reportBody nonce.toNat).length = 272 ∧ Bits.ofBytes (((s.reportBody nonce.toNat).drop 8).take 32) = nonce.toNat)

/-- With the standby rail present, each TAP instruction that is available has the effect of Table 19-5: IDCODE and a TAP reset shift out 0x1960_0A5B, SAMPLE
captures the pins and loads the boundary cells, EXTEST and its kin drive what is shifted into them, CLAMP drives what was loaded, HIGHZ lets go, DIE_SELECT
loads its register, and INT_SCAN stops the selected dies, whose local counts it leaves undefined, and shifts their chains. R605: an instruction that is not
available acts as BYPASS, and disturbs nothing but the TAP. -/
def Obligations.TapInstructionsComplete : Prop :=
  (∀ (s : State) (cells bits : List Bool) (v : BitVec 16), s.tapUp = true →
    let on := fun (t : Tap) => { s with tap := t }
    let free : Tap := { s.tap with driven := [], highz := false }
    let now := s.tap.shift cells
    (cells.length = cellCount → now = cells)
    ∧ exec .tapReset s = .next (on { free with ir := 0x01, tdo := 0x19600A5B })
    ∧ exec .idcode s = .next (on { free with ir := 0x01, tdo := 0x19600A5B })
    ∧ exec (.samplePreload cells) s =
      .next { s with tap := { free with ir := 0x02, cells := now, captured := s.pinLevels }, freeCount := s.freeCount + laneCells }
    ∧ exec .bypass s = .next (on { free with ir := 0xFF, bypassBit := false, tdo := 0 })
    ∧ (s.extestOk = true →
      exec (.extest cells) s = .next (on { s.tap with ir := 0x00, cells := now, driven := now, highz := false })
      ∧ exec (.extestPulse cells) s = .next (on { s.tap with ir := 0x05, cells := now, driven := now, highz := false })
      ∧ exec (.extestTrain cells) s = .next (on { s.tap with ir := 0x06, cells := now, driven := now, highz := false })
      ∧ exec .clamp s = .next (on { free with ir := 0x03, driven := s.tap.shift [], bypassBit := false, tdo := 0 })
      ∧ exec .highz s = .next (on { free with ir := 0x04, highz := true, bypassBit := false, tdo := 0 }))
    ∧ (s.dieSelectOk = true →
      exec (.dieSelect v) s = .next (on { free with ir := 0x10, dieSel := v })
      ∧ ∃ t w, exec (.intScan bits) s = .next t ∧ t.tap = { free with ir := 0x20, tdo := w } ∧ t.freeCount = s.freeCount + bits.length
        ∧ (∀ d, d ∈ t.scanned ↔ d ∈ s.scanned ∨ d ∈ s.tap.dies)
        ∧ (∀ e sub, sub < 256 → (∀ d ∈ s.tap.dies, (e, sub) ≠ (LOCAL_COUNT, d + 1)) → t.val e sub = s.val e sub)
        ∧ { t with tap := s.tap, scanned := s.scanned, freeCount := s.freeCount, wbv := s.wbv } = s))
  ∧ (∀ (s : State) (cells bits : List Bool) (v : BitVec 16), s.tapUp = true →
    let by_ := fun (ir : BitVec 8) =>
      Host.Outcome.next (φ := Fault) (ρ := Refusal) { s with tap := { s.tap with ir := ir, driven := [], highz := false, bypassBit := false, tdo := 0 } }
    (s.extestOk = false → exec (.extest cells) s = by_ 0x00 ∧ exec (.extestPulse cells) s = by_ 0x05 ∧ exec (.extestTrain cells) s = by_ 0x06
      ∧ exec .clamp s = by_ 0x03 ∧ exec .highz s = by_ 0x04)
    ∧ (s.dieSelectOk = false → exec (.dieSelect v) s = by_ 0x10 ∧ exec (.intScan bits) s = by_ 0x20)
    ∧ (s.phase = .running → s.val TAP_ENABLE 0 = 0 → s.extestOk = false ∧ s.dieSelectOk = false))

/-- R608: once INT_SCAN has shifted a die, its state is undefined: every instruction that a queue of the die would issue, every event of its engines and of
its cores' service, a scan of its watchdogs, and an advance that reaches a Milepost there, stop by the name of that. -/
def Obligations.ScannedDiesStop : Prop :=
  ∀ (s : State) (q : QRef) (check : RetCheck) (ds : Fin 64) (n : Nat) (pass : Bool) (x : ReplayCheck), s.dieLost q.core.val = true →
    (∀ i ∈ [
      Instr.nop q, .halt q, .loop q, .br q, .brc q, .bsw q, .wait q, .waitmin q, .mpadv q, .mpread q, .ridge q, .bdef q, .give q, .take q, .brel q,
      .li q, .sop q, .sld q, .sst q, .darm q, .drearm q, .dgo q, .pref q, .dstop q, .dstat q, .mm q, .attn q, .vadd q, .vsub q, .vmul q, .vfma q,
      .vdiv q, .vsqrt q, .vrem q, .vrint q, .vmin q, .vmax q, .vcmp q, .vsel q, .vcvt q, .vtrn q, .viop q, .vld q, .vst q, .vxadd q, .vtid q,
      .vbcast q, .vcfg q, .vflags q, .vbenc q, .nsq q, .cens q, .usgd q, .umom q, .uadam q, .ufact q],
      exec i s = .fault (.dieStateUndefined (coreDie q.core.val)))
    ∧ (∀ i ∈ [
      Instr.ret q check, .norm q check, .instructionRetire q, .milepostWaitDone q, .takeGrant q, .ridgeComplete q, .tileSlotWaitDone q.core,
      .bufferTableRecorded q.core, .uIssueWaitDone q.core, .descriptorSlotReady q.core ds, .segmentEnd q.core, .replayPassEnd q.core,
      .tileReplayDone q.core pass x, .transferIssue q.core ds, .transferComplete q.core ds n, .pageMapped q.core ds,
      .pageWaitLimitExpire q.core ds, .prefConfirm q.core ds, .fieldTestDone q.core pass, .ftOverdue q.core],
      exec i s = .fault (.dieStateUndefined (coreDie q.core.val)))
    ∧ (∀ b, exec (.coreSwap q.core b) s = .fault (.dieStateUndefined (coreDie q.core.val)))
    ∧ (∀ (die : DieId) (hits : List WdHit), s.scanned.contains die.val = true → exec (.watchdogScan die hits) s = .fault (.dieStateUndefined die.val))
    ∧ (∀ (i : Nat) (a : Adv), s.transit[i]? = some a → s.scanned.contains (pmpHome a.pmp) = true →
      exec (.milepostAdvanceArrive i) s = .fault (.dieStateUndefined (pmpHome a.pmp)))

/-! ### Invariants of the whole machine -/

/-- FW_ARB never falls: every step leaves it at least what it was. A TRIAL image that becomes ACTIVE at the end of a start with an ARB_SET above the other slot's
version leaves that version below FW_ARB, and a rollback to a version below FW_ARB is refused with WS-10 and FW-0C. -/
def Obligations.FwArbNeverFalls : Prop :=
  (∀ (s t : State) (a : Nat), a ≤ s.fw.arb → step s = .next t → a ≤ t.fw.arb)
  ∧ (∀ (s : State) (cause tag : Nat) (ev : List (Nat × Nat)), s.fw.active.st = .trial → s.fw.other.version < s.fw.active.arbSet →
    let f := (s.startEnd cause tag ev).fw
    f.active.st = .active ∧ f.other.version = s.fw.other.version ∧ f.other.version < f.arb)
  ∧ (∀ (s : State) (i : StartIn), s.up = true → s.safeHold = true ∨ (∀ k < 16, (s.ctx k).st = .free) → s.fw.startTag = anyTag → s.fw.lock = false →
    s.fw.other.version < s.fw.arb → exec (.restartGo i) s = .next { s.fwRefuse 0x0C RESTART_GO with answer := 0x10 })

/-- The counter of the last accepted token never falls, so that a token that was accepted once is refused from then on. -/
def Obligations.AcceptedTokensAreNeverAcceptedAgain : Prop :=
  ∀ (s t : State) (token : List Byte) (e : Env), Bits.ofBytes ((token.drop 16).take 8) ≤ s.fw.counter → step s = .next t →
    Bits.ofBytes ((token.drop 16).take 8) ≤ t.fw.counter ∧ t.tokenBad token e = true

/-- Every step takes the command at the front of the queue and leaves the rest as it was. -/
def Obligations.StepsConsumeTheQueueInOrder : Prop :=
  ∀ (s t : State), step s = .next t → t.pending = s.pending.drop 1

/-- The TAP and its registers change only by the TAP's own commands, and by the loss of its power; any other command at most has it let go of the pins. -/
def Obligations.OnlyTapCommandsChangeTheTap : Prop :=
  ∀ (s t : State), (∀ c rest, s.pending = c :: rest → tapCommand c = false ∧ c ≠ .powerFailDetect) → step s = .next t →
    t.tap = s.tap ∨ t.tap = { s.tap with driven := [], highz := false }

/-- The machine starts as a part at delivery whose first start has just finished (the model's choice, log entry 91): no command waits, every context is FREE,
flysheet 0 is active, every Drawbar port is bypassed, FW_READY of the Wagonmaster is the one event posted, the accepted-token counter is 0, the owner lock is
open, no die is scanned and every memory has its canonical form. -/
def Obligations.ResetState : Prop :=
  State.reset.pending = [] ∧ State.reset.up = true ∧ State.reset.startDone = true ∧ State.reset.safeHold = false ∧ State.reset.fly = 0
    ∧ (∀ k, (State.reset.ctx k).st = .free) ∧ (∀ c, State.reset.dieLost c = false) ∧ (∀ e ∈ State.reset.ports, e.2.st = .bypassed)
    ∧ State.reset.events = [BitVec.ofNat 512 (0x0050 + 8 * 2 ^ 21)] ∧ (State.reset.mailbox 0).prod = 1
    ∧ State.reset.fw.counter = 0 ∧ State.reset.fw.lock = false ∧ State.reset.memoriesWf = true
end

