-- ==== Sys2Proof/Laws/Tab.lean ====
section
/-! SUPPORT. Laws of the sparse table: what a read gives after a write, and that every operation keeps the canonical form. -/

namespace Sys2Proof

variable {α : Type}

/-! ### Reads after writes -/

@[simp] theorem Tab.get_nil (d : α) (i : Nat) : Tab.get d [] i = d := rfl

theorem Tab.get_cons (d : α) (k : Nat) (v : α) (t : Tab α) (i : Nat) :
    Tab.get d ((k, v) :: t) i = if i = k then v else Tab.get d t i := rfl

theorem Tab.get_ins_self (d : α) (t : Tab α) (i : Nat) (x : α) : Tab.get d (Tab.ins t i x) i = x := by
  induction t with
  | nil => simp [Tab.ins, Tab.get]
  | cons e t ih =>
    obtain ⟨k, v⟩ := e
    simp only [Tab.ins]
    split
    · simp [Tab.get]
    · split
      · simp [Tab.get]
      · rename_i h; simp [Tab.get, h, ih]

theorem Tab.get_ins_ne (d : α) (t : Tab α) {i j : Nat} (x : α) (h : j ≠ i) : Tab.get d (Tab.ins t i x) j = Tab.get d t j := by
  induction t with
  | nil => simp [Tab.ins, Tab.get, h]
  | cons e t ih =>
    obtain ⟨k, v⟩ := e
    simp only [Tab.ins]
    split
    · simp [Tab.get, h]
    · split
      · rename_i h2; subst h2; simp [Tab.get, h]
      · simp [Tab.get, ih]

theorem Tab.get_del_self (d : α) (t : Tab α) (i : Nat) : Tab.get d (Tab.del t i) i = d := by
  induction t with
  | nil => rfl
  | cons e t ih =>
    obtain ⟨k, v⟩ := e
    simp only [Tab.del]
    split
    · exact ih
    · rename_i h; simp [Tab.get, h, ih]

theorem Tab.get_del_ne (d : α) (t : Tab α) {i j : Nat} (h : j ≠ i) : Tab.get d (Tab.del t i) j = Tab.get d t j := by
  induction t with
  | nil => rfl
  | cons e t ih =>
    obtain ⟨k, v⟩ := e
    simp only [Tab.del]
    split
    · rename_i h2; subst h2; simp [Tab.get, h, ih]
    · simp [Tab.get, ih]

@[simp] theorem Tab.get_set_self [DecidableEq α] (d : α) (t : Tab α) (i : Nat) (x : α) : Tab.get d (Tab.set d t i x) i = x := by
  unfold Tab.set
  split
  · rename_i h; rw [Tab.get_del_self, h]
  · exact Tab.get_ins_self d t i x

theorem Tab.get_set_ne [DecidableEq α] (d : α) (t : Tab α) {i j : Nat} (x : α) (h : j ≠ i) :
    Tab.get d (Tab.set d t i x) j = Tab.get d t j := by
  unfold Tab.set
  split
  · exact Tab.get_del_ne d t h
  · exact Tab.get_ins_ne d t x h

theorem Tab.get_set [DecidableEq α] (d : α) (t : Tab α) (i j : Nat) (x : α) :
    Tab.get d (Tab.set d t i x) j = if j = i then x else Tab.get d t j := by
  split
  · rename_i h; subst h; exact Tab.get_set_self d t j x
  · rename_i h; exact Tab.get_set_ne d t x h

theorem Tab.get_filter (d : α) (t : Tab α) (p : Nat → Bool) (j : Nat) :
    Tab.get d (t.filter fun e => p e.1) j = if p j then Tab.get d t j else d := by
  induction t with
  | nil => simp [Tab.get]
  | cons e t ih =>
    obtain ⟨k, v⟩ := e
    by_cases hk : p k
    · rw [List.filter_cons_of_pos (by simpa using hk), Tab.get_cons, Tab.get_cons, ih]
      by_cases hj : j = k
      · subst hj; simp [hk]
      · simp [hj]
    · rw [List.filter_cons_of_neg (by simpa using hk), Tab.get_cons, ih]
      by_cases hj : j = k
      · subst hj; simp [hk]
      · simp [hj]

theorem Tab.get_append (d : α) (a b : Tab α) (j : Nat) :
    Tab.get d (a ++ b) j = if a.any (fun e => e.1 == j) then Tab.get d a j else Tab.get d b j := by
  induction a with
  | nil => simp
  | cons e a ih =>
    obtain ⟨k, v⟩ := e
    rw [List.cons_append, Tab.get_cons, Tab.get_cons, ih]
    by_cases h : j = k
    · subst h; simp
    · have : (k == j) = false := by simpa using fun h2 => h h2.symm
      rw [if_neg h, if_neg h, List.any_cons, show ((k, v).1 == j) = false from this, Bool.false_or]

theorem Tab.get_of_not_any (d : α) (a : Tab α) (j : Nat) (h : a.any (fun e => e.1 == j) = false) : Tab.get d a j = d := by
  induction a with
  | nil => rfl
  | cons e a ih =>
    obtain ⟨k, v⟩ := e
    simp only [List.any_cons, Bool.or_eq_false_iff, beq_eq_false_iff_ne] at h
    rw [Tab.get_cons, if_neg (fun h2 => h.1 h2.symm), ih h.2]

theorem Tab.any_seg_lt [DecidableEq α] (d : α) (xs : List α) (i j : Nat) (h : j < i ∨ i + xs.length ≤ j) :
    (Tab.seg d i xs).any (fun e => e.1 == j) = false := by
  induction xs generalizing i with
  | nil => rfl
  | cons x xs ih =>
    have hl : j < i + 1 ∨ i + 1 + xs.length ≤ j := by simp only [List.length_cons] at h; omega
    have hne : (i == j) = false := by simp only [List.length_cons] at h; simpa using by omega
    simp only [Tab.seg]
    split
    · exact ih (i + 1) hl
    · rw [List.any_cons, ih (i + 1) hl]; simp [hne]

theorem Tab.get_seg [DecidableEq α] (d : α) (xs : List α) (i j : Nat) (h : i ≤ j) : Tab.get d (Tab.seg d i xs) j = xs.getD (j - i) d := by
  induction xs generalizing i with
  | nil => rfl
  | cons x xs ih =>
    simp only [Tab.seg]
    by_cases hj : j = i
    · subst hj
      have h0 : (Tab.seg d (j + 1) xs).any (fun e => e.1 == j) = false := Tab.any_seg_lt d xs _ _ (by omega)
      split
      · rename_i hx; rw [Tab.get_of_not_any d _ _ h0]; simp [hx]
      · simp [Tab.get]
    · have h1 : j - i = (j - (i + 1)) + 1 := by omega
      split
      · rw [ih (i + 1) (by omega), h1, List.getD_cons_succ]
      · rw [Tab.get_cons, if_neg hj, ih (i + 1) (by omega), h1, List.getD_cons_succ]

/-- A write of consecutive values, read back at any index. -/
theorem Tab.get_setRange [DecidableEq α] (d : α) (t : Tab α) (i j : Nat) (xs : List α) :
    Tab.get d (Tab.setRange d t i xs) j = if i ≤ j ∧ j < i + xs.length then xs.getD (j - i) d else Tab.get d t j := by
  have key : ∀ (p : Nat → Bool), (t.filter fun e => p e.1).any (fun e => e.1 == j) = true → p j = true := by
    intro p hp
    obtain ⟨e, he, hj⟩ := List.any_eq_true.mp hp
    have := (List.mem_filter.mp he).2
    rwa [← (by simpa using hj : e.1 = j)]
  have lo := Tab.get_filter d t (fun k => decide (k < i)) j
  have hi := Tab.get_filter d t (fun k => decide (i + xs.length ≤ k)) j
  simp only [Tab.setRange]
  rw [Tab.get_append]
  split
  · rename_i h
    have hlt := key (fun k => decide (k < i)) h
    simp only [decide_eq_true_eq] at hlt
    rw [lo, if_pos (by simpa using hlt), if_neg (by omega)]
  · rename_i h
    rw [Tab.get_append]
    by_cases hr : i ≤ j ∧ j < i + xs.length
    · rw [if_pos hr]
      split
      · exact Tab.get_seg d xs i j hr.1
      · rename_i h2
        have h0 := Tab.get_of_not_any d _ j (Bool.not_eq_true _ ▸ h2)
        rw [Tab.get_seg d xs i j hr.1] at h0
        rw [hi, if_neg (by simp; omega), h0]
    · rw [if_neg hr, if_neg (by rw [Tab.any_seg_lt d xs i j (by omega)]; simp), hi]
      by_cases hlt : j < i
      · rw [if_neg (by simp; omega)]
        have := Tab.get_of_not_any d _ j (Bool.not_eq_true _ ▸ h)
        rw [lo] at this
        simp [hlt] at this; exact this.symm
      · rw [if_pos (by simp; omega)]

theorem Tab.get_clearRange (d : α) (t : Tab α) (lo hi j : Nat) :
    Tab.get d (Tab.clearRange t lo hi) j = if lo ≤ j ∧ j < hi then d else Tab.get d t j := by
  have := Tab.get_filter d t (fun k => !(decide (lo ≤ k) && decide (k < hi))) j
  simp only [Tab.clearRange]
  rw [this]
  by_cases h : lo ≤ j ∧ j < hi
  · simp [h]
  · rw [if_neg h, if_pos]; simp; omega

/-! ### The canonical form -/

variable [DecidableEq α]

theorem Tab.wfFrom_iff (d : α) (lo : Option Nat) (t : Tab α) :
    Tab.wfFrom d lo t = true ↔ (t.Pairwise fun a b => a.1 < b.1) ∧ ∀ e ∈ t, (∀ n, lo = some n → n < e.1) ∧ e.2 ≠ d := by
  induction t generalizing lo with
  | nil => simp [Tab.wfFrom]
  | cons e t ih =>
    obtain ⟨k, v⟩ := e
    simp only [Tab.wfFrom, Bool.and_eq_true, ih, List.pairwise_cons, List.mem_cons, forall_eq_or_imp, decide_eq_true_eq, Option.some.injEq,
      forall_eq']
    constructor
    · rintro ⟨⟨h1, h2⟩, h3, h4⟩
      refine ⟨⟨fun a ha => (h4 a ha).1, h3⟩, ⟨?_, h2⟩, fun a ha => ⟨?_, (h4 a ha).2⟩⟩
      · rintro n rfl; simpa using h1
      · rintro n rfl; have := (h4 a ha).1; simp at h1; omega
    · rintro ⟨⟨h1, h2⟩, ⟨h3, h4⟩, h5⟩
      refine ⟨⟨?_, h4⟩, h2, fun a ha => ⟨h1 a ha, (h5 a ha).2⟩⟩
      cases lo with
      | none => rfl
      | some n => simpa using h3 n rfl

/-- The canonical form: indexes rise strictly and no value is the default. -/
theorem Tab.wf_iff (d : α) (t : Tab α) : Tab.wf d t = true ↔ (t.Pairwise fun a b => a.1 < b.1) ∧ ∀ e ∈ t, e.2 ≠ d := by
  simp [Tab.wf, Tab.wfFrom_iff]

@[simp] theorem Tab.wf_nil (d : α) : Tab.wf d [] = true := rfl

theorem Tab.wf_filter (d : α) (t : Tab α) (p : Nat × α → Bool) (h : Tab.wf d t = true) : Tab.wf d (t.filter p) = true := by
  rw [Tab.wf_iff] at h ⊢
  exact ⟨h.1.filter p, fun e he => h.2 e (List.mem_of_mem_filter he)⟩

omit [DecidableEq α] in
theorem Tab.del_eq_filter (t : Tab α) (i : Nat) : Tab.del t i = t.filter fun e => e.1 != i := by
  induction t with
  | nil => rfl
  | cons e t ih =>
    obtain ⟨k, v⟩ := e
    simp only [Tab.del]
    by_cases h : i = k
    · subst h; simp [ih]
    · have : (k != i) = true := by simpa using fun h2 => h h2.symm
      simp [h, this, ih]

theorem Tab.wf_del (d : α) (t : Tab α) (i : Nat) (h : Tab.wf d t = true) : Tab.wf d (Tab.del t i) = true := by
  rw [Tab.del_eq_filter]; exact Tab.wf_filter d t _ h

omit [DecidableEq α] in
theorem Tab.mem_ins {t : Tab α} {i : Nat} {x : α} {e : Nat × α} (h : e ∈ Tab.ins t i x) : e = (i, x) ∨ e ∈ t := by
  induction t with
  | nil => simpa [Tab.ins] using h
  | cons f t ih =>
    obtain ⟨k, v⟩ := f
    simp only [Tab.ins] at h
    split at h
    · simpa using h
    · split at h
      · rcases List.mem_cons.mp h with rfl | h
        · exact .inl rfl
        · exact .inr (List.mem_cons_of_mem _ h)
      · rcases List.mem_cons.mp h with rfl | h
        · exact .inr List.mem_cons_self
        · exact (ih h).imp_right (List.mem_cons_of_mem _)

theorem Tab.wf_ins (d : α) (t : Tab α) (i : Nat) (x : α) (hx : x ≠ d) (h : Tab.wf d t = true) : Tab.wf d (Tab.ins t i x) = true := by
  rw [Tab.wf_iff] at h ⊢
  refine ⟨?_, fun e he => ?_⟩
  · obtain ⟨h, -⟩ := h
    induction t with
    | nil => simp [Tab.ins]
    | cons f t ih =>
      obtain ⟨k, v⟩ := f
      rw [List.pairwise_cons] at h
      simp only [Tab.ins]
      split
      · rename_i hk
        refine List.pairwise_cons.mpr ⟨fun a ha => ?_, List.pairwise_cons.mpr h⟩
        rcases List.mem_cons.mp ha with rfl | ha
        · exact hk
        · exact Nat.lt_trans hk (h.1 a ha)
      · split
        · rename_i hk; subst hk; exact List.pairwise_cons.mpr h
        · refine List.pairwise_cons.mpr ⟨fun a ha => ?_, ih h.2⟩
          rcases Tab.mem_ins ha with rfl | ha
          · show k < i; omega
          · exact h.1 a ha
  · rcases Tab.mem_ins he with rfl | he
    · exact hx
    · exact h.2 e he

/-- A write of one value keeps the canonical form. -/
theorem Tab.wf_set (d : α) (t : Tab α) (i : Nat) (x : α) (h : Tab.wf d t = true) : Tab.wf d (Tab.set d t i x) = true := by
  unfold Tab.set
  split
  · exact Tab.wf_del d t i h
  · exact Tab.wf_ins d t i x ‹_› h

theorem Tab.wf_upd (d : α) (t : Tab α) (i : Nat) (f : α → α) (h : Tab.wf d t = true) : Tab.wf d (Tab.upd d t i f) = true :=
  Tab.wf_set d t i _ h

theorem Tab.mem_seg {d : α} {xs : List α} {i : Nat} {e : Nat × α} (h : e ∈ Tab.seg d i xs) : i ≤ e.1 ∧ e.1 < i + xs.length ∧ e.2 ≠ d := by
  induction xs generalizing i with
  | nil => simp [Tab.seg] at h
  | cons x xs ih =>
    simp only [Tab.seg] at h
    split at h
    · obtain ⟨h1, h2, h3⟩ := ih h
      exact ⟨by omega, by rw [List.length_cons]; omega, h3⟩
    · rcases List.mem_cons.mp h with rfl | h
      · exact ⟨Nat.le_refl _, by simp, ‹_›⟩
      · obtain ⟨h1, h2, h3⟩ := ih h
        exact ⟨by omega, by rw [List.length_cons]; omega, h3⟩

theorem Tab.pairwise_seg (d : α) (xs : List α) (i : Nat) : (Tab.seg d i xs).Pairwise fun a b => a.1 < b.1 := by
  induction xs generalizing i with
  | nil => exact .nil
  | cons x xs ih =>
    simp only [Tab.seg]
    split
    · exact ih _
    · refine List.pairwise_cons.mpr ⟨fun a ha => ?_, ih _⟩
      have := (Tab.mem_seg ha).1
      show i < a.1; omega

/-- A write of consecutive values keeps the canonical form. -/
theorem Tab.wf_setRange (d : α) (t : Tab α) (i : Nat) (xs : List α) (h : Tab.wf d t = true) : Tab.wf d (Tab.setRange d t i xs) = true := by
  rw [Tab.wf_iff] at h ⊢
  simp only [Tab.setRange]
  refine ⟨List.pairwise_append.mpr ⟨h.1.filter _, List.pairwise_append.mpr ⟨Tab.pairwise_seg d xs i, h.1.filter _, ?_⟩, ?_⟩, ?_⟩
  · intro a ha b hb
    have h1 := Tab.mem_seg ha
    have h2 := (List.mem_filter.mp hb).2
    simp only [decide_eq_true_eq] at h2
    omega
  · intro a ha b hb
    have h1 := (List.mem_filter.mp ha).2
    simp only [decide_eq_true_eq] at h1
    rcases List.mem_append.mp hb with hb | hb
    · have := Tab.mem_seg hb; omega
    · have h2 := (List.mem_filter.mp hb).2
      simp only [decide_eq_true_eq] at h2
      omega
  · intro e he
    rcases List.mem_append.mp he with he | he
    · exact h.2 e (List.mem_of_mem_filter he)
    · rcases List.mem_append.mp he with he | he
      · exact (Tab.mem_seg he).2.2
      · exact h.2 e (List.mem_of_mem_filter he)

theorem Tab.wf_clearRange (d : α) (t : Tab α) (lo hi : Nat) (h : Tab.wf d t = true) : Tab.wf d (Tab.clearRange t lo hi) = true :=
  Tab.wf_filter d t _ h

end Sys2Proof
end

