-- ==== Sys2Proof/Laws/State.lean ====
section
/-! SUPPORT. What each primitive update of the state leaves: one lemma per field per update, and what a register, a core, a context or a setting
reads after one. -/

namespace Sys2Proof.Machine

/-! ### setCore -/

@[simp] theorem State.setCore_phase (s : State) (c : Nat) (x : Core) : (s.setCore c x).phase = s.phase := rfl
@[simp] theorem State.setCore_safeHold (s : State) (c : Nat) (x : Core) : (s.setCore c x).safeHold = s.safeHold := rfl
@[simp] theorem State.setCore_shCause (s : State) (c : Nat) (x : Core) : (s.setCore c x).shCause = s.shCause := rfl
@[simp] theorem State.setCore_scanned (s : State) (c : Nat) (x : Core) : (s.setCore c x).scanned = s.scanned := rfl
@[simp] theorem State.setCore_mgrSel (s : State) (c : Nat) (x : Core) : (s.setCore c x).mgrSel = s.mgrSel := rfl
@[simp] theorem State.setCore_bootSafe (s : State) (c : Nat) (x : Core) : (s.setCore c x).bootSafe = s.bootSafe := rfl
@[simp] theorem State.setCore_slotId (s : State) (c : Nat) (x : Core) : (s.setCore c x).slotId = s.slotId := rfl
@[simp] theorem State.setCore_startCause (s : State) (c : Nat) (x : Core) : (s.setCore c x).startCause = s.startCause := rfl
@[simp] theorem State.setCore_startDone (s : State) (c : Nat) (x : Core) : (s.setCore c x).startDone = s.startDone := rfl
@[simp] theorem State.setCore_ethUp (s : State) (c : Nat) (x : Core) : (s.setCore c x).ethUp = s.ethUp := rfl
@[simp] theorem State.setCore_resetHeld (s : State) (c : Nat) (x : Core) : (s.setCore c x).resetHeld = s.resetHeld := rfl
@[simp] theorem State.setCore_standby (s : State) (c : Nat) (x : Core) : (s.setCore c x).standby = s.standby := rfl
@[simp] theorem State.setCore_revert (s : State) (c : Nat) (x : Core) : (s.setCore c x).revert = s.revert := rfl
@[simp] theorem State.setCore_lastStart (s : State) (c : Nat) (x : Core) : (s.setCore c x).lastStart = s.lastStart := rfl
@[simp] theorem State.setCore_reqWin (s : State) (c : Nat) (x : Core) : (s.setCore c x).reqWin = s.reqWin := rfl
@[simp] theorem State.setCore_gs (s : State) (c : Nat) (x : Core) : (s.setCore c x).gs = s.gs := rfl
@[simp] theorem State.setCore_wbv (s : State) (c : Nat) (x : Core) : (s.setCore c x).wbv = s.wbv := rfl
@[simp] theorem State.setCore_held (s : State) (c : Nat) (x : Core) : (s.setCore c x).held = s.held := rfl
@[simp] theorem State.setCore_wbb (s : State) (c : Nat) (x : Core) : (s.setCore c x).wbb = s.wbb := rfl
@[simp] theorem State.setCore_fly (s : State) (c : Nat) (x : Core) : (s.setCore c x).fly = s.fly := rfl
@[simp] theorem State.setCore_pitching (s : State) (c : Nat) (x : Core) : (s.setCore c x).pitching = s.pitching := rfl
@[simp] theorem State.setCore_spares (s : State) (c : Nat) (x : Core) : (s.setCore c x).spares = s.spares := rfl
@[simp] theorem State.setCore_retired (s : State) (c : Nat) (x : Core) : (s.setCore c x).retired = s.retired := rfl
@[simp] theorem State.setCore_retiring (s : State) (c : Nat) (x : Core) : (s.setCore c x).retiring = s.retiring := rfl
@[simp] theorem State.setCore_pmps (s : State) (c : Nat) (x : Core) : (s.setCore c x).pmps = s.pmps := rfl
@[simp] theorem State.setCore_parts (s : State) (c : Nat) (x : Core) : (s.setCore c x).parts = s.parts := rfl
@[simp] theorem State.setCore_transit (s : State) (c : Nat) (x : Core) : (s.setCore c x).transit = s.transit := rfl
@[simp] theorem State.setCore_ctxs (s : State) (c : Nat) (x : Core) : (s.setCore c x).ctxs = s.ctxs := rfl
@[simp] theorem State.setCore_eauq (s : State) (c : Nat) (x : Core) : (s.setCore c x).eauq = s.eauq := rfl
@[simp] theorem State.setCore_faults (s : State) (c : Nat) (x : Core) : (s.setCore c x).faults = s.faults := rfl
@[simp] theorem State.setCore_events (s : State) (c : Nat) (x : Core) : (s.setCore c x).events = s.events := rfl
@[simp] theorem State.setCore_evSeq (s : State) (c : Nat) (x : Core) : (s.setCore c x).evSeq = s.evSeq := rfl
@[simp] theorem State.setCore_mailboxes (s : State) (c : Nat) (x : Core) : (s.setCore c x).mailboxes = s.mailboxes := rfl
@[simp] theorem State.setCore_vfs (s : State) (c : Nat) (x : Core) : (s.setCore c x).vfs = s.vfs := rfl
@[simp] theorem State.setCore_commitLog (s : State) (c : Nat) (x : Core) : (s.setCore c x).commitLog = s.commitLog := rfl
@[simp] theorem State.setCore_flashLog (s : State) (c : Nat) (x : Core) : (s.setCore c x).flashLog = s.flashLog := rfl
@[simp] theorem State.setCore_ports (s : State) (c : Nat) (x : Core) : (s.setCore c x).ports = s.ports := rfl
@[simp] theorem State.setCore_pairA (s : State) (c : Nat) (x : Core) : (s.setCore c x).pairA = s.pairA := rfl
@[simp] theorem State.setCore_pairB (s : State) (c : Nat) (x : Core) : (s.setCore c x).pairB = s.pairB := rfl
@[simp] theorem State.setCore_routes (s : State) (c : Nat) (x : Core) : (s.setCore c x).routes = s.routes := rfl
@[simp] theorem State.setCore_sparing (s : State) (c : Nat) (x : Core) : (s.setCore c x).sparing = s.sparing := rfl
@[simp] theorem State.setCore_cxlDown (s : State) (c : Nat) (x : Core) : (s.setCore c x).cxlDown = s.cxlDown := rfl
@[simp] theorem State.setCore_cxl (s : State) (c : Nat) (x : Core) : (s.setCore c x).cxl = s.cxl := rfl
@[simp] theorem State.setCore_paths (s : State) (c : Nat) (x : Core) : (s.setCore c x).paths = s.paths := rfl
@[simp] theorem State.setCore_fw (s : State) (c : Nat) (x : Core) : (s.setCore c x).fw = s.fw := rfl
@[simp] theorem State.setCore_selftest (s : State) (c : Nat) (x : Core) : (s.setCore c x).selftest = s.selftest := rfl
@[simp] theorem State.setCore_tap (s : State) (c : Nat) (x : Core) : (s.setCore c x).tap = s.tap := rfl
@[simp] theorem State.setCore_service (s : State) (c : Nat) (x : Core) : (s.setCore c x).service = s.service := rfl
@[simp] theorem State.setCore_testAt (s : State) (c : Nat) (x : Core) : (s.setCore c x).testAt = s.testAt := rfl
@[simp] theorem State.setCore_passed (s : State) (c : Nat) (x : Core) : (s.setCore c x).passed = s.passed := rfl
@[simp] theorem State.setCore_lastPass (s : State) (c : Nat) (x : Core) : (s.setCore c x).lastPass = s.lastPass := rfl
@[simp] theorem State.setCore_swaps (s : State) (c : Nat) (x : Core) : (s.setCore c x).swaps = s.swaps := rfl
@[simp] theorem State.setCore_late (s : State) (c : Nat) (x : Core) : (s.setCore c x).late = s.late := rfl
@[simp] theorem State.setCore_inbox (s : State) (c : Nat) (x : Core) : (s.setCore c x).inbox = s.inbox := rfl
@[simp] theorem State.setCore_nextId (s : State) (c : Nat) (x : Core) : (s.setCore c x).nextId = s.nextId := rfl
@[simp] theorem State.setCore_freeCount (s : State) (c : Nat) (x : Core) : (s.setCore c x).freeCount = s.freeCount := rfl
@[simp] theorem State.setCore_answer (s : State) (c : Nat) (x : Core) : (s.setCore c x).answer = s.answer := rfl
@[simp] theorem State.setCore_out (s : State) (c : Nat) (x : Core) : (s.setCore c x).out = s.out := rfl
@[simp] theorem State.setCore_pending (s : State) (c : Nat) (x : Core) : (s.setCore c x).pending = s.pending := rfl

/-! ### setCtx -/

@[simp] theorem State.setCtx_phase (s : State) (k : Nat) (x : Ctx) : (s.setCtx k x).phase = s.phase := rfl
@[simp] theorem State.setCtx_safeHold (s : State) (k : Nat) (x : Ctx) : (s.setCtx k x).safeHold = s.safeHold := rfl
@[simp] theorem State.setCtx_shCause (s : State) (k : Nat) (x : Ctx) : (s.setCtx k x).shCause = s.shCause := rfl
@[simp] theorem State.setCtx_scanned (s : State) (k : Nat) (x : Ctx) : (s.setCtx k x).scanned = s.scanned := rfl
@[simp] theorem State.setCtx_mgrSel (s : State) (k : Nat) (x : Ctx) : (s.setCtx k x).mgrSel = s.mgrSel := rfl
@[simp] theorem State.setCtx_bootSafe (s : State) (k : Nat) (x : Ctx) : (s.setCtx k x).bootSafe = s.bootSafe := rfl
@[simp] theorem State.setCtx_slotId (s : State) (k : Nat) (x : Ctx) : (s.setCtx k x).slotId = s.slotId := rfl
@[simp] theorem State.setCtx_startCause (s : State) (k : Nat) (x : Ctx) : (s.setCtx k x).startCause = s.startCause := rfl
@[simp] theorem State.setCtx_startDone (s : State) (k : Nat) (x : Ctx) : (s.setCtx k x).startDone = s.startDone := rfl
@[simp] theorem State.setCtx_ethUp (s : State) (k : Nat) (x : Ctx) : (s.setCtx k x).ethUp = s.ethUp := rfl
@[simp] theorem State.setCtx_resetHeld (s : State) (k : Nat) (x : Ctx) : (s.setCtx k x).resetHeld = s.resetHeld := rfl
@[simp] theorem State.setCtx_standby (s : State) (k : Nat) (x : Ctx) : (s.setCtx k x).standby = s.standby := rfl
@[simp] theorem State.setCtx_revert (s : State) (k : Nat) (x : Ctx) : (s.setCtx k x).revert = s.revert := rfl
@[simp] theorem State.setCtx_lastStart (s : State) (k : Nat) (x : Ctx) : (s.setCtx k x).lastStart = s.lastStart := rfl
@[simp] theorem State.setCtx_reqWin (s : State) (k : Nat) (x : Ctx) : (s.setCtx k x).reqWin = s.reqWin := rfl
@[simp] theorem State.setCtx_gs (s : State) (k : Nat) (x : Ctx) : (s.setCtx k x).gs = s.gs := rfl
@[simp] theorem State.setCtx_wbv (s : State) (k : Nat) (x : Ctx) : (s.setCtx k x).wbv = s.wbv := rfl
@[simp] theorem State.setCtx_held (s : State) (k : Nat) (x : Ctx) : (s.setCtx k x).held = s.held := rfl
@[simp] theorem State.setCtx_wbb (s : State) (k : Nat) (x : Ctx) : (s.setCtx k x).wbb = s.wbb := rfl
@[simp] theorem State.setCtx_fly (s : State) (k : Nat) (x : Ctx) : (s.setCtx k x).fly = s.fly := rfl
@[simp] theorem State.setCtx_pitching (s : State) (k : Nat) (x : Ctx) : (s.setCtx k x).pitching = s.pitching := rfl
@[simp] theorem State.setCtx_cores (s : State) (k : Nat) (x : Ctx) : (s.setCtx k x).cores = s.cores := rfl
@[simp] theorem State.setCtx_spares (s : State) (k : Nat) (x : Ctx) : (s.setCtx k x).spares = s.spares := rfl
@[simp] theorem State.setCtx_retired (s : State) (k : Nat) (x : Ctx) : (s.setCtx k x).retired = s.retired := rfl
@[simp] theorem State.setCtx_retiring (s : State) (k : Nat) (x : Ctx) : (s.setCtx k x).retiring = s.retiring := rfl
@[simp] theorem State.setCtx_pmps (s : State) (k : Nat) (x : Ctx) : (s.setCtx k x).pmps = s.pmps := rfl
@[simp] theorem State.setCtx_parts (s : State) (k : Nat) (x : Ctx) : (s.setCtx k x).parts = s.parts := rfl
@[simp] theorem State.setCtx_transit (s : State) (k : Nat) (x : Ctx) : (s.setCtx k x).transit = s.transit := rfl
@[simp] theorem State.setCtx_eauq (s : State) (k : Nat) (x : Ctx) : (s.setCtx k x).eauq = s.eauq := rfl
@[simp] theorem State.setCtx_faults (s : State) (k : Nat) (x : Ctx) : (s.setCtx k x).faults = s.faults := rfl
@[simp] theorem State.setCtx_events (s : State) (k : Nat) (x : Ctx) : (s.setCtx k x).events = s.events := rfl
@[simp] theorem State.setCtx_evSeq (s : State) (k : Nat) (x : Ctx) : (s.setCtx k x).evSeq = s.evSeq := rfl
@[simp] theorem State.setCtx_mailboxes (s : State) (k : Nat) (x : Ctx) : (s.setCtx k x).mailboxes = s.mailboxes := rfl
@[simp] theorem State.setCtx_vfs (s : State) (k : Nat) (x : Ctx) : (s.setCtx k x).vfs = s.vfs := rfl
@[simp] theorem State.setCtx_commitLog (s : State) (k : Nat) (x : Ctx) : (s.setCtx k x).commitLog = s.commitLog := rfl
@[simp] theorem State.setCtx_flashLog (s : State) (k : Nat) (x : Ctx) : (s.setCtx k x).flashLog = s.flashLog := rfl
@[simp] theorem State.setCtx_ports (s : State) (k : Nat) (x : Ctx) : (s.setCtx k x).ports = s.ports := rfl
@[simp] theorem State.setCtx_pairA (s : State) (k : Nat) (x : Ctx) : (s.setCtx k x).pairA = s.pairA := rfl
@[simp] theorem State.setCtx_pairB (s : State) (k : Nat) (x : Ctx) : (s.setCtx k x).pairB = s.pairB := rfl
@[simp] theorem State.setCtx_routes (s : State) (k : Nat) (x : Ctx) : (s.setCtx k x).routes = s.routes := rfl
@[simp] theorem State.setCtx_sparing (s : State) (k : Nat) (x : Ctx) : (s.setCtx k x).sparing = s.sparing := rfl
@[simp] theorem State.setCtx_cxlDown (s : State) (k : Nat) (x : Ctx) : (s.setCtx k x).cxlDown = s.cxlDown := rfl
@[simp] theorem State.setCtx_cxl (s : State) (k : Nat) (x : Ctx) : (s.setCtx k x).cxl = s.cxl := rfl
@[simp] theorem State.setCtx_paths (s : State) (k : Nat) (x : Ctx) : (s.setCtx k x).paths = s.paths := rfl
@[simp] theorem State.setCtx_fw (s : State) (k : Nat) (x : Ctx) : (s.setCtx k x).fw = s.fw := rfl
@[simp] theorem State.setCtx_selftest (s : State) (k : Nat) (x : Ctx) : (s.setCtx k x).selftest = s.selftest := rfl
@[simp] theorem State.setCtx_tap (s : State) (k : Nat) (x : Ctx) : (s.setCtx k x).tap = s.tap := rfl
@[simp] theorem State.setCtx_service (s : State) (k : Nat) (x : Ctx) : (s.setCtx k x).service = s.service := rfl
@[simp] theorem State.setCtx_testAt (s : State) (k : Nat) (x : Ctx) : (s.setCtx k x).testAt = s.testAt := rfl
@[simp] theorem State.setCtx_passed (s : State) (k : Nat) (x : Ctx) : (s.setCtx k x).passed = s.passed := rfl
@[simp] theorem State.setCtx_lastPass (s : State) (k : Nat) (x : Ctx) : (s.setCtx k x).lastPass = s.lastPass := rfl
@[simp] theorem State.setCtx_swaps (s : State) (k : Nat) (x : Ctx) : (s.setCtx k x).swaps = s.swaps := rfl
@[simp] theorem State.setCtx_late (s : State) (k : Nat) (x : Ctx) : (s.setCtx k x).late = s.late := rfl
@[simp] theorem State.setCtx_inbox (s : State) (k : Nat) (x : Ctx) : (s.setCtx k x).inbox = s.inbox := rfl
@[simp] theorem State.setCtx_nextId (s : State) (k : Nat) (x : Ctx) : (s.setCtx k x).nextId = s.nextId := rfl
@[simp] theorem State.setCtx_freeCount (s : State) (k : Nat) (x : Ctx) : (s.setCtx k x).freeCount = s.freeCount := rfl
@[simp] theorem State.setCtx_answer (s : State) (k : Nat) (x : Ctx) : (s.setCtx k x).answer = s.answer := rfl
@[simp] theorem State.setCtx_out (s : State) (k : Nat) (x : Ctx) : (s.setCtx k x).out = s.out := rfl
@[simp] theorem State.setCtx_pending (s : State) (k : Nat) (x : Ctx) : (s.setCtx k x).pending = s.pending := rfl

/-! ### setPmp -/

@[simp] theorem State.setPmp_phase (s : State) (n : Nat) (x : Pmp) : (s.setPmp n x).phase = s.phase := rfl
@[simp] theorem State.setPmp_safeHold (s : State) (n : Nat) (x : Pmp) : (s.setPmp n x).safeHold = s.safeHold := rfl
@[simp] theorem State.setPmp_shCause (s : State) (n : Nat) (x : Pmp) : (s.setPmp n x).shCause = s.shCause := rfl
@[simp] theorem State.setPmp_scanned (s : State) (n : Nat) (x : Pmp) : (s.setPmp n x).scanned = s.scanned := rfl
@[simp] theorem State.setPmp_mgrSel (s : State) (n : Nat) (x : Pmp) : (s.setPmp n x).mgrSel = s.mgrSel := rfl
@[simp] theorem State.setPmp_bootSafe (s : State) (n : Nat) (x : Pmp) : (s.setPmp n x).bootSafe = s.bootSafe := rfl
@[simp] theorem State.setPmp_slotId (s : State) (n : Nat) (x : Pmp) : (s.setPmp n x).slotId = s.slotId := rfl
@[simp] theorem State.setPmp_startCause (s : State) (n : Nat) (x : Pmp) : (s.setPmp n x).startCause = s.startCause := rfl
@[simp] theorem State.setPmp_startDone (s : State) (n : Nat) (x : Pmp) : (s.setPmp n x).startDone = s.startDone := rfl
@[simp] theorem State.setPmp_ethUp (s : State) (n : Nat) (x : Pmp) : (s.setPmp n x).ethUp = s.ethUp := rfl
@[simp] theorem State.setPmp_resetHeld (s : State) (n : Nat) (x : Pmp) : (s.setPmp n x).resetHeld = s.resetHeld := rfl
@[simp] theorem State.setPmp_standby (s : State) (n : Nat) (x : Pmp) : (s.setPmp n x).standby = s.standby := rfl
@[simp] theorem State.setPmp_revert (s : State) (n : Nat) (x : Pmp) : (s.setPmp n x).revert = s.revert := rfl
@[simp] theorem State.setPmp_lastStart (s : State) (n : Nat) (x : Pmp) : (s.setPmp n x).lastStart = s.lastStart := rfl
@[simp] theorem State.setPmp_reqWin (s : State) (n : Nat) (x : Pmp) : (s.setPmp n x).reqWin = s.reqWin := rfl
@[simp] theorem State.setPmp_gs (s : State) (n : Nat) (x : Pmp) : (s.setPmp n x).gs = s.gs := rfl
@[simp] theorem State.setPmp_wbv (s : State) (n : Nat) (x : Pmp) : (s.setPmp n x).wbv = s.wbv := rfl
@[simp] theorem State.setPmp_held (s : State) (n : Nat) (x : Pmp) : (s.setPmp n x).held = s.held := rfl
@[simp] theorem State.setPmp_wbb (s : State) (n : Nat) (x : Pmp) : (s.setPmp n x).wbb = s.wbb := rfl
@[simp] theorem State.setPmp_fly (s : State) (n : Nat) (x : Pmp) : (s.setPmp n x).fly = s.fly := rfl
@[simp] theorem State.setPmp_pitching (s : State) (n : Nat) (x : Pmp) : (s.setPmp n x).pitching = s.pitching := rfl
@[simp] theorem State.setPmp_cores (s : State) (n : Nat) (x : Pmp) : (s.setPmp n x).cores = s.cores := rfl
@[simp] theorem State.setPmp_spares (s : State) (n : Nat) (x : Pmp) : (s.setPmp n x).spares = s.spares := rfl
@[simp] theorem State.setPmp_retired (s : State) (n : Nat) (x : Pmp) : (s.setPmp n x).retired = s.retired := rfl
@[simp] theorem State.setPmp_retiring (s : State) (n : Nat) (x : Pmp) : (s.setPmp n x).retiring = s.retiring := rfl
@[simp] theorem State.setPmp_parts (s : State) (n : Nat) (x : Pmp) : (s.setPmp n x).parts = s.parts := rfl
@[simp] theorem State.setPmp_transit (s : State) (n : Nat) (x : Pmp) : (s.setPmp n x).transit = s.transit := rfl
@[simp] theorem State.setPmp_ctxs (s : State) (n : Nat) (x : Pmp) : (s.setPmp n x).ctxs = s.ctxs := rfl
@[simp] theorem State.setPmp_eauq (s : State) (n : Nat) (x : Pmp) : (s.setPmp n x).eauq = s.eauq := rfl
@[simp] theorem State.setPmp_faults (s : State) (n : Nat) (x : Pmp) : (s.setPmp n x).faults = s.faults := rfl
@[simp] theorem State.setPmp_events (s : State) (n : Nat) (x : Pmp) : (s.setPmp n x).events = s.events := rfl
@[simp] theorem State.setPmp_evSeq (s : State) (n : Nat) (x : Pmp) : (s.setPmp n x).evSeq = s.evSeq := rfl
@[simp] theorem State.setPmp_mailboxes (s : State) (n : Nat) (x : Pmp) : (s.setPmp n x).mailboxes = s.mailboxes := rfl
@[simp] theorem State.setPmp_vfs (s : State) (n : Nat) (x : Pmp) : (s.setPmp n x).vfs = s.vfs := rfl
@[simp] theorem State.setPmp_commitLog (s : State) (n : Nat) (x : Pmp) : (s.setPmp n x).commitLog = s.commitLog := rfl
@[simp] theorem State.setPmp_flashLog (s : State) (n : Nat) (x : Pmp) : (s.setPmp n x).flashLog = s.flashLog := rfl
@[simp] theorem State.setPmp_ports (s : State) (n : Nat) (x : Pmp) : (s.setPmp n x).ports = s.ports := rfl
@[simp] theorem State.setPmp_pairA (s : State) (n : Nat) (x : Pmp) : (s.setPmp n x).pairA = s.pairA := rfl
@[simp] theorem State.setPmp_pairB (s : State) (n : Nat) (x : Pmp) : (s.setPmp n x).pairB = s.pairB := rfl
@[simp] theorem State.setPmp_routes (s : State) (n : Nat) (x : Pmp) : (s.setPmp n x).routes = s.routes := rfl
@[simp] theorem State.setPmp_sparing (s : State) (n : Nat) (x : Pmp) : (s.setPmp n x).sparing = s.sparing := rfl
@[simp] theorem State.setPmp_cxlDown (s : State) (n : Nat) (x : Pmp) : (s.setPmp n x).cxlDown = s.cxlDown := rfl
@[simp] theorem State.setPmp_cxl (s : State) (n : Nat) (x : Pmp) : (s.setPmp n x).cxl = s.cxl := rfl
@[simp] theorem State.setPmp_paths (s : State) (n : Nat) (x : Pmp) : (s.setPmp n x).paths = s.paths := rfl
@[simp] theorem State.setPmp_fw (s : State) (n : Nat) (x : Pmp) : (s.setPmp n x).fw = s.fw := rfl
@[simp] theorem State.setPmp_selftest (s : State) (n : Nat) (x : Pmp) : (s.setPmp n x).selftest = s.selftest := rfl
@[simp] theorem State.setPmp_tap (s : State) (n : Nat) (x : Pmp) : (s.setPmp n x).tap = s.tap := rfl
@[simp] theorem State.setPmp_service (s : State) (n : Nat) (x : Pmp) : (s.setPmp n x).service = s.service := rfl
@[simp] theorem State.setPmp_testAt (s : State) (n : Nat) (x : Pmp) : (s.setPmp n x).testAt = s.testAt := rfl
@[simp] theorem State.setPmp_passed (s : State) (n : Nat) (x : Pmp) : (s.setPmp n x).passed = s.passed := rfl
@[simp] theorem State.setPmp_lastPass (s : State) (n : Nat) (x : Pmp) : (s.setPmp n x).lastPass = s.lastPass := rfl
@[simp] theorem State.setPmp_swaps (s : State) (n : Nat) (x : Pmp) : (s.setPmp n x).swaps = s.swaps := rfl
@[simp] theorem State.setPmp_late (s : State) (n : Nat) (x : Pmp) : (s.setPmp n x).late = s.late := rfl
@[simp] theorem State.setPmp_inbox (s : State) (n : Nat) (x : Pmp) : (s.setPmp n x).inbox = s.inbox := rfl
@[simp] theorem State.setPmp_nextId (s : State) (n : Nat) (x : Pmp) : (s.setPmp n x).nextId = s.nextId := rfl
@[simp] theorem State.setPmp_freeCount (s : State) (n : Nat) (x : Pmp) : (s.setPmp n x).freeCount = s.freeCount := rfl
@[simp] theorem State.setPmp_answer (s : State) (n : Nat) (x : Pmp) : (s.setPmp n x).answer = s.answer := rfl
@[simp] theorem State.setPmp_out (s : State) (n : Nat) (x : Pmp) : (s.setPmp n x).out = s.out := rfl
@[simp] theorem State.setPmp_pending (s : State) (n : Nat) (x : Pmp) : (s.setPmp n x).pending = s.pending := rfl

/-! ### setPart -/

@[simp] theorem State.setPart_phase (s : State) (n : Nat) (x : Part) : (s.setPart n x).phase = s.phase := rfl
@[simp] theorem State.setPart_safeHold (s : State) (n : Nat) (x : Part) : (s.setPart n x).safeHold = s.safeHold := rfl
@[simp] theorem State.setPart_shCause (s : State) (n : Nat) (x : Part) : (s.setPart n x).shCause = s.shCause := rfl
@[simp] theorem State.setPart_scanned (s : State) (n : Nat) (x : Part) : (s.setPart n x).scanned = s.scanned := rfl
@[simp] theorem State.setPart_mgrSel (s : State) (n : Nat) (x : Part) : (s.setPart n x).mgrSel = s.mgrSel := rfl
@[simp] theorem State.setPart_bootSafe (s : State) (n : Nat) (x : Part) : (s.setPart n x).bootSafe = s.bootSafe := rfl
@[simp] theorem State.setPart_slotId (s : State) (n : Nat) (x : Part) : (s.setPart n x).slotId = s.slotId := rfl
@[simp] theorem State.setPart_startCause (s : State) (n : Nat) (x : Part) : (s.setPart n x).startCause = s.startCause := rfl
@[simp] theorem State.setPart_startDone (s : State) (n : Nat) (x : Part) : (s.setPart n x).startDone = s.startDone := rfl
@[simp] theorem State.setPart_ethUp (s : State) (n : Nat) (x : Part) : (s.setPart n x).ethUp = s.ethUp := rfl
@[simp] theorem State.setPart_resetHeld (s : State) (n : Nat) (x : Part) : (s.setPart n x).resetHeld = s.resetHeld := rfl
@[simp] theorem State.setPart_standby (s : State) (n : Nat) (x : Part) : (s.setPart n x).standby = s.standby := rfl
@[simp] theorem State.setPart_revert (s : State) (n : Nat) (x : Part) : (s.setPart n x).revert = s.revert := rfl
@[simp] theorem State.setPart_lastStart (s : State) (n : Nat) (x : Part) : (s.setPart n x).lastStart = s.lastStart := rfl
@[simp] theorem State.setPart_reqWin (s : State) (n : Nat) (x : Part) : (s.setPart n x).reqWin = s.reqWin := rfl
@[simp] theorem State.setPart_gs (s : State) (n : Nat) (x : Part) : (s.setPart n x).gs = s.gs := rfl
@[simp] theorem State.setPart_wbv (s : State) (n : Nat) (x : Part) : (s.setPart n x).wbv = s.wbv := rfl
@[simp] theorem State.setPart_held (s : State) (n : Nat) (x : Part) : (s.setPart n x).held = s.held := rfl
@[simp] theorem State.setPart_wbb (s : State) (n : Nat) (x : Part) : (s.setPart n x).wbb = s.wbb := rfl
@[simp] theorem State.setPart_fly (s : State) (n : Nat) (x : Part) : (s.setPart n x).fly = s.fly := rfl
@[simp] theorem State.setPart_pitching (s : State) (n : Nat) (x : Part) : (s.setPart n x).pitching = s.pitching := rfl
@[simp] theorem State.setPart_cores (s : State) (n : Nat) (x : Part) : (s.setPart n x).cores = s.cores := rfl
@[simp] theorem State.setPart_spares (s : State) (n : Nat) (x : Part) : (s.setPart n x).spares = s.spares := rfl
@[simp] theorem State.setPart_retired (s : State) (n : Nat) (x : Part) : (s.setPart n x).retired = s.retired := rfl
@[simp] theorem State.setPart_retiring (s : State) (n : Nat) (x : Part) : (s.setPart n x).retiring = s.retiring := rfl
@[simp] theorem State.setPart_pmps (s : State) (n : Nat) (x : Part) : (s.setPart n x).pmps = s.pmps := rfl
@[simp] theorem State.setPart_transit (s : State) (n : Nat) (x : Part) : (s.setPart n x).transit = s.transit := rfl
@[simp] theorem State.setPart_ctxs (s : State) (n : Nat) (x : Part) : (s.setPart n x).ctxs = s.ctxs := rfl
@[simp] theorem State.setPart_eauq (s : State) (n : Nat) (x : Part) : (s.setPart n x).eauq = s.eauq := rfl
@[simp] theorem State.setPart_faults (s : State) (n : Nat) (x : Part) : (s.setPart n x).faults = s.faults := rfl
@[simp] theorem State.setPart_events (s : State) (n : Nat) (x : Part) : (s.setPart n x).events = s.events := rfl
@[simp] theorem State.setPart_evSeq (s : State) (n : Nat) (x : Part) : (s.setPart n x).evSeq = s.evSeq := rfl
@[simp] theorem State.setPart_mailboxes (s : State) (n : Nat) (x : Part) : (s.setPart n x).mailboxes = s.mailboxes := rfl
@[simp] theorem State.setPart_vfs (s : State) (n : Nat) (x : Part) : (s.setPart n x).vfs = s.vfs := rfl
@[simp] theorem State.setPart_commitLog (s : State) (n : Nat) (x : Part) : (s.setPart n x).commitLog = s.commitLog := rfl
@[simp] theorem State.setPart_flashLog (s : State) (n : Nat) (x : Part) : (s.setPart n x).flashLog = s.flashLog := rfl
@[simp] theorem State.setPart_ports (s : State) (n : Nat) (x : Part) : (s.setPart n x).ports = s.ports := rfl
@[simp] theorem State.setPart_pairA (s : State) (n : Nat) (x : Part) : (s.setPart n x).pairA = s.pairA := rfl
@[simp] theorem State.setPart_pairB (s : State) (n : Nat) (x : Part) : (s.setPart n x).pairB = s.pairB := rfl
@[simp] theorem State.setPart_routes (s : State) (n : Nat) (x : Part) : (s.setPart n x).routes = s.routes := rfl
@[simp] theorem State.setPart_sparing (s : State) (n : Nat) (x : Part) : (s.setPart n x).sparing = s.sparing := rfl
@[simp] theorem State.setPart_cxlDown (s : State) (n : Nat) (x : Part) : (s.setPart n x).cxlDown = s.cxlDown := rfl
@[simp] theorem State.setPart_cxl (s : State) (n : Nat) (x : Part) : (s.setPart n x).cxl = s.cxl := rfl
@[simp] theorem State.setPart_paths (s : State) (n : Nat) (x : Part) : (s.setPart n x).paths = s.paths := rfl
@[simp] theorem State.setPart_fw (s : State) (n : Nat) (x : Part) : (s.setPart n x).fw = s.fw := rfl
@[simp] theorem State.setPart_selftest (s : State) (n : Nat) (x : Part) : (s.setPart n x).selftest = s.selftest := rfl
@[simp] theorem State.setPart_tap (s : State) (n : Nat) (x : Part) : (s.setPart n x).tap = s.tap := rfl
@[simp] theorem State.setPart_service (s : State) (n : Nat) (x : Part) : (s.setPart n x).service = s.service := rfl
@[simp] theorem State.setPart_testAt (s : State) (n : Nat) (x : Part) : (s.setPart n x).testAt = s.testAt := rfl
@[simp] theorem State.setPart_passed (s : State) (n : Nat) (x : Part) : (s.setPart n x).passed = s.passed := rfl
@[simp] theorem State.setPart_lastPass (s : State) (n : Nat) (x : Part) : (s.setPart n x).lastPass = s.lastPass := rfl
@[simp] theorem State.setPart_swaps (s : State) (n : Nat) (x : Part) : (s.setPart n x).swaps = s.swaps := rfl
@[simp] theorem State.setPart_late (s : State) (n : Nat) (x : Part) : (s.setPart n x).late = s.late := rfl
@[simp] theorem State.setPart_inbox (s : State) (n : Nat) (x : Part) : (s.setPart n x).inbox = s.inbox := rfl
@[simp] theorem State.setPart_nextId (s : State) (n : Nat) (x : Part) : (s.setPart n x).nextId = s.nextId := rfl
@[simp] theorem State.setPart_freeCount (s : State) (n : Nat) (x : Part) : (s.setPart n x).freeCount = s.freeCount := rfl
@[simp] theorem State.setPart_answer (s : State) (n : Nat) (x : Part) : (s.setPart n x).answer = s.answer := rfl
@[simp] theorem State.setPart_out (s : State) (n : Nat) (x : Part) : (s.setPart n x).out = s.out := rfl
@[simp] theorem State.setPart_pending (s : State) (n : Nat) (x : Part) : (s.setPart n x).pending = s.pending := rfl

/-! ### setPort -/

@[simp] theorem State.setPort_phase (s : State) (p : Nat) (x : Port) : (s.setPort p x).phase = s.phase := rfl
@[simp] theorem State.setPort_safeHold (s : State) (p : Nat) (x : Port) : (s.setPort p x).safeHold = s.safeHold := rfl
@[simp] theorem State.setPort_shCause (s : State) (p : Nat) (x : Port) : (s.setPort p x).shCause = s.shCause := rfl
@[simp] theorem State.setPort_scanned (s : State) (p : Nat) (x : Port) : (s.setPort p x).scanned = s.scanned := rfl
@[simp] theorem State.setPort_mgrSel (s : State) (p : Nat) (x : Port) : (s.setPort p x).mgrSel = s.mgrSel := rfl
@[simp] theorem State.setPort_bootSafe (s : State) (p : Nat) (x : Port) : (s.setPort p x).bootSafe = s.bootSafe := rfl
@[simp] theorem State.setPort_slotId (s : State) (p : Nat) (x : Port) : (s.setPort p x).slotId = s.slotId := rfl
@[simp] theorem State.setPort_startCause (s : State) (p : Nat) (x : Port) : (s.setPort p x).startCause = s.startCause := rfl
@[simp] theorem State.setPort_startDone (s : State) (p : Nat) (x : Port) : (s.setPort p x).startDone = s.startDone := rfl
@[simp] theorem State.setPort_ethUp (s : State) (p : Nat) (x : Port) : (s.setPort p x).ethUp = s.ethUp := rfl
@[simp] theorem State.setPort_resetHeld (s : State) (p : Nat) (x : Port) : (s.setPort p x).resetHeld = s.resetHeld := rfl
@[simp] theorem State.setPort_standby (s : State) (p : Nat) (x : Port) : (s.setPort p x).standby = s.standby := rfl
@[simp] theorem State.setPort_revert (s : State) (p : Nat) (x : Port) : (s.setPort p x).revert = s.revert := rfl
@[simp] theorem State.setPort_lastStart (s : State) (p : Nat) (x : Port) : (s.setPort p x).lastStart = s.lastStart := rfl
@[simp] theorem State.setPort_reqWin (s : State) (p : Nat) (x : Port) : (s.setPort p x).reqWin = s.reqWin := rfl
@[simp] theorem State.setPort_gs (s : State) (p : Nat) (x : Port) : (s.setPort p x).gs = s.gs := rfl
@[simp] theorem State.setPort_wbv (s : State) (p : Nat) (x : Port) : (s.setPort p x).wbv = s.wbv := rfl
@[simp] theorem State.setPort_held (s : State) (p : Nat) (x : Port) : (s.setPort p x).held = s.held := rfl
@[simp] theorem State.setPort_wbb (s : State) (p : Nat) (x : Port) : (s.setPort p x).wbb = s.wbb := rfl
@[simp] theorem State.setPort_fly (s : State) (p : Nat) (x : Port) : (s.setPort p x).fly = s.fly := rfl
@[simp] theorem State.setPort_pitching (s : State) (p : Nat) (x : Port) : (s.setPort p x).pitching = s.pitching := rfl
@[simp] theorem State.setPort_cores (s : State) (p : Nat) (x : Port) : (s.setPort p x).cores = s.cores := rfl
@[simp] theorem State.setPort_spares (s : State) (p : Nat) (x : Port) : (s.setPort p x).spares = s.spares := rfl
@[simp] theorem State.setPort_retired (s : State) (p : Nat) (x : Port) : (s.setPort p x).retired = s.retired := rfl
@[simp] theorem State.setPort_retiring (s : State) (p : Nat) (x : Port) : (s.setPort p x).retiring = s.retiring := rfl
@[simp] theorem State.setPort_pmps (s : State) (p : Nat) (x : Port) : (s.setPort p x).pmps = s.pmps := rfl
@[simp] theorem State.setPort_parts (s : State) (p : Nat) (x : Port) : (s.setPort p x).parts = s.parts := rfl
@[simp] theorem State.setPort_transit (s : State) (p : Nat) (x : Port) : (s.setPort p x).transit = s.transit := rfl
@[simp] theorem State.setPort_ctxs (s : State) (p : Nat) (x : Port) : (s.setPort p x).ctxs = s.ctxs := rfl
@[simp] theorem State.setPort_eauq (s : State) (p : Nat) (x : Port) : (s.setPort p x).eauq = s.eauq := rfl
@[simp] theorem State.setPort_faults (s : State) (p : Nat) (x : Port) : (s.setPort p x).faults = s.faults := rfl
@[simp] theorem State.setPort_events (s : State) (p : Nat) (x : Port) : (s.setPort p x).events = s.events := rfl
@[simp] theorem State.setPort_evSeq (s : State) (p : Nat) (x : Port) : (s.setPort p x).evSeq = s.evSeq := rfl
@[simp] theorem State.setPort_mailboxes (s : State) (p : Nat) (x : Port) : (s.setPort p x).mailboxes = s.mailboxes := rfl
@[simp] theorem State.setPort_vfs (s : State) (p : Nat) (x : Port) : (s.setPort p x).vfs = s.vfs := rfl
@[simp] theorem State.setPort_commitLog (s : State) (p : Nat) (x : Port) : (s.setPort p x).commitLog = s.commitLog := rfl
@[simp] theorem State.setPort_flashLog (s : State) (p : Nat) (x : Port) : (s.setPort p x).flashLog = s.flashLog := rfl
@[simp] theorem State.setPort_pairA (s : State) (p : Nat) (x : Port) : (s.setPort p x).pairA = s.pairA := rfl
@[simp] theorem State.setPort_pairB (s : State) (p : Nat) (x : Port) : (s.setPort p x).pairB = s.pairB := rfl
@[simp] theorem State.setPort_routes (s : State) (p : Nat) (x : Port) : (s.setPort p x).routes = s.routes := rfl
@[simp] theorem State.setPort_sparing (s : State) (p : Nat) (x : Port) : (s.setPort p x).sparing = s.sparing := rfl
@[simp] theorem State.setPort_cxlDown (s : State) (p : Nat) (x : Port) : (s.setPort p x).cxlDown = s.cxlDown := rfl
@[simp] theorem State.setPort_cxl (s : State) (p : Nat) (x : Port) : (s.setPort p x).cxl = s.cxl := rfl
@[simp] theorem State.setPort_paths (s : State) (p : Nat) (x : Port) : (s.setPort p x).paths = s.paths := rfl
@[simp] theorem State.setPort_fw (s : State) (p : Nat) (x : Port) : (s.setPort p x).fw = s.fw := rfl
@[simp] theorem State.setPort_selftest (s : State) (p : Nat) (x : Port) : (s.setPort p x).selftest = s.selftest := rfl
@[simp] theorem State.setPort_tap (s : State) (p : Nat) (x : Port) : (s.setPort p x).tap = s.tap := rfl
@[simp] theorem State.setPort_service (s : State) (p : Nat) (x : Port) : (s.setPort p x).service = s.service := rfl
@[simp] theorem State.setPort_testAt (s : State) (p : Nat) (x : Port) : (s.setPort p x).testAt = s.testAt := rfl
@[simp] theorem State.setPort_passed (s : State) (p : Nat) (x : Port) : (s.setPort p x).passed = s.passed := rfl
@[simp] theorem State.setPort_lastPass (s : State) (p : Nat) (x : Port) : (s.setPort p x).lastPass = s.lastPass := rfl
@[simp] theorem State.setPort_swaps (s : State) (p : Nat) (x : Port) : (s.setPort p x).swaps = s.swaps := rfl
@[simp] theorem State.setPort_late (s : State) (p : Nat) (x : Port) : (s.setPort p x).late = s.late := rfl
@[simp] theorem State.setPort_inbox (s : State) (p : Nat) (x : Port) : (s.setPort p x).inbox = s.inbox := rfl
@[simp] theorem State.setPort_nextId (s : State) (p : Nat) (x : Port) : (s.setPort p x).nextId = s.nextId := rfl
@[simp] theorem State.setPort_freeCount (s : State) (p : Nat) (x : Port) : (s.setPort p x).freeCount = s.freeCount := rfl
@[simp] theorem State.setPort_answer (s : State) (p : Nat) (x : Port) : (s.setPort p x).answer = s.answer := rfl
@[simp] theorem State.setPort_out (s : State) (p : Nat) (x : Port) : (s.setPort p x).out = s.out := rfl
@[simp] theorem State.setPort_pending (s : State) (p : Nat) (x : Port) : (s.setPort p x).pending = s.pending := rfl

/-! ### setVal -/

@[simp] theorem State.setVal_phase (s : State) (e u v : Nat) : (s.setVal e u v).phase = s.phase := rfl
@[simp] theorem State.setVal_safeHold (s : State) (e u v : Nat) : (s.setVal e u v).safeHold = s.safeHold := rfl
@[simp] theorem State.setVal_shCause (s : State) (e u v : Nat) : (s.setVal e u v).shCause = s.shCause := rfl
@[simp] theorem State.setVal_scanned (s : State) (e u v : Nat) : (s.setVal e u v).scanned = s.scanned := rfl
@[simp] theorem State.setVal_mgrSel (s : State) (e u v : Nat) : (s.setVal e u v).mgrSel = s.mgrSel := rfl
@[simp] theorem State.setVal_bootSafe (s : State) (e u v : Nat) : (s.setVal e u v).bootSafe = s.bootSafe := rfl
@[simp] theorem State.setVal_slotId (s : State) (e u v : Nat) : (s.setVal e u v).slotId = s.slotId := rfl
@[simp] theorem State.setVal_startCause (s : State) (e u v : Nat) : (s.setVal e u v).startCause = s.startCause := rfl
@[simp] theorem State.setVal_startDone (s : State) (e u v : Nat) : (s.setVal e u v).startDone = s.startDone := rfl
@[simp] theorem State.setVal_ethUp (s : State) (e u v : Nat) : (s.setVal e u v).ethUp = s.ethUp := rfl
@[simp] theorem State.setVal_resetHeld (s : State) (e u v : Nat) : (s.setVal e u v).resetHeld = s.resetHeld := rfl
@[simp] theorem State.setVal_standby (s : State) (e u v : Nat) : (s.setVal e u v).standby = s.standby := rfl
@[simp] theorem State.setVal_revert (s : State) (e u v : Nat) : (s.setVal e u v).revert = s.revert := rfl
@[simp] theorem State.setVal_lastStart (s : State) (e u v : Nat) : (s.setVal e u v).lastStart = s.lastStart := rfl
@[simp] theorem State.setVal_reqWin (s : State) (e u v : Nat) : (s.setVal e u v).reqWin = s.reqWin := rfl
@[simp] theorem State.setVal_gs (s : State) (e u v : Nat) : (s.setVal e u v).gs = s.gs := rfl
@[simp] theorem State.setVal_held (s : State) (e u v : Nat) : (s.setVal e u v).held = s.held := rfl
@[simp] theorem State.setVal_wbb (s : State) (e u v : Nat) : (s.setVal e u v).wbb = s.wbb := rfl
@[simp] theorem State.setVal_fly (s : State) (e u v : Nat) : (s.setVal e u v).fly = s.fly := rfl
@[simp] theorem State.setVal_pitching (s : State) (e u v : Nat) : (s.setVal e u v).pitching = s.pitching := rfl
@[simp] theorem State.setVal_cores (s : State) (e u v : Nat) : (s.setVal e u v).cores = s.cores := rfl
@[simp] theorem State.setVal_spares (s : State) (e u v : Nat) : (s.setVal e u v).spares = s.spares := rfl
@[simp] theorem State.setVal_retired (s : State) (e u v : Nat) : (s.setVal e u v).retired = s.retired := rfl
@[simp] theorem State.setVal_retiring (s : State) (e u v : Nat) : (s.setVal e u v).retiring = s.retiring := rfl
@[simp] theorem State.setVal_pmps (s : State) (e u v : Nat) : (s.setVal e u v).pmps = s.pmps := rfl
@[simp] theorem State.setVal_parts (s : State) (e u v : Nat) : (s.setVal e u v).parts = s.parts := rfl
@[simp] theorem State.setVal_transit (s : State) (e u v : Nat) : (s.setVal e u v).transit = s.transit := rfl
@[simp] theorem State.setVal_ctxs (s : State) (e u v : Nat) : (s.setVal e u v).ctxs = s.ctxs := rfl
@[simp] theorem State.setVal_eauq (s : State) (e u v : Nat) : (s.setVal e u v).eauq = s.eauq := rfl
@[simp] theorem State.setVal_faults (s : State) (e u v : Nat) : (s.setVal e u v).faults = s.faults := rfl
@[simp] theorem State.setVal_events (s : State) (e u v : Nat) : (s.setVal e u v).events = s.events := rfl
@[simp] theorem State.setVal_evSeq (s : State) (e u v : Nat) : (s.setVal e u v).evSeq = s.evSeq := rfl
@[simp] theorem State.setVal_mailboxes (s : State) (e u v : Nat) : (s.setVal e u v).mailboxes = s.mailboxes := rfl
@[simp] theorem State.setVal_vfs (s : State) (e u v : Nat) : (s.setVal e u v).vfs = s.vfs := rfl
@[simp] theorem State.setVal_commitLog (s : State) (e u v : Nat) : (s.setVal e u v).commitLog = s.commitLog := rfl
@[simp] theorem State.setVal_flashLog (s : State) (e u v : Nat) : (s.setVal e u v).flashLog = s.flashLog := rfl
@[simp] theorem State.setVal_ports (s : State) (e u v : Nat) : (s.setVal e u v).ports = s.ports := rfl
@[simp] theorem State.setVal_pairA (s : State) (e u v : Nat) : (s.setVal e u v).pairA = s.pairA := rfl
@[simp] theorem State.setVal_pairB (s : State) (e u v : Nat) : (s.setVal e u v).pairB = s.pairB := rfl
@[simp] theorem State.setVal_routes (s : State) (e u v : Nat) : (s.setVal e u v).routes = s.routes := rfl
@[simp] theorem State.setVal_sparing (s : State) (e u v : Nat) : (s.setVal e u v).sparing = s.sparing := rfl
@[simp] theorem State.setVal_cxlDown (s : State) (e u v : Nat) : (s.setVal e u v).cxlDown = s.cxlDown := rfl
@[simp] theorem State.setVal_cxl (s : State) (e u v : Nat) : (s.setVal e u v).cxl = s.cxl := rfl
@[simp] theorem State.setVal_paths (s : State) (e u v : Nat) : (s.setVal e u v).paths = s.paths := rfl
@[simp] theorem State.setVal_fw (s : State) (e u v : Nat) : (s.setVal e u v).fw = s.fw := rfl
@[simp] theorem State.setVal_selftest (s : State) (e u v : Nat) : (s.setVal e u v).selftest = s.selftest := rfl
@[simp] theorem State.setVal_tap (s : State) (e u v : Nat) : (s.setVal e u v).tap = s.tap := rfl
@[simp] theorem State.setVal_service (s : State) (e u v : Nat) : (s.setVal e u v).service = s.service := rfl
@[simp] theorem State.setVal_testAt (s : State) (e u v : Nat) : (s.setVal e u v).testAt = s.testAt := rfl
@[simp] theorem State.setVal_passed (s : State) (e u v : Nat) : (s.setVal e u v).passed = s.passed := rfl
@[simp] theorem State.setVal_lastPass (s : State) (e u v : Nat) : (s.setVal e u v).lastPass = s.lastPass := rfl
@[simp] theorem State.setVal_swaps (s : State) (e u v : Nat) : (s.setVal e u v).swaps = s.swaps := rfl
@[simp] theorem State.setVal_late (s : State) (e u v : Nat) : (s.setVal e u v).late = s.late := rfl
@[simp] theorem State.setVal_inbox (s : State) (e u v : Nat) : (s.setVal e u v).inbox = s.inbox := rfl
@[simp] theorem State.setVal_nextId (s : State) (e u v : Nat) : (s.setVal e u v).nextId = s.nextId := rfl
@[simp] theorem State.setVal_freeCount (s : State) (e u v : Nat) : (s.setVal e u v).freeCount = s.freeCount := rfl
@[simp] theorem State.setVal_answer (s : State) (e u v : Nat) : (s.setVal e u v).answer = s.answer := rfl
@[simp] theorem State.setVal_out (s : State) (e u v : Nat) : (s.setVal e u v).out = s.out := rfl
@[simp] theorem State.setVal_pending (s : State) (e u v : Nat) : (s.setVal e u v).pending = s.pending := rfl

/-! ### setBlob -/

@[simp] theorem State.setBlob_phase (s : State) (e u o : Nat) (bs : List Byte) : (s.setBlob e u o bs).phase = s.phase := rfl
@[simp] theorem State.setBlob_safeHold (s : State) (e u o : Nat) (bs : List Byte) : (s.setBlob e u o bs).safeHold = s.safeHold := rfl
@[simp] theorem State.setBlob_shCause (s : State) (e u o : Nat) (bs : List Byte) : (s.setBlob e u o bs).shCause = s.shCause := rfl
@[simp] theorem State.setBlob_scanned (s : State) (e u o : Nat) (bs : List Byte) : (s.setBlob e u o bs).scanned = s.scanned := rfl
@[simp] theorem State.setBlob_mgrSel (s : State) (e u o : Nat) (bs : List Byte) : (s.setBlob e u o bs).mgrSel = s.mgrSel := rfl
@[simp] theorem State.setBlob_bootSafe (s : State) (e u o : Nat) (bs : List Byte) : (s.setBlob e u o bs).bootSafe = s.bootSafe := rfl
@[simp] theorem State.setBlob_slotId (s : State) (e u o : Nat) (bs : List Byte) : (s.setBlob e u o bs).slotId = s.slotId := rfl
@[simp] theorem State.setBlob_startCause (s : State) (e u o : Nat) (bs : List Byte) : (s.setBlob e u o bs).startCause = s.startCause := rfl
@[simp] theorem State.setBlob_startDone (s : State) (e u o : Nat) (bs : List Byte) : (s.setBlob e u o bs).startDone = s.startDone := rfl
@[simp] theorem State.setBlob_ethUp (s : State) (e u o : Nat) (bs : List Byte) : (s.setBlob e u o bs).ethUp = s.ethUp := rfl
@[simp] theorem State.setBlob_resetHeld (s : State) (e u o : Nat) (bs : List Byte) : (s.setBlob e u o bs).resetHeld = s.resetHeld := rfl
@[simp] theorem State.setBlob_standby (s : State) (e u o : Nat) (bs : List Byte) : (s.setBlob e u o bs).standby = s.standby := rfl
@[simp] theorem State.setBlob_revert (s : State) (e u o : Nat) (bs : List Byte) : (s.setBlob e u o bs).revert = s.revert := rfl
@[simp] theorem State.setBlob_lastStart (s : State) (e u o : Nat) (bs : List Byte) : (s.setBlob e u o bs).lastStart = s.lastStart := rfl
@[simp] theorem State.setBlob_reqWin (s : State) (e u o : Nat) (bs : List Byte) : (s.setBlob e u o bs).reqWin = s.reqWin := rfl
@[simp] theorem State.setBlob_gs (s : State) (e u o : Nat) (bs : List Byte) : (s.setBlob e u o bs).gs = s.gs := rfl
@[simp] theorem State.setBlob_wbv (s : State) (e u o : Nat) (bs : List Byte) : (s.setBlob e u o bs).wbv = s.wbv := rfl
@[simp] theorem State.setBlob_held (s : State) (e u o : Nat) (bs : List Byte) : (s.setBlob e u o bs).held = s.held := rfl
@[simp] theorem State.setBlob_fly (s : State) (e u o : Nat) (bs : List Byte) : (s.setBlob e u o bs).fly = s.fly := rfl
@[simp] theorem State.setBlob_pitching (s : State) (e u o : Nat) (bs : List Byte) : (s.setBlob e u o bs).pitching = s.pitching := rfl
@[simp] theorem State.setBlob_cores (s : State) (e u o : Nat) (bs : List Byte) : (s.setBlob e u o bs).cores = s.cores := rfl
@[simp] theorem State.setBlob_spares (s : State) (e u o : Nat) (bs : List Byte) : (s.setBlob e u o bs).spares = s.spares := rfl
@[simp] theorem State.setBlob_retired (s : State) (e u o : Nat) (bs : List Byte) : (s.setBlob e u o bs).retired = s.retired := rfl
@[simp] theorem State.setBlob_retiring (s : State) (e u o : Nat) (bs : List Byte) : (s.setBlob e u o bs).retiring = s.retiring := rfl
@[simp] theorem State.setBlob_pmps (s : State) (e u o : Nat) (bs : List Byte) : (s.setBlob e u o bs).pmps = s.pmps := rfl
@[simp] theorem State.setBlob_parts (s : State) (e u o : Nat) (bs : List Byte) : (s.setBlob e u o bs).parts = s.parts := rfl
@[simp] theorem State.setBlob_transit (s : State) (e u o : Nat) (bs : List Byte) : (s.setBlob e u o bs).transit = s.transit := rfl
@[simp] theorem State.setBlob_ctxs (s : State) (e u o : Nat) (bs : List Byte) : (s.setBlob e u o bs).ctxs = s.ctxs := rfl
@[simp] theorem State.setBlob_eauq (s : State) (e u o : Nat) (bs : List Byte) : (s.setBlob e u o bs).eauq = s.eauq := rfl
@[simp] theorem State.setBlob_faults (s : State) (e u o : Nat) (bs : List Byte) : (s.setBlob e u o bs).faults = s.faults := rfl
@[simp] theorem State.setBlob_events (s : State) (e u o : Nat) (bs : List Byte) : (s.setBlob e u o bs).events = s.events := rfl
@[simp] theorem State.setBlob_evSeq (s : State) (e u o : Nat) (bs : List Byte) : (s.setBlob e u o bs).evSeq = s.evSeq := rfl
@[simp] theorem State.setBlob_mailboxes (s : State) (e u o : Nat) (bs : List Byte) : (s.setBlob e u o bs).mailboxes = s.mailboxes := rfl
@[simp] theorem State.setBlob_vfs (s : State) (e u o : Nat) (bs : List Byte) : (s.setBlob e u o bs).vfs = s.vfs := rfl
@[simp] theorem State.setBlob_commitLog (s : State) (e u o : Nat) (bs : List Byte) : (s.setBlob e u o bs).commitLog = s.commitLog := rfl
@[simp] theorem State.setBlob_flashLog (s : State) (e u o : Nat) (bs : List Byte) : (s.setBlob e u o bs).flashLog = s.flashLog := rfl
@[simp] theorem State.setBlob_ports (s : State) (e u o : Nat) (bs : List Byte) : (s.setBlob e u o bs).ports = s.ports := rfl
@[simp] theorem State.setBlob_pairA (s : State) (e u o : Nat) (bs : List Byte) : (s.setBlob e u o bs).pairA = s.pairA := rfl
@[simp] theorem State.setBlob_pairB (s : State) (e u o : Nat) (bs : List Byte) : (s.setBlob e u o bs).pairB = s.pairB := rfl
@[simp] theorem State.setBlob_routes (s : State) (e u o : Nat) (bs : List Byte) : (s.setBlob e u o bs).routes = s.routes := rfl
@[simp] theorem State.setBlob_sparing (s : State) (e u o : Nat) (bs : List Byte) : (s.setBlob e u o bs).sparing = s.sparing := rfl
@[simp] theorem State.setBlob_cxlDown (s : State) (e u o : Nat) (bs : List Byte) : (s.setBlob e u o bs).cxlDown = s.cxlDown := rfl
@[simp] theorem State.setBlob_cxl (s : State) (e u o : Nat) (bs : List Byte) : (s.setBlob e u o bs).cxl = s.cxl := rfl
@[simp] theorem State.setBlob_paths (s : State) (e u o : Nat) (bs : List Byte) : (s.setBlob e u o bs).paths = s.paths := rfl
@[simp] theorem State.setBlob_fw (s : State) (e u o : Nat) (bs : List Byte) : (s.setBlob e u o bs).fw = s.fw := rfl
@[simp] theorem State.setBlob_selftest (s : State) (e u o : Nat) (bs : List Byte) : (s.setBlob e u o bs).selftest = s.selftest := rfl
@[simp] theorem State.setBlob_tap (s : State) (e u o : Nat) (bs : List Byte) : (s.setBlob e u o bs).tap = s.tap := rfl
@[simp] theorem State.setBlob_service (s : State) (e u o : Nat) (bs : List Byte) : (s.setBlob e u o bs).service = s.service := rfl
@[simp] theorem State.setBlob_testAt (s : State) (e u o : Nat) (bs : List Byte) : (s.setBlob e u o bs).testAt = s.testAt := rfl
@[simp] theorem State.setBlob_passed (s : State) (e u o : Nat) (bs : List Byte) : (s.setBlob e u o bs).passed = s.passed := rfl
@[simp] theorem State.setBlob_lastPass (s : State) (e u o : Nat) (bs : List Byte) : (s.setBlob e u o bs).lastPass = s.lastPass := rfl
@[simp] theorem State.setBlob_swaps (s : State) (e u o : Nat) (bs : List Byte) : (s.setBlob e u o bs).swaps = s.swaps := rfl
@[simp] theorem State.setBlob_late (s : State) (e u o : Nat) (bs : List Byte) : (s.setBlob e u o bs).late = s.late := rfl
@[simp] theorem State.setBlob_inbox (s : State) (e u o : Nat) (bs : List Byte) : (s.setBlob e u o bs).inbox = s.inbox := rfl
@[simp] theorem State.setBlob_nextId (s : State) (e u o : Nat) (bs : List Byte) : (s.setBlob e u o bs).nextId = s.nextId := rfl
@[simp] theorem State.setBlob_freeCount (s : State) (e u o : Nat) (bs : List Byte) : (s.setBlob e u o bs).freeCount = s.freeCount := rfl
@[simp] theorem State.setBlob_answer (s : State) (e u o : Nat) (bs : List Byte) : (s.setBlob e u o bs).answer = s.answer := rfl
@[simp] theorem State.setBlob_out (s : State) (e u o : Nat) (bs : List Byte) : (s.setBlob e u o bs).out = s.out := rfl
@[simp] theorem State.setBlob_pending (s : State) (e u o : Nat) (bs : List Byte) : (s.setBlob e u o bs).pending = s.pending := rfl

/-! ### emit -/

@[simp] theorem State.emit_phase (s : State) (o : Out) : (s.emit o).phase = s.phase := rfl
@[simp] theorem State.emit_safeHold (s : State) (o : Out) : (s.emit o).safeHold = s.safeHold := rfl
@[simp] theorem State.emit_shCause (s : State) (o : Out) : (s.emit o).shCause = s.shCause := rfl
@[simp] theorem State.emit_scanned (s : State) (o : Out) : (s.emit o).scanned = s.scanned := rfl
@[simp] theorem State.emit_mgrSel (s : State) (o : Out) : (s.emit o).mgrSel = s.mgrSel := rfl
@[simp] theorem State.emit_bootSafe (s : State) (o : Out) : (s.emit o).bootSafe = s.bootSafe := rfl
@[simp] theorem State.emit_slotId (s : State) (o : Out) : (s.emit o).slotId = s.slotId := rfl
@[simp] theorem State.emit_startCause (s : State) (o : Out) : (s.emit o).startCause = s.startCause := rfl
@[simp] theorem State.emit_startDone (s : State) (o : Out) : (s.emit o).startDone = s.startDone := rfl
@[simp] theorem State.emit_ethUp (s : State) (o : Out) : (s.emit o).ethUp = s.ethUp := rfl
@[simp] theorem State.emit_resetHeld (s : State) (o : Out) : (s.emit o).resetHeld = s.resetHeld := rfl
@[simp] theorem State.emit_standby (s : State) (o : Out) : (s.emit o).standby = s.standby := rfl
@[simp] theorem State.emit_revert (s : State) (o : Out) : (s.emit o).revert = s.revert := rfl
@[simp] theorem State.emit_lastStart (s : State) (o : Out) : (s.emit o).lastStart = s.lastStart := rfl
@[simp] theorem State.emit_reqWin (s : State) (o : Out) : (s.emit o).reqWin = s.reqWin := rfl
@[simp] theorem State.emit_gs (s : State) (o : Out) : (s.emit o).gs = s.gs := rfl
@[simp] theorem State.emit_wbv (s : State) (o : Out) : (s.emit o).wbv = s.wbv := rfl
@[simp] theorem State.emit_held (s : State) (o : Out) : (s.emit o).held = s.held := rfl
@[simp] theorem State.emit_wbb (s : State) (o : Out) : (s.emit o).wbb = s.wbb := rfl
@[simp] theorem State.emit_fly (s : State) (o : Out) : (s.emit o).fly = s.fly := rfl
@[simp] theorem State.emit_pitching (s : State) (o : Out) : (s.emit o).pitching = s.pitching := rfl
@[simp] theorem State.emit_cores (s : State) (o : Out) : (s.emit o).cores = s.cores := rfl
@[simp] theorem State.emit_spares (s : State) (o : Out) : (s.emit o).spares = s.spares := rfl
@[simp] theorem State.emit_retired (s : State) (o : Out) : (s.emit o).retired = s.retired := rfl
@[simp] theorem State.emit_retiring (s : State) (o : Out) : (s.emit o).retiring = s.retiring := rfl
@[simp] theorem State.emit_pmps (s : State) (o : Out) : (s.emit o).pmps = s.pmps := rfl
@[simp] theorem State.emit_parts (s : State) (o : Out) : (s.emit o).parts = s.parts := rfl
@[simp] theorem State.emit_transit (s : State) (o : Out) : (s.emit o).transit = s.transit := rfl
@[simp] theorem State.emit_ctxs (s : State) (o : Out) : (s.emit o).ctxs = s.ctxs := rfl
@[simp] theorem State.emit_eauq (s : State) (o : Out) : (s.emit o).eauq = s.eauq := rfl
@[simp] theorem State.emit_faults (s : State) (o : Out) : (s.emit o).faults = s.faults := rfl
@[simp] theorem State.emit_events (s : State) (o : Out) : (s.emit o).events = s.events := rfl
@[simp] theorem State.emit_evSeq (s : State) (o : Out) : (s.emit o).evSeq = s.evSeq := rfl
@[simp] theorem State.emit_mailboxes (s : State) (o : Out) : (s.emit o).mailboxes = s.mailboxes := rfl
@[simp] theorem State.emit_vfs (s : State) (o : Out) : (s.emit o).vfs = s.vfs := rfl
@[simp] theorem State.emit_commitLog (s : State) (o : Out) : (s.emit o).commitLog = s.commitLog := rfl
@[simp] theorem State.emit_flashLog (s : State) (o : Out) : (s.emit o).flashLog = s.flashLog := rfl
@[simp] theorem State.emit_ports (s : State) (o : Out) : (s.emit o).ports = s.ports := rfl
@[simp] theorem State.emit_pairA (s : State) (o : Out) : (s.emit o).pairA = s.pairA := rfl
@[simp] theorem State.emit_pairB (s : State) (o : Out) : (s.emit o).pairB = s.pairB := rfl
@[simp] theorem State.emit_routes (s : State) (o : Out) : (s.emit o).routes = s.routes := rfl
@[simp] theorem State.emit_sparing (s : State) (o : Out) : (s.emit o).sparing = s.sparing := rfl
@[simp] theorem State.emit_cxlDown (s : State) (o : Out) : (s.emit o).cxlDown = s.cxlDown := rfl
@[simp] theorem State.emit_cxl (s : State) (o : Out) : (s.emit o).cxl = s.cxl := rfl
@[simp] theorem State.emit_paths (s : State) (o : Out) : (s.emit o).paths = s.paths := rfl
@[simp] theorem State.emit_fw (s : State) (o : Out) : (s.emit o).fw = s.fw := rfl
@[simp] theorem State.emit_selftest (s : State) (o : Out) : (s.emit o).selftest = s.selftest := rfl
@[simp] theorem State.emit_tap (s : State) (o : Out) : (s.emit o).tap = s.tap := rfl
@[simp] theorem State.emit_service (s : State) (o : Out) : (s.emit o).service = s.service := rfl
@[simp] theorem State.emit_testAt (s : State) (o : Out) : (s.emit o).testAt = s.testAt := rfl
@[simp] theorem State.emit_passed (s : State) (o : Out) : (s.emit o).passed = s.passed := rfl
@[simp] theorem State.emit_lastPass (s : State) (o : Out) : (s.emit o).lastPass = s.lastPass := rfl
@[simp] theorem State.emit_swaps (s : State) (o : Out) : (s.emit o).swaps = s.swaps := rfl
@[simp] theorem State.emit_late (s : State) (o : Out) : (s.emit o).late = s.late := rfl
@[simp] theorem State.emit_inbox (s : State) (o : Out) : (s.emit o).inbox = s.inbox := rfl
@[simp] theorem State.emit_nextId (s : State) (o : Out) : (s.emit o).nextId = s.nextId := rfl
@[simp] theorem State.emit_freeCount (s : State) (o : Out) : (s.emit o).freeCount = s.freeCount := rfl
@[simp] theorem State.emit_answer (s : State) (o : Out) : (s.emit o).answer = s.answer := rfl
@[simp] theorem State.emit_pending (s : State) (o : Out) : (s.emit o).pending = s.pending := rfl

/-! ### sendAdv -/

@[simp] theorem State.sendAdv_phase (s : State) (q : Option QRef) (k mp : Nat) (m : AdvMode) (v : Nat) (n : Option Nat) : (s.sendAdv q k mp m v n).phase = s.phase := rfl
@[simp] theorem State.sendAdv_safeHold (s : State) (q : Option QRef) (k mp : Nat) (m : AdvMode) (v : Nat) (n : Option Nat) : (s.sendAdv q k mp m v n).safeHold = s.safeHold := rfl
@[simp] theorem State.sendAdv_shCause (s : State) (q : Option QRef) (k mp : Nat) (m : AdvMode) (v : Nat) (n : Option Nat) : (s.sendAdv q k mp m v n).shCause = s.shCause := rfl
@[simp] theorem State.sendAdv_scanned (s : State) (q : Option QRef) (k mp : Nat) (m : AdvMode) (v : Nat) (n : Option Nat) : (s.sendAdv q k mp m v n).scanned = s.scanned := rfl
@[simp] theorem State.sendAdv_mgrSel (s : State) (q : Option QRef) (k mp : Nat) (m : AdvMode) (v : Nat) (n : Option Nat) : (s.sendAdv q k mp m v n).mgrSel = s.mgrSel := rfl
@[simp] theorem State.sendAdv_bootSafe (s : State) (q : Option QRef) (k mp : Nat) (m : AdvMode) (v : Nat) (n : Option Nat) : (s.sendAdv q k mp m v n).bootSafe = s.bootSafe := rfl
@[simp] theorem State.sendAdv_slotId (s : State) (q : Option QRef) (k mp : Nat) (m : AdvMode) (v : Nat) (n : Option Nat) : (s.sendAdv q k mp m v n).slotId = s.slotId := rfl
@[simp] theorem State.sendAdv_startCause (s : State) (q : Option QRef) (k mp : Nat) (m : AdvMode) (v : Nat) (n : Option Nat) : (s.sendAdv q k mp m v n).startCause = s.startCause := rfl
@[simp] theorem State.sendAdv_startDone (s : State) (q : Option QRef) (k mp : Nat) (m : AdvMode) (v : Nat) (n : Option Nat) : (s.sendAdv q k mp m v n).startDone = s.startDone := rfl
@[simp] theorem State.sendAdv_ethUp (s : State) (q : Option QRef) (k mp : Nat) (m : AdvMode) (v : Nat) (n : Option Nat) : (s.sendAdv q k mp m v n).ethUp = s.ethUp := rfl
@[simp] theorem State.sendAdv_resetHeld (s : State) (q : Option QRef) (k mp : Nat) (m : AdvMode) (v : Nat) (n : Option Nat) : (s.sendAdv q k mp m v n).resetHeld = s.resetHeld := rfl
@[simp] theorem State.sendAdv_standby (s : State) (q : Option QRef) (k mp : Nat) (m : AdvMode) (v : Nat) (n : Option Nat) : (s.sendAdv q k mp m v n).standby = s.standby := rfl
@[simp] theorem State.sendAdv_revert (s : State) (q : Option QRef) (k mp : Nat) (m : AdvMode) (v : Nat) (n : Option Nat) : (s.sendAdv q k mp m v n).revert = s.revert := rfl
@[simp] theorem State.sendAdv_lastStart (s : State) (q : Option QRef) (k mp : Nat) (m : AdvMode) (v : Nat) (n : Option Nat) : (s.sendAdv q k mp m v n).lastStart = s.lastStart := rfl
@[simp] theorem State.sendAdv_reqWin (s : State) (q : Option QRef) (k mp : Nat) (m : AdvMode) (v : Nat) (n : Option Nat) : (s.sendAdv q k mp m v n).reqWin = s.reqWin := rfl
@[simp] theorem State.sendAdv_gs (s : State) (q : Option QRef) (k mp : Nat) (m : AdvMode) (v : Nat) (n : Option Nat) : (s.sendAdv q k mp m v n).gs = s.gs := rfl
@[simp] theorem State.sendAdv_wbv (s : State) (q : Option QRef) (k mp : Nat) (m : AdvMode) (v : Nat) (n : Option Nat) : (s.sendAdv q k mp m v n).wbv = s.wbv := rfl
@[simp] theorem State.sendAdv_held (s : State) (q : Option QRef) (k mp : Nat) (m : AdvMode) (v : Nat) (n : Option Nat) : (s.sendAdv q k mp m v n).held = s.held := rfl
@[simp] theorem State.sendAdv_wbb (s : State) (q : Option QRef) (k mp : Nat) (m : AdvMode) (v : Nat) (n : Option Nat) : (s.sendAdv q k mp m v n).wbb = s.wbb := rfl
@[simp] theorem State.sendAdv_fly (s : State) (q : Option QRef) (k mp : Nat) (m : AdvMode) (v : Nat) (n : Option Nat) : (s.sendAdv q k mp m v n).fly = s.fly := rfl
@[simp] theorem State.sendAdv_pitching (s : State) (q : Option QRef) (k mp : Nat) (m : AdvMode) (v : Nat) (n : Option Nat) : (s.sendAdv q k mp m v n).pitching = s.pitching := rfl
@[simp] theorem State.sendAdv_cores (s : State) (q : Option QRef) (k mp : Nat) (m : AdvMode) (v : Nat) (n : Option Nat) : (s.sendAdv q k mp m v n).cores = s.cores := rfl
@[simp] theorem State.sendAdv_spares (s : State) (q : Option QRef) (k mp : Nat) (m : AdvMode) (v : Nat) (n : Option Nat) : (s.sendAdv q k mp m v n).spares = s.spares := rfl
@[simp] theorem State.sendAdv_retired (s : State) (q : Option QRef) (k mp : Nat) (m : AdvMode) (v : Nat) (n : Option Nat) : (s.sendAdv q k mp m v n).retired = s.retired := rfl
@[simp] theorem State.sendAdv_retiring (s : State) (q : Option QRef) (k mp : Nat) (m : AdvMode) (v : Nat) (n : Option Nat) : (s.sendAdv q k mp m v n).retiring = s.retiring := rfl
@[simp] theorem State.sendAdv_pmps (s : State) (q : Option QRef) (k mp : Nat) (m : AdvMode) (v : Nat) (n : Option Nat) : (s.sendAdv q k mp m v n).pmps = s.pmps := rfl
@[simp] theorem State.sendAdv_parts (s : State) (q : Option QRef) (k mp : Nat) (m : AdvMode) (v : Nat) (n : Option Nat) : (s.sendAdv q k mp m v n).parts = s.parts := rfl
@[simp] theorem State.sendAdv_ctxs (s : State) (q : Option QRef) (k mp : Nat) (m : AdvMode) (v : Nat) (n : Option Nat) : (s.sendAdv q k mp m v n).ctxs = s.ctxs := rfl
@[simp] theorem State.sendAdv_eauq (s : State) (q : Option QRef) (k mp : Nat) (m : AdvMode) (v : Nat) (n : Option Nat) : (s.sendAdv q k mp m v n).eauq = s.eauq := rfl
@[simp] theorem State.sendAdv_faults (s : State) (q : Option QRef) (k mp : Nat) (m : AdvMode) (v : Nat) (n : Option Nat) : (s.sendAdv q k mp m v n).faults = s.faults := rfl
@[simp] theorem State.sendAdv_events (s : State) (q : Option QRef) (k mp : Nat) (m : AdvMode) (v : Nat) (n : Option Nat) : (s.sendAdv q k mp m v n).events = s.events := rfl
@[simp] theorem State.sendAdv_evSeq (s : State) (q : Option QRef) (k mp : Nat) (m : AdvMode) (v : Nat) (n : Option Nat) : (s.sendAdv q k mp m v n).evSeq = s.evSeq := rfl
@[simp] theorem State.sendAdv_mailboxes (s : State) (q : Option QRef) (k mp : Nat) (m : AdvMode) (v : Nat) (n : Option Nat) : (s.sendAdv q k mp m v n).mailboxes = s.mailboxes := rfl
@[simp] theorem State.sendAdv_vfs (s : State) (q : Option QRef) (k mp : Nat) (m : AdvMode) (v : Nat) (n : Option Nat) : (s.sendAdv q k mp m v n).vfs = s.vfs := rfl
@[simp] theorem State.sendAdv_commitLog (s : State) (q : Option QRef) (k mp : Nat) (m : AdvMode) (v : Nat) (n : Option Nat) : (s.sendAdv q k mp m v n).commitLog = s.commitLog := rfl
@[simp] theorem State.sendAdv_flashLog (s : State) (q : Option QRef) (k mp : Nat) (m : AdvMode) (v : Nat) (n : Option Nat) : (s.sendAdv q k mp m v n).flashLog = s.flashLog := rfl
@[simp] theorem State.sendAdv_ports (s : State) (q : Option QRef) (k mp : Nat) (m : AdvMode) (v : Nat) (n : Option Nat) : (s.sendAdv q k mp m v n).ports = s.ports := rfl
@[simp] theorem State.sendAdv_pairA (s : State) (q : Option QRef) (k mp : Nat) (m : AdvMode) (v : Nat) (n : Option Nat) : (s.sendAdv q k mp m v n).pairA = s.pairA := rfl
@[simp] theorem State.sendAdv_pairB (s : State) (q : Option QRef) (k mp : Nat) (m : AdvMode) (v : Nat) (n : Option Nat) : (s.sendAdv q k mp m v n).pairB = s.pairB := rfl
@[simp] theorem State.sendAdv_routes (s : State) (q : Option QRef) (k mp : Nat) (m : AdvMode) (v : Nat) (n : Option Nat) : (s.sendAdv q k mp m v n).routes = s.routes := rfl
@[simp] theorem State.sendAdv_sparing (s : State) (q : Option QRef) (k mp : Nat) (m : AdvMode) (v : Nat) (n : Option Nat) : (s.sendAdv q k mp m v n).sparing = s.sparing := rfl
@[simp] theorem State.sendAdv_cxlDown (s : State) (q : Option QRef) (k mp : Nat) (m : AdvMode) (v : Nat) (n : Option Nat) : (s.sendAdv q k mp m v n).cxlDown = s.cxlDown := rfl
@[simp] theorem State.sendAdv_cxl (s : State) (q : Option QRef) (k mp : Nat) (m : AdvMode) (v : Nat) (n : Option Nat) : (s.sendAdv q k mp m v n).cxl = s.cxl := rfl
@[simp] theorem State.sendAdv_paths (s : State) (q : Option QRef) (k mp : Nat) (m : AdvMode) (v : Nat) (n : Option Nat) : (s.sendAdv q k mp m v n).paths = s.paths := rfl
@[simp] theorem State.sendAdv_fw (s : State) (q : Option QRef) (k mp : Nat) (m : AdvMode) (v : Nat) (n : Option Nat) : (s.sendAdv q k mp m v n).fw = s.fw := rfl
@[simp] theorem State.sendAdv_selftest (s : State) (q : Option QRef) (k mp : Nat) (m : AdvMode) (v : Nat) (n : Option Nat) : (s.sendAdv q k mp m v n).selftest = s.selftest := rfl
@[simp] theorem State.sendAdv_tap (s : State) (q : Option QRef) (k mp : Nat) (m : AdvMode) (v : Nat) (n : Option Nat) : (s.sendAdv q k mp m v n).tap = s.tap := rfl
@[simp] theorem State.sendAdv_service (s : State) (q : Option QRef) (k mp : Nat) (m : AdvMode) (v : Nat) (n : Option Nat) : (s.sendAdv q k mp m v n).service = s.service := rfl
@[simp] theorem State.sendAdv_testAt (s : State) (q : Option QRef) (k mp : Nat) (m : AdvMode) (v : Nat) (n : Option Nat) : (s.sendAdv q k mp m v n).testAt = s.testAt := rfl
@[simp] theorem State.sendAdv_passed (s : State) (q : Option QRef) (k mp : Nat) (m : AdvMode) (v : Nat) (n : Option Nat) : (s.sendAdv q k mp m v n).passed = s.passed := rfl
@[simp] theorem State.sendAdv_lastPass (s : State) (q : Option QRef) (k mp : Nat) (m : AdvMode) (v : Nat) (n : Option Nat) : (s.sendAdv q k mp m v n).lastPass = s.lastPass := rfl
@[simp] theorem State.sendAdv_swaps (s : State) (q : Option QRef) (k mp : Nat) (m : AdvMode) (v : Nat) (n : Option Nat) : (s.sendAdv q k mp m v n).swaps = s.swaps := rfl
@[simp] theorem State.sendAdv_late (s : State) (q : Option QRef) (k mp : Nat) (m : AdvMode) (v : Nat) (n : Option Nat) : (s.sendAdv q k mp m v n).late = s.late := rfl
@[simp] theorem State.sendAdv_inbox (s : State) (q : Option QRef) (k mp : Nat) (m : AdvMode) (v : Nat) (n : Option Nat) : (s.sendAdv q k mp m v n).inbox = s.inbox := rfl
@[simp] theorem State.sendAdv_nextId (s : State) (q : Option QRef) (k mp : Nat) (m : AdvMode) (v : Nat) (n : Option Nat) : (s.sendAdv q k mp m v n).nextId = s.nextId := rfl
@[simp] theorem State.sendAdv_freeCount (s : State) (q : Option QRef) (k mp : Nat) (m : AdvMode) (v : Nat) (n : Option Nat) : (s.sendAdv q k mp m v n).freeCount = s.freeCount := rfl
@[simp] theorem State.sendAdv_answer (s : State) (q : Option QRef) (k mp : Nat) (m : AdvMode) (v : Nat) (n : Option Nat) : (s.sendAdv q k mp m v n).answer = s.answer := rfl
@[simp] theorem State.sendAdv_out (s : State) (q : Option QRef) (k mp : Nat) (m : AdvMode) (v : Nat) (n : Option Nat) : (s.sendAdv q k mp m v n).out = s.out := rfl
@[simp] theorem State.sendAdv_pending (s : State) (q : Option QRef) (k mp : Nat) (m : AdvMode) (v : Nat) (n : Option Nat) : (s.sendAdv q k mp m v n).pending = s.pending := rfl

/-! ### Settings -/

theorem State.blobByte_congr {s t : State} (h : t.wbb = s.wbb) (e u o : Nat) : t.blobByte e u o = s.blobByte e u o := by
  unfold State.blobByte; rw [h]

theorem State.blobNat_congr {s t : State} (h : t.wbb = s.wbb) (e u o n : Nat) : t.blobNat e u o n = s.blobNat e u o n := by
  simp only [State.blobNat, State.blob, State.blobByte_congr h]

theorem State.flyItemsGo_congr {s t : State} (h : t.wbb = s.wbb) (u n o : Nat) : t.flyItemsGo u n o = s.flyItemsGo u n o := by
  induction n generalizing o with
  | zero => rfl
  | succ n ih => simp only [State.flyItemsGo, State.blobNat_congr h, ih]

theorem State.flyItems_congr {s t : State} (h : t.wbb = s.wbb) (n : Nat) : t.flyItems n = s.flyItems n := by
  simp only [State.flyItems, State.blobTouched, State.blobNat_congr h, State.flyItemsGo_congr h, h]
  rfl

theorem State.latest_congr {s t : State} (h2 : t.wbv = s.wbv) (h3 : t.gs = s.gs) (h4 : t.wbb = s.wbb) (h5 : t.fly = s.fly) (e u : Nat) :
    t.latest e u = s.latest e u := by
  simp only [State.latest, State.flyItem, State.flyItems_congr h4, h2, h3, h5]

/-- A setting reads the same in states that agree on the fields in which settings live. -/
theorem State.val_congr {s t : State} (h1 : t.held = s.held) (h2 : t.wbv = s.wbv) (h3 : t.gs = s.gs) (h4 : t.wbb = s.wbb) (h5 : t.fly = s.fly)
    (e u : Nat) : t.val e u = s.val e u := by
  simp only [State.val, State.latest_congr h2 h3 h4 h5, h1]

@[simp] theorem State.setCore_val (s : State) (c : Nat) (x : Core) (e u : Nat) : (s.setCore c x).val e u = s.val e u :=
  State.val_congr (s := s) (t := s.setCore c x) rfl rfl rfl rfl rfl e u
@[simp] theorem State.setCore_blobNat (s : State) (c : Nat) (x : Core) (e2 u2 i2 m2 : Nat) : (s.setCore c x).blobNat e2 u2 i2 m2 = s.blobNat e2 u2 i2 m2 :=
  State.blobNat_congr (s := s) (t := s.setCore c x) rfl e2 u2 i2 m2
@[simp] theorem State.setCtx_val (s : State) (k : Nat) (x : Ctx) (e u : Nat) : (s.setCtx k x).val e u = s.val e u :=
  State.val_congr (s := s) (t := s.setCtx k x) rfl rfl rfl rfl rfl e u
@[simp] theorem State.setCtx_blobNat (s : State) (k : Nat) (x : Ctx) (e2 u2 i2 m2 : Nat) : (s.setCtx k x).blobNat e2 u2 i2 m2 = s.blobNat e2 u2 i2 m2 :=
  State.blobNat_congr (s := s) (t := s.setCtx k x) rfl e2 u2 i2 m2
@[simp] theorem State.setPmp_val (s : State) (n : Nat) (x : Pmp) (e u : Nat) : (s.setPmp n x).val e u = s.val e u :=
  State.val_congr (s := s) (t := s.setPmp n x) rfl rfl rfl rfl rfl e u
@[simp] theorem State.setPmp_blobNat (s : State) (n : Nat) (x : Pmp) (e2 u2 i2 m2 : Nat) : (s.setPmp n x).blobNat e2 u2 i2 m2 = s.blobNat e2 u2 i2 m2 :=
  State.blobNat_congr (s := s) (t := s.setPmp n x) rfl e2 u2 i2 m2
@[simp] theorem State.setPart_val (s : State) (n : Nat) (x : Part) (e u : Nat) : (s.setPart n x).val e u = s.val e u :=
  State.val_congr (s := s) (t := s.setPart n x) rfl rfl rfl rfl rfl e u
@[simp] theorem State.setPart_blobNat (s : State) (n : Nat) (x : Part) (e2 u2 i2 m2 : Nat) : (s.setPart n x).blobNat e2 u2 i2 m2 = s.blobNat e2 u2 i2 m2 :=
  State.blobNat_congr (s := s) (t := s.setPart n x) rfl e2 u2 i2 m2
@[simp] theorem State.setPort_val (s : State) (p : Nat) (x : Port) (e u : Nat) : (s.setPort p x).val e u = s.val e u :=
  State.val_congr (s := s) (t := s.setPort p x) rfl rfl rfl rfl rfl e u
@[simp] theorem State.setPort_blobNat (s : State) (p : Nat) (x : Port) (e2 u2 i2 m2 : Nat) : (s.setPort p x).blobNat e2 u2 i2 m2 = s.blobNat e2 u2 i2 m2 :=
  State.blobNat_congr (s := s) (t := s.setPort p x) rfl e2 u2 i2 m2
@[simp] theorem State.setVal_blobNat (s : State) (e u v : Nat) (e2 u2 i2 m2 : Nat) : (s.setVal e u v).blobNat e2 u2 i2 m2 = s.blobNat e2 u2 i2 m2 :=
  State.blobNat_congr (s := s) (t := s.setVal e u v) rfl e2 u2 i2 m2
@[simp] theorem State.emit_val (s : State) (o : Out) (e u : Nat) : (s.emit o).val e u = s.val e u :=
  State.val_congr (s := s) (t := s.emit o) rfl rfl rfl rfl rfl e u
@[simp] theorem State.emit_blobNat (s : State) (o : Out) (e2 u2 i2 m2 : Nat) : (s.emit o).blobNat e2 u2 i2 m2 = s.blobNat e2 u2 i2 m2 :=
  State.blobNat_congr (s := s) (t := s.emit o) rfl e2 u2 i2 m2
@[simp] theorem State.sendAdv_val (s : State) (q : Option QRef) (k mp : Nat) (m : AdvMode) (v : Nat) (n : Option Nat) (e u : Nat) : (s.sendAdv q k mp m v n).val e u = s.val e u :=
  State.val_congr (s := s) (t := s.sendAdv q k mp m v n) rfl rfl rfl rfl rfl e u
@[simp] theorem State.sendAdv_blobNat (s : State) (q : Option QRef) (k mp : Nat) (m : AdvMode) (v : Nat) (n : Option Nat) (e2 u2 i2 m2 : Nat) : (s.sendAdv q k mp m v n).blobNat e2 u2 i2 m2 = s.blobNat e2 u2 i2 m2 :=
  State.blobNat_congr (s := s) (t := s.sendAdv q k mp m v n) rfl e2 u2 i2 m2

/-! ### What was written reads back -/

@[simp] theorem State.core_setCore_self (s : State) (c : Nat) (x : Core) : (s.setCore c x).core c = x := by
  simp [State.core, State.setCore]

theorem State.core_setCore_ne (s : State) {c d : Nat} (x : Core) (h : d ≠ c) : (s.setCore c x).core d = s.core d := by
  simp [State.core, State.setCore, Tab.get_set_ne _ _ _ h]

@[simp] theorem State.ctx_setCtx_self (s : State) (k : Nat) (x : Ctx) : (s.setCtx k x).ctx k = x := by
  simp [State.ctx, State.setCtx]

theorem State.ctx_setCtx_ne (s : State) {k j : Nat} (x : Ctx) (h : j ≠ k) : (s.setCtx k x).ctx j = s.ctx j := by
  simp [State.ctx, State.setCtx, Tab.get_set_ne _ _ _ h]

@[simp] theorem State.pmp_setPmp_self (s : State) (n : Nat) (x : Pmp) : (s.setPmp n x).pmp n = x := by
  simp [State.pmp, State.setPmp]

theorem State.pmp_setPmp_ne (s : State) {n m : Nat} (x : Pmp) (h : m ≠ n) : (s.setPmp n x).pmp m = s.pmp m := by
  simp [State.pmp, State.setPmp, Tab.get_set_ne _ _ _ h]

@[simp] theorem State.port_setPort_self (s : State) (p : Nat) (x : Port) : (s.setPort p x).port p = x := by
  simp [State.port, State.setPort]

theorem State.port_setPort_ne (s : State) {p r : Nat} (x : Port) (h : r ≠ p) : (s.setPort p x).port r = s.port r := by
  simp [State.port, State.setPort, Tab.get_set_ne _ _ _ h]

@[simp] theorem State.setCore_ctx (s : State) (c : Nat) (x : Core) (k : Nat) : (s.setCore c x).ctx k = s.ctx k := rfl
@[simp] theorem State.setCtx_core (s : State) (k : Nat) (x : Ctx) (c : Nat) : (s.setCtx k x).core c = s.core c := rfl
@[simp] theorem State.setCore_pmp (s : State) (c : Nat) (x : Core) (n : Nat) : (s.setCore c x).pmp n = s.pmp n := rfl
@[simp] theorem State.setCtx_pmp (s : State) (k : Nat) (x : Ctx) (n : Nat) : (s.setCtx k x).pmp n = s.pmp n := rfl
@[simp] theorem State.setPmp_core (s : State) (n : Nat) (x : Pmp) (c : Nat) : (s.setPmp n x).core c = s.core c := rfl
@[simp] theorem State.setPmp_ctx (s : State) (n : Nat) (x : Pmp) (k : Nat) : (s.setPmp n x).ctx k = s.ctx k := rfl

/-! ### Queues of a core -/

@[simp] theorem Core.q_setQ_self (c : Core) (q : Queue) (x : QueueSt) : (c.setQ q x).q q = x := by cases q <;> rfl
theorem Core.q_setQ_ne (c : Core) {q r : Queue} (x : QueueSt) (h : r ≠ q) : (c.setQ q x).q r = c.q r := by
  cases q <;> cases r <;> first | rfl | exact absurd rfl h

@[simp] theorem Core.setQ_ctx (c : Core) (q : Queue) (x : QueueSt) : (c.setQ q x).ctx = c.ctx := by cases q <;> rfl
@[simp] theorem Core.setQ_role (c : Core) (q : Queue) (x : QueueSt) : (c.setQ q x).role = c.role := by cases q <;> rfl
@[simp] theorem Core.setQ_store (c : Core) (q : Queue) (x : QueueSt) : (c.setQ q x).store = c.store := by cases q <;> rfl
@[simp] theorem Core.setQ_summ (c : Core) (q : Queue) (x : QueueSt) : (c.setQ q x).summ = c.summ := by cases q <;> rfl
@[simp] theorem Core.setQ_poison (c : Core) (q : Queue) (x : QueueSt) : (c.setQ q x).poison = c.poison := by cases q <;> rfl
@[simp] theorem Core.setQ_bufs (c : Core) (q : Queue) (x : QueueSt) : (c.setQ q x).bufs = c.bufs := by cases q <;> rfl
@[simp] theorem Core.setQ_bufRec (c : Core) (q : Queue) (x : QueueSt) : (c.setQ q x).bufRec = c.bufRec := by cases q <;> rfl
@[simp] theorem Core.setQ_tile0 (c : Core) (q : Queue) (x : QueueSt) : (c.setQ q x).tile0 = c.tile0 := by cases q <;> rfl
@[simp] theorem Core.setQ_tile1 (c : Core) (q : Queue) (x : QueueSt) : (c.setQ q x).tile1 = c.tile1 := by cases q <;> rfl
@[simp] theorem Core.setQ_job (c : Core) (q : Queue) (x : QueueSt) : (c.setQ q x).job = c.job := by cases q <;> rfl
@[simp] theorem Core.setQ_cells (c : Core) (q : Queue) (x : QueueSt) : (c.setQ q x).cells = c.cells := by cases q <;> rfl
@[simp] theorem Core.setQ_slots (c : Core) (q : Queue) (x : QueueSt) : (c.setQ q x).slots = c.slots := by cases q <;> rfl
@[simp] theorem Core.setQ_vslots (c : Core) (q : Queue) (x : QueueSt) : (c.setQ q x).vslots = c.vslots := by cases q <;> rfl
@[simp] theorem Core.setQ_vregs (c : Core) (q : Queue) (x : QueueSt) : (c.setQ q x).vregs = c.vregs := by cases q <;> rfl
@[simp] theorem Core.setQ_vflags (c : Core) (q : Queue) (x : QueueSt) : (c.setQ q x).vflags = c.vflags := by cases q <;> rfl

@[simp] theorem State.queue_setQueue_self (s : State) (q : QRef) (x : QueueSt) : (s.setQueue q x).queue q = x := by
  simp [State.queue, State.setQueue, State.updCore]

theorem State.queue_setQueue_ne (s : State) {q r : QRef} (x : QueueSt) (h : r ≠ q) : (s.setQueue q x).queue r = s.queue r := by
  simp only [State.queue, State.setQueue, State.updCore]
  by_cases hc : r.core.val = q.core.val
  · rw [hc, State.core_setCore_self]
    refine Core.q_setQ_ne _ _ fun hq => h ?_
    obtain ⟨rc, rq⟩ := r; obtain ⟨qc, qq⟩ := q
    simp only at hc hq; cases hq; cases Fin.ext hc; rfl
  · rw [State.core_setCore_ne _ _ hc]

@[simp] theorem State.queue_updQueue_self (s : State) (q : QRef) (f : QueueSt → QueueSt) : (s.updQueue q f).queue q = f (s.queue q) := by
  simp [State.updQueue]

theorem State.queue_updQueue_ne (s : State) {q r : QRef} (f : QueueSt → QueueSt) (h : r ≠ q) : (s.updQueue q f).queue r = s.queue r := by
  simp [State.updQueue, State.queue_setQueue_ne _ _ h]

@[simp] theorem State.setQueue_ctx (s : State) (q : QRef) (x : QueueSt) (k : Nat) : (s.setQueue q x).ctx k = s.ctx k := rfl
@[simp] theorem State.setQueue_pmp (s : State) (q : QRef) (x : QueueSt) (n : Nat) : (s.setQueue q x).pmp n = s.pmp n := rfl

/-- A change of a queue leaves the core's context. -/
@[simp] theorem State.setQueue_coreCtx (s : State) (q : QRef) (x : QueueSt) (c : Nat) : ((s.setQueue q x).core c).ctx = (s.core c).ctx := by
  simp only [State.setQueue, State.updCore]
  by_cases h : c = q.core.val
  · subst h; simp
  · rw [State.core_setCore_ne _ _ h]

@[simp] theorem State.updQueue_coreCtx (s : State) (q : QRef) (f : QueueSt → QueueSt) (c : Nat) : ((s.updQueue q f).core c).ctx = (s.core c).ctx :=
  State.setQueue_coreCtx s q _ c

/-- Two changes of one queue are one change. -/
theorem State.updQueue_updQueue (s : State) (q : QRef) (f g : QueueSt → QueueSt) :
    (s.updQueue q f).updQueue q g = (s.updQueue q f).setQueue q (g (f (s.queue q))) := by
  simp [State.updQueue]

/-! ### Registers of a queue -/

@[simp] theorem QueueSt.setReg_inflight (x : QueueSt) (n v : Nat) : (x.setReg n v).inflight = x.inflight := by unfold QueueSt.setReg; split <;> rfl
@[simp] theorem QueueSt.setReg_pc (x : QueueSt) (n v : Nat) : (x.setReg n v).pc = x.pc := by unfold QueueSt.setReg; split <;> rfl
@[simp] theorem QueueSt.setReg_frames (x : QueueSt) (n v : Nat) : (x.setReg n v).frames = x.frames := by unfold QueueSt.setReg; split <;> rfl
@[simp] theorem QueueSt.setReg_round (x : QueueSt) (n v : Nat) : (x.setReg n v).round = x.round := by unfold QueueSt.setReg; split <;> rfl

/-- A register reads what was written, modulo 2^64; ZERO and reserved names read 0 (R204). -/
theorem QueueSt.reg_setReg_self (x : QueueSt) (n v : Nat) : (x.setReg n v).reg n = if n < 0x30 then v % 2 ^ 64 else 0 := by
  unfold QueueSt.reg QueueSt.setReg
  split <;> simp

theorem QueueSt.reg_setReg_ne (x : QueueSt) {n m : Nat} (v : Nat) (h : m ≠ n) : (x.setReg n v).reg m = x.reg m := by
  unfold QueueSt.reg QueueSt.setReg
  by_cases hn : n < 0x30
  · simp [hn, Tab.get_set_ne _ _ _ h]
  · simp [hn]

end Sys2Proof.Machine
end

