-- ==== Sys2Proof/Laws/Issue.lean ====
section
/-! SUPPORT. What issuing an instruction can do: the one lemma that every engine instruction's proof cites (`issue_go`), and the same for a halt
and a wait at issue. -/

namespace Sys2Proof.Machine

/-! ### States that read the same -/

theorem State.Same.refl (s : State) : s.Same s := ⟨fun _ => rfl, rfl⟩

theorem State.Same.of_eq {s t : State} (h : t = s) : t.Same s := h ▸ State.Same.refl t

theorem State.Same.trans {a b c : State} (h : a.Same b) (g : b.Same c) : a.Same c := by
  refine ⟨fun n => (h.1 n).trans (g.1 n), ?_⟩
  have h1 := h.2; have g1 := g.2
  rw [← g1, ← h1]

theorem State.same_setCore_setCore (s : State) (c : Nat) (x y : Core) : ((s.setCore c x).setCore c y).Same (s.setCore c y) := by
  refine ⟨fun d => ?_, rfl⟩
  by_cases h : d = c
  · subst h; simp
  · simp [State.core_setCore_ne _ _ h]

theorem State.updQueue_congr {s : State} {q : QRef} {f g : QueueSt → QueueSt} (h : f (s.queue q) = g (s.queue q)) :
    s.updQueue q f = s.updQueue q g := by
  simp only [State.updQueue, h]

/-- Two changes of one queue read as one. -/
theorem State.same_updQueue (s : State) (q : QRef) (f g : QueueSt → QueueSt) :
    ((s.updQueue q f).updQueue q g).Same (s.updQueue q fun x => g (f x)) := by
  have h : ∀ c : Core, ∀ x y : QueueSt, (c.setQ q.queue x).setQ q.queue y = c.setQ q.queue y := by
    intro c x y; cases q.queue <;> rfl
  have hq : (s.setQueue q (f (s.queue q))).queue q = f (s.queue q) := State.queue_setQueue_self s q _
  simp only [State.updQueue, hq]
  simp only [State.setQueue, State.updCore, State.core_setCore_self, h]
  exact State.same_setCore_setCore s _ _ _

/-- Reads of everything but the listing of cores agree in states that read the same. -/
theorem State.Same.ctxs {s t : State} (h : t.Same s) : t.ctxs = s.ctxs := by rw [← h.2]
theorem State.Same.queue {s t : State} (h : t.Same s) (q : QRef) : t.queue q = s.queue q := by simp [State.queue, h.1]

theorem State.Same.setCore {s t : State} (h : t.Same s) (c : Nat) (x : Core) : (t.setCore c x).Same (s.setCore c x) := by
  refine ⟨fun d => ?_, ?_⟩
  · by_cases hd : d = c
    · subst hd; simp
    · rw [State.core_setCore_ne _ _ hd, State.core_setCore_ne _ _ hd, h.1]
  · have := h.2
    rw [← this]; rfl

/-! ### Advances of a retiring instruction -/

@[simp] theorem QueueSt.stepStreams_inflight (x : QueueSt) (f : Frame) : (x.stepStreams f).inflight = x.inflight := by
  unfold QueueSt.stepStreams
  generalize f.streams = l
  induction l generalizing x with
  | nil => rfl
  | cons a l ih => rw [List.foldl_cons, ih, QueueSt.setReg_inflight]

@[simp] theorem QueueSt.restoreStreams_inflight (x : QueueSt) (f : Frame) : (x.restoreStreams f).inflight = x.inflight := by
  unfold QueueSt.restoreStreams
  generalize f.streams = l
  induction l generalizing x with
  | nil => rfl
  | cons a l ih => rw [List.foldl_cons, ih, QueueSt.setReg_inflight]

@[simp] theorem QueueSt.setFrame_inflight (x : QueueSt) (i : Nat) (f : Frame) : (x.setFrame i f).inflight = x.inflight := rfl

@[simp] theorem QueueSt.endFrames_inflight (x : QueueSt) (e : Nat) (l : List (Nat × Frame)) : (x.endFrames e l).inflight = x.inflight := by
  induction l generalizing x with
  | nil => rfl
  | cons a l ih =>
    obtain ⟨i, f⟩ := a
    unfold QueueSt.endFrames
    split
    · dsimp only
      split
      · simp
      · rw [ih]; simp
    · exact ih x

/-- An instruction's move of the pc leaves the issued instructions. -/
@[simp] theorem QueueSt.advance_inflight (x : QueueSt) (n : Next) : (x.advance n).inflight = x.inflight := by
  cases n <;> simp [QueueSt.advance]

theorem State.retireAdvs_room (s : State) (q : QRef) (k : Nat) (i : InFlight) (l : List (Nat × AdvMode × Nat))
    (h : s.room q k i.epoch l = true) : s.retireAdvs q k i l = s.depart q k i.epoch l := by
  induction l generalizing s with
  | nil => rfl
  | cons a l ih =>
    obtain ⟨mp, m, v⟩ := a
    simp only [State.room] at h
    simp only [State.retireAdvs, State.depart]
    split
    · rename_i hp; rw [if_pos hp] at h; exact ih s h
    · rename_i hp
      rw [if_neg hp, Bool.and_eq_true, Bool.not_eq_true'] at h
      rw [h.1]; exact ih _ h.2

theorem State.Same.sendAdv {s t : State} (h : t.Same s) (src : Option QRef) (k mp : Nat) (m : AdvMode) (v : Nat) (ep : Option Nat) :
    (t.sendAdv src k mp m v ep).Same (s.sendAdv src k mp m v ep) := by
  obtain ⟨h1, h2⟩ := h
  refine ⟨h1, ?_⟩
  rw [← h2]; rfl

theorem State.Same.depart {s t : State} (h : t.Same s) (q : QRef) (k : Nat) (ep : Option Nat) (l : List (Nat × AdvMode × Nat)) :
    (t.depart q k ep l).Same (s.depart q k ep l) := by
  induction l generalizing s t with
  | nil => exact h
  | cons a l ih =>
    obtain ⟨mp, m, v⟩ := a
    have hp : (t.pmp (t.mpEntry k mp).pmp).st = (s.pmp (s.mpEntry k mp).pmp).st := by rw [← h.2]; rfl
    simp only [State.depart, hp]
    split
    · exact ih h
    · exact ih (h.sendAdv _ _ _ _ _ _)

theorem State.Same.room {s t : State} (h : t.Same s) (q : QRef) (k : Nat) (ep : Option Nat) (l : List (Nat × AdvMode × Nat)) :
    t.room q k ep l = s.room q k ep l := by
  induction l generalizing s t with
  | nil => rfl
  | cons a l ih =>
    obtain ⟨mp, m, v⟩ := a
    have hp : (t.pmp (t.mpEntry k mp).pmp).st = (s.pmp (s.mpEntry k mp).pmp).st := by rw [← h.2]; rfl
    have ho : t.advOverflows k mp m v ep = s.advOverflows k mp m v ep := by rw [← h.2]; rfl
    simp only [State.room, hp, ho]
    split
    · exact ih h
    · rw [ih (h.sendAdv _ _ _ _ _ _)]

/-- What departs changes `transit` alone, to which it only adds. -/
theorem State.depart_frame (s : State) (q : QRef) (k : Nat) (ep : Option Nat) (l : List (Nat × AdvMode × Nat)) :
    ∃ as : List Adv, s.depart q k ep l = { s with transit := s.transit ++ as } := by
  induction l generalizing s with
  | nil => exact ⟨[], by simp [State.depart]⟩
  | cons a l ih =>
    obtain ⟨mp, m, v⟩ := a
    simp only [State.depart]
    split
    · exact ih s
    · obtain ⟨as, h⟩ := ih (s.sendAdv (some q) k mp m v ep)
      exact ⟨[{ src := some q, k := k, mp := mp, pmp := (s.mpEntry k mp).pmp, mode := m, amount := v, epoch := ep }] ++ as, by
        rw [h]; simp [State.sendAdv]⟩

/-- Whether advances find room rests on the Mileposts, the contexts and what is in transit. -/
theorem State.room_congr {a b : State} (q : QRef) (k : Nat) (ep : Option Nat) (l : List (Nat × AdvMode × Nat)) (h1 : a.pmps = b.pmps)
    (h2 : a.ctxs = b.ctxs) (h3 : a.transit = b.transit) : a.room q k ep l = b.room q k ep l := by
  induction l generalizing a b with
  | nil => rfl
  | cons x l ih =>
    obtain ⟨mp, m, v⟩ := x
    have ec : ∀ j, a.ctx j = b.ctx j := fun j => by simp only [State.ctx, h2]
    have e1 : a.ctx k = b.ctx k := ec k
    have es : a.pmpAfter = b.pmpAfter := by
      funext p x
      simp only [State.pmpAfter, State.seen, ec]
    have e2 : ∀ n, a.pmp n = b.pmp n := fun n => by simp only [State.pmp, h1]
    have e3 : a.mpEntry k mp = b.mpEntry k mp := by simp only [State.mpEntry, e1]
    have e4 : a.advOverflows k mp m v ep = b.advOverflows k mp m v ep := by
      have er : a.arriving = b.arriving := funext fun n => by simp only [State.arriving, es, e2, h3]
      have ev : ∀ sh p, a.seen k sh p ep = b.seen k sh p ep := fun sh p => by simp only [State.seen, e1]
      simp only [State.advOverflows, er, ev, e3]
    have e5 : (a.sendAdv (some q) k mp m v ep).room q k ep l = (b.sendAdv (some q) k mp m v ep).room q k ep l := by
      apply ih
      · exact h1
      · exact h2
      · simp only [State.sendAdv, h3, e3]
    simp only [State.room, e2, e3, e4, e5, ih h1 h2 h3]

/-! ### Issue -/

/-- An instruction that a ready queue issues takes the effect of its body. -/
theorem issue_ready {s : State} {q : QRef} {oc : OpCode} {w : Nat} (h : Ready s q oc w) (ser : Bool) (body : Nat → Act) :
    issue oc ser q s body = .next (s.settle q w (body w)) := by
  have hc : (s.ctx ((s.core q.core.val).ctx.getD 0)).aborting = none := h.calm
  have ha : ((carried w).any fun a => !s.mayAdvance ((s.core q.core.val).ctx.getD 0) a.1) = false := h.advance
  simp [issue, onCore, h.alive, h.can, State.tryIssue, h.word, h.legal, h.opcode, hc, h.alone, ha]

/-- An instruction without work that a ready queue issues retires at once: the machine reads as its effect, finished. -/
theorem issue_go {s s' : State} {q : QRef} {oc : OpCode} {w : Nat} (h : Ready s q oc w) (ser : Bool) (body : Nat → Act)
    {own : List (Nat × AdvMode × Nat)} {nx : Next} (hb : body w = .go s' .now own nx)
    (hk : s'.ctxOf q = s.ctxOf q) (hi : (s'.queue q).inflight = []) (hc : (s'.ctx (s.ctxOf q)).aborting = none)
    (he : s'.epochOf (s.ctxOf q) (s'.queue q) = s.epochOf (s.ctxOf q) (s.queue q)) (hr : s'.fits q w own = true) :
    ∃ t, issue oc ser q s body = .next t ∧ t.Same (s'.finish q w own nx) := by
  refine ⟨_, issue_ready h ser body, ?_⟩
  rw [hb]
  simp only [State.settle, h.alone, List.length_nil, State.drain]
  generalize hI : (InFlight.mk s'.nextId (BitVec.ofNat 128 w) (s.queue q).bank (s.queue q).pc .now (own ++ carried w)
    (s.epochOf ((s.core q.core.val).ctx.getD 0) (s.queue q)) (if Work.now.late then (s.queue q).regs else [])) = i
  have hiw : i.work = .now := by rw [← hI]
  have hia : i.advs = own ++ carried w := by rw [← hI]
  have hie : i.epoch = s.epochOf (s.ctxOf q) (s.queue q) := by rw [← hI]; rfl
  set u : State := { s' with nextId := s'.nextId + 1 } with hu
  set v := u.updQueue q fun y => { y.advance nx with inflight := y.inflight ++ [i] } with hv
  have hvi : (v.queue q).inflight = [i] := by
    have : (u.queue q).inflight = [] := hi
    rw [hv, State.queue_updQueue_self]; simp [this]
  have hvk : (v.core q.core.val).ctx.getD 0 = s.ctxOf q := by
    rw [hv, State.updQueue_coreCtx]; exact hk
  rw [hvi]
  simp only [hiw, if_true, State.retireHead, hvk]
  have hvc : (v.ctx (s.ctxOf q)).aborting = none := hc
  rw [hvc]
  dsimp only
  have hsame : (v.updQueue q fun x => { x with inflight := x.inflight.drop 1 }).Same (u.updQueue q fun x => x.advance nx) := by
    refine (State.same_updQueue u q _ _).trans (State.Same.of_eq (State.updQueue_congr ?_))
    have h1 : (u.queue q).inflight = [] := hi
    have h0 : ((u.queue q).advance nx).inflight = [] := by rw [QueueSt.advance_inflight]; exact hi
    simp only [h1, List.nil_append, List.drop_one, List.tail_cons]
    rw [← h0]
  have hroom : (u.updQueue q fun x => x.advance nx).room q (s.ctxOf q) i.epoch (own ++ carried w) = true := by
    unfold State.fits at hr
    rw [hk, he] at hr
    rw [hie]
    exact (State.room_congr (a := u.updQueue q fun x => x.advance nx) (b := s') q _ _ _ rfl rfl rfl).trans hr
  rw [← hia] at hroom
  have hroom2 := hsame.room q (s.ctxOf q) i.epoch i.advs
  rw [State.retireAdvs_room _ q _ i i.advs (hroom2.trans hroom)]
  have := hsame.depart q (s.ctxOf q) i.epoch i.advs
  refine this.trans (State.Same.of_eq ?_)
  unfold State.finish
  rw [hia, hie, hk, he]

/-- What the epoch of a queue's work rests on. -/
theorem State.epochOf_congr {a b : State} (k : Nat) {x y : QueueSt} (hv : ∀ e u, a.val e u = b.val e u) (hr : x.round = y.round) :
    a.epochOf k x = b.epochOf k y := by
  simp only [State.epochOf, State.stepGroup, hv, hr]
  rfl

/-- Whether an instruction's advances find room, in states that agree on what that rests on. -/
theorem State.fits_congr {a b : State} (q : QRef) (w : Nat) (own : List (Nat × AdvMode × Nat)) (h1 : a.pmps = b.pmps) (h2 : a.ctxs = b.ctxs)
    (h3 : a.transit = b.transit) (hk : a.ctxOf q = b.ctxOf q) (hv : ∀ e u, a.val e u = b.val e u)
    (hr : (a.queue q).round = (b.queue q).round) : a.fits q w own = b.fits q w own := by
  unfold State.fits
  rw [hk, State.epochOf_congr _ hv hr]
  exact State.room_congr q _ _ _ h1 h2 h3

theorem State.updQueue_ctxOf (s : State) (q r : QRef) (f : QueueSt → QueueSt) : (s.updQueue q f).ctxOf r = s.ctxOf r := by
  simp only [State.ctxOf, State.updQueue_coreCtx]

theorem State.updQueue_val (s : State) (q : QRef) (f : QueueSt → QueueSt) (e u : Nat) : (s.updQueue q f).val e u = s.val e u :=
  State.val_congr (s := s) (t := s.updQueue q f) rfl rfl rfl rfl rfl e u

theorem State.updCore_val (s : State) (c : Nat) (f : Core → Core) (e u : Nat) : (s.updCore c f).val e u = s.val e u :=
  State.val_congr (s := s) (t := s.updCore c f) rfl rfl rfl rfl rfl e u

/-- An instruction that does nothing but issue and retire. -/
theorem issue_plain {s : State} {q : QRef} {oc : OpCode} {w : Nat} (h : Ready s q oc w) (ser : Bool) (body : Nat → Act)
    {own : List (Nat × AdvMode × Nat)} {nx : Next} (hb : body w = .go s .now own nx) (hr : s.fits q w own = true) :
    ∃ t, issue oc ser q s body = .next t ∧ t.Same (s.finish q w own nx) :=
  issue_go h ser body hb rfl h.alone h.calm rfl hr

/-- An instruction that changes its own queue alone. -/
theorem issue_queue {s : State} {q : QRef} {oc : OpCode} {w : Nat} (h : Ready s q oc w) (ser : Bool) (body : Nat → Act)
    {own : List (Nat × AdvMode × Nat)} {nx : Next} {f : QueueSt → QueueSt} (hb : body w = .go (s.updQueue q f) .now own nx)
    (hi : (f (s.queue q)).inflight = (s.queue q).inflight) (hn : (f (s.queue q)).round = (s.queue q).round) (hr : s.fits q w own = true) :
    ∃ t, issue oc ser q s body = .next t ∧ t.Same ((s.updQueue q f).finish q w own nx) := by
  have hq : ((s.updQueue q f).queue q) = f (s.queue q) := State.queue_updQueue_self s q f
  refine issue_go h ser body hb (State.updQueue_ctxOf s q q f) ?_ h.calm ?_ ?_
  · rw [hq, hi, h.alone]
  · rw [hq]; exact State.epochOf_congr _ (State.updQueue_val s q f) hn
  · rw [← hr]
    exact State.fits_congr (a := s.updQueue q f) (b := s) q w own rfl rfl rfl (State.updQueue_ctxOf s q q f) (State.updQueue_val s q f)
      (by rw [hq, hn])

theorem State.updCore_queue (s : State) (q : QRef) (f : Core → Core) (hf : ∀ r, (f (s.core q.core.val)).q r = (s.core q.core.val).q r) :
    (s.updCore q.core.val f).queue q = s.queue q := by
  simp [State.queue, State.updCore, hf]

/-- An instruction that changes its own core, but no queue of it. -/
theorem issue_core {s : State} {q : QRef} {oc : OpCode} {w : Nat} (h : Ready s q oc w) (ser : Bool) (body : Nat → Act)
    {own : List (Nat × AdvMode × Nat)} {nx : Next} {f : Core → Core} (hb : body w = .go (s.updCore q.core.val f) .now own nx)
    (hq : ∀ r, (f (s.core q.core.val)).q r = (s.core q.core.val).q r) (hx : (f (s.core q.core.val)).ctx = (s.core q.core.val).ctx)
    (hr : s.fits q w own = true) : ∃ t, issue oc ser q s body = .next t ∧ t.Same ((s.updCore q.core.val f).finish q w own nx) := by
  have hk : (s.updCore q.core.val f).ctxOf q = s.ctxOf q := by simp [State.ctxOf, State.updCore, hx]
  have he : (s.updCore q.core.val f).queue q = s.queue q := State.updCore_queue s q f hq
  refine issue_go h ser body hb hk (by rw [he, h.alone]) h.calm ?_ ?_
  · rw [he]; exact State.epochOf_congr _ (State.updCore_val s _ f) rfl
  · rw [← hr]
    exact State.fits_congr (a := s.updCore q.core.val f) (b := s) q w own rfl rfl rfl hk (State.updCore_val s _ f) (by rw [he])

/-- An instruction with work of its own that a ready queue issues stays in flight. -/
theorem issue_enter {s s' : State} {q : QRef} {oc : OpCode} {w : Nat} (h : Ready s q oc w) (ser : Bool) (body : Nat → Act)
    {work : Work} {own : List (Nat × AdvMode × Nat)} {nx : Next} (hb : body w = .go s' work own nx) (hw : work ≠ .now)
    (hq : s'.queue q = s.queue q) (hk : s'.ctxOf q = s.ctxOf q)
    (he : s'.epochOf (s.ctxOf q) (s.queue q) = s.epochOf (s.ctxOf q) (s.queue q)) :
    issue oc ser q s body = .next (s'.enter q w work own nx) := by
  rw [issue_ready h ser body, hb]
  simp only [State.settle, h.alone, List.length_nil, State.drain]
  have hn : ∀ (u : State) (i : InFlight), (u.queue q).inflight = [i] → i.work = work →
      (match (u.queue q).inflight with | i :: _ => if i.work = .now then (u.retireHead q i).drain q 0 else u | [] => u) = u := by
    intro u i h1 h2; rw [h1]; simp [h2, hw]
  have hs : (State.updQueue { s' with nextId := s'.nextId + 1 } q fun y =>
      { y.advance nx with inflight := y.inflight ++ [{ id := s'.nextId, word := BitVec.ofNat 128 w, bank := (s.queue q).bank, pc := (s.queue q).pc
                                                       work := work, advs := own ++ carried w
                                                       epoch := s.epochOf ((s.core q.core.val).ctx.getD 0) (s.queue q)
                                                       regs := if work.late then (s.queue q).regs else [] }] }) = s'.enter q w work own nx := by
    unfold State.enter
    refine State.updQueue_congr ?_
    have h1 : (State.queue { s' with nextId := s'.nextId + 1 } q) = s.queue q := hq
    simp only [h1, hk, he]
    rfl
  simp only [hs]
  have hx : ((s'.enter q w work own nx).queue q).inflight = [InFlight.mk s'.nextId (BitVec.ofNat 128 w) (s.queue q).bank (s.queue q).pc work
      (own ++ carried w) (s.epochOf ((s.core q.core.val).ctx.getD 0) (s.queue q)) (if work.late then (s.queue q).regs else [])] := by
    rw [← hs, State.queue_updQueue_self]
    have h1 : (State.queue { s' with nextId := s'.nextId + 1 } q) = s.queue q := hq
    simp only [h1, h.alone, List.nil_append]
  rw [hx]
  simp [hw]

/-- An instruction that a ready queue holds. -/
theorem issue_wait {s s' : State} {q : QRef} {oc : OpCode} {w : Nat} (h : Ready s q oc w) (ser : Bool) (body : Nat → Act) {wt : Wait}
    {b : Bool} (hb : body w = .wait s' wt b) : issue oc ser q s body = .next (s'.holdAt q wt b) := by
  rw [issue_ready h ser body, hb]; rfl

/-- An instruction that a ready queue refuses halts the queue. -/
theorem issue_halt {s s' : State} {q : QRef} {oc : OpCode} {w : Nat} (h : Ready s q oc w) (ser : Bool) (body : Nat → Act) {hc d a : Nat}
    (hb : body w = .halt s' hc d a) : issue oc ser q s body = .next (s'.haltQ q hc d a) := by
  rw [issue_ready h ser body, hb]
  simp [State.settle, State.haltIssue, h.alone]

end Sys2Proof.Machine
end

