-- ==== Sys2Proof/Laws/Still.lean ====
section
/-!
SUPPORT. What the operations of the model leave alone: the anti-rollback version, the owner counter, the queue of waiting commands and the
TAP.  One lemma per operation.
-/

namespace Sys2Proof.Machine

open Sys2Proof.WB

/-- What almost every command leaves alone. -/
structure Still where
  arb : Nat
  counter : Nat
  pending : List Instr
  tap : Tap

def State.still (s : State) : Still := { arb := s.fw.arb, counter := s.fw.counter, pending := s.pending, tap := s.tap }

theorem still_mk (phase : Phase) (safeHold : Bool) (shCause : Nat) (scanned : List Nat) (mgrSel : Bool) (bootSafe : Bool) (slotId : Nat) (startCause : Nat) (startDone : Bool) (ethUp : Bool) (resetHeld : Bool) (standby : Bool) (revert : Bool) (lastStart : StartIn) (reqWin : Tab (List Byte)) (gs : Tab (Option Nat)) (wbv : Tab (Option Nat)) (held : Tab (Option Nat)) (wbb : Tab Byte) (fly : Nat) (pitching : Option Nat) (cores : Tab Core) (spares : List Nat) (retired : List Nat) (retiring : List Nat) (pmps : Tab Pmp) (parts : Tab Part) (transit : List Adv) (ctxs : Tab Ctx) (eauq : List EauAdd) (faults : List (BitVec 256)) (events : List (BitVec 512)) (evSeq : Nat) (mailboxes : Tab Mailbox) (vfs : List Nat) (commitLog : List (Nat × Nat)) (flashLog : List (Nat × Nat)) (ports : Tab Port) (pairA : Bool) (pairB : Bool) (routes : Tab Nat) (sparing : Sparing) (cxlDown : List Nat) (cxl : List (List Nat)) (paths : List PathSt) (fw : Fw) (selftest : Tab Byte) (tap : Tap) (service : List Service) (testAt : Tab (List Nat)) (passed : List Nat) (lastPass : Tab (Option Nat)) (swaps : List (Nat × Nat)) (late : List Late) (inbox : List CMsg) (nextId : Nat) (freeCount : Nat) (answer : Nat) (out : List Out) (pending : List Instr) :
    State.still (State.mk phase safeHold shCause scanned mgrSel bootSafe slotId startCause startDone ethUp resetHeld standby revert lastStart reqWin gs wbv held wbb fly pitching cores spares retired retiring pmps parts transit ctxs eauq faults events evSeq mailboxes vfs commitLog flashLog ports pairA pairB routes sparing cxlDown cxl paths fw selftest tap service testAt passed lastPass swaps late inbox nextId freeCount answer out pending) = { arb := fw.arb, counter := fw.counter, pending := pending, tap := tap } :=
  (Eq.refl _).trans (Eq.refl _)

theorem still_eta (s : State) : Still.mk s.fw.arb s.fw.counter s.pending s.tap = s.still := (Eq.refl _).trans (Eq.refl _)

theorem still_foldl {α : Type} {f : State → α → State} {l : List α} {a : State} {x : Still} (h : ∀ s x, (f s x).still = s.still)
    (ha : a.still = x) : (l.foldl f a).still = x := by
  induction l generalizing a with
  | nil => exact ha
  | cons y l ih => exact ih ((h a y).trans ha)

theorem still_foldl_fst {α β : Type} {f : State × β → α → State × β} {l : List α} {a : State × β} {x : Still}
    (h : ∀ p x, (f p x).1.still = p.1.still) (ha : a.1.still = x) : (l.foldl f a).1.still = x := by
  induction l generalizing a with
  | nil => exact ha
  | cons y l ih => exact ih ((h a y).trans ha)

/-- Every state that an act holds is still. -/
def Act.Still (k : Still) : Act → Prop
  | .halt s _ _ _ => s.still = k
  | .wait s _ _ => s.still = k
  | .notYet => True
  | .stopped s => s.still = k
  | .go s _ _ _ => s.still = k

theorem act_halt (s : State) (a b c : Nat) (k : Still) : Act.Still k (.halt s a b c) = (s.still = k) := rfl
theorem act_wait (s : State) (w : Wait) (b : Bool) (k : Still) : Act.Still k (.wait s w b) = (s.still = k) := rfl
theorem act_notYet (k : Still) : Act.Still k .notYet := trivial
theorem act_stopped (s : State) (k : Still) : Act.Still k (.stopped s) = (s.still = k) := rfl
theorem act_go (s : State) (w : Work) (a : List (Nat × AdvMode × Nat)) (n : Next) (k : Still) : Act.Still k (.go s w a n) = (s.still = k) := rfl

theorem State.setBlob_still (s : State) (e sub off : Nat) (bs : List Byte) : (State.setBlob s e sub off bs).still = s.still := by
  unfold State.setBlob
  simp only [↓still_mk, still_eta]

theorem State.setVal_still (s : State) (e sub v : Nat) : (State.setVal s e sub v).still = s.still := by
  unfold State.setVal
  simp only [↓still_mk, still_eta]

theorem State.count_still (s : State) (e sub n : Nat) : (State.count s e sub n).still = s.still := by
  unfold State.count
  simp only [State.setVal_still]

theorem State.countDie_still (s : State) (e die n : Nat) : (State.countDie s e die n).still = s.still := by
  unfold State.countDie
  simp only [State.count_still, apply_ite State.still, ite_self]

theorem State.setCore_still (s : State) (c : Nat) (x : Core) : (State.setCore s c x).still = s.still := by
  unfold State.setCore
  simp only [↓still_mk, still_eta]

theorem State.updCore_still (s : State) (c : Nat) (f : Core → Core) : (State.updCore s c f).still = s.still := by
  unfold State.updCore
  simp only [State.setCore_still]

theorem State.setQueue_still (s : State) (q : QRef) (x : QueueSt) : (State.setQueue s q x).still = s.still := by
  unfold State.setQueue
  simp only [State.updCore_still]

theorem State.updQueue_still (s : State) (q : QRef) (f : QueueSt → QueueSt) : (State.updQueue s q f).still = s.still := by
  unfold State.updQueue
  simp only [State.setQueue_still]

theorem State.setCtx_still (s : State) (k : Nat) (x : Ctx) : (State.setCtx s k x).still = s.still := by
  unfold State.setCtx
  simp only [↓still_mk, still_eta]

theorem State.updCtx_still (s : State) (k : Nat) (f : Ctx → Ctx) : (State.updCtx s k f).still = s.still := by
  unfold State.updCtx
  simp only [State.setCtx_still]

theorem State.setPmp_still (s : State) (n : Nat) (x : Pmp) : (State.setPmp s n x).still = s.still := by
  unfold State.setPmp
  simp only [↓still_mk, still_eta]

theorem State.emit_still (s : State) (o : Out) : (State.emit s o).still = s.still := by
  unfold State.emit
  simp only [↓still_mk, still_eta]

theorem State.eachCore_still (s : State) (k : Nat) (f : Core → Core) : (State.eachCore s k f).still = s.still := by
  unfold State.eachCore
  repeat' first
    | with_reducible rfl
    | simp only [State.updCore_still]
    | dsimp only
    | (refine still_foldl ?_ ?_)
    | (refine still_foldl_fst ?_ ?_)
    | (intro _)

theorem State.deliver_still (s : State) (fn : Nat) (r : BitVec 512) : (State.deliver s fn r).still = s.still := by
  unfold State.deliver
  simp only [↓still_mk, still_eta, State.emit_still, apply_ite State.still, ite_self]

theorem State.ringEvent_still (s : State) (seq : Nat) (r : BitVec 512) : (State.ringEvent s seq r).still = s.still := by
  unfold State.ringEvent
  simp only [State.emit_still, apply_ite State.still, ite_self]

theorem State.event_still (s : State) (code : Nat) (ctx : Option Nat) (die data : Nat) : (State.event s code ctx die data).still = s.still := by
  unfold State.event
  repeat' first
    | with_reducible rfl
    | simp only [↓still_mk, still_eta, State.deliver_still, State.ringEvent_still]
    | dsimp only
    | (refine still_foldl ?_ ?_)
    | (refine still_foldl_fst ?_ ?_)
    | (intro _)
    | split

theorem State.logFault_still (s : State) (cls sub action : Nat) (core ctx : Option Nat) (die detail addr : Nat) : (State.logFault s cls sub action core ctx die detail addr).still = s.still := by
  unfold State.logFault
  simp only [↓still_mk, still_eta, State.event_still]

theorem State.memWrite_still (s : State) (k va : Nat) (bs : List Byte) : (State.memWrite s k va bs).still = s.still := by
  unfold State.memWrite
  simp only [State.updCtx_still]

theorem State.hubWrite_still (s : State) (k va : Nat) (bs : List Byte) : (State.hubWrite s k va bs).still = s.still := by
  unfold State.hubWrite
  repeat' first
    | with_reducible rfl
    | simp only [State.logFault_still, State.memWrite_still]
    | dsimp only
    | (refine still_foldl ?_ ?_)
    | (refine still_foldl_fst ?_ ?_)
    | (intro _)
    | split

theorem State.hubWriteNat_still (s : State) (k va n x : Nat) : (State.hubWriteNat s k va n x).still = s.still := by
  unfold State.hubWriteNat
  repeat' first
    | with_reducible rfl
    | simp only [State.hubWrite_still]
    | dsimp only
    | (refine still_foldl ?_ ?_)
    | (refine still_foldl_fst ?_ ?_)
    | (intro _)
    | split

theorem State.memWriteNat_still (s : State) (k va n x : Nat) : (State.memWriteNat s k va n x).still = s.still := by
  unfold State.memWriteNat
  simp only [State.memWrite_still]

theorem State.updEpoch_still (s : State) (k n : Nat) (f : Epoch → Epoch) : (State.updEpoch s k n f).still = s.still := by
  unfold State.updEpoch
  simp only [State.updCtx_still]

theorem State.setArm_still (s : State) (k i : Nat) (on : Bool) : (State.setArm s k i on).still = s.still := by
  unfold State.setArm
  simp only [State.setBlob_still]

theorem State.postMp_still (s : State) (n : Nat) : (State.postMp s n).still = s.still := by
  unfold State.postMp
  repeat' first
    | with_reducible rfl
    | simp only [State.emit_still, State.setArm_still]
    | dsimp only
    | (refine still_foldl ?_ ?_)
    | (refine still_foldl_fst ?_ ?_)
    | (intro _)
    | split

theorem State.releaseEval_still (s : State) : (State.releaseEval s).still = s.still := by
  unfold State.releaseEval
  repeat' first
    | with_reducible rfl
    | simp only [State.eachCtx, State.updCtx_still]
    | dsimp only
    | (refine still_foldl ?_ ?_)
    | (refine still_foldl_fst ?_ ?_)
    | (intro _)
    | split

theorem State.poisonPmp_still (s : State) (n : Nat) (abort : Bool) : (State.poisonPmp s n abort).still = s.still := by
  unfold State.poisonPmp
  repeat' first
    | with_reducible rfl
    | simp only [State.setPmp_still, State.releaseEval_still, State.event_still, State.setArm_still, State.emit_still]
    | dsimp only
    | (refine still_foldl ?_ ?_)
    | (refine still_foldl_fst ?_ ?_)
    | (intro _)
    | split

theorem State.cvalChanged_still (s : State) (n : Nat) : (State.cvalChanged s n).still = s.still := by
  unfold State.cvalChanged
  simp only [State.postMp_still, State.releaseEval_still]

theorem State.applyAdv_still (s : State) (a : Adv) : (State.applyAdv s a).still = s.still := by
  unfold State.applyAdv
  repeat' first
    | with_reducible rfl
    | simp only [↓still_mk, still_eta, State.setPmp_still, State.updEpoch_still, State.releaseEval_still, State.cvalChanged_still]
    | dsimp only
    | (refine still_foldl ?_ ?_)
    | (refine still_foldl_fst ?_ ?_)
    | (intro _)
    | split

theorem State.sendAdv_still (s : State) (src : Option QRef) (k mp : Nat) (mode : AdvMode) (v : Nat) (ep : Option Nat) : (State.sendAdv s src k mp mode v ep).still = s.still := by
  unfold State.sendAdv
  simp only [↓still_mk, still_eta]

theorem State.serviceAdv_still (s : State) (k mp : Nat) (mode : AdvMode) (v : Nat) : (State.serviceAdv s k mp mode v).still = s.still := by
  unfold State.serviceAdv
  simp only [State.applyAdv_still, apply_ite State.still, ite_self]

theorem State.countSome_still (s : State) (e sub n : Nat) : (State.countSome s e sub n).still = s.still := by
  unfold State.countSome
  simp only [State.count_still, apply_ite State.still, ite_self]

theorem State.cancelSaved_still (s : State) (k : Nat) (p : ChunkRun → Bool) : (State.cancelSaved s k p).still = s.still := by
  unfold State.cancelSaved
  simp only [State.countSome_still, State.updCtx_still]

theorem State.cancelPrefs_still (s : State) (c : Nat) (p : ChunkRun → Bool) : (State.cancelPrefs s c p).still = s.still := by
  unfold State.cancelPrefs
  simp only [State.updCore_still, State.countDie_still, apply_ite State.still, ite_self]

theorem State.haltAt_still (s : State) (q : QRef) (bank : Bool) (pc hc detail addr : Nat) : (State.haltAt s q bank pc hc detail addr).still = s.still := by
  unfold State.haltAt
  dsimp only
  split
  all_goals simp only [State.updQueue_still, State.updCore_still, State.setBlob_still, State.updCtx_still, State.updEpoch_still, State.event_still, apply_ite State.still, ite_self]

theorem State.haltRaw_still (s : State) (q : QRef) (hc detail addr : Nat) : (State.haltRaw s q hc detail addr).still = s.still := by
  unfold State.haltRaw
  simp only [State.haltAt_still]

theorem State.haltCtx_still (s : State) (k detail addr : Nat) : (State.haltCtx s k detail addr).still = s.still := by
  unfold State.haltCtx
  repeat' first
    | with_reducible rfl
    | simp only [State.eachQueue, State.haltRaw_still]
    | dsimp only
    | (refine still_foldl ?_ ?_)
    | (refine still_foldl_fst ?_ ?_)
    | (intro _)
    | split

theorem State.beginClear_still (s : State) (k : Nat) (p : Option Nat) : (State.beginClear s k p).still = s.still := by
  unfold State.beginClear
  simp only [State.updCtx_still]

theorem State.writeEpochInfo_still (s : State) (k : Nat) (e : Epoch) : (State.writeEpochInfo s k e).still = s.still := by
  unfold State.writeEpochInfo
  repeat' first
    | with_reducible rfl
    | simp only [State.hubWriteNat_still]
    | dsimp only
    | (refine still_foldl ?_ ?_)
    | (refine still_foldl_fst ?_ ?_)
    | (intro _)
    | split

theorem State.openEpoch_still (s : State) (k n : Nat) : (State.openEpoch s k n).still = s.still := by
  unfold State.openEpoch
  simp only [State.updCtx_still, State.writeEpochInfo_still, State.beginClear_still]

theorem State.recordEntry_still (s : State) (q : QRef) (n : Nat) : (State.recordEntry s q n).still = s.still := by
  unfold State.recordEntry
  simp only [State.updQueue_still]

theorem State.recordBufs_still (s : State) (c n : Nat) : (State.recordBufs s c n).still = s.still := by
  unfold State.recordBufs
  simp only [State.updCore_still]

theorem State.releaseHeld_still (s : State) (k : Nat) : (State.releaseHeld s k).still = s.still := by
  unfold State.releaseHeld
  simp only [↓still_mk, still_eta]

theorem State.swapCore_still (s : State) (a b : Nat) : (State.swapCore s a b).still = s.still := by
  unfold State.swapCore
  repeat' first
    | with_reducible rfl
    | simp only [↓still_mk, still_eta, State.updCtx_still]
    | dsimp only
    | (refine still_foldl ?_ ?_)
    | (refine still_foldl_fst ?_ ?_)
    | (intro _)
    | split

theorem State.squashCore_still (s : State) (n c : Nat) : (State.squashCore s n c).still = s.still := by
  unfold State.squashCore
  simp only [State.cancelPrefs_still, State.updCore_still]

theorem State.rewindQueue_still (s : State) (k n : Nat) (q : QRef) : (State.rewindQueue s k n q).still = s.still := by
  unfold State.rewindQueue
  repeat' first
    | with_reducible rfl
    | simp only [State.updQueue_still, State.updCore_still]
    | dsimp only
    | (refine still_foldl ?_ ?_)
    | (refine still_foldl_fst ?_ ?_)
    | (intro _)
    | split

theorem State.rewindBufs_still (s : State) (c n : Nat) : (State.rewindBufs s c n).still = s.still := by
  unfold State.rewindBufs
  simp only [State.updCore_still]

theorem State.dropStray_still (s : State) (k n : Nat) : (State.dropStray s k n).still = s.still := by
  unfold State.dropStray
  simp only [↓still_mk, still_eta]

theorem State.dropPends_still (s : State) (k : Nat) (pars : List Nat) : (State.dropPends s k pars).still = s.still := by
  unfold State.dropPends
  simp only [↓still_mk, still_eta]

theorem State.squash_still (s : State) (k n : Nat) (rerun : Bool) : (State.squash s k n rerun).still = s.still := by
  unfold State.squash
  repeat' first
    | with_reducible rfl
    | simp only [State.squashCore_still, State.dropStray_still, State.dropPends_still, State.cancelSaved_still, State.countSome_still, State.count_still, State.updCtx_still, State.eachQueue, State.rewindQueue_still, State.rewindBufs_still, State.openEpoch_still]
    | dsimp only
    | (refine still_foldl ?_ ?_)
    | (refine still_foldl_fst ?_ ?_)
    | (intro _)
    | split

theorem State.resumeEpochs_still (s : State) (k : Nat) : (State.resumeEpochs s k).still = s.still := by
  unfold State.resumeEpochs
  repeat' first
    | with_reducible rfl
    | simp only [State.eachQueue, State.rewindQueue_still, State.rewindBufs_still, State.updCtx_still, State.openEpoch_still]
    | dsimp only
    | (refine still_foldl ?_ ?_)
    | (refine still_foldl_fst ?_ ?_)
    | (intro _)
    | split

theorem State.enterSafeHold_still (s : State) (cause : Nat) : (State.enterSafeHold s cause).still = s.still := by
  unfold State.enterSafeHold
  repeat' first
    | with_reducible rfl
    | simp only [↓still_mk, still_eta, State.eachCtx, State.updCtx_still, State.eachQueue, State.haltRaw_still, State.event_still]
    | dsimp only
    | (refine still_foldl ?_ ?_)
    | (refine still_foldl_fst ?_ ?_)
    | (intro _)
    | split

theorem State.updCensus_still (s : State) (k : Nat) (ep : Option Nat) (t : Nat) (f : Census → Census) : (State.updCensus s k ep t f).still = s.still := by
  unfold State.updCensus
  split <;> simp only [State.updEpoch_still, State.updCtx_still]

theorem State.setPort_still (s : State) (p : Nat) (x : Port) : (State.setPort s p x).still = s.still := by
  unfold State.setPort
  simp only [↓still_mk, still_eta]

theorem State.updPort_still (s : State) (p : Nat) (f : Port → Port) : (State.updPort s p f).still = s.still := by
  unfold State.updPort
  simp only [State.setPort_still]

theorem State.control_still (s : State) (p kind cvc cred : Nat) : (State.control s p kind cvc cred).still = s.still := by
  unfold State.control
  simp only [State.updPort_still, State.emit_still, apply_ite State.still, ite_self]

theorem State.freeSpace_still (s : State) (p vc need : Nat) : (State.freeSpace s p vc need).still = s.still := by
  unfold State.freeSpace
  repeat' first
    | with_reducible rfl
    | simp only [State.updPort_still, State.control_still]
    | dsimp only
    | (refine still_foldl ?_ ?_)
    | (refine still_foldl_fst ?_ ?_)
    | (intro _)
    | split

theorem State.freeVia_still (s : State) (f : DFrame) : (State.freeVia s f).still = s.still := by
  unfold State.freeVia
  repeat' first
    | with_reducible rfl
    | simp only [State.freeSpace_still]
    | dsimp only
    | (refine still_foldl ?_ ?_)
    | (refine still_foldl_fst ?_ ?_)
    | (intro _)
    | split

theorem State.transmit_still (s : State) (p : Nat) (g : DFrame) : (State.transmit s p g).still = s.still := by
  unfold State.transmit
  repeat' first
    | with_reducible rfl
    | simp only [State.emit_still, State.setPort_still, State.freeVia_still]
    | dsimp only
    | (refine still_foldl ?_ ?_)
    | (refine still_foldl_fst ?_ ?_)
    | (intro _)
    | split

theorem State.flush_still (s : State) (p : Nat) (n : Nat) : (State.flush s p n).still = s.still := by
  induction n generalizing s with
  | zero => rfl
  | succ n ih =>
    unfold State.flush
    repeat' first
      | with_reducible rfl
      | simp only [ih, State.setPort_still, State.transmit_still]
      | dsimp only
      | (refine still_foldl ?_ ?_)
      | (refine still_foldl_fst ?_ ?_)
      | (intro _)
      | split

theorem State.sendOn_still (s : State) (p : Nat) (f : DFrame) : (State.sendOn s p f).still = s.still := by
  unfold State.sendOn
  simp only [State.updPort_still, State.flush_still]

theorem State.route_fst (s : State) (mask : Nat) (f : DFrame) : (State.route s mask f).1.still = s.still := by
  unfold State.route
  repeat' first
    | with_reducible rfl
    | simp only [State.sendOn_still, State.updPort_still]
    | dsimp only
    | (refine still_foldl ?_ ?_)
    | (refine still_foldl_fst ?_ ?_)
    | (intro _)
    | split

theorem State.route_of {s : State} {mask : Nat} {f : DFrame} {t : State} {c : Option Nat} (h : State.route s mask f = (t, c)) : t.still = s.still := by
  have := State.route_fst s mask f
  rw [h] at this
  exact this

theorem State.sendMsg_still (s : State) (k g r : Nat) (m : CMsg) : (State.sendMsg s k g r m).still = s.still := by
  unfold State.sendMsg
  repeat' first
    | with_reducible rfl
    | simp only [State.updEpoch_still]
    | dsimp only
    | (refine still_foldl ?_ ?_)
    | (refine still_foldl_fst ?_ ?_)
    | (intro _)
    | split
    | (refine (State.route_of ‹_›).trans ?_)

theorem State.sendAll_still (s : State) (k g : Nat) (m : CMsg) : (State.sendAll s k g m).still = s.still := by
  unfold State.sendAll
  repeat' first
    | with_reducible rfl
    | simp only [State.sendMsg_still]
    | dsimp only
    | (refine still_foldl ?_ ?_)
    | (refine still_foldl_fst ?_ ?_)
    | (intro _)
    | split

theorem State.voteSquash_still (s : State) (k n : Nat) : (State.voteSquash s k n).still = s.still := by
  unfold State.voteSquash
  repeat' first
    | with_reducible rfl
    | simp only [State.sendAll_still, State.sendMsg_still]
    | dsimp only
    | (refine still_foldl ?_ ?_)
    | (refine still_foldl_fst ?_ ?_)
    | (intro _)
    | split

theorem State.squashVote_still (s : State) (k n : Nat) : (State.squashVote s k n).still = s.still := by
  unfold State.squashVote
  split <;> simp only [State.squash_still, State.voteSquash_still]

theorem State.squashAllVote_still (s : State) (k : Nat) : (State.squashAllVote s k).still = s.still := by
  unfold State.squashAllVote
  simp only [State.squashVote_still]

theorem State.strike_still (s : State) (k n : Nat) : (State.strike s k n).still = s.still := by
  unfold State.strike
  simp only [State.squash_still, State.squashVote_still, apply_ite State.still, ite_self]

theorem State.haltQ_still (s : State) (q : QRef) (hc detail addr : Nat) : (State.haltQ s q hc detail addr).still = s.still := by
  unfold State.haltQ
  repeat' first
    | with_reducible rfl
    | simp only [State.haltRaw_still, State.squashAllVote_still]
    | dsimp only
    | (refine still_foldl ?_ ?_)
    | (refine still_foldl_fst ?_ ?_)
    | (intro _)
    | split

theorem State.haltIssued_still (s : State) (q : QRef) (i : InFlight) (hc detail addr : Nat) : (State.haltIssued s q i hc detail addr).still = s.still := by
  unfold State.haltIssued
  repeat' first
    | with_reducible rfl
    | simp only [State.haltAt_still, State.squashAllVote_still]
    | dsimp only
    | (refine still_foldl ?_ ?_)
    | (refine still_foldl_fst ?_ ?_)
    | (intro _)
    | split

theorem State.retireAdvs_still (s : State) (q : QRef) (k : Nat) (i : InFlight) (l : List (Nat × AdvMode × Nat)) :
    (s.retireAdvs q k i l).still = s.still := by
  induction l generalizing s with
  | nil => rfl
  | cons a l ih =>
    obtain ⟨mp, m, v⟩ := a
    simp only [State.retireAdvs]
    split
    · exact ih s
    · split
      · exact State.haltIssued_still ..
      · rw [ih]; exact State.sendAdv_still ..

theorem State.retireHead_still (s : State) (q : QRef) (i : InFlight) : (State.retireHead s q i).still = s.still := by
  unfold State.retireHead
  repeat' first
    | with_reducible rfl
    | simp only [State.haltIssued_still, State.updQueue_still, State.retireAdvs_still]
    | dsimp only
    | (refine still_foldl ?_ ?_)
    | (refine still_foldl_fst ?_ ?_)
    | (intro _)
    | split

theorem State.drain_still (s : State) (q : QRef) (n : Nat) : (State.drain s q n).still = s.still := by
  induction n generalizing s with
  | zero => rfl
  | succ n ih =>
    unfold State.drain
    repeat' first
      | with_reducible rfl
      | simp only [ih, State.retireHead_still]
      | dsimp only
      | (refine still_foldl ?_ ?_)
      | (refine still_foldl_fst ?_ ?_)
      | (intro _)
      | split

theorem State.haltIssue_still (s t : State) (q : QRef) (hc d a : Nat) (h : t.still = s.still) : (s.haltIssue t q hc d a).still = s.still := by
  unfold State.haltIssue
  split
  · exact (State.haltQ_still ..).trans h
  · rfl

theorem State.haltIssue_still' (s : State) (q : QRef) (hc d a : Nat) : (s.haltIssue s q hc d a).still = s.still :=
  State.haltIssue_still s s q hc d a rfl

theorem State.settle_still (s : State) (q : QRef) (w : Nat) (a : Act) (h : a.Still s.still) : (s.settle q w a).still = s.still := by
  unfold State.settle
  cases a with
  | halt t hc d ad => simp only [State.haltIssue]; split; · exact (State.haltQ_still ..).trans h
                      · rfl
  | notYet => rfl
  | stopped t => exact h
  | wait t wt b => exact (State.updQueue_still ..).trans h
  | go t work advs nx => simp only [State.drain_still, State.updQueue_still, ↓still_mk, still_eta]; exact h

theorem State.tryIssue_still (s : State) (oc : OpCode) (serial : Bool) (q : QRef) (body : Nat → Act) (h : ∀ w, (body w).Still s.still) :
    (s.tryIssue oc serial q body).still = s.still := by
  unfold State.tryIssue
  dsimp only
  repeat' first
    | with_reducible rfl
    | exact State.settle_still _ _ _ _ (h _)
    | simp only [State.haltIssue_still', State.haltQ_still]
    | split

theorem State.resume_still (s : State) (oc : OpCode) (q : QRef) (body : State → Nat → Act) (h : ∀ t w, (body t w).Still t.still) :
    (s.resume oc q body).still = s.still := by
  unfold State.resume
  dsimp only
  split
  · exact (State.tryIssue_still _ _ _ _ _ (h _)).trans (State.updQueue_still ..)
  · rfl

theorem hc60_still (s : State) (q : QRef) (addr : Nat) {k : Still} (hk : s.still = k) : (hc60 s q addr).Still k := by
  unfold hc60
  subst hk
  simp only [act_halt, State.logFault_still]

theorem branchTo_still (s : State) (q : QRef) (t : Nat) {k : Still} (hk : s.still = k) : (branchTo s q t).Still k := by
  unfold branchTo
  subst hk
  split <;> simp only [act_halt, act_go]

theorem bodyWait_still (n : Nat → Nat) (q : QRef) (s : State) (w : Nat) {k : Still} (hk : s.still = k) : (bodyWait n q s w).Still k := by
  unfold bodyWait
  subst hk
  repeat' first
    | with_reducible rfl
    | simp only [act_halt, act_wait, act_go, waitFor, State.poisonDone, State.updQueue_still, Act.done]
    | dsimp only
    | (refine still_foldl ?_ ?_)
    | (refine still_foldl_fst ?_ ?_)
    | (intro _)
    | split

theorem State.setPart_still (s : State) (key : Nat) (p : Part) : (State.setPart s key p).still = s.still := by
  unfold State.setPart
  simp only [↓still_mk, still_eta]

theorem State.raisePart_still (s : State) (k g key v : Nat) (ep : Option Nat) : (State.raisePart s k g key v ep).still = s.still := by
  unfold State.raisePart
  dsimp only
  split
  · rfl
  · split <;> simp only [State.setPart_still]

theorem State.ridgeRaise_still (s : State) (k gn : Nat) (g : RGroup) (role : Nat) (q : Queue) (r : Nat) (ep : Option Nat) : (State.ridgeRaise s k gn g role q r ep).still = s.still := by
  unfold State.ridgeRaise
  simp only [State.raisePart_still, apply_ite State.still, ite_self]

theorem State.ridgeSettle_still (s : State) (k gn : Nat) (g : RGroup) (n : Nat) : (State.ridgeSettle s k gn g n).still = s.still := by
  induction n generalizing s with
  | zero => rfl
  | succ n ih =>
    unfold State.ridgeSettle
    repeat' first
      | with_reducible rfl
      | simp only [ih, State.ridgeRaise_still]
      | dsimp only
      | (refine still_foldl ?_ ?_)
      | (refine still_foldl_fst ?_ ?_)
      | (intro _)
      | split

theorem bodyBdef_still (q : QRef) (s : State) (w : Nat) {k : Still} (hk : s.still = k) : (bodyBdef q s w).Still k := by
  unfold bodyBdef
  subst hk
  repeat' first
    | with_reducible rfl
    | simp only [act_halt, act_wait, act_go, afterRecord, Act.done, State.updCore_still]
    | dsimp only
    | (refine still_foldl ?_ ?_)
    | (refine still_foldl_fst ?_ ?_)
    | (intro _)
    | split

theorem bodyGive_still (q : QRef) (s : State) (w : Nat) {k : Still} (hk : s.still = k) : (bodyGive q s w).Still k := by
  unfold bodyGive
  subst hk
  repeat' first
    | with_reducible rfl
    | simp only [act_halt, act_wait, act_go, afterRecord, Act.done, State.updCore_still]
    | dsimp only
    | (refine still_foldl ?_ ?_)
    | (refine still_foldl_fst ?_ ?_)
    | (intro _)
    | split

theorem bodyTake_still (q : QRef) (s : State) (w : Nat) {k : Still} (hk : s.still = k) : (bodyTake q s w).Still k := by
  unfold bodyTake
  subst hk
  repeat' first
    | with_reducible rfl
    | simp only [act_halt, act_wait, act_go, afterRecord, waitFor, State.poisonDone, State.updQueue_still, Act.done, State.updCore_still]
    | dsimp only
    | (refine still_foldl ?_ ?_)
    | (refine still_foldl_fst ?_ ?_)
    | (intro _)
    | split

theorem bodyBrel_still (q : QRef) (s : State) (w : Nat) {k : Still} (hk : s.still = k) : (bodyBrel q s w).Still k := by
  unfold bodyBrel
  subst hk
  repeat' first
    | with_reducible rfl
    | simp only [act_halt, act_wait, act_go, afterRecord, Act.done, State.updCore_still]
    | dsimp only
    | (refine still_foldl ?_ ?_)
    | (refine still_foldl_fst ?_ ?_)
    | (intro _)
    | split

theorem State.w128Add_of {s : State} {k i : Nat} {g : GStore} {p : Nat} {x : L640} {t : State} {b : Bool} (h : s.w128Add k i g p x = .ok (t, b)) :
    t.still = s.still := by
  unfold State.w128Add at h
  dsimp only at h
  split at h; · cases h
  split at h; · cases h
  split at h; · cases h
  split at h; · cases h
  split at h
  · cases h; simp only [State.memWriteNat_still]
  · split at h
    · cases h; simp only [State.memWriteNat_still]
    · split at h
      · cases h
      · split at h
        · cases h
        · cases h; simp only [State.memWriteNat_still, State.updCtx_still]

theorem State.l640Add_of {s : State} {k va : Nat} {x : L640} {t : State} {b : Bool} (h : s.l640Add k va x = .ok (t, b)) : t.still = s.still := by
  unfold State.l640Add at h
  split at h
  · cases h
  · cases h; exact State.memWriteNat_still ..

theorem State.eauApply_of {s : State} {k va : Nat} {w : Bool} {x : L640} {t : State} {b : Bool} (h : s.eauApply k va w x = .ok (t, b)) :
    t.still = s.still := by
  unfold State.eauApply at h
  dsimp only at h
  split at h
  · cases h
  · split at h
    · split at h
      · exact State.w128Add_of h
      · cases h
    · exact State.l640Add_of h

theorem State.countAdd_still (s : State) (k va : Nat) (spilled : Bool) : (State.countAdd s k va spilled).still = s.still := by
  unfold State.countAdd
  simp only [State.count_still, apply_ite State.still, ite_self]

theorem State.putAdds_still (s : State) (q : QRef) (id k : Nat) (ep : Option Nat) (l : List (Nat × Bool × L640)) : (State.putAdds s q id k ep l).still = s.still := by
  unfold State.putAdds
  repeat' first
    | with_reducible rfl
    | simp only [↓still_mk, still_eta, State.sendMsg_still]
    | dsimp only
    | (refine still_foldl ?_ ?_)
    | (refine still_foldl_fst ?_ ?_)
    | (intro _)
    | split

theorem State.segFolded_still (s : State) (c t : Nat) (j : ArrayJob) : (State.segFolded s c t j).still = s.still := by
  unfold State.segFolded
  simp only [State.updCore_still, State.countDie_still]

theorem State.segDone_still (s : State) (c : Nat) (j : ArrayJob) : (State.segDone s c j).still = s.still := State.segFolded_still ..

theorem State.attnDone_still (s : State) (c : Nat) (o : AttnOps) (j : ArrayJob) : (State.attnDone s c o j).still = s.still := by
  unfold State.attnDone
  simp only [State.setCore_still, State.countDie_still, apply_ite State.still, ite_self]

theorem State.mmSegment_still (s : State) (c : Nat) (j : ArrayJob) (k0 len : Nat) : (State.mmSegment s c j k0 len).still = s.still := by
  unfold State.mmSegment
  repeat' first
    | with_reducible rfl
    | simp only [State.updCore_still, State.setCore_still, State.countDie_still, State.segDone_still]
    | dsimp only
    | (refine still_foldl ?_ ?_)
    | (refine still_foldl_fst ?_ ?_)
    | (intro _)
    | split

theorem State.mmReplay_still (s : State) (c : Nat) (j : ArrayJob) (k0 len : Nat) (p : Plan) : (State.mmReplay s c j k0 len p).still = s.still := by
  unfold State.mmReplay
  repeat' first
    | with_reducible rfl
    | simp only [State.updCore_still, State.setCore_still, State.countDie_still, State.segDone_still]
    | dsimp only
    | (refine still_foldl ?_ ?_)
    | (refine still_foldl_fst ?_ ?_)
    | (intro _)
    | split

theorem State.attnFold_still (s : State) (c : Nat) (o : AttnOps) (j : ArrayJob) (k0 len : Nat) : (State.attnFold s c o j k0 len).still = s.still := by
  unfold State.attnFold
  repeat' first
    | with_reducible rfl
    | simp only [State.setCore_still, State.countDie_still, State.segFolded_still, State.attnDone_still]
    | dsimp only
    | (refine still_foldl ?_ ?_)
    | (refine still_foldl_fst ?_ ?_)
    | (intro _)
    | split

theorem State.attnSegment_still (s : State) (c : Nat) (o : AttnOps) (j : ArrayJob) (k0 len : Nat) : (State.attnSegment s c o j k0 len).still = s.still := by
  unfold State.attnSegment
  repeat' first
    | with_reducible rfl
    | simp only [State.updCore_still, State.setCore_still, State.countDie_still, State.segDone_still, State.attnFold_still]
    | dsimp only
    | (refine still_foldl ?_ ?_)
    | (refine still_foldl_fst ?_ ?_)
    | (intro _)
    | split

theorem State.attnReplay_still (s : State) (c : Nat) (o : AttnOps) (j : ArrayJob) (k0 len : Nat) (p : Plan) : (State.attnReplay s c o j k0 len p).still = s.still := by
  unfold State.attnReplay
  repeat' first
    | with_reducible rfl
    | simp only [State.updCore_still, State.setCore_still, State.countDie_still, State.segDone_still, State.attnFold_still]
    | dsimp only
    | (refine still_foldl ?_ ?_)
    | (refine still_foldl_fst ?_ ?_)
    | (intro _)
    | split

theorem State.segmentEnd_still (s : State) (c : Nat) : (State.segmentEnd s c).still = s.still := by
  unfold State.segmentEnd
  repeat' first
    | with_reducible rfl
    | simp only [State.mmSegment_still, State.attnSegment_still]
    | dsimp only
    | (refine still_foldl ?_ ?_)
    | (refine still_foldl_fst ?_ ?_)
    | (intro _)
    | split

theorem State.replayPassEnd_still (s : State) (c : Nat) : (State.replayPassEnd s c).still = s.still := by
  unfold State.replayPassEnd
  repeat' first
    | with_reducible rfl
    | simp only [State.mmReplay_still, State.attnReplay_still]
    | dsimp only
    | (refine still_foldl ?_ ?_)
    | (refine still_foldl_fst ?_ ?_)
    | (intro _)
    | split

theorem State.evidence_still (s : State) (k : Nat) (ep : Option Nat) (bad : Bool) : (State.evidence s k ep bad).still = s.still := by
  unfold State.evidence
  repeat' first
    | with_reducible rfl
    | simp only [State.updEpoch_still]
    | dsimp only
    | (refine still_foldl ?_ ?_)
    | (refine still_foldl_fst ?_ ?_)
    | (intro _)
    | split

theorem State.mmRun_still (s : State) (q : QRef) (o : MmOps) : (State.mmRun s q o).still = s.still := by
  unfold State.mmRun
  simp only [State.evidence_still, State.updCore_still]

theorem bodyMm_still (q : QRef) (s : State) (w : Nat) {k : Still} (hk : s.still = k) : (bodyMm q s w).Still k := by
  subst hk
  simp only [bodyMm, Act.check]
  repeat' first
    | exact hc60_still _ _ _ rfl
    | split
    | exact State.mmRun_still ..
    | exact State.attnRun_still ..
    | rfl

theorem State.attnRun_still (s : State) (q : QRef) (o : AttnOps) : (State.attnRun s q o).still = s.still := by
  unfold State.attnRun
  repeat' first
    | with_reducible rfl
    | simp only [State.evidence_still, State.updEpoch_still, State.setCore_still, State.attnDone_still]
    | dsimp only
    | (refine still_foldl ?_ ?_)
    | (refine still_foldl_fst ?_ ?_)
    | (intro _)
    | split

theorem bodyAttn_still (q : QRef) (s : State) (w : Nat) {k : Still} (hk : s.still = k) : (bodyAttn q s w).Still k := by
  subst hk
  simp only [bodyAttn, Act.check]
  repeat' first
    | exact hc60_still _ _ _ rfl
    | split
    | exact State.mmRun_still ..
    | exact State.attnRun_still ..
    | rfl

theorem State.countCrush_still (s : State) (k : Nat) (ep : Option Nat) (t cr sa : Nat) : (State.countCrush s k ep t cr sa).still = s.still := by
  unfold State.countCrush
  simp only [State.updCensus_still, apply_ite State.still, ite_self]

theorem State.retireCore_still (s : State) (c : Nat) : (State.retireCore s c).still = s.still := by
  unfold State.retireCore
  repeat' first
    | with_reducible rfl
    | simp only [↓still_mk, still_eta, State.logFault_still, State.enterSafeHold_still, State.swapCore_still]
    | dsimp only
    | (refine still_foldl ?_ ?_)
    | (refine still_foldl_fst ?_ ?_)
    | (intro _)
    | split

theorem State.retireDue_still (s : State) (k : Nat) : (State.retireDue s k).still = s.still := by
  unfold State.retireDue
  repeat' first
    | with_reducible rfl
    | simp only [State.squashAllVote_still, State.retireCore_still]
    | dsimp only
    | (refine still_foldl ?_ ?_)
    | (refine still_foldl_fst ?_ ?_)
    | (intro _)
    | split

theorem State.retireIdle_still (s : State) : (State.retireIdle s).still = s.still := by
  unfold State.retireIdle
  repeat' first
    | with_reducible rfl
    | simp only [State.retireCore_still]
    | dsimp only
    | (refine still_foldl ?_ ?_)
    | (refine still_foldl_fst ?_ ?_)
    | (intro _)

theorem State.runOn_still (s : State) (k : Nat) : (State.runOn s k).still = s.still := by
  unfold State.runOn
  simp only [State.resumeEpochs_still, apply_ite State.still, ite_self]

theorem State.pairTwins_still (s : State) (k : Nat) : (State.pairTwins s k).still = s.still := by
  unfold State.pairTwins
  repeat' first
    | with_reducible rfl
    | simp only [↓still_mk, still_eta, State.updCtx_still, State.setCore_still]
    | dsimp only
    | (refine still_foldl ?_ ?_)
    | (refine still_foldl_fst ?_ ?_)
    | (intro _)
    | split

theorem State.applySpare_still (s : State) (e : SpareUnit × Bool) : (State.applySpare s e).still = s.still := by
  unfold State.applySpare
  repeat' first
    | with_reducible rfl
    | simp only [↓still_mk, still_eta, State.count_still, State.event_still]
    | dsimp only
    | (refine still_foldl ?_ ?_)
    | (refine still_foldl_fst ?_ ?_)
    | (intro _)
    | split

theorem State.spareDue_still (s : State) : (State.spareDue s).still = s.still := by
  unfold State.spareDue
  repeat' first
    | with_reducible rfl
    | simp only [↓still_mk, still_eta, State.applySpare_still]
    | dsimp only
    | (refine still_foldl ?_ ?_)
    | (refine still_foldl_fst ?_ ?_)
    | (intro _)
    | split

theorem State.stepBoundary_still (s : State) (k : Nat) : (State.stepBoundary s k).still = s.still := by
  unfold State.stepBoundary
  repeat' first
    | with_reducible rfl
    | simp only [↓still_mk, still_eta, State.releaseHeld_still, State.retireDue_still, State.pairTwins_still, State.spareDue_still]
    | dsimp only
    | (refine still_foldl ?_ ?_)
    | (refine still_foldl_fst ?_ ?_)
    | (intro _)
    | split

theorem State.logCore_still (s : State) (cls sub action core : Nat) (k : Option Nat) : (State.logCore s cls sub action core k).still = s.still := by
  unfold State.logCore
  simp only [↓still_mk, still_eta, State.logFault_still]

theorem State.doubt_still (s : State) (core : Nat) (k : Option Nat) : (State.doubt s core k).still = s.still := by
  unfold State.doubt
  simp only [State.logFault_still, State.enterSafeHold_still, apply_ite State.still, ite_self]

theorem State.holdFor_of {s : State} {q : QRef} {c : RetFind} {b : Bool} {t : State} {g : Trigger} (h : s.holdFor q c b = .replay t g) : t.still = s.still := by
  unfold State.holdFor at h
  dsimp only at h
  split at h
  · cases h
  · split at h
    · cases h; rfl
    · split at h
      · split at h
        · cases h
        · cases h; exact State.updEpoch_still ..
      · split at h
        · cases h; exact State.updEpoch_still ..
        · cases h
      · cases h; rfl

theorem State.retFinish_still (s : State) (q : QRef) (o : RetOps) (out : List (List Fp)) (cr sa : Nat) : (State.retFinish s q o out cr sa).still = s.still := by
  unfold State.retFinish
  simp only [State.setCore_still, State.updQueue_still, State.countCrush_still]

theorem State.retStore_still (s : State) (q : QRef) (o : RetOps) : (State.retStore s q o).still = s.still := by
  unfold State.retStore
  simp only [State.setCore_still, State.retFinish_still]

theorem State.retireTile_still (s : State) (q : QRef) (n : Nat) : (State.retireTile s q n).still = s.still := by
  unfold State.retireTile
  simp only [State.updCore_still]

theorem State.takeShares_still (s : State) (q : QRef) (n : Nat) (l : List Share) : (State.takeShares s q n l).still = s.still :=
  still_foldl (fun _ _ => State.updCore_still ..) rfl

theorem State.takeAttn_still (s : State) (q : QRef) (n : Nat) (l : List Share) : (State.takeAttn s q n l).still = s.still :=
  still_foldl (fun _ _ => State.updCore_still ..) rfl

theorem bodyRet_still (check : RetCheck) (forced : Bool) (q : QRef) (s : State) (w : Nat) {k : Still} (hk : s.still = k) : (bodyRet check forced q s w).Still k := by
  unfold bodyRet
  subst hk
  cases forced <;> simp only [Bool.false_eq_true, if_false, if_true]
  repeat' first
    | with_reducible rfl
    | simp only [act_halt, act_wait, act_stopped, act_go, Act.check, hc60_still, State.logFault_still, State.enterSafeHold_still, Act.done, State.retStore_still, State.putAdds_still, State.retireTile_still, State.takeShares_still]
    | dsimp only
    | (refine still_foldl ?_ ?_)
    | (refine still_foldl_fst ?_ ?_)
    | (intro _)
    | split
    | (refine (State.holdFor_of ‹_›).trans ?_)

theorem State.normStore_still (s : State) (q : QRef) (o : RetOps) : (State.normStore s q o).still = s.still := by
  unfold State.normStore
  simp only [State.setCore_still, State.updQueue_still]

theorem State.retireAttn_still (s : State) (q : QRef) : (State.retireAttn s q).still = s.still := by
  unfold State.retireAttn
  simp only [State.retireTile_still]

theorem bodyNorm_still (check : RetCheck) (forced : Bool) (q : QRef) (s : State) (w : Nat) {k : Still} (hk : s.still = k) : (bodyNorm check forced q s w).Still k := by
  unfold bodyNorm
  subst hk
  cases forced <;> simp only [Bool.false_eq_true, if_false, if_true]
  repeat' first
    | with_reducible rfl
    | simp only [act_halt, act_wait, act_stopped, act_go, Act.check, hc60_still, State.logFault_still, State.enterSafeHold_still, Act.done, State.normStore_still, State.retireAttn_still, State.takeAttn_still]
    | dsimp only
    | (refine still_foldl ?_ ?_)
    | (refine still_foldl_fst ?_ ?_)
    | (intro _)
    | split
    | (refine (State.holdFor_of ‹_›).trans ?_)

theorem State.srcEvidence_still (s : State) (q : QRef) (o : SrcOps) : (State.srcEvidence s q o).still = s.still := by
  unfold State.srcEvidence
  simp only [State.evidence_still]

theorem bodyNsq_still (q : QRef) (s : State) (w : Nat) {k : Still} (hk : s.still = k) : (bodyNsq q s w).Still k := by
  unfold bodyNsq
  subst hk
  repeat' first
    | with_reducible rfl
    | simp only [act_halt, act_go, Act.check, hc60_still, State.srcEvidence_still, State.putAdds_still, State.updCore_still, Act.done, State.updQueue_still]
    | dsimp only
    | (refine still_foldl ?_ ?_)
    | (refine still_foldl_fst ?_ ?_)
    | (intro _)
    | split

theorem State.endReplay_still (s : State) (q : QRef) : (State.endReplay s q).still = s.still := by
  unfold State.endReplay
  repeat' first
    | with_reducible rfl
    | simp only [bodyRet_still, bodyNorm_still]
    | (refine State.resume_still _ _ _ _ ?_)
    | dsimp only
    | (refine still_foldl ?_ ?_)
    | (refine still_foldl_fst ?_ ?_)
    | (intro _)
    | split

theorem State.markRepaired_still (s : State) (k : Nat) (ep : Option Nat) : (State.markRepaired s k ep).still = s.still := by
  unfold State.markRepaired
  split <;> simp only [State.updEpoch_still]

theorem State.countReplay_still (s : State) (k : Nat) (ep : Option Nat) : (State.countReplay s k ep).still = s.still := by
  unfold State.countReplay
  split <;> simp only [State.updEpoch_still]

theorem act_check_of {s : State} {c : Option (Nat × Nat × Nat)} {a : Act} {k : Still} (hs : s.still = k) (ha : a.Still k) : (Act.check s c a).Still k := by
  unfold Act.check
  split
  · exact hs
  · exact ha

theorem act_ite_of {p : Prop} [Decidable p] {a b : Act} {k : Still} (ha : a.Still k) (hb : b.Still k) : (if p then a else b).Still k := by
  split
  · exact ha
  · exact hb

theorem act_halt_of {s : State} {a b c : Nat} {k : Still} (h : s.still = k) : Act.Still k (.halt s a b c) := h

theorem loadDesc_still (q : QRef) (s : State) (w : Nat) (f : Nat → BitVec 512 → Act) {k : Still} (hk : s.still = k)
    (hf : ∀ a d, (f a d).Still k) : (loadDesc q s w f).Still k := by
  unfold loadDesc
  extract_lets c a d
  clear_value d
  exact act_check_of hk (act_ite_of trivial (act_ite_of (hc60_still _ _ _ hk) (act_ite_of (act_halt_of hk) (hf _ _))))

theorem bodyDarm_still (q : QRef) (s : State) (w : Nat) {k : Still} (hk : s.still = k) : (bodyDarm q s w).Still k := by
  unfold bodyDarm
  subst hk
  dsimp only
  split
  · rfl
  · exact loadDesc_still _ _ _ _ rfl fun a d => State.updCore_still ..

theorem bodyDrearm_still (q : QRef) (s : State) (w : Nat) {k : Still} (hk : s.still = k) : (bodyDrearm q s w).Still k := by
  unfold bodyDrearm
  subst hk
  dsimp only
  split
  · rfl
  · exact loadDesc_still _ _ _ _ rfl fun a d => State.updCore_still ..

theorem bodyDgo_still (q : QRef) (s : State) (w : Nat) {k : Still} (hk : s.still = k) : (bodyDgo q s w).Still k := by
  unfold bodyDgo
  subst hk
  repeat' first
    | with_reducible rfl
    | simp only [act_notYet, act_halt, act_wait, act_go, State.updCore_still]
    | dsimp only
    | (refine still_foldl ?_ ?_)
    | (refine still_foldl_fst ?_ ?_)
    | (intro _)
    | split

theorem bodyPref_still (q : QRef) (s : State) (w : Nat) {k : Still} (hk : s.still = k) : (bodyPref q s w).Still k := by
  unfold bodyPref
  subst hk
  repeat' first
    | with_reducible rfl
    | simp only [act_notYet, act_halt, act_wait, act_go, State.updCore_still]
    | dsimp only
    | (refine still_foldl ?_ ?_)
    | (refine still_foldl_fst ?_ ?_)
    | (intro _)
    | split

theorem State.settleSlot_still (s : State) (c ds : Nat) : (State.settleSlot s c ds).still = s.still := by
  unfold State.settleSlot
  repeat' first
    | with_reducible rfl
    | simp only [State.updCore_still]
    | dsimp only
    | (refine still_foldl ?_ ?_)
    | (refine still_foldl_fst ?_ ?_)
    | (intro _)
    | split

theorem State.haltStream_still (s : State) (core : CoreId) (ds hc detail addr : Nat) : (State.haltStream s core ds hc detail addr).still = s.still := by
  unfold State.haltStream
  split <;> simp only [State.haltIssued_still, State.haltQ_still]

theorem State.cancelAllPrefs_still (s : State) (k : Nat) : (State.cancelAllPrefs s k).still = s.still := by
  unfold State.cancelAllPrefs
  repeat' first
    | with_reducible rfl
    | simp only [State.cancelPrefs_still, State.cancelSaved_still]
    | dsimp only
    | (refine still_foldl ?_ ?_)
    | (refine still_foldl_fst ?_ ?_)
    | (intro _)

theorem State.abortQueues_still (s : State) (k d : Nat) : (State.abortQueues s k d).still = s.still := by
  unfold State.abortQueues
  repeat' first
    | with_reducible rfl
    | simp only [State.eachQueue, State.haltRaw_still, State.updCtx_still]
    | dsimp only
    | (refine still_foldl ?_ ?_)
    | (refine still_foldl_fst ?_ ?_)
    | (intro _)
    | split

theorem State.taskAbort_still (s : State) (core : CoreId) (ds addr : Nat) : (State.taskAbort s core ds addr).still = s.still := by
  unfold State.taskAbort
  repeat' first
    | with_reducible rfl
    | simp only [State.haltStream_still, State.event_still, State.abortQueues_still, State.cancelAllPrefs_still, State.squashAllVote_still]
    | dsimp only
    | (refine still_foldl ?_ ?_)
    | (refine still_foldl_fst ?_ ?_)
    | (intro _)
    | split

theorem State.mapPage_of {s : State} {k va : Nat} {t : State} (h : s.mapPage k va = some t) : t.still = s.still := by
  unfold State.mapPage at h
  dsimp only at h
  split at h
  · cases h
  · split at h
    · cases h; rfl
    · split at h
      · cases h
      · cases h; exact State.updCtx_still ..

theorem State.pageFault_still (s : State) (core : CoreId) (k ds addr : Nat) : (State.pageFault s core k ds addr).still = s.still := by
  unfold State.pageFault
  simp only [State.taskAbort_still, State.updCore_still, State.countDie_still, apply_ite State.still, ite_self]

theorem State.sendOut_still (s : State) (k : Nat) (w : RWin) (epoch : Option Nat) (m : CMsg) : (State.sendOut s k w epoch m).still = s.still := by
  unfold State.sendOut
  repeat' first
    | with_reducible rfl
    | simp only [State.updEpoch_still, State.sendMsg_still]
    | dsimp only
    | (refine still_foldl ?_ ?_)
    | (refine still_foldl_fst ?_ ?_)
    | (intro _)
    | split

theorem State.putXfer_still (s : State) (c k ds : Nat) (x : Desc) (slot : DSlot) (r : ChunkRun) (n : NextXfer) : (State.putXfer s c k ds x slot r n).still = s.still := by
  unfold State.putXfer
  repeat' first
    | with_reducible rfl
    | simp only [State.updCore_still, State.sendOut_still]
    | dsimp only
    | (refine still_foldl ?_ ?_)
    | (refine still_foldl_fst ?_ ?_)
    | (intro _)
    | split

theorem State.memWriteIn_still (s : State) (k : Nat) (ep : Option Nat) (a : Nat) (bs : List Byte) : (State.memWriteIn s k ep a bs).still = s.still := by
  unfold State.memWriteIn
  repeat' first
    | with_reducible rfl
    | simp only [State.memWrite_still, State.updEpoch_still]
    | dsimp only
    | (refine still_foldl ?_ ?_)
    | (refine still_foldl_fst ?_ ?_)
    | (intro _)
    | split

theorem State.noteWrite_still (s : State) (k a n : Nat) : (State.noteWrite s k a n).still = s.still := by
  unfold State.noteWrite
  simp only [State.updCtx_still]

theorem State.moveXfer_still (s : State) (c k : Nat) (x : Desc) (ep : Option Nat) (chunk : Nat) (f : Xfer) : (State.moveXfer s c k x ep chunk f).still = s.still := by
  unfold State.moveXfer
  simp only [State.memWriteIn_still, State.noteWrite_still, State.memWrite_still, State.updCore_still, apply_ite State.still, ite_self]

theorem State.arriveAt_still (s : State) (k : Nat) (w : RWin) (epoch : Option Nat) : (State.arriveAt s k w epoch).still = s.still := by
  unfold State.arriveAt
  repeat' first
    | with_reducible rfl
    | simp only [State.applyAdv_still]
    | dsimp only
    | (refine still_foldl ?_ ?_)
    | (refine still_foldl_fst ?_ ?_)
    | (intro _)
    | split

theorem State.arrived_still (s : State) (k : Nat) (x : Desc) (r : ChunkRun) (f : Xfer) : (State.arrived s k x r f).still = s.still := by
  unfold State.arrived
  repeat' first
    | with_reducible rfl
    | simp only [State.arriveAt_still]
    | dsimp only
    | (refine still_foldl ?_ ?_)
    | (refine still_foldl_fst ?_ ?_)
    | (intro _)
    | split

theorem State.endXfer_still (s : State) (c k ds : Nat) (f : Xfer) : (State.endXfer s c k ds f).still = s.still := by
  unfold State.endXfer
  repeat' first
    | with_reducible rfl
    | simp only [State.updCore_still, State.arrived_still, State.countDie_still, State.settleSlot_still]
    | dsimp only
    | (refine still_foldl ?_ ?_)
    | (refine still_foldl_fst ?_ ?_)
    | (intro _)
    | split

theorem State.setOp_still (s : State) (k op n : Nat) (o : OpRun) : (State.setOp s k op n o).still = s.still := by
  unfold State.setOp
  simp only [State.updCtx_still]

theorem State.updOp_still (s : State) (k op n : Nat) (f : OpRun → OpRun) : (State.updOp s k op n f).still = s.still := by
  unfold State.updOp
  simp only [State.setOp_still]

theorem State.clearElem_still (s : State) (k i : Nat) (g : GStore) (p : Nat) : (State.clearElem s k i g p).still = s.still := by
  unfold State.clearElem
  simp only [State.updCtx_still, State.memWriteNat_still, apply_ite State.still, ite_self]

theorem State.putElem_of {s : State} {k a : Nat} {A : Option Int} {x : L640} {t : State} (h : s.putElem k a A x = .ok t) : t.still = s.still := by
  unfold State.putElem at h
  dsimp only at h
  split at h
  · cases h; rfl
  · split at h
    · cases h
      refine (State.w128Add_of ‹_›).trans ?_
      split
      · split
        · exact (State.memWriteNat_still ..).trans (State.clearElem_still ..)
        · exact State.clearElem_still ..
      · exact State.clearElem_still ..
    · cases h

theorem State.writeResult_fst (s : State) (k : Nat) (r : OpRec) (g : CGroup) (n j : Nat) (sg : Seg) : (State.writeResult s k r g n j sg).1.still = s.still := by
  unfold State.writeResult
  dsimp only
  split
  · rfl
  · refine still_foldl_fst ?_ ?_
    · rintro ⟨s, bad⟩ ⟨i, x⟩
      dsimp only
      split
      · exact State.memWriteNat_still ..
      · split
        · exact State.putElem_of ‹_›
        · rfl
    · dsimp only
      split
      · rfl
      · exact State.updCtx_still ..

theorem State.writeResult_of {s : State} {k : Nat} {r : OpRec} {g : CGroup} {n j : Nat} {sg : Seg} {t : State} {c : EndAdd} (h : State.writeResult s k r g n j sg = (t, c)) : t.still = s.still := by
  have := State.writeResult_fst s k r g n j sg
  rw [h] at this
  exact this

theorem State.rewriteAnch_still (s : State) (k : Nat) (r : OpRec) (l : List (Nat × Option Int)) : (State.rewriteAnch s k r l).still = s.still := by
  unfold State.rewriteAnch
  repeat' first
    | with_reducible rfl
    | simp only [State.memWriteNat_still]
    | dsimp only
    | (refine still_foldl ?_ ?_)
    | (refine still_foldl_fst ?_ ?_)
    | (intro _)
    | split

theorem State.endpointAdv_still (s : State) (k mp : Nat) (ep : Option Nat) : (State.endpointAdv s k mp ep).still = s.still := by
  unfold State.endpointAdv
  simp only [State.applyAdv_still, apply_ite State.still, ite_self]

theorem State.completeOp_still (s : State) (k op : Nat) (r : OpRec) (g : CGroup) (n : Nat) : (State.completeOp s k op r g n).still = s.still := by
  unfold State.completeOp
  simp only [State.memWriteNat_still, State.setOp_still, State.updEpoch_still, State.updCtx_still, State.poisonPmp_still, State.endpointAdv_still, apply_ite State.still, ite_self]

theorem State.partDone_still (s : State) (k op : Nat) (r : OpRec) (g : CGroup) (n j total : Nat) (f : OpRun → OpRun) : (State.partDone s k op r g n j total f).still = s.still := by
  unfold State.partDone
  simp only [State.setOp_still, State.completeOp_still, apply_ite State.still, ite_self]

theorem State.sendSeg_still (s : State) (k op : Nat) (r : OpRec) (g : CGroup) (n j mtype : Nat) (sg : Seg) : (State.sendSeg s k op r g n j mtype sg).still = s.still := by
  unfold State.sendSeg
  repeat' first
    | with_reducible rfl
    | simp only [State.sendMsg_still]
    | dsimp only
    | (refine still_foldl ?_ ?_)
    | (refine still_foldl_fst ?_ ?_)
    | (intro _)

theorem State.endpointPoison_still (s : State) (k n addr : Nat) : (State.endpointPoison s k n addr).still = s.still := by
  unfold State.endpointPoison
  simp only [State.logFault_still, State.strike_still]

theorem State.opWrite_still {s : State} {k : Nat} {r : OpRec} {n : Nat} {f : State → State} (h : ∀ u : State, (f u).still = u.still) :
    (s.opWrite k r n f).still = s.still := by
  unfold State.opWrite
  split
  · exact State.endpointPoison_still ..
  · exact h s

theorem State.ownerResult_still (s : State) (k op : Nat) (r : OpRec) (g : CGroup) (n j : Nat) (sg : Seg) : (State.ownerResult s k op r g n j sg).still = s.still := by
  unfold State.ownerResult
  refine State.opWrite_still fun u => ?_
  rcases hu : u.writeResult k r g n j sg with ⟨w, x⟩
  dsimp only
  split
  · exact (State.endpointPoison_still ..).trans (State.writeResult_of hu)
  · simp only [State.rewriteAnch_still, State.sendSeg_still, State.partDone_still, apply_ite State.still, ite_self, State.writeResult_of hu]

theorem State.runSeg_still (s : State) (k op : Nat) (r : OpRec) (g : CGroup) (n j fuel : Nat) (sg : Seg) :
    (s.runSeg k op r g n j fuel sg).still = s.still := by
  induction fuel generalizing s sg with
  | zero => rfl
  | succ f ih =>
    rw [State.runSeg]
    simp only [apply_ite State.still, State.ownerResult_still, State.sendSeg_still, ih, State.count_still, ite_self]

theorem State.runWaiting_still (s : State) (k op : Nat) (r : OpRec) (g : CGroup) (n : Nat) : (State.runWaiting s k op r g n).still = s.still := by
  unfold State.runWaiting
  dsimp only
  split
  · exact State.endpointPoison_still ..
  · exact still_foldl (fun _ _ => State.runSeg_still ..) (State.setOp_still ..)

theorem State.addBits_fst (s : State) (k : Nat) (r : OpRec) (n first : Nat) (bs : List (BitVec 32 × BitVec 128)) : (State.addBits s k r n first bs).1.still = s.still := by
  unfold State.addBits
  refine still_foldl_fst ?_ rfl
  rintro ⟨s, bad⟩ ⟨b, q⟩
  refine still_foldl_fst ?_ rfl
  rintro ⟨s, bad⟩ i
  dsimp only
  split
  · rfl
  · split
    · exact State.w128Add_of ‹_›
    · rfl

theorem State.addBits_of {s : State} {k : Nat} {r : OpRec} {n first : Nat} {bs : List (BitVec 32 × BitVec 128)} {t : State} {c : EndAdd} (h : State.addBits s k r n first bs = (t, c)) : t.still = s.still := by
  have := State.addBits_fst s k r n first bs
  rw [h] at this
  exact this

theorem State.sendBits_still (s : State) (k op : Nat) (r : OpRec) (g : CGroup) (n : Nat) : (State.sendBits s k op r g n).still = s.still := by
  unfold State.sendBits
  refine State.opWrite_still fun s => ?_
  extract_lets rb wb blocks t bs
  have ht : t.still = s.still := by
    refine still_foldl ?_ rfl
    rintro s ⟨b, q⟩
    refine still_foldl ?_ rfl
    rintro s ⟨e, i⟩
    exact State.memWriteNat_still ..
  rcases hu : t.addBits k r n 0 bs with ⟨u, bad⟩
  dsimp only
  split
  · exact (State.endpointPoison_still ..).trans ((State.addBits_of hu).trans ht)
  refine (State.partDone_still ..).trans (Eq.trans ?_ ((State.addBits_of hu).trans ht))
  split
  · rfl
  · refine still_foldl ?_ rfl
    rintro s ⟨p, i⟩
    exact State.sendMsg_still ..

theorem State.sendNoBits_still (s : State) (k op : Nat) (r : OpRec) (g : CGroup) (n : Nat) : (State.sendNoBits s k op r g n).still = s.still := by
  unfold State.sendNoBits
  simp only [State.sendMsg_still, State.partDone_still, apply_ite State.still, ite_self]

theorem State.decideStill (s : State) (k op : Nat) (r : OpRec) (g : CGroup) (n : Nat) (inn : Bool) : (State.decide_ s k op r g n inn).still = s.still := by
  unfold State.decide_
  repeat' first
    | with_reducible rfl
    | simp only [State.updOp_still, State.endpointPoison_still, State.sendBits_still, State.sendNoBits_still, State.runSeg_still, State.runWaiting_still]
    | dsimp only
    | (refine still_foldl ?_ ?_)
    | (refine still_foldl_fst ?_ ?_)
    | (intro _)
    | split

theorem State.onTrigger_still (s : State) (k op : Nat) : (State.onTrigger s k op).still = s.still := by
  unfold State.onTrigger
  repeat' first
    | with_reducible rfl
    | simp only [State.decideStill, State.sendAll_still, State.setOp_still, State.endpointPoison_still]
    | dsimp only
    | (refine still_foldl ?_ ?_)
    | (refine still_foldl_fst ?_ ?_)
    | (intro _)
    | split

theorem State.onDeadline_still (s : State) (k op : Nat) : (State.onDeadline s k op).still = s.still := by
  unfold State.onDeadline
  repeat' first
    | with_reducible rfl
    | simp only [State.decideStill, State.count_still, State.endpointPoison_still]
    | dsimp only
    | (refine still_foldl ?_ ?_)
    | (refine still_foldl_fst ?_ ?_)
    | (intro _)
    | split

theorem State.carryOut_still (s : State) (k : Nat) (r : OpRec) (n : Nat) : (State.carryOut s k r n).still = s.still := by
  unfold State.carryOut
  dsimp only
  split
  · exact still_foldl (fun _ _ => State.memWriteNat_still ..) rfl
  · refine still_foldl (fun t q => ?_) rfl
    refine (State.memWriteNat_still ..).trans ?_
    refine still_foldl_fst ?_ rfl
    rintro ⟨t, b⟩ ⟨x, i⟩
    simp only [apply_ite State.still, State.memWriteNat_still, ite_self]

theorem State.onLate_still (s : State) (k op : Nat) : (State.onLate s k op).still = s.still := by
  unfold State.onLate
  repeat' first
    | with_reducible rfl
    | simp only [State.count_still, State.updCtx_still, State.memWriteNat_still, State.updEpoch_still, State.updOp_still, State.endpointPoison_still, State.carryOut_still]
    | dsimp only
    | (refine still_foldl ?_ ?_)
    | (refine still_foldl_fst ?_ ?_)
    | (intro _)
    | split

theorem State.keepEarly_still (s : State) (k : Nat) (m : CMsg) : (State.keepEarly s k m).still = s.still := by
  unfold State.keepEarly
  simp only [State.updCtx_still]

theorem State.screen_of {s : State} {k : Nat} {m : CMsg} {ok : CGroup → Bool} {t : State} (h : s.screen k m ok = .done t) : t.still = s.still := by
  unfold State.screen at h
  dsimp only at h
  repeat' split at h
  all_goals first
    | contradiction
    | (injection h with h; rw [← h])
  all_goals first
    | exact State.count_still ..
    | exact State.keepEarly_still ..
    | skip
  all_goals
    repeat' split
    all_goals first
      | rfl
      | exact State.count_still ..
      | exact (State.strike_still ..).trans (State.count_still ..)

theorem State.onStart_still (s : State) (k : Nat) (m : CMsg) : (State.onStart s k m).still = s.still := by
  unfold State.onStart
  repeat' first
    | with_reducible rfl
    | simp only [State.count_still, State.updOp_still]
    | dsimp only
    | (refine still_foldl ?_ ?_)
    | (refine still_foldl_fst ?_ ?_)
    | (intro _)
    | split
    | (refine (State.screen_of ‹_›).trans ?_)

theorem State.onSeg_still (s : State) (k : Nat) (m : CMsg) : (State.onSeg s k m).still = s.still := by
  unfold State.onSeg
  repeat' first
    | with_reducible rfl
    | simp only [State.count_still, State.updOp_still, State.runWaiting_still]
    | dsimp only
    | (refine still_foldl ?_ ?_)
    | (refine still_foldl_fst ?_ ?_)
    | (intro _)
    | split
    | (refine (State.screen_of ‹_›).trans ?_)

theorem State.onBit_still (s : State) (k : Nat) (m : CMsg) : (State.onBit s k m).still = s.still := by
  unfold State.onBit
  split
  · exact State.screen_of ‹_›
  · split
    · exact State.count_still ..
    · rename_i g _ _ r _
      refine State.opWrite_still fun s => ?_
      have h : ∀ p : State × EndAdd, p.1.still = s.still →
          ∀ n op : Nat, (match p.2.poison with
            | some a => p.1.endpointPoison k n a
            | none =>
            let s := if p.2.bad then p.1.updOp k op n (fun o => { o with exhausted := true }) else p.1
            let s := if g.next = m.hdr.origin then s else s.sendMsg k m.hdr.group g.next { m with hdr := { m.hdr with sender := g.rank } }
            if m.hdr.endB then
              s.partDone k op r g n m.hdr.origin g.nmem fun o =>
                { o with contrib := o.contrib ||| m.contrib, taint := o.taint ||| m.taint, sumw := o.sumw + m.hdr.sumw }
            else s).still = s.still := by
        intro p hp n op
        split
        · exact (State.endpointPoison_still ..).trans hp
        · simp only [apply_ite State.still, State.partDone_still, State.sendMsg_still, State.updOp_still, ite_self, hp]
      refine h _ ?_ _ _
      split
      · exact State.addBits_fst ..
      · rfl

theorem State.takeRes_still (s : State) (k op : Nat) (r : OpRec) (g : CGroup) (n j : Nat) (ms : List CMsg) : (State.takeRes s k op r g n j ms).still = s.still := by
  unfold State.takeRes
  refine State.opWrite_still fun s => ?_
  dsimp only
  generalize hg : (if r.op = 1 then (s, {}) else State.writeResult _ _ _ _ _ _ _ : State × EndAdd) = p
  have hp : p.1.still = s.still := by
    rw [← hg]
    split
    · rfl
    · exact State.writeResult_fst ..
  rcases p with ⟨u, x⟩
  dsimp only at hp ⊢
  split
  · exact (State.endpointPoison_still ..).trans hp
  · refine (State.partDone_still ..).trans (Eq.trans ?_ hp)
    split
    · exact State.rewriteAnch_still ..
    · exact still_foldl (fun _ _ => State.sendMsg_still ..) (State.rewriteAnch_still ..)

theorem State.onRes_still (s : State) (k : Nat) (m : CMsg) : (State.onRes s k m).still = s.still := by
  unfold State.onRes
  repeat' first
    | with_reducible rfl
    | simp only [State.count_still, State.setOp_still, State.takeRes_still]
    | dsimp only
    | (refine still_foldl ?_ ?_)
    | (refine still_foldl_fst ?_ ?_)
    | (intro _)
    | split
    | (refine (State.screen_of ‹_›).trans ?_)

theorem State.sendRot_still (s : State) (k op : Nat) (r : OpRec) (g : CGroup) (n i : Nat) : (State.sendRot s k op r g n i).still = s.still := by
  unfold State.sendRot
  repeat' first
    | with_reducible rfl
    | simp only [State.endpointPoison_still, State.sendMsg_still, State.updOp_still]
    | dsimp only
    | (refine still_foldl ?_ ?_)
    | (refine still_foldl_fst ?_ ?_)
    | (intro _)
    | split

theorem State.rotate_still (s : State) (k op : Nat) (r : OpRec) (g : CGroup) (n fuel : Nat) : (State.rotate s k op r g n fuel).still = s.still := by
  induction fuel generalizing s with
  | zero => rfl
  | succ f ih =>
    unfold State.rotate
    simp only [ih, State.sendRot_still, State.sendMsg_still, State.updOp_still, apply_ite State.still, ite_self]

theorem State.onRotTrigger_still (s : State) (k op : Nat) : (State.onRotTrigger s k op).still = s.still := by
  unfold State.onRotTrigger
  repeat' first
    | with_reducible rfl
    | simp only [State.endpointPoison_still, State.rotate_still]
    | dsimp only
    | (refine still_foldl ?_ ?_)
    | (refine still_foldl_fst ?_ ?_)
    | (intro _)
    | split

theorem State.onRot_still (s : State) (k : Nat) (m : CMsg) : (State.onRot s k m).still = s.still := by
  unfold State.onRot
  repeat' first
    | with_reducible rfl
    | simp only [State.endpointPoison_still, State.count_still, State.memWrite_still, State.updOp_still, State.endpointAdv_still, State.rotate_still]
    | dsimp only
    | (refine still_foldl ?_ ?_)
    | (refine still_foldl_fst ?_ ?_)
    | (intro _)
    | split
    | (refine (State.screen_of ‹_›).trans ?_)

theorem State.onRel_still (s : State) (k : Nat) (m : CMsg) : (State.onRel s k m).still = s.still := by
  unfold State.onRel
  repeat' first
    | with_reducible rfl
    | simp only [State.count_still, State.updOp_still, State.rotate_still]
    | dsimp only
    | (refine still_foldl ?_ ?_)
    | (refine still_foldl_fst ?_ ?_)
    | (intro _)
    | split
    | (refine (State.screen_of ‹_›).trans ?_)

theorem State.ack_still (s : State) (k : Nat) (m : CMsg) (g : CGroup) (p : CPayload) : (State.ack s k m g p).still = s.still := by
  unfold State.ack
  simp only [State.sendMsg_still]

theorem State.onSend_still (s : State) (k : Nat) (m : CMsg) : (State.onSend s k m).still = s.still := by
  unfold State.onSend
  repeat' first
    | with_reducible rfl
    | simp only [State.endpointPoison_still, State.ack_still, State.memWrite_still, State.endpointAdv_still, State.count_still]
    | dsimp only
    | (refine still_foldl ?_ ?_)
    | (refine still_foldl_fst ?_ ?_)
    | (intro _)
    | split
    | (refine (State.screen_of ‹_›).trans ?_)

theorem State.applyRadds_of {s : State} {k : Nat} {w : RWin} {l : List (Nat × L640)} {t : State} {c : Option (Nat × Nat × Nat)}
    (h : s.applyRadds k w l = (t, c)) : t.still = s.still := by
  induction l generalizing s with
  | nil => cases h; rfl
  | cons a l ih =>
    obtain ⟨off, x⟩ := a
    simp only [State.applyRadds] at h
    split at h
    · exact (ih h).trans ((State.countAdd_still ..).trans (State.eauApply_of ‹_›))
    · split at h
      · injection h with h _
        rw [← h]
        exact State.logFault_still ..
      · injection h with h _
        rw [← h]

theorem State.onRadd_still (s : State) (k : Nat) (m : CMsg) : (State.onRadd s k m).still = s.still := by
  unfold State.onRadd
  repeat' first
    | with_reducible rfl
    | simp only [State.keepEarly_still, State.ack_still, State.count_still]
    | dsimp only
    | (refine still_foldl ?_ ?_)
    | (refine still_foldl_fst ?_ ?_)
    | (intro _)
    | split
    | (refine (State.screen_of ‹_›).trans ?_)
    | (refine (State.applyRadds_of ‹_›).trans ?_)

theorem State.ackSend_still (s : State) (ds : Nat) (core : CoreId) (f : Xfer) (hc addr : Nat) : (State.ackSend s ds core f hc addr).still = s.still := by
  unfold State.ackSend
  simp only [State.haltStream_still, State.updCore_still, apply_ite State.still, ite_self]

theorem State.ackRadd_still (s : State) (k : Nat) (a : EauAdd) (hc detail addr : Nat) : (State.ackRadd s k a hc detail addr).still = s.still := by
  unfold State.ackRadd
  repeat' first
    | with_reducible rfl
    | simp only [↓still_mk, still_eta, State.haltIssued_still]
    | dsimp only
    | (refine still_foldl ?_ ?_)
    | (refine still_foldl_fst ?_ ?_)
    | (intro _)
    | split

theorem State.onAck_still (s : State) (k : Nat) (m : CMsg) (hc detail addr : Nat) : (State.onAck s k m hc detail addr).still = s.still := by
  unfold State.onAck
  repeat' first
    | with_reducible rfl
    | simp only [State.count_still, State.ackRadd_still, State.ackSend_still]
    | dsimp only
    | (refine still_foldl ?_ ?_)
    | (refine still_foldl_fst ?_ ?_)
    | (intro _)
    | split
    | (refine (State.screen_of ‹_›).trans ?_)

theorem State.putOut_still (s : State) (q : QRef) (k n a : Nat) (bs : List Byte) : (State.putOut s q k n a bs).still = s.still := by
  unfold State.putOut
  repeat' first
    | with_reducible rfl
    | simp only [↓still_mk, still_eta, State.memWrite_still, State.sendOut_still, State.arriveAt_still]
    | dsimp only
    | (refine still_foldl ?_ ?_)
    | (refine still_foldl_fst ?_ ?_)
    | (intro _)
    | split

theorem State.putArr_still (s : State) (q : QRef) (k n a w : Nat) (l : List Nat) : (State.putArr s q k n a w l).still = s.still := by
  unfold State.putArr
  repeat' first
    | with_reducible rfl
    | simp only [State.putOut_still]
    | dsimp only
    | (refine still_foldl ?_ ?_)
    | (refine still_foldl_fst ?_ ?_)
    | (intro _)
    | split

theorem State.update_still (s : State) (q : QRef) (k n : Nat) (o : UOps) (h : Hyper) (c : Nat) : (State.update s q k n o h c).still = s.still := by
  unfold State.update
  repeat' first
    | with_reducible rfl
    | simp only [State.updEpoch_still, State.updCensus_still, State.evidence_still, State.putArr_still]
    | dsimp only
    | (refine still_foldl ?_ ?_)
    | (refine still_foldl_fst ?_ ?_)
    | (intro _)
    | split

theorem bodyU_still (op : Nat) (q : QRef) (s : State) (w : Nat) {k : Still} (hk : s.still = k) : (bodyU op q s w).Still k := by
  unfold bodyU
  subst hk
  repeat' first
    | with_reducible rfl
    | exact act_notYet _
    | simp only [act_halt, act_wait, act_go, Act.done, Act.check, hc60_still, State.update_still]
    | dsimp only
    | (refine still_foldl ?_ ?_)
    | (refine still_foldl_fst ?_ ?_)
    | (intro _)
    | split

theorem State.takeGen_still (s : State) (k n : Nat) : (State.takeGen s k n).still = s.still := by
  unfold State.takeGen
  simp only [State.count_still, State.event_still, State.updCtx_still, apply_ite State.still, ite_self]

theorem State.writeStage_still (s : State) (k : Nat) (st : Stage) : (State.writeStage s k st).still = s.still := by
  unfold State.writeStage
  repeat' first
    | with_reducible rfl
    | simp only [State.updCtx_still, State.hubWrite_still]
    | dsimp only
    | (refine still_foldl ?_ ?_)
    | (refine still_foldl_fst ?_ ?_)
    | (intro _)
    | split

theorem State.sendPartner_still (s : State) (k i : Nat) (st : Stage) : (State.sendPartner s k i st).still = s.still := by
  unfold State.sendPartner
  repeat' first
    | with_reducible rfl
    | simp only [State.route_fst]
    | dsimp only
    | (refine still_foldl ?_ ?_)
    | (refine still_foldl_fst ?_ ?_)
    | (intro _)
    | split

theorem State.sendCopy_still (s : State) (k t i : Nat) (st : Stage) : (State.sendCopy s k t i st).still = s.still := by
  unfold State.sendCopy
  repeat' first
    | with_reducible rfl
    | simp only [State.emit_still, State.sendPartner_still]
    | dsimp only
    | (refine still_foldl ?_ ?_)
    | (refine still_foldl_fst ?_ ?_)
    | (intro _)
    | split

theorem State.nextCopy_still (s : State) (k : Nat) : (State.nextCopy s k).still = s.still := by
  unfold State.nextCopy
  repeat' first
    | with_reducible rfl
    | simp only [State.updCtx_still, State.sendCopy_still]
    | dsimp only
    | (refine still_foldl ?_ ?_)
    | (refine still_foldl_fst ?_ ?_)
    | (intro _)
    | split

theorem State.endCopy_still (s : State) (k : Nat) (ok : Bool) : (State.endCopy s k ok).still = s.still := by
  unfold State.endCopy
  repeat' first
    | with_reducible rfl
    | simp only [State.updCtx_still, State.nextCopy_still]
    | dsimp only
    | (refine still_foldl ?_ ?_)
    | (refine still_foldl_fst ?_ ?_)
    | (intro _)
    | split

theorem State.raiseSample_still (s : State) (k : Nat) (n : Nat) : (State.raiseSample s k n).still = s.still := by
  induction n generalizing s with
  | zero => rfl
  | succ n ih =>
    unfold State.raiseSample
    simp only [ih, State.updCtx_still, State.serviceAdv_still, apply_ite State.still, ite_self]

theorem State.fillSlot_still (s : State) (k n w : Nat) : (State.fillSlot s k n w).still = s.still := by
  unfold State.fillSlot
  repeat' first
    | with_reducible rfl
    | simp only [State.hubWrite_still, State.hubWriteNat_still]
    | dsimp only
    | (refine still_foldl ?_ ?_)
    | (refine still_foldl_fst ?_ ?_)
    | (intro _)
    | split

theorem State.checkSlot_still (s : State) (k n : Nat) : (State.checkSlot s k n).still = s.still := by
  unfold State.checkSlot
  repeat' first
    | with_reducible rfl
    | simp only [State.fillSlot_still, State.updCtx_still, State.raiseSample_still]
    | dsimp only
    | (refine still_foldl ?_ ?_)
    | (refine still_foldl_fst ?_ ?_)
    | (intro _)
    | split

theorem State.putSample_still (s : State) (k n i off : Nat) (bs : List Byte) (fin void : Bool) : (State.putSample s k n i off bs fin void).still = s.still := by
  unfold State.putSample
  repeat' first
    | with_reducible rfl
    | simp only [State.updCtx_still, State.hubWrite_still, State.checkSlot_still]
    | dsimp only
    | (refine still_foldl ?_ ?_)
    | (refine still_foldl_fst ?_ ?_)
    | (intro _)
    | split

theorem State.onSample_still (s : State) (k : Nat) (m : CMsg) : (State.onSample s k m).still = s.still := by
  unfold State.onSample
  repeat' first
    | with_reducible rfl
    | simp only [State.strike_still, State.count_still, State.putSample_still, State.updCtx_still]
    | dsimp only
    | (refine still_foldl ?_ ?_)
    | (refine still_foldl_fst ?_ ?_)
    | (intro _)
    | split

theorem State.sampleAgain_still (s : State) (k : Nat) : (State.sampleAgain s k).still = s.still := by
  unfold State.sampleAgain
  repeat' first
    | with_reducible rfl
    | simp only [State.onSample_still, State.updCtx_still]
    | dsimp only
    | (refine still_foldl ?_ ?_)
    | (refine still_foldl_fst ?_ ?_)
    | (intro _)
    | split

theorem State.deliverSample_still (s : State) (k q : Nat) (bs : List Byte) : (State.deliverSample s k q bs).still = s.still := by
  unfold State.deliverSample
  repeat' first
    | with_reducible rfl
    | simp only [State.updCtx_still, State.putSample_still, State.sendMsg_still]
    | dsimp only
    | (refine still_foldl ?_ ?_)
    | (refine still_foldl_fst ?_ ?_)
    | (intro _)
    | split

theorem State.voidSample_still (s : State) (k q x cause : Nat) : (State.voidSample s k q x cause).still = s.still := by
  unfold State.voidSample
  simp only [State.count_still, State.updCtx_still, State.deliverSample_still, apply_ite State.still, ite_self]

theorem State.readSample_still (s : State) (k q : Nat) : (State.readSample s k q).still = s.still := by
  unfold State.readSample
  simp only [State.updCtx_still, State.emit_still, apply_ite State.still, ite_self]

theorem State.beginSample_still (s : State) (k q : Nat) : (State.beginSample s k q).still = s.still := by
  unfold State.beginSample
  simp only [State.voidSample_still, State.updCtx_still, State.readSample_still, apply_ite State.still, ite_self]

theorem State.startStep_still (s : State) (k n : Nat) : (State.startStep s k n).still = s.still := by
  unfold State.startStep
  repeat' first
    | with_reducible rfl
    | simp only [State.updCtx_still, State.beginSample_still, State.checkSlot_still, State.logFault_still]
    | dsimp only
    | (refine still_foldl ?_ ?_)
    | (refine still_foldl_fst ?_ ?_)
    | (intro _)
    | split

theorem State.startIngest_still (s : State) (k : Nat) : (State.startIngest s k).still = s.still := by
  unfold State.startIngest
  repeat' first
    | with_reducible rfl
    | simp only [State.updCtx_still, State.sampleAgain_still, State.startStep_still]
    | dsimp only
    | (refine still_foldl ?_ ?_)
    | (refine still_foldl_fst ?_ ?_)
    | (intro _)
    | split

theorem State.restartIngest_still (s : State) (k : Nat) : (State.restartIngest s k).still = s.still := by
  unfold State.restartIngest
  simp only [State.updCtx_still, State.startIngest_still, apply_ite State.still, ite_self]

theorem State.commitPoint_still (s : State) (k : Nat) (e : Epoch) (v : Vote) (xseq : Bool) : (State.commitPoint s k e v xseq).still = s.still := by
  unfold State.commitPoint
  simp only [↓still_mk, still_eta, State.updCtx_still]

theorem State.mergeBanks_still (s : State) (k : Nat) (e : Epoch) : (State.mergeBanks s k e).still = s.still := by
  unfold State.mergeBanks
  repeat' first
    | with_reducible rfl
    | simp only [State.updCtx_still, State.hubWriteNat_still, State.updEpoch_still]
    | dsimp only
    | (refine still_foldl ?_ ?_)
    | (refine still_foldl_fst ?_ ?_)
    | (intro _)
    | split

theorem State.commitMps_still (s : State) (k n : Nat) : (State.commitMps s k n).still = s.still := by
  unfold State.commitMps
  repeat' first
    | with_reducible rfl
    | simp only [↓still_mk, still_eta, State.setPmp_still, State.cvalChanged_still]
    | dsimp only
    | (refine still_foldl ?_ ?_)
    | (refine still_foldl_fst ?_ ?_)
    | (intro _)
    | split

theorem State.commitCensus_still (s : State) (k : Nat) (e : Epoch) (skipped : Bool) : (State.commitCensus s k e skipped).still = s.still := by
  unfold State.commitCensus
  repeat' first
    | with_reducible rfl
    | simp only [State.updCtx_still, State.setVal_still, State.event_still]
    | dsimp only
    | (refine still_foldl ?_ ?_)
    | (refine still_foldl_fst ?_ ?_)
    | (intro _)
    | split

theorem State.commitReject_still (s : State) (k n : Nat) (skipped : Bool) : (State.commitReject s k n skipped).still = s.still := by
  unfold State.commitReject
  simp only [State.setVal_still, State.count_still, State.event_still, apply_ite State.still, ite_self]

theorem State.release_still (s : State) (k : Nat) (e : Effect) : (State.release s k e).still = s.still := by
  unfold State.release
  split <;> simp only [State.event_still, State.postMp_still, State.sendMsg_still, State.emit_still]

theorem State.startEval_still (s : State) (k n : Nat) : (State.startEval s k n).still = s.still := by
  unfold State.startEval
  repeat' first
    | with_reducible rfl
    | simp only [State.updCtx_still, State.hubWrite_still, State.serviceAdv_still]
    | dsimp only
    | (refine still_foldl ?_ ?_)
    | (refine still_foldl_fst ?_ ?_)
    | (intro _)
    | split

theorem State.finishCommit_still (s : State) (k n : Nat) : (State.finishCommit s k n).still = s.still := by
  unfold State.finishCommit
  split
  · rfl
  · simp only [apply_ite State.still, State.runOn_still, State.haltCtx_still, State.stepBoundary_still, State.startEval_still, State.takeGen_still,
      State.startIngest_still, State.count_still, State.setVal_still, State.updCtx_still, ite_self]
    exact still_foldl (fun _ _ => State.release_still ..) rfl

theorem State.commitEpoch_still (s : State) (k : Nat) (e : Epoch) (v : Vote) (xseq : Bool) (run : Nat) (place : Bool) : (State.commitEpoch s k e v xseq run place).still = s.still := by
  unfold State.commitEpoch
  simp only [State.commitPoint_still, State.updEpoch_still, State.mergeBanks_still, State.squash_still, State.updCtx_still, State.commitMps_still, State.commitCensus_still, State.commitReject_still, State.takeGen_still, State.finishCommit_still, apply_ite State.still, ite_self]

theorem State.rejectHalt_still (s : State) (k n : Nat) : (State.rejectHalt s k n).still = s.still := by
  unfold State.rejectHalt
  simp only [State.squash_still, State.event_still, State.haltCtx_still]

theorem State.takeVerdict_still (s : State) (k n : Nat) (v : Vote) (xseq : Bool) (run : Nat) (place : Bool) : (State.takeVerdict s k n v xseq run place).still = s.still := by
  unfold State.takeVerdict
  repeat' first
    | with_reducible rfl
    | simp only [State.squash_still, State.updCtx_still, State.runOn_still, State.rejectHalt_still, State.commitEpoch_still]
    | dsimp only
    | (refine still_foldl ?_ ?_)
    | (refine still_foldl_fst ?_ ?_)
    | (intro _)
    | split

theorem State.seatVerdict_still (s : State) (k n : Nat) : (State.seatVerdict s k n).still = s.still := by
  unfold State.seatVerdict
  repeat' first
    | with_reducible rfl
    | simp only [State.sendAll_still, State.takeVerdict_still]
    | dsimp only
    | (refine still_foldl ?_ ?_)
    | (refine still_foldl_fst ?_ ?_)
    | (intro _)
    | split

theorem State.castVote_still (s : State) (k : Nat) (e : Epoch) : (State.castVote s k e).still = s.still := by
  unfold State.castVote
  repeat' first
    | with_reducible rfl
    | simp only [State.updEpoch_still, State.takeVerdict_still, State.seatVerdict_still, State.sendMsg_still]
    | dsimp only
    | (refine still_foldl ?_ ?_)
    | (refine still_foldl_fst ?_ ?_)
    | (intro _)
    | split

theorem State.closeNext_still (s : State) (k : Nat) : (State.closeNext s k).still = s.still := by
  unfold State.closeNext
  repeat' first
    | with_reducible rfl
    | simp only [State.squash_still, State.voteSquash_still, State.haltCtx_still, State.updEpoch_still]
    | dsimp only
    | (refine still_foldl ?_ ?_)
    | (refine still_foldl_fst ?_ ?_)
    | (intro _)
    | split

theorem State.voteNext_still (s : State) (k : Nat) : (State.voteNext s k).still = s.still := by
  unfold State.voteNext
  repeat' first
    | with_reducible rfl
    | simp only [State.castVote_still]
    | dsimp only
    | (refine still_foldl ?_ ?_)
    | (refine still_foldl_fst ?_ ?_)
    | (intro _)
    | split

theorem State.screenRun_of {s : State} {k : Nat} {m : CMsg} {t : State} (h : s.screenRun k m = .done t) : t.still = s.still := by
  unfold State.screenRun at h
  dsimp only at h
  repeat' split at h
  all_goals first
    | contradiction
    | (injection h with h; rw [← h])
  all_goals first
    | exact State.count_still ..
    | exact State.keepEarly_still ..
    | skip
  all_goals
    repeat' split
    all_goals first
      | rfl
      | exact State.count_still ..
      | exact (State.strike_still ..).trans (State.count_still ..)

theorem State.onVote_still (s : State) (k : Nat) (m : CMsg) : (State.onVote s k m).still = s.still := by
  unfold State.onVote
  repeat' first
    | with_reducible rfl
    | simp only [State.updEpoch_still, State.seatVerdict_still, State.count_still]
    | dsimp only
    | (refine still_foldl ?_ ?_)
    | (refine still_foldl_fst ?_ ?_)
    | (intro _)
    | split
    | (refine (State.screenRun_of ‹_›).trans ?_)

theorem State.onVerdict_still (s : State) (k : Nat) (m : CMsg) : (State.onVerdict s k m).still = s.still := by
  unfold State.onVerdict
  repeat' first
    | with_reducible rfl
    | simp only [State.takeVerdict_still, State.count_still]
    | dsimp only
    | (refine still_foldl ?_ ?_)
    | (refine still_foldl_fst ?_ ?_)
    | (intro _)
    | split
    | (refine (State.screenRun_of ‹_›).trans ?_)

theorem State.onMsg_still (s : State) (k : Nat) (m : CMsg) : (State.onMsg s k m).still = s.still := by
  unfold State.onMsg
  split <;> simp only [State.onSeg_still, State.onBit_still, State.onRes_still, State.onStart_still, State.onRot_still, State.onRel_still, State.onSend_still, State.onRadd_still, State.onVote_still, State.onVerdict_still]

theorem State.deliverEarly_still (s : State) (k : Nat) : (State.deliverEarly s k).still = s.still := by
  unfold State.deliverEarly
  repeat' first
    | with_reducible rfl
    | simp only [State.onMsg_still, State.updCtx_still]
    | dsimp only
    | (refine still_foldl ?_ ?_)
    | (refine still_foldl_fst ?_ ?_)
    | (intro _)
    | split

theorem State.progressGo_still (s : State) (k : Nat) (n : Nat) : (State.progressGo s k n).still = s.still := by
  induction n generalizing s with
  | zero => rfl
  | succ n ih =>
    unfold State.progressGo
    simp only [ih, State.deliverEarly_still, State.closeNext_still, State.voteNext_still]

theorem State.progress_still (s : State) (k : Nat) : (State.progress s k).still = s.still := by
  unfold State.progress
  simp only [State.deliverEarly_still, State.progressGo_still, apply_ite State.still, ite_self]

theorem State.updPath_still (s : State) (p : Path) (f : PathSt → PathSt) : (State.updPath s p f).still = s.still := by
  unfold State.updPath
  simp only [↓still_mk, still_eta]

theorem State.respond_still (s : State) (p : Path) (port1 : Bool) (r : WbMsg) : (State.respond s p port1 r).still = s.still := by
  unfold State.respond
  repeat' first
    | with_reducible rfl
    | simp only [State.updPath_still, State.emit_still]
    | dsimp only
    | (refine still_foldl ?_ ?_)
    | (refine still_foldl_fst ?_ ?_)
    | (intro _)
    | split

theorem State.answerTo_still (s : State) (req : Option (Path × WbMsg × Bool)) (code : Nat) : (State.answerTo s req code).still = s.still := by
  unfold State.answerTo
  split <;> simp only [↓still_mk, still_eta, State.respond_still]

theorem State.keepRefusal_still (s : State) (k : Nat) (r : Refused) : (State.keepRefusal s k r).still = s.still := by
  unfold State.keepRefusal
  simp only [State.updCtx_still]

theorem State.allocMp_still (s : State) (k : Nat) (d : MpDecl) : (State.allocMp s k d).still = s.still := by
  unfold State.allocMp
  simp only [State.setPmp_still, State.updCtx_still]

theorem State.giveCores_still (s : State) (k : Nat) (roles twins : List Nat) (f : Nat → Core) : (State.giveCores s k roles twins f).still = s.still := by
  unfold State.giveCores
  repeat' first
    | with_reducible rfl
    | simp only [↓still_mk, still_eta, State.setCore_still, State.updCtx_still]
    | dsimp only
    | (refine still_foldl ?_ ?_)
    | (refine still_foldl_fst ?_ ?_)
    | (intro _)

theorem State.dropCores_still (s : State) (k : Nat) : (State.dropCores s k).still = s.still := by
  unfold State.dropCores
  repeat' first
    | with_reducible rfl
    | simp only [↓still_mk, still_eta, State.setCore_still, State.updCtx_still]
    | dsimp only
    | (refine still_foldl ?_ ?_)
    | (refine still_foldl_fst ?_ ?_)
    | (intro _)

theorem State.openNow_fst (s : State) (k : Nat) (e : Env) : (State.openNow s k e).1.still = s.still := by
  unfold State.openNow
  repeat' first
    | with_reducible rfl
    | simp only [State.keepRefusal_still, State.setVal_still, State.updCtx_still, State.giveCores_still, State.allocMp_still]
    | dsimp only
    | (refine still_foldl ?_ ?_)
    | (refine still_foldl_fst ?_ ?_)
    | (intro _)
    | split

theorem State.openNow_of {s : State} {k : Nat} {e : Env} {t : State} {c : Nat} (h : State.openNow s k e = (t, c)) : t.still = s.still := by
  have := State.openNow_fst s k e
  rw [h] at this
  exact this

theorem State.loadNow_fst (s : State) (k : Nat) (e : Env) : (State.loadNow s k e).1.still = s.still := by
  unfold State.loadNow
  repeat' first
    | with_reducible rfl
    | simp only [State.keepRefusal_still, State.eachCore_still, State.updCtx_still, State.allocMp_still]
    | dsimp only
    | (refine still_foldl ?_ ?_)
    | (refine still_foldl_fst ?_ ?_)
    | (intro _)
    | split

theorem State.loadNow_of {s : State} {k : Nat} {e : Env} {t : State} {c : Nat} (h : State.loadNow s k e = (t, c)) : t.still = s.still := by
  have := State.loadNow_fst s k e
  rw [h] at this
  exact this

theorem State.recordAll_still (s : State) (k n : Nat) : (State.recordAll s k n).still = s.still := by
  unfold State.recordAll
  repeat' first
    | with_reducible rfl
    | simp only [State.eachQueue, State.recordEntry_still, State.recordBufs_still]
    | dsimp only
    | (refine still_foldl ?_ ?_)
    | (refine still_foldl_fst ?_ ?_)
    | (intro _)

theorem State.eachQueue_still {s : State} {k : Nat} {f : State → QRef → State} (h : ∀ s q, (f s q).still = s.still) : (s.eachQueue k f).still = s.still :=
  still_foldl h rfl

theorem State.startNow_fst (s : State) (k : Nat) : (State.startNow s k).1.still = s.still := by
  unfold State.startNow
  have h : ∀ (t : State) f, (t.eachQueue k fun s q => State.updQueue s q f).still = t.still :=
    fun t f => State.eachQueue_still (fun _ _ => State.updQueue_still ..)
  have g : ∀ (t : State) (l : List Nat) (n : Nat), (l.foldl (fun s c => s.squashCore n c) t).still = t.still :=
    fun t l n => still_foldl (fun _ _ => State.squashCore_still ..) rfl
  simp only [apply_ite Prod.fst, apply_ite State.still, State.openEpoch_still, State.recordAll_still, State.beginClear_still, State.updCtx_still,
    State.setVal_still, h, g, State.dropStray_still, State.pairTwins_still, State.releaseHeld_still, ite_self]

theorem State.startNow_of {s : State} {k : Nat} {t : State} {c : Nat} (h : State.startNow s k = (t, c)) : t.still = s.still := by
  have := State.startNow_fst s k
  rw [h] at this
  exact this

theorem State.drainQueues_still (s : State) (k : Nat) (every : Bool) : (State.drainQueues s k every).still = s.still := by
  unfold State.drainQueues State.eachQueue
  exact still_foldl (fun _ _ => State.updQueue_still ..) rfl

theorem State.saveStart_fst (s : State) (k : Nat) : (State.saveStart s k).1.still = s.still := by
  unfold State.saveStart
  repeat' first
    | with_reducible rfl
    | simp only [State.updCtx_still, State.drainQueues_still]
    | dsimp only
    | (refine still_foldl ?_ ?_)
    | (refine still_foldl_fst ?_ ?_)
    | (intro _)
    | split

theorem State.saveStart_of {s : State} {k : Nat} {t : State} {c : Option Nat} (h : State.saveStart s k = (t, c)) : t.still = s.still := by
  have := State.saveStart_fst s k
  rw [h] at this
  exact this

theorem State.markMps_still (s : State) (k : Nat) (old st : PmpState) : (State.markMps s k old st).still = s.still := by
  unfold State.markMps
  simp only [↓still_mk, still_eta]

theorem State.saveEnd_still (s : State) (k : Nat) : (State.saveEnd s k).still = s.still := by
  unfold State.saveEnd
  simp only [State.markMps_still, State.updCtx_still, State.dropCores_still]

theorem State.resumeNow_fst (s : State) (k : Nat) : (State.resumeNow s k).1.still = s.still := by
  unfold State.resumeNow
  repeat' first
    | with_reducible rfl
    | simp only [State.giveCores_still, State.markMps_still, State.updCtx_still]
    | dsimp only
    | (refine still_foldl ?_ ?_)
    | (refine still_foldl_fst ?_ ?_)
    | (intro _)
    | split

theorem State.resumeNow_of {s : State} {k : Nat} {t : State} {c : Nat} (h : State.resumeNow s k = (t, c)) : t.still = s.still := by
  have := State.resumeNow_fst s k
  rw [h] at this
  exact this

theorem State.poisonAll_still (s : State) (k : Nat) (abort : Bool) : (State.poisonAll s k abort).still = s.still := by
  unfold State.poisonAll
  repeat' first
    | with_reducible rfl
    | simp only [State.poisonPmp_still]
    | dsimp only
    | (refine still_foldl ?_ ?_)
    | (refine still_foldl_fst ?_ ?_)
    | (intro _)

theorem State.freeMps_still (s : State) : (State.freeMps s).still = s.still := by
  unfold State.freeMps
  simp only [↓still_mk, still_eta]

theorem State.tearEnd_still (s : State) (k : Nat) : (State.tearEnd s k).still = s.still := by
  unfold State.tearEnd
  simp only [State.cancelAllPrefs_still, ↓still_mk, still_eta, State.poisonAll_still, State.squashAllVote_still, State.dropCores_still, State.updCtx_still, State.freeMps_still]

theorem State.tearStart_still (s : State) (k : Nat) : (State.tearStart s k).still = s.still := by
  unfold State.tearStart
  simp only [State.updCtx_still, State.drainQueues_still, apply_ite State.still, ite_self]

theorem State.answerLate_still (s : State) (k kind code : Nat) : (State.answerLate s k kind code).still = s.still := by
  unfold State.answerLate
  repeat' first
    | with_reducible rfl
    | simp only [↓still_mk, still_eta, State.answerTo_still]
    | dsimp only
    | (refine still_foldl ?_ ?_)
    | (refine still_foldl_fst ?_ ?_)
    | (intro _)

theorem State.drainDone_still (s : State) (k : Nat) : (State.drainDone s k).still = s.still := by
  unfold State.drainDone
  simp only [State.tearEnd_still, State.answerLate_still, State.saveEnd_still, apply_ite State.still, ite_self]

theorem State.acceptDrain_still (s : State) (k kind : Nat) (req : Option (Path × WbMsg × Bool)) : (State.acceptDrain s k kind req).still = s.still := by
  unfold State.acceptDrain
  simp only [State.drainDone_still, ↓still_mk, still_eta]

theorem State.runCmd_still (s : State) (l : Late) : (State.runCmd s l).still = s.still := by
  unfold State.runCmd
  split
  · simp only [State.answerTo_still, State.openNow_fst]
  · simp only [State.answerTo_still, State.resumeNow_fst]
  · simp only [State.drainDone_still, State.progress_still, State.answerTo_still, State.startNow_fst]
  · simp only [State.answerTo_still, State.loadNow_fst]
  · split
    · exact (State.answerTo_still ..).trans (State.saveStart_of ‹_›)
    · exact (State.acceptDrain_still ..).trans (State.saveStart_of ‹_›)
  · simp only [State.answerTo_still, State.acceptDrain_still, State.tearStart_still, apply_ite State.still, ite_self]

theorem State.runLateGo_still (s : State) (n : Nat) : (State.runLateGo s n).still = s.still := by
  induction n generalizing s with
  | zero => rfl
  | succ n ih =>
    unfold State.runLateGo
    split
    · rw [ih, State.runCmd_still]
      simp only [↓still_mk, still_eta]
    · rfl

theorem State.runLate_still (s : State) : (State.runLate s).still = s.still := by
  unfold State.runLate
  simp only [State.runLateGo_still, ↓still_mk, still_eta]

theorem State.enqueue_still (s : State) (kind k : Nat) (e : Env) (req : Option (Path × WbMsg × Bool)) : (State.enqueue s kind k e req).still = s.still := by
  unfold State.enqueue
  simp only [State.runLate_still, ↓still_mk, still_eta]

theorem State.after_still (s : State) (k : Nat) : (State.after s k).still = s.still := by
  unfold State.after
  simp only [State.progress_still, State.drainDone_still, State.runLate_still]

theorem State.goOpen_still (s : State) (k : Nat) (e : Env) (req : Option (Path × WbMsg × Bool)) : (State.goOpen s k e req).still = s.still := by
  unfold State.goOpen
  simp only [State.answerTo_still, State.enqueue_still, apply_ite State.still, ite_self]

theorem State.goLoad_still (s : State) (k : Nat) (e : Env) (req : Option (Path × WbMsg × Bool)) : (State.goLoad s k e req).still = s.still := by
  unfold State.goLoad
  simp only [State.loadNow_fst, State.answerTo_still, State.enqueue_still, apply_ite State.still, ite_self]

theorem State.goStart_still (s : State) (k : Nat) (req : Option (Path × WbMsg × Bool)) : (State.goStart s k req).still = s.still := by
  unfold State.goStart
  simp only [apply_ite State.still, State.after_still, State.answerTo_still, State.startNow_fst, State.enqueue_still, ite_self]

theorem State.goSave_still (s : State) (k : Nat) (req : Option (Path × WbMsg × Bool)) : (State.goSave s k req).still = s.still := by
  unfold State.goSave
  split
  · exact State.enqueue_still ..
  · split
    · exact (State.answerTo_still ..).trans (State.saveStart_of ‹_›)
    · rw [State.runLate_still, State.acceptDrain_still]
      exact State.saveStart_of ‹_›

theorem State.goResume_still (s : State) (k : Nat) (req : Option (Path × WbMsg × Bool)) : (State.goResume s k req).still = s.still := by
  unfold State.goResume
  simp only [State.answerTo_still, State.enqueue_still, State.after_still, apply_ite State.still, ite_self]

theorem State.goTear_still (s : State) (k : Nat) (req : Option (Path × WbMsg × Bool)) : (State.goTear s k req).still = s.still := by
  unfold State.goTear
  simp only [State.answerTo_still, State.enqueue_still, State.tearStart_still, State.acceptDrain_still, State.runLate_still, apply_ite State.still, ite_self]

theorem State.disable_still (s : State) (k : Nat) : (State.disable s k).still = s.still := by
  unfold State.disable
  simp only [State.tearStart_still, State.drainDone_still, State.runLate_still]

theorem State.landAdvs_still (s : State) (k : Nat) : (State.landAdvs s k).still = s.still := by
  unfold State.landAdvs
  exact still_foldl (fun _ _ => State.applyAdv_still ..) (by simp only [↓still_mk, still_eta])

theorem State.abortNow_fst (s : State) : (State.abortNow s).1.still = s.still := by
  unfold State.abortNow
  repeat' first
    | with_reducible rfl
    | simp only [State.landAdvs_still, State.cancelAllPrefs_still, State.abortQueues_still, State.poisonPmp_still, State.squashAllVote_still, State.after_still]
    | dsimp only
    | (refine still_foldl ?_ ?_)
    | (refine still_foldl_fst ?_ ?_)
    | (intro _)
    | split

theorem State.abortNow_of {s : State} {t : State} {c : Nat} (h : State.abortNow s = (t, c)) : t.still = s.still := by
  have := State.abortNow_fst s
  rw [h] at this
  exact this

theorem State.goAbort_still (s : State) (req : Option (Path × WbMsg × Bool)) : (State.goAbort s req).still = s.still := by
  unfold State.goAbort
  simp only [State.abortNow_fst, State.answerTo_still]

theorem State.vfOff_still (s : State) (fn : Nat) : (State.vfOff s fn).still = s.still := by
  unfold State.vfOff
  simp only [↓still_mk, still_eta, State.disable_still, apply_ite State.still, ite_self]

theorem State.flrPf0_still (s : State) (own : Bool) : (State.flrPf0 s own).still = s.still := by
  unfold State.flrPf0
  repeat' first
    | with_reducible rfl
    | simp only [↓still_mk, still_eta, State.vfOff_still, State.disable_still]
    | dsimp only
    | (refine still_foldl ?_ ?_)
    | (refine still_foldl_fst ?_ ?_)
    | (intro _)
    | split

theorem State.confirmPref_still (s : State) (c ds : Nat) (r : ChunkRun) : (State.confirmPref s c ds r).still = s.still := by
  unfold State.confirmPref
  simp only [State.updCore_still, State.countDie_still]

theorem State.cancelPref_still (s : State) (c ds : Nat) : (State.cancelPref s c ds).still = s.still := by
  unfold State.cancelPref
  simp only [State.updCore_still, State.countDie_still]

theorem State.prefEnd_still (s : State) (c ds id : Nat) : (State.prefEnd s c ds id).still = s.still := by
  unfold State.prefEnd
  split <;> simp only [State.updCore_still, State.confirmPref_still, apply_ite State.still, ite_self]

theorem State.workEnd_still (s : State) (q : QRef) (i : InFlight) : (State.workEnd s q i).still = s.still := by
  unfold State.workEnd
  repeat' first
    | with_reducible rfl
    | simp only [State.prefEnd_still, State.updCore_still, State.retFinish_still, State.updQueue_still]
    | dsimp only
    | (refine still_foldl ?_ ?_)
    | (refine still_foldl_fst ?_ ?_)
    | (intro _)
    | split

theorem State.retireNow_still (s : State) (q : QRef) : (State.retireNow s q).still = s.still := by
  unfold State.retireNow
  repeat' first
    | with_reducible rfl
    | simp only [State.workEnd_still, State.updQueue_still, State.drain_still]
    | dsimp only
    | (refine still_foldl ?_ ?_)
    | (refine still_foldl_fst ?_ ?_)
    | (intro _)
    | split

theorem State.waitAgain_still (s : State) (q : QRef) : (State.waitAgain s q).still = s.still := by
  unfold State.waitAgain
  repeat' first
    | with_reducible rfl
    | simp only [bodyWait_still]
    | (refine State.resume_still _ _ _ _ ?_)
    | dsimp only
    | (refine still_foldl ?_ ?_)
    | (refine still_foldl_fst ?_ ?_)
    | (intro _)
    | split

theorem State.recordCore_still (s : State) (c : CoreId) (k n : Nat) : (State.recordCore s c k n).still = s.still := by
  unfold State.recordCore
  simp only [State.recordBufs_still, apply_ite State.still, ite_self]

theorem State.bufAgain_still (s : State) (q : QRef) : (State.bufAgain s q).still = s.still := by
  unfold State.bufAgain
  repeat' first
    | with_reducible rfl
    | simp only [bodyBdef_still, bodyGive_still, bodyTake_still, bodyBrel_still]
    | (refine State.resume_still _ _ _ _ ?_)
    | dsimp only
    | (refine still_foldl ?_ ?_)
    | (refine still_foldl_fst ?_ ?_)
    | (intro _)
    | split

theorem bodyRidgeEnd_still (q : QRef) (s : State) (w : Nat) {k : Still} (hk : s.still = k) : (bodyRidgeEnd q s w).Still k := by
  unfold bodyRidgeEnd
  subst hk
  repeat' first
    | with_reducible rfl
    | simp only [act_halt, act_wait, act_go, State.poisonDone, State.updQueue_still, Act.done]
    | dsimp only
    | (refine still_foldl ?_ ?_)
    | (refine still_foldl_fst ?_ ?_)
    | (intro _)
    | split

theorem State.enterEpoch_still (s : State) (q : QRef) (k r : Nat) : (State.enterEpoch s q k r).still = s.still := by
  unfold State.enterEpoch
  simp only [State.updQueue_still, State.openEpoch_still, State.recordEntry_still, State.recordCore_still, apply_ite State.still, ite_self]

theorem State.ridgeAgain_still (s : State) (q : QRef) : (State.ridgeAgain s q).still = s.still := by
  unfold State.ridgeAgain
  repeat' first
    | with_reducible rfl
    | simp only [bodyRidgeEnd_still, State.enterEpoch_still]
    | (refine State.resume_still _ _ _ _ ?_)
    | dsimp only
    | (refine still_foldl ?_ ?_)
    | (refine still_foldl_fst ?_ ?_)
    | (intro _)
    | split

theorem State.giveAgain_still (s : State) (core : CoreId) (poison : Option Nat) : (State.giveAgain s core poison).still = s.still := by
  unfold State.giveAgain
  repeat' first
    | with_reducible rfl
    | simp only [act_halt, bodyGive_still, State.poisonDone, State.updQueue_still]
    | (refine State.resume_still _ _ _ _ ?_)
    | dsimp only
    | (refine still_foldl ?_ ?_)
    | (refine still_foldl_fst ?_ ?_)
    | (intro _)
    | split

theorem State.addRefused_still (s : State) (a : EauAdd) (hc detail addr : Nat) : (State.addRefused s a hc detail addr).still = s.still := by
  unfold State.addRefused
  repeat' first
    | with_reducible rfl
    | simp only [↓still_mk, still_eta, State.logFault_still, State.haltIssued_still]
    | dsimp only
    | (refine still_foldl ?_ ?_)
    | (refine still_foldl_fst ?_ ?_)
    | (intro _)
    | split

theorem State.applyAdd_still (s : State) (i : Nat) (a : EauAdd) : (State.applyAdd s i a).still = s.still := by
  unfold State.applyAdd
  repeat' first
    | with_reducible rfl
    | simp only [↓still_mk, still_eta, State.count_still, State.strike_still, State.countAdd_still, State.addRefused_still]
    | dsimp only
    | (refine still_foldl ?_ ?_)
    | (refine still_foldl_fst ?_ ?_)
    | (intro _)
    | split
    | (refine (State.eauApply_of ‹_›).trans ?_)

theorem State.clearStore_still (s : State) (k i : Nat) (g : GStore) : (State.clearStore s k i g).still = s.still := by
  unfold State.clearStore
  repeat' first
    | with_reducible rfl
    | simp only [State.updCtx_still, State.hubWriteNat_still]
    | dsimp only
    | (refine still_foldl ?_ ?_)
    | (refine still_foldl_fst ?_ ?_)
    | (intro _)
    | split

theorem State.noteCorrected_still (s : State) (u : SpareUnit) : (State.noteCorrected s u).still = s.still := by
  unfold State.noteCorrected
  repeat' first
    | with_reducible rfl
    | simp only [↓still_mk, still_eta, ]
    | dsimp only
    | (refine still_foldl ?_ ?_)
    | (refine still_foldl_fst ?_ ?_)
    | (intro _)
    | split

theorem State.scrubCorrected_still (s : State) (loc : MemLoc) (r : ScrubRead) : (State.scrubCorrected s loc r).still = s.still := by
  unfold State.scrubCorrected
  repeat' first
    | with_reducible rfl
    | simp only [State.count_still, State.logFault_still, State.noteCorrected_still]
    | dsimp only
    | (refine still_foldl ?_ ?_)
    | (refine still_foldl_fst ?_ ?_)
    | (intro _)
    | split

theorem State.scrubPass_still (s : State) (loc : MemLoc) (r : ScrubRead) : (State.scrubPass s loc r).still = s.still := by
  unfold State.scrubPass
  repeat' first
    | with_reducible rfl
    | simp only [State.count_still]
    | dsimp only
    | (refine still_foldl ?_ ?_)
    | (refine still_foldl_fst ?_ ?_)
    | (intro _)
    | split

theorem State.scrubUncorrectable_still (s : State) (loc : MemLoc) : (State.scrubUncorrectable s loc).still = s.still := by
  unfold State.scrubUncorrectable
  split <;> simp only [State.setPart_still, State.count_still, State.updCtx_still, State.logFault_still, State.updCore_still, State.poisonPmp_still, State.enterSafeHold_still]

theorem State.mapPresentNow_fst (s : State) (k va : Nat) : (State.mapPresentNow s k va).1.still = s.still := by
  unfold State.mapPresentNow
  repeat' first
    | with_reducible rfl
    | dsimp only
    | (refine still_foldl ?_ ?_)
    | (refine still_foldl_fst ?_ ?_)
    | (intro _)
    | split
    | (refine (State.mapPage_of ‹_›).trans ?_)

theorem State.mapPresentNow_of {s : State} {k va : Nat} {t : State} {c : Nat} (h : State.mapPresentNow s k va = (t, c)) : t.still = s.still := by
  have := State.mapPresentNow_fst s k va
  rw [h] at this
  exact this

theorem State.goMapPresent_still (s : State) (k va : Nat) (req : Option (Path × WbMsg × Bool)) : (State.goMapPresent s k va req).still = s.still := by
  unfold State.goMapPresent
  simp only [State.mapPresentNow_fst, State.answerTo_still]

theorem State.pauseJob_still (s : State) (k detail : Nat) : (State.pauseJob s k detail).still = s.still := by
  unfold State.pauseJob
  simp only [State.squash_still, State.haltCtx_still, State.setVal_still]

theorem State.placeNow_fst (s : State) (k : Nat) : (State.placeNow s k).1.still = s.still := by
  unfold State.placeNow
  split <;> simp only [State.updCtx_still]

theorem State.placeNow_of {s : State} {k : Nat} {t : State} {c : Nat} (h : State.placeNow s k = (t, c)) : t.still = s.still := by
  have := State.placeNow_fst s k
  rw [h] at this
  exact this

theorem State.goPlace_still (s : State) (k : Nat) (req : Option (Path × WbMsg × Bool)) : (State.goPlace s k req).still = s.still := by
  unfold State.goPlace
  simp only [State.placeNow_fst, State.answerTo_still]

theorem State.installPlace_still (s : State) (k : Nat) : (State.installPlace s k).still = s.still := by
  unfold State.installPlace
  repeat' first
    | with_reducible rfl
    | simp only [State.setBlob_still, State.setVal_still]
    | dsimp only
    | (refine still_foldl ?_ ?_)
    | (refine still_foldl_fst ?_ ?_)
    | (intro _)
    | split

theorem State.genArrived_still (s : State) (k step : Nat) : (State.genArrived s k step).still = s.still := by
  unfold State.genArrived
  repeat' first
    | with_reducible rfl
    | simp only [State.updEpoch_still, State.finishCommit_still]
    | dsimp only
    | (refine still_foldl ?_ ?_)
    | (refine still_foldl_fst ?_ ?_)
    | (intro _)
    | split

theorem State.pairNow_fst (s : State) (k : Nat) (e : Env) : (State.pairNow s k e).1.still = s.still := by
  unfold State.pairNow
  repeat' first
    | with_reducible rfl
    | simp only [State.setVal_still]
    | dsimp only
    | (refine still_foldl ?_ ?_)
    | (refine still_foldl_fst ?_ ?_)
    | (intro _)
    | split

theorem State.pairNow_of {s : State} {k : Nat} {e : Env} {t : State} {c : Nat} (h : State.pairNow s k e = (t, c)) : t.still = s.still := by
  have := State.pairNow_fst s k e
  rw [h] at this
  exact this

theorem State.goPair_still (s : State) (k : Nat) (e : Env) (req : Option (Path × WbMsg × Bool)) : (State.goPair s k e req).still = s.still := by
  unfold State.goPair
  simp only [State.pairNow_fst, State.answerTo_still]

theorem State.startRefill_still (s : State) (k g source : Nat) : (State.startRefill s k g source).still = s.still := by
  unfold State.startRefill
  simp only [State.updCtx_still, State.setVal_still]

theorem State.restoreNow_fst (s : State) (k : Nat) (e : Env) : (State.restoreNow s k e).1.still = s.still := by
  unfold State.restoreNow
  repeat' first
    | with_reducible rfl
    | simp only [State.startRefill_still, State.setVal_still, State.event_still]
    | dsimp only
    | (refine still_foldl ?_ ?_)
    | (refine still_foldl_fst ?_ ?_)
    | (intro _)
    | split

theorem State.restoreNow_of {s : State} {k : Nat} {e : Env} {t : State} {c : Nat} (h : State.restoreNow s k e = (t, c)) : t.still = s.still := by
  have := State.restoreNow_fst s k e
  rw [h] at this
  exact this

theorem State.goRestore_still (s : State) (k : Nat) (e : Env) (req : Option (Path × WbMsg × Bool)) : (State.goRestore s k e req).still = s.still := by
  unfold State.goRestore
  simp only [State.restoreNow_fst, State.answerTo_still]

theorem State.restoreImage_still (s : State) (k g : Nat) (im : Tab Byte) : (State.restoreImage s k g im).still = s.still := by
  unfold State.restoreImage
  extract_lets at_ parts u map v w census x y
  refine (State.setVal_still ..).trans ((State.setVal_still ..).trans ((State.setVal_still ..).trans ?_))
  have hw : w.still = v.still := by
    refine still_foldl (fun s e => ?_) rfl
    split
    · exact State.serviceAdv_still ..
    · rfl
  have hy : y.still = x.still := by simp only [y, ↓still_mk, still_eta]
  exact hy.trans ((State.updCtx_still ..).trans (hw.trans ((State.updCtx_still ..).trans (State.updCtx_still ..))))

theorem State.refillDone_still (s : State) (k : Nat) : (State.refillDone s k).still = s.still := by
  unfold State.refillDone
  repeat' first
    | with_reducible rfl
    | simp only [State.restoreImage_still, State.updCtx_still, State.setVal_still, State.restartIngest_still]
    | dsimp only
    | (refine still_foldl ?_ ?_)
    | (refine still_foldl_fst ?_ ?_)
    | (intro _)
    | split

theorem State.rereadFrom_still (s : State) (k chunk tier why : Nat) (r : Refill) : (State.rereadFrom s k chunk tier why r).still = s.still := by
  unfold State.rereadFrom
  repeat' first
    | with_reducible rfl
    | simp only [State.count_still, State.updCtx_still]
    | dsimp only
    | (refine still_foldl ?_ ?_)
    | (refine still_foldl_fst ?_ ?_)
    | (intro _)
    | split

theorem State.refetch_still (s : State) (k chunk : Nat) (r : Refill) : (State.refetch s k chunk r).still = s.still := by
  unfold State.refetch
  repeat' first
    | with_reducible rfl
    | simp only [State.rereadFrom_still]
    | dsimp only
    | (refine still_foldl ?_ ?_)
    | (refine still_foldl_fst ?_ ?_)
    | (intro _)
    | split

theorem State.salvage_still (s : State) (k : Nat) : (State.salvage s k).still = s.still := by
  unfold State.salvage
  extract_lets b c n bytes
  split
  · rfl
  · split
    · exact (State.event_still ..).trans (State.count_still ..)
    · split
      · exact State.count_still ..
      · exact (State.count_still ..).trans (State.updCtx_still ..)

theorem State.salvageNow_fst (s : State) : (State.salvageNow s).1.still = s.still := by
  unfold State.salvageNow
  repeat' first
    | with_reducible rfl
    | simp only [State.eachCtx, State.salvage_still]
    | dsimp only
    | (refine still_foldl ?_ ?_)
    | (refine still_foldl_fst ?_ ?_)
    | (intro _)
    | split

theorem State.salvageNow_of {s : State} {t : State} {c : Nat} (h : State.salvageNow s = (t, c)) : t.still = s.still := by
  have := State.salvageNow_fst s
  rw [h] at this
  exact this

theorem State.goSalvage_still (s : State) (req : Option (Path × WbMsg × Bool)) : (State.goSalvage s req).still = s.still := by
  unfold State.goSalvage
  simp only [State.salvageNow_fst, State.answerTo_still]

theorem State.testPassed_still (s : State) (c : Nat) : (State.testPassed s c).still = s.still := by
  unfold State.testPassed
  repeat' first
    | with_reducible rfl
    | simp only [↓still_mk, still_eta, State.countDie_still, State.setBlob_still]
    | dsimp only
    | (refine still_foldl ?_ ?_)
    | (refine still_foldl_fst ?_ ?_)
    | (intro _)

theorem State.uncertainCtx_still (s : State) (ps : List Service) (k : Nat) : (State.uncertainCtx s ps k).still = s.still := by
  unfold State.uncertainCtx
  dsimp only
  split
  · rfl
  · split
    · simp only [apply_ite State.still, State.event_still, State.updCtx_still, State.pauseJob_still, State.squashAllVote_still,
        State.strike_still, ite_self]
    · exact (State.strike_still ..).trans (State.updCtx_still ..)

theorem State.testFailed_still (s : State) (c : Nat) : (State.testFailed s c).still = s.still := by
  unfold State.testFailed
  repeat' first
    | with_reducible rfl
    | simp only [State.countDie_still, State.logFault_still, State.eachCtx, State.uncertainCtx_still, State.after_still, State.retireCore_still]
    | dsimp only
    | (refine still_foldl ?_ ?_)
    | (refine still_foldl_fst ?_ ?_)
    | (intro _)

theorem State.residueHit_still (s : State) (q : QRef) : (State.residueHit s q).still = s.still := by
  unfold State.residueHit
  repeat' first
    | with_reducible rfl
    | simp only [State.logCore_still, State.retireIdle_still, State.doubt_still, State.updEpoch_still]
    | dsimp only
    | (refine still_foldl ?_ ?_)
    | (refine still_foldl_fst ?_ ?_)
    | (intro _)
    | split

theorem State.watchdogHit_still (s : State) (die : Nat) (h : WdHit) : (State.watchdogHit s die h).still = s.still := by
  unfold State.watchdogHit
  repeat' first
    | with_reducible rfl
    | simp only [State.residueHit_still, State.logFault_still, State.strike_still, State.retireCore_still, State.after_still, State.enterSafeHold_still]
    | dsimp only
    | (refine still_foldl ?_ ?_)
    | (refine still_foldl_fst ?_ ?_)
    | (intro _)
    | split

theorem State.putVal_still (s : State) (e sub v : Nat) : (State.putVal s e sub v).still = s.still := by
  unfold State.putVal
  repeat' first
    | with_reducible rfl
    | simp only [↓still_mk, still_eta, State.setVal_still]
    | dsimp only
    | (refine still_foldl ?_ ?_)
    | (refine still_foldl_fst ?_ ?_)
    | (intro _)
    | split

theorem State.clearPort_still (s : State) (p : Nat) (st : PortState) : (State.clearPort s p st).still = s.still := by
  unfold State.clearPort
  repeat' first
    | with_reducible rfl
    | simp only [State.updPort_still, State.freeVia_still]
    | dsimp only
    | (refine still_foldl ?_ ?_)
    | (refine still_foldl_fst ?_ ?_)
    | (intro _)
    | split

theorem State.startTraining_still (s : State) (p : Nat) (lit : Bool) : (State.startTraining s p lit).still = s.still := by
  unfold State.startTraining
  repeat' first
    | with_reducible rfl
    | simp only [State.emit_still, State.updPort_still, State.clearPort_still]
    | dsimp only
    | (refine still_foldl ?_ ?_)
    | (refine still_foldl_fst ?_ ?_)
    | (intro _)
    | split

theorem State.portFollows_still (s old : State) (p : Nat) : (State.portFollows s old p).still = s.still := by
  unfold State.portFollows
  repeat' first
    | with_reducible rfl
    | simp only [State.clearPort_still, State.startTraining_still]
    | dsimp only
    | (refine still_foldl ?_ ?_)
    | (refine still_foldl_fst ?_ ?_)
    | (intro _)
    | split

theorem State.portsFollow_still (s old : State) : (State.portsFollow s old).still = s.still := by
  unfold State.portsFollow
  repeat' first
    | with_reducible rfl
    | simp only [State.portFollows_still]
    | dsimp only
    | (refine still_foldl ?_ ?_)
    | (refine still_foldl_fst ?_ ?_)
    | (intro _)
    | split

theorem State.portCfgNow_fst (s : State) (p v : Nat) : (State.portCfgNow s p v).1.still = s.still := by
  unfold State.portCfgNow
  repeat' first
    | with_reducible rfl
    | simp only [State.putVal_still, State.portFollows_still]
    | dsimp only
    | (refine still_foldl ?_ ?_)
    | (refine still_foldl_fst ?_ ?_)
    | (intro _)
    | split

theorem State.portCfgNow_of {s : State} {p v : Nat} {t : State} {c : Nat} (h : State.portCfgNow s p v = (t, c)) : t.still = s.still := by
  have := State.portCfgNow_fst s p v
  rw [h] at this
  exact this

theorem State.goPortCfg_still (s : State) (p v : Nat) (req : Option (Path × WbMsg × Bool)) : (State.goPortCfg s p v req).still = s.still := by
  unfold State.goPortCfg
  simp only [State.portCfgNow_fst, State.answerTo_still]

theorem State.goBypassForce_still (s : State) (v : Nat) (req : Option (Path × WbMsg × Bool)) : (State.goBypassForce s v req).still = s.still := by
  unfold State.goBypassForce
  simp only [State.putVal_still, State.answerTo_still, apply_ite State.still, ite_self]

theorem State.latch_still (s : State) (b closed : Bool) : (State.latch s b closed).still = s.still := by
  unfold State.latch
  repeat' first
    | with_reducible rfl
    | simp only [↓still_mk, still_eta, State.clearPort_still, State.startTraining_still]
    | dsimp only
    | (refine still_foldl ?_ ?_)
    | (refine still_foldl_fst ?_ ?_)
    | (intro _)
    | split

theorem State.train_still (s : State) (p : Nat) (lit : Bool) : (State.train s p lit).still = s.still := by
  unfold State.train
  repeat' first
    | with_reducible rfl
    | simp only [State.startTraining_still]
    | dsimp only
    | (refine still_foldl ?_ ?_)
    | (refine still_foldl_fst ?_ ?_)
    | (intro _)
    | split

theorem State.takeAck_still (s : State) (p : Nat) (f : DFrame) : (State.takeAck s p f).still = s.still := by
  unfold State.takeAck
  repeat' first
    | with_reducible rfl
    | simp only [State.updPort_still]
    | dsimp only
    | (refine still_foldl ?_ ?_)
    | (refine still_foldl_fst ?_ ?_)
    | (intro _)
    | split

theorem State.flushPort_still (s : State) (p : Nat) : (State.flushPort s p).still = s.still := by
  unfold State.flushPort
  repeat' first
    | with_reducible rfl
    | simp only [State.flush_still]
    | dsimp only
    | (refine still_foldl ?_ ?_)
    | (refine still_foldl_fst ?_ ?_)
    | (intro _)
    | split

theorem State.corrected_still (s : State) (p n : Nat) : (State.corrected s p n).still = s.still := by
  unfold State.corrected
  repeat' first
    | with_reducible rfl
    | simp only [State.updPort_still]
    | dsimp only
    | (refine still_foldl ?_ ?_)
    | (refine still_foldl_fst ?_ ?_)
    | (intro _)
    | split

theorem State.goodFrame_still (s : State) (p : Nat) (f : DFrame) : (State.goodFrame s p f).still = s.still := by
  unfold State.goodFrame
  repeat' first
    | with_reducible rfl
    | simp only [State.takeAck_still, State.flushPort_still]
    | dsimp only
    | (refine still_foldl ?_ ?_)
    | (refine still_foldl_fst ?_ ?_)
    | (intro _)
    | split

theorem State.badCrc_still (s : State) (p : Nat) : (State.badCrc s p).still = s.still := by
  unfold State.badCrc
  simp only [State.updPort_still]

theorem State.onPartner_still (s : State) (m : CMsg) : (State.onPartner s m).still = s.still := by
  unfold State.onPartner
  extract_lets mine
  split
  · extract_lets b a
    split
    · exact State.count_still ..
    · exact State.hubWrite_still ..
  · rfl

theorem State.takeFrame_still (s : State) (p : Nat) (f : DFrame) : (State.takeFrame s p f).still = s.still := by
  unfold State.takeFrame
  split
  · refine (State.freeSpace_still ..).trans ?_
    split
    · exact State.onPartner_still ..
    · split
      · exact State.count_still ..
      · rfl
  · split
    · exact (State.freeSpace_still ..).trans (State.updPort_still ..)
    · split
      · exact State.route_of ‹_›
      · exact (State.freeSpace_still ..).trans (State.route_of ‹_›)

theorem State.resend_still (s : State) (p : Nat) : (State.resend s p).still = s.still := by
  unfold State.resend
  repeat' first
    | with_reducible rfl
    | simp only [State.setPort_still, State.emit_still]
    | dsimp only
    | (refine still_foldl ?_ ?_)
    | (refine still_foldl_fst ?_ ?_)
    | (intro _)

theorem State.squashPort_still (s : State) (p : Nat) : (State.squashPort s p).still = s.still := by
  unfold State.squashPort
  repeat' first
    | with_reducible rfl
    | simp only [State.eachCtx, State.strike_still, State.after_still]
    | dsimp only
    | (refine still_foldl ?_ ?_)
    | (refine still_foldl_fst ?_ ?_)
    | (intro _)
    | split

theorem State.portDown_still (s : State) (p : Nat) : (State.portDown s p).still = s.still := by
  unfold State.portDown
  repeat' first
    | with_reducible rfl
    | simp only [State.event_still, State.logFault_still, State.updPort_still, State.route_fst, State.clearPort_still, State.squashPort_still]
    | dsimp only
    | (refine still_foldl ?_ ?_)
    | (refine still_foldl_fst ?_ ?_)
    | (intro _)
    | split

theorem State.routeNow_fst (s : State) : (State.routeNow s).1.still = s.still := by
  unfold State.routeNow
  repeat' first
    | with_reducible rfl
    | simp only [↓still_mk, still_eta]
    | dsimp only
    | (refine still_foldl ?_ ?_)
    | (refine still_foldl_fst ?_ ?_)
    | (intro _)
    | split

theorem State.routeNow_of {s : State} {t : State} {c : Nat} (h : State.routeNow s = (t, c)) : t.still = s.still := by
  have := State.routeNow_fst s
  rw [h] at this
  exact this

theorem State.goRoute_still (s : State) (req : Option (Path × WbMsg × Bool)) : (State.goRoute s req).still = s.still := by
  unfold State.goRoute
  simp only [State.routeNow_fst, State.answerTo_still]

theorem State.readCatalog_fst (s : State) (k : Nat) (im : List Byte) : (State.readCatalog s k im).1.still = s.still := by
  unfold State.readCatalog
  dsimp only
  split
  · exact (State.emit_still ..).trans (State.count_still ..)
  · rfl

theorem State.ingestNow_fst (s : State) (k : Nat) (im : List Byte) : (State.ingestNow s k im).1.still = s.still := by
  unfold State.ingestNow
  dsimp only
  split
  · rfl
  · split
    · rfl
    · have h := State.readCatalog_fst s k im
      generalize s.readCatalog k im = x at h ⊢
      obtain ⟨u, l⟩ := x
      dsimp only at h ⊢
      split
      · exact (State.hubWrite_still ..).trans h
      · exact (State.restartIngest_still ..).trans ((State.updCtx_still ..).trans ((State.hubWrite_still ..).trans h))

theorem State.ingestNow_of {s : State} {k : Nat} {im : List Byte} {t : State} {c : Nat} (h : State.ingestNow s k im = (t, c)) : t.still = s.still := by
  have := State.ingestNow_fst s k im
  rw [h] at this
  exact this

theorem State.goIngest_still (s : State) (k : Nat) (im : List Byte) (req : Option (Path × WbMsg × Bool)) : (State.goIngest s k im req).still = s.still := by
  unfold State.goIngest
  simp only [State.ingestNow_fst, State.answerTo_still]

theorem State.updSample_still (s : State) (k q : Nat) (f : SampleSt → SampleSt) : (State.updSample s k q f).still = s.still := by
  unfold State.updSample
  simp only [State.updCtx_still]

theorem State.readAgain_still (s : State) (k q : Nat) : (State.readAgain s k q).still = s.still := by
  unfold State.readAgain
  simp only [State.updSample_still, State.count_still, State.readSample_still]

theorem State.readFailed_still (s : State) (k q sub : Nat) : (State.readFailed s k q sub).still = s.still := by
  unfold State.readFailed
  simp only [State.logFault_still, State.updSample_still, State.readAgain_still, State.event_still, apply_ite State.still, ite_self]

theorem State.sliceOut_still (s : State) (k q slice : Nat) : (State.sliceOut s k q slice).still = s.still := by
  unfold State.sliceOut
  simp only [State.setVal_still, State.logFault_still, State.emit_still, apply_ite State.still, ite_self]

theorem State.decodeBad_still (s : State) (k q x : Nat) : (State.decodeBad s k q x).still = s.still := by
  unfold State.decodeBad
  simp only [State.logFault_still, State.voidSample_still]

theorem State.decoded_still (s : State) (k q : Nat) (r : Option (Nat × Bool × List Raster)) : (State.decoded s k q r).still = s.still := by
  unfold State.decoded
  repeat' first
    | with_reducible rfl
    | simp only [State.decodeBad_still, State.voidSample_still, State.count_still, State.deliverSample_still]
    | dsimp only
    | (refine still_foldl ?_ ?_)
    | (refine still_foldl_fst ?_ ?_)
    | (intro _)
    | split

theorem State.retireAtStart_still (s : State) (cores : List Nat) : (State.retireAtStart s cores).still = s.still := by
  unfold State.retireAtStart
  repeat' first
    | with_reducible rfl
    | simp only [↓still_mk, still_eta]
    | dsimp only
    | (refine still_foldl ?_ ?_)
    | (refine still_foldl_fst ?_ ?_)
    | (intro _)
    | split

theorem State.selfTest_fst (s : State) (cause : Nat) (i : StartIn) : (State.selfTest s cause i).1.still = s.still := by
  unfold State.selfTest
  simp only [↓still_mk, still_eta, State.retireAtStart_still, State.setVal_still]

theorem State.selfTest_of {s : State} {cause : Nat} {i : StartIn} {t : State} {c : List (Nat × Nat)} (h : State.selfTest s cause i = (t, c)) : t.still = s.still := by
  have := State.selfTest_fst s cause i
  rw [h] at this
  exact this

theorem State.portsUp_still (s : State) : (State.portsUp s).still = s.still := by
  unfold State.portsUp
  repeat' first
    | with_reducible rfl
    | simp only [↓still_mk, still_eta, State.clearPort_still, State.startTraining_still]
    | dsimp only
    | (refine still_foldl ?_ ?_)
    | (refine still_foldl_fst ?_ ?_)
    | (intro _)
    | split

theorem State.startEvents_still (s : State) (l : List (Nat × Nat)) : (State.startEvents s l).still = s.still := by
  unfold State.startEvents
  repeat' first
    | with_reducible rfl
    | simp only [State.event_still]
    | dsimp only
    | (refine still_foldl ?_ ?_)
    | (refine still_foldl_fst ?_ ?_)
    | (intro _)

theorem State.powerDown_still (s : State) (p : Phase) : (State.powerDown s p).still = s.still := by
  unfold State.powerDown
  repeat' first
    | with_reducible rfl
    | simp only [↓still_mk, still_eta, State.eachCtx, State.updCtx_still]
    | dsimp only
    | (refine still_foldl ?_ ?_)
    | (refine still_foldl_fst ?_ ?_)
    | (intro _)

theorem State.losePower_still (s : State) : (State.losePower s).still = s.still := by
  unfold State.losePower
  split <;> simp only [↓still_mk, still_eta, State.powerDown_still]

theorem State.fwRefuse_still (s : State) (code what : Nat) : (State.fwRefuse s code what).still = s.still := by
  unfold State.fwRefuse
  simp only [↓still_mk, still_eta, State.event_still]

theorem State.goShEnter_still (s : State) (req : Option (Path × WbMsg × Bool)) : (State.goShEnter s req).still = s.still := by
  unfold State.goShEnter
  simp only [State.enterSafeHold_still, State.answerTo_still]

/-- A new record of the firmware that keeps the version and the owner counter. -/
theorem State.still_fw {s : State} {f : Fw} (ha : f.arb = s.fw.arb) (hc : f.counter = s.fw.counter) : State.still { s with fw := f } = s.still := by
  simp only [State.still, ha, hc]

theorem Fw.emptyVest_arb (f : Fw) (n : Nat) : (f.emptyVest n).arb = f.arb := rfl
theorem Fw.emptyVest_counter (f : Fw) (n : Nat) : (f.emptyVest n).counter = f.counter := rfl

theorem State.stageBlock_fst (s : State) (off len : Nat) (win : List Byte) : (State.stageBlock s off len win).1.still = s.still := by
  unfold State.stageBlock
  extract_lets f1 src f2 n f3
  have ha : f3.arb = s.fw.arb := by show f2.arb = _; simp only [f2, src, f1]; split <;> rfl
  have hc : f3.counter = s.fw.counter := by show f2.counter = _; simp only [f2, src, f1]; split <;> rfl
  clear_value f3
  split
  · exact State.still_fw ha hc
  · split
    · exact (State.event_still ..).trans (State.still_fw ha hc)
    · exact State.still_fw ha hc

theorem State.stageBlock_of {s : State} {off len : Nat} {win : List Byte} {t : State} {c : Nat} (h : State.stageBlock s off len win = (t, c)) : t.still = s.still := by
  have := State.stageBlock_fst s off len win
  rw [h] at this
  exact this

theorem State.submit_fst (s : State) (off len : Nat) (win : List Byte) (e : Env) : (State.submit s off len win e).1.still = s.still := by
  unfold State.submit
  split
  · rfl
  · split
    · rfl
    · split
      · exact State.still_fw rfl rfl
      · split
        · exact State.stageBlock_fst ..
        · rfl

theorem State.submit_of {s : State} {off len : Nat} {win : List Byte} {e : Env} {t : State} {c : Nat} (h : State.submit s off len win e = (t, c)) : t.still = s.still := by
  have := State.submit_fst s off len win e
  rw [h] at this
  exact this

theorem State.goFb_still (s : State) (off len : Nat) (e : Env) : (State.goFb s off len e).still = s.still := by
  unfold State.goFb
  extract_lets src u
  have hu : u.still = s.still := State.still_fw rfl rfl
  rcases h : u.submit off (len % 2 ^ 32) (e.window.take 65536) e with ⟨t, c⟩
  have ht : t.still = s.still := (State.submit_of h).trans hu
  dsimp only
  have h2 : ∀ x : State, x.still = s.still → ∀ v : Nat, (let y : State := { x with fw := { x.fw with fbCode := c, fbDone := x.fw.fbDone + 1 } }
      if v = 0xFFFF then y else y.emit (.msix 0 v)).still = s.still := by
    intro x hx v
    have hy : State.still { x with fw := { x.fw with fbCode := c, fbDone := x.fw.fbDone + 1 } } = s.still := (State.still_fw rfl rfl).trans hx
    simp only [apply_ite State.still, State.emit_still, hy, ite_self]
  refine h2 _ ?_ _
  split
  · exact ht
  · exact (State.fwRefuse_still ..).trans ht

theorem State.goActTag_still (s : State) (v : Nat) (req : Option (Path × WbMsg × Bool)) : (State.goActTag s v req).still = s.still := by
  unfold State.goActTag
  repeat' first
    | with_reducible rfl
    | simp only [↓still_mk, still_eta, State.fwWrite, State.fwRefuse_still, State.answerTo_still]
    | dsimp only
    | (refine still_foldl ?_ ?_)
    | (refine still_foldl_fst ?_ ?_)
    | (intro _)
    | split

theorem State.goOwnerKey_still (s : State) (key : List Byte) (req : Option (Path × WbMsg × Bool)) : (State.goOwnerKey s key req).still = s.still := by
  unfold State.goOwnerKey
  repeat' first
    | with_reducible rfl
    | simp only [State.fwWrite, State.fwRefuse_still, State.answerTo_still, State.setBlob_still]
    | dsimp only
    | (refine still_foldl ?_ ?_)
    | (refine still_foldl_fst ?_ ?_)
    | (intro _)
    | split

theorem State.goAttest_still (s : State) (nonce : Nat) (req : Option (Path × WbMsg × Bool)) : (State.goAttest s nonce req).still = s.still := by
  unfold State.goAttest
  simp only [↓still_mk, still_eta, State.answerTo_still]

theorem State.holdFly_still (s old : State) : (State.holdFly s old).still = s.still := by
  unfold State.holdFly
  repeat' first
    | with_reducible rfl
    | simp only [↓still_mk, still_eta]
    | dsimp only
    | (refine still_foldl ?_ ?_)
    | (refine still_foldl_fst ?_ ?_)
    | (intro _)
    | split

theorem State.dropRegion_still (s : State) (k i : Nat) (r : Region) : (State.dropRegion s k i r).still = s.still := by
  unfold State.dropRegion
  simp only [State.updCtx_still]

theorem State.tableMoves_still (s old : State) (e sub : Nat) : (State.tableMoves s old e sub).still = s.still := by
  unfold State.tableMoves
  repeat' first
    | with_reducible rfl
    | simp only [State.dropRegion_still]
    | dsimp only
    | (refine still_foldl ?_ ?_)
    | (refine still_foldl_fst ?_ ?_)
    | (intro _)
    | split

theorem State.holdNode_still (s old : State) : (State.holdNode s old).still = s.still := by
  unfold State.holdNode
  repeat' first
    | with_reducible rfl
    | simp only [↓still_mk, still_eta, ]
    | dsimp only
    | (refine still_foldl ?_ ?_)
    | (refine still_foldl_fst ?_ ?_)
    | (intro _)
    | split

theorem State.tableTaken_still (s old : State) (e sub hi : Nat) : (State.tableTaken s old e sub hi).still = s.still := by
  unfold State.tableTaken
  repeat' first
    | with_reducible rfl
    | simp only [↓still_mk, still_eta, State.updCtx_still, State.portsFollow_still, State.holdFly_still, State.holdNode_still]
    | dsimp only
    | (refine still_foldl ?_ ?_)
    | (refine still_foldl_fst ?_ ?_)
    | (intro _)
    | split

theorem State.setFly_still (s : State) (v : Nat) : (State.setFly s v).still = s.still := by
  unfold State.setFly
  repeat' first
    | with_reducible rfl
    | simp only [↓still_mk, still_eta, State.portsFollow_still, State.holdNode_still]
    | dsimp only
    | (refine still_foldl ?_ ?_)
    | (refine still_foldl_fst ?_ ?_)
    | (intro _)
    | split

theorem State.pitched_still (s : State) (v : Nat) : (State.pitched s v).still = s.still := by
  unfold State.pitched
  repeat' first
    | with_reducible rfl
    | simp only [State.event_still, State.setFly_still, State.eachCtx, State.after_still]
    | dsimp only
    | (refine still_foldl ?_ ?_)
    | (refine still_foldl_fst ?_ ?_)
    | (intro _)

theorem State.pitchNow_fst (s : State) (v : Nat) : (State.pitchNow s v).1.still = s.still := by
  unfold State.pitchNow
  repeat' first
    | with_reducible rfl
    | simp only [↓still_mk, still_eta, State.event_still, State.setFly_still]
    | dsimp only
    | (refine still_foldl ?_ ?_)
    | (refine still_foldl_fst ?_ ?_)
    | (intro _)
    | split

theorem State.pitchNow_of {s : State} {v : Nat} {t : State} {c : Nat} (h : State.pitchNow s v = (t, c)) : t.still = s.still := by
  have := State.pitchNow_fst s v
  rw [h] at this
  exact this

theorem State.goPitch_still (s : State) (v : Nat) (req : Option (Path × WbMsg × Bool)) : (State.goPitch s v req).still = s.still := by
  unfold State.goPitch
  simp only [State.pitchNow_fst, State.answerTo_still]

theorem State.shareNow_fst (s : State) : (State.shareNow s).1.still = s.still := by
  unfold State.shareNow
  repeat' first
    | with_reducible rfl
    | simp only [State.updCtx_still]
    | dsimp only
    | (refine still_foldl ?_ ?_)
    | (refine still_foldl_fst ?_ ?_)
    | (intro _)
    | split

theorem State.shareNow_of {s : State} {t : State} {c : Nat} (h : State.shareNow s = (t, c)) : t.still = s.still := by
  have := State.shareNow_fst s
  rw [h] at this
  exact this

theorem State.goShare_still (s : State) (req : Option (Path × WbMsg × Bool)) : (State.goShare s req).still = s.still := by
  unfold State.goShare
  simp only [State.shareNow_fst, State.answerTo_still]

theorem State.rearmNow_fst (s : State) (k mp : Nat) : (State.rearmNow s k mp).1.still = s.still := by
  unfold State.rearmNow
  repeat' first
    | with_reducible rfl
    | simp only [State.setArm_still, State.postMp_still]
    | dsimp only
    | (refine still_foldl ?_ ?_)
    | (refine still_foldl_fst ?_ ?_)
    | (intro _)
    | split

theorem State.rearmNow_of {s : State} {k mp : Nat} {t : State} {c : Nat} (h : State.rearmNow s k mp = (t, c)) : t.still = s.still := by
  have := State.rearmNow_fst s k mp
  rw [h] at this
  exact this

theorem State.goRearm_still (s : State) (k mp : Nat) (req : Option (Path × WbMsg × Bool)) : (State.goRearm s k mp req).still = s.still := by
  unfold State.goRearm
  simp only [State.rearmNow_fst, State.answerTo_still]

theorem State.stepGroupNow_fst (s : State) (k v : Nat) : (State.stepGroupNow s k v).1.still = s.still := by
  unfold State.stepGroupNow
  repeat' first
    | with_reducible rfl
    | simp only [State.setVal_still, State.setPmp_still]
    | dsimp only
    | (refine still_foldl ?_ ?_)
    | (refine still_foldl_fst ?_ ?_)
    | (intro _)
    | split

theorem State.stepGroupNow_of {s : State} {k v : Nat} {t : State} {c : Nat} (h : State.stepGroupNow s k v = (t, c)) : t.still = s.still := by
  have := State.stepGroupNow_fst s k v
  rw [h] at this
  exact this

theorem State.goStepGroup_still (s : State) (k v : Nat) (req : Option (Path × WbMsg × Bool)) : (State.goStepGroup s k v req).still = s.still := by
  unfold State.goStepGroup
  simp only [State.stepGroupNow_fst, State.answerTo_still]

theorem State.reply_still (s : State) (p : Path) (m : WbMsg) (req : Option (Path × WbMsg × Bool)) (code : Nat) (data : List Byte) : (State.reply s p m req code data).still = s.still := by
  unfold State.reply
  split <;> simp only [↓still_mk, still_eta, State.respond_still, State.emit_still]

theorem State.refusedTxn_still (s w : State) (code : Nat) (entry sub : Nat) : (State.refusedTxn s w code entry sub).still = s.still := by
  unfold State.refusedTxn
  simp only [State.fwRefuse_still, State.updCtx_still, apply_ite State.still, ite_self]

theorem State.setStage_still (s : State) (p : Path) (st : Option (List TxnItem)) : (State.setStage s p st).still = s.still := by
  unfold State.setStage
  simp only [State.updPath_still]

theorem State.forward_still (s : State) (port1 : Bool) (f : MgFrame) : (State.forward s port1 f).still = s.still := by
  unfold State.forward
  simp only [State.emit_still, apply_ite State.still, ite_self]

theorem State.windowWrite_still (s : State) (k offset v : Nat) : (State.windowWrite s k offset v).still = s.still := by
  unfold State.windowWrite
  simp only [State.setPmp_still, State.cvalChanged_still, State.after_still, apply_ite State.still, ite_self]

theorem State.dropStage_still (s : State) (p : Path) : (State.dropStage s p).still = s.still := by
  unfold State.dropStage
  repeat' first
    | with_reducible rfl
    | simp only [↓still_mk, still_eta, ]
    | dsimp only
    | (refine still_foldl ?_ ?_)
    | (refine still_foldl_fst ?_ ?_)
    | (intro _)
    | split

theorem State.failMember_still (s : State) (k rank : Nat) : (State.failMember s k rank).still = s.still := by
  unfold State.failMember
  repeat' first
    | with_reducible rfl
    | simp only [State.updCtx_still]
    | dsimp only
    | (refine still_foldl ?_ ?_)
    | (refine still_foldl_fst ?_ ?_)
    | (intro _)
    | split

theorem State.takeChunk_still (s : State) (k chunk : Nat) (r : Refill) (h : SlotHead) (bytes : List Byte) : (State.takeChunk s k chunk r h bytes).still = s.still := by
  unfold State.takeChunk
  repeat' first
    | with_reducible rfl
    | simp only [State.updCtx_still, State.refillDone_still, State.refetch_still]
    | dsimp only
    | (refine still_foldl ?_ ?_)
    | (refine still_foldl_fst ?_ ?_)
    | (intro _)
    | split

theorem State.compareChunk_still (s : State) (k chunk : Nat) (r : Refill) (rep : Replica) : (State.compareChunk s k chunk r rep).still = s.still := by
  unfold State.compareChunk
  repeat' first
    | with_reducible rfl
    | simp only [State.updCtx_still, State.event_still, State.refillDone_still, State.rereadFrom_still]
    | dsimp only
    | (refine still_foldl ?_ ?_)
    | (refine still_foldl_fst ?_ ?_)
    | (intro _)
    | split

end Sys2Proof.Machine
end

