-- ==== Sys2Proof/Laws/Kept.lean ====
section
/-!
SUPPORT. What no command but those of the TAP can undo: the anti-rollback version and the owner counter never fall, and the queue of waiting
commands and the TAP stay as they are.
-/

namespace Sys2Proof.Machine

open Sys2Proof.WB

/-- From `s` to `t` the anti-rollback version and the owner counter did not fall, the queue is the same, and the TAP has at most let go of the
pins. -/
structure Kept (s t : State) : Prop where
  arb : s.fw.arb ≤ t.fw.arb
  counter : s.fw.counter ≤ t.fw.counter
  pending : t.pending = s.pending
  tap : t.tap = s.tap ∨ t.tap = s.tap.release

theorem Kept.of_still {s t : State} (h : t.still = s.still) : Kept s t :=
  ⟨(congrArg Still.arb h).ge, (congrArg Still.counter h).ge, congrArg Still.pending h, .inl (congrArg Still.tap h)⟩

theorem Kept.of_tap {s t : State} {p : Tap} (h : t.still = { s.still with tap := p }) (hp : p = s.tap ∨ p = s.tap.release) : Kept s t :=
  ⟨(congrArg Still.arb h).ge, (congrArg Still.counter h).ge, congrArg Still.pending h, by rwa [show t.tap = p from congrArg Still.tap h]⟩

theorem Kept.refl (s : State) : Kept s s := .of_still rfl

theorem Kept.trans {s t u : State} (h : Kept s t) (g : Kept t u) : Kept s u :=
  ⟨h.arb.trans g.arb, h.counter.trans g.counter, g.pending.trans h.pending, by
    rcases h.tap with ha | ha <;> rcases g.tap with hb | hb <;> rw [hb, ha]
    · exact .inl rfl
    · exact .inr rfl
    · exact .inr rfl
    · exact .inr rfl⟩

/-- First a step that keeps the four as they are, and then another. -/
theorem Kept.after {s t u : State} (h : t.still = s.still) (g : Kept t u) : Kept s u := (Kept.of_still h).trans g

theorem Kept.ite {s a b : State} {p : Prop} [Decidable p] (ha : Kept s a) (hb : Kept s b) : Kept s (if p then a else b) := by
  split
  · exact ha
  · exact hb

/-- A new record of the firmware. -/
theorem Kept.fw {s : State} {f : Fw} (ha : s.fw.arb ≤ f.arb) (hc : s.fw.counter ≤ f.counter) : Kept s { s with fw := f } := ⟨ha, hc, rfl, .inl rfl⟩

/-! ### The firmware -/

theorem Fw.setActive_arb (f : Fw) (x : FwSlot) : (f.setActive x).arb = f.arb := by unfold Fw.setActive; split <;> rfl
theorem Fw.setActive_counter (f : Fw) (x : FwSlot) : (f.setActive x).counter = f.counter := by unfold Fw.setActive; split <;> rfl
theorem Fw.setOther_arb (f : Fw) (x : FwSlot) : (f.setOther x).arb = f.arb := by unfold Fw.setOther; split <;> rfl
theorem Fw.setOther_counter (f : Fw) (x : FwSlot) : (f.setOther x).counter = f.counter := by unfold Fw.setOther; split <;> rfl
theorem Fw.flip_arb (f : Fw) (a b : FwState) : (f.flip a b).arb = f.arb := (Fw.setOther_arb _ _).trans (Fw.setActive_arb _ _)
theorem Fw.flip_counter (f : Fw) (a b : FwState) : (f.flip a b).counter = f.counter := (Fw.setOther_counter _ _).trans (Fw.setActive_counter _ _)

theorem Fw.check_keeps {f g : Fw} {i : StartIn} {ev : List (Nat × Nat)} (h : f.check i = some (g, ev)) : g.arb = f.arb ∧ g.counter = f.counter := by
  unfold Fw.check at h
  extract_lets ok at h
  clear_value ok
  split at h
  · cases h; exact ⟨rfl, rfl⟩
  · split at h
    · cases h; exact ⟨Fw.flip_arb .., Fw.flip_counter ..⟩
    · cases h

theorem Fw.activate_keeps (f : Fw) (tag : Nat) (i : StartIn) : (f.activate tag i).1.arb = f.arb ∧ (f.activate tag i).1.counter = f.counter := by
  unfold Fw.activate
  split
  · exact ⟨(Fw.flip_arb ..).trans (Fw.setOther_arb ..), (Fw.flip_counter ..).trans (Fw.setOther_counter ..)⟩
  · exact ⟨Fw.setOther_arb .., Fw.setOther_counter ..⟩

theorem Fw.rollback_keeps (f : Fw) (tag : Nat) : (f.rollback tag).1.arb = f.arb ∧ (f.rollback tag).1.counter = f.counter := by
  unfold Fw.rollback
  split
  · exact ⟨Fw.flip_arb .., Fw.flip_counter ..⟩
  · exact ⟨rfl, rfl⟩

theorem Fw.boot_keeps {f g : Fw} {tag : Nat} {i : StartIn} {ev : List (Nat × Nat)} (h : f.boot tag i = some (g, ev)) :
    g.arb = f.arb ∧ g.counter = f.counter := by
  have hr := Fw.rollback_keeps f tag
  unfold Fw.boot at h
  generalize f.rollback tag = r at h hr
  obtain ⟨f0, ev0⟩ := r
  dsimp only at h
  split at h
  · cases h
  · rename_i f' ev' hc
    have hk := Fw.check_keeps hc
    split at h
    · cases h
      have ha := Fw.activate_keeps f' tag i
      exact ⟨(ha.1.trans hk.1).trans hr.1, (ha.2.trans hk.2).trans hr.2⟩
    · cases h; exact ⟨hk.1.trans hr.1, hk.2.trans hr.2⟩

/-! ### Starts -/

theorem State.cleared_kept (s : State) : Kept s s.cleared := ⟨le_rfl, le_rfl, rfl, .inr rfl⟩

theorem State.powerDown_kept (s : State) (p : Phase) : Kept s (s.powerDown p) := .of_still (State.powerDown_still ..)

theorem State.abandon_kept (s : State) : Kept s s.abandon := by
  unfold State.abandon
  have h := State.powerDown_kept s .off
  generalize s.powerDown .off = w at h ⊢
  exact ⟨h.arb, h.counter, h.pending, h.tap⟩

theorem State.startEnd_kept (s : State) (cause tag : Nat) (ev : List (Nat × Nat)) : Kept s (s.startEnd cause tag ev) := by
  unfold State.startEnd
  dsimp only
  generalize hg : (if s.fw.active.st = .trial then _ else _ : Fw) = g
  refine Kept.trans (.fw ?_ ?_) (.of_still (State.startEvents_still ..))
  · rw [← hg]
    split
    · exact le_max_left ..
    · exact le_rfl
  · rw [← hg]
    split
    · exact (Fw.setActive_counter ..).ge
    · exact le_rfl

theorem State.boot_kept (n : Nat) (s : State) (cause tag : Nat) (i : StartIn) (ev : List (Nat × Nat)) : Kept s (s.boot n cause tag i ev) := by
  induction n generalizing s cause tag i ev with
  | zero => exact .refl _
  | succ n ih =>
    unfold State.boot
    extract_lets a b opens c
    have hb : Kept s b := (State.cleared_kept s).trans ⟨le_rfl, le_rfl, rfl, .inl rfl⟩
    have hc : Kept s c := by
      show Kept s (if _ then _ else _ : State)
      exact .ite ⟨hb.arb, hb.counter, hb.pending, hb.tap⟩ hb
    clear_value b c
    refine .ite (hb.trans (State.abandon_kept _)) ?_
    split
    · exact ⟨hc.arb, hc.counter, hc.pending, hc.tap⟩
    · rename_i f ev' hf
      have hk := Fw.boot_keeps hf
      extract_lets d
      have hd : Kept s d := by
        refine Kept.trans ?_ (.of_still (State.setVal_still ..))
        exact ⟨hc.arb.trans hk.1.ge, hc.counter.trans hk.2.ge, hc.pending, hc.tap⟩
      clear_value d
      refine .ite (hd.trans (State.abandon_kept _)) ?_
      rcases he : d.selfTest cause i with ⟨e, ev5⟩
      dsimp only
      generalize hfly : (if i.bootSafe = true then 5 else if cause = 3 then 4 else 0) = fly
      have hfl : Kept s { e with fly := fly } := hd.trans ((Kept.of_still (State.selfTest_of he)).trans ⟨le_rfl, le_rfl, rfl, .inl rfl⟩)
      refine .ite (hfl.trans (State.abandon_kept _)) ?_
      refine .ite ((hfl.trans (.fw (Fw.flip_arb ..).ge (Fw.flip_counter ..).ge)).trans (ih ..)) ?_
      have hp := Kept.trans (hfl.trans (t := _) (u := { e with fly := fly, cxl := i.cxl }) ⟨le_rfl, le_rfl, rfl, .inl rfl⟩)
        (.of_still (State.portsUp_still _))
      generalize State.portsUp _ = w at hp ⊢
      exact .ite ⟨hp.arb, hp.counter, hp.pending, hp.tap⟩ (hp.trans (State.startEnd_kept ..))

theorem State.revertStart_kept (s : State) (i : StartIn) : Kept s (s.revertStart i) :=
  (Kept.fw (Fw.flip_arb ..).ge (Fw.flip_counter ..).ge).trans (State.boot_kept ..)

theorem State.startPart_kept (s : State) (cause tag : Nat) (i : StartIn) : Kept s (s.startPart cause tag i) := by
  unfold State.startPart
  exact .ite (State.revertStart_kept ..) (State.boot_kept ..)

theorem State.goRestart_kept (s : State) (i : StartIn) (req : Option (Path × WbMsg × Bool)) : Kept s (s.goRestart i req) := by
  unfold State.goRestart
  split
  · exact .of_still ((State.answerTo_still ..).trans (State.fwRefuse_still ..))
  · exact .after (State.answerTo_still ..) (State.startPart_kept ..)

theorem State.goShExit_kept (s : State) (i : StartIn) (req : Option (Path × WbMsg × Bool)) : Kept s (s.goShExit i req) := by
  unfold State.goShExit
  exact .ite (.after (State.answerTo_still ..) (State.startPart_kept ..)) (.of_still (State.answerTo_still ..))

/-! ### Owner authorization -/

theorem State.token_rises {s : State} {t : List Byte} {e : Env} (h : s.tokenBad t e = false) :
    s.fw.counter ≤ Bits.ofBytes ((t.drop 16).take 8) := by
  unfold State.tokenBad at h
  simp only [Bool.or_eq_false_iff, decide_eq_false_iff_not, Nat.not_le] at h
  exact h.1.1.1.2.le

theorem State.goToken_kept (s : State) (t : List Byte) (e : Env) (req : Option (Path × WbMsg × Bool)) : Kept s (s.goToken t e req) := by
  unfold State.goToken State.fwWrite
  split
  · exact .of_still ((State.answerTo_still ..).trans (State.fwRefuse_still ..))
  · rename_i h
    have hb : s.tokenBad t e = false := by
      by_contra hb
      rw [Bool.not_eq_false] at hb
      simp [hb] at h
    dsimp only
    refine Kept.trans ?_ (.of_still ((State.answerTo_still ..).trans (State.event_still ..)))
    exact .fw le_rfl (State.token_rises hb)

/-! ### The Waybill -/

theorem State.doWrite_kept (s : State) (e sub v : Nat) (env : Env) (req : Option (Path × WbMsg × Bool)) : Kept s (s.doWrite e sub v env req) := by
  have go (t : State) (h : Kept s t) : Kept s (if v = 1 then t else s.answerTo req 0) := .ite h (.of_still (State.answerTo_still ..))
  unfold State.doWrite
  extract_lets k act fw t code w
  refine .ite (.of_still (State.goPitch_still ..)) ?_
  refine .ite (.of_still (State.goMapPresent_still ..)) ?_
  refine .ite (go _ (.of_still (State.goOpen_still ..))) ?_
  refine .ite (go _ (.of_still (State.goLoad_still ..))) ?_
  refine .ite (go _ (.of_still (State.goStart_still ..))) ?_
  refine .ite (go _ (.of_still (State.goSave_still ..))) ?_
  refine .ite (go _ (.of_still (State.goResume_still ..))) ?_
  refine .ite (go _ (.of_still (State.goTear_still ..))) ?_
  refine .ite (go _ (.of_still (State.goAbort_still ..))) ?_
  refine .ite (go _ (.of_still (State.goShare_still ..))) ?_
  refine .ite (.of_still (State.goRearm_still ..)) ?_
  refine .ite (.of_still (State.goStepGroup_still ..)) ?_
  refine .ite (go _ (.of_still (State.goPlace_still ..))) ?_
  refine .ite (.of_still (State.goPortCfg_still ..)) ?_
  refine .ite (.of_still (State.goBypassForce_still ..)) ?_
  refine .ite (go _ (.of_still (State.goRoute_still ..))) ?_
  refine .ite (go _ (.of_still (State.goIngest_still ..))) ?_
  refine .ite (go _ (.of_still (State.goPair_still ..))) ?_
  refine .ite (go _ (.of_still (State.goRestore_still ..))) ?_
  refine .ite (go _ (.of_still (State.goSalvage_still ..))) ?_
  refine .ite (.of_still (State.goActTag_still ..)) ?_
  refine .ite (.after (State.still_fw rfl rfl) (.of_still (State.answerTo_still ..))) ?_
  refine .ite (go _ (State.goRestart_kept ..)) ?_
  refine .ite (go _ (.of_still (State.goShEnter_still ..))) ?_
  refine .ite (go _ (State.goShExit_kept ..)) ?_
  refine .ite (.of_still (State.goAttest_still ..)) ?_
  have h : Kept s w := by
    have ht : Kept s t := .of_still (State.putVal_still ..)
    clear_value t
    exact ht.trans (.ite ⟨le_rfl, le_rfl, rfl, .inr rfl⟩ (.refl _))
  clear_value w
  refine h.trans (.of_still ((State.answerTo_still ..).trans ?_))
  simp only [apply_ite State.still, State.startIngest_still, ite_self]

theorem State.goWrite_kept (s : State) (p : Path) (e sub off : Nat) (data : List Byte) (env : Env) (req : Option (Path × WbMsg × Bool)) :
    Kept s (s.goWrite p e sub off data env req) := by
  unfold State.goWrite
  split
  · exact .of_still (State.answerTo_still ..)
  · split
    · exact .of_still (State.answerTo_still ..)
    · exact State.doWrite_kept ..

theorem State.blobItem_kept (s : State) (p : Path) (r : Dict.Row) (i : TxnItem) (env : Env) : Kept s (s.blobItem p r i env).1 := by
  unfold State.blobItem
  obtain ⟨e, sub, off, data⟩ := i
  dsimp only
  split
  · exact .refl _
  · split
    · exact .refl _
    · exact .of_still (State.setBlob_still ..)

theorem State.txnItem_kept (s : State) (p : Path) (i : TxnItem) (env : Env) : Kept s (s.txnItem p i env).1 := by
  unfold State.txnItem
  split
  · exact .refl _
  · split
    · exact State.blobItem_kept ..
    · dsimp only
      refine Kept.trans ?_ (State.goWrite_kept ..)
      exact ⟨le_rfl, le_rfl, rfl, .inl rfl⟩

theorem State.txnItems_kept (p : Path) (env : Env) (l : List TxnItem) (s : State) (code n : Nat) : Kept s (s.txnItems p env l code n).1 := by
  induction l generalizing s code n with
  | nil => exact .refl _
  | cons i t ih =>
    rw [State.txnItems]
    have h := State.txnItem_kept s p i env
    generalize s.txnItem p i env = x at h ⊢
    dsimp only
    split
    · exact h.trans (ih ..)
    · exact h

theorem State.blobEnd_kept (s old : State) (items : List TxnItem) (e sub : Nat) (env : Env) : Kept s (s.blobEnd old items e sub env).1 := by
  unfold State.blobEnd
  split
  · exact State.goToken_kept ..
  · split
    · exact .of_still (State.goOwnerKey_still ..)
    · extract_lets t
      split
      · exact .of_still (State.tableMoves_still ..)
      · exact .of_still ((State.tableTaken_still ..).trans (State.tableMoves_still ..))

theorem State.blobEnds_kept (old : State) (items : List TxnItem) (env : Env) (l : List (Nat × Nat × Nat)) (s : State) :
    Kept s (s.blobEnds old items env l).1 := by
  induction l generalizing s with
  | nil => exact .refl _
  | cons i t ih =>
    obtain ⟨e, sub, n⟩ := i
    rw [State.blobEnds]
    have h := State.blobEnd_kept s old items e sub env
    generalize s.blobEnd old items e sub env = x at h ⊢
    dsimp only
    split
    · exact h.trans (ih ..)
    · exact h

theorem State.answerTxn_kept (s old : State) (req : Option (Path × WbMsg × Bool)) (code : Nat) : Kept s (s.answerTxn old req code) := by
  unfold State.answerTxn
  exact .ite (.of_still rfl) (.of_still (State.answerTo_still ..))

theorem State.applyTxn_kept (s : State) (p : Path) (items : List TxnItem) (env : Env) (req : Option (Path × WbMsg × Bool)) :
    Kept s (s.applyTxn p items env req) := by
  unfold State.applyTxn
  extract_lets fail
  have hf (w : State) (c n : Nat) : Kept s (fail w c n) := by
    have h (x : Nat) : Kept s { s.refusedTxn w c (items.getD n (0, 0, 0, [])).1 (items.getD n (0, 0, 0, [])).2.1 with answer := x } :=
      (Kept.of_still (State.refusedTxn_still ..)).trans ⟨le_rfl, le_rfl, rfl, .inl rfl⟩
    dsimp only [fail]
    split
    · exact (h c).trans (.of_still (State.respond_still ..))
    · exact h c
  clear_value fail
  have h := State.txnItems_kept p env items s 0 0
  generalize s.txnItems p env items 0 0 = x at h ⊢
  dsimp only
  split
  · exact hf ..
  split
  · exact hf ..
  · have g := State.blobEnds_kept s items env (blobsOf items) x.1
    generalize x.1.blobEnds s items env (blobsOf items) = y at g ⊢
    split
    · exact hf ..
    · exact (h.trans g).trans (State.answerTxn_kept ..)

theorem State.goBlock_kept (s : State) (p : Path) (first last : Bool) (i : TxnItem) (env : Env) (req : Option (Path × WbMsg × Bool)) :
    Kept s (s.goBlock p first last i env req) := by
  unfold State.goBlock
  split
  · exact .of_still (State.answerTo_still ..)
  · extract_lets l
    refine .ite (.of_still ((State.answerTo_still ..).trans (State.setStage_still ..))) (.ite ?_ ?_)
    · exact .after (State.setStage_still ..) (State.applyTxn_kept ..)
    · exact .of_still ((State.answerTo_still ..).trans (State.setStage_still ..))

theorem State.serve_kept (s : State) (p : Path) (port1 : Bool) (m : WbMsg) (e : Env) : Kept s (s.serve p port1 m e) := by
  unfold State.serve
  dsimp only
  split
  · exact .of_still (State.reply_still ..)
  · exact State.goWrite_kept ..
  · exact .of_still (State.reply_still ..)
  · exact State.goBlock_kept ..

theorem State.receive_kept (s : State) (p : Path) (port1 : Bool) (m : WbMsg) (e : Env) : Kept s (s.receive p port1 m e) := by
  have h : Kept s (if msgBad p m then s.answerTo (some (p, m, port1)) 0x06 else s.serve p port1 m e) :=
    .ite (.of_still (State.answerTo_still ..)) (State.serve_kept ..)
  unfold State.receive
  refine .ite (.refl _) ?_
  split
  · exact .ite (.of_still (State.respond_still ..)) h
  · exact h

/-! ### The wrappers of the commands -/

theorem next_kept {s t u : State} (hk : Kept s u) (h : (.next u : Host.Outcome State Fault Refusal) = .next t) : Kept s t := by
  cases h
  exact hk

theorem whenUp_kept {s t : State} {f : State → State} (hf : Kept s (f s)) (h : whenUp s f = .next t) : Kept s t :=
  next_kept (.ite hf (.refl _)) h

theorem onPath_kept {p : Path} {s t : State} {f : State → State} (hf : Kept s (f s)) (h : onPath p s f = .next t) : Kept s t :=
  whenUp_kept (.ite hf (.refl _)) h

theorem onCore_kept {s t : State} {c : Nat} {f : State → State} (hf : Kept s (f s)) (h : onCore c s f = .next t) : Kept s t := by
  unfold onCore at h
  split at h
  · cases h
  · exact next_kept hf h

theorem onDie_kept {s t : State} {d : Nat} {f : State → State} (hf : Kept s (f s)) (h : onDie d s f = .next t) : Kept s t := by
  unfold onDie at h
  split at h
  · cases h
  · exact whenUp_kept hf h

theorem onMessage_kept {s t : State} {n : Nat} {k : CtxId} {m : CMsg} {f : State → State} (hf : ∀ s, (f s).still = s.still)
    (h : onMessage n k m s f = .next t) : Kept s t := by
  unfold onMessage at h
  refine whenUp_kept ?_ h
  exact (.ite (.refl _) (.of_still ((State.after_still ..).trans (hf _))))

theorem onCaravan_kept {s t : State} {k : CtxId} {f : State → State} (hf : ∀ s, (f s).still = s.still) (h : onCaravan k s f = .next t) : Kept s t := by
  unfold onCaravan at h
  refine whenUp_kept ?_ h
  exact (.ite (.refl _) (.of_still ((State.after_still ..).trans (hf _))))

theorem onBivouac_kept {s t : State} {k : CtxId} {f : State → State} (hf : ∀ s, (f s).still = s.still) (h : onBivouac k s f = .next t) : Kept s t := by
  unfold onBivouac at h
  refine whenUp_kept ?_ h
  exact (.ite (.refl _) (.of_still ((State.after_still ..).trans (hf _))))

theorem onIngest_kept {s t : State} {k : CtxId} {f : State → State} (hf : ∀ s, (f s).still = s.still) (h : onIngest k s f = .next t) : Kept s t := by
  unfold onIngest at h
  refine whenUp_kept ?_ h
  exact (.ite (.refl _) (.of_still ((State.after_still ..).trans (hf _))))

theorem onFrame_kept {s t : State} {p : PortId} {n : Nat} {d : DFrame} {f : State → State} (hf : ∀ s, (f s).still = s.still)
    (h : onFrame p n d s f = .next t) : Kept s t := by
  unfold onFrame at h
  exact next_kept (.ite (.of_still (State.emit_still ..)) (.ite (.refl _) (.of_still ((hf _).trans (State.corrected_still ..))))) h

theorem onEngine_kept {s t : State} {c : Nat} {f : State → State} (hf : (f s).still = s.still) (h : onEngine c s f = .next t) : Kept s t := by
  refine onCore_kept (.ite ?_ (.refl _)) h
  split
  · exact .of_still ((State.after_still ..).trans hf)
  · exact .of_still hf

theorem issue_kept {s t : State} {oc : OpCode} {b : Bool} {q : QRef} {body : Nat → Act} (hf : ∀ w, (body w).Still s.still)
    (h : issue oc b q s body = .next t) : Kept s t :=
  onCore_kept (.ite (.of_still (State.tryIssue_still _ _ _ _ _ hf)) (.refl _)) h

end Sys2Proof.Machine
end

