-- ==== Sys2Proof/Laws/KeptCommands.lean ====
section
/-!
SUPPORT. Every command but those of the TAP keeps what Laws/Kept.lean names.
-/

namespace Sys2Proof.Machine

open Sys2Proof.WB

theorem execNop_kept (at_ : QRef) (s : State) {t : State} (h : execNop at_ s = .next t) : Kept s t := by
  unfold execNop at h
  refine issue_kept (fun w => ?_) h
  simp only [act_go, Act.done]

theorem execHalt_kept (at_ : QRef) (s : State) {t : State} (h : execHalt at_ s = .next t) : Kept s t := by
  unfold execHalt at h
  refine issue_kept (fun w => ?_) h
  dsimp only
  split
  · exact act_notYet _
  · simp only [act_halt]

theorem execLoop_kept (at_ : QRef) (s : State) {t : State} (h : execLoop at_ s = .next t) : Kept s t := by
  unfold execLoop at h
  refine issue_kept (fun w => ?_) h
  repeat' first
    | with_reducible rfl
    | simp only [act_halt, act_go, State.updQueue_still]
    | dsimp only
    | (refine still_foldl ?_ ?_)
    | (refine still_foldl_fst ?_ ?_)
    | (intro _)
    | split

theorem execBr_kept (at_ : QRef) (s : State) {t : State} (h : execBr at_ s = .next t) : Kept s t := by
  unfold execBr at h
  refine issue_kept (fun w => ?_) h
  repeat' first
    | with_reducible rfl
    | (exact branchTo_still (hk := rfl) ..)

theorem execBrc_kept (at_ : QRef) (s : State) {t : State} (h : execBrc at_ s = .next t) : Kept s t := by
  unfold execBrc at h
  refine issue_kept (fun w => ?_) h
  repeat' first
    | with_reducible rfl
    | (exact branchTo_still (hk := rfl) ..)
    | simp only [act_go, Act.done]
    | dsimp only
    | (refine still_foldl ?_ ?_)
    | (refine still_foldl_fst ?_ ?_)
    | (intro _)
    | split

theorem execBsw_kept (at_ : QRef) (s : State) {t : State} (h : execBsw at_ s = .next t) : Kept s t := by
  unfold execBsw at h
  refine issue_kept (fun w => ?_) h
  repeat' first
    | with_reducible rfl
    | simp only [act_halt, act_go]
    | dsimp only
    | (refine still_foldl ?_ ?_)
    | (refine still_foldl_fst ?_ ?_)
    | (intro _)
    | split

theorem execWait_kept (at_ : QRef) (s : State) {t : State} (h : execWait at_ s = .next t) : Kept s t :=
  issue_kept (fun _ => bodyWait_still (hk := rfl) ..) h

theorem execWaitmin_kept (at_ : QRef) (s : State) {t : State} (h : execWaitmin at_ s = .next t) : Kept s t :=
  issue_kept (fun _ => bodyWait_still (hk := rfl) ..) h

theorem execMpadv_kept (at_ : QRef) (s : State) {t : State} (h : execMpadv at_ s = .next t) : Kept s t := by
  unfold execMpadv at h
  refine issue_kept (fun w => ?_) h
  repeat' first
    | with_reducible rfl
    | simp only [act_halt, act_go]
    | dsimp only
    | (refine still_foldl ?_ ?_)
    | (refine still_foldl_fst ?_ ?_)
    | (intro _)
    | split

theorem execMpread_kept (at_ : QRef) (s : State) {t : State} (h : execMpread at_ s = .next t) : Kept s t := by
  unfold execMpread at h
  refine issue_kept (fun w => ?_) h
  repeat' first
    | with_reducible rfl
    | simp only [act_halt, act_go, State.poisonDone, State.updQueue_still, Act.done, State.writeReg]
    | dsimp only
    | (refine still_foldl ?_ ?_)
    | (refine still_foldl_fst ?_ ?_)
    | (intro _)
    | split

theorem execRidge_kept (at_ : QRef) (s : State) {t : State} (h : execRidge at_ s = .next t) : Kept s t := by
  unfold execRidge at h
  refine issue_kept (fun w => ?_) h
  repeat' first
    | with_reducible rfl
    | simp only [act_halt, act_wait, State.ridgeRaise_still, State.ridgeSettle_still]
    | dsimp only
    | (refine still_foldl ?_ ?_)
    | (refine still_foldl_fst ?_ ?_)
    | (intro _)
    | split

theorem execBdef_kept (at_ : QRef) (s : State) {t : State} (h : execBdef at_ s = .next t) : Kept s t :=
  issue_kept (fun _ => bodyBdef_still (hk := rfl) ..) h

theorem execGive_kept (at_ : QRef) (s : State) {t : State} (h : execGive at_ s = .next t) : Kept s t :=
  issue_kept (fun _ => bodyGive_still (hk := rfl) ..) h

theorem execTake_kept (at_ : QRef) (s : State) {t : State} (h : execTake at_ s = .next t) : Kept s t :=
  issue_kept (fun _ => bodyTake_still (hk := rfl) ..) h

theorem execBrel_kept (at_ : QRef) (s : State) {t : State} (h : execBrel at_ s = .next t) : Kept s t :=
  issue_kept (fun _ => bodyBrel_still (hk := rfl) ..) h

theorem execLi_kept (at_ : QRef) (s : State) {t : State} (h : execLi at_ s = .next t) : Kept s t := by
  unfold execLi at h
  refine issue_kept (fun w => ?_) h
  repeat' first
    | with_reducible rfl
    | simp only [act_halt, act_go, State.writeReg, State.updQueue_still, Act.done]
    | dsimp only
    | (refine still_foldl ?_ ?_)
    | (refine still_foldl_fst ?_ ?_)
    | (intro _)
    | split

theorem execSop_kept (at_ : QRef) (s : State) {t : State} (h : execSop at_ s = .next t) : Kept s t := by
  unfold execSop at h
  refine issue_kept (fun w => ?_) h
  repeat' first
    | with_reducible rfl
    | simp only [act_halt, act_go, State.writeReg, State.updQueue_still, Act.done]
    | dsimp only
    | (refine still_foldl ?_ ?_)
    | (refine still_foldl_fst ?_ ?_)
    | (intro _)
    | split

theorem execSld_kept (at_ : QRef) (s : State) {t : State} (h : execSld at_ s = .next t) : Kept s t := by
  unfold execSld at h
  refine issue_kept (fun w => ?_) h
  repeat' first
    | with_reducible rfl
    | (exact hc60_still (hk := rfl) ..)
    | simp only [act_halt, act_go, Act.check, State.writeReg, State.updQueue_still, Act.done]
    | dsimp only
    | (refine still_foldl ?_ ?_)
    | (refine still_foldl_fst ?_ ?_)
    | (intro _)
    | split

theorem execSst_kept (at_ : QRef) (s : State) {t : State} (h : execSst at_ s = .next t) : Kept s t := by
  unfold execSst at h
  refine issue_kept (fun w => ?_) h
  repeat' first
    | with_reducible rfl
    | simp only [act_halt, act_go, Act.check, Act.done, State.updCore_still]
    | dsimp only
    | (refine still_foldl ?_ ?_)
    | (refine still_foldl_fst ?_ ?_)
    | (intro _)
    | split

theorem execSegmentEnd_kept (core : CoreId) (s : State) {t : State} (h : execSegmentEnd core s = .next t) : Kept s t := by
  unfold execSegmentEnd at h
  refine onCore_kept (.of_still ?_) h
  simp only [State.segmentEnd_still, apply_ite State.still, ite_self]

theorem execReplayPassEnd_kept (core : CoreId) (s : State) {t : State} (h : execReplayPassEnd core s = .next t) : Kept s t := by
  unfold execReplayPassEnd at h
  refine onCore_kept (.of_still ?_) h
  simp only [State.replayPassEnd_still, apply_ite State.still, ite_self]

theorem execMm_kept (at_ : QRef) (s : State) {t : State} (h : execMm at_ s = .next t) : Kept s t :=
  issue_kept (fun _ => bodyMm_still (hk := rfl) ..) h

theorem execAttn_kept (at_ : QRef) (s : State) {t : State} (h : execAttn at_ s = .next t) : Kept s t :=
  issue_kept (fun _ => bodyAttn_still (hk := rfl) ..) h

theorem execTileSlotWaitDone_kept (core : CoreId) (s : State) {t : State} (h : execTileSlotWaitDone core s = .next t) : Kept s t := by
  unfold execTileSlotWaitDone at h
  refine onCore_kept (.of_still ?_) h
  repeat' first
    | with_reducible rfl
    | (exact bodyMm_still (hk := rfl) ..)
    | (exact bodyAttn_still (hk := rfl) ..)
    | simp only [apply_ite State.still]
    | (refine State.resume_still _ _ _ _ ?_)
    | dsimp only
    | (refine still_foldl ?_ ?_)
    | (refine still_foldl_fst ?_ ?_)
    | (intro _)
    | split

theorem execVadd_kept (at_ : QRef) (s : State) {t : State} (h : execVadd at_ s = .next t) : Kept s t := by
  unfold execVadd at h
  refine issue_kept (fun w => ?_) h
  simp only [act_go, vOp2, perThread, Act.done, State.updCore_still]

theorem execVsub_kept (at_ : QRef) (s : State) {t : State} (h : execVsub at_ s = .next t) : Kept s t := by
  unfold execVsub at h
  refine issue_kept (fun w => ?_) h
  simp only [act_go, vOp2, perThread, Act.done, State.updCore_still]

theorem execVmul_kept (at_ : QRef) (s : State) {t : State} (h : execVmul at_ s = .next t) : Kept s t := by
  unfold execVmul at h
  refine issue_kept (fun w => ?_) h
  simp only [act_go, vOp2, perThread, Act.done, State.updCore_still]

theorem execVfma_kept (at_ : QRef) (s : State) {t : State} (h : execVfma at_ s = .next t) : Kept s t := by
  unfold execVfma at h
  refine issue_kept (fun w => ?_) h
  simp only [act_go, perThread, Act.done, State.updCore_still]

theorem execVdiv_kept (at_ : QRef) (s : State) {t : State} (h : execVdiv at_ s = .next t) : Kept s t := by
  unfold execVdiv at h
  refine issue_kept (fun w => ?_) h
  simp only [act_go, vOp2, perThread, Act.done, State.updCore_still]

theorem execVsqrt_kept (at_ : QRef) (s : State) {t : State} (h : execVsqrt at_ s = .next t) : Kept s t := by
  unfold execVsqrt at h
  refine issue_kept (fun w => ?_) h
  simp only [act_go, vOp1, perThread, Act.done, State.updCore_still]

theorem execVrem_kept (at_ : QRef) (s : State) {t : State} (h : execVrem at_ s = .next t) : Kept s t := by
  unfold execVrem at h
  refine issue_kept (fun w => ?_) h
  simp only [act_go, vOp2, perThread, Act.done, State.updCore_still]

theorem execVrint_kept (at_ : QRef) (s : State) {t : State} (h : execVrint at_ s = .next t) : Kept s t := by
  unfold execVrint at h
  refine issue_kept (fun w => ?_) h
  simp only [act_go, vOp1, perThread, Act.done, State.updCore_still]

theorem execVmin_kept (at_ : QRef) (s : State) {t : State} (h : execVmin at_ s = .next t) : Kept s t := by
  unfold execVmin at h
  refine issue_kept (fun w => ?_) h
  simp only [act_go, vMinMax, perThread, Act.done, State.updCore_still]

theorem execVmax_kept (at_ : QRef) (s : State) {t : State} (h : execVmax at_ s = .next t) : Kept s t := by
  unfold execVmax at h
  refine issue_kept (fun w => ?_) h
  simp only [act_go, vMinMax, perThread, Act.done, State.updCore_still]

theorem execVcmp_kept (at_ : QRef) (s : State) {t : State} (h : execVcmp at_ s = .next t) : Kept s t := by
  unfold execVcmp at h
  refine issue_kept (fun w => ?_) h
  simp only [act_go, perThread, Act.done, State.updCore_still]

theorem execVsel_kept (at_ : QRef) (s : State) {t : State} (h : execVsel at_ s = .next t) : Kept s t := by
  unfold execVsel at h
  refine issue_kept (fun w => ?_) h
  simp only [act_go, perThread, Act.done, State.updCore_still]

theorem execVcvt_kept (at_ : QRef) (s : State) {t : State} (h : execVcvt at_ s = .next t) : Kept s t := by
  unfold execVcvt at h
  refine issue_kept (fun w => ?_) h
  simp only [act_go, perThread, Act.done, State.updCore_still]

theorem execVtrn_kept (at_ : QRef) (s : State) {t : State} (h : execVtrn at_ s = .next t) : Kept s t := by
  unfold execVtrn at h
  refine issue_kept (fun w => ?_) h
  simp only [act_go, perThread, Act.done, State.updCore_still]

theorem execViop_kept (at_ : QRef) (s : State) {t : State} (h : execViop at_ s = .next t) : Kept s t := by
  unfold execViop at h
  refine issue_kept (fun w => ?_) h
  simp only [act_go, perThread, Act.done, State.updCore_still]

theorem execVld_kept (at_ : QRef) (s : State) {t : State} (h : execVld at_ s = .next t) : Kept s t := by
  unfold execVld at h
  refine issue_kept (fun w => ?_) h
  repeat' first
    | with_reducible rfl
    | (exact hc60_still (hk := rfl) ..)
    | simp only [act_halt, act_go, Act.check, perThread, Act.done, State.updCore_still]
    | dsimp only
    | (refine still_foldl ?_ ?_)
    | (refine still_foldl_fst ?_ ?_)
    | (intro _)
    | split

theorem execVst_kept (at_ : QRef) (s : State) {t : State} (h : execVst at_ s = .next t) : Kept s t := by
  unfold execVst at h
  refine issue_kept (fun w => ?_) h
  repeat' first
    | with_reducible rfl
    | simp only [act_halt, act_go, Act.check, Act.done, State.setCore_still]
    | dsimp only
    | (refine still_foldl ?_ ?_)
    | (refine still_foldl_fst ?_ ?_)
    | (intro _)
    | split

theorem execVxadd_kept (at_ : QRef) (s : State) {t : State} (h : execVxadd at_ s = .next t) : Kept s t := by
  unfold execVxadd at h
  refine issue_kept (fun w => ?_) h
  repeat' first
    | with_reducible rfl
    | (exact hc60_still (hk := rfl) ..)
    | simp only [act_halt, act_go, Act.check, Act.done, State.setCore_still, State.updCore_still, State.putAdds_still]
    | dsimp only
    | (refine still_foldl ?_ ?_)
    | (refine still_foldl_fst ?_ ?_)
    | (intro _)
    | split

theorem execVtid_kept (at_ : QRef) (s : State) {t : State} (h : execVtid at_ s = .next t) : Kept s t := by
  unfold execVtid at h
  refine issue_kept (fun w => ?_) h
  simp only [act_go, perThread, Act.done, State.updCore_still]

theorem execVbcast_kept (at_ : QRef) (s : State) {t : State} (h : execVbcast at_ s = .next t) : Kept s t := by
  unfold execVbcast at h
  refine issue_kept (fun w => ?_) h
  simp only [act_go, perThread, Act.done, State.updCore_still]

theorem execVcfg_kept (at_ : QRef) (s : State) {t : State} (h : execVcfg at_ s = .next t) : Kept s t := by
  unfold execVcfg at h
  refine issue_kept (fun w => ?_) h
  repeat' first
    | with_reducible rfl
    | simp only [act_halt, act_go, Act.done, State.updCore_still]
    | dsimp only
    | (refine still_foldl ?_ ?_)
    | (refine still_foldl_fst ?_ ?_)
    | (intro _)
    | split

theorem execVflags_kept (at_ : QRef) (s : State) {t : State} (h : execVflags at_ s = .next t) : Kept s t := by
  unfold execVflags at h
  refine issue_kept (fun w => ?_) h
  simp only [act_go, Act.done, State.updCore_still]

theorem execVbenc_kept (at_ : QRef) (s : State) {t : State} (h : execVbenc at_ s = .next t) : Kept s t := by
  unfold execVbenc at h
  refine issue_kept (fun w => ?_) h
  repeat' first
    | with_reducible rfl
    | (exact hc60_still (hk := rfl) ..)
    | simp only [act_halt, act_go, Act.check, State.updCore_still, Act.done, State.countCrush_still]
    | dsimp only
    | (refine still_foldl ?_ ?_)
    | (refine still_foldl_fst ?_ ?_)
    | (intro _)
    | split

theorem execRet_kept (at_ : QRef) (check : RetCheck) (s : State) {t : State} (h : execRet at_ check s = .next t) : Kept s t :=
  issue_kept (fun _ => bodyRet_still (hk := rfl) ..) h

theorem execNorm_kept (at_ : QRef) (check : RetCheck) (s : State) {t : State} (h : execNorm at_ check s = .next t) : Kept s t :=
  issue_kept (fun _ => bodyNorm_still (hk := rfl) ..) h

theorem execNsq_kept (at_ : QRef) (s : State) {t : State} (h : execNsq at_ s = .next t) : Kept s t :=
  issue_kept (fun _ => bodyNsq_still (hk := rfl) ..) h

theorem execCens_kept (at_ : QRef) (s : State) {t : State} (h : execCens at_ s = .next t) : Kept s t := by
  unfold execCens at h
  refine issue_kept (fun w => ?_) h
  repeat' first
    | with_reducible rfl
    | (exact hc60_still (hk := rfl) ..)
    | simp only [act_halt, act_go, Act.check, State.srcEvidence_still, State.updCensus_still, Act.done, State.updQueue_still, apply_ite State.still, ite_self]
    | dsimp only
    | (refine still_foldl ?_ ?_)
    | (refine still_foldl_fst ?_ ?_)
    | (intro _)
    | split

theorem State.replayed_of {s t : State} {core k : Nat} {ep : Option Nat} {g : Trigger} {x : ReplayCheck} (h : s.replayed core k ep g x = some t) :
    t.still = s.still := by
  unfold State.replayed at h
  cases g with
  | residue => cases h; simp only [State.markRepaired_still, State.logCore_still]
  | nonfinite => cases h; simp only [State.markRepaired_still, State.logCore_still, apply_ite State.still, ite_self]
  | twin =>
    dsimp only at h
    split at h
    · cases h
      split
      · exact State.logCore_still ..
      · rfl
    · split at h
      · cases h; exact State.logCore_still ..
      · cases h

theorem execTileReplayDone_kept (core : CoreId) (residuePass : Bool) (found : ReplayCheck) (s : State) {t : State}
    (h : execTileReplayDone core residuePass found s = .next t) : Kept s t := by
  unfold execTileReplayDone at h
  refine onCore_kept (.of_still ?_) h
  dsimp only
  split
  · split
    · rfl
    · split
      · split
        · simp only [State.retireIdle_still, State.endReplay_still]
          exact (State.replayed_of ‹_›).trans (by simp only [State.countReplay_still, State.countDie_still, ↓still_mk, still_eta])
        · simp only [State.doubt_still, State.countReplay_still, State.countDie_still, ↓still_mk, still_eta]
      · simp only [State.countReplay_still, State.countDie_still, State.logCore_still, State.updQueue_still, State.doubt_still, ↓still_mk, still_eta,
          apply_ite State.still, ite_self]
  · rfl

theorem execDarm_kept (at_ : QRef) (s : State) {t : State} (h : execDarm at_ s = .next t) : Kept s t :=
  issue_kept (fun _ => bodyDarm_still (hk := rfl) ..) h

theorem execDrearm_kept (at_ : QRef) (s : State) {t : State} (h : execDrearm at_ s = .next t) : Kept s t :=
  issue_kept (fun _ => bodyDrearm_still (hk := rfl) ..) h

theorem execDgo_kept (at_ : QRef) (s : State) {t : State} (h : execDgo at_ s = .next t) : Kept s t :=
  issue_kept (fun _ => bodyDgo_still (hk := rfl) ..) h

theorem execPref_kept (at_ : QRef) (s : State) {t : State} (h : execPref at_ s = .next t) : Kept s t :=
  issue_kept (fun _ => bodyPref_still (hk := rfl) ..) h

theorem execDstat_kept (at_ : QRef) (s : State) {t : State} (h : execDstat at_ s = .next t) : Kept s t := by
  unfold execDstat at h
  refine issue_kept (fun w => ?_) h
  repeat' first
    | with_reducible rfl
    | simp only [act_halt, act_go, State.writeReg, State.updQueue_still, Act.done]
    | dsimp only
    | (refine still_foldl ?_ ?_)
    | (refine still_foldl_fst ?_ ?_)
    | (intro _)
    | split

theorem bodyDstop_still (q : QRef) (s : State) (w : Nat) {k : Still} (hk : s.still = k) : (bodyDstop q s w).Still k := by
  unfold bodyDstop
  subst hk
  repeat' first
    | with_reducible rfl
    | simp only [act_wait, act_go, Act.done, State.updCore_still, State.countDie_still, apply_ite State.still, ite_self]
    | dsimp only
    | split

theorem execDescriptorSlotReady_kept (core : CoreId) (slot : Fin 64) (s : State) {t : State} (h : execDescriptorSlotReady core slot s = .next t) : Kept s t := by
  unfold execDescriptorSlotReady at h
  refine onCore_kept (.of_still ?_) h
  repeat' first
    | with_reducible rfl
    | (exact bodyDarm_still (hk := rfl) ..)
    | (exact bodyDrearm_still (hk := rfl) ..)
    | (exact bodyDgo_still (hk := rfl) ..)
    | (exact bodyPref_still (hk := rfl) ..)
    | (exact bodyDstop_still (hk := rfl) ..)
    | simp only [apply_ite State.still]
    | (refine State.resume_still _ _ _ _ ?_)
    | dsimp only
    | (refine still_foldl ?_ ?_)
    | (refine still_foldl_fst ?_ ?_)
    | (intro _)
    | split

theorem execTransferIssue_kept (core : CoreId) (slot : Fin 64) (s : State) {t : State} (h : execTransferIssue core slot s = .next t) : Kept s t := by
  unfold execTransferIssue at h
  refine onCore_kept (.of_still ?_) h
  repeat' first
    | with_reducible rfl
    | simp only [State.putXfer_still, State.updCore_still, State.haltStream_still, State.pageFault_still, State.logFault_still, apply_ite State.still]
    | dsimp only
    | (refine still_foldl ?_ ?_)
    | (refine still_foldl_fst ?_ ?_)
    | (intro _)
    | split

theorem execUsgd_kept (at_ : QRef) (s : State) {t : State} (h : execUsgd at_ s = .next t) : Kept s t :=
  issue_kept (fun _ => bodyU_still (hk := rfl) ..) h

theorem execUmom_kept (at_ : QRef) (s : State) {t : State} (h : execUmom at_ s = .next t) : Kept s t :=
  issue_kept (fun _ => bodyU_still (hk := rfl) ..) h

theorem execUadam_kept (at_ : QRef) (s : State) {t : State} (h : execUadam at_ s = .next t) : Kept s t :=
  issue_kept (fun _ => bodyU_still (hk := rfl) ..) h

theorem execUfact_kept (at_ : QRef) (s : State) {t : State} (h : execUfact at_ s = .next t) : Kept s t :=
  issue_kept (fun _ => bodyU_still (hk := rfl) ..) h

theorem execUIssueWaitDone_kept (core : CoreId) (s : State) {t : State} (h : execUIssueWaitDone core s = .next t) : Kept s t := by
  unfold execUIssueWaitDone at h
  refine onCore_kept (.of_still ?_) h
  repeat' first
    | with_reducible rfl
    | (exact bodyU_still (hk := rfl) ..)
    | (refine State.resume_still _ _ _ _ ?_)
    | dsimp only
    | (refine still_foldl ?_ ?_)
    | (refine still_foldl_fst ?_ ?_)
    | (intro _)
    | split

theorem execCtxOpenGo_kept (k : CtxId) (e : Env) (s : State) {t : State} (h : execCtxOpenGo k e s = .next t) : Kept s t := by
  unfold execCtxOpenGo at h
  refine whenUp_kept (.of_still ?_) h
  simp only [State.goOpen_still]

theorem execLoadGo_kept (k : CtxId) (e : Env) (s : State) {t : State} (h : execLoadGo k e s = .next t) : Kept s t := by
  unfold execLoadGo at h
  refine whenUp_kept (.of_still ?_) h
  simp only [State.goLoad_still]

theorem execStartGo_kept (k : CtxId) (s : State) {t : State} (h : execStartGo k s = .next t) : Kept s t := by
  unfold execStartGo at h
  refine whenUp_kept (.of_still ?_) h
  simp only [State.goStart_still]

theorem execSaveGo_kept (k : CtxId) (s : State) {t : State} (h : execSaveGo k s = .next t) : Kept s t := by
  unfold execSaveGo at h
  refine whenUp_kept (.of_still ?_) h
  simp only [State.goSave_still]

theorem execResumeGo_kept (k : CtxId) (s : State) {t : State} (h : execResumeGo k s = .next t) : Kept s t := by
  unfold execResumeGo at h
  refine whenUp_kept (.of_still ?_) h
  simp only [State.goResume_still]

theorem execTeardownGo_kept (k : CtxId) (s : State) {t : State} (h : execTeardownGo k s = .next t) : Kept s t := by
  unfold execTeardownGo at h
  refine whenUp_kept (.of_still ?_) h
  simp only [State.goTear_still]

theorem execDrainLimitExpire_kept (k : CtxId) (s : State) {t : State} (h : execDrainLimitExpire k s = .next t) : Kept s t := by
  unfold execDrainLimitExpire at h
  refine whenUp_kept (.of_still ?_) h
  repeat' first
    | with_reducible rfl
    | simp only [State.eachQueue, State.haltAt_still, State.haltRaw_still, State.after_still, apply_ite State.still, ite_self]
    | dsimp only
    | (refine still_foldl ?_ ?_)
    | (refine still_foldl_fst ?_ ?_)
    | (intro _)
    | split

theorem execAbortGo_kept (s : State) {t : State} (h : execAbortGo s = .next t) : Kept s t := by
  unfold execAbortGo at h
  refine whenUp_kept (.of_still ?_) h
  simp only [State.goAbort_still]

theorem execVfDisable_kept (fn : CtxId) (s : State) {t : State} (h : execVfDisable fn s = .next t) : Kept s t := by
  unfold execVfDisable at h
  refine whenUp_kept (.of_still ?_) h
  simp only [State.vfOff_still]

theorem execVfEnable_kept (fn : CtxId) (s : State) {t : State} (h : execVfEnable fn s = .next t) : Kept s t := by
  unfold execVfEnable at h
  refine whenUp_kept (.of_still ?_) h
  simp only [↓still_mk, still_eta, apply_ite State.still, ite_self]

theorem execFlrVf_kept (fn : CtxId) (s : State) {t : State} (h : execFlrVf fn s = .next t) : Kept s t := by
  unfold execFlrVf at h
  refine whenUp_kept (.of_still ?_) h
  simp only [State.vfOff_still, apply_ite State.still, ite_self]

theorem execFlrPf0_kept (s : State) {t : State} (h : execFlrPf0 s = .next t) : Kept s t := by
  unfold execFlrPf0 at h
  refine whenUp_kept (.of_still ?_) h
  simp only [State.flrPf0_still]

theorem execHostHotReset_kept (s : State) {t : State} (h : execHostHotReset s = .next t) : Kept s t := by
  unfold execHostHotReset at h
  refine whenUp_kept (.of_still ?_) h
  simp only [State.flrPf0_still]

theorem execHlPerstN_kept (s : State) {t : State} (h : execHlPerstN s = .next t) : Kept s t := by
  unfold execHlPerstN at h
  refine whenUp_kept (.of_still ?_) h
  simp only [State.flrPf0_still]

theorem execInstructionRetire_kept (at_ : QRef) (s : State) {t : State} (h : execInstructionRetire at_ s = .next t) : Kept s t := by
  unfold execInstructionRetire at h
  refine onEngine_kept ?_ h
  simp only [State.retireNow_still]

theorem execMilepostWaitDone_kept (at_ : QRef) (s : State) {t : State} (h : execMilepostWaitDone at_ s = .next t) : Kept s t := by
  unfold execMilepostWaitDone at h
  refine onEngine_kept ?_ h
  simp only [State.waitAgain_still]

theorem execTakeGrant_kept (at_ : QRef) (s : State) {t : State} (h : execTakeGrant at_ s = .next t) : Kept s t := by
  unfold execTakeGrant at h
  refine onEngine_kept ?_ h
  repeat' first
    | with_reducible rfl
    | (exact bodyTake_still (hk := rfl) ..)
    | simp only [apply_ite State.still]
    | (refine State.resume_still _ _ _ _ ?_)
    | dsimp only
    | (refine still_foldl ?_ ?_)
    | (refine still_foldl_fst ?_ ?_)
    | (intro _)
    | split

theorem execBufferTableRecorded_kept (core : CoreId) (s : State) {t : State} (h : execBufferTableRecorded core s = .next t) : Kept s t := by
  unfold execBufferTableRecorded at h
  refine onEngine_kept ?_ h
  repeat' first
    | with_reducible rfl
    | simp only [State.recordCore_still, State.bufAgain_still, apply_ite State.still, ite_self]
    | dsimp only
    | (refine still_foldl ?_ ?_)
    | (refine still_foldl_fst ?_ ?_)
    | (intro _)

theorem execRidgeComplete_kept (at_ : QRef) (s : State) {t : State} (h : execRidgeComplete at_ s = .next t) : Kept s t := by
  unfold execRidgeComplete at h
  refine onEngine_kept ?_ h
  simp only [State.ridgeAgain_still]

theorem execDstop_kept (at_ : QRef) (s : State) {t : State} (h : execDstop at_ s = .next t) : Kept s t := by
  unfold execDstop at h
  refine issue_kept (fun w => ?_) h
  exact bodyDstop_still (hk := rfl) ..

theorem execPrefConfirm_kept (core : CoreId) (slot : Fin 64) (s : State) {t : State} (h : execPrefConfirm core slot s = .next t) : Kept s t := by
  unfold execPrefConfirm at h
  refine onEngine_kept ?_ h
  repeat' first
    | with_reducible rfl
    | simp only [State.cancelPref_still, State.confirmPref_still, State.giveAgain_still]
    | dsimp only
    | (refine still_foldl ?_ ?_)
    | (refine still_foldl_fst ?_ ?_)
    | (intro _)
    | split

theorem execTransferComplete_kept (core : CoreId) (slot : Fin 64) (n : Nat) (s : State) {t : State} (h : execTransferComplete core slot n s = .next t) : Kept s t := by
  unfold execTransferComplete at h
  refine onEngine_kept ?_ h
  repeat' first
    | with_reducible rfl
    | simp only [State.moveXfer_still, State.endXfer_still, State.giveAgain_still, apply_ite State.still, ite_self]
    | dsimp only
    | (refine still_foldl ?_ ?_)
    | (refine still_foldl_fst ?_ ?_)
    | (intro _)
    | split

theorem execPageMapped_kept (core : CoreId) (slot : Fin 64) (s : State) {t : State} (h : execPageMapped core slot s = .next t) : Kept s t := by
  unfold execPageMapped at h
  refine onEngine_kept ?_ h
  repeat' first
    | with_reducible rfl
    | simp only [State.updCore_still, State.taskAbort_still, State.haltStream_still, apply_ite State.still]
    | dsimp only
    | (refine still_foldl ?_ ?_)
    | (refine still_foldl_fst ?_ ?_)
    | (intro _)
    | split
    | (refine (State.mapPage_of ‹_›).trans ?_)

theorem execPageWaitLimitExpire_kept (core : CoreId) (slot : Fin 64) (s : State) {t : State} (h : execPageWaitLimitExpire core slot s = .next t) : Kept s t := by
  unfold execPageWaitLimitExpire at h
  refine onEngine_kept ?_ h
  simp only [State.taskAbort_still, apply_ite State.still, ite_self]

theorem execMilepostAdvanceArrive_kept (i : Nat) (s : State) {t : State} (h : execMilepostAdvanceArrive i s = .next t) : Kept s t := by
  unfold execMilepostAdvanceArrive at h
  refine onDie_kept (.of_still ?_) h
  repeat' first
    | with_reducible rfl
    | simp only [↓still_mk, still_eta, State.applyAdv_still, State.after_still]
    | dsimp only
    | (refine still_foldl ?_ ?_)
    | (refine still_foldl_fst ?_ ?_)
    | (intro _)
    | split

theorem execEauAddApply_kept (i : Nat) (s : State) {t : State} (h : execEauAddApply i s = .next t) : Kept s t := by
  unfold execEauAddApply at h
  refine whenUp_kept (.of_still ?_) h
  split <;> simp only [State.applyAdd_still, State.after_still, apply_ite State.still, ite_self]

theorem execGstoreClearDone_kept (k : CtxId) (store : Fin 32) (s : State) {t : State} (h : execGstoreClearDone k store s = .next t) : Kept s t := by
  unfold execGstoreClearDone at h
  refine whenUp_kept (.of_still ?_) h
  repeat' first
    | with_reducible rfl
    | simp only [State.clearStore_still, State.updCtx_still, State.after_still, apply_ite State.still]
    | dsimp only
    | (refine still_foldl ?_ ?_)
    | (refine still_foldl_fst ?_ ?_)
    | (intro _)
    | split

theorem execScrubLine_kept (loc : MemLoc) (ecc : Ecc) (r : ScrubRead) (s : State) {t : State} (h : execScrubLine loc ecc r s = .next t) : Kept s t := by
  unfold execScrubLine at h
  refine whenUp_kept (.of_still ?_) h
  repeat' first
    | with_reducible rfl
    | simp only [State.after_still, State.scrubCorrected_still, State.scrubPass_still, State.scrubUncorrectable_still, State.corrected_still]
    | dsimp only
    | (refine still_foldl ?_ ?_)
    | (refine still_foldl_fst ?_ ?_)
    | (intro _)
    | split

theorem execRowSpare_kept (unit : SpareUnit) (spare : Bool) (s : State) {t : State} (h : execRowSpare unit spare s = .next t) : Kept s t := by
  unfold execRowSpare at h
  refine whenUp_kept (.of_still ?_) h
  repeat' first
    | with_reducible rfl
    | simp only [↓still_mk, still_eta, State.spareDue_still, State.corrected_still]
    | dsimp only
    | (refine still_foldl ?_ ?_)
    | (refine still_foldl_fst ?_ ?_)
    | (intro _)
    | split

theorem execCxlLinkDown_kept (port : Fin 4) (s : State) {t : State} (h : execCxlLinkDown port s = .next t) : Kept s t := by
  unfold execCxlLinkDown at h
  refine whenUp_kept (.of_still ?_) h
  simp only [↓still_mk, still_eta, State.logFault_still, apply_ite State.still, ite_self]

theorem execMapPresent_kept (k : CtxId) (va : W64) (s : State) {t : State} (h : execMapPresent k va s = .next t) : Kept s t := by
  unfold execMapPresent at h
  refine whenUp_kept (.of_still ?_) h
  simp only [State.goMapPresent_still]

theorem execCaravanSeg_kept (k : CtxId) (m : CMsg) (s : State) {t : State} (h : execCaravanSeg k m s = .next t) : Kept s t := by
  unfold execCaravanSeg at h
  refine onMessage_kept (fun s => ?_) h
  simp only [State.onSeg_still]

theorem execCaravanBit_kept (k : CtxId) (m : CMsg) (s : State) {t : State} (h : execCaravanBit k m s = .next t) : Kept s t := by
  unfold execCaravanBit at h
  refine onMessage_kept (fun s => ?_) h
  simp only [State.onBit_still]

theorem execCaravanRes_kept (k : CtxId) (m : CMsg) (s : State) {t : State} (h : execCaravanRes k m s = .next t) : Kept s t := by
  unfold execCaravanRes at h
  refine onMessage_kept (fun s => ?_) h
  simp only [State.onRes_still]

theorem execCaravanStart_kept (k : CtxId) (m : CMsg) (s : State) {t : State} (h : execCaravanStart k m s = .next t) : Kept s t := by
  unfold execCaravanStart at h
  refine onMessage_kept (fun s => ?_) h
  simp only [State.onStart_still]

theorem execCaravanRot_kept (k : CtxId) (m : CMsg) (s : State) {t : State} (h : execCaravanRot k m s = .next t) : Kept s t := by
  unfold execCaravanRot at h
  refine onMessage_kept (fun s => ?_) h
  simp only [State.onRot_still]

theorem execCaravanRel_kept (k : CtxId) (m : CMsg) (s : State) {t : State} (h : execCaravanRel k m s = .next t) : Kept s t := by
  unfold execCaravanRel at h
  refine onMessage_kept (fun s => ?_) h
  simp only [State.onRel_still]

theorem execCaravanSend_kept (k : CtxId) (m : CMsg) (s : State) {t : State} (h : execCaravanSend k m s = .next t) : Kept s t := by
  unfold execCaravanSend at h
  refine onMessage_kept (fun s => ?_) h
  simp only [State.onSend_still]

theorem execCaravanRadd_kept (k : CtxId) (m : CMsg) (s : State) {t : State} (h : execCaravanRadd k m s = .next t) : Kept s t := by
  unfold execCaravanRadd at h
  refine onMessage_kept (fun s => ?_) h
  simp only [State.onRadd_still]

theorem execCaravanVote_kept (k : CtxId) (m : CMsg) (s : State) {t : State} (h : execCaravanVote k m s = .next t) : Kept s t := by
  unfold execCaravanVote at h
  refine onMessage_kept (fun s => ?_) h
  simp only [State.onVote_still]

theorem execCaravanVerdict_kept (k : CtxId) (m : CMsg) (s : State) {t : State} (h : execCaravanVerdict k m s = .next t) : Kept s t := by
  unfold execCaravanVerdict at h
  refine onMessage_kept (fun s => ?_) h
  simp only [State.onVerdict_still]

theorem execCaravanAck_kept (k : CtxId) (m : CMsg) (hc : Nat) (r : RefusedAt) (s : State) {t : State} (h : execCaravanAck k m hc r s = .next t) : Kept s t := by
  unfold execCaravanAck at h
  refine onMessage_kept (fun s => ?_) h
  simp only [State.onAck_still]

theorem execCaravanTrigger_kept (k : CtxId) (op : Fin 1024) (s : State) {t : State} (h : execCaravanTrigger k op s = .next t) : Kept s t := by
  unfold execCaravanTrigger at h
  refine onCaravan_kept (fun s => ?_) h
  simp only [State.onTrigger_still]

theorem execCaravanDeadlineExpire_kept (k : CtxId) (op : Fin 1024) (s : State) {t : State} (h : execCaravanDeadlineExpire k op s = .next t) : Kept s t := by
  unfold execCaravanDeadlineExpire at h
  refine onCaravan_kept (fun s => ?_) h
  simp only [State.onDeadline_still]

theorem execLateContributionReady_kept (k : CtxId) (op : Fin 1024) (s : State) {t : State} (h : execLateContributionReady k op s = .next t) : Kept s t := by
  unfold execLateContributionReady at h
  refine onCaravan_kept (fun s => ?_) h
  simp only [State.onLate_still]

theorem execRotationSendTrigger_kept (k : CtxId) (op : Fin 1024) (s : State) {t : State} (h : execRotationSendTrigger k op s = .next t) : Kept s t := by
  unfold execRotationSendTrigger at h
  refine onCaravan_kept (fun s => ?_) h
  simp only [State.onRotTrigger_still]

theorem execRotationReleaseTrigger_kept (k : CtxId) (op : Fin 1024) (s : State) {t : State} (h : execRotationReleaseTrigger k op s = .next t) : Kept s t := by
  unfold execRotationReleaseTrigger at h
  refine onCaravan_kept (fun s => ?_) h
  simp only [State.onRotTrigger_still]

theorem execVoteLimitExpire_kept (k : CtxId) (epoch rank : Nat) (s : State) {t : State} (h : execVoteLimitExpire k epoch rank s = .next t) : Kept s t := by
  unfold execVoteLimitExpire at h
  refine onCaravan_kept (fun s => ?_) h
  repeat' first
    | with_reducible rfl
    | simp only [State.event_still, State.squash_still, State.sendAll_still, State.pauseJob_still, State.failMember_still]
    | dsimp only
    | (refine still_foldl ?_ ?_)
    | (refine still_foldl_fst ?_ ?_)
    | (intro _)
    | split

theorem execCommitFlashWriteDone_kept (k : CtxId) (s : State) {t : State} (h : execCommitFlashWriteDone k s = .next t) : Kept s t := by
  unfold execCommitFlashWriteDone at h
  refine onCaravan_kept (fun s => ?_) h
  repeat' first
    | with_reducible rfl
    | simp only [↓still_mk, still_eta, State.updEpoch_still, State.finishCommit_still, State.endCopy_still, apply_ite State.still, ite_self]
    | dsimp only
    | (refine still_foldl ?_ ?_)
    | (refine still_foldl_fst ?_ ?_)
    | (intro _)
    | split

theorem execPlaceGo_kept (k : CtxId) (s : State) {t : State} (h : execPlaceGo k s = .next t) : Kept s t := by
  unfold execPlaceGo at h
  refine whenUp_kept (.of_still ?_) h
  simp only [State.goPlace_still]

theorem execPlacementDrained_kept (k : CtxId) (theirs : List (Fin 64 × BitVec 256)) (s : State) {t : State} (h : execPlacementDrained k theirs s = .next t) : Kept s t := by
  unfold execPlacementDrained at h
  refine onCaravan_kept (fun s => ?_) h
  repeat' first
    | with_reducible rfl
    | simp only [State.updCtx_still, State.emit_still, State.event_still, State.runOn_still, State.installPlace_still]
    | dsimp only
    | (refine still_foldl ?_ ?_)
    | (refine still_foldl_fst ?_ ?_)
    | (intro _)
    | split

theorem execMigDrainLimitExpire_kept (k : CtxId) (s : State) {t : State} (h : execMigDrainLimitExpire k s = .next t) : Kept s t := by
  unfold execMigDrainLimitExpire at h
  refine onCaravan_kept (fun s => ?_) h
  simp only [↓still_mk, still_eta, State.eachCore_still, apply_ite State.still, ite_self]

theorem execGenStageDone_kept (k : CtxId) (s : State) {t : State} (h : execGenStageDone k s = .next t) : Kept s t := by
  unfold execGenStageDone at h
  refine onBivouac_kept (fun s => ?_) h
  split <;> simp only [State.writeStage_still, State.count_still, State.updCtx_still, State.nextCopy_still, apply_ite State.still, ite_self]

theorem execGenCopyDone_kept (k : CtxId) (ok : Bool) (s : State) {t : State} (h : execGenCopyDone k ok s = .next t) : Kept s t := by
  unfold execGenCopyDone at h
  refine onBivouac_kept (fun s => ?_) h
  split <;> simp only [State.endCopy_still, State.genArrived_still, apply_ite State.still, ite_self]

theorem execPartnerTimeout_kept (k : CtxId) (s : State) {t : State} (h : execPartnerTimeout k s = .next t) : Kept s t := by
  unfold execPartnerTimeout at h
  refine onBivouac_kept (fun s => ?_) h
  repeat' first
    | with_reducible rfl
    | simp only [State.setVal_still, State.event_still, State.endCopy_still, apply_ite State.still, ite_self]
    | dsimp only
    | (refine still_foldl ?_ ?_)
    | (refine still_foldl_fst ?_ ?_)
    | (intro _)
    | split

theorem execPairGo_kept (k : CtxId) (e : Env) (s : State) {t : State} (h : execPairGo k e s = .next t) : Kept s t := by
  unfold execPairGo at h
  refine whenUp_kept (.of_still ?_) h
  simp only [State.goPair_still]

theorem execRestoreGo_kept (k : CtxId) (e : Env) (s : State) {t : State} (h : execRestoreGo k e s = .next t) : Kept s t := by
  unfold execRestoreGo at h
  refine whenUp_kept (.of_still ?_) h
  simp only [State.goRestore_still]

theorem execRefillChunkDone_kept (k : CtxId) (chunk : Nat) (head : SlotHead) (replica : Replica) (bytes : List Byte) (s : State) {t : State} (h : execRefillChunkDone k chunk head replica bytes s = .next t) : Kept s t := by
  unfold execRefillChunkDone at h
  refine onBivouac_kept (fun s => ?_) h
  repeat' first
    | with_reducible rfl
    | simp only [State.takeChunk_still, State.compareChunk_still]
    | dsimp only
    | (refine still_foldl ?_ ?_)
    | (refine still_foldl_fst ?_ ?_)
    | (intro _)
    | split

theorem execRefillSourceFail_kept (k : CtxId) (next lowered : Option Nat) (s : State) {t : State} (h : execRefillSourceFail k next lowered s = .next t) : Kept s t := by
  unfold execRefillSourceFail at h
  refine onBivouac_kept (fun s => ?_) h
  repeat' first
    | with_reducible rfl
    | simp only [State.setVal_still, State.updCtx_still, State.event_still, State.startRefill_still, State.failMember_still]
    | dsimp only
    | (refine still_foldl ?_ ?_)
    | (refine still_foldl_fst ?_ ?_)
    | (intro _)
    | split

theorem execJobResumable_kept (k : CtxId) (s : State) {t : State} (h : execJobResumable k s = .next t) : Kept s t := by
  unfold execJobResumable at h
  refine onBivouac_kept (fun s => ?_) h
  repeat' first
    | with_reducible rfl
    | simp only [State.setVal_still, State.updCtx_still]
    | dsimp only
    | (refine still_foldl ?_ ?_)
    | (refine still_foldl_fst ?_ ?_)
    | (intro _)
    | split

theorem execSalvageGo_kept (s : State) {t : State} (h : execSalvageGo s = .next t) : Kept s t := by
  unfold execSalvageGo at h
  refine whenUp_kept (.of_still ?_) h
  simp only [State.goSalvage_still]

theorem execHoldupChargeLow_kept (percent : Nat) (s : State) {t : State} (h : execHoldupChargeLow percent s = .next t) : Kept s t := by
  unfold execHoldupChargeLow at h
  refine whenUp_kept (.of_still ?_) h
  simp only [State.setVal_still, State.event_still, apply_ite State.still, ite_self]

theorem execFieldTestRotation_kept (die : Fin 8) (s : State) {t : State} (h : execFieldTestRotation die s = .next t) : Kept s t := by
  unfold execFieldTestRotation at h
  refine whenUp_kept (.of_still ?_) h
  simp only [↓still_mk, still_eta, apply_ite State.still, ite_self]

theorem execCoreSwap_kept (out inc : CoreId) (s : State) {t : State} (h : execCoreSwap out inc s = .next t) : Kept s t := by
  unfold execCoreSwap at h
  refine onDie_kept (.of_still ?_) h
  split
  · rfl
  · split
    · exact State.swapCore_still ..
    · simp only [↓still_mk, still_eta, State.swapCore_still, State.after_still, apply_ite State.still, ite_self]

theorem execFieldTestDone_kept (core : CoreId) (pass : Bool) (s : State) {t : State} (h : execFieldTestDone core pass s = .next t) : Kept s t := by
  unfold execFieldTestDone at h
  refine onDie_kept (.of_still ?_) h
  repeat' first
    | with_reducible rfl
    | simp only [State.testPassed_still, State.testFailed_still]
    | dsimp only
    | (refine still_foldl ?_ ?_)
    | (refine still_foldl_fst ?_ ?_)
    | (intro _)
    | split

theorem execFtOverdue_kept (core : CoreId) (s : State) {t : State} (h : execFtOverdue core s = .next t) : Kept s t := by
  unfold execFtOverdue at h
  refine onDie_kept (.of_still ?_) h
  repeat' first
    | with_reducible rfl
    | simp only [State.logFault_still]
    | dsimp only
    | (refine still_foldl ?_ ?_)
    | (refine still_foldl_fst ?_ ?_)
    | (intro _)
    | split

theorem execWatchdogScan_kept (die : DieId) (hits : List WdHit) (s : State) {t : State} (h : execWatchdogScan die hits s = .next t) : Kept s t := by
  unfold execWatchdogScan at h
  refine onDie_kept (.of_still ?_) h
  repeat' first
    | with_reducible rfl
    | simp only [State.watchdogHit_still]
    | dsimp only
    | (refine still_foldl ?_ ?_)
    | (refine still_foldl_fst ?_ ?_)
    | (intro _)
    | split

theorem execTracesLinkFailure_kept (link : Fin 26) (s : State) {t : State} (h : execTracesLinkFailure link s = .next t) : Kept s t := by
  unfold execTracesLinkFailure at h
  refine whenUp_kept (.of_still ?_) h
  simp only [State.logFault_still, State.enterSafeHold_still]

theorem execPowerThermalCheck_kept (temps : List Int) (inputMv inputW : Nat) (coolantIn : Int) (coolantFlow : Nat) (s : State) {t : State} (h : execPowerThermalCheck temps inputMv inputW coolantIn coolantFlow s = .next t) : Kept s t := by
  unfold execPowerThermalCheck at h
  refine whenUp_kept (.of_still ?_) h
  repeat' first
    | with_reducible rfl
    | simp only [State.setVal_still, State.enterSafeHold_still, apply_ite State.still, ite_self]
    | dsimp only
    | (refine still_foldl ?_ ?_)
    | (refine still_foldl_fst ?_ ?_)
    | (intro _)

theorem execPortCfg_kept (p : PortId) (v : W64) (s : State) {t : State} (h : execPortCfg p v s = .next t) : Kept s t := by
  unfold execPortCfg at h
  refine whenUp_kept (.of_still ?_) h
  simp only [State.goPortCfg_still]

theorem execBypassForce_kept (v : Byte) (s : State) {t : State} (h : execBypassForce v s = .next t) : Kept s t := by
  unfold execBypassForce at h
  refine whenUp_kept (.of_still ?_) h
  simp only [State.goBypassForce_still]

theorem execBypassLatched_kept (pairB closed : Bool) (s : State) {t : State} (h : execBypassLatched pairB closed s = .next t) : Kept s t := by
  unfold execBypassLatched at h
  refine next_kept (.of_still ?_) h
  simp only [State.latch_still, apply_ite State.still, ite_self]

theorem execDrawbarLightDetect_kept (p : PortId) (s : State) {t : State} (h : execDrawbarLightDetect p s = .next t) : Kept s t := by
  unfold execDrawbarLightDetect at h
  refine next_kept (.of_still ?_) h
  split <;> simp only [State.train_still]

theorem execDrawbarTrainingRetry_kept (p : PortId) (s : State) {t : State} (h : execDrawbarTrainingRetry p s = .next t) : Kept s t := by
  unfold execDrawbarTrainingRetry at h
  refine next_kept (.of_still ?_) h
  repeat' first
    | with_reducible rfl
    | simp only [State.train_still]
    | dsimp only
    | (refine still_foldl ?_ ?_)
    | (refine still_foldl_fst ?_ ?_)
    | (intro _)
    | split

theorem execDrawbarTrainingFrame_kept (p : PortId) (node port : Nat) (alloc : List Nat) (s : State) {t : State} (h : execDrawbarTrainingFrame p node port alloc s = .next t) : Kept s t := by
  unfold execDrawbarTrainingFrame at h
  refine next_kept (.of_still ?_) h
  repeat' first
    | with_reducible rfl
    | simp only [State.emit_still, State.event_still, State.updPort_still]
    | dsimp only
    | (refine still_foldl ?_ ?_)
    | (refine still_foldl_fst ?_ ?_)
    | (intro _)
    | split

theorem execDrawbarDataFrame_kept (p : PortId) (f : DFrame) (s : State) {t : State} (h : execDrawbarDataFrame p f s = .next t) : Kept s t := by
  unfold execDrawbarDataFrame at h
  refine onFrame_kept (fun s => ?_) h
  simp only [State.badCrc_still, State.control_still, State.goodFrame_still, State.updPort_still, State.takeFrame_still, apply_ite State.still, ite_self]

theorem execDrawbarCreditFrame_kept (p : PortId) (f : DFrame) (s : State) {t : State} (h : execDrawbarCreditFrame p f s = .next t) : Kept s t := by
  unfold execDrawbarCreditFrame at h
  refine onFrame_kept (fun s => ?_) h
  simp only [State.goodFrame_still, State.badCrc_still, apply_ite State.still, ite_self]

theorem execDrawbarIdleFrame_kept (p : PortId) (f : DFrame) (s : State) {t : State} (h : execDrawbarIdleFrame p f s = .next t) : Kept s t := by
  unfold execDrawbarIdleFrame at h
  refine onFrame_kept (fun s => ?_) h
  simp only [State.goodFrame_still, State.badCrc_still, apply_ite State.still, ite_self]

theorem execDrawbarNakFrame_kept (p : PortId) (f : DFrame) (s : State) {t : State} (h : execDrawbarNakFrame p f s = .next t) : Kept s t := by
  unfold execDrawbarNakFrame at h
  refine onFrame_kept (fun s => ?_) h
  repeat' first
    | with_reducible rfl
    | simp only [State.takeAck_still, State.flushPort_still, State.badCrc_still, State.resend_still]
    | dsimp only
    | (refine still_foldl ?_ ?_)
    | (refine still_foldl_fst ?_ ?_)
    | (intro _)
    | split

theorem execDrawbarIdleTimer_kept (p : PortId) (s : State) {t : State} (h : execDrawbarIdleTimer p s = .next t) : Kept s t := by
  unfold execDrawbarIdleTimer at h
  refine whenUp_kept (.of_still ?_) h
  simp only [State.control_still]

theorem execDrawbarRxTimeout_kept (p : PortId) (s : State) {t : State} (h : execDrawbarRxTimeout p s = .next t) : Kept s t := by
  unfold execDrawbarRxTimeout at h
  refine whenUp_kept (.of_still ?_) h
  simp only [State.portDown_still, apply_ite State.still, ite_self]

theorem execDrawbarResendLimit_kept (p : PortId) (s : State) {t : State} (h : execDrawbarResendLimit p s = .next t) : Kept s t := by
  unfold execDrawbarResendLimit at h
  refine whenUp_kept (.of_still ?_) h
  simp only [State.portDown_still, apply_ite State.still, ite_self]

theorem execDrawbarLaneLockLoss_kept (p : PortId) (lane : Fin 8) (s : State) {t : State} (h : execDrawbarLaneLockLoss p lane s = .next t) : Kept s t := by
  unfold execDrawbarLaneLockLoss at h
  refine whenUp_kept (.of_still ?_) h
  simp only [State.portDown_still, apply_ite State.still, ite_self]

theorem execRouteGo_kept (s : State) {t : State} (h : execRouteGo s = .next t) : Kept s t := by
  unfold execRouteGo at h
  refine whenUp_kept (.of_still ?_) h
  simp only [State.goRoute_still]

theorem execIngestGo_kept (k : CtxId) (e : Env) (s : State) {t : State} (h : execIngestGo k e s = .next t) : Kept s t := by
  unfold execIngestGo at h
  refine whenUp_kept (.of_still ?_) h
  simp only [State.goIngest_still]

theorem execStorageReadComplete_kept (k : CtxId) (pos : Nat) (bytes : List Byte) (s : State) {t : State} (h : execStorageReadComplete k pos bytes s = .next t) : Kept s t := by
  unfold execStorageReadComplete at h
  refine onIngest_kept (fun s => ?_) h
  simp only [State.count_still, State.updSample_still, State.emit_still, State.readFailed_still, apply_ite State.still, ite_self]

theorem execStorageReadTimeout_kept (k : CtxId) (pos : Nat) (s : State) {t : State} (h : execStorageReadTimeout k pos s = .next t) : Kept s t := by
  unfold execStorageReadTimeout at h
  refine onIngest_kept (fun s => ?_) h
  simp only [State.readFailed_still, apply_ite State.still, ite_self]

theorem execShardRetryTimer_kept (k : CtxId) (pos : Nat) (s : State) {t : State} (h : execShardRetryTimer k pos s = .next t) : Kept s t := by
  unfold execShardRetryTimer at h
  refine onIngest_kept (fun s => ?_) h
  simp only [State.readAgain_still, apply_ite State.still, ite_self]

theorem execDecodeComplete_kept (k : CtxId) (pos : Nat) (r : DecodeRes) (s : State) {t : State} (h : execDecodeComplete k pos r s = .next t) : Kept s t := by
  unfold execDecodeComplete at h
  refine onIngest_kept (fun s => ?_) h
  repeat' first
    | with_reducible rfl
    | simp only [State.sliceOut_still, State.decoded_still]
    | dsimp only
    | (refine still_foldl ?_ ?_)
    | (refine still_foldl_fst ?_ ?_)
    | (intro _)
    | split

theorem execCaravanSample_kept (k : CtxId) (m : CMsg) (s : State) {t : State} (h : execCaravanSample k m s = .next t) : Kept s t := by
  unfold execCaravanSample at h
  refine onMessage_kept (fun s => ?_) h
  simp only [State.onSample_still]

/-- What a loss of input power leaves: all of it but the TAP, which starts anew with the standby rail. -/
theorem execPowerFailDetect_still (s : State) {t : State} (h : execPowerFailDetect s = .next t) : t.still = { s.still with tap := {} } := by
  cases h
  have h := State.losePower_still s
  generalize s.losePower = w at h ⊢
  exact congrArg (fun k : Still => { k with tap := {} }) h

theorem execPresentNOpen_kept (s : State) {t : State} (h : execPresentNOpen s = .next t) : Kept s t := by
  unfold execPresentNOpen at h
  refine next_kept (.of_still ?_) h
  simp only [State.losePower_still]

theorem execPowerOn_kept (i : StartIn) (s : State) {t : State} (h : execPowerOn i s = .next t) : Kept s t := by
  unfold execPowerOn at h
  refine next_kept (.ite ?_ (.refl _)) h
  have hs : Kept s { s with standby := true } := ⟨le_rfl, le_rfl, rfl, .inl rfl⟩
  extract_lets u
  change Kept s u at hs
  clear_value u
  exact .ite ⟨hs.arb, hs.counter, hs.pending, hs.tap⟩ (hs.trans (State.startPart_kept ..))

theorem execModResetAssert_kept (s : State) {t : State} (h : execModResetAssert s = .next t) : Kept s t := by
  unfold execModResetAssert at h
  refine next_kept ?_ h
  extract_lets u
  have hu : Kept s u := ⟨le_rfl, le_rfl, rfl, .inl rfl⟩
  clear_value u
  split
  · exact hu.trans (State.powerDown_kept ..)
  · exact ⟨hu.arb, hu.counter, hu.pending, hu.tap⟩
  · exact hu

theorem execModResetRelease_kept (i : StartIn) (s : State) {t : State} (h : execModResetRelease i s = .next t) : Kept s t := by
  have hs : Kept s { s with resetHeld := false } := ⟨le_rfl, le_rfl, rfl, .inl rfl⟩
  exact next_kept (.ite (hs.trans (State.startPart_kept ..)) hs) h

theorem execTrialTimeout_kept (i : StartIn) (s : State) {t : State} (h : execTrialTimeout i s = .next t) : Kept s t :=
  whenUp_kept (.ite (State.revertStart_kept ..) (.refl _)) h

theorem execRestartGo_kept (i : StartIn) (s : State) {t : State} (h : execRestartGo i s = .next t) : Kept s t :=
  whenUp_kept (State.goRestart_kept ..) h

theorem execShExit_kept (i : StartIn) (s : State) {t : State} (h : execShExit i s = .next t) : Kept s t :=
  whenUp_kept (State.goShExit_kept ..) h

theorem execShEnter_kept (s : State) {t : State} (h : execShEnter s = .next t) : Kept s t := by
  unfold execShEnter at h
  refine whenUp_kept (.of_still ?_) h
  simp only [State.goShEnter_still]

theorem execFbGo_kept (offset len : Nat) (e : Env) (s : State) {t : State} (h : execFbGo offset len e s = .next t) : Kept s t := by
  unfold execFbGo at h
  refine whenUp_kept (.of_still ?_) h
  simp only [State.goFb_still]

theorem execActTag_kept (v : W64) (s : State) {t : State} (h : execActTag v s = .next t) : Kept s t := by
  unfold execActTag at h
  refine whenUp_kept (.of_still ?_) h
  simp only [State.goActTag_still]

theorem execOwnerToken_kept (token : List Byte) (e : Env) (s : State) {t : State} (h : execOwnerToken token e s = .next t) : Kept s t :=
  whenUp_kept (State.goToken_kept ..) h

theorem execOwnerKey_kept (key : List Byte) (s : State) {t : State} (h : execOwnerKey key s = .next t) : Kept s t := by
  unfold execOwnerKey at h
  refine whenUp_kept (.of_still ?_) h
  simp only [State.goOwnerKey_still]

theorem execAttestNonce_kept (nonce : BitVec 256) (s : State) {t : State} (h : execAttestNonce nonce s = .next t) : Kept s t := by
  unfold execAttestNonce at h
  refine whenUp_kept (.of_still ?_) h
  simp only [State.goAttest_still]

theorem execPitch_kept (slot : Byte) (s : State) {t : State} (h : execPitch slot s = .next t) : Kept s t := by
  unfold execPitch at h
  refine whenUp_kept (.of_still ?_) h
  simp only [State.goPitch_still]

theorem execPitchApply_kept (s : State) {t : State} (h : execPitchApply s = .next t) : Kept s t := by
  unfold execPitchApply at h
  refine whenUp_kept (.of_still ?_) h
  split <;> simp only [State.pitched_still, apply_ite State.still, ite_self]

theorem execShareGo_kept (s : State) {t : State} (h : execShareGo s = .next t) : Kept s t := by
  unfold execShareGo at h
  refine whenUp_kept (.of_still ?_) h
  simp only [State.goShare_still]

theorem execPostRearm_kept (k : CtxId) (mp : BitVec 16) (s : State) {t : State} (h : execPostRearm k mp s = .next t) : Kept s t := by
  unfold execPostRearm at h
  refine whenUp_kept (.of_still ?_) h
  simp only [State.goRearm_still]

theorem execStepGroup_kept (k : CtxId) (v : Byte) (s : State) {t : State} (h : execStepGroup k v s = .next t) : Kept s t := by
  unfold execStepGroup at h
  refine whenUp_kept (.of_still ?_) h
  simp only [State.goStepGroup_still]

theorem execWbRead_kept (p : Path) (entry sub : Nat) (s : State) {t : State} (h : execWbRead p entry sub s = .next t) : Kept s t := by
  unfold execWbRead at h
  refine onPath_kept (.of_still ?_) h
  simp only [State.reply_still]

theorem execWbReadBlock_kept (p : Path) (entry sub offset reqlen : Nat) (s : State) {t : State} (h : execWbReadBlock p entry sub offset reqlen s = .next t) : Kept s t := by
  unfold execWbReadBlock at h
  refine onPath_kept (.of_still ?_) h
  simp only [State.reply_still]

theorem execWbWrite_kept (p : Path) (entry sub : Nat) (data : List Byte) (e : Env) (s : State) {t : State} (h : execWbWrite p entry sub data e s = .next t) : Kept s t := by
  refine onPath_kept ?_ h
  exact (State.goWrite_kept ..)

theorem execWbTxnOpen_kept (p : Path) (entry sub offset : Nat) (data : List Byte) (s : State) {t : State} (h : execWbTxnOpen p entry sub offset data s = .next t) : Kept s t := by
  refine onPath_kept ?_ h
  exact (State.goBlock_kept ..)

theorem execWbWriteBlock_kept (p : Path) (entry sub offset : Nat) (data : List Byte) (s : State) {t : State} (h : execWbWriteBlock p entry sub offset data s = .next t) : Kept s t := by
  refine onPath_kept ?_ h
  exact (State.goBlock_kept ..)

theorem execWbTxnApply_kept (p : Path) (entry sub offset : Nat) (data : List Byte) (e : Env) (s : State) {t : State} (h : execWbTxnApply p entry sub offset data e s = .next t) : Kept s t := by
  refine onPath_kept ?_ h
  exact (State.goBlock_kept ..)

theorem execWbTxnTimeout_kept (p : Path) (s : State) {t : State} (h : execWbTxnTimeout p s = .next t) : Kept s t := by
  unfold execWbTxnTimeout at h
  refine whenUp_kept (.of_still ?_) h
  repeat' first
    | with_reducible rfl
    | simp only [State.dropStage_still]
    | dsimp only
    | (refine still_foldl ?_ ?_)
    | (refine still_foldl_fst ?_ ?_)
    | (intro _)
    | split

theorem execWbGo_kept (fn : CtxId) (seq : Nat) (m : WbMsg) (e : Env) (s : State) {t : State} (h : execWbGo fn seq m e s = .next t) : Kept s t := by
  unfold execWbGo at h
  refine whenUp_kept ?_ h
  refine .ite (.refl _) ?_
  have hs : Kept s { s with reqWin := Tab.set [] s.reqWin fn.val m.bytes } := ⟨le_rfl, le_rfl, rfl, .inl rfl⟩
  extract_lets u
  change Kept s u at hs
  clear_value u
  exact .ite hs (hs.trans (State.receive_kept ..))

theorem execMgFrameReceive_kept (port1 : Bool) (f : MgFrame) (e : Env) (s : State) {t : State} (h : execMgFrameReceive port1 f e s = .next t) : Kept s t := by
  unfold execMgFrameReceive at h
  split at h
  · exact next_kept (.of_still (State.emit_still ..)) h
  refine whenUp_kept ?_ h
  exact (.ite (.refl _) (.ite (State.receive_kept ..) (.ite (.after (State.forward_still ..) (State.receive_kept ..)) (.of_still (State.forward_still ..)))))

theorem execHostMpWindowWrite_kept (fn : CtxId) (offset : Fin 131072) (data : List Byte) (s : State) {t : State} (h : execHostMpWindowWrite fn offset data s = .next t) : Kept s t := by
  unfold execHostMpWindowWrite at h
  refine whenUp_kept (.of_still ?_) h
  repeat' first
    | with_reducible rfl
    | simp only [State.windowWrite_still, State.count_still, State.event_still, apply_ite State.still]
    | dsimp only
    | (refine still_foldl ?_ ?_)
    | (refine still_foldl_fst ?_ ?_)
    | (intro _)
    | split

theorem execEvConsWrite_kept (fn : CtxId) (v : W64) (s : State) {t : State} (h : execEvConsWrite fn v s = .next t) : Kept s t := by
  unfold execEvConsWrite at h
  refine whenUp_kept (.of_still ?_) h
  simp only [↓still_mk, still_eta, apply_ite State.still, ite_self]

theorem tickDie_still (s : State) (die n : Nat) : (s.tickDie die n).still = s.still := by
  unfold State.tickDie
  split
  · rfl
  · exact State.setVal_still ..

theorem tick_kept (s : State) : Kept s s.tick := by
  unfold State.tick
  refine .ite (.refl _) (.ite (State.startPart_kept ..) (.of_still ?_))
  rw [State.runLate_still]
  exact still_foldl (fun _ _ => tickDie_still ..) rfl

end Sys2Proof.Machine
end

