-- ==== Sys2Proof/Laws/Memory.lean ====
section
/-!
SUPPORT. Every operation that writes a memory keeps its canonical form, and reset has it.
-/

namespace Sys2Proof

variable {α : Type}

theorem Tab.all_set [DecidableEq α] {d : α} {t : Tab α} {i : Nat} {x : α} {p : Nat × α → Bool} (hx : p (i, x) = true) (h : t.all p = true) :
    (Tab.set d t i x).all p = true := by
  rw [List.all_eq_true] at h ⊢
  intro e he
  unfold Tab.set at he
  split at he
  · rw [Tab.del_eq_filter] at he
    exact h e (List.mem_of_mem_filter he)
  · rcases Tab.mem_ins he with rfl | he
    · exact hx
    · exact h e he

/-- What every listed value and the default have, the value at any index has. -/
theorem Tab.get_all {d : α} {t : Tab α} {i : Nat} {p : α → Bool} (hd : p d = true) (h : (t.all fun e => p e.2) = true) : p (Tab.get d t i) = true := by
  induction t with
  | nil => exact hd
  | cons e t ih =>
    obtain ⟨k, v⟩ := e
    rw [List.all_cons, Bool.and_eq_true] at h
    rw [Tab.get_cons]
    split
    · exact h.1
    · exact ih h.2

namespace Machine

theorem Memory.wf_setRange {m : Tab Byte} (a : Nat) (bs : List Byte) (h : Memory.wf m = true) : Memory.wf (Tab.setRange 0 m a bs) = true :=
  Tab.wf_setRange 0 m a bs h

theorem Memory.wf_set {m : Tab Byte} (a : Nat) (b : Byte) (h : Memory.wf m = true) : Memory.wf (Tab.set 0 m a b) = true := Tab.wf_set 0 m a b h

theorem Memory.wf_clearRange {m : Tab Byte} (lo hi : Nat) (h : Memory.wf m = true) : Memory.wf (Tab.clearRange m lo hi) = true :=
  Tab.wf_clearRange 0 m lo hi h

theorem Memory.wf_sets (f : Nat × Byte → Nat) (im : Tab Byte) {m : Tab Byte} (h : Memory.wf m = true) :
    Memory.wf (im.foldl (fun m e => Tab.set 0 m (f e) e.2) m) = true := by
  induction im generalizing m with
  | nil => exact h
  | cons e im ih => exact ih (Memory.wf_set _ _ h)

theorem Memory.wf_copyBack (im : Tab Byte) (off n a : Nat) {m : Tab Byte} (h : Memory.wf m = true) : Memory.wf (copyBack im off n a m) = true :=
  Memory.wf_sets _ _ (Memory.wf_clearRange _ _ h)

/-! ### The core store -/

theorem Core.write_wf {c : Core} (a : Nat) (bs : List Byte) (es : List (Option Int)) (h : Memory.wf c.store = true) :
    Memory.wf (c.write a bs es).store = true := Memory.wf_setRange a bs h

theorem State.setCore_wf {s : State} {c : Nat} {x : Core} (hx : Memory.wf x.store = true) (h : s.memoriesWf = true) : (s.setCore c x).memoriesWf = true := by
  unfold State.memoriesWf at h ⊢
  rw [Bool.and_eq_true] at h ⊢
  exact ⟨Tab.all_set hx h.1, h.2⟩

theorem State.core_wf {s : State} (c : Nat) (h : s.memoriesWf = true) : Memory.wf (s.core c).store = true := by
  unfold State.memoriesWf at h
  rw [Bool.and_eq_true] at h
  exact Tab.get_all (p := fun x : Core => Memory.wf x.store) rfl h.1

/-- A change of a core that keeps its store canonical. -/
theorem State.updCore_wf {s : State} {c : Nat} {f : Core → Core} (hf : ∀ x, Memory.wf x.store = true → Memory.wf (f x).store = true)
    (h : s.memoriesWf = true) : (s.updCore c f).memoriesWf = true := State.setCore_wf (hf _ (State.core_wf c h)) h

/-- The store of a core as a context receives it. -/
theorem freshCore_wf (k role : Nat) (p : Package) : Memory.wf (freshCore k role p).store = true := by
  have hq (l : List Queue) (f : Core → Queue → QueueSt) {c : Core} (h : Memory.wf c.store = true) :
      Memory.wf (l.foldl (fun c q => c.setQ q (f c q)) c).store = true := by
    induction l generalizing c with
    | nil => exact h
    | cons q l ih => exact ih (by cases q <;> exact h)
  have hd (l : List (Nat × Nat × BitVec 512)) {c : Core} (h : Memory.wf c.store = true) :
      Memory.wf (l.foldl (fun c d => { c with store := Tab.setRange 0 c.store d.2.1 (Bits.toBytes 64 d.2.2.toNat) }) c).store = true := by
    induction l generalizing c with
    | nil => exact h
    | cons d l ih => exact ih (Memory.wf_setRange _ _ h)
  exact hd _ (hq _ (fun c q => (c.q q).load false (imageOf p role q)) rfl)

/-! ### Device memory -/

theorem State.setCtx_wf {s : State} {k : Nat} {x : Ctx} (hx : Memory.wf x.mem = true) (h : s.memoriesWf = true) : (s.setCtx k x).memoriesWf = true := by
  unfold State.memoriesWf at h ⊢
  rw [Bool.and_eq_true] at h ⊢
  exact ⟨h.1, Tab.all_set hx h.2⟩

theorem State.ctx_wf {s : State} (k : Nat) (h : s.memoriesWf = true) : Memory.wf (s.ctx k).mem = true := by
  unfold State.memoriesWf at h
  rw [Bool.and_eq_true] at h
  exact Tab.get_all (p := fun x : Ctx => Memory.wf x.mem) rfl h.2

/-- A change of a context that keeps its memory canonical. -/
theorem State.updCtx_wf {s : State} {k : Nat} {f : Ctx → Ctx} (hf : ∀ x, Memory.wf x.mem = true → Memory.wf (f x).mem = true)
    (h : s.memoriesWf = true) : (s.updCtx k f).memoriesWf = true := State.setCtx_wf (hf _ (State.ctx_wf k h)) h

theorem State.memWrite_wf {s : State} (k va : Nat) (bs : List Byte) (h : s.memoriesWf = true) : (s.memWrite k va bs).memoriesWf = true :=
  State.updCtx_wf (fun _ hx => Memory.wf_setRange va bs hx) h

theorem State.memWriteNat_wf {s : State} (k va n x : Nat) (h : s.memoriesWf = true) : (s.memWriteNat k va n x).memoriesWf = true :=
  State.memWrite_wf k va _ h

theorem State.dropRegion_wf {s : State} (k i : Nat) (r : Region) (h : s.memoriesWf = true) : (s.dropRegion k i r).memoriesWf = true :=
  State.updCtx_wf (fun _ hx => Memory.wf_clearRange _ _ hx) h

theorem State.memoriesWf_congr {s t : State} (h1 : t.cores = s.cores) (h2 : t.ctxs = s.ctxs) : t.memoriesWf = s.memoriesWf := by
  unfold State.memoriesWf
  rw [h1, h2]

theorem State.deliver_memoriesWf (s : State) (fn : Nat) (r : BitVec 512) : (s.deliver fn r).memoriesWf = s.memoriesWf := by
  unfold State.deliver
  dsimp only
  split
  · split <;> rfl
  · rfl

theorem State.ringEvent_memoriesWf (s : State) (n : Nat) (r : BitVec 512) : (s.ringEvent n r).memoriesWf = s.memoriesWf := by
  unfold State.ringEvent
  dsimp only
  split <;> rfl

/-- Posting an event writes no memory. -/
theorem State.event_memoriesWf (s : State) (code : Nat) (ctx : Option Nat) (die data : Nat) : (s.event code ctx die data).memoriesWf = s.memoriesWf := by
  unfold State.event
  dsimp only
  rw [State.ringEvent_memoriesWf]
  split
  · split
    · rw [State.deliver_memoriesWf, State.deliver_memoriesWf]; exact State.memoriesWf_congr rfl rfl
    · rw [State.deliver_memoriesWf]; exact State.memoriesWf_congr rfl rfl
  · rw [State.deliver_memoriesWf]; exact State.memoriesWf_congr rfl rfl

/-- Logging a fault writes no memory. -/
theorem State.logFault_memoriesWf (s : State) (cls sub act : Nat) (core ctx : Option Nat) (die detail addr : Nat) :
    (s.logFault cls sub act core ctx die detail addr).memoriesWf = s.memoriesWf := by
  unfold State.logFault
  extract_lets r t
  clear_value r
  rw [State.event_memoriesWf]
  exact State.memoriesWf_congr rfl rfl

theorem State.hubWrite_wf {s : State} (k va : Nat) (bs : List Byte) (h : s.memoriesWf = true) : (s.hubWrite k va bs).memoriesWf = true := by
  unfold State.hubWrite
  split
  · exact (State.logFault_memoriesWf ..).trans h
  · exact State.memWrite_wf k va bs h

theorem State.hubWriteNat_wf {s : State} (k va n x : Nat) (h : s.memoriesWf = true) : (s.hubWriteNat k va n x).memoriesWf = true :=
  State.hubWrite_wf k va _ h

theorem State.clearStore_wf {s : State} (k i : Nat) (g : GStore) (h : s.memoriesWf = true) : (s.clearStore k i g).memoriesWf = true := by
  unfold State.clearStore
  extract_lets recs hi t
  have ht : t.memoriesWf = true := State.updCtx_wf (fun _ hx => Memory.wf_clearRange _ _ hx) h
  clear_value t recs
  induction recs generalizing t with
  | nil => exact ht
  | cons r l ih => exact ih _ (State.hubWriteNat_wf _ _ _ _ ht)

theorem State.writeStage_wf {s : State} (k : Nat) (st : Stage) (h : s.memoriesWf = true) : (s.writeStage k st).memoriesWf = true :=
  State.updCtx_wf (fun _ hx => Memory.wf_sets _ _ hx) (State.hubWrite_wf _ _ _ (State.updCtx_wf (fun _ hx => Memory.wf_clearRange _ _ hx) h))

/-- The memories of the machine after reset are canonical. -/
theorem reset_memoriesWf : State.reset.memoriesWf = true := rfl

end Machine

end Sys2Proof
end

