-- ==== Sys2Proof/Tests/Slice0.lean ====
section
/-!
SUPPORT. Tests: ill-formed commands that the checks of WellFormed refuse, small runs with values from the spec, and, for every statement, states and operands that
meet the hypotheses of its clauses.
-/

namespace Sys2Proof.Machine.Tests

open Sys2Proof Sys2Proof.Machine Sys2Proof.WB

set_option Elab.async false

/-! ### Small states -/

/-- An instruction word: its opcode and its fields, each by its lowest bit. -/
def iw (oc : Nat) (fs : List (Nat × Nat)) : Nat := oc + (fs.map fun f => f.2 * 2 ^ f.1).sum

/-- A running queue whose pc names the word `w`. -/
def qOf (w : Nat) : QueueSt := { st := .running, bank0 := { words := [BitVec.ofNat 128 w], valid := true } }

/-- A queue that waits for `wt` at the word `w`. -/
def qAt (w : Nat) (wt : Wait) (st : QState := .running) : QueueSt := { qOf w with wait := some wt, st := st }

/-- Context 1, running on core 0, with Milepost 0 to advance, Milepost 1 poisoned and Milepost 2 at 5. -/
def ctx1 : Ctx where
  st := .running
  roles := [0]
  mpmap := [(0, { valid := true, adv := true, pmp := 0 }), (1, { valid := true, pmp := 1 }), (2, { valid := true, pmp := 2 })]

/-- Core 0 serves context 1. -/
def machine (c : Core) (x : Ctx := ctx1) : State :=
  { State.reset with
    cores := [(0, { c with ctx := some 1 })]
    ctxs := [(1, x)]
    pmps := [(0, { st := .live, owner := 1 }), (1, { st := .poisoned, owner := 1 }), (2, { st := .live, owner := 1, cval := 5 })] }

/-- Queue `q` of core 0. -/
def on (q : Queue) : QRef := ⟨0, q⟩

/-- Core `c` with queue `q` at the word `w`. -/
def atWord (q : Queue) (w : Nat) (c : Core := {}) : State := machine (c.setQ q (qOf w))

/-- What `Ready` asks, as a computation. -/
def readyB (s : State) (q : QRef) (oc : OpCode) (w : Nat) : Bool :=
  !s.dieLost q.core.val && s.canIssue q && (s.queue q).inflight.isEmpty && (s.queue q).fetch == some w && Bits.fld w 8 3 * 256 + Bits.fld w 0 8 == oc
    && (checkWord q.queue w).isNone && (s.ctx (s.ctxOf q)).aborting.isNone && !((carried w).any fun a => !s.mayAdvance (s.ctxOf q) a.1)

theorem ready_of {s : State} {q : QRef} {oc : OpCode} {w : Nat} (h : readyB s q oc w = true) : Ready s q oc w := by
  simp only [readyB, Bool.and_eq_true, Bool.not_eq_true', beq_iff_eq, List.isEmpty_iff, Option.isNone_iff_eq_none] at h
  obtain ⟨⟨⟨⟨⟨⟨⟨a, b⟩, c⟩, d⟩, e⟩, f⟩, g⟩, i⟩ := h
  exact ⟨a, b, c, d, e, f, g, i⟩

/-- What `Works` asks, as a computation. -/
def worksB (s : State) (c : CoreId) (k : Nat) : Bool := !s.dieLost c.val && s.up && (s.core c.val).ctx == some k

theorem works_of {s : State} {c : CoreId} {k : Nat} (h : worksB s c k = true) : Works s c k := by
  simp only [worksB, Bool.and_eq_true, Bool.not_eq_true', beq_iff_eq] at h
  exact ⟨h.1.1, h.1.2, h.2⟩

/-- A word at which its queue is ready and whose carried advance finds room. -/
def go (s : State) (q : QRef) (oc : OpCode) (w : Nat) : Bool := readyB s q oc w && s.fits q w []

/-! ### Witnesses: the instructions common to all queues -/

def wLi : Nat := iw 0x018 [(32, 3), (64, 2 ^ 64 - 1)]
def wSop : Nat := iw 0x019 [(32, 3), (38, 3), (44, 4), (50, 1)]
def wMpread : Nat := iw 0x00B [(32, 2), (54, 0x2F)]

theorem wit_scalarInstructions :
    (go (atWord .T wLi) (on .T) 0x018 wLi = true ∧ ((atWord .T wLi).queue (on .T)).streamFrame 3 = none)
    ∧ (go (atWord .V wSop) (on .V) 0x019 wSop = true ∧ ((atWord .V wSop).queue (on .V)).streamFrame 3 = none)
    ∧ (go (atWord .O wMpread) (on .O) 0x00B wMpread = true ∧ ((atWord .O wMpread).queue (on .O)).streamFrame 0x2F = none
      ∧ ((atWord .O wMpread).mpEntry 1 2).valid = true ∧ (atWord .O wMpread).mpPoisoned 1 2 = false)
    ∧ 0x2F < 0x30 ∧ 0x2E ≠ 0x2F ∧ 0x30 ≤ 0x30 := by decide +kernel

def wNop : Nat := iw 0x000 [(12, 1), (26, 63)]
def wBr : Nat := iw 0x003 [(32, 2047)]
def wBrc (c : Nat) : Nat := iw 0x004 [(32, 7), (43, c), (46, 0x30), (52, 0x30)]
def wBsw : Nat := iw 0x005 [(32, 1)]
def wMpadv : Nat := iw 0x00A [(32, 0), (52, 1), (54, 0x30), (64, 9)]
def wHalt : Nat := iw 0x001 [(64, 0xFFFF)]

/-- Core 0 whose T queue is at BSW, with two words in the other bank. -/
def bswCore : Core := { qT := { qOf wBsw with bank1 := { words := [0, 0], valid := true } } }

theorem wit_controlInstructions :
    go (atWord .U wNop) (on .U) 0x000 wNop = true
    ∧ (go (atWord .F wBr) (on .F) 0x003 wBr = true
      ∧ (((atWord .F wBr).queue (on .F)).activeFrames.all fun f => f.2.start ≤ Bits.fld wBr 32 11 && Bits.fld wBr 32 11 ≤ f.2.last) = true)
    ∧ (go (atWord .F (wBrc 0)) (on .F) 0x004 (wBrc 0) = true ∧ brcHolds 0 0 0 = true)
    ∧ (go (atWord .F (wBrc 1)) (on .F) 0x004 (wBrc 1) = true ∧ brcHolds 1 0 0 = false)
    ∧ (go (machine bswCore) (on .T) 0x005 wBsw = true ∧ ((machine bswCore).queue (on .T)).inactive.valid = true
      ∧ Bits.fld wBsw 32 11 < ((machine bswCore).queue (on .T)).inactive.words.length ∧ ((machine bswCore).queue (on .T)).activeFrames = [])
    ∧ (readyB (atWord .T wMpadv) (on .T) 0x00A wMpadv = true ∧ (atWord .T wMpadv).mayAdvance 1 0 = true
      ∧ (atWord .T wMpadv).fits (on .T) wMpadv [(0, .raise, 9)] = true)
    ∧ readyB (atWord .T wHalt) (on .T) 0x001 wHalt = true := by decide +kernel

def wLoop (trip : Nat) : Nat := iw 0x002 [(32, trip), (64, 2047), (75, 5), (78, 1), (84, 4), (89, 2)]

/-- A queue at the END word of its one frame, in its iteration `i` of 2. -/
def atEnd (i : BitVec 32) (last : Nat) : QueueSt := { frames := [(1, { active := true, last := last, start := 1, iter := i, trip := 2 })], pc := 3 }

theorem wit_loops :
    (∀ trip ∈ [0, 2 ^ 32 - 1], go (atWord .T (wLoop trip)) (on .T) 0x002 (wLoop trip) = true ∧ (((atWord .T (wLoop trip)).queue (on .T)).frame 5).active = false
      ∧ (((atWord .T (wLoop trip)).queue (on .T)).activeFrames.all fun f => 2047 ≤ f.2.last) = true)
    ∧ ((atEnd 0 3).activeFrames.length = 1 ∧ ∀ e ∈ (atEnd 0 3).activeFrames, e.2.last = (atEnd 0 3).pc ∧ e.2.iter + 1 < e.2.trip)
    ∧ ((atEnd 1 3).activeFrames.length = 1 ∧ ∀ e ∈ (atEnd 1 3).activeFrames, e.2.last = (atEnd 1 3).pc ∧ ¬ e.2.iter + 1 < e.2.trip)
    ∧ ((atEnd 1 4).activeFrames.length = 1 ∧ ∀ e ∈ (atEnd 1 4).activeFrames, e.2.last ≠ (atEnd 1 4).pc) := by decide +kernel

def wWait (mp v : Nat) : Nat := iw 0x008 [(32, mp), (54, 0x30), (64, v)]
def wWaitmin (v : Nat) : Nat := iw 0x009 [(32, 2), (45, 1), (54, 0x30), (64, v)]

/-- WAITMIN for the value 0 of the `n` Mileposts from `mp` on. -/
def wRow (mp n : Nat) : Nat := iw 0x009 [(32, mp), (45, n), (54, 0x30)]

/-- The Mileposts `a` to `a + n - 1` of context 1 of `s` are mapped and not poisoned, and whether all have reached `v`. -/
def mapped (s : State) (a n : Nat) : Bool := (List.range n).all fun i => (s.mpEntry 1 (a + i)).valid && !s.mpPoisoned 1 (a + i)
def reached (s : State) (q : QRef) (a n v : Nat) : Bool := (List.range n).all fun i => decide (v ≤ s.mpSeen 1 (a + i) (s.epochOf 1 (s.queue q)))

theorem wit_waits :
    (∀ v ∈ [5, 6], go (atWord .T (wWait 2 v)) (on .T) 0x008 (wWait 2 v) = true ∧ mapped (atWord .T (wWait 2 v)) 2 1 = true
      ∧ reached (atWord .T (wWait 2 v)) (on .T) 2 1 v = decide (v = 5))
    ∧ (∀ v ∈ [5, 6], go (atWord .T (wWaitmin v)) (on .T) 0x009 (wWaitmin v) = true ∧ mapped (atWord .T (wWaitmin v)) 2 1 = true
      ∧ reached (atWord .T (wWaitmin v)) (on .T) 2 1 v = decide (v = 5))
    ∧ (∀ c ∈ [0, 1], go ((atWord .T (wWait 1 0)).putVal POISON_CONTINUE 0 c) (on .T) 0x008 (wWait 1 0) = true
      ∧ (((atWord .T (wWait 1 0)).putVal POISON_CONTINUE 0 c).mpEntry 1 1).valid = true
      ∧ ((atWord .T (wWait 1 0)).putVal POISON_CONTINUE 0 c).mpPoisoned 1 1 = true
      ∧ ((atWord .T (wWait 1 0)).putVal POISON_CONTINUE 0 c).val POISON_CONTINUE 0 = c)
    ∧ (∀ c ∈ [0, 1], let s := (atWord .T (wRow 0 2)).putVal POISON_CONTINUE 0 c
      go s (on .T) 0x009 (wRow 0 2) = true ∧ (s.mpEntry 1 0).valid = true ∧ (s.mpEntry 1 1).valid = true ∧ s.mpPoisoned 1 0 = false ∧ s.mpPoisoned 1 1 = true)
    ∧ (readyB (atWord .T (wRow 1 3)) (on .T) 0x009 (wRow 1 3) = true ∧ mapped (atWord .T (wRow 2 1)) 2 1 = true ∧ ((atWord .T (wRow 1 3)).mpEntry 1 3).valid = false)
    ∧ (readyB (atWord .T (wWait 8191 0)) (on .T) 0x008 (wWait 8191 0) = true ∧ ((atWord .T (wWait 8191 0)).mpEntry 1 8191).valid = false)
    ∧ (readyB (atWord .T (wRow 2 64)) (on .T) 0x009 (wRow 2 64) = true ∧ ((atWord .T (wRow 2 64)).mpEntry 1 3).valid = false) := by decide +kernel

theorem wit_issue :
    let s := atWord .T wNop
    (s.queue (on .T)).inflight = [] ∧ s.fits (on .T) wNop [] = true ∧ (s.ctx 1).aborting = none ∧ s.dieLost 0 = false ∧ s.canIssue (on .T) = true := by decide +kernel

theorem wit_encodingChecks :
    ((machine { qT := { qOf 0 with pc := 1 } }).canIssue (on .T) = true ∧ ((machine { qT := { qOf 0 with pc := 1 } }).queue (on .T)).fetch = none)
    ∧ ((atWord .T 0x1FF).canIssue (on .T) = true ∧ ((atWord .T 0x1FF).queue (on .T)).fetch = some 0x1FF ∧ checkWord .T 0x1FF = some (0x01, 0x1FF))
    ∧ (((atWord .T (2 ^ 127)).queue (on .T)).fetch = some (2 ^ 127) ∧ checkWord .T (2 ^ 127) = some (0x02, 32))
    ∧ checkWord .T (iw 0x019 [(32, 0x31)]) = some (0x03, 32) := by decide +kernel

/-! ### Witnesses: the core store, buffers and Ridgepole -/

/-- Core 0 with buffer 7 of 128 bytes at 64, held by `q` in write mode or read by it, with value 9 at byte 64. -/
def bufCore (w : Option Queue) (r : List Queue := []) (o : List (Bool × Queue) := []) : Core :=
  { bufs := [(7, some { base := 64, len := 128, writer := w, readers := r, offers := o })], store := [(64, 9)] }

def wSld : Nat := iw 0x01A [(32, 1), (55, 3), (58, 0), (64, 184)]
def wSst : Nat := iw 0x01B [(32, 1), (55, 3), (58, 0), (64, 64)]

theorem wit_loadsAndStores :
    let s := atWord .V wSld (bufCore none [.V])
    let t := atWord .V wSst (bufCore (some .V))
    (go s (on .V) 0x01A wSld = true ∧ (s.core 0).sentinel .V false 184 8 = none ∧ linePoisoned (s.core 0).poison 184 8 = false
      ∧ (s.queue (on .V)).streamFrame 1 = none ∧ 184 % 8 = 0 ∧ 184 + 8 ≤ storeSize)
    ∧ (go t (on .V) 0x01B wSst = true ∧ (t.core 0).sentinel .V true 64 8 = none ∧ 64 % 8 = 0 ∧ 64 + 8 ≤ storeSize)
    ∧ Tab.wf 0 (t.core 0).store = true := by decide +kernel

theorem wit_sentinel :
    ((bufCore (some .V)).sentinel .T false 64 1 = some (0x10, 0))
    ∧ (bufCore none [.V]).heldAt .V 191 = some (7, { base := 64, len := 128, readers := [.V] }, false)
    ∧ (bufCore (some .V)).heldAt .V 64 = some (7, { base := 64, len := 128, writer := some .V }, true) ∧ 64 + 128 ≤ 64 + 128 := by decide +kernel

def wBdef : Nat := iw 0x010 [(32, 9), (44, 0), (48, 16), (96, 192)]
def wGive : Nat := iw 0x011 [(12, 1), (26, 1), (32, 7), (38, 1), (39, 2)]
def wTake (wr : Nat) : Nat := iw 0x012 [(32, 7), (38, wr), (48, 0x30), (54, 2), (96, 5)]
def wBrel : Nat := iw 0x013 [(32, 7)]

/-- Core 0 whose O queue is at BDEF, with length 64 in a0. -/
def bdefCore : Core := (bufCore none).setQ .O { qOf wBdef with regs := [(16, 64)] }

theorem wit_buffers :
    (go (machine bdefCore) (on .O) 0x010 wBdef = true ∧ (machine bdefCore).bufsRecorded (on .O) = true
      ∧ (((machine bdefCore).queue (on .O)).reg 16 = 64 ∨ ((machine bdefCore).queue (on .O)).a 0 = 64) ∧ bdefCore.buf 9 = none)
    ∧ (go (atWord .V wGive (bufCore (some .V))) (on .V) 0x011 wGive = true ∧ (atWord .V wGive (bufCore (some .V))).bufsRecorded (on .V) = true)
    ∧ (go (atWord .O wGive (bufCore none [.O])) (on .O) 0x011 wGive = true ∧ unconfirmed (bufCore none [.O]) 64 128 = false)
    ∧ (∀ wr ∈ [false, true], let w := wTake (Bits.ofBool wr)
      let s := atWord .T w (bufCore none [] [(wr, .T)])
      go s (on .T) 0x012 w = true ∧ s.bufsRecorded (on .T) = true ∧ (s.mpEntry 1 2).valid = true ∧ s.mpPoisoned 1 2 = false ∧ 5 ≤ s.mpSeen 1 2 none)
    ∧ (go (atWord .V wBrel (bufCore (some .V))) (on .V) 0x013 wBrel = true)
    ∧ worksB (machine {}) 0 1 = true := by decide +kernel

def wRidge (r : Nat) : Nat := iw 0x00C [(32, 3), (54, 0x30), (64, r)]

/-- `s` with Ridgepole group 3 of context 1: role 0, every queue, window 1. -/
def withGroup (s : State) : State := s.setBlob RIDGE_GROUPS 2 (128 * 3) (Bits.toBytes 128 (1 + 256 * 0x1F + 2 ^ 13 + 2 ^ 32))

/-- A state in which the T queue waits at RIDGE for round `r`, which every participant has reached. -/
def ridgeWaits (r : Nat) : State :=
  { withGroup (machine { qT := qAt (wRidge r) .ridge .waiting }) with parts := allQueues.map fun q => (partKey 1 3 0 q, { val := 1 }) }

theorem wit_ridge :
    let s := withGroup (atWord .T (wRidge 1))
    (readyB s (on .T) 0x00C (wRidge 1) = true ∧ ((s.rgroup 1 3).any fun g => s.isPart 1 g (on .T)) = true)
    ∧ (readyB (atWord .T (wRidge 1)) (on .T) 0x00C (wRidge 1) = true ∧ (atWord .T (wRidge 1)).rgroup 1 3 = none)
    ∧ s.partSpec 1 3 = false ∧ s.partMin 1 3 [(0, .O)] none = some 0 := by decide +kernel
/-! ### Witnesses: the Outrider, the array, the vector engine -/

/-- Core 0 with one buffer, its whole store, which `q` may write, and bytes `bs` at 0x1000. -/
def full (q : Queue) (bs : List Byte := []) : Core :=
  { bufs := [(0, some { base := 0, len := 0x600000, writer := some q })], store := Tab.setRange 0 [] 0x1000 bs }

/-- A queue at `w` with the registers `r`. -/
def qRegs (w : Nat) (r : Tab W64) : QueueSt := { qOf w with regs := r }

/-- A descriptor that copies 32 bytes within the core store. -/
def copyDesc : Nat := 0x2000 * 2 ^ 448 + 0x3000 * 2 ^ 384 + 2 ^ 176 + 2 ^ 160 + 2 ^ 144 + 32 * 2 ^ 120 + 15 * 2 ^ 61

def slotArmed (st : SlotState) (r : Option ChunkRun := none) : DSlot := { st := st, desc := BitVec.ofNat 512 copyDesc, run := r }

/-- The O queue at `w`, with the descriptor in store and in slot 3. -/
def oAt (w : Nat) (x : DSlot) : State := machine { (full .O (Bits.toBytes 64 copyDesc)).setQ .O (qOf w) with slots := [(3, x)] }

def wDarm : Nat := iw 0x100 [(32, 3), (96, 0x1000)]
def wDrearm : Nat := iw 0x101 [(32, 3), (96, 0x1000)]
def wDgo : Nat := iw 0x102 [(32, 3)]
def wPref : Nat := iw 0x103 [(32, 3), (42, 0x30), (48, 2), (96, 5)]
def wDstop : Nat := iw 0x104 [(32, 3)]
def wDstat : Nat := iw 0x105 [(32, 3), (42, 0)]

theorem wit_descriptors :
    (go (oAt wDarm {}) (on .O) 0x100 wDarm = true ∧ (((oAt wDarm {}).core 0).slot 3).st.busy = false
      ∧ ((oAt wDarm {}).core 0).sentinel .O false 0x1000 64 = none ∧ ((oAt wDarm {}).core 0).runWrites 0x1000 64 = false
      ∧ linePoisoned ((oAt wDarm {}).core 0).poison 0x1000 64 = false ∧ descMalformed (((oAt wDarm {}).core 0).readNat 0x1000 64) = false)
    ∧ (∀ x ∈ [slotArmed .armed, slotArmed .running (some {})], go (oAt wDrearm x) (on .O) 0x101 wDrearm = true ∧ ¬ (x.st.busy = true ∧ x.pend.isSome = true)
      ∧ ((oAt wDrearm x).core 0).runWrites 0x1000 64 = false)
    ∧ (readyB (oAt wDgo (slotArmed .armed)) (on .O) 0x102 wDgo = true
      ∧ (oAt wDgo (slotArmed .armed)).descRefused 1 (descOf (slotArmed .armed).desc.toNat) = none
      ∧ (oAt wDgo (slotArmed .armed)).peerMissing 1 0 (descOf (slotArmed .armed).desc.toNat) = none ∧ (oAt wDgo (slotArmed .armed)).slotHazard 0 1 3 = false)
    ∧ (readyB (oAt wPref (slotArmed .armed)) (on .O) 0x103 wPref = true ∧ ((oAt wPref (slotArmed .armed)).mpEntry 1 2).valid = true
      ∧ (descOf (slotArmed .armed).desc.toNat).dstk = 0 ∧ (oAt wPref (slotArmed .armed)).slotHazard 0 1 3 = false)
    ∧ go (oAt wDstop (slotArmed .held (some { pref := true }))) (on .O) 0x104 wDstop = true
    ∧ (go (oAt wDstat (slotArmed .armed)) (on .O) 0x105 wDstat = true ∧ ((oAt wDstat (slotArmed .armed)).queue (on .O)).streamFrame 0 = none) := by
  decide +kernel

/-- MM of a 1 by 1 tile over 8 products, operands at 0x1000 and 0x2000. -/
def wMm (opened : Nat) : Nat := iw 0x200 [(46, opened), (52, 1), (56, 2), (72, 1), (77, 2), (87, 1), (95, 1)]
def mmRegs : Tab W64 := [(1, 8), (2, 64 + 64 * 2 ^ 32), (0x21, 0x1000), (0x22, 0x2000)]
def mmCore (opened : Nat) (t : Tile) : Core := { (full .T).setQ .T (qRegs (wMm opened) mmRegs) with tile0 := t }

/-- ATTN of one row and one key of head dimension 8. -/
def wAttn : Nat := iw 0x208 [(46, 1), (48, 1), (52, 2), (56, 3), (60, 4), (64, 5), (68, 0), (72, 6), (76, 3), (81, 1), (86, 2), (91, 2), (96, 8), (104, 1), (112, 4)]
def attnRegs : Tab W64 := [(1, 1), (2, 64 + 64 * 2 ^ 32), (3, 0x3F800000), (0x21, 0x1000), (0x22, 0x2000), (0x23, 0x3000), (0x24, 0x4000), (0x25, 0x5000), (0x26, 0x6000)]
def attnCore : Core := (full .T).setQ .T (qRegs wAttn attnRegs)

theorem wit_array :
    (∀ e ∈ [(1, ({} : Tile)), (0, { st := .accumulating, mr := 1, nc := 1 })], let s := machine (mmCore e.1 e.2)
      let o := mmOps (s.queue (on .T)) (wMm e.1)
      readyB s (on .T) 0x200 (wMm e.1) = true ∧ (o.opened = true → ((s.core 0).tile o.t).st = .free)
        ∧ (o.opened = false → ((s.core 0).tile o.t).st = .accumulating ∧ ((s.core 0).tile o.t).attn = false)
        ∧ mmCheck (s.core 0) o = none ∧ o.poisoned (s.core 0) = none)
    ∧ (let s := machine attnCore
      let o := attnOps (s.queue (on .T)) wAttn
      readyB s (on .T) 0x208 wAttn = true ∧ o.opened = true ∧ (s.core 0).tile0.st = .free ∧ (s.core 0).tile1.st = .free
        ∧ attnCheck (s.core 0) o (Bits.fld wAttn 76 5) = none ∧ (s.queue (on .T)).streamFrame o.reg = none ∧ o.poisoned (s.core 0) = none)
    ∧ (let t : Tile := { st := .accumulating, attn := true, mr := 1, nc := 1 }
      let w := wAttn - 2 ^ 46
      let s := machine { (full .T).setQ .T (qRegs w attnRegs) with tile0 := t, tile1 := { t with nc := 8 } }
      let o := attnOps (s.queue (on .T)) w
      readyB s (on .T) 0x208 w = true ∧ o.opened = false ∧ (s.core 0).attnHeld = true ∧ attnCheck (s.core 0) o (Bits.fld w 76 5) = none
        ∧ o.poisoned (s.core 0) = none) := by
  decide +kernel

/-- The words of the V queue's arithmetic, with P for those that have it. -/
def vWords : List (Nat × List (Nat × Nat)) :=
  [(0x300, [(40, 1), (44, 2), (50, 4), (56, 6)]), (0x301, [(41, 1), (68, 3)]), (0x302, []), (0x303, [(62, 5)]), (0x304, []), (0x305, []), (0x306, []), (0x307, []),
    (0x308, []), (0x309, []), (0x30A, [(32, 6)]), (0x30B, [(62, 63)]), (0x30C, [(82, 3), (86, 0)]), (0x30D, [(32, 11)]), (0x30E, [(32, 12)]), (0x313, [(44, 63)]),
    (0x314, [(68, 3)])]

theorem wit_vectorArithmetic : ∀ e ∈ vWords, go (atWord .V (iw e.1 e.2)) (on .V) e.1 (iw e.1 e.2) = true := by decide +kernel

/-- A core of 64 threads, whose V queue is at `w` with the registers `r`. -/
def vCore (w : Nat) (r : Tab W64 := []) : Core := { (full .V).setQ .V (qRegs w r) with vslots := 1 }
def wVld : Nat := iw 0x310 [(40, 1), (96, 0x1000)]
def wVst : Nat := iw 0x311 [(40, 0), (96, 0x1000)]
def wVxaddC : Nat := iw 0x312 [(40, 1), (96, 0x1000)]
def wVxaddE : Nat := iw 0x312 [(32, 1), (74, 1)]
def wVcfg : Nat := iw 0x315 [(68, 3)]
def wVflags : Nat := iw 0x316 [(32, 1)]
def wVbenc : Nat := iw 0x317 [(68, 1), (74, 1), (78, 2), (96, 4)]

/-- `s` with region 0 of context 1: 16 present pages from 2^40 on. -/
def withRegion (s : State) : State := s.setBlob MAP 2 0 (Bits.toBytes 32 (1 + 2 ^ 16 + 16 * 2 ^ 128 + 2 ^ 40 * 2 ^ 160))

theorem wit_vectorMemory :
    (go (machine (vCore wVld)) (on .V) 0x310 wVld = true ∧ vAccess (on .V) ((machine (vCore wVld)).queue (on .V)) (vCore wVld) wVld 8 8 false = none
      ∧ linePoisoned (vCore wVld).poison 0x1000 8 = false)
    ∧ (let s := machine (vCore wVst)
      go s (on .V) 0x311 wVst = true ∧ vAccess (on .V) (s.queue (on .V)) (s.core 0) wVst 4 4 true = none)
    ∧ (let s := machine (vCore wVxaddC)
      go s (on .V) 0x312 wVxaddC = true ∧ vAccess (on .V) (s.queue (on .V)) (s.core 0) wVxaddC 96 32 true = none)
    ∧ (let s := withRegion (machine (vCore wVxaddE [(0x21, 2 ^ 40)]))
      readyB s (on .V) 0x312 wVxaddE = true ∧ (s.eauCheck 1 (2 ^ 40) (s.vxW128 1 (2 ^ 40))) = none ∧ vAddr (s.queue (on .V)) (s.core 0) wVxaddE 63 = 2 ^ 40)
    ∧ (go (machine (vCore wVcfg [(3, 1)])) (on .V) 0x315 wVcfg = true ∧ go (machine (vCore wVcfg [(3, 64)])) (on .V) 0x315 wVcfg = true)
    ∧ go (machine (vCore wVflags)) (on .V) 0x316 wVflags = true
    ∧ (let s := machine (vCore wVbenc [(1, 16), (0x21, 0x1000), (0x22, 0x2000)])
      readyB s (on .V) 0x317 wVbenc = true ∧ bfbMalformed 4 0 = false ∧ coreRegion 0x1000 64 4 = none ∧ coreRegion 0x2000 (Fmt.rowBytes 4 0 16) 64 = none
        ∧ (s.core 0).sentinel .V false 0x1000 64 = none ∧ (s.core 0).sentinel .V true 0x2000 (Fmt.rowBytes 4 0 16) = none
        ∧ linePoisoned (s.core 0).poison 0x1000 64 = false) := by decide +kernel

/-! ### Witnesses: the fold and update engines -/

/-- RET of tile 0 to the core store as binary32, or as exact adds (DK 2). -/
def wRet (dk : Nat) : Nat := iw 0x400 [(41, dk), (76, 1), (88, 2), (98, 3)]
def wNorm : Nat := iw 0x401 [(76, 1), (80, 4), (88, 2), (98, 3)]
def wNsq (dk : Nat) : Nat := iw 0x402 [(41, dk), (72, 4), (76, 1), (93, 1), (98, 3)]
def wCens : Nat := iw 0x403 [(72, 4), (93, 1), (98, 3), (112, 4095)]

/-- No replay holds the instruction. -/
def free : Hold → Bool
  | .no => true
  | _ => false

/-- The F queue at `w`, a1 at `ad`, a4 at 0x3000, one element, over tiles that can retire. -/
def fCore (w ad : Nat) (attn : Bool := false) : Core :=
  let t : Tile := { st := .accumulating, attn := attn, mr := 1, nc := 1 }
  { (full .F).setQ .F (qRegs w [(1, 1), (2, 64), (0x21, BitVec.ofNat 64 ad), (0x24, 0x3000)]) with tile0 := t, tile1 := if attn then t else {} }

theorem wit_fold :
    (∀ dk ∈ [0, 2], let w := wRet dk
      let s := withRegion (machine (fCore w (if dk = 0 then 0x2000 else 2 ^ 40)))
      let o := retOps (s.queue (on .F)) w
      readyB s (on .F) 0x400 w = true ∧ s.retCheck (on .F) o = none ∧ o.scat = false
        ∧ free (s.holdFor (on .F) .sound (o.newNonfinite ((s.core 0).tile o.t) (o.outputs ((s.core 0).tile o.t) (if o.dk < 2 then o.lines ((s.core 0).tile o.t) else [])))) = true)
    ∧ (let s := machine (fCore wNorm 0x2000 true)
      let o := retOps (s.queue (on .F)) wNorm
      readyB s (on .F) 0x401 wNorm = true ∧ s.normCheck (on .F) .accumulating o = none ∧ linePoisoned (s.core 0).poison o.ar 256 = false
        ∧ free (s.holdFor (on .F) .sound ((s.core 0).normNewNonfinite o)) = true)
    ∧ (∀ dk ∈ [0, 2], let w := wNsq dk
      let s := withRegion (machine (fCore w (if dk = 0 then 0x2000 else 2 ^ 40)))
      let o := srcOps (s.queue (on .F)) w
      readyB s (on .F) 0x402 w = true ∧ s.srcCheck (on .F) o = none ∧ (s.queue (on .F)).streamFrame 3 = none ∧ s.srcPoison (on .F) o = none
        ∧ (dk = 2 → s.eauCheck 1 (2 ^ 40) false = none) ∧ (dk = 0 → (s.core 0).sentinel .F true 0x2000 96 = none ∧ 0x2000 % 32 = 0))
    ∧ (let s := machine (fCore wCens 0)
      let o := srcOps (s.queue (on .F)) wCens
      readyB s (on .F) 0x403 wCens = true ∧ s.srcCheck (on .F) o = none ∧ (s.queue (on .F)).streamFrame 3 = none ∧ s.srcPoison (on .F) o = none
        ∧ s.srcVals (on .F) o ≠ []) := by decide +kernel

/-- USGD and its kin over `n` elements: weights, gradients and states in the region of `withRegion`, the record at 0x1000. -/
def wU (op : Nat) : Nat :=
  iw (0x500 + op) ([(40, 1), (44, 2), (64, 0), (68, 1), (73, 2)] ++ (if 1 ≤ op then [(52, 3)] else []) ++ (if 2 ≤ op then [(56, 4)] else [])
    ++ (if 3 ≤ op then [(60, 5)] else []))

/-- A hyperparameter record of tensor 5 without clipping: NDIV 1, BC1 and BC2 1.0, EPS 1.0, bank offset 2^20. -/
def hyperRec : Nat := 5 + 15 * 2 ^ 20 + 2 ^ 32 + 0x3FF0000000000000 * (2 ^ 320 + 2 ^ 384 + 2 ^ 448) + 2 ^ 20 * 2 ^ 576

/-- Context 1 in epoch 1, its U queue at instruction `op` over `n` elements. -/
def uAt (op n : Nat) : State :=
  let regs : Tab W64 := [(1, if op = 3 then BitVec.ofNat 64 (n + n * 2 ^ 32) else BitVec.ofNat 64 n), (0x20, 0x1000), (0x21, 2 ^ 40), (0x22, 2 ^ 40 + 0x1000),
    (0x23, 2 ^ 40 + 0x2000), (0x24, 2 ^ 40 + 0x3000), (0x25, 2 ^ 40 + 0x4000)]
  let s := withRegion (machine ((full .U (Bits.toBytes 128 hyperRec)).setQ .U (qRegs (wU op) regs)) { ctx1 with epochs := [{ n := 1 }] })
  (((s.setBlob TENSORS 2 40 (Bits.toBytes 8 (2 ^ 63 + 1))).setVal BANKMAP_ADDR 2 (2 ^ 40 + 0x5000)).putVal STEP_GROUP 2 3)

theorem wit_update :
    (∀ op ∈ [0, 1, 2, 3], ∀ n ∈ [0, 1], let s := uAt op n
      let o := uOps (s.queue (on .U)) op (wU op)
      let h := hyperOf ((s.core 0).readNat o.ah 128)
      readyB s (on .U) (0x500 + op) (wU op) = true ∧ s.fits (on .U) (wU op) [] = true ∧ s.epochOf 1 (s.queue (on .U)) = some 1 ∧ (s.ctx 1).oldest = some 1
        ∧ o.n = n ∧ coreRegion o.ah 128 64 = none ∧ (s.core 0).sentinel .U false o.ah 128 = none
        ∧ hyperBad op ((s.core 0).readNat o.ah 128) (s.tensorOn 1 h.tid) = none ∧ (s.ctx 1).pinned h.tid (1 - s.cbankOf 1 h.tid) = false
        ∧ s.uCheck 1 o h (s.cbankOf 1 h.tid) = none ∧ s.uPoison 1 o h (s.cbankOf 1 h.tid) = none)
    ∧ (readyB ((uAt 0 1).putVal STEP_GROUP 2 0xFF) (on .U) 0x500 (wU 0) = true
      ∧ ((uAt 0 1).putVal STEP_GROUP 2 0xFF).epochOf 1 (((uAt 0 1).putVal STEP_GROUP 2 0xFF).queue (on .U)) = none) := by decide +kernel
/-! ### Witnesses: events of the queues, the array and the Outrider -/

/-- Core 0 whose T queue has one issued instruction left, with work `w`. -/
def issued (w : Work) : State := machine { qT := { qOf wNop with inflight := [{ work := w }] } }

theorem wit_retire :
    worksB (issued .now) 0 1 = true ∧ ((issued .now).queue (on .T)).inflight = [{ work := .now }] ∧ (issued .now).workDone (on .T) { work := .now } = true
    ∧ (issued .array).workDone (on .T) { work := .array } = true
    ∧ (let s : State := { State.reset with transit := [{ src := some (on .T), k := 1 }, { src := some (on .V), k := 1 }] }
      s.up = true ∧ s.transit[1]? = some { src := some (on .V), k := 1 } ∧ ∀ b ∈ s.transit.take 1, b.src ≠ some (on .V)) := by decide +kernel

/-- A machine whose queue `q` waits for `wt` at `w`, in core `c`. -/
def waits (q : Queue) (w : Nat) (wt : Wait) (c : Core := {}) (st : QState := .running) : State := machine (c.setQ q { c.q q with st := st, wait := some wt, bank0 := { words := [BitVec.ofNat 128 w], valid := true } })

theorem wit_endedWaits :
    (∀ e ∈ [(Queue.T, 0x008, wWait 2 5, Wait.milepost), (.T, 0x009, wWaitmin 5, .milepost), (.T, 0x012, wTake 0, .take), (.O, 0x100, wDarm, .slot 3),
        (.O, 0x101, wDrearm, .slot 3), (.O, 0x102, wDgo, .slot 3), (.O, 0x103, wPref, .slot 3), (.O, 0x104, wDstop, .slot 3), (.U, 0x500, wU 0, .uIssue), (.U, 0x501, wU 1, .uIssue),
        (.U, 0x502, wU 2, .uIssue), (.U, 0x503, wU 3, .uIssue), (.T, 0x200, wMm 1, .tileSlot), (.T, 0x208, wAttn, .tileSlot)],
      let s := waits e.1 e.2.2.1 e.2.2.2 {} .waiting
      worksB s 0 1 = true ∧ (s.queue (on e.1)).wait = some e.2.2.2 ∧ readyB (s.awake (on e.1)) (on e.1) e.2.1 e.2.2.1 = true) := by decide +kernel

theorem wit_ridgeCompletes :
    let s := ridgeWaits 1
    worksB s 0 1 = true ∧ (s.queue (on .T)).wait = some .ridge ∧ go (s.awake (on .T)) (on .T) 0x00C (wRidge 1) = true
    ∧ (((s.awake (on .T)).rgroup 1 3).any fun g => ((s.awake (on .T)).participants 1 g).all fun e => !((s.awake (on .T)).part (partKey 1 3 e.1 e.2)).poisoned) = true
    ∧ (((s.awake (on .T)).rgroup 1 3).any fun g => (s.awake (on .T)).partMin 1 3 ((s.awake (on .T)).participants 1 g) none == some 1) = true := by decide +kernel

/-- The array at work on one segment of 8 products of a 1 by 1 tile, with `cells` to replay. -/
def arrayAt (cells : List (Nat × Plan)) : State :=
  machine { full .T with
    job := some { mr := 1, nc := 1, segs := [(0, 8)], cells := cells, aBase := 0x1000, bBase := 0x2000 }
    tile0 := { st := .accumulating, mr := 1, nc := 1 } }

/-- The array's work of an ATTN of one row and one key. -/
def attnJob : ArrayJob := { mr := 1, nc := 1, segs := [(0, 1)], attn := some (attnOps (qRegs wAttn attnRegs) wAttn) }

theorem wit_arrayPasses :
    (∀ cells ∈ [[], [(0, Plan.reanchor)]], (arrayAt cells).arrayRuns = true ∧ (arrayAt cells).dieLost 0 = false
      ∧ (((arrayAt cells).core 0).job.map fun j => (j.segs, j.cells)) = some ([(0, 8)], cells))
    ∧ nextPlan [(0, .reanchor)] = some .reanchor
    ∧ (∀ after ∈ [0, 2], ∀ t ∈ [Trigger.residue, .nonfinite, .twin],
      ((waits .F wNop (.replay after t (some 168))).queue (on .F)).wait = some (.replay after t (some 168)))
    ∧ State.reset.replaySpare 0 0 = some 168 ∧ replayPlace 0 168 = 0 ∧ State.reset.replaySpare 0 7 = some 80
    ∧ (let s := { State.reset with fly := 3, cores := [(0, { ctx := some 1 })], ctxs := [(1, { ctx1 with twins := [1] })] }
      State.twinOf s 0 = some 1)
    ∧ (let s := machine { (full .T) with job := some { attnJob with cells := [(0, .reanchor)] } }
      s.arrayRuns = true ∧ ((s.core 0).job.bind fun j => j.attn).isSome = true ∧ nextPlan [(0, .reanchor)] = some .reanchor)
    ∧ (machine { (full .T) with job := some attnJob }).arrayRuns = true := by decide +kernel

/-- A descriptor slot 3 of core 0 in state `st` with run `r`. -/
def slotAt (st : SlotState) (r : Option ChunkRun) : State := machine { full .O with slots := [(3, slotArmed st r)] }

/-- The same with a descriptor that reads device memory at 2^40, whose stream is paused. -/
def pausedAt : State :=
  machine { full .O with slots := [(3, { st := .paused, run := some {}, desc := BitVec.ofNat 512 (copyDesc + (2 ^ 40 - 0x2000) * 2 ^ 448 + 2 ^ 67) })] }

def xfer0 : Xfer := { n := 0, src := 0x2000, dst := 0x3000, len := 32 }

theorem wit_streams :
    (let s := slotAt .running (some {})
      let d := descOf ((s.core 0).slot 3).desc.toNat
      s.dieLost 0 = false ∧ s.phase = .running ∧ s.safeHold = false ∧ (s.core 0).qO.st ≠ .halted ∧ (s.core 0).outstanding < s.val OUTSTANDING 2
        ∧ s.blocked 0 1 3 d {} (d.next 0 {}) = false ∧ (s.runStop 0 1 d {} (d.next 0 {})).isNone = true ∧ (s.xferStop 0 1 3 d (d.next 0 {})).isNone = true
        ∧ s.effectWaits 0 1 d {} (d.next 0 {}) = false)
    ∧ (let s := slotAt .running (some { issued := true, out := [xfer0] })
      worksB s 0 1 = true ∧ [xfer0].find? (fun g => g.n == 0) = some xfer0 ∧ xfer0.acks = 0)
    ∧ ((∀ g ∈ [xfer0, { xfer0 with n := 1, dst := 0x3020 }], g.n < 1 → ¬ (g.dst < 0x3020 + 32 ∧ 0x3020 < g.dst + g.len))
      ∧ [xfer0, { xfer0 with n := 1, dst := 0x3020 }].find? (fun g => g.n == 1) = some { xfer0 with n := 1, dst := 0x3020 })
    ∧ (let s := withRegion (pausedAt)
      worksB s 0 1 = true ∧ ((s.core 0).slot 3).st = .paused ∧ s.whereIs 1 ((s.core 0).slot 3).pausedAt = .mem ∧ s.streamTurn 0 3 = true)
    ∧ (let s := (pausedAt).setBlob MAP 2 0 (Bits.toBytes 32 (1 + 2 ^ 3 + 2 ^ 16 + 16 * 2 ^ 128 + 2 ^ 40 * 2 ^ 160))
      s.whereIs 1 ((s.core 0).slot 3).pausedAt = .notPresent ∧ (s.mapPage 1 ((s.core 0).slot 3).pausedAt).isSome = true)
    ∧ (let s := slotAt .prefetching (some { pref := true, mp := 1, value := 5 })
      worksB s 0 1 = true ∧ s.mpPoisoned 1 1 = true)
    ∧ (∀ mp ∈ [1, 2], let s := slotAt .held (some { pref := true, mp := mp, value := 5 })
      worksB s 0 1 = true ∧ ((s.core 0).slot 3).st = .held ∧ s.mpPoisoned 1 mp = decide (mp = 1) ∧ (mp = 2 → 5 ≤ s.mpSeen 1 2 (s.epochOf 1 (s.queue (on .O)))))
    := by decide +kernel

/-! ### Witnesses: Mileposts and exact adds -/

/-- `s` with gradient store 0 of context 1: 64 elements at 2^40, records and spill after them. -/
def withStore (s : State) : State :=
  (withRegion s).setBlob GSTORES 2 0 (Bits.toBytes 64 (1 + 2 ^ 256 + 64 * 2 ^ 288 + (2 ^ 40 + 0x2000) * 2 ^ 320 + (2 ^ 40 + 0x1000) * 2 ^ 384 + 2 ^ 40 * 2 ^ 448))

def add0 (pg : Nat) : EauAdd := { k := 1, va := 2 ^ 40 + 0x4000, value := { acc := 1 }, pgen := pg }

theorem wit_mileposts :
    let s := machine {}
    (s.pmp 1).st = .poisoned ∧ (s.pmp 3).st = .free ∧ (s.pmp 2).st = .live ∧ (s.pmp 2).spec = false
      ∧ (State.pmp { s with pmps := Tab.set {} s.pmps 2 { st := .frozen, owner := 1, cval := 5 } } 2).st = .frozen
      ∧ (∀ e ∈ [(none : Option QRef), some (on .T), some (on .U)], ∀ q, e = some q → q.queue = .U → (none : Option Nat) = none) := by decide +kernel

theorem wit_exactAdds :
    (∀ pg ∈ [0, 1], let s : State := { withStore (machine {}) with eauq := [add0 pg] }
      s.up = true ∧ s.eauq[0]? = some (add0 pg) ∧ (add0 pg).remote = false ∧ s.addWaits (add0 pg) = false ∧ ((add0 pg).pgen = s.pgen 1 ↔ pg = 0)
        ∧ (s.eauCheck 1 (2 ^ 40 + 0x4000) false) = none)
    ∧ (let s := withStore (machine {} { ctx1 with clearing := [0] })
      s.up = true ∧ (s.ctx 1).clearing.contains 0 = true ∧ (s.gstore 1 0).isSome = true) := by decide +kernel
/-! ### Witnesses: the Caravan, commits and placement -/

/-- `s` with group 5 of context 1 (rank 1 of 4, job 7, DEADLINE 100 where `dl`) and operation record 9 of that group, of OP `op`. -/
def withOp (s : State) (op : Nat) (dl : Bool := false) : State :=
  ((withRegion s).setBlob CGROUPS 2 (32 * 5) (Bits.toBytes 32 (1 + 4 * 2 ^ 55 + 2 ^ 68 + 7 * 2 ^ 80 + (if dl then 100 * 2 ^ 128 else 0)))).setBlob OPRECS 2 (64 * 9)
    (Bits.toBytes 64 (1 + 5 * 2 ^ 41 + op * 2 ^ 47 + 64 * 2 ^ 160 + 2 ^ 40 * 2 ^ 448 + (2 ^ 40 + 0x2000) * 2 ^ 384 + (2 ^ 40 + 0x4000) * 2 ^ 256 + (2 ^ 40 + 0x5000) * 2 ^ 192))

/-- A message of kind `t` for that operation from member `from_`. -/
def msgOf (t from_ : Nat) (p : CPayload := .empty) (e : Bool := true) : CMsg :=
  { hdr := { mtype := t, sender := from_, group := 5, oprec := 9, job := 7, epoch := 1, endB := e }, payload := p }

/-- `s` whose region 0 of context 1 lies on CXL port C0. -/
def withCxl (s : State) : State := s.setBlob MAP 2 0 (Bits.toBytes 32 (1 + 2 + 2 ^ 16 + 16 * 2 ^ 128 + 2 ^ 40 * 2 ^ 160))

/-- The group whose rules take the message. -/
def takenBy : Screen → Option CGroup
  | .apply g => some g
  | _ => none

/-- What `Hears` asks, for some group. -/
def hearsB (s : State) (t : Nat) (m : CMsg) (sender : CGroup → Bool) : Bool :=
  s.up && !s.safeHold && m.hdr.mtype == t && (takenBy ((s.heard m).screen 1 m sender)).isSome

theorem hears_of {s : State} {t : Nat} {m : CMsg} {sender : CGroup → Bool} (h : hearsB s t m sender = true) : ∃ g, Hears s 1 t m sender g := by
  simp only [hearsB, Bool.and_eq_true, Bool.not_eq_true', beq_iff_eq] at h
  obtain ⟨⟨⟨a, b⟩, c⟩, d⟩ := h
  cases e : (s.heard m).screen 1 m sender with
  | done u => rw [e] at d; simp [takenBy] at d
  | apply g => exact ⟨g, a, b, c, e⟩

theorem wit_reductionMessages :
    (((withOp (machine {}) 0).heard (msgOf 0 0)).opOf 1 (msgOf 0 0)).isSome = true
    ∧ hearsB (withOp (machine {}) 0) 0 (msgOf 0 0) (fromPrev (msgOf 0 0)) = true
    ∧ hearsB (withOp (machine {}) 0) 1 (msgOf 1 0 (.bits [])) (fromPrev (msgOf 1 0 (.bits []))) = true
    ∧ (∀ d ∈ [[], [0]], let s := withCxl { withOp (machine {}) 0 with cxlDown := d }
      hearsB s 1 (msgOf 1 0 (.bits [])) (fromPrev (msgOf 1 0 (.bits []))) = true
        ∧ (((s.heard (msgOf 1 0 (.bits []))).opOf 1 (msgOf 1 0 (.bits []))).map fun r => ((s.heard (msgOf 1 0 (.bits []))).opLost 1 r 1).isSome) = some (d == [0]))
    ∧ (∀ e ∈ [false, true], hearsB (withOp (machine {}) 0) 2 (msgOf 2 0 .empty e) (fromPrev (msgOf 2 0 .empty e)) = true) := by decide +kernel

/-- `s` with remote window 9 of context 1: group 5, this member's rank, base 2^40, at 2^41. -/
def withWindow (s : State) (rank : Nat) : State :=
  s.setBlob RWINDOWS 2 (32 * 9) (Bits.toBytes 32 (1 + 5 * 2 ^ 13 + rank * 2 ^ 19 + 16 * 2 ^ 80 + 2 ^ 41 * 2 ^ 112 + 2 ^ 40 * 2 ^ 176))

def hereB (s : State) (m : CMsg) (g : CGroup) : Bool := ((s.heard m).winOf 1 m g).isSome

theorem wit_rotationAndWindowMessages :
    (let s := withOp (machine {}) 2;
      hearsB s 3 (msgOf 3 0) (fromOther (msgOf 3 0)) = true
        ∧ (∀ e ∈ [false, true], hearsB s 4 (msgOf 4 0 (.raw []) e) (fromPrev (msgOf 4 0 (.raw []) e)) = true) ∧ (s.heard (msgOf 4 0)).portLost 1 (2 ^ 40) 64 = none
        ∧ hearsB s 5 (msgOf 5 2) (fun g => (msgOf 5 2).hdr.sender == g.next && decide (1 < g.nmem)) = true)
    ∧ (let s := withWindow (withOp (machine {}) 0) 1
      hearsB s 6 (msgOf 6 0 (.raw [1])) (hereB s (msgOf 6 0 (.raw [1]))) = true ∧ s.memCheck 1 (2 ^ 40) 1 = none ∧ s.portLost 1 (2 ^ 40) 1 = none ∧ (s.memCheck 1 0 1).isSome = true
        ∧ hearsB s 7 (msgOf 7 0 (.radd [])) (hereB s (msgOf 7 0 (.radd []))) = true)
    ∧ (let a : EauAdd := { k := 1, va := 2 ^ 41, epoch := some 1, remote := true }
      let s : State := { withWindow (withOp (machine {}) 0) 3 with eauq := [a] }
      s.up = true ∧ (s.cgroup 1 5).isSome = true ∧ ((s.rwin 1 9).map fun w => (w.group, w.rank)) = some (5, 3) ∧ (msgOf 8 3).hdr.seg ≠ 6
        ∧ (s.eauq.find? fun a => a.remote && a.k == 1 && a.va / 32 == (2 ^ 41 + 32 * 0) / 32 && a.epoch.getD 0 == 1) = some a) := by decide +kernel

/-- Context 1 in epoch 1, with the operation's run `o` in it and its trigger record written when `trig`. -/
def collective (op : Nat) (o : OpRun) (trig : Bool) (dl : Bool := false) : State :=
  let s := withOp (machine {} { ctx1 with epochs := [{ n := 1 }] }) op dl
  let s := s.setOp 1 9 1 { o with epoch := 1 }
  if trig then s.memWriteNat 1 (2 ^ 40 + 0x4000 + 32) 8 1 else s

theorem wit_collectiveEvents :
    (∀ st ∈ [none, some true], let s := collective 0 { status := st } true
      ((s.reduction 1 9).any fun e => s.triggered 1 9 e.1 == some 1) = true)
    ∧ (let s := collective 0 { start := some 0 } false true
      ((s.reduction 1 9).any fun e => e.2.deadline != 0 && !e.1.nodl && ((s.ctx 1).epochs.find? fun x => x.st == .opened && (s.opRun 1 9 x.n).start.isSome
        && (s.opRun 1 9 x.n).status.isNone && !s.trigHolds 1 (e.1.startrec + 32 * (x.n % 2)) x.n).isSome) = true)
    ∧ (let s := collective 0 { status := some false } true
      ((s.reduction 1 9).any fun e => e.1.form != 2 && !e.2.carry && ((s.ctx 1).epochs.find? fun x => x.uncommitted && x.st != .held
        && (s.opRun 1 9 x.n).status == some false && !(s.opRun 1 9 x.n).lateDone && s.trigHolds 1 (e.1.startrec + 32 * (x.n % 2)) x.n).isSome) = true)
    ∧ ((withOp (machine {}) 2).rotation 1 9).isSome = true
    ∧ (∀ t ∈ [0, 1, 2, 3, 4], let m := { msgOf t 0 with hdr := { (msgOf t 0).hdr with pgen := 3 } }
      (machine {}).cgroup 1 m.hdr.group = none
        ∧ ((withOp (machine {}) 0).cgroup 1 m.hdr.group).any (fun g => g.job == m.hdr.job && m.hdr.sender == g.prev && decide (1 < g.nmem) && m.hdr.sender != g.rank
          && m.hdr.pgen != (withOp (machine {}) 0).pgen 1) = true ∧ ((withOp (machine {}) 0).ctx 1).epoch 1 = none) := by decide +kernel

/-- Messages of a reduction that a saved context keeps, that name a group of another job, or whose epoch is open under another generation. -/
theorem wit_screenedMessages :
    let m := { msgOf 0 0 with hdr := { (msgOf 0 0).hdr with pgen := 3 } }
    let s := machine {} { ctx1 with st := .saved }
    let far := (withOp (machine {}) 0).setBlob CGROUPS 2 (32 * 5) (Bits.toBytes 32 (1 + 2 ^ 44 + 4 * 2 ^ 55 + 2 ^ 68 + 7 * 2 ^ 80))
    let x := collective 0 {} false
    s.up = true ∧ s.safeHold = false ∧ (s.ctx 1).st = .saved ∧ (far.ctx 1).st ≠ .saved
      ∧ (far.cgroup 1 5).any (fun g => g.xjob && g.job == m.hdr.job && m.hdr.sender == g.prev && decide (1 < g.nmem) && m.hdr.sender != g.rank) = true
      ∧ (x.cgroup 1 5).any (fun g => !g.xjob && g.job == m.hdr.job && m.hdr.sender == g.prev && decide (1 < g.nmem) && m.hdr.sender != g.rank) = true
      ∧ m.hdr.pgen ≠ x.pgen 1 ∧ ((x.ctx 1).epoch 1).any (fun e => e.st == .opened) = true := by decide +kernel

/-- Context 1 with epoch 1 in state `e`, its group at rank `rank`. -/
def voting (e : Epoch) (rank : Nat) : State :=
  (withOp (machine {} { ctx1 with epochs := [e] }) 0).setBlob CGROUPS 2 (32 * 5) (Bits.toBytes 32 (1 + 4 * 2 ^ 55 + rank * 2 ^ 68 + 7 * 2 ^ 80))

theorem wit_votes :
    (takenBy ((voting { n := 1 } 0).screenRun 1 (msgOf 9 1 (.vote .accept false)))).any (fun g => g.rank == 0) = true
    ∧ (∀ e ∈ [({ n := 1 } : Epoch), { n := 1, st := .closed, voted := true }], (takenBy ((voting e 1).screenRun 1 (msgOf 10 0 (.verdict .squash false 1 0 false)))).isSome = true
      ∧ ((voting e 1).ctx 1).epoch 1 = some e ∧ e.uncommitted = true)
    ∧ (let s := voting { n := 1, st := .squashed } 1
      (s.jobGroup 1).any (fun g => decide (2 < g.2.nmem) && g.2.rank == 1) = true ∧ ((s.ctx 1).epoch 1).isSome = true) := by decide +kernel

theorem wit_placement :
    ((({ ctx1 with epochs := [{ n := 1, st := .committing, flashWait := true }] } : Ctx)).atFlash = some { n := 1, st := .committing, flashWait := true })
    ∧ ((machine {}).ctx 1).placing = false ∧ ((machine {} { ctx1 with placing := true }).ctx 1).placing = true
    ∧ ((machine {} { ctx1 with draining := true }).ctx 1).draining = true ∧ (machine {} { ctx1 with draining := true }).unacked 1 = false := by decide +kernel

/-- Another member's digest that agrees, and one that does not. -/
theorem wit_placeDigests (s : State) (k : Nat) (g : Fin 64) :
    (∀ x ∈ [(g, s.placeDigest k g.val)], x.2 = s.placeDigest k x.1.val)
    ∧ [(g, s.placeDigest k g.val + 1)].find? (fun x => x.2 != s.placeDigest k x.1.val) = some (g, s.placeDigest k g.val + 1) := by
  generalize s.placeDigest k = f
  exact ⟨by simp, List.find?_cons_of_pos (by simp)⟩

/-! ### Witnesses: the Drawbar, tests, power and memory -/

/-- Port 5 in state `x`. -/
def portAt (x : Port) : State := { State.reset with ports := Tab.set {} State.reset.ports 5 x }

theorem wit_frames :
    (portAt { st := .up }).up = true ∧ (portAt { st := .up }).safeHold = false ∧ ((portAt { st := .up }).port 5).carries = true
    ∧ 1 = (((portAt { st := .up }).port 5).rxSeq + 1) % 65536 ∧ 0 = (((portAt { st := .up, rxSeq := 65535 }).port 5).rxSeq + 1) % 65536 := by decide +kernel

theorem wit_ports :
    ((portAt { st := .up, lanes := 0xFF }).port 5).lanes.getLsbD 7 = true ∧ ((portAt { st := .upAlt }).port 5).carries = true
    ∧ (∃ e ∈ ((portAt { replay := [({}, 32)] }).port 5).replay, 32 ≤ e.2)
    ∧ (∀ st ∈ [PortState.down, .training, .isolated, .disabled], ((portAt { st := st }).port 5).st = st)
    ∧ State.reset.service_ = false ∧ ({ State.reset with safeHold := true } : State).service_ = true
    ∧ ((List.range 16).all fun k => (State.reset.ctx k).st != .running && (State.reset.ctx k).st != .draining) = true
    ∧ ((List.range 16).all fun k => ((machine {}).ctx k).st != .running && ((machine {}).ctx k).st != .draining) = false
    ∧ ({ State.reset with pairA := false } : State).mustClose false = true ∧ ({ State.reset with pairA := false } : State).pairA ≠ true := by decide +kernel

theorem wit_coresRotate :
    (let s : State := { machine {} with swaps := [(0, 80), (1, 81)] };
      s.up = true ∧ s.safeHold = false ∧ s.swaps.contains (1, 81) = true ∧ (s.core 1).ctx = none ∧ (s.core 0).ctx = some 1 ∧ s.stepGroup 1 = none
        ∧ (∀ q ∈ allQueues, ((s.core 0).q q).inflight = []) ∧ (((s.putVal STEP_GROUP 2 3).stepGroup 1).isSome = true) ∧ (s.ctx 1).epochs.any Epoch.live = false
        ∧ oneCoreFrames ≤ ((List.range 16).map s.freeOn).sum ∧ s.swaps.contains (0, 80) = true)
    ∧ (let s := machine {} { ctx1 with saveArea := List.replicate 16 (2 ^ 40) }
      ((List.range 16).map s.freeOn).sum < oneCoreFrames)
    ∧ (State.reset.spares.contains 80 = true ∧ State.reset.retired.contains 80 = false ∧ State.reset.passed.contains 80 = false ∧ State.reset.spares.contains 0 = false)
    ∧ (coreDie 0 = 0 ∧ ((machine {}).core 0).ctx = some 1 ∧ (8 : Nat) ≤ (8 : DieId).val ∧ coreDie 703 = 7) := by decide +kernel

theorem wit_powerChecks :
    (List.replicate 26 (10500 : Int)).length = 26 ∧ (∃ x ∈ (List.replicate 26 (10501 : Int)).take 10, 10500 < x)
    ∧ ((∀ x ∈ (List.replicate 10 (10500 : Int) ++ List.replicate 16 10001).take 10, x ≤ 10500) ∧ ∃ x ∈ (List.replicate 10 (10500 : Int) ++ List.replicate 16 10001).drop 10, 10000 < x)
    ∧ ((∀ x ∈ (List.replicate 26 (10000 : Int)).take 10, x ≤ 10500) ∧ ∀ x ∈ (List.replicate 26 (10000 : Int)).drop 10, x ≤ 10000)
    ∧ State.reset.up = true ∧ State.reset.safeHold = false := by decide +kernel

theorem wit_memoryEvents :
    (withRegion (machine {})).locExists (.dev 1 (2 ^ 40)) = true ∧ (withRegion (machine {})).locCtx (.dev 1 (2 ^ 40)) = some 1
    ∧ State.reset.cxlDown.contains 3 = false
    ∧ (let s := (machine {}).setBlob MAP 2 0 (Bits.toBytes 32 (1 + 2 ^ 3 + 2 ^ 16 + 16 * 2 ^ 128 + 2 ^ 40 * 2 ^ 160))
      (s.regionAt 1 (2 ^ 40)).any (fun e => e.2.demand) = true ∧ (s.mapPage 1 (2 ^ 40)).isSome = true)
    ∧ (let s := (machine {}).setBlob MAP 2 0 (Bits.toBytes 32 (1 + 2 ^ 3 + 2 ^ 1 + 2 ^ 16 + 16 * 2 ^ 128 + 2 ^ 40 * 2 ^ 160))
      (s.regionAt 1 (2 ^ 40)).any (fun e => e.2.demand) = true ∧ (s.mapPage 1 (2 ^ 40)).isNone = true)
    ∧ ((withRegion (machine {})).regionAt 1 (2 ^ 40)).any (fun e => !e.2.demand) = true ∧ (withRegion (machine {})).regionAt 1 (2 ^ 40 - 1) = none := by
  decide +kernel

/-- R450: a slot of the accumulation store with an uncorrectable error halts what reads its tile, at its offset in the store. -/
theorem test_accumulation_poison :
    let c := (State.core ((({} : State).setCore 3 { tile1 := { st := .accumulating, mr := 2, nc := 2 } }).scrubUncorrectable (.accStore 3 (16384 + 129))) 3)
    c.accPoison 1 = some (96 * (16384 + 129)) ∧ c.accPoison 0 = none ∧ ({ c with tile1 := { c.tile1 with nc := 1 } } : Core).accPoison 1 = none
    ∧ (retOps {} (2 ^ 43)).poisoned { c with tile0 := c.tile1 } = some (96 * 129) := by decide +kernel

/-- R475: after a loss of power the commit log bounds a restore; after another start it does not. -/
theorem test_restore_bound :
    let s : State := { (machine {} { ctx1 with gens := [{ complete := true, step := 8 }, { complete := true, step := 9 }] }) with commitLog := [(1, 7), (1, 8), (2, 9)] }
    s.reachable 1 {} = [8] ∧ State.reachable { s with startCause := 1 } 1 {} = [8, 9] ∧ State.reachable { s with commitLog := [(2, 7)] } 1 {} = [8, 9] := by
  decide +kernel

/-! ### Witnesses: ingest and the Bivouac -/

/-- `s` with an ingest descriptor for context 1: rows of 128 tokens, 16 by 16 pixels in one patch, one frame. -/
def withIngest (s : State) : State :=
  (((withRegion s).setVal CATALOG_ADDR 2 (2 ^ 40)).setBlob TARGETS 0 0 [1]).setBlob INGEST_DESC 2 0
    (Bits.toBytes 32 (128 * 2 ^ 120 + 16 * 2 ^ 72 + 16 * 2 ^ 56 + 2 ^ 44 + 2 ^ 36 + 16 * 2 ^ 28 + 16 * 2 ^ 20 + 2 ^ 16))

/-- A catalogue of one sample in one shard. -/
def catalog : List Byte := Bits.toBytes 64 (1 + 2 ^ 64 + 64 * 2 ^ 192) ++ List.replicate 64 0

theorem wit_ingestStarts :
    let s := (withIngest (machine {})).setVal CATALOG_DIGEST 2 (Sha3.digest catalog)
    (s.batch 1 % (s.ctx 1).nown = 0 ∧ idescBad (s.blobNat INGEST_DESC 2 0 32) = false ∧ s.memCheck 1 (s.val CATALOG_ADDR 2) catalog.length = none
      ∧ (((s.count BYTES_READ 2 catalog.length).emit (.catalogRead 1 0 0 0 0)).memWrite 1 (s.val CATALOG_ADDR 2) catalog).catalogBad 1 catalog = false ∧ s.safeHold = false ∧ (s.catalogSrc 1).target = 0 ∧ s.targetUsed 0 = true)
    ∧ (s.setBlob TARGETS 0 0 [0]).targetUsed 0 = false
    ∧ (s.memWrite 1 (s.val CATALOG_ADDR 2) []).catalogBad 1 [] = true ∧ s.memCheck 1 (s.val CATALOG_ADDR 2) 0 = none ∧ ((machine {}).memCheck 1 (2 ^ 40) 128).isSome = true := by decide +kernel

/-- A SAMPLE message of step 1 from member 0 of group 5, rank 1. -/
def sampleMsg : CMsg := { hdr := { mtype := 11, sender := 0, group := 5, job := 7, epoch := 1 }, payload := .raw [] }

/-- Context 1, ingesting in group 5, with `slots` sample slots. -/
def ingesting (slots : Nat) : State :=
  (((withOp (withIngest (machine {} { ctx1 with ingest := true, ns := 1 })) 0).putVal INGEST_GROUP 2 5).putVal NSLOT 2 slots).putVal SLOT_BYTES 2 (2 ^ 20)

theorem wit_sampleMessages :
    (∀ n ∈ [1, 0], let s := (ingesting n).heard sampleMsg
      ((s.ingestGroup 1).any fun e => e.1 == 5 && e.2.job == 7 && e.2.rank != 0 && decide (0 < e.2.nmem)) = true ∧ sampleMsg.hdr.pgen = s.pgen 1
        ∧ (s.ctx 1).ingest = true ∧ s.val COMMITTED_STEP 2 < 1)
    ∧ ((ingesting 0).heard sampleMsg).hasSlot 1 1 = false ∧ ((ingesting 2).heard sampleMsg).val NSLOT 2 = 2 := by decide +kernel

/-- Context 1 with sample 0 in state `x`. -/
def sampling (x : SampleSt) : State := withIngest (machine {} { ctx1 with ingest := true, ns := 1, samples := [(0, x)] })

theorem wit_samples :
    (∀ x ∈ [({ busy := true } : SampleSt), { exhausted := true }, { read := true }], (sampling x).up = true ∧ (sampling x).safeHold = false
      ∧ ((sampling x).ctx 1).ingest = true ∧ (sampling x).sampleSt 1 0 = x)
    ∧ ((sampling { read := true }).sampleSt 1 0).delivered = false
    ∧ (match ((sampling { read := true }).count PIXELS_DECODED 2 (lumaPixels [])).tokensOf 1 0 8 false [] with
      | .ok bs => bs == []
      | .error _ => false) = true := by decide +kernel

theorem wit_generations :
    (∀ st ∈ [({} : Stage), { staged := true, tiers := [1] }], ((machine {} { ctx1 with stage := some st }).ctx 1).stage = some st)
    ∧ (∀ n ∈ [1, 2], ((machine {}).setVal PAIR_STATE 2 n).val PAIR_STATE 2 = n)
    ∧ (∀ tiers ∈ [[0], [1], []], let s := machine {} { ctx1 with stage := some { staged := true, tiers := tiers } }
      (s.ctx 1).stage.any (fun st => st.staged && st.tiers.head? == some 0) = (tiers == [0]) ∧ s.up = true ∧ s.safeHold = false)
    ∧ ({ State.reset with safeHold := true } : State).up = true ∧ State.reset.safeHold = false ∧ 80 ≤ State.reset.val HOLDUP_CHARGE 0
    ∧ ((State.reset.setVal HOLDUP_CHARGE 0 79).val HOLDUP_CHARGE 0 = 79) := by decide +kernel

theorem foldl_lanes (a : List (BitVec 64)) (i n : Nat) (h : n < 2 ^ (64 * i)) :
    (a.zipIdx i).foldl (fun n e => n + e.1.toNat * 2 ^ (64 * e.2)) n < 2 ^ (64 * (i + a.length)) := by
  induction a generalizing i n with
  | nil => simpa using h
  | cons x t ih =>
    rw [List.zipIdx_cons, List.foldl_cons, List.length_cons, ← Nat.add_assoc, Nat.add_right_comm]
    refine ih (i + 1) _ ?_
    have hx := x.isLt
    have : n + x.toNat * 2 ^ (64 * i) < 2 ^ (64 * i) * 2 ^ 64 := by nlinarith
    rw [← Nat.pow_add] at this
    rwa [Nat.mul_add, Nat.mul_one]
theorem digest_lt (l : List Byte) : Sha3.digest l < 2 ^ 256 := by
  unfold Sha3.digest
  refine lt_of_lt_of_le (foldl_lanes _ 0 0 (by simp)) (Nat.pow_le_pow_right (by omega) ?_)
  rw [List.length_take]; omega

/-- Context 1, LOADED and fresh, with two reachable steps where `gens`. -/
def restorable (gens : List GenSlot) (want : Nat) : State := (machine {} { ctx1 with st := .loaded, fresh := true, gens := gens }).setVal RESTORE_STEP 2 want

theorem wit_restore (gens : List GenSlot) (want : Nat) :
    (restorable gens want).configDigest 1 = (BitVec.ofNat 256 ((restorable gens want).configDigest 1)).toNat := by
  have h : (restorable gens want).configDigest 1 < 2 ^ 256 := by
    unfold State.configDigest
    exact digest_lt _
  rw [BitVec.toNat_ofNat, Nat.mod_eq_of_lt h]

theorem wit_restoreSteps :
    (∀ want ∈ [0, 8, 9], let s := restorable [{ complete := true, step := 8 }] want
      s.up = true ∧ (s.ctx 1).st = .loaded ∧ (s.ctx 1).fresh = true ∧ (0 : Nat) = s.val INV_REV 0 ∧ s.val RESTORE_STEP 2 = want
        ∧ (s.reachable 1 {}).contains 8 = true ∧ (s.reachable 1 {}).contains 9 = false ∧ (s.reachable 1 {}).max? = some 8)
    ∧ ((machine {}).ctx 1).st ≠ .loaded := by decide +kernel

/-- The part in power domain `dom`, its group's partner in `p`. -/
def pairing (dom ov : Nat) : State :=
  (((withOp (machine {}) 0).putVal POWER_DOMAIN 0 dom).putVal PAIR_OVERRIDE 0 ov).setBlob BIV_CONFIG 2 0 (Bits.toBytes 64 (5 * 2 ^ 196 + 3 * 2 ^ 184))

theorem wit_pairing :
    (∀ ov ∈ [0, 1], let s := pairing 6 ov
      s.up = true ∧ ((s.cgroup 1 (s.biv 1).group).any fun g => g.rank == 1 && g.job == 7) = true ∧ (s.biv 1).prank = 3 ∧ s.val POWER_DOMAIN 0 = 6
        ∧ s.val PAIR_OVERRIDE 0 = ov)
    ∧ State.reset.up = true ∧ State.reset.cgroup 0 (State.reset.biv 0).group = none := by decide +kernel

theorem wit_refills :
    let r : Refill := { chunks := 2, verified := [0] }
    let s := (machine {} { ctx1 with refill := some r }).setVal JOB_STATE 2 2
    s.up = true ∧ s.safeHold = false ∧ (s.ctx 1).refill = some r ∧ s.val JOB_STATE 2 = 2 ∧ 1 < r.chunks ∧ r.verified.contains 1 = false
    ∧ Bits.bit (s.biv 1).verify 0 = true ∧ ((machine {}).setVal JOB_STATE 2 3).val JOB_STATE 2 = 3 := by decide +kernel

/-! ### Witnesses: starts, contexts, functions and the Waybill -/

theorem wit_starts :
    State.reset.phase = .running ∧ ({ State.reset with phase := .off } : State).phase = .off ∧ ({ State.reset with phase := .inReset } : State).phase = .inReset
    ∧ (let s : State := { State.reset with startDone := false, fw := { slot0 := { st := .trial } } }
      s.up = true ∧ s.fw.active.st = .trial ∧ s.startDone = false)
    ∧ (State.reset.fw.startTag ≠ anyTag ∧ (∀ k < 16, (State.reset.ctx k).st = .free))
    ∧ (∃ k < 16, ((machine {}).ctx k).st ≠ .free) ∧ ({ State.reset with safeHold := true } : State).up = true := by decide +kernel

theorem wit_contextsOpen :
    State.reset.startDone = true ∧ (State.reset.ctx 1).st = .free ∧ State.reset.late = [] ∧ State.reset.specRunning 1 = []
    ∧ (State.reset.pickCores (State.reset.val CTX_CORES 2)).isSome = true ∧ (State.reset.pickCores 704).isNone = true ∧ State.reset.mpShort [] = false
    ∧ State.reset.loadRefusal {} = none ∧ (State.reset.loadRefusal { pkg := { target := false } }).isSome = true
    ∧ ((machine {}).ctx 1).st ≠ .free := by decide +kernel

/-- Context 1 in state `st`. -/
def inState (st : CtxState) : State := machine {} { ctx1 with st := st }

theorem wit_contextCommands :
    (∀ st ∈ [CtxState.free, .loaded, .running, .halted, .saved, .draining], ((inState st).ctx 1).st = st ∧ (inState st).up = true ∧ (inState st).startDone = true
      ∧ (inState st).safeHold = false)
    ∧ (∀ st ∈ [CtxState.loaded, .running, .halted], (inState st).mpShort ((inState st).newMps 1 {}) = false ∧ (inState st).loadRefusal {} = none)
    ∧ (∀ b ∈ [none, some true, some false], let p : Package := { code := [{ roles := [0], queue := .T, bank := b }] }
      (((inState .running).ctxCores 1).any fun c => ((inState .running).core c).namesActive p) = (b == some false))
    ∧ (machine {} { ctx1 with st := .halted, aborting := some 2, reloaded := true }).ctx 1 = { ctx1 with st := .halted, aborting := some 2, reloaded := true }
    ∧ (∀ g ∈ [none, some 3], let s := match g with
        | none => inState .loaded
        | some n => (inState .loaded).putVal STEP_GROUP 2 n
      (s.stepGroup 1) = g ∧ s.val JOB_STATE 2 = 0)
    ∧ (∀ n ∈ [1, 4], ((inState .loaded).setVal JOB_STATE 2 n).val JOB_STATE 2 = n)
    ∧ Bits.cdiv (11 * ((inState .running).ctx 1).roles.length) 2 ≤ ((List.range 16).map (inState .running).freeOn).sum
    ∧ (let s := machine {} { ctx1 with saveArea := List.replicate 16 (2 ^ 40) }
      ((List.range 16).map s.freeOn).sum < Bits.cdiv (11 * (s.ctx 1).roles.length) 2)
    ∧ ((machine {} { ctx1 with st := .draining, tearing := true }).ctx 1).tearing = true := by decide +kernel

/-- ABORT_TARGET and ABORT_VALUE name Milepost 2 of context 1; SHARE names it for Milepost 7 of context 2. -/
def naming (v : Nat) : State := ((((machine {}).setVal ABORT_TARGET 1 (2 ^ 16 + 2)).setVal ABORT_VALUE 2 v).setVal SHARE_SRC 1 (2 ^ 16 + 2)).setVal SHARE_DST 2 (2 * 2 ^ 16 + 7)

/-- The same with post record 0 of context 1: Milepost 2, threshold `n`. -/
def posting (n : Nat) : State := (naming 6).setBlob HOST_POST 2 0 (Bits.toBytes 24 (2 + 2 ^ 13 + n * 2 ^ 128))

theorem wit_milepostCommands :
    (let s := naming 6;
      Bits.fld (s.val ABORT_TARGET 1) 16 4 = 1 ∧ (s.mpEntry 1 2).valid = true ∧ (s.mpEntry 1 2).shared = false ∧ (s.ctx 1).st ≠ .free
        ∧ ((s.landAdvs 1).pmp (s.mpEntry 1 2).pmp).cval < s.val ABORT_VALUE 2 ∧ ((s.landAdvs 1).pmp (s.mpEntry 1 2).pmp).st = .live
        ∧ ((s.landAdvs 1).ctx 1).st ≠ .free)
    ∧ ¬ (((naming 5).landAdvs 1).pmp 2).cval < (naming 5).val ABORT_VALUE 2
    ∧ (∀ n ∈ [1, 2], let s := { naming 6 with transit := [{ src := some (on .T), k := 1, pmp := 2, mode := .add, amount := n }] }
      decide ((State.pmp (State.landAdvs s 1) 2).cval < 7) = (n == 1))
    ∧ (Bits.fld ((naming 6).val SHARE_DST 2) 16 4 = 2 ∧ ((naming 6).mpEntry 2 7).valid = false ∧ Bits.fld ((naming 6).val SHARE_SRC 1) 0 13 = 2)
    ∧ ((naming 6).postRec 1 2 = none ∧ ∀ n ∈ [5, 6], ((posting n).postRec 1 2).isSome = true)
    ∧ (withGroup (inState .loaded)).stepGroupOk 1 3 = true ∧ (inState .saved).stepGroupOk 1 3 = false := by decide +kernel

theorem wit_functions :
    State.reset.vfs.contains 3 = false ∧ ({ State.reset with vfs := [3] } : State).vfs.contains 3 = true ∧ State.reset.vfs = [] ∧ State.reset.mgrSel = false
    ∧ ({ State.reset with mgrSel := true } : State).mgrSel = true ∧ State.reset.up = true := by decide +kernel

theorem wit_pitches :
    State.reset.flyValid 4 = true ∧ State.reset.flyValid 7 = false ∧ State.reset.pitching = none ∧ (∀ k < 16, (State.reset.ctx k).st = .running → False)
    ∧ ({ State.reset with pitching := some 4 } : State).allFinal = true ∧ State.reset.safeHold = false
    ∧ (((machine {}).ctx 1).st = .running ∧ (machine {}).stepGroup 1 = none) ∧ (((machine {}).putVal STEP_GROUP 2 3).stepGroup 1).isSome = true := by decide +kernel

theorem wit_waybill :
    Dict.find 0x7FFF 0 = none
    ∧ ((Dict.find COMMITTED_STEP 2).any fun r => r.acc != .wo && r.ty != .blob && r.acc == .ro) = true
    ∧ ((Dict.find START_TAG 0).any fun r => r.acc == .wo) = true
    ∧ ((Dict.find MAP 2).any fun r => r.acc != .wo && r.ty == .blob && decide (2047 < State.reset.blobSize r MAP 2) && decide (State.reset.blobSize r MAP 2 ≤ 2048)) = true
    ∧ ((Dict.find PITCH 0).any fun r => r.acc != .ro && r.ty != .blob && r.bytes == 1 && (State.reset.accessBad (.ring 0) r PITCH 0 none).isNone
      && (State.reset.valueBad r PITCH 0 4).isNone && (State.reset.stateRefused r PITCH 0).isNone) = true
    ∧ ((Dict.find PAIR_OVERRIDE 0).any fun r => r.acc == .rws && r.ty != .blob && !foreign (.ring 0) r PAIR_OVERRIDE 0) = true ∧ State.reset.service_ = false
    ∧ stageBytes [(MAP, 2, 0, [1])] ≤ 16777216
    ∧ State.reset.pathOpen (.host 3) = false ∧ State.reset.pathOpen (.host 0) = true ∧ State.reset.pathOpen (.ring 0) = true
    ∧ (((State.reset.setStage (.ring 0) (some [])).pathSt (.ring 0)).bind (·.stage)) = some [] ∧ ((State.reset.pathSt (.ring 0)).bind (·.stage)) = none := by decide +kernel

/-- A READ of COMMITTED_STEP with SEQ 8. -/
def request : WbMsg := { op := 1, seq := 8, entry := COMMITTED_STEP, sub := 2, hops := 3 }

theorem wit_requests :
    State.reset.fnEnabled 0 = true ∧ State.reset.waitingReq (.host 0) = none ∧ request.resp = false ∧ State.reset.pathSt (.host 0) = none ∧ msgBad (.host 0) request = false
    ∧ (let s := State.reset.updPath (.host 0) fun x => { x with seq := some 8 };
      (s.pathSt (.host 0)).any (fun x => x.seq == some 8) = true)
    ∧ (State.reset.val MG_MAC 0 ≠ 1 ∧ State.reset.waitingReq (.ring 1) = none ∧ State.reset.pathSt (.ring 1) = none ∧ msgBad (.ring 1) request = false
      ∧ 2 ≠ State.reset.val MG_MAC 0 ∧ 2 ≠ broadcastMac ∧ request.hops ≠ 0) := by decide +kernel

/-- Context 1 whose Milepost 2 the host may write. -/
def hostWritable (st : CtxState) (p : PmpState) : State :=
  { machine {} { ctx1 with st := st, mpmap := [(2, { valid := true, hostw := true, pmp := 2 })] } with
    pmps := [(2, { st := p, owner := 1, cval := 5 })], vfs := [1], mailboxes := [(1, { prod := 9, cons := 4 })] }

theorem wit_hostWindows :
    (let s := hostWritable .running .live;
      s.up = true ∧ s.fnEnabled 1 = true ∧ 32 % 16 = 0 ∧ (s.mpEntry 1 (32 / 16)).valid = true ∧ (s.mpEntry 1 2).hostw = true ∧ (s.pmp (s.mpEntry 1 2).pmp).st = .live
        ∧ (s.pmp 2).cval < Bits.ofBytes (Bits.toBytes 8 6) ∧ Bits.ofBytes (Bits.toBytes 8 5) ≤ (s.pmp 2).cval ∧ (s.mpEntry 1 8191).valid = false)
    ∧ ((hostWritable .saved .live).ctx 1).st = .saved ∧ ((hostWritable .running .frozen).pmp 2).st = .frozen ∧ ((hostWritable .draining .live).ctx 1).st = .draining
    ∧ ((hostWritable .running .live).mailbox 1).cons = 4 ∧ ((hostWritable .running .live).mailbox 1).prod = 9 := by decide +kernel

/-- A token that unlocks, with counter 1. -/
def token (s : State) : List Byte := Bits.toBytes 16 (s.val SERIAL 0) ++ Bits.toBytes 8 1 ++ [2, 0, 0, 0, 0, 0, 0, 0] ++ List.replicate 2420 0

/-- A part with an owner key, and the signature of its token. -/
def keyed : State := State.reset.setBlob OWNER_KEY 0 0 [1]
def signed (s : State) : Env :=
  { sigs := [{ key := s.ownerKey, digest := Sha3.digest ((token s).take 32), sig := ((token s).drop 32).take 2420 }] }

theorem wit_firmware :
    ({ State.reset with fw := { stage := 2 } } : State).fw.lock = false ∧ ({ State.reset with fw := { stage := 2, lock := true } } : State).fw.lock = true
    ∧ State.reset.fw.stage ≠ 2 ∧ State.reset.tokenBad (token State.reset) {} = true
    ∧ (keyed.tokenBad (token keyed) {} = true ∧ keyed.tokenBad (token keyed) (signed keyed) = false)
    ∧ ({ State.reset with fly := 5 } : State).service_ = true ∧ State.reset.service_ = false ∧ (List.replicate 1312 (0 : Byte)).length = 1312 := by decide +kernel

theorem wit_tap :
    State.reset.tapUp = true ∧ ({ State.reset with phase := .inReset } : State).extestOk = true ∧ ({ State.reset with phase := .inReset } : State).dieSelectOk = true
    ∧ State.reset.extestOk = false ∧ State.reset.dieSelectOk = false ∧ State.reset.val TAP_ENABLE 0 = 0
    ∧ ({ State.reset with scanned := [0] } : State).dieLost 0 = true := by decide +kernel

theorem wit_invariants :
    (let s : State := { State.reset with fw := { slot0 := { st := .trial, arbSet := 3, version := 4 }, slot1 := { st := .valid, version := 2 } } };
      s.fw.active.st = .trial ∧ s.fw.other.version < s.fw.active.arbSet)
    ∧ (let s : State := { State.reset with fw := { slot1 := { st := .valid, version := 2 }, arb := 3, startTag := anyTag } };
      s.up = true ∧ (∀ k < 16, (s.ctx k).st = .free) ∧ s.fw.startTag = anyTag ∧ s.fw.lock = false ∧ s.fw.other.version < s.fw.arb)
    ∧ Bits.ofBytes (((token State.reset).drop 16).take 8) ≤ ({ State.reset with fw := { counter := 1 } } : State).fw.counter
    ∧ tapCommand .shareGo = false := by decide +kernel

theorem wit_step : ∃ t, step { State.reset with pending := [.evConsWrite 0 1, .idcode] } = .next t ∧ t.pending = [.idcode] ∧ (t.mailbox 0).cons = 1 := ⟨_, rfl, rfl, rfl⟩


/-! ### Witnesses: the clauses on waiting events, poisoned reads and closed switches -/

theorem wit_ticks :
    (let s := State.reset;
      s.pending = [] ∧ s.up = true ∧ s.revert = false ∧ s.late = [])
    ∧ ({ State.reset with revert := true } : State).revert = true ∧ ({ State.reset with phase := .inReset } : State).up = false := by decide +kernel

theorem wit_updateHasRoom :
    ∀ op ∈ [0, 1, 2, 3], let s := uAt op 1
      let o := uOps (s.queue (on .U)) op (wU op)
      let h := hyperOf ((s.core 0).readNat o.ah 128)
      s.uEffectWaits 1 1 o h (s.cbankOf 1 h.tid) = false ∧ linePoisoned (s.core 0).poison o.ah 128 = false := by decide +kernel

/-- The poison of the line at `a` of the core store. -/
def poisonAt (c : Core) (a : Nat) : Core := { c with poison := Tab.set false c.poison (a / 64) true }

theorem wit_poisonedArrayReads :
    (∀ e ∈ [(1, ({} : Tile)), (0, { st := .accumulating, mr := 1, nc := 1 })], let c := mmCore e.1 e.2
      (mmOps ((machine c).queue (on .T)) (wMm e.1)).poisoned c = none)
    ∧ (∀ e ∈ [mmCore 1 {}, poisonAt (mmCore 1 {}) 0x2000], let s := machine e
      let o := mmOps (s.queue (on .T)) (wMm 1)
      readyB s (on .T) 0x200 (wMm 1) = true ∧ mmCheck (s.core 0) o = none ∧ (o.poisoned (s.core 0)).isSome = decide (e ≠ mmCore 1 {}))
    ∧ (∀ e ∈ [attnCore, poisonAt attnCore 0x2000], let s := machine e
      let o := attnOps (s.queue (on .T)) wAttn
      readyB s (on .T) 0x208 wAttn = true ∧ attnCheck (s.core 0) o (Bits.fld wAttn 76 5) = none ∧ (o.poisoned (s.core 0)).isSome = decide (e ≠ attnCore)) := by
  decide +kernel

theorem wit_poisonedRetires :
    (∀ p ∈ [false, true], let c := fCore (wRet 0) 0x2000
      let s := withRegion (machine (if p then { c with tile0 := { c.tile0 with poison := [0] } } else c))
      let o := retOps (s.queue (on .F)) (wRet 0)
      readyB s (on .F) 0x400 (wRet 0) = true ∧ s.retCheck (on .F) o = none ∧ (o.poisoned (s.core 0)).isSome = p)
    ∧ (∀ p ∈ [false, true], let c := fCore wNorm 0x2000 true
      let s := machine (if p then poisonAt c 0x3000 else c)
      let o := retOps (s.queue (on .F)) wNorm
      readyB s (on .F) 0x401 wNorm = true ∧ s.normCheck (on .F) .accumulating o = none ∧ (o.normPoisoned (s.core 0)).isSome = p) := by decide +kernel

theorem wit_scannedDies :
    (let s : State := { State.reset with scanned := [8], transit := [{ k := 1, pmp := 8 * 16384 }] };
      s.scanned.contains (8 : DieId).val = true ∧ s.transit[0]? = some { k := 1, pmp := 8 * 16384 } ∧ s.scanned.contains (pmpHome (8 * 16384)) = true)
    ∧ State.reset.scanned.contains (pmpHome 0) = false ∧ (machine {}).dieLost 0 = false ∧ (machine {}).scanned.contains 8 = false := by decide +kernel

/-- Poison marks the trigger record of epoch 1. -/
def badTrigger : State := (collective 0 {} true).updCtx 1 fun c => { c with poison := Tab.set false c.poison ((2 ^ 40 + 0x4000 + 32) / 64) true }

theorem wit_cleanCollectives :
    (∀ st ∈ [none, some true], let s := collective 0 { status := st } true
      ((s.reduction 1 9).any fun e => (s.ctx 1).epochs.all (fun x => !s.memPoisoned 1 (e.1.startrec + 32 * (x.n % 2)) 32) && !s.dstClearing 1 e.1 1) = true)
    ∧ ((badTrigger.reduction 1 9).any fun e => ((badTrigger.ctx 1).epochs.find? fun x => (x.st == .opened && !(badTrigger.opRun 1 9 x.n).triggered)
        && badTrigger.memPoisoned 1 (e.1.startrec + 32 * (x.n % 2)) 32).isSome) = true
    ∧ (let s := collective 0 { start := some 0 } false true
      ((s.reduction 1 9).any fun e => !s.dstClearing 1 e.1 1 && (s.ctx 1).epochs.all fun x => !s.memPoisoned 1 (e.1.startrec + 32 * (x.n % 2)) 32) = true)
    ∧ (let s := collective 2 {} false
      ((s.rotation 1 9).any fun e => (s.ctx 1).epochs.all fun x => !s.memPoisoned 1 (e.1.startrec + 64 * (x.n % 2)) 64) = true) := by decide +kernel

theorem wit_bits :
    ∀ p ∈ [false, true], let s := ((withOp (machine {}) 0).setBlob GSTORES 2 0
        (Bits.toBytes 64 (1 + 2 ^ 256 + 64 * 2 ^ 288 + (2 ^ 40 + 0x6000) * 2 ^ 320 + (2 ^ 40 + 0x3000) * 2 ^ 384 + (2 ^ 40 + 0x2000) * 2 ^ 448))).updCtx 1 fun c => if p then { c with poison := Tab.set false c.poison ((2 ^ 40 + 0x2000) / 64) true } else c
      (((s.heard (msgOf 1 0 (.bits [(0, 1)]))).opOf 1 (msgOf 1 0 (.bits [(0, 1)]))).any fun r =>
        (((s.heard (msgOf 1 0 (.bits [(0, 1)]))).addBits 1 r 1 0 [(0, 1)]).2.poison.isSome == p)) = true := by decide +kernel

theorem wit_voteLimits :
    (∀ e ∈ [({ n := 1 } : Epoch), { n := 1, st := .closed, voted := true }, { n := 1, st := .squashed }], let s := voting e 1
      (s.ctx 1).st ≠ .saved ∧ (s.jobGroup 1).any (fun g => decide (2 < g.2.nmem) && g.2.rank == 1) = true ∧ (s.ctx 1).epoch 1 = some e
        ∧ (e.squashable = true ∨ e.st = .squashed))
    ∧ (let s := voting { n := 1 } 0
      (s.ctx 1).st ≠ .saved ∧ (s.jobGroup 1).any (fun g => decide (2 < g.2.nmem) && g.2.rank == 0) = true ∧ (s.ctx 1).epoch 1 = some { n := 1 }
        ∧ ({ n := 1 } : Epoch).squashable = true ∧ (({ n := 1 } : Epoch).votes.any fun v => v.1 == 2) = false) := by decide +kernel

theorem wit_switches :
    ({ State.reset with pairA := true } : State).pairClosed 1 = true ∧ (portAt { st := .up }).pairClosed 5 = false
    ∧ (let s := portAt { st := .training, cfg := 3 * 2 ^ 32 + 4 * 2 ^ 16 };
      s.pairClosed 5 = false ∧ s.up = true ∧ s.safeHold = false ∧ (s.port 5).st = .training ∧ Bits.fld (s.port 5).cfg 32 16 = 3 ∧ Bits.fld (s.port 5).cfg 16 16 = 4
        ∧ s.val NODE_ADDR 0 ≠ 3 ∧ s.val NODE_ADDR 0 ≠ 4)
    ∧ (Bits.fld (5 * 2 ^ 32 + 5 * 2 ^ 16) 16 16 = Bits.fld (5 * 2 ^ 32 + 5 * 2 ^ 16) 32 16)
    ∧ (let s := portAt { st := .isolated }
      (s.putVal PORT_CFG 6 (2 ^ 32 + 1)).portEnabled 5 = true ∧ (s.putVal PORT_CFG 6 (2 ^ 32)).portEnabled 5 = false) := by decide +kernel

theorem wit_spares :
    (let s : State := { State.reset with sparing := { corrected := [(.row 0 7, 1), (.row 0 7, 2), (.row 0 7, 3)] } };
      s.sparing.qualifies (.row 0 7) = true ∧ s.sparing.qualifies (.row 0 8) = false ∧ s.anyStep = false ∧ s.sparing.due = []
        ∧ State.anyStep { machine {} { ctx1 with epochs := [{ n := 1 }] } with sparing := s.sparing } = true)
    ∧ (∀ n ∈ [0, 4], Tab.get 0 ({ columns := [(64 * 3 + 5, n)] } : Sparing).columns (64 * 3 + 5) = n)
    ∧ (withRegion (machine {})).isHbm (.dev 1 (2 ^ 40)) = true ∧ (withCxl (machine {})).isHbm (.dev 1 (2 ^ 40)) = false
    ∧ (withRegion (machine {})).firstInPass (.row 0 7) = true
    ∧ State.firstInPass { State.reset with sparing := { corrected := [(.row 0 7, 0)] } } (.row 0 7) = false := by decide +kernel

theorem wit_fieldTests :
    State.reset.replayCores.contains 80 = false ∧ State.reset.dieLost 80 = false ∧ (∀ q ∈ allQueues, (((machine {}).core 0).q q).replaying = false)
    ∧ ({ State.reset with safeHold := true } : State).dieLost 80 = false := by decide +kernel

theorem wit_ethernet :
    State.reset.ethUp = true ∧ ({ withIngest (machine {}) with ethUp := false } : State).targetUsed 0 = true
    ∧ (((ingesting 1).heard sampleMsg).ingestGroup 1).any (fun e => !e.2.xjob) = true := by decide +kernel

theorem wit_refillChunks :
    (let r : Refill := { chunks := 2, restored := [0], verified := [0], source := 1 };
      r.restored.contains 1 = false ∧ r.inFlight.contains 1 = true ∧ r.verified.contains 1 = false)
    ∧ (∀ f ∈ [[], [(1, 3)]], let r : Refill := { chunks := 2, restored := [0, 1], verified := [0], failed := f };
      r.restored.contains 1 = true ∧ ((List.range r.chunks).all r.restored.contains) = true ∧ r.failed.contains (1, 4) = false
        ∧ r.failed.contains (1, 3) = decide (f ≠ [])) := by decide +kernel

/-- The header of one chunk `bs`. -/
def headOf (bs : List Byte) : SlotHead :=
  { digest := BitVec.ofNat 256 (Sha3.digest (manifest 0 [Sha3.digest bs])), chunks := [BitVec.ofNat 256 (Sha3.digest bs)] }

theorem wit_heads (bs : List Byte) : headFits (headOf bs) 0 bs = true ∧ headFits {} 0 bs = false := by
  have h := fun l => Nat.mod_eq_of_lt (digest_lt l)
  constructor
  · simp only [headFits, headOf, List.map_cons, List.map_nil, BitVec.toNat_ofNat, h, List.getElem?_cons_zero, Option.any_some, beq_self_eq_true,
      Bool.and_true]
    exact beq_self_eq_true _
  · simp [headFits]

theorem wit_restoreHead (want : Nat) :
    let s := restorable [] want
    (s.ctx 1).restoreHead 8 { reach := [8], genDigest := BitVec.ofNat 256 (s.configDigest 1), genInvRev := s.val INV_REV 0 } = (s.configDigest 1, s.val INV_REV 0) := by
  have h := (wit_restore [] want).symm
  intro s
  have : (s.ctx 1).gens = [] := by rfl
  simp only [Ctx.restoreHead, this, List.find?_nil]
  rw [h]

theorem wit_power :
    ({ State.reset with phase := .off, resetHeld := true } : State).resetHeld = true ∧ State.reset.resetHeld = false ∧ State.reset.revert = false
    ∧ ({ State.reset with revert := true } : State).revert = true ∧ State.reset.bootSafe = false ∧ State.reset.phase = .running
    ∧ ({ State.reset with phase := .stuck } : State).phase ≠ .running := by decide +kernel

/-- A START_GO of context 1 that waits behind its LOAD_GO. -/
def behind1 : State := { inState .loaded with late := [{ kind := 5, k := 1 }] }

theorem wit_waitingCommands :
    behind1.behind 1 = true ∧ (inState .loaded).behind 1 = false ∧ (inState .loaded).startWaits 1 = false
    ∧ (machine {} { ctx1 with st := .halted, reloaded := true, epochs := [{ n := 1, st := .committing }] }).startWaits 1 = true
    ∧ (∀ n ∈ [1, 2, 3, 4], ((inState .loaded).setVal JOB_STATE 2 n).startWaits 1 = false)
    ∧ ({ inState .loaded with safeHold := true } : State).startWaits 1 = false := by decide +kernel

theorem wit_pitchInSafeHold :
    let s : State := { State.reset with safeHold := true, pitching := some 4 }
    s.flyValid 5 = true ∧ s.pitching.isSome = true ∧ ({ State.reset with safeHold := true } : State).pitching = none := by decide +kernel

theorem wit_ringInReset :
    ∀ p ∈ [Phase.off, .inReset, .stuck], ({ State.reset with phase := p } : State).phase ≠ .running := by decide

theorem wit_scans : (List.replicate cellCount false).length = cellCount ∧ ({ State.reset with tap := { dieSel := 3 } } : State).tap.dies ≠ [] := by decide +kernel

/-! ### Ill-formed commands that WellFormed refuses, one for each check -/

/-- A message whose header is `h`. -/
def segOf (h : CHdr) (p : CPayload := .empty) : Instr := .caravanSeg 0 { hdr := h, payload := p }

theorem wf_messageHeaders :
    ([{ mtype := 16 }, { form := 4 }, { restarts := 32 }, { sender := 4096 }, { origin := 4096 }, { group := 256 }, { oprec := 65536 }, { seg := 65536 },
      { job := 65536 }, { run := 65536 }, { epoch := 2 ^ 64 }, { pgen := 2 ^ 32 }, { offset := 2 ^ 32 }, { sumw := 2 ^ 32 }] : List CHdr).all
      (fun h => (segOf h).wf == false) = true ∧ (segOf {}).wf = true := by decide +kernel

theorem wf_messagePayloads :
    ([.groups [{ words := [0] }] [], .groups [{ anchor := 2 ^ 15 }] [], .groups [{ anchor := -(2 ^ 15) - 1 }] [], .groups (List.replicate 8 {}) [],
      .groups (List.replicate 7 {}) (List.replicate 7 {}), .sparse (List.replicate 82 (0, {})), .sparse [(2 ^ 32, {})], .bits (List.replicate 410 (0, 0)),
      .radd (List.replicate 79 (0, {})), .radd [(2 ^ 64, {})], .raw [0], .verdict .accept false 65536 0 false, .verdict .accept false 0 (2 ^ 32) false,
      .refusal 256 0 0, .refusal 0 65536 0, .refusal 0 0 (2 ^ 64)] : List CPayload).all (fun p => (segOf {} p).wf == false) = true
    ∧ (segOf {} (.raw (List.replicate 32 0))).wf = true := by decide +kernel

theorem wf_frames :
    ([{ kind := 4 }, { vc := 16 }, { hops := 16 }, { cvc := 16 }, { cred := 65536 }, { seq := 65536 }, { ackseq := 65536 }, { src := 65536 },
      { dst := 65536 }, { body := { hdr := { mtype := 16 } } }, { kind := 1 }, { via := some 3 }] : List DFrame).all
        (fun f => (Instr.drawbarDataFrame 0 { f with len := frameBodyLen f }).wf == false) = true
    ∧ (Instr.drawbarDataFrame 0 { len := 64 }).wf = true ∧ (Instr.drawbarDataFrame 0 { len := 63 }).wf = false ∧ (Instr.drawbarDataFrame 0 { len := 9281 }).wf = false
    ∧ (Instr.drawbarNakFrame 0 { kind := 2 }).wf = true ∧ (Instr.drawbarNakFrame 0 { kind := 2, len := 64 }).wf = false ∧ (Instr.drawbarCreditFrame 0 {}).wf = false ∧ (Instr.drawbarNakFrame 0 {}).wf = false
    ∧ (Instr.drawbarIdleFrame 0 {}).wf = false ∧ (Instr.drawbarTrainingFrame 0 0 0 [0]).wf = false
    ∧ (Instr.drawbarTrainingFrame 0 0 24 (List.replicate 16 0)).wf = false ∧ (Instr.drawbarTrainingFrame 0 65536 0 (List.replicate 16 0)).wf = false := by
  decide +kernel

theorem wf_waybills :
    ([{ ver := 256 }, { op := 128 }, { status := 256 }, { seq := 2 ^ 32 }, { entry := 65536 }, { sub := 256 }, { hops := 256 }, { offset := 2 ^ 64 },
      { reqlen := 2 ^ 32 }, { data := List.replicate 4065 0 }] : List WbMsg).all (fun m => (Instr.wbGo 0 0 m {}).wf == false) = true
    ∧ (Instr.wbGo 0 0 {} {}).wf = true ∧ (Instr.wbGo 0 (2 ^ 32) {} {}).wf = false
    ∧ ([{ ethertype := 65536 }, { dst := 2 ^ 48 }, { src := 2 ^ 48 }, { msg := { ver := 256 } }, { msg := { data := List.replicate 1369 0 } }] : List MgFrame).all
        (fun f => (Instr.mgFrameReceive false f {}).wf == false) = true
    ∧ (Instr.mgFrameReceive false {} {}).wf = true := by decide +kernel

theorem wf_paths :
    (Instr.wbRead (.ring (2 ^ 48)) 0 0).wf = false ∧ (Instr.wbRead (.host 0) 65536 0).wf = false ∧ (Instr.wbRead (.host 0) 0 256).wf = false
    ∧ (Instr.wbReadBlock (.host 0) 0 0 (2 ^ 64) 0).wf = false ∧ (Instr.wbReadBlock (.host 0) 0 0 0 (2 ^ 32)).wf = false
    ∧ (Instr.wbWriteBlock (.host 0) 0 0 0 (List.replicate 4065 0)).wf = false ∧ (Instr.wbTxnOpen (.host 0) 65536 0 0 []).wf = false
    ∧ (Instr.wbTxnTimeout (.ring (2 ^ 48))).wf = false ∧ (Instr.wbReadBlock (.host 0) 0 0 0 0).wf = true := by decide +kernel

theorem wf_starts :
    ([{ cores := [704] }, { slices := [64] }, { links := [26] }, { hbm := [16] }, { cxl := [[0, 0, 0, 0]] }, { cxl := List.replicate 5 [0, 0, 0, 0, 0] },
      { slotId := 64 }, { columns := [(704, 0, 1)] },
      { columns := [(0, 64, 1)] }, { opens := some 7 }, { opens := some 0 }] : List StartIn).all (fun i => (Instr.powerOn i).wf == false && (Instr.fbGo 0 0 { start := i }).wf == false) = true
    ∧ (Instr.powerOn {}).wf = true ∧ (Instr.fbGo 0 (2 ^ 32) {}).wf = false ∧ (Instr.fbGo (2 ^ 64) 0 {}).wf = false
    ∧ (Instr.loadGo 0 { start := { slotId := 64 } }).wf = false := by decide +kernel

theorem wf_window : (Env.wf { window := List.replicate 65537 0 }) = false := by
  have h : (List.replicate 65537 (0 : Byte)).length = 65537 := List.length_replicate
  simp only [Env.wf, h]; decide +kernel

theorem wf_parts :
    (Instr.scrubLine (.dev 0 (2 ^ 64)) .clean {}).wf = false ∧ (Instr.scrubLine (.coreStore 0 0x600000) .clean {}).wf = false
    ∧ (Instr.scrubLine (.accStore 0 32768) .clean {}).wf = false ∧ (Instr.scrubLine (.accStore 0 32767) .clean {}).wf = true
    ∧ (Instr.decodeComplete 0 0 (.sliceFault 64)).wf = false
    ∧ (Instr.coreSwap 3 3).wf = false ∧ (Instr.powerThermalCheck [] 0 0 0 0).wf = false ∧ (Instr.refillChunkDone 0 0 {} { rank := 4096 } []).wf = false
    ∧ (Instr.holdupChargeLow 101).wf = false ∧ (Instr.voteLimitExpire 0 (2 ^ 64) 0).wf = false ∧ (Instr.voteLimitExpire 0 0 4096).wf = false
    ∧ (Instr.caravanAck 0 {} 256 {}).wf = false ∧ (Instr.caravanAck 0 {} 0 ⟨65536, 0⟩).wf = false ∧ (Instr.caravanAck 0 {} 0 ⟨0, 2 ^ 64⟩).wf = false := by decide +kernel

/-- The table gives its rows no bits. -/
theorem noBits : decodeTableWord 128 0x1A = none := rfl

/-! ### Worked examples of the spec -/

/-- The exact value m 2^e. -/
def num (m : Nat) (e : Int) (s : Bool := false) : Fp := .num s m e

/-- Example 2-1: conversions of 0.3, 300.0 and 0.0004 with a pinned scale of 1.0. -/
theorem test_example_2_1 :
    (let x := Fp.decode Ff.b32 0x3E99999A;
      (Fmt.elemRound 4 0 x).1 = 0x32 ∧ (Fmt.elemRound 5 0 x).1 = 0x39 ∧ (Ff.bf16.roundFp x).bits = 0x3E9A)
    ∧ Fmt.elemRound 4 0 (num 300 0) = (0x7E, false, true) ∧ (Fmt.elemRound 5 0 (num 300 0)).1 = 0x61
    ∧ Fmt.elemRound 4 0 (Fp.decode Ff.b32 0x39D1B717) = (0, true, false) ∧ (Fmt.elemRound 5 0 (Fp.decode Ff.b32 0x39D1B717)).1 = 0x13 := by decide +kernel

/-- The block of Example 2-2; 0.02 and -0.001 as the nearest binary32 values. -/
def block22 : List Fp :=
  [num 1 (-1), num 3 (-2) true, Fp.decode Ff.b32 0x3CA3D70A, num 5000 0, num 0 0, num 0 0, num 0 0, num 3 (-1),
    num 0 0, num 0 0, num 0 0, num 0 0, Fp.decode Ff.b32 0xBA83126F, num 0 0, num 0 0, num 0 0]

/-- Example 2-2: a V8 block of 16 whose outlier escapes, and decodes exactly. -/
theorem test_example_2_2 :
    Fmt.encode 4 true none block22 = ⟨0x48E28378, [0x70, 0xF4, 0x4A, 0, 0, 0, 0, 0x7C, 0, 0, 0, 0, 0xA8, 0, 0, 0], 0, 0⟩
    ∧ (Fmt.blockVal 4 0 0x48E28378 0 3).val.eq (Dy.ofInt 5000) = true
    ∧ (Fmt.blockVal 4 0 0x48E28378 0xA8 12).val.eq ⟨-1, -10⟩ = true := by decide +kernel

/-- Example 2-3: slots rounded to binary16 at the overflow boundary. -/
theorem test_example_2_3 :
    (Ff.b16.roundFp (({} : L640).addFp (num 262079 (-2))).read).bits = 0x7BFF
    ∧ (Ff.b16.roundFp (({} : L640).addFp (num 65520 0)).read).bits = 0x7C00
    ∧ (Ff.b16.roundFp (({} : L640).addFp (num 131009 (-1) true)).read).bits = 0xFBFF := by decide +kernel

/-- The products of Example 3-1. -/
def prods31 : List Prod :=
  [mulFp (num 1 60) (num 1 20), mulFp (num 3 (-41)) (num 5 (-22)), mulFp (num 1 60) (num 1 20 true)] ++ List.replicate 5 (.fin 0)

/-- Example 3-1: a cell loses bits in its first pass, and two windows give the exact sum. -/
theorem test_example_3_1 :
    anchor (some 60) (some 20) 8 0 = -58 ∧ slice (-58) 2 = -184
    ∧ firstPass (ints prods31) (some 60) (some 20) 0 = (none, some .twoFirst)
    ∧ replayPass .twoFirst (ints prods31) (some 60) (some 20) = (some 0, some .twoSecond)
    ∧ replayPass .twoSecond (ints prods31) (some 60) (some 20) = (some (15 * 2 ^ 237), none)
    ∧ (Ff.b32.roundFp (foldWin {} (15 * 2 ^ 237) prods31).read).bits = 0x21F00000 := by decide +kernel

/-- Four partial sums of Example 3-2, added in a given order. -/
def sums32 (l : List (Nat × Int × Bool)) : L640 := l.foldl (fun a x => a.addFp (num x.1 x.2.1 x.2.2)) {}

/-- Example 3-2: cancellation with small terms between, in two orders of arrival. -/
theorem test_example_3_2 :
    (let x := sums32 [(3, 99, false), (1, -30, false), (3, -40, false), (3, 99, true)];
      let y := sums32 [(3, 99, true), (3, -40, false), (3, 99, false), (1, -30, false)];
      x = y ∧ x.acc.toNat = 2 ^ 270 + 2 ^ 261 + 2 ^ 260 ∧ (Ff.b32.roundFp x.read).bits = 0x30806000 ∧ (Ff.bf16.roundFp x.read).bits = 0x3080
        ∧ (Ff.b16.roundFp x.read).bits = 0) := by decide +kernel

/-- Example 3-3: eight terms give 6 however the sum is split. -/
theorem test_example_3_3 :
    (let t := [(1, 24, false), (1, 0, false), (1, 0, false), (1, 0, false), (1, 0, false), (1, 0, false), (1, 0, false), (1, 24, true)];
      (sums32 t).acc = ((sums32 (t.take 4)).add (sums32 (t.drop 4))).acc ∧ (sums32 t).acc.toNat = 6 * 2 ^ 300
        ∧ (Ff.bf16.roundFp (sums32 t).read).bits = 0x40C0 ∧ (Ff.b32.roundFp (sums32 t).read).bits = 0x40C00000) := by decide +kernel

/-- Example 4-1: the exponential terms of the scores 0, 1 and 2, and the normalised output. -/
theorem test_example_4_1 :
    Expo.term (Dy.ofInt 0) = Dy.one ∧ (Expo.term (Dy.ofInt 1)).eq ⟨44536, -14⟩ = true ∧ (Expo.term (Dy.ofInt 2)).eq ⟨60531, -13⟩ = true := by decide +kernel

theorem test_example_4_1_ratio :
    (let d := sums32 [(8192, -13, false), (22268, -13, false), (60531, -13, false)];
      let n := sums32 [(4096, -13, false), (22268, -13, false), (121062, -13, false)];
      normOut Ff.b32 false n d = (0x3FCF6392, false) ∧ normOut Ff.bf16 false n d = (0x3FCF, false)) := by decide +kernel

/-- Example 6-1: MM on slot 0 with a carried advance, from its fields. -/
theorem test_example_6_1 :
    iw 0x200 [(12, 1), (13, 40), (26, 1), (32, 1), (36, 4), (42, 1), (45, 1), (46, 1), (56, 1), (72, 4), (77, 5), (87, 128), (95, 128)]
      = 0x00000040_4000A400_01006441_04051200
    ∧ checkWord .T 0x00000040_4000A400_01006441_04051200 = none := by decide +kernel

/-- Example 6-2: a WAIT whose value operand is a3 - 3. -/
theorem test_example_6_2 :
    iw 0x008 [(32, 0x25), (54, 0x23), (64, 0xFFFFFFFD)] = 0x00000000_FFFFFFFD_08C00025_00000008
    ∧ checkWord .O 0x00000000_FFFFFFFD_08C00025_00000008 = none ∧ addImm 6 (imm32 0x00000000_FFFFFFFD_08C00025_00000008 64) = 3 := by decide +kernel

/-- The hyperparameters of Example 9-1. -/
def hyper91 : Hyper :=
  { hyperOf 0 with
    ndiv := 4
    clip := true
    lr := .ofDy ⟨1, -10⟩
    maxnorm := .ofDy ⟨1, -13⟩ }

/-- Example 9-1: the clip scale, and the weight that one update leaves. -/
theorem test_example_9_1 :
    (clipScale hyper91 0x3F800000 (num 1 (-20))).bits Ff.b32 = 0x3F000000
    ∧ (let g := ((Xr.ofDy ⟨3, -20⟩).mul (clipScale hyper91 0x3F800000 (num 1 (-20)))).div (Xr.ofNat 4);
        let w := Xr.ofNat 1;
        let w' := w.sub (updateOf hyper91 (g.rnd Ff.b64) w);
        g.bits Ff.b64 = (Xr.ofDy ⟨3, -23⟩).bits Ff.b64 ∧ w'.bits Ff.m48 = 0x3F7FFFFFFE80
          ∧ (valOf Ff.m48 0x3F7FFFFFFE80).bits Ff.bf16 = 0x3F80 ∧ (valOf Ff.m48 0x3F7FFFFFFE80).bits Ff.b32 = 0x3F800000) := by decide +kernel

/-- Example 12-1: one bicubic output sample. -/
theorem test_example_12_1 :
    bicubicTaps 16 = [-1152, 14208, 3712, -384] ∧ bicubicTaps 0 = [0, 16384, 0, 0]
    ∧ normalise Ff.bf16 ⟨2312960, 16384 * 255⟩ 0x3F000000 0x3E800000 = 0x3E5C := by decide +kernel

/-- Contributions added to one element at anchor `A`, in order; none where the element is stamped with RAISE. -/
def hops (A : Int) (l : List Fp) : Option Int :=
  l.foldl (fun w x => w.bind fun w =>
    match ({ w := w } : SElem).add A 0 (({} : L640).addFp x) with
    | .inr e => some e.w
    | .inl _ => none) (some 0)

/-- Example 11-1: a W128 element is stamped at anchor -40 and reduced at anchor -32. -/
theorem test_example_11_1 :
    hops (-40) [num 1 86] = some (2 ^ 126) ∧ hops (-40) [num 1 86, num 1 86] = none
    ∧ ((({ groups := [{ g := 0, anchor := -40, raise := true }] } : Seg).restart).groups.map fun g => g.anchor) = [-32]
    ∧ hops (-32) [num 1 86, num 1 86, num 1 84, num 3 (-32)] = some 0x00900000000000000000000000000003
    ∧ nextAnchor [({} : L640).addFp (num 9 84)] = some (-17)
    ∧ (Ff.b32.roundFp (({ w := 0x00900000000000000000000000000003 } : SElem).val (-32)).read).bits = 0x6B100000 := by decide +kernel

/-- R497: VC0 first, then the others in round robin after the one that last sent. -/
theorem test_round_robin : ({ lastVc := 14 } : Port).vcOrder = [0, 15, 1, 2, 3, 4, 5, 6, 7, 8, 9, 10, 11, 12, 13, 14] := by decide

/-- R575, R577: a rollback runs the VALID slot; a target that fails its check is FAILED and the former slot runs. -/
theorem test_rollback :
    let f : Fw := { slot0 := { st := .active, version := 4 }, slot1 := { st := .valid, version := 3 }, arb := 3 }
    ((f.boot anyTag { slot0Ok := true, slot1Ok := true }).map fun x => (x.1.active1, x.1.slot0.st, x.1.slot1.st)) = some (true, .valid, .active)
    ∧ ((f.boot anyTag { slot0Ok := true, slot1Ok := false }).map fun x => (x.1.active1, x.1.slot0.st, x.1.slot1.st))
      = some (false, .active, .failed) := by decide
end Sys2Proof.Machine.Tests
end

/-! Encoding checks at issue (R181, R201, R202): a queue whose earlier instructions have all retired halts at a fetch beyond the loaded length and at a word
that `checkWord` refuses. -/

namespace Sys2Proof.Machine

/-- A queue that can issue, on a die with a defined state, tries its instruction. -/
theorem issue_of_canIssue {s : State} {q : QRef} (alive : s.dieLost q.core.val = false) (can : s.canIssue q = true) (oc : OpCode) (serial : Bool)
    (body : Nat → Act) : issue oc serial q s body = .next (s.tryIssue oc serial q body) := by
  simp [issue, onCore, alive, can]

/-- R191: with no earlier instruction in flight, a halt at issue takes place at once. -/
theorem State.haltIssue_of_inflight_nil {s : State} {q : QRef} (alone : (s.queue q).inflight = []) (s' : State) (hc d a : Nat) :
    s.haltIssue s' q hc d a = s'.haltQ q hc d a := by
  simp [State.haltIssue, alone]

/-- R181: where the pc names no loaded word, the halt is HC-04 with the loaded length. -/
theorem State.tryIssue_of_fetch_none {s : State} {q : QRef} (hf : (s.queue q).fetch = none) (oc : OpCode) (serial : Bool) (body : Nat → Act) :
    s.tryIssue oc serial q body = s.haltIssue s q 0x04 (s.queue q).active.words.length 0 := by
  simp [State.tryIssue, hf]

/-- R201, R202: the check's code and DETAIL are those of the halt.  HC-01 comes before the word's opcode is compared with that of the event; the other
codes come after. -/
theorem State.tryIssue_of_checkWord_some {s : State} {q : QRef} {oc : OpCode} {w hc d : Nat} (hf : (s.queue q).fetch = some w)
    (hw : checkWord q.queue w = some (hc, d)) (hop : hc = 0x01 ∨ Bits.fld w 8 3 * 256 + Bits.fld w 0 8 = oc) (serial : Bool) (body : Nat → Act) :
    s.tryIssue oc serial q body = s.haltIssue s q hc d 0 := by
  by_cases h1 : hc = 0x01
  · subst h1
    simp [State.tryIssue, hf, hw]
  · have hoc := hop.resolve_left h1
    simp [State.tryIssue, hf, hw, hoc, h1]

/-- Settles O9: both halts are `haltIssue`, which takes place at once where no earlier instruction is in flight. -/
theorem encodingChecksHalt : Obligations.EncodingChecksHalt := by
  intro s q oc serial body alive can alone
  rw [issue_of_canIssue alive can]
  refine ⟨fun hf => ?_, fun w hc d hf hw hop => ?_⟩
  · rw [State.tryIssue_of_fetch_none hf, State.haltIssue_of_inflight_nil alone]
  · rw [State.tryIssue_of_checkWord_some hf hw hop, State.haltIssue_of_inflight_nil alone]

end Sys2Proof.Machine

/-! The host's Milepost window (R258 to R261, Table 7-6) and the event consumer (R516): each command answers the next state that its acceptance, or the
first cause of its refusal, gives, and a read that stays inside an entry returns a slice of the entry's 16 bytes. -/

namespace Sys2Proof

@[simp] theorem Bits.length_toBytes (n x : Nat) : (Bits.toBytes n x).length = n := by
  induction n generalizing x with
  | zero => rfl
  | succ n ih => simp [Bits.toBytes, ih]

end Sys2Proof

namespace Sys2Proof.Machine

theorem whenUp_of_up {s : State} (up : s.up = true) (f : State → State) : whenUp s f = .next (f s) := by
  simp [whenUp, up]

/-! ### Reads of the window -/

@[simp] theorem State.length_windowEntry (s : State) (k n : Nat) : (s.windowEntry k n).length = 16 := by
  simp [State.windowEntry]

/-- A read of an enabled function's window that does not leave entry `n` returns that slice of the entry. -/
theorem State.windowRead_within_entry {s : State} {k : Nat} (en : s.fnEnabled k = true) (n : Nat) {o len : Nat} (h : o + len ≤ 16) :
    s.windowRead k (16 * n + o) len = some (((s.windowEntry k n).drop o).take len) := by
  simp only [State.windowRead, en, if_true, Option.some.injEq]
  refine List.ext_getElem (by simp; omega) fun i hi _ => ?_
  have hlt : i < len := by simpa using hi
  have hentry : (16 * n + o + i) / 16 = n := by omega
  have hbyte : (16 * n + o + i) % 16 = o + i := by omega
  have hin : o + i < 16 := by omega
  simp [hentry, hbyte, hin]

/-! ### Writes of the window -/

theorem exec_hostMpWindowWrite (fn : CtxId) (offset : Fin 131072) (data : List Byte) (s : State) :
    exec (.hostMpWindowWrite fn offset data) s = execHostMpWindowWrite fn offset data s := by
  rfl

section
variable {s : State} {k offset len : Nat}

theorem State.windowRefused_of_malformed (h : ¬ (offset % 16 = 0 ∧ len = 8)) : s.windowRefused k offset len = some 0x23 := by
  rw [State.windowRefused, if_pos (not_and_or.mp h)]

/-- Past the check of the form, the causes are tried in the order that R261 lists them. -/
theorem State.windowRefused_of_form (form : offset % 16 = 0 ∧ len = 8) :
    s.windowRefused k offset len =
      if ¬ ((s.mpEntry k (offset / 16)).valid = true ∧ (s.mpEntry k (offset / 16)).hostw = true) then some 0x20
      else if (s.ctx k).st = .saved ∨ (s.pmp (s.mpEntry k (offset / 16)).pmp).st = .frozen then some 0x21
      else if (s.ctx k).st = .draining ∨ (s.pmp (s.mpEntry k (offset / 16)).pmp).st ≠ .live then some 0x22
      else none := by
  simp [State.windowRefused, form, not_and_or, -not_and]

end

section
variable {s : State} {fn : CtxId} (up : s.up = true) (en : s.fnEnabled fn.val = true)
include up en

theorem exec_hostMpWindowWrite_of_accepted {offset : Fin 131072} {data : List Byte} (h : s.windowRefused fn.val offset.val data.length = none) :
    exec (.hostMpWindowWrite fn offset data) s = .next (s.windowWrite fn.val offset.val (Bits.ofBytes data)) := by
  simp only [exec_hostMpWindowWrite, execHostMpWindowWrite, whenUp_of_up up, en, if_true, h]

theorem exec_hostMpWindowWrite_of_refused {offset : Fin 131072} {data : List Byte} {c : Nat}
    (h : s.windowRefused fn.val offset.val data.length = some c) :
    exec (.hostMpWindowWrite fn offset data) s =
      .next ((s.count WB.WIN_REFUSED (fn.val + 1) 1).event 0x0003 (some fn.val) 8 (evData2 offset.val c)) := by
  simp only [exec_hostMpWindowWrite, execHostMpWindowWrite, whenUp_of_up up, en, if_true, h]

end

/-! ### Writes of the event consumer -/

theorem exec_evConsWrite (fn : CtxId) (v : W64) (s : State) : exec (.evConsWrite fn v) s = execEvConsWrite fn v s := by
  rfl

section
variable {s : State} {fn : CtxId} (up : s.up = true) (en : s.fnEnabled fn.val = true)
include up en

/-- R516: the consumer moves forward, up to the producer. -/
theorem exec_evConsWrite_of_between {v : W64} (lo : (s.mailbox fn.val).cons ≤ v.toNat) (hi : v.toNat ≤ (s.mailbox fn.val).prod) :
    exec (.evConsWrite fn v) s =
      .next { s with mailboxes := Tab.set {} s.mailboxes fn.val { s.mailbox fn.val with cons := v.toNat } } := by
  simp [exec_evConsWrite, execEvConsWrite, whenUp_of_up up, en, lo, hi]

/-- R516: any other value is discarded. -/
theorem exec_evConsWrite_of_outside {v : W64} (h : v.toNat < (s.mailbox fn.val).cons ∨ (s.mailbox fn.val).prod < v.toNat) :
    exec (.evConsWrite fn v) s = .next s := by
  have out : ¬ ((s.mailbox fn.val).cons ≤ v.toNat ∧ v.toNat ≤ (s.mailbox fn.val).prod) := by omega
  simp only [exec_evConsWrite, execEvConsWrite, whenUp_of_up up, en, Bool.true_and, ← Bool.decide_and, decide_eq_true_eq, if_neg out]

end

/-- Settles O52: a window write takes the branch of `windowRefused` that its premises name, and a read is a half of the entry's 16 bytes. -/
theorem hostWindowsComplete : Obligations.HostWindowsComplete := by
  intro s fn offset data v up en
  refine ⟨⟨fun ha hl hv hw hsaved hdrain hlive => ?_, fun hform => ?_, fun hform hhost => ?_, fun ⟨hform, hhost⟩ hfrozen => ?_,
    fun ⟨hform, hhost⟩ hsaved hfrozen hlive => ?_⟩, fun n _ => ⟨?_, ?_⟩, fun lo hi => ?_, fun h => ?_⟩
  · have accepted : s.windowRefused fn.val offset.val data.length = none := by
      simp [State.windowRefused_of_form ⟨ha, hl⟩, hv, hw, hsaved, hdrain, hlive]
    rw [exec_hostMpWindowWrite_of_accepted up en accepted]
    exact ⟨fun hlt => by rw [State.windowWrite, if_pos hlt], fun hle => by rw [State.windowWrite, if_neg (Nat.not_lt.mpr hle)]⟩
  · exact exec_hostMpWindowWrite_of_refused up en (State.windowRefused_of_malformed hform)
  · exact exec_hostMpWindowWrite_of_refused up en (by rw [State.windowRefused_of_form hform, if_pos hhost])
  · refine exec_hostMpWindowWrite_of_refused up en ?_
    rw [State.windowRefused_of_form hform, if_neg (not_not_intro hhost), if_pos hfrozen]
  · refine exec_hostMpWindowWrite_of_refused up en ?_
    rw [State.windowRefused_of_form hform, if_neg (not_not_intro hhost), if_neg (not_or.mpr ⟨hsaved, hfrozen⟩), if_pos hlive]
  · simpa [State.windowEntry] using State.windowRead_within_entry en n (o := 0) (len := 8) (by decide)
  · simpa [State.windowEntry, List.take_of_length_le] using State.windowRead_within_entry en n (o := 8) (len := 8) (by decide)
  · exact exec_evConsWrite_of_between up en lo hi
  · exact exec_evConsWrite_of_outside up en h

end Sys2Proof.Machine

/-! Pairing (R470), restore (R478 to R480, R483) and the chunks and sources of a refill (R480 to R482, R484): each command answers the next state that the
branch its premises name gives. -/

namespace Sys2Proof.Machine

open Sys2Proof.WB

/-- Outside Safe Hold a running part takes an event of the Bivouac. -/
theorem onBivouac_of_awake {s : State} (up : s.up = true) (awake : s.safeHold = false) (k : CtxId) (f : State → State) :
    onBivouac k s f = .next ((f s).after k.val) := by
  simp [onBivouac, whenUp_of_up up, awake]

/-! ### PAIR_GO -/

/-- Both sides name each other in one job and both power domains are set (R470). -/
def State.PairAgrees (s : State) (k : Nat) (g : CGroup) (p : PartnerIn) : Prop :=
  p.rank = (s.biv k).prank ∧ p.namesRank = g.rank ∧ p.job = g.job ∧ s.val POWER_DOMAIN 0 ≠ 0 ∧ p.domain ≠ 0

theorem exec_pairGo (k : CtxId) (e : Env) (s : State) : exec (.pairGo k e) s = execPairGo k e s := by
  rfl

theorem State.goPair_none (s : State) (k : Nat) (e : Env) : s.goPair k e none = { (s.pairNow k e).1 with answer := (s.pairNow k e).2 } := by
  rfl

theorem exec_pairGo_of_up {s : State} (up : s.up = true) (k : CtxId) (e : Env) :
    exec (.pairGo k e) s = .next { (s.pairNow k.val e).1 with answer := (s.pairNow k.val e).2 } := by
  rw [exec_pairGo, execPairGo, whenUp_of_up up, State.goPair_none]

theorem State.pairNow_of_missing {s : State} {k : Nat} {e : Env} (h : s.cgroup k (s.biv k).group = none ∨ e.partner = none) :
    s.pairNow k e = (s, 0x3B) := by
  rcases h with hg | hp
  · simp only [State.pairNow, hg]
  · cases hg : s.cgroup k (s.biv k).group <;> simp only [State.pairNow, hg, hp]

section
variable {s : State} {k : Nat} {e : Env} {g : CGroup} {p : PartnerIn} (hg : s.cgroup k (s.biv k).group = some g) (hp : e.partner = some p)
include hg hp

theorem State.pairNow_of_not_agrees (h : ¬ s.PairAgrees k g p) : s.pairNow k e = (s, 0x3B) := by
  have refused : p.rank ≠ (s.biv k).prank ∨ p.namesRank ≠ g.rank ∨ p.job ≠ g.job ∨ s.val POWER_DOMAIN 0 = 0 ∨ p.domain = 0 := by
    simpa only [State.PairAgrees, not_and_or, ne_eq, not_not] using h
  simp only [State.pairNow, hg, hp, if_pos refused]

/-- Once the two sides agree, the power domains and the override decide. -/
theorem State.pairNow_of_agrees (h : s.PairAgrees k g p) :
    s.pairNow k e = if p.domain ≠ s.val POWER_DOMAIN 0 then (s.setVal PAIR_STATE (k + 1) 1, 0)
      else if s.val PAIR_OVERRIDE 0 = 1 ∧ p.override = true then (s.setVal PAIR_STATE (k + 1) 2, 0)
      else (s, 0x3A) := by
  obtain ⟨hrank, hnames, hjob, hdom, hpdom⟩ := h
  simp only [State.pairNow, hg, hp, hrank, hnames, hjob, hdom, hpdom, ne_eq, not_true_eq_false, or_self, if_false]

end

/-! ### RESTORE_GO -/

theorem exec_restoreGo (k : CtxId) (e : Env) (s : State) : exec (.restoreGo k e) s = execRestoreGo k e s := by
  rfl

theorem State.goRestore_none (s : State) (k : Nat) (e : Env) :
    s.goRestore k e none = { (s.restoreNow k e).1 with answer := (s.restoreNow k e).2 } := by
  rfl

theorem exec_restoreGo_of_up {s : State} (up : s.up = true) (k : CtxId) (e : Env) :
    exec (.restoreGo k e) s = .next { (s.restoreNow k.val e).1 with answer := (s.restoreNow k.val e).2 } := by
  rw [exec_restoreGo, execRestoreGo, whenUp_of_up up, State.goRestore_none]

theorem State.restoreNow_of_not_loaded {s : State} {k : Nat} (h : (s.ctx k).st ≠ .loaded) (e : Env) : s.restoreNow k e = (s, 0x3C) := by
  simp only [State.restoreNow, if_pos (Or.inl h)]

section
variable {s : State} {k : Nat} {e : Env} (loaded : (s.ctx k).st = .loaded) (fresh : (s.ctx k).fresh = true)
  (head : (s.ctx k).restoreHead (if s.val RESTORE_STEP (k + 1) = 0 then (s.reachable k e).max?.getD 0 else s.val RESTORE_STEP (k + 1)) e
    = (s.configDigest k, s.val INV_REV 0))
include loaded fresh head

/-- A fresh context whose configuration is that of the generation asked for: only reachability decides. -/
theorem State.restoreNow_of_asked (asked : s.val RESTORE_STEP (k + 1) ≠ 0) :
    s.restoreNow k e = if (s.reachable k e).contains (s.val RESTORE_STEP (k + 1)) = true then
      (s.startRefill k (s.val RESTORE_STEP (k + 1)) e.source, 0) else (s, 0x3D) := by
  simp only [State.restoreNow, loaded, fresh, head, ne_eq, not_true_eq_false, Bool.true_eq_false, or_self, if_false]
  rw [if_neg asked]

theorem State.restoreNow_of_highest {g : Nat} (asked : s.val RESTORE_STEP (k + 1) = 0) (hmax : (s.reachable k e).max? = some g) :
    s.restoreNow k e = (s.startRefill k g e.source, 0) := by
  simp only [State.restoreNow, loaded, fresh, head, ne_eq, not_true_eq_false, Bool.true_eq_false, or_self, if_false]
  simp only [if_pos asked, hmax]

end

/-! ### A chunk of a refill -/

/-- What the refill records of a chunk that has been written (R480, R484). -/
def Refill.written (r : Refill) (chunk verify : Nat) (bytes : List Byte) : Refill :=
  { r with
    restored := r.restored ++ [chunk]
    verified := if Bits.bit verify 1 then r.verified else r.verified ++ [chunk]
    image := Tab.setRange 0 r.image (chunkSize * chunk) (bytes.take chunkSize) }

section
variable {s : State} {k chunk : Nat} {r : Refill} {h : SlotHead} {bytes : List Byte}

theorem State.takeChunk_of_fits (fits : Bits.bit (s.biv k).verify 0 = true →
      headFits (s.readChunk k chunk r h bytes).1 chunk (s.readChunk k chunk r h bytes).2 = true) :
    s.takeChunk k chunk r h bytes =
      (s.updCtx k fun c => { c with refill := some (r.written chunk (s.biv k).verify (s.readChunk k chunk r h bytes).2) }).refillDone k := by
  have pass : ¬ (Bits.bit (s.biv k).verify 0 && !headFits (s.readChunk k chunk r h bytes).1 chunk (s.readChunk k chunk r h bytes).2) = true := by
    simpa using fits
  simp only [State.takeChunk, if_neg pass, Refill.written]

theorem State.takeChunk_of_misfit (checked : Bits.bit (s.biv k).verify 0 = true)
    (misfit : headFits (s.readChunk k chunk r h bytes).1 chunk (s.readChunk k chunk r h bytes).2 = false) :
    s.takeChunk k chunk r h bytes = s.refetch k chunk r := by
  simp only [State.takeChunk, checked, misfit, Bool.not_false, Bool.and_self, if_true]

/-- R484: with every chunk written, the digest of the replica at RRANK decides, unless it has differed twice already. -/
theorem State.compareChunk_of_replica {rep : Replica} (all : ((List.range r.chunks).all r.restored.contains) = true)
    (rank : rep.rank = (s.biv k).rrank) (unsettled : r.failed.contains (chunk, 4) = false) :
    s.compareChunk k chunk r rep =
      if rep.digest.toNat = Sha3.digest (Tab.getRange 0 r.image (chunkSize * chunk) (s.chunkLen k chunk)) then
        (s.updCtx k fun c => { c with refill := some { r with verified := r.verified ++ [chunk] } }).refillDone k
      else if r.failed.contains (chunk, 3) = true then
        (s.updCtx k fun c => { c with refill := some { r with failed := r.failed ++ [(chunk, 4)] } }).event 0x0036 (some k) 8 chunk
      else s.rereadFrom k chunk ((s.ctx k).nextSource r.g (r.from_ chunk)) 3 r := by
  simp only [State.compareChunk, all, rank, unsettled, Bool.not_true, bne_self_eq_false, Bool.or_self, Bool.false_eq_true, if_false]

end

theorem exec_jobResumable (k : CtxId) (s : State) : exec (.jobResumable k) s = execJobResumable k s := by
  rfl

theorem exec_refillChunkDone (k : CtxId) (chunk : Nat) (h : SlotHead) (rep : Replica) (bytes : List Byte) (s : State) :
    exec (.refillChunkDone k chunk h rep bytes) s = execRefillChunkDone k chunk h rep bytes s := by
  rfl

section
variable {s : State} {k : CtxId} {r : Refill} (up : s.up = true) (awake : s.safeHold = false)
include up awake

/-- R483: every member of the job is VERIFIED. -/
theorem exec_jobResumable_of_verified (hjs : s.val JOB_STATE (k.val + 1) = 3) :
    exec (.jobResumable k) s =
      .next (((s.updCtx k.val fun c => { c with refillQueue := [] }).setVal JOB_STATE (k.val + 1) 4).after k.val) := by
  rw [exec_jobResumable, execJobResumable, onBivouac_of_awake up awake, if_pos hjs]

variable (hr : (s.ctx k.val).refill = some r) (hjs : s.val JOB_STATE (k.val + 1) = 2)
include hr hjs

/-- A chunk of a refill under way that is not verified yet is compared, taken or left, by what of it is written and in flight. -/
theorem exec_refillChunkDone_of_unverified {chunk : Nat} (lt : chunk < r.chunks) (unverified : r.verified.contains chunk = false)
    (h : SlotHead) (rep : Replica) (bytes : List Byte) :
    exec (.refillChunkDone k chunk h rep bytes) s = .next (State.after
      (if r.restored.contains chunk = true then s.compareChunk k.val chunk r rep
        else if r.inFlight.contains chunk = true then s.takeChunk k.val chunk r h bytes else s) k.val) := by
  simp only [exec_refillChunkDone, execRefillChunkDone, onBivouac_of_awake up awake, hr, hjs, Nat.not_le.mpr lt, unverified,
    ne_eq, not_true_eq_false, Bool.false_eq_true, or_self, if_false]

theorem exec_refillChunkDone_of_inFlight {chunk : Nat} (lt : chunk < r.chunks) (unverified : r.verified.contains chunk = false)
    (unwritten : r.restored.contains chunk = false) (flying : r.inFlight.contains chunk = true) (h : SlotHead) (rep : Replica) (bytes : List Byte) :
    exec (.refillChunkDone k chunk h rep bytes) s = .next ((s.takeChunk k.val chunk r h bytes).after k.val) := by
  rw [exec_refillChunkDone_of_unverified up awake hr hjs lt unverified, if_neg (Bool.eq_false_iff.mp unwritten),
    if_pos flying]

theorem exec_refillChunkDone_of_written {chunk : Nat} (lt : chunk < r.chunks) (unverified : r.verified.contains chunk = false)
    (written : r.restored.contains chunk = true) (h : SlotHead) (rep : Replica) (bytes : List Byte) :
    exec (.refillChunkDone k chunk h rep bytes) s = .next ((s.compareChunk k.val chunk r rep).after k.val) := by
  rw [exec_refillChunkDone_of_unverified up awake hr hjs lt unverified, if_pos written]

end

/-! ### The source of a refill fails -/

theorem exec_refillSourceFail (k : CtxId) (next lowered : Option Nat) (s : State) :
    exec (.refillSourceFail k next lowered) s = execRefillSourceFail k next lowered s := by
  rfl

/-- R482: a partner that fails while a member reads from it enters the refill queue. -/
def State.failSource (s : State) (k : Nat) (r : Refill) : State := if r.source = 0 then s.failMember k (s.biv k).prank else s

section
variable {s : State} {k : CtxId} {r : Refill} (up : s.up = true) (awake : s.safeHold = false)
  (hr : (s.ctx k.val).refill = some r) (hjs : s.val JOB_STATE (k.val + 1) = 2)
include up awake hr hjs

theorem exec_refillSourceFail_some (t : Nat) (lowered : Option Nat) :
    exec (.refillSourceFail k (some t) lowered) s = .next (State.after
      ((s.failSource k.val r).updCtx k.val fun c => { c with refill := some { r with source := t, moved := [] } }) k.val) := by
  simp only [exec_refillSourceFail, execRefillSourceFail, onBivouac_of_awake up awake, hr, hjs, ne_eq, not_true_eq_false,
    false_and, if_false, if_true, State.failSource]

/-- R481: a lower generation starts the refill afresh, with the member paused. -/
theorem exec_refillSourceFail_none_some (g : Nat) :
    exec (.refillSourceFail k none (some g)) s = .next (State.after
      ((((s.failSource k.val r).event 0x0034 (some k.val) 8 (evData2 r.g g)).startRefill k.val g r.source).setVal JOB_STATE (k.val + 1) 1) k.val) := by
  simp only [exec_refillSourceFail, execRefillSourceFail, onBivouac_of_awake up awake, hr, hjs, ne_eq, not_true_eq_false,
    false_and, if_false, if_true, State.failSource]

theorem exec_refillSourceFail_none_none :
    exec (.refillSourceFail k none none) s = .next (State.after
      ((((s.failSource k.val r).updCtx k.val fun c => { c with refill := none }).setVal JOB_STATE (k.val + 1) 1).event 0x0035 (some k.val) 8 0)
      k.val) := by
  simp only [exec_refillSourceFail, execRefillSourceFail, onBivouac_of_awake up awake, hr, hjs, ne_eq, not_true_eq_false,
    false_and, if_false, State.failSource]

end

/-- Settles O44: each command takes the branch of `pairNow`, `restoreNow`, `takeChunk`, `compareChunk` or the source's failure that its premises name. -/
theorem pairingRestoreAndRefillsComplete : Obligations.PairingRestoreAndRefillsComplete := by
  refine ⟨fun s k e up => ⟨fun missing => ?missing, fun g p hg hp => ?pair, fun loaded fresh head => ?restore, fun unloaded => ?unloaded⟩,
    fun s k up awake => ⟨exec_jobResumable_of_verified up awake, fun r hr hjs => ⟨fun chunk h rep bytes lt unverified =>
      ⟨fun unwritten flying => ?take, fun written all rank unsettled => ?compare⟩, ?source⟩⟩⟩
  case missing => rw [exec_pairGo_of_up up, State.pairNow_of_missing missing]
  case pair =>
    refine ⟨fun h => ?_, fun agree apart => ?_, fun agree same both => ?_, fun agree same both => ?_⟩
    · rw [exec_pairGo_of_up up, State.pairNow_of_not_agrees hg hp h]
    · rw [exec_pairGo_of_up up, State.pairNow_of_agrees hg hp agree, if_pos apart]
    · rw [exec_pairGo_of_up up, State.pairNow_of_agrees hg hp agree, if_neg (not_not_intro same), if_pos both]
    · rw [exec_pairGo_of_up up, State.pairNow_of_agrees hg hp agree, if_neg (not_not_intro same), if_neg both]
  case restore =>
    refine ⟨fun asked reach => ?_, fun asked unreached => ?_, fun g asked hmax => ?_⟩ <;> rw [exec_restoreGo_of_up up]
    · rw [State.restoreNow_of_asked loaded fresh head asked, if_pos reach]
    · rw [State.restoreNow_of_asked loaded fresh head asked, if_neg (Bool.eq_false_iff.mp unreached)]
    · rw [State.restoreNow_of_highest loaded fresh head asked hmax]
  case unloaded => rw [exec_restoreGo_of_up up, State.restoreNow_of_not_loaded unloaded]
  case take =>
    refine ⟨fun fits => ?_, fun checked misfit => ?_⟩ <;> rw [exec_refillChunkDone_of_inFlight up awake hr hjs lt unverified unwritten flying]
    · rw [State.takeChunk_of_fits fits, Refill.written]
    · rw [State.takeChunk_of_misfit checked misfit]
  case compare =>
    refine ⟨fun same => ?_, fun differs first => ?_, fun differs again => ?_⟩ <;>
      rw [exec_refillChunkDone_of_written up awake hr hjs lt unverified written, State.compareChunk_of_replica all rank unsettled]
    · rw [if_pos same]
    · rw [if_neg differs, if_neg (Bool.eq_false_iff.mp first)]
    · rw [if_neg differs, if_pos again]
  case source =>
    exact ⟨exec_refillSourceFail_some up awake hr hjs, exec_refillSourceFail_none_some up awake hr hjs,
      exec_refillSourceFail_none_none up awake hr hjs⟩

end Sys2Proof.Machine

/-! Firmware submissions (R564 to R568), the activation tag (R570), the owner lock, key and tokens (R578 to R580) and attestation (R543, R583): each
command answers the next state that its acceptance, or the rule that refuses it, gives. -/

namespace Sys2Proof

/-- A number that fits in `n` bytes is read back from its bytes. -/
theorem Bits.ofBytes_toBytes {n x : Nat} (h : x < 256 ^ n) : Bits.ofBytes (Bits.toBytes n x) = x := by
  induction n generalizing x with
  | zero => simpa [Bits.ofBytes, Bits.toBytes, eq_comm] using h
  | succ n ih =>
    have hq : x / 256 < 256 ^ n := Nat.div_lt_of_lt_mul (by rwa [pow_succ'] at h)
    rw [Bits.toBytes, Bits.ofBytes, ih hq, BitVec.toNat_ofNat]
    exact Nat.mod_add_div x 256

/-- Values written one after another at distinct places are each read back. -/
theorem Tab.get_foldl_set {α β : Type} [DecidableEq α] (d : α) (t : Tab α) {place : Nat → Nat} (inj : place.Injective) (enc : β × Nat → α)
    (xs : List β) {j : Nat} (hj : j < xs.length) :
    Tab.get d (xs.zipIdx.foldl (fun t x => Tab.set d t (place x.2) (enc x)) t) (place j) = enc (xs[j], j) := by
  induction xs using List.reverseRecOn with
  | nil => simp at hj
  | append_singleton xs x ih =>
    simp only [List.zipIdx_append, List.foldl_append, List.zipIdx_singleton, List.foldl_cons, List.foldl_nil, Nat.zero_add]
    by_cases last : j = xs.length
    · subst last
      simp
    · have before : j < xs.length := by simp at hj; omega
      rw [Tab.get_set_ne d _ _ fun h => last (inj h), ih before, List.getElem_append_left before]

end Sys2Proof

namespace Sys2Proof.Machine

open Sys2Proof.WB

/-! ### Bytes of a BLOB after a write -/

theorem State.blobByte_setBlob_same (s : State) (e sub off : Nat) {bs : List Byte} {i : Nat} (hi : i < bs.length) :
    (s.setBlob e sub off bs).blobByte e sub (off + i) = bs[i] := by
  have inj : (fun j => blobKey e sub (off + j)).Injective := fun a b h => by simpa [blobKey] using h
  have stored := Tab.get_foldl_set 0 s.wbb inj (fun x => x.1 ^^^ BitVec.ofNat 8 (Dict.blobDflt e sub (off + x.2))) bs hi
  simp only [State.blobByte, State.setBlob, stored, BitVec.xor_assoc, BitVec.xor_self, BitVec.xor_zero]

theorem State.blob_setBlob_same (s : State) (e sub off : Nat) (bs : List Byte) : (s.setBlob e sub off bs).blob e sub off bs.length = bs := by
  refine List.ext_getElem (by simp [State.blob]) fun i _ hi => ?_
  simp [State.blob, State.blobByte_setBlob_same s e sub off hi]

/-- R578: 1,312 zero bytes empty the owner key. -/
theorem State.ownerKeyEmpty_setBlob_zeros (s : State) : (s.setBlob OWNER_KEY 0 0 (List.replicate 1312 0)).ownerKeyEmpty = true := by
  have zeros := s.blob_setBlob_same OWNER_KEY 0 0 (List.replicate 1312 0)
  rw [List.length_replicate] at zeros
  rw [State.ownerKeyEmpty, State.ownerKey, zeros, List.all_replicate]
  simp

/-! ### The checks of the firmware rules -/

/-- A command that no request of the Waybill carries leaves its answer in the state. -/
theorem State.answerTo_none (s : State) (code : Nat) : s.answerTo none code = { s with answer := code } := by
  rfl

section
variable (s : State) (entry : Nat) (f : State → State)

theorem State.fwWrite_some (c : Nat) : s.fwWrite entry (some c) none f = { s.fwRefuse c entry with answer := 0x10 } := by
  rfl

theorem State.fwWrite_none : s.fwWrite entry none none f = { f s with answer := 0 } := by
  rfl

end

theorem between_one_two_iff (n : Nat) : between 1 2 n = true ↔ n = 1 ∨ n = 2 := by
  simp only [between, Bool.and_eq_true, decide_eq_true_eq]
  omega

/-- R579, R580: a token is good when none of its checks fails. -/
theorem State.tokenBad_eq_false_iff (s : State) (t : List Byte) (e : Env) :
    s.tokenBad t e = false ↔ t.length = 2452 ∧ s.ownerKeyEmpty = false ∧ Bits.ofBytes (t.take 16) = s.val SERIAL 0
      ∧ s.fw.counter < Bits.ofBytes ((t.drop 16).take 8)
      ∧ (Bits.ofBytes ((t.drop 24).take 1) = 1 ∨ Bits.ofBytes ((t.drop 24).take 1) = 2) ∧ Bits.ofBytes ((t.drop 25).take 7) = 0
      ∧ Env.verifies e s.ownerKey (t.take 32) ((t.drop 32).take 2420) = true := by
  simp only [State.tokenBad, Bool.or_eq_false_iff, bne_eq_false_iff_eq, decide_eq_false_iff_not, Nat.not_le, Bool.not_eq_false',
    between_one_two_iff, List.drop_zero, and_assoc]

/-! ### The report -/

/-- Table 18-8: the nonce stands behind the two words of the version and the length, and 232 bytes follow it. -/
theorem State.reportBody_around_nonce (s : State) (nonce : Nat) :
    ∃ head tail, head.length = 8 ∧ tail.length = 232 ∧ s.reportBody nonce = head ++ (Bits.toBytes 32 nonce ++ tail) := by
  unfold State.reportBody
  extract_lets f b
  have hb : ∀ n x, (b n x).length = n := Bits.length_toBytes
  have hnonce : Bits.toBytes 32 nonce = b 32 nonce := rfl
  clear_value b
  rw [hnonce]
  refine ⟨b 4 1 ++ b 4 272, _, ?_, ?_, by simp only [List.append_assoc]; rfl⟩ <;> simp only [List.length_append, hb]

theorem State.length_reportBody (s : State) (nonce : Nat) : (s.reportBody nonce).length = 272 := by
  obtain ⟨head, tail, hhead, htail, body⟩ := s.reportBody_around_nonce nonce
  simp [body, hhead, htail]

theorem State.nonce_of_reportBody (s : State) (nonce : Nat) : ((s.reportBody nonce).drop 8).take 32 = Bits.toBytes 32 nonce := by
  obtain ⟨head, tail, hhead, -, body⟩ := s.reportBody_around_nonce nonce
  rw [body, List.drop_left' hhead, List.take_left' (Bits.length_toBytes 32 nonce)]

/-! ### The commands -/

section
variable {s : State} (up : s.up = true)
include up

theorem exec_fbGo_of_up (off len : Nat) (e : Env) : exec (.fbGo off len e) s = .next (s.goFb off len e) := by
  rw [exec, execFbGo, whenUp_of_up up]

theorem exec_actTag_of_up (v : W64) : exec (.actTag v) s = .next (s.goActTag v.toNat none) := by
  rw [exec, execActTag, whenUp_of_up up]

theorem exec_ownerToken_of_up (token : List Byte) (e : Env) : exec (.ownerToken token e) s = .next (s.goToken token e none) := by
  rw [exec, execOwnerToken, whenUp_of_up up]

theorem exec_ownerKey_of_up (key : List Byte) : exec (.ownerKey key) s = .next (s.goOwnerKey key none) := by
  rw [exec, execOwnerKey, whenUp_of_up up]

theorem exec_attestNonce_of_up (nonce : BitVec 256) : exec (.attestNonce nonce) s = .next (s.goAttest nonce.toNat none) := by
  rw [exec, execAttestNonce, whenUp_of_up up]

end

/-- Settles O53: a submission's code decides whether it is refused, each write takes the branch of its check, and the place of the nonce in the report
is that of Table 18-8. -/
theorem firmwareCommandsComplete : Obligations.FirmwareCommandsComplete := by
  refine fun s e up => ⟨fun off len c w submitted => ?submission,
    fun v => ⟨fun unlocked staged => ?tagged, fun locked => ?locked, fun unlocked unstaged => ?unstaged⟩,
    fun token => ⟨fun good => ?goodToken, fun bad => ?badToken, s.tokenBad_eq_false_iff token e, rfl⟩,
    fun key => ⟨fun noService => ?noService, fun service unlocked whole => ?keyWritten, fun service refused => ?keyRefused,
      s.ownerKeyEmpty_setBlob_zeros⟩,
    fun nonce => ⟨_, exec_attestNonce_of_up up nonce, rfl, s.length_reportBody _, ?nonce⟩⟩
  case submission => simp only [exec_fbGo_of_up up, State.goFb, submitted]
  case tagged =>
    have allowed : s.actTagRefused = none := by simp [State.actTagRefused, unlocked, staged]
    rw [exec_actTag_of_up up, State.goActTag, allowed, State.fwWrite_none]
  case locked =>
    have refused : s.actTagRefused = some 0x0A := by simp [State.actTagRefused, locked]
    rw [exec_actTag_of_up up, State.goActTag, refused, State.fwWrite_some]
  case unstaged =>
    have refused : s.actTagRefused = some 0x0B := by simp [State.actTagRefused, unlocked, unstaged]
    rw [exec_actTag_of_up up, State.goActTag, refused, State.fwWrite_some]
  case goodToken => rw [exec_ownerToken_of_up up, State.goToken, if_neg (Bool.eq_false_iff.mp good), State.fwWrite_none]
  case badToken => rw [exec_ownerToken_of_up up, State.goToken, if_pos bad, State.fwWrite_some]
  case noService => rw [exec_ownerKey_of_up up, State.goOwnerKey, if_neg (Bool.eq_false_iff.mp noService), State.answerTo_none]
  case keyWritten =>
    have allowed : ¬ (s.fw.lock = true ∨ key.length ≠ 1312) := by simp [unlocked, whole]
    rw [exec_ownerKey_of_up up, State.goOwnerKey, if_pos service, if_neg allowed, State.fwWrite_none]
  case keyRefused => rw [exec_ownerKey_of_up up, State.goOwnerKey, if_pos service, if_pos refused, State.fwWrite_some]
  case nonce => rw [State.nonce_of_reportBody, Bits.ofBytes_toBytes nonce.isLt]

end Sys2Proof.Machine

/-! The anti-rollback version (R574 to R576): what every command keeps of it, the end of a TRIAL image's start, and the refused rollback. -/

namespace Sys2Proof.Machine

open Sys2Proof.WB

/-! ### What a command keeps of the firmware -/

/-- Every command but those of the TAP and the loss of power keeps what `Kept` names. -/
theorem exec_kept {i : Instr} {s t : State} (notTap : tapCommand i = false) (notLoss : i ≠ .powerFailDetect) (h : exec i s = .next t) : Kept s t := by
  cases i with
  | nop => exact execNop_kept (h := h)
  | halt => exact execHalt_kept (h := h)
  | loop => exact execLoop_kept (h := h)
  | br => exact execBr_kept (h := h)
  | brc => exact execBrc_kept (h := h)
  | bsw => exact execBsw_kept (h := h)
  | wait => exact execWait_kept (h := h)
  | waitmin => exact execWaitmin_kept (h := h)
  | mpadv => exact execMpadv_kept (h := h)
  | mpread => exact execMpread_kept (h := h)
  | ridge => exact execRidge_kept (h := h)
  | bdef => exact execBdef_kept (h := h)
  | give => exact execGive_kept (h := h)
  | take => exact execTake_kept (h := h)
  | brel => exact execBrel_kept (h := h)
  | li => exact execLi_kept (h := h)
  | sop => exact execSop_kept (h := h)
  | sld => exact execSld_kept (h := h)
  | sst => exact execSst_kept (h := h)
  | darm => exact execDarm_kept (h := h)
  | drearm => exact execDrearm_kept (h := h)
  | dgo => exact execDgo_kept (h := h)
  | pref => exact execPref_kept (h := h)
  | dstop => exact execDstop_kept (h := h)
  | dstat => exact execDstat_kept (h := h)
  | mm => exact execMm_kept (h := h)
  | attn => exact execAttn_kept (h := h)
  | vadd => exact execVadd_kept (h := h)
  | vsub => exact execVsub_kept (h := h)
  | vmul => exact execVmul_kept (h := h)
  | vfma => exact execVfma_kept (h := h)
  | vdiv => exact execVdiv_kept (h := h)
  | vsqrt => exact execVsqrt_kept (h := h)
  | vrem => exact execVrem_kept (h := h)
  | vrint => exact execVrint_kept (h := h)
  | vmin => exact execVmin_kept (h := h)
  | vmax => exact execVmax_kept (h := h)
  | vcmp => exact execVcmp_kept (h := h)
  | vsel => exact execVsel_kept (h := h)
  | vcvt => exact execVcvt_kept (h := h)
  | vtrn => exact execVtrn_kept (h := h)
  | viop => exact execViop_kept (h := h)
  | vld => exact execVld_kept (h := h)
  | vst => exact execVst_kept (h := h)
  | vxadd => exact execVxadd_kept (h := h)
  | vtid => exact execVtid_kept (h := h)
  | vbcast => exact execVbcast_kept (h := h)
  | vcfg => exact execVcfg_kept (h := h)
  | vflags => exact execVflags_kept (h := h)
  | vbenc => exact execVbenc_kept (h := h)
  | ret => exact execRet_kept (h := h)
  | norm => exact execNorm_kept (h := h)
  | nsq => exact execNsq_kept (h := h)
  | cens => exact execCens_kept (h := h)
  | usgd => exact execUsgd_kept (h := h)
  | umom => exact execUmom_kept (h := h)
  | uadam => exact execUadam_kept (h := h)
  | ufact => exact execUfact_kept (h := h)
  | instructionRetire => exact execInstructionRetire_kept (h := h)
  | milepostWaitDone => exact execMilepostWaitDone_kept (h := h)
  | takeGrant => exact execTakeGrant_kept (h := h)
  | ridgeComplete => exact execRidgeComplete_kept (h := h)
  | tileSlotWaitDone => exact execTileSlotWaitDone_kept (h := h)
  | bufferTableRecorded => exact execBufferTableRecorded_kept (h := h)
  | uIssueWaitDone => exact execUIssueWaitDone_kept (h := h)
  | descriptorSlotReady => exact execDescriptorSlotReady_kept (h := h)
  | segmentEnd => exact execSegmentEnd_kept (h := h)
  | replayPassEnd => exact execReplayPassEnd_kept (h := h)
  | tileReplayDone => exact execTileReplayDone_kept (h := h)
  | transferIssue => exact execTransferIssue_kept (h := h)
  | transferComplete => exact execTransferComplete_kept (h := h)
  | pageMapped => exact execPageMapped_kept (h := h)
  | pageWaitLimitExpire => exact execPageWaitLimitExpire_kept (h := h)
  | prefConfirm => exact execPrefConfirm_kept (h := h)
  | milepostAdvanceArrive => exact execMilepostAdvanceArrive_kept (h := h)
  | eauAddApply => exact execEauAddApply_kept (h := h)
  | gstoreClearDone => exact execGstoreClearDone_kept (h := h)
  | drainLimitExpire => exact execDrainLimitExpire_kept (h := h)
  | caravanVote => exact execCaravanVote_kept (h := h)
  | caravanVerdict => exact execCaravanVerdict_kept (h := h)
  | commitFlashWriteDone => exact execCommitFlashWriteDone_kept (h := h)
  | voteLimitExpire => exact execVoteLimitExpire_kept (h := h)
  | fieldTestRotation => exact execFieldTestRotation_kept (h := h)
  | coreSwap => exact execCoreSwap_kept (h := h)
  | fieldTestDone => exact execFieldTestDone_kept (h := h)
  | ftOverdue => exact execFtOverdue_kept (h := h)
  | watchdogScan => exact execWatchdogScan_kept (h := h)
  | powerThermalCheck => exact execPowerThermalCheck_kept (h := h)
  | scrubLine => exact execScrubLine_kept (h := h)
  | rowSpare => exact execRowSpare_kept (h := h)
  | cxlLinkDown => exact execCxlLinkDown_kept (h := h)
  | mapPresent => exact execMapPresent_kept (h := h)
  | caravanTrigger => exact execCaravanTrigger_kept (h := h)
  | caravanStart => exact execCaravanStart_kept (h := h)
  | caravanDeadlineExpire => exact execCaravanDeadlineExpire_kept (h := h)
  | lateContributionReady => exact execLateContributionReady_kept (h := h)
  | caravanSeg => exact execCaravanSeg_kept (h := h)
  | caravanBit => exact execCaravanBit_kept (h := h)
  | caravanRes => exact execCaravanRes_kept (h := h)
  | rotationSendTrigger => exact execRotationSendTrigger_kept (h := h)
  | rotationReleaseTrigger => exact execRotationReleaseTrigger_kept (h := h)
  | caravanRot => exact execCaravanRot_kept (h := h)
  | caravanRel => exact execCaravanRel_kept (h := h)
  | caravanSend => exact execCaravanSend_kept (h := h)
  | caravanRadd => exact execCaravanRadd_kept (h := h)
  | caravanAck => exact execCaravanAck_kept (h := h)
  | caravanSample => exact execCaravanSample_kept (h := h)
  | placeGo => exact execPlaceGo_kept (h := h)
  | placementDrained => exact execPlacementDrained_kept (h := h)
  | migDrainLimitExpire => exact execMigDrainLimitExpire_kept (h := h)
  | drawbarDataFrame => exact execDrawbarDataFrame_kept (h := h)
  | drawbarCreditFrame => exact execDrawbarCreditFrame_kept (h := h)
  | drawbarNakFrame => exact execDrawbarNakFrame_kept (h := h)
  | drawbarIdleFrame => exact execDrawbarIdleFrame_kept (h := h)
  | drawbarIdleTimer => exact execDrawbarIdleTimer_kept (h := h)
  | drawbarRxTimeout => exact execDrawbarRxTimeout_kept (h := h)
  | drawbarResendLimit => exact execDrawbarResendLimit_kept (h := h)
  | drawbarLaneLockLoss => exact execDrawbarLaneLockLoss_kept (h := h)
  | drawbarLightDetect => exact execDrawbarLightDetect_kept (h := h)
  | drawbarTrainingRetry => exact execDrawbarTrainingRetry_kept (h := h)
  | drawbarTrainingFrame => exact execDrawbarTrainingFrame_kept (h := h)
  | bypassLatched => exact execBypassLatched_kept (h := h)
  | portCfg => exact execPortCfg_kept (h := h)
  | bypassForce => exact execBypassForce_kept (h := h)
  | routeGo => exact execRouteGo_kept (h := h)
  | ingestGo => exact execIngestGo_kept (h := h)
  | storageReadComplete => exact execStorageReadComplete_kept (h := h)
  | shardRetryTimer => exact execShardRetryTimer_kept (h := h)
  | decodeComplete => exact execDecodeComplete_kept (h := h)
  | genStageDone => exact execGenStageDone_kept (h := h)
  | genCopyDone => exact execGenCopyDone_kept (h := h)
  | partnerTimeout => exact execPartnerTimeout_kept (h := h)
  | pairGo => exact execPairGo_kept (h := h)
  | restoreGo => exact execRestoreGo_kept (h := h)
  | refillChunkDone => exact execRefillChunkDone_kept (h := h)
  | refillSourceFail => exact execRefillSourceFail_kept (h := h)
  | salvageGo => exact execSalvageGo_kept (h := h)
  | holdupChargeLow => exact execHoldupChargeLow_kept (h := h)
  | powerFailDetect => exact absurd rfl notLoss
  | presentNOpen => exact execPresentNOpen_kept (h := h)
  | powerOn => exact execPowerOn_kept (h := h)
  | modResetAssert => exact execModResetAssert_kept (h := h)
  | modResetRelease => exact execModResetRelease_kept (h := h)
  | trialTimeout => exact execTrialTimeout_kept (h := h)
  | restartGo => exact execRestartGo_kept (h := h)
  | shEnter => exact execShEnter_kept (h := h)
  | shExit => exact execShExit_kept (h := h)
  | wbGo => exact execWbGo_kept (h := h)
  | mgFrameReceive => exact execMgFrameReceive_kept (h := h)
  | wbRead => exact execWbRead_kept (h := h)
  | wbReadBlock => exact execWbReadBlock_kept (h := h)
  | wbWrite => exact execWbWrite_kept (h := h)
  | wbTxnOpen => exact execWbTxnOpen_kept (h := h)
  | wbWriteBlock => exact execWbWriteBlock_kept (h := h)
  | wbTxnApply => exact execWbTxnApply_kept (h := h)
  | wbTxnTimeout => exact execWbTxnTimeout_kept (h := h)
  | hostMpWindowWrite => exact execHostMpWindowWrite_kept (h := h)
  | evConsWrite => exact execEvConsWrite_kept (h := h)
  | fbGo => exact execFbGo_kept (h := h)
  | actTag => exact execActTag_kept (h := h)
  | ownerToken => exact execOwnerToken_kept (h := h)
  | ownerKey => exact execOwnerKey_kept (h := h)
  | attestNonce => exact execAttestNonce_kept (h := h)
  | pitch => exact execPitch_kept (h := h)
  | pitchApply => exact execPitchApply_kept (h := h)
  | ctxOpenGo => exact execCtxOpenGo_kept (h := h)
  | loadGo => exact execLoadGo_kept (h := h)
  | startGo => exact execStartGo_kept (h := h)
  | saveGo => exact execSaveGo_kept (h := h)
  | resumeGo => exact execResumeGo_kept (h := h)
  | teardownGo => exact execTeardownGo_kept (h := h)
  | vfDisable => exact execVfDisable_kept (h := h)
  | abortGo => exact execAbortGo_kept (h := h)
  | shareGo => exact execShareGo_kept (h := h)
  | postRearm => exact execPostRearm_kept (h := h)
  | stepGroup => exact execStepGroup_kept (h := h)
  | flrVf => exact execFlrVf_kept (h := h)
  | flrPf0 => exact execFlrPf0_kept (h := h)
  | hostHotReset => exact execHostHotReset_kept (h := h)
  | hlPerstN => exact execHlPerstN_kept (h := h)
  | tapReset => cases notTap
  | extest => cases notTap
  | idcode => cases notTap
  | samplePreload => cases notTap
  | clamp => cases notTap
  | highz => cases notTap
  | extestPulse => cases notTap
  | extestTrain => cases notTap
  | dieSelect => cases notTap
  | intScan => cases notTap
  | bypass => cases notTap
  | tracesLinkFailure => exact execTracesLinkFailure_kept (h := h)
  | vfEnable => exact execVfEnable_kept (h := h)
  | storageReadTimeout => exact execStorageReadTimeout_kept (h := h)
  | jobResumable => exact execJobResumable_kept (h := h)

theorem tapDo_still {ir : BitVec 8} {s t : State} {ok : Bool} {f : Tap → Tap} (h : tapDo ir s ok f = .next t) :
    t.still = { s.still with tap := t.tap } := by
  unfold tapDo at h
  split at h <;> cases h <;> rfl

theorem execTapReset_still {s t : State} (h : execTapReset s = .next t) : t.still = { s.still with tap := t.tap } := by
  unfold execTapReset at h
  split at h <;> cases h <;> rfl

/-- The pins' lanes take free values, which `still` does not hold. -/
theorem execSamplePreload_still {cells : List Bool} {s t : State} (h : execSamplePreload cells s = .next t) :
    t.still = { s.still with tap := t.tap } := by
  have hs := tapDo_still h
  split at hs <;> exact hs

/-- A scan also writes the scanned dies' counters. -/
theorem execIntScan_still {bits : List Bool} {s t : State} (h : execIntScan bits s = .next t) : t.still = { s.still with tap := t.tap } := by
  unfold execIntScan at h
  split at h
  · split at h
    · extract_lets new u at h
      have hu : u.still = s.still := still_foldl (fun _ _ => State.setVal_still ..) rfl
      clear_value u
      cases h
      rw [← hu]
      rfl
    · cases h; rfl
  · cases h; rfl

/-- A command of the TAP changes nothing that `still` holds but the TAP. -/
theorem exec_still_of_tapCommand {i : Instr} {s t : State} (tap : tapCommand i = true) (h : exec i s = .next t) :
    t.still = { s.still with tap := t.tap } := by
  cases i with
  | tapReset => exact execTapReset_still h
  | samplePreload => exact execSamplePreload_still h
  | intScan => exact execIntScan_still h
  | extest | idcode | clamp | highz | extestPulse | extestTrain | dieSelect | bypass =>
    simp only [exec, execExtest, execIdcode, execClamp, execHighz, execExtestPulse, execExtestTrain, execDieSelect, execBypass] at h
    exact tapDo_still h
  | _ => cases tap

/-- No command lowers the anti-rollback version or the owner counter, or touches the queue of waiting commands. -/
theorem exec_keeps_versions_and_queue {i : Instr} {s t : State} (h : exec i s = .next t) :
    s.fw.arb ≤ t.fw.arb ∧ s.fw.counter ≤ t.fw.counter ∧ t.pending = s.pending := by
  have of_still {p : Tap} (hk : t.still = { s.still with tap := p }) :
      s.fw.arb ≤ t.fw.arb ∧ s.fw.counter ≤ t.fw.counter ∧ t.pending = s.pending :=
    ⟨(congrArg Still.arb hk).ge, (congrArg Still.counter hk).ge, congrArg Still.pending hk⟩
  by_cases tap : tapCommand i = true
  · exact of_still (exec_still_of_tapCommand tap h)
  · by_cases loss : i = .powerFailDetect
    · subst loss
      exact of_still (execPowerFailDetect_still s h)
    · have hk := exec_kept (Bool.eq_false_iff.mpr tap) loss h
      exact ⟨hk.arb, hk.counter, hk.pending⟩

/-- R576: a step runs a command or lets time pass, and neither lowers FW_ARB. -/
theorem step_arb_le {s t : State} (h : step s = .next t) : s.fw.arb ≤ t.fw.arb := by
  unfold step at h
  split at h
  · cases h
    exact (tick_kept s).arb
  · exact (exec_keeps_versions_and_queue h).1

/-! ### The end of a start -/

theorem State.deliver_fw (s : State) (fn : Nat) (r : BitVec 512) : (s.deliver fn r).fw = s.fw := by
  unfold State.deliver
  simp only [State.emit_fw, apply_ite State.fw, ite_self]

theorem State.ringEvent_fw (s : State) (seq : Nat) (r : BitVec 512) : (s.ringEvent seq r).fw = s.fw := by
  unfold State.ringEvent
  simp only [State.emit_fw, apply_ite State.fw, ite_self]

theorem State.event_fw (s : State) (code : Nat) (ctx : Option Nat) (die data : Nat) : (s.event code ctx die data).fw = s.fw := by
  unfold State.event
  rw [State.ringEvent_fw]
  cases ctx <;> simp only [State.deliver_fw, apply_ite State.fw, ite_self]

theorem State.startEvents_fw (s : State) (l : List (Nat × Nat)) : (s.startEvents l).fw = s.fw := by
  induction l generalizing s with
  | nil => rfl
  | cons e l ih => exact (ih _).trans (State.event_fw ..)

theorem Fw.active_setActive (f : Fw) (x : FwSlot) : (f.setActive x).active = x := by
  cases h : f.active1 <;> simp [Fw.active, Fw.setActive, h]

theorem Fw.other_setActive (f : Fw) (x : FwSlot) : (f.setActive x).other = f.other := by
  cases h : f.active1 <;> simp [Fw.other, Fw.setActive, h]

/-- R574: a TRIAL slot becomes ACTIVE at step 8, and FW_ARB rises to its ARB_SET. -/
theorem State.startEnd_fw_of_trial {s : State} (trial : s.fw.active.st = .trial) (cause tag : Nat) (ev : List (Nat × Nat)) :
    (s.startEnd cause tag ev).fw =
      { s.fw.setActive { s.fw.active with st := .active } with arb := max s.fw.arb s.fw.active.arbSet } := by
  simp only [State.startEnd, State.startEvents_fw, if_pos trial]

/-! ### The refused rollback -/

theorem Fw.otherGood_of_version_lt_arb {f : Fw} (below : f.other.version < f.arb) : f.otherGood = false := by
  simp [Fw.otherGood, below]

/-- R559: RESTART_GO outside Safe Hold asks that every context is FREE. -/
theorem State.restartRefused_of_free {s : State} (free : s.safeHold = true ∨ ∀ k < 16, (s.ctx k).st = .free) :
    s.restartRefused = if s.fw.startTag = anyTag then (if s.fw.lock then some 0x0A else if s.fw.otherGood then none else some 0x0C) else none := by
  refine if_neg ?_
  simpa [or_iff_not_imp_left] using free

theorem exec_restartGo_of_refused {s : State} {c : Nat} (up : s.up = true) (refused : s.restartRefused = some c) (i : StartIn) :
    exec (.restartGo i) s = .next { s.fwRefuse c RESTART_GO with answer := 0x10 } := by
  rw [exec, execRestartGo, whenUp_of_up up, State.goRestart, refused]
  rfl

/-- Settles O56: FW_ARB falls in no command and in no tick, step 8 of a TRIAL start raises it past the other slot's version, and a rollback to a version
below it has no slot to run. -/
theorem fwArbNeverFalls : Obligations.FwArbNeverFalls := by
  refine ⟨fun s t a low h => low.trans (step_arb_le h), fun s cause tag ev trial above => ?_, fun s i up free start unlocked below => ?_⟩
  · rw [State.startEnd_fw_of_trial trial]
    exact ⟨congrArg FwSlot.st (Fw.active_setActive ..), congrArg FwSlot.version (Fw.other_setActive ..),
      (congrArg FwSlot.version (Fw.other_setActive ..)).trans_lt (above.trans_le (le_max_right ..))⟩
  · refine exec_restartGo_of_refused up ?_ i
    simp [State.restartRefused_of_free free, start, unlocked, Fw.otherGood_of_version_lt_arb below]

end Sys2Proof.Machine

/-! Steps of the whole machine: the front command, the tick of an idle part, what no step undoes, and the state after reset. -/

namespace Sys2Proof.Machine

open Sys2Proof.WB

/-! ### What a step keeps -/

/-- A step that is no command of the TAP and no loss of power keeps what `Kept` names, but for the front of the queue. -/
theorem step_tap {s t : State} (other : ∀ c rest, s.pending = c :: rest → tapCommand c = false ∧ c ≠ .powerFailDetect) (h : step s = .next t) :
    t.tap = s.tap ∨ t.tap = s.tap.release := by
  unfold step at h
  split at h
  · cases h
    exact (tick_kept s).tap
  · obtain ⟨notTap, notLoss⟩ := other _ _ ‹_›
    exact (exec_kept notTap notLoss h).tap

theorem step_counter_le {s t : State} (h : step s = .next t) : s.fw.counter ≤ t.fw.counter := by
  unfold step at h
  split at h
  · cases h
    exact (tick_kept s).counter
  · exact (exec_keeps_versions_and_queue h).2.1

theorem step_pending {s t : State} (h : step s = .next t) : t.pending = s.pending.drop 1 := by
  unfold step at h
  split at h <;> rename_i hp <;> rw [hp]
  · cases h
    exact (tick_kept s).pending.trans hp
  · exact (exec_keeps_versions_and_queue h).2.2

/-- R580: a token whose counter is not above the last accepted one is refused. -/
theorem State.tokenBad_of_le_counter {s : State} {token : List Byte} (used : Bits.ofBytes ((token.drop 16).take 8) ≤ s.fw.counter) (e : Env) :
    s.tokenBad token e = true := by
  simp [State.tokenBad, used]

/-- Settles O57: the counter never falls, and the check of a token compares the token's counter with it. -/
theorem acceptedTokensAreNeverAcceptedAgain : Obligations.AcceptedTokensAreNeverAcceptedAgain := by
  intro s t token e used h
  have still := used.trans (step_counter_le h)
  exact ⟨still, State.tokenBad_of_le_counter still e⟩

/-- Settles O58: no command and no tick touches the queue of waiting commands. -/
theorem stepsConsumeTheQueueInOrder : Obligations.StepsConsumeTheQueueInOrder :=
  fun _ _ h => step_pending h

/-- Settles O59: every command that is not the TAP's own, but the loss of power, keeps the TAP or releases its pins. -/
theorem onlyTapCommandsChangeTheTap : Obligations.OnlyTapCommandsChangeTheTap :=
  fun _ _ other h => step_tap other h

/-! ### The front command, and time alone -/

/-- Settles O1: it is the second case of `step`. -/
theorem stepRunsTheFrontCommand : Obligations.StepRunsTheFrontCommand := by
  intro c r s h
  simp only [step, h]

/-- With no context command waiting, there is none to carry out. -/
theorem State.runLate_of_late_nil {s : State} (h : s.late = []) : s.runLate = s := by
  obtain ⟨⟩ := s
  subst h
  rfl

theorem State.tickDie_late (s : State) (d n : Nat) : (s.tickDie d n).late = s.late := by
  unfold State.tickDie
  split <;> rfl

theorem State.foldl_tickDie_late (n : Nat → Nat) (l : List Nat) (s : State) : (l.foldl (fun (u : State) d => u.tickDie d (n d)) s).late = s.late := by
  induction l generalizing s with
  | nil => rfl
  | cons d l ih => exact (ih _).trans (State.tickDie_late ..)

/-- R593: the counters of two dies count within 50 ppm of each other. -/
theorem State.dieCounts_le_two (s : State) (d : Nat) : s.dieCounts d ≤ 2 := by
  unfold State.dieCounts
  split <;> omega

theorem State.tick_of_serving {s : State} (up : s.up = true) (keeps : s.revert = false) (idle : s.late = []) :
    s.tick = (List.range 10).foldl (fun (u : State) d => u.tickDie d (s.dieCounts d)) s := by
  have none_waits := (State.foldl_tickDie_late s.dieCounts (List.range 10) s).trans idle
  simp only [State.tick, up, keeps, Bool.not_true, Bool.false_eq_true, if_false, State.runLate_of_late_nil none_waits]

/-- Settles O2: an empty queue leaves the tick, which a part that does not serve has none of and a part with a revert due takes as its start. -/
theorem emptyQueueIdles : Obligations.EmptyQueueIdles := by
  intro s empty
  refine ⟨by simp only [step, empty], fun down => ?_, State.tick_of_serving, if_pos rfl, s.dieCounts_le_two, fun up reverts => ?_⟩
  · simp only [State.tick, down, Bool.not_false, if_true]
  · simp only [State.tick, up, reverts, Bool.not_true, Bool.false_eq_true, if_false, if_true]

/-! ### Reset -/

/-- Settles O60: `State.reset` lists every field that is not at its default. -/
theorem resetState : Obligations.ResetState := by
  refine ⟨rfl, rfl, rfl, rfl, rfl, fun _ => rfl, fun _ => rfl, ?_, rfl, rfl, rfl, rfl, rfl⟩
  simp [State.reset]

end Sys2Proof.Machine

/-! Issue and settling (R165 to R168, R191), and the control, scalar and waiting instructions (Tables 6-4 to 6-8): each settles by the act that its branch
gives. -/

namespace Sys2Proof.Machine

open Sys2Proof.WB

/-! ### What an event leaves -/

/-- `t` is `s` but for the events that have been posted and what has been sent. -/
def State.PostsOnly (t s : State) : Prop := { t with evSeq := s.evSeq, events := s.events, mailboxes := s.mailboxes, out := s.out } = s

theorem State.PostsOnly.refl (s : State) : s.PostsOnly s := rfl

theorem State.PostsOnly.trans {t u s : State} (h : t.PostsOnly u) (g : u.PostsOnly s) : t.PostsOnly s := by
  unfold State.PostsOnly at h g ⊢
  rw [← g, ← h]

theorem State.deliver_postsOnly (s : State) (fn : Nat) (r : BitVec 512) : (s.deliver fn r).PostsOnly s := by
  unfold State.deliver
  dsimp only
  split
  · split <;> rfl
  · rfl

theorem State.ringEvent_postsOnly (s : State) (seq : Nat) (r : BitVec 512) : (s.ringEvent seq r).PostsOnly s := by
  unfold State.ringEvent
  dsimp only
  split <;> rfl

/-- An event is numbered, logged, delivered and sent; nothing else changes (R515 to R517). -/
theorem State.event_postsOnly (s : State) (code : Nat) (ctx : Option Nat) (die data : Nat) : (s.event code ctx die data).PostsOnly s := by
  unfold State.event
  refine (State.ringEvent_postsOnly ..).trans ?_
  have logged (l : List (BitVec 512)) (n : Nat) : State.PostsOnly { s with evSeq := n, events := l } s := rfl
  cases ctx with
  | none => exact (State.deliver_postsOnly ..).trans (logged ..)
  | some k =>
    dsimp only
    split
    · exact (State.deliver_postsOnly ..).trans ((State.deliver_postsOnly ..).trans (logged ..))
    · exact (State.deliver_postsOnly ..).trans (logged ..)

section
variable {t s : State} (h : t.PostsOnly s)
include h

theorem State.PostsOnly.cores : t.cores = s.cores := by
  unfold State.PostsOnly at h
  rw [← h]

theorem State.PostsOnly.core (c : Nat) : t.core c = s.core c := by rw [State.core, h.cores, State.core]
theorem State.PostsOnly.queue (q : QRef) : t.queue q = s.queue q := by rw [State.queue, h.core, State.queue]

end

@[simp] theorem State.event_queue (s : State) (code : Nat) (ctx : Option Nat) (die data : Nat) (q : QRef) :
    (s.event code ctx die data).queue q = s.queue q := (s.event_postsOnly code ctx die data).queue q

/-! ### Halts -/

@[simp] theorem State.setBlob_queue (s : State) (e sub off : Nat) (bs : List Byte) (q : QRef) : (s.setBlob e sub off bs).queue q = s.queue q := rfl
@[simp] theorem State.updCtx_queue (s : State) (k : Nat) (f : Ctx → Ctx) (q : QRef) : (s.updCtx k f).queue q = s.queue q := rfl
@[simp] theorem State.updEpoch_queue (s : State) (k n : Nat) (f : Epoch → Epoch) (q : QRef) : (s.updEpoch k n f).queue q = s.queue q := rfl

/-- A change of the slots of a queue's core leaves the queue. -/
theorem State.updCore_slots_queue (s : State) (q : QRef) (f : Tab DSlot → Tab DSlot) :
    (s.updCore q.core.val fun c => { c with slots := f c.slots }).queue q = s.queue q :=
  State.updCore_queue s q _ fun r => by cases r <;> rfl

/-- R190: a halt leaves its queue HALTED, with its halt record and nothing in flight. -/
theorem State.haltAt_queue (s : State) (q : QRef) (bank : Bool) (pc hc detail addr : Nat) :
    (s.haltAt q bank pc hc detail addr).queue q =
      { s.queue q with
        st := .halted, wait := none, inflight := [], pc := pc, bank := bank
        halt := some { addr := addr, detail := detail, hc := hc, core := q.core.val, ctx := s.ctxOf q, queue := q.queue.num, bank := bank, pc := pc } } := by
  unfold State.haltAt
  extract_lets c k h halted stop slots blob
  have hslots : slots.queue q = halted.queue q := by
    unfold slots
    split
    · exact State.updCore_slots_queue _ q (List.map stop)
    · rfl
  have hblob : blob.queue q = halted.queue q := by
    rw [← hslots]
    unfold blob
    split <;> rfl
  have hq : halted.queue q = _ := State.queue_updQueue_self s q _
  have posted : ∀ d, (blob.event 0x0001 c.ctx d h.toNat).queue q = halted.queue q := fun d => (State.event_queue ..).trans hblob
  refine Eq.trans ?_ hq
  split
  · split
    · exact hblob
    · exact posted _
  · exact posted _

/-- HC-00 squashes nothing. -/
theorem State.haltQ_zero (s : State) (q : QRef) (detail addr : Nat) : s.haltQ q 0 detail addr = s.haltRaw q 0 detail addr := by
  unfold State.haltQ
  dsimp only
  split <;> rfl

/-! ### Settling -/

theorem State.updQueue_calm {s : State} {q : QRef} {k : Nat} (f : QueueSt → QueueSt) (calm : (s.ctx k).aborting = none) :
    ((s.updQueue q f).ctx k).aborting = none := calm

/-- The one issued instruction, which waits for nothing, retires. -/
theorem State.drain_one {s : State} {q : QRef} {i : InFlight} (alone : (s.queue q).inflight = [i]) (now : i.work = .now) :
    s.drain q 1 = s.retireHead q i := by
  simp only [State.drain, alone, now, if_true]

/-- One that still has work stays. -/
theorem State.drain_one_of_work {s : State} {q : QRef} {i : InFlight} (alone : (s.queue q).inflight = [i]) (busy : i.work ≠ .now) :
    s.drain q 1 = s := by
  simp only [State.drain, alone, busy, if_false]

/-- In a context that is not being aborted an instruction retires with those of its advances that find room (R191, R203). -/
theorem State.retireHead_of_calm {s : State} {q : QRef} {i : InFlight} (calm : (s.ctx (s.ctxOf q)).aborting = none)
    (room : (s.updQueue q fun x => { x with inflight := x.inflight.drop 1 }).room q (s.ctxOf q) i.epoch i.advs = true) :
    s.retireHead q i = (s.updQueue q fun x => { x with inflight := x.inflight.drop 1 }).depart q (s.ctxOf q) i.epoch i.advs := by
  have hc : (s.ctx ((s.core q.core.val).ctx.getD 0)).aborting = none := calm
  simp only [State.retireHead, hc]
  exact State.retireAdvs_room _ q _ i i.advs room

/-- A queue with nothing in flight that issues an instruction and takes it out again has only moved on. -/
theorem State.issue_drop_same {s : State} {q : QRef} (alone : (s.queue q).inflight = []) (nx : Next) (i : InFlight) :
    ((s.updQueue q fun y => { y.advance nx with inflight := y.inflight ++ [i] }).updQueue q fun x => { x with inflight := x.inflight.drop 1 }).Same
      (s.updQueue q fun x => x.advance nx) := by
  refine (State.same_updQueue s q _ _).trans (State.Same.of_eq (State.updQueue_congr ?_))
  have moved : ((s.queue q).advance nx).inflight = [] := by rw [QueueSt.advance_inflight, alone]
  simp only [alone, List.nil_append, List.drop_one, List.tail_cons]
  rw [← moved]

/-- An instruction that waits for nothing retires at once (R166). -/
theorem State.settle_go_now {s s' : State} {q : QRef} {own : List (Nat × AdvMode × Nat)} (w : Nat) (nx : Next) (alone : (s.queue q).inflight = [])
    (hk : s'.ctxOf q = s.ctxOf q) (alone' : (s'.queue q).inflight = []) (calm : (s'.ctx (s.ctxOf q)).aborting = none)
    (he : s'.epochOf (s.ctxOf q) (s'.queue q) = s.epochOf (s.ctxOf q) (s.queue q)) (fits : s'.fits q w own = true) :
    (s.settle q w (.go s' .now own nx)).Same (s'.finish q w own nx) := by
  simp only [State.settle, alone, List.length_nil, Nat.zero_add]
  generalize hi : InFlight.mk s'.nextId (BitVec.ofNat 128 w) _ _ Work.now _ _ _ = i
  have hadvs : i.advs = own ++ Machine.carried w := by rw [← hi]
  have hepoch : i.epoch = s'.epochOf (s'.ctxOf q) (s'.queue q) := by rw [← hi, hk, he]; rfl
  have hnow : i.work = .now := by rw [← hi]
  generalize hu : ({ s' with nextId := s'.nextId + 1 } : State) = u
  have alone_u : (u.queue q).inflight = [] := by rw [← hu]; exact alone'
  have same := State.issue_drop_same alone_u nx i
  generalize hv : u.updQueue q (fun y => { y.advance nx with inflight := y.inflight ++ [i] }) = v at same ⊢
  have hvk : v.ctxOf q = s'.ctxOf q := by rw [← hv, State.updQueue_ctxOf, ← hu]; rfl
  have alone_v : (v.queue q).inflight = [i] := by rw [← hv, State.queue_updQueue_self]; simp [alone_u]
  have calm_v : (v.ctx (v.ctxOf q)).aborting = none := by rw [hvk, hk, ← hv, ← hu]; exact calm
  have room : (u.updQueue q fun x => x.advance nx).room q (v.ctxOf q) i.epoch i.advs = true := by
    rw [hvk, hepoch, hadvs, ← hu]
    exact Eq.trans (State.room_congr (b := s') q _ _ _ (by rfl) (by rfl) (by rfl)) fits
  rw [State.drain_one alone_v hnow, State.retireHead_of_calm calm_v ((same.room ..).trans room)]
  refine (same.depart ..).trans (State.Same.of_eq ?_)
  rw [hvk, hepoch, hadvs, ← hu, State.finish]

/-- An instruction with work of its own stays in flight (R166). -/
theorem State.settle_go_work {s s' : State} {q : QRef} {work : Work} (w : Nat) (own : List (Nat × AdvMode × Nat)) (nx : Next)
    (alone : (s.queue q).inflight = []) (busy : work ≠ .now) (hq : s'.queue q = s.queue q) (hk : s'.ctxOf q = s.ctxOf q)
    (he : s'.epochOf (s.ctxOf q) (s.queue q) = s.epochOf (s.ctxOf q) (s.queue q)) :
    s.settle q w (.go s' work own nx) = s'.enter q w work own nx := by
  simp only [State.settle, alone, List.length_nil, Nat.zero_add]
  generalize hi : InFlight.mk s'.nextId (BitVec.ofNat 128 w) _ _ work _ _ _ = i
  have hwork : i.work ≠ .now := by rw [← hi]; exact busy
  have alone' : (State.queue { s' with nextId := s'.nextId + 1 } q).inflight = [] := by rw [← alone, ← hq]; rfl
  rw [State.drain_one_of_work (i := i) (by rw [State.queue_updQueue_self]; simp [alone']) hwork, State.enter]
  refine State.updQueue_congr ?_
  have hq' : State.queue { s' with nextId := s'.nextId + 1 } q = s.queue q := hq
  rw [← hi, hq', hk, he]
  rfl

/-- Settles O8: the four acts that `State.settle` distinguishes where nothing is in flight. -/
theorem issuedInstructionsSettle : Obligations.IssuedInstructionsSettle := by
  intro s s' q w own nx alone
  refine ⟨fun hk alone' calm he fits => State.settle_go_now w nx alone hk alone' calm he fits,
    fun work busy hq hk he => State.settle_go_work w own nx alone busy hq hk he, fun wt b => rfl, fun hc d a => ?_⟩
  exact State.haltIssue_of_inflight_nil alone s' hc d a

/-! ### Scalar instructions -/

/-- A write of a register that no active frame streams (R185). -/
theorem State.writeReg_of_free {s : State} {q : QRef} {n : Nat} (free : (s.queue q).streamFrame n = none) (v : Nat) (go : State → Act) :
    s.writeReg q n v go = go (s.updQueue q fun x => x.setReg n v) := by
  simp only [State.writeReg, free]

/-- An instruction that writes one register, if its body is that write, issues and retires. -/
theorem issue_writeReg {s : State} {q : QRef} {oc : OpCode} {w n v : Nat} (ready : Ready s q oc w) (serial : Bool) {body : Nat → Act}
    (free : (s.queue q).streamFrame n = none) (hb : body w = s.writeReg q n v .done) (fits : s.fits q w [] = true) :
    ∃ t, issue oc serial q s body = .next t ∧ t.Same ((s.updQueue q fun x => x.setReg n v).finish q w [] .seq) :=
  issue_queue ready serial body (hb.trans (State.writeReg_of_free free v _)) (QueueSt.setReg_inflight ..) (QueueSt.setReg_round ..) fits

/-- R211: MPREAD of a mapped Milepost that is not poisoned. -/
theorem issue_mpread {s : State} {q : QRef} {w : Nat} (fits : s.fits q w [] = true) (ready : Ready s q 0x00B w)
    (free : (s.queue q).streamFrame (Bits.fld w 54 6) = none) (mapped : (s.mpEntry (s.ctxOf q) (Bits.fld w 32 13)).valid = true)
    (clean : s.mpPoisoned (s.ctxOf q) (Bits.fld w 32 13) = false) :
    Gives (.mpread q) s ((s.updQueue q fun x => x.setReg (Bits.fld w 54 6)
      (s.mpSeen (s.ctxOf q) (Bits.fld w 32 13) (s.epochOf (s.ctxOf q) x))).finish q w [] .seq) := by
  refine issue_queue ready false _ ?_ (QueueSt.setReg_inflight ..) (QueueSt.setReg_round ..) fits
  simp only [mapped, clean, Bool.not_true, Bool.false_eq_true, if_false, State.writeReg_of_free free]
  rfl

/-- Settles O3: LI, SOP and MPREAD are each a `State.writeReg`, and a register read after a write is that of Laws/State.lean. -/
theorem scalarInstructionsWriteTheirRegister : Obligations.ScalarInstructionsWriteTheirRegister := by
  refine ⟨fun s q w fits => ⟨fun ready free => issue_writeReg ready false free rfl fits, fun ready free => ?_, issue_mpread fits⟩,
    fun x n v => ⟨fun lt => ⟨?_, fun m ne => QueueSt.reg_setReg_ne x v ne⟩, fun ge => ⟨?_, ?_⟩⟩⟩
  · exact issue_queue ready false _ (State.writeReg_of_free free _ _) (QueueSt.setReg_inflight ..) (QueueSt.setReg_round ..) fits
  · rw [QueueSt.reg_setReg_self, if_pos lt]
  · exact if_neg (Nat.not_lt.mpr ge)
  · exact if_neg (Nat.not_lt.mpr ge)

/-! ### Control -/

/-- R208: a branch that stays inside every active frame is taken. -/
theorem branchTo_of_inside {s : State} {q : QRef} {t : Nat}
    (inside : ((s.queue q).activeFrames.all fun f => f.2.start ≤ t && t ≤ f.2.last) = true) : branchTo s q t = .go s .now [] (.to t) := by
  have none_left : ((s.queue q).activeFrames.find? fun f => t < f.2.start || f.2.last < t) = none := by
    simpa using inside
  simp only [branchTo, none_left]

/-- Settles O5: each instruction's act is `.go` of the state as it is, and the halt of HALT is `haltQ`. -/
theorem controlInstructionsComplete : Obligations.ControlInstructionsComplete := by
  refine ⟨fun s q w => ⟨fun ready fits => issue_plain ready false _ rfl fits, fun ready fits inside => ?br,
    fun ready fits => ⟨fun fails => ?fallsThrough, fun holds inside => ?brc⟩, fun ready fits valid inBank noFrame => ?bsw,
    fun ready may fits => ?mpadv⟩, fun s q w ready room => ?halt⟩
  case br => exact issue_plain ready false _ (branchTo_of_inside inside) fits
  case fallsThrough => exact issue_plain ready false _ (if_neg (Bool.eq_false_iff.mp fails)) fits
  case brc => exact issue_plain ready false _ ((if_pos holds).trans (branchTo_of_inside inside)) fits
  case bsw =>
    refine issue_plain ready true _ (if_neg ?_) fits
    simp only [valid, noFrame, Nat.not_le.mpr inBank, decide_false, Bool.not_true, List.isEmpty_nil, Bool.or_self, Bool.false_eq_true, not_false_eq_true]
  case mpadv => exact issue_plain ready true _ (if_neg (by rw [may]; decide)) fits
  case halt =>
    have now : ¬ ((s.epochOf (s.ctxOf q) (s.queue q)).isSome && !(s.ctx (s.ctxOf q)).effectRoom [.event 0x0001 0 0]) = true := by
      rcases room with none | room
      · simp [none]
      · simp [room]
    refine ⟨_, issue_halt ready false _ (if_neg now), rfl, ?_, ?_⟩ <;> rw [State.haltQ_zero, State.haltRaw, State.haltAt_queue]

end Sys2Proof.Machine

/-! The scalar functions and branch relations on 64-bit words (Tables 6-4 and 6-8), loop frames (R182 to R184), waits (R192, R210), and the core store with
its sentinel (R172 to R174, R214). -/

namespace Sys2Proof

/-! ### Words as numbers -/

theorem Bits.signed_toNat (a : BitVec 64) : Bits.signed a.toNat 64 = a.toInt := by
  rw [Bits.signed, Nat.mod_eq_of_lt a.isLt, BitVec.toInt]
  split <;> split <;> omega

theorem Bits.ofNat_wrap (i : Int) : BitVec.ofNat 64 (Bits.wrap i 64) = BitVec.ofInt 64 i := by
  apply BitVec.eq_of_toNat_eq
  rw [Bits.wrap, BitVec.toNat_ofNat, BitVec.toNat_ofInt]
  omega

end Sys2Proof

namespace Sys2Proof.Machine

open Sys2Proof.WB

/-! ### SOP and BRC -/

/-- Table 6-8. -/
theorem scalarFn_64 (a b : BitVec 64) :
    let f := fun n => BitVec.ofNat 64 (scalarFn 64 n a.toNat b.toNat)
    f 0 = a + b ∧ f 1 = a - b ∧ f 2 = a * b ∧ f 3 = a &&& b ∧ f 4 = a ||| b ∧ f 5 = a ^^^ b
      ∧ f 6 = a <<< (b.toNat % 64) ∧ f 7 = a >>> (b.toNat % 64) ∧ f 8 = a.sshiftRight (b.toNat % 64)
      ∧ f 9 = (if a.sle b then a else b) ∧ f 10 = (if b.sle a then a else b)
      ∧ f 11 = (if a ≤ b then a else b) ∧ f 12 = (if b ≤ a then a else b) ∧ f 13 = a := by
  intro f
  have same (x : BitVec 64) : BitVec.ofNat 64 x.toNat = x := BitVec.ofNat_toNat ..
  refine ⟨?add, ?sub, ?mul, ?and, ?or, ?xor, ?shl, ?shr, ?sar, ?smin, ?smax, ?umin, ?umax, same a⟩ <;> simp only [f, scalarFn]
  case add => exact BitVec.eq_of_toNat_eq (by simp)
  case sub => exact BitVec.eq_of_toNat_eq (by rw [Bits.ofNat_wrap, BitVec.toNat_ofInt, BitVec.toNat_sub]; omega)
  case mul => exact BitVec.eq_of_toNat_eq (by simp)
  case and => rw [← BitVec.toNat_and, same]
  case or => rw [← BitVec.toNat_or, same]
  case xor => rw [← BitVec.toNat_xor, same]
  case shl => exact BitVec.eq_of_toNat_eq (by simp [Nat.shiftLeft_eq])
  case shr => rw [← Nat.shiftRight_eq_div_pow, ← BitVec.toNat_ushiftRight, same]
  case sar =>
    rw [Bits.ofNat_wrap, Bits.signed_toNat, ← BitVec.ofInt_toInt (x := a.sshiftRight (b.toNat % 64)), BitVec.toInt_sshiftRight, Int.shiftRight_eq_div_pow]
    simp only [Nat.cast_pow, Nat.cast_ofNat]
  case smin => simp only [Bits.signed_toNat, BitVec.sle_eq_decide, decide_eq_true_eq]; split <;> exact same _
  case smax => simp only [Bits.signed_toNat, BitVec.sle_eq_decide, decide_eq_true_eq]; split <;> exact same _
  case umin => rw [Nat.min_def]; simp only [BitVec.le_def]; split <;> exact same _
  case umax => rw [Nat.max_comm, Nat.max_def]; simp only [BitVec.le_def]; split <;> exact same _

/-- Settles O4: the functions by `scalarFn_64`, and the relations (Table 6-4) by the signed and unsigned reading of a word. -/
theorem scalarFunctionsAreThoseOfTheTables : Obligations.ScalarFunctionsAreThoseOfTheTables := by
  refine ⟨scalarFn_64, fun a b => ?_⟩
  simp only [brcHolds, Bits.signed_toNat]
  refine ⟨?_, ?_, ?_, ?_, ?_, ?_⟩
  · exact Bool.eq_iff_iff.mpr (by simp [BitVec.toNat_inj])
  · exact Bool.eq_iff_iff.mpr (by simp [bne, BitVec.toNat_inj])
  · exact BitVec.slt_eq_decide.symm
  · exact Bool.eq_iff_iff.mpr (by simp [BitVec.slt_eq_decide])
  · exact Bool.eq_iff_iff.mpr (by simp [BitVec.ult])
  · exact Bool.eq_iff_iff.mpr (by simp [BitVec.ult])

/-! ### Loop frames -/

/-- R183: where no frame ends at `e`, the pc goes to the next word. -/
theorem QueueSt.endFrames_of_no_end (x : QueueSt) {e : Nat} {l : List (Nat × Frame)} (h : ∀ g ∈ l, g.2.last ≠ e) :
    x.endFrames e l = { x with pc := e + 1 } := by
  induction l with
  | nil => rfl
  | cons g l ih =>
    obtain ⟨i, f⟩ := g
    rw [QueueSt.endFrames, if_neg (h (i, f) List.mem_cons_self), ih fun g hg => h g (List.mem_cons_of_mem _ hg)]

section
variable {x : QueueSt} {i : Nat} {f : Frame} {outer : List (Nat × Frame)} (frames : x.activeFrames = (i, f) :: outer)
  (apart : ∀ g ∈ outer, g.2.last ≠ x.pc)
include frames

theorem QueueSt.advance_of_repeat (ends : f.last = x.pc) (more : f.iter + 1 < f.trip) :
    x.advance .seq = { (x.setFrame i { f with iter := f.iter + 1 }).stepStreams f with pc := f.start } := by
  simp only [QueueSt.advance, frames, QueueSt.endFrames, if_pos ends, if_pos more]

include apart

theorem QueueSt.advance_of_close (ends : f.last = x.pc) (done : ¬ f.iter + 1 < f.trip) :
    x.advance .seq = { (x.setFrame i { f with iter := f.iter + 1, active := false }).restoreStreams f with pc := x.pc + 1 } := by
  simp only [QueueSt.advance, frames, QueueSt.endFrames, if_pos ends, if_neg done, QueueSt.endFrames_of_no_end _ apart]

theorem QueueSt.advance_of_inside (inside : f.last ≠ x.pc) : x.advance .seq = { x with pc := x.pc + 1 } := by
  simp only [QueueSt.advance, frames, QueueSt.endFrames, if_neg inside, QueueSt.endFrames_of_no_end _ apart]

end

/-- Settles O6: LOOP takes the third or the fourth branch of its act, and the END word the branch of `QueueSt.endFrames` for its frame. -/
theorem loopsRunTheirTrips : Obligations.LoopsRunTheirTrips := by
  refine ⟨?_, fun x i f outer frames apart =>
    ⟨QueueSt.advance_of_repeat frames, QueueSt.advance_of_close frames apart, QueueSt.advance_of_inside frames apart⟩⟩
  intro s q w ready fits x n e trip closed within
  have free : ¬ (x.frame n).active = true := Bool.eq_false_iff.mp closed
  have enclosed : ¬ (x.activeFrames.any fun f => f.2.last < e) = true := by simpa using within
  exact ⟨fun some_trips => issue_queue ready false _ ((if_neg free).trans ((if_neg enclosed).trans (if_neg some_trips))) rfl rfl fits,
    fun no_trip => issue_queue ready false _ ((if_neg free).trans ((if_neg enclosed).trans (if_pos no_trip))) rfl rfl fits⟩

/-! ### Waits -/

theorem find_range_none {n m : Nat} {p : Nat → Bool} (h : ∀ i < n, p (m + i) = false) : ((List.range n).map (m + ·)).find? p = none := by
  simpa using h

theorem find_range_first {n m j : Nat} {p : Nat → Bool} (lt : j < n) (hit : p (m + j) = true) (first : ∀ i < j, p (m + i) = false) :
    ((List.range n).map (m + ·)).find? p = some (m + j) := by
  rw [List.find?_map, show (List.range n).find? (p ∘ (m + ·)) = some j from ?_]
  · rfl
  · exact List.find?_range_eq_some.mpr ⟨hit, List.mem_range.mpr lt, fun i hi => by simp [first i hi]⟩

section
variable {s : State} {q : QRef} {m n : Nat} {v : Nat} {ok : State → Act} {no : Act}

/-- HC-19 at the first Milepost that is not mapped (R237). -/
theorem waitFor_of_unmapped {j : Nat} (lt : j < n) (unmapped : (s.mpEntry (s.ctxOf q) (m + j)).valid = false)
    (first : ∀ i < j, (s.mpEntry (s.ctxOf q) (m + i)).valid = true) :
    waitFor s q ((List.range n).map (m + ·)) v ok no = .halt s 0x19 (m + j) 0 := by
  have found : ((List.range n).map (m + ·)).find? (fun mp => !(s.mpEntry (s.ctxOf q) mp).valid) = some (m + j) :=
    find_range_first lt (by simp [unmapped]) fun i hi => by simp [first i hi]
  simp only [waitFor, found]

variable (mapped : ∀ i < n, (s.mpEntry (s.ctxOf q) (m + i)).valid = true)
include mapped

/-- Poisoned status at the first poisoned Milepost (R192, R210). -/
theorem waitFor_of_poisoned {j : Nat} (lt : j < n) (poisoned : s.mpPoisoned (s.ctxOf q) (m + j) = true)
    (first : ∀ i < j, s.mpPoisoned (s.ctxOf q) (m + i) = false) :
    waitFor s q ((List.range n).map (m + ·)) v ok no = s.poisonDone q (m + j) ok := by
  have all_mapped : ((List.range n).map (m + ·)).find? (fun mp => !(s.mpEntry (s.ctxOf q) mp).valid) = none :=
    find_range_none fun i hi => by simp [mapped i hi]
  have found : ((List.range n).map (m + ·)).find? (fun mp => s.mpPoisoned (s.ctxOf q) mp) = some (m + j) := find_range_first lt poisoned first
  simp only [waitFor, all_mapped, found]

theorem waitFor_of_clean (clean : ∀ i < n, s.mpPoisoned (s.ctxOf q) (m + i) = false) :
    waitFor s q ((List.range n).map (m + ·)) v ok no =
      if ∀ i < n, v ≤ s.mpSeen (s.ctxOf q) (m + i) (s.epochOf (s.ctxOf q) (s.queue q)) then ok s else no := by
  have all_mapped : ((List.range n).map (m + ·)).find? (fun mp => !(s.mpEntry (s.ctxOf q) mp).valid) = none :=
    find_range_none fun i hi => by simp [mapped i hi]
  have none_poisoned : ((List.range n).map (m + ·)).find? (fun mp => s.mpPoisoned (s.ctxOf q) mp) = none := find_range_none clean
  simp only [waitFor, all_mapped, none_poisoned]
  exact if_congr (by simp) rfl rfl

end

/-- A wait on the `nf w` Mileposts that its word names. -/
theorem issue_waits (s : State) (q : QRef) (w : Nat) (oc : OpCode) (nf : Nat → Nat) (ready : Ready s q oc w) :
    let k := s.ctxOf q
    let mp := Bits.fld w 32 13
    let v := addImm ((s.queue q).reg (Bits.fld w 54 6)) (imm32 w 64)
    let reached := ∀ i < nf w, v ≤ s.mpSeen k (mp + i) (s.epochOf k (s.queue q))
    let r := issue oc true q s (bodyWait nf q s)
    let gives := fun e : State => ∃ t, r = .next t ∧ t.Same e
    ((∀ i < nf w, (s.mpEntry k (mp + i)).valid = true) →
      ((∀ i < nf w, s.mpPoisoned k (mp + i) = false) →
        (reached → s.fits q w [] = true → gives (s.finish q w [] .seq))
        ∧ (¬ reached → r = .next (s.holdAt q .milepost true)))
      ∧ ∀ j < nf w, s.mpPoisoned k (mp + j) = true → (∀ i < j, s.mpPoisoned k (mp + i) = false) →
        (s.val POISON_CONTINUE 0 = 1 → s.fits q w [] = true → gives ((s.updQueue q fun x => x.setReg 0 (2 ^ 63 + (mp + j))).finish q w [] .seq))
        ∧ (s.val POISON_CONTINUE 0 ≠ 1 → r = .next (s.haltQ q 0x18 (mp + j) 0)))
    ∧ ∀ j < nf w, (s.mpEntry k (mp + j)).valid = false → (∀ i < j, (s.mpEntry k (mp + i)).valid = true) → r = .next (s.haltQ q 0x19 (mp + j) 0) := by
  intro k mp v reached r gives
  refine ⟨fun mapped => ⟨fun clean => ⟨fun all fits => ?_, fun some_left => ?_⟩, fun j lt poisoned first => ⟨fun continues fits => ?_, fun halts => ?_⟩⟩,
    fun j lt unmapped first => ?_⟩
  · exact issue_plain ready true _ ((waitFor_of_clean mapped clean).trans (if_pos all)) fits
  · exact issue_wait ready true _ ((waitFor_of_clean mapped clean).trans (if_neg some_left))
  · exact issue_queue ready true _ ((waitFor_of_poisoned mapped lt poisoned first).trans (if_pos continues)) (QueueSt.setReg_inflight ..)
      (QueueSt.setReg_round ..) fits
  · exact issue_halt ready true _ ((waitFor_of_poisoned mapped lt poisoned first).trans (if_neg halts))
  · exact issue_halt ready true _ (waitFor_of_unmapped lt unmapped first)

/-- Settles O7: both instructions are `bodyWait`, for one Milepost and for N. -/
theorem waitsComplete : Obligations.WaitsComplete := by
  intro s q w oc c n which ready
  simp only [List.mem_cons, Prod.mk.injEq, List.not_mem_nil, or_false] at which
  rcases which with ⟨rfl, rfl, rfl⟩ | ⟨rfl, rfl, rfl⟩
  · exact issue_waits s q w 0x008 waitOne ready
  · exact issue_waits s q w 0x009 waitMany ready

/-! ### The core store -/

/-- Settles O11: reads after `Tab.setRange`, and its canonical form. -/
theorem coreStoreWritesReadBack : Obligations.CoreStoreWritesReadBack := by
  intro c a bs es canonical d
  refine ⟨Tab.wf_setRange 0 c.store a bs canonical, fun i lt => ?_, fun m outside => ?_, rfl⟩
  · rw [show d.store = Tab.setRange 0 c.store a bs from rfl, Tab.get_setRange, if_pos ⟨Nat.le_add_right a i, Nat.add_lt_add_left lt a⟩,
      Nat.add_sub_cancel_left]
  · rw [show d.store = Tab.setRange 0 c.store a bs from rfl, Tab.get_setRange, if_neg (by omega)]

/-! ### The sentinel -/

theorem Core.sentinelGo_of_reached (c : Core) (q : Queue) (wr : Bool) (fuel : Nat) {a e : Nat} (h : e ≤ a) : c.sentinelGo q wr fuel a e = none := by
  cases fuel with
  | zero => rfl
  | succ fuel => rw [Core.sentinelGo, if_pos h]

/-- No buffer that the queue holds covers the address. -/
theorem Core.heldAt_eq_none {c : Core} {q : Queue} {a : Nat}
    (h : ∀ m b, (m, b) ∈ c.buffers → (b.writer = some q ∨ q ∈ b.readers) → ¬ (b.base ≤ a ∧ a < b.base + b.len)) : c.heldAt q a = none := by
  rw [Core.heldAt, Option.map_eq_none_iff, List.find?_eq_none]
  rintro ⟨m, b⟩ mem covers
  simp only [Bool.and_eq_true, Bool.or_eq_true, beq_iff_eq, List.contains_iff_mem, decide_eq_true_eq] at covers
  exact h m b mem covers.1.1 ⟨covers.1.2, covers.2⟩

section
variable {c : Core} {q : Queue} {wr : Bool} {a n : Nat} (pos : 0 < n)
include pos

theorem Core.sentinel_of_unheld (h : c.heldAt q a = none) : c.sentinel q wr a n = some (0x10, 0) := by
  rw [Core.sentinel, Core.sentinelGo, if_neg (by omega), h]

theorem Core.sentinel_of_readOnly {m : Nat} {b : Buf} (h : c.heldAt q a = some (m, b, false)) : c.sentinel q true a n = some (0x11, m) := by
  rw [Core.sentinel, Core.sentinelGo, if_neg (by omega), h]
  rfl

theorem Core.sentinel_of_within {m : Nat} {b : Buf} {mode : Bool} (h : c.heldAt q a = some (m, b, mode)) (may : (wr && !mode) = false)
    (within : a + n ≤ b.base + b.len) : c.sentinel q wr a n = none := by
  rw [Core.sentinel, Core.sentinelGo, if_neg (by omega), h]
  simp only [may, Bool.false_eq_true, if_false, Core.sentinelGo_of_reached c q wr _ within]

end

/-- Settles O12: the first buffer that the queue holds at the first byte decides. -/
theorem sentinelRefuses : Obligations.SentinelRefuses := by
  intro c q wr a n pos
  exact ⟨fun h => Core.sentinel_of_unheld pos (Core.heldAt_eq_none h), fun m b h => Core.sentinel_of_readOnly pos h,
    fun m b h within => Core.sentinel_of_within pos h (Bool.and_false _) within, fun m b h within => Core.sentinel_of_within pos h rfl within⟩

/-! ### SLD and SST -/

theorem coreRegion_of_inside {a n al : Nat} (aligned : a % al = 0) (inside : a + n ≤ storeSize) : coreRegion a n al = none := by
  rw [coreRegion, if_neg (by simpa using aligned), if_neg (by omega)]

theorem Core.access_of_sentinel {c : Core} {q : Queue} {wr : Bool} {a n : Nat} (h : c.sentinel q wr a n = none) : c.access q wr a n = none := by
  rw [Core.access, h]
  rfl

theorem firstOf_eq_none {l : List (Option (Nat × Nat × Nat))} (h : ∀ x ∈ l, x = none) : firstOf l = none := by
  induction l with
  | nil => rfl
  | cons x l ih => rw [h x List.mem_cons_self, firstOf, ih fun y hy => h y (List.mem_cons_of_mem _ hy)]

theorem Act.check_of_none {c : Option (Nat × Nat × Nat)} (h : c = none) (s : State) (go : Act) : Act.check s c go = go := by
  rw [h, Act.check]

@[simp] theorem Core.write_q (c : Core) (a : Nat) (bs : List Byte) (es : List (Option Int)) (r : Queue) : (c.write a bs es).q r = c.q r := by
  cases r <;> rfl

@[simp] theorem Core.write_ctx (c : Core) (a : Nat) (bs : List Byte) (es : List (Option Int)) : (c.write a bs es).ctx = c.ctx := rfl

/-- Settles O10: with both checks passed, SLD is a write of its register and SST one of the core store. -/
theorem scalarLoadsAndStoresComplete : Obligations.ScalarLoadsAndStoresComplete := by
  intro s q w fits c n a aligned inside
  have passes (wr : Bool) (held : c.sentinel q.queue wr a n = none) : firstOf [coreRegion a n n, c.access q.queue wr a n] = none := by
    simp [firstOf_eq_none, coreRegion_of_inside aligned inside, Core.access_of_sentinel held]
  refine ⟨fun ready held clean free => ?_, fun ready held => ?_⟩
  · exact issue_queue ready true _ ((Act.check_of_none (passes false held) _ _).trans
      ((if_neg (Bool.eq_false_iff.mp clean)).trans (State.writeReg_of_free free _ _))) (QueueSt.setReg_inflight ..) (QueueSt.setReg_round ..) fits
  · exact issue_core ready true _ (Act.check_of_none (passes true held) _ _) (Core.write_q _ _ _ _) (Core.write_ctx _ _ _ _) fits

end Sys2Proof.Machine

/-! Exactness and safety of the arithmetic and of the Mileposts: the Ridgepole's window (R255), the replay ladder (R95 to R98), the additions of slots
(R68, R105), the results of the active threads (R153, R154), and advances at their home (R246). -/

namespace Sys2Proof.Machine

open Sys2Proof.WB

/-! ### Ridgepole -/

@[simp] theorem State.part_setPart_self (s : State) (key : Nat) (p : Part) : (s.setPart key p).part key = p := by
  simp [State.part, State.setPart]

theorem State.part_setPart_ne (s : State) {key key' : Nat} (p : Part) (h : key' ≠ key) : (s.setPart key p).part key' = s.part key' := by
  simp [State.part, State.setPart, Tab.get_set_ne _ _ _ h]

section
variable {s : State} {k gn : Nat} (still : s.partSpec k gn = false)
include still

theorem State.partSeen_of_not_spec (key : Nat) (ep : Option Nat) : s.partSeen k gn key ep = (s.part key).val := by
  simp only [State.partSeen, still]

/-- Raising a participant to a value above its own sets it, unless it is poisoned. -/
theorem State.raisePart_of_not_spec {key v : Nat} (above : (s.part key).val < v) (ep : Option Nat) :
    s.raisePart k gn key v ep = s ∨ s.raisePart k gn key v ep = s.setPart key { s.part key with val := v } := by
  unfold State.raisePart
  dsimp only
  split
  · exact .inl rfl
  · refine .inr ?_
    have sum : (s.part key).val + (v - (s.part key).val) = v := by omega
    simp only [State.partSeen_of_not_spec still, still, sum]

end

/-- The value to which an arrival may raise its participant: its round, and within the window above the least of the others (R255). -/
def State.ridgeTarget (s : State) (k gn : Nat) (g : RGroup) (role : Nat) (q : Queue) (r : Nat) (ep : Option Nat) : Nat :=
  match s.partMin k gn ((s.participants k g).filter fun e => !(e.1 == role && e.2 == q)) ep with
  | none => r
  | some m => min r (m + g.window)

theorem State.ridgeRaise_eq (s : State) (k gn : Nat) (g : RGroup) (role : Nat) (q : Queue) (r : Nat) (ep : Option Nat) :
    s.ridgeRaise k gn g role q r ep =
      if s.partSeen k gn (partKey k gn role q) ep < s.ridgeTarget k gn g role q r ep then
        s.raisePart k gn (partKey k gn role q) (s.ridgeTarget k gn g role q r ep) ep
      else s := rfl

theorem State.ridgeTarget_le_round (s : State) (k gn : Nat) (g : RGroup) (role : Nat) (q : Queue) (r : Nat) (ep : Option Nat) :
    s.ridgeTarget k gn g role q r ep ≤ r := by
  unfold State.ridgeTarget
  split
  · exact Nat.le_refl r
  · exact Nat.min_le_left ..

theorem State.ridgeTarget_le_window {s : State} {k gn m : Nat} {g : RGroup} {role : Nat} {q : Queue} {ep : Option Nat}
    (least : s.partMin k gn ((s.participants k g).filter fun e => !(e.1 == role && e.2 == q)) ep = some m) (r : Nat) :
    s.ridgeTarget k gn g role q r ep ≤ m + g.window := by
  rw [State.ridgeTarget, least]
  exact Nat.min_le_right ..

/-- Outside the epochs, an arrival leaves the machine as it is, or sets its participant to the target, which is above it. -/
theorem State.ridgeRaise_of_not_spec {s : State} {k gn : Nat} (still : s.partSpec k gn = false) (g : RGroup) (role : Nat) (q : Queue) (r : Nat)
    (ep : Option Nat) :
    s.ridgeRaise k gn g role q r ep = s ∨ (s.part (partKey k gn role q)).val < s.ridgeTarget k gn g role q r ep
      ∧ s.ridgeRaise k gn g role q r ep =
        s.setPart (partKey k gn role q) { s.part (partKey k gn role q) with val := s.ridgeTarget k gn g role q r ep } := by
  rw [State.ridgeRaise_eq, State.partSeen_of_not_spec still]
  split
  · rename_i below
    exact (State.raisePart_of_not_spec still below ep).imp_right fun h => ⟨below, h⟩
  · exact .inl rfl

/-- Settles O15: the participant keeps its value or takes the target, which the round and the window bound. -/
theorem ridgeRaisesWithinTheWindow : Obligations.RidgeRaisesWithinTheWindow := by
  intro s k gn g role q r ep still key t
  rcases State.ridgeRaise_of_not_spec still g role q r ep with same | ⟨above, raised⟩
  · rw [show t = s from same]
    exact ⟨fun _ _ => rfl, Nat.le_refl _, Nat.le_max_left .., fun m _ => Nat.le_max_left ..⟩
  · have value : (t.part key).val = s.ridgeTarget k gn g role q r ep := by rw [show t = _ from raised, State.part_setPart_self]
    rw [value]
    exact ⟨fun key' ne => (congrArg (State.part · key') raised).trans (State.part_setPart_ne s _ ne), above.le,
      (State.ridgeTarget_le_round ..).trans (Nat.le_max_right ..), fun m least => (State.ridgeTarget_le_window least r).trans (Nat.le_max_right ..)⟩

/-! ### The replay ladder -/

/-- The products cut at anchor `A`, summed. -/
def cutSum (l : List Int) (A : Int) : Int := (l.map (truncTo · A)).sum

/-- At the least anchor, -300, nothing is cut (R88). -/
theorem cutSum_least (l : List Int) : cutSum l (-300) = l.sum := by
  have whole : (fun p => truncTo p (-300)) = id := by
    funext p
    simp [truncTo]
  rw [cutSum, whole, List.map_id]

theorem cutSum_of_not_loses {l : List Int} {A : Int} (h : loses l A = false) : cutSum l A = l.sum := by
  have whole : ∀ p ∈ l, truncTo p A = p := by simpa [loses] using h
  rw [cutSum, List.map_congr_left whole, List.map_id']

theorem partSum_first (l : List Int) (a1 : Int) : partSum l a1 1 = cutSum l (slice a1 1) := by
  simp [partSum, cutSum]

/-- A slice after the first adds what the anchor before it cut off. -/
theorem partSum_succ (l : List Int) (a1 : Int) {i : Nat} (h : i ≠ 0) : partSum l a1 (i + 1) = cutSum l (slice a1 (i + 1)) - cutSum l (slice a1 i) := by
  have later : ¬ i + 1 = 1 := by omega
  simp only [partSum, cutSum, if_neg later, Nat.add_sub_cancel]
  induction l with
  | nil => rfl
  | cons p l ih =>
    simp only [List.map_cons, List.sum_cons, ih]
    omega

theorem anchor_bounds (er ec : Option Int) (n : Nat) (adj : Int) : -300 ≤ anchor er ec n adj ∧ anchor er ec n adj ≤ 196 := by
  unfold anchor clampI
  split <;> omega

/-- R96: the fifth slice, or one that falls on the anchor before it, stands at the least anchor. -/
theorem slice_of_last {a1 : Int} (bounds : -300 ≤ a1 ∧ a1 ≤ 196) {i : Nat} (last : 5 ≤ i ∨ slice a1 (i + 1) = slice a1 i) : slice a1 i = -300 := by
  unfold slice at last ⊢
  omega

theorem slice_one {a1 : Int} (least : -300 ≤ a1) : slice a1 1 = a1 := by
  unfold slice
  omega

section
variable (l : List Int) (er ec : Option Int)

/-- From slice `i` on, the ladder adds what the anchor before it cut off. -/
theorem ladderFrom_slice (fuel i : Nat) (first : i ≠ 0) (le : i < 5) (enough : 5 ≤ fuel + i) :
    ladderFrom l er ec fuel (.slice (i + 1)) = some (l.sum - cutSum l (slice (anchor er ec l.length 0) i)) := by
  induction fuel generalizing i with
  | zero => omega
  | succ fuel ih =>
    have bounds := anchor_bounds er ec l.length 0
    generalize ha : anchor er ec l.length 0 = a1 at bounds ih ⊢
    simp only [ladderFrom, replayPass, ha, partSum_succ l a1 first]
    by_cases more : (i + 1 < 5 && slice a1 (i + 1 + 1) != slice a1 (i + 1)) = true
    · have next : i + 1 < 5 := by simp_all
      simp only [if_pos more, ih (i + 1) (by omega) next (by omega), Option.map_some, Option.getD_some]
      congr 1
      omega
    · have last : slice a1 (i + 1) = -300 := by
        refine slice_of_last bounds ?_
        simp only [Bool.and_eq_true, decide_eq_true_eq, bne_iff_ne, not_and, not_not] at more
        omega
      simp only [if_neg more, Option.getD_some]
      rw [last, cutSum_least]

/-- Table 3-3: a pass of two windows, and the slices that may follow it. -/
theorem ladderFrom_twoFirst (fuel : Nat) : ladderFrom l er ec (fuel + 6) .twoFirst = some l.sum := by
  have bounds := anchor_bounds er ec l.length 0
  have slices := ladderFrom_slice l er ec (fuel + 4) 1 (by decide) (by decide) (by omega)
  generalize ha : anchor er ec l.length 0 = a1 at bounds slices
  have hone := slice_one bounds.1
  rw [ladderFrom, replayPass]
  simp only [ha, partSum_first]
  by_cases single : slice a1 2 = a1
  · have least : a1 = -300 := hone ▸ slice_of_last bounds (.inr (single.trans hone.symm))
    simp only [if_pos single, hone, Option.getD_some]
    rw [least, cutSum_least]
  · have second : ladderFrom l er ec (fuel + 5) .twoSecond = some (l.sum - cutSum l (slice a1 1)) := by
      rw [ladderFrom, replayPass]
      simp only [ha]
      by_cases lost : loses l (slice a1 2) = true
      · simp only [if_pos lost, slices, Option.map_some, Option.getD_none, Int.zero_add]
      · simp only [if_neg lost, partSum_succ l a1 (i := 1) (by decide), cutSum_of_not_loses (Bool.eq_false_iff.mpr lost), Option.getD_some]
    simp only [if_neg single, second, Option.map_some, Option.getD_some]
    congr 1
    omega

theorem ladderFrom_reanchor (fuel : Nat) : ladderFrom l er ec (fuel + 7) .reanchor = some l.sum := by
  have two := ladderFrom_twoFirst l er ec fuel
  rw [ladderFrom, replayPass]
  by_cases lost : loses l (anchor er ec l.length 0) = true
  · simp only [if_pos lost, two, Option.map_some, Option.getD_none, Int.zero_add]
  · simp only [if_neg lost, Option.getD_some]

/-- Settles O18: a first pass is clean, or asks for one of the two plans from which the ladder is exact. -/
theorem replayLadderIsExact : Obligations.ReplayLadderIsExact := by
  intro l er ec adj n w hpass
  unfold firstPass at hpass
  dsimp only at hpass
  split at hpass
  · cases hpass
    exact ⟨nofun, fun p hp => by cases hp; exact ⟨rfl, ladderFrom_twoFirst l er ec 2⟩⟩
  · split at hpass <;> cases hpass
    · exact ⟨nofun, fun p hp => by cases hp; exact ⟨rfl, ladderFrom_reanchor l er ec 1⟩⟩
    · exact ⟨fun _ => rfl, nofun⟩

end

end Sys2Proof.Machine

namespace Sys2Proof

/-! ### Slots -/

/-- A datum as a slot of one term (R70). -/
def Fp.slot (x : Fp) : L640 :=
  match x with
  | .nan _ _ sg => { nan := true, snan := sg, terms := 1 }
  | .inf s => { pinf := !s, ninf := s, terms := 1 }
  | .num .. => { acc := BitVec.ofInt 640 (x.val.truncAt (-300)), terms := 1 }

theorem L640.acc_addK (a : L640) (i : Int) (n : Nat) : (a.addK i n).acc = a.acc + BitVec.ofInt 640 i := by
  rw [L640.addK, BitVec.ofInt_add, BitVec.ofInt_toInt]

/-- Adding a datum is adding its slot. -/
theorem L640.addFp_eq_add (a : L640) (x : Fp) : a.addFp x = a.add x.slot := by
  cases x <;> simp [L640.addFp, L640.add, Fp.slot, L640.addDy, L640.addK, BitVec.ofInt_add, BitVec.ofInt_toInt]

theorem L640.terms_add (a b : L640) : (a.add b).terms.toNat = min (a.terms.toNat + b.terms.toNat) (2 ^ 64 - 1) := by
  rw [L640.add, sat, BitVec.toNat_ofNat]
  exact Nat.mod_eq_of_lt (by omega)

/-- R105: the order of two additions is without effect. -/
theorem L640.add_swap (a b c : L640) : (a.add b).add c = (a.add c).add b := by
  have terms : ((a.add b).add c).terms = ((a.add c).add b).terms := BitVec.eq_of_toNat_eq (by simp only [L640.terms_add]; omega)
  rw [L640.mk.injEq]
  exact ⟨add_right_comm a.acc b.acc c.acc, Bool.or_right_comm .., Bool.or_right_comm .., Bool.or_right_comm .., Bool.or_right_comm .., terms⟩

/-- Settles O19: a datum is added as its slot, and slots add modulo 2^640 with their flags ORed and their counts saturating. -/
theorem Machine.slotsAddExactlyInAnyOrder : Obligations.SlotsAddExactlyInAnyOrder := by
  intro a b c x y
  refine ⟨rfl, L640.terms_add a b, rfl, rfl, rfl, rfl, fun fin => ?_, L640.add_swap a b c, ?_, ?_⟩
  · cases x with
    | num => exact L640.acc_addK ..
    | nan | inf => cases fin
  · simp only [L640.addFp_eq_add, L640.add_swap a x.slot]
  · simp only [L640.addFp_eq_add, L640.add_swap a b]

end Sys2Proof

/-! What the active threads take (R44, R153, R154), and what an advance does at its home (R246, R248, R268). -/

namespace Sys2Proof.Machine

open Sys2Proof.WB

/-! ### Registers and flags of threads -/

theorem Core.vreg_setV (c : Core) (t r v u w : Nat) : (c.setV t r v).vreg u w = if 64 * u + w = 64 * t + r then v % 2 ^ 32 else c.vreg u w := by
  simp only [Core.vreg, Core.setV, Tab.get_set]
  split
  · exact BitVec.toNat_ofNat ..
  · rfl

@[simp] theorem Core.vreg_setV_self (c : Core) (t r v : Nat) : (c.setV t r v).vreg t r = v % 2 ^ 32 := by
  rw [Core.vreg_setV, if_pos rfl]

/-- Registers of a thread are numbered below 64, so that no two share a place. -/
theorem Core.vreg_setV_ne (c : Core) {t r u w : Nat} (v : Nat) (hr : r < 64) (hw : w < 64) (h : u ≠ t ∨ w ≠ r) :
    (c.setV t r v).vreg u w = c.vreg u w := by
  rw [Core.vreg_setV, if_neg (by omega)]

@[simp] theorem Core.vreg_raise (c : Core) (t v u w : Nat) : (c.raise t v).vreg u w = c.vreg u w := rfl
@[simp] theorem Core.vget_raise (c : Core) (t v : Nat) (p : Bool) (u w : Nat) : (c.raise t v).vget p u w = c.vget p u w := rfl
@[simp] theorem Core.flags_vput (c : Core) (p : Bool) (t r v u : Nat) : (c.vput p t r v).flags u = c.flags u := by cases p <;> rfl

theorem Core.flags_raise (c : Core) (t v u : Nat) : (c.raise t v).flags u = if u = t then (c.flags t ||| v) % 32 else c.flags u := by
  simp only [Core.flags, Core.raise, Core.setFlags, Tab.get_set]
  split
  · exact BitVec.toNat_ofNat ..
  · rfl

/-- The last register of a result at `vd`. -/
def lastReg (p : Bool) (vd : Nat) : Nat := if p then vd + 1 else vd

theorem le_lastReg (p : Bool) (vd : Nat) : vd ≤ lastReg p vd := by
  unfold lastReg
  split <;> omega

theorem Core.vreg_vput_ne (c : Core) {p : Bool} {t vd u w : Nat} (v : Nat) (hr : lastReg p vd < 64) (hw : w < 64)
    (h : u ≠ t ∨ (w ≠ vd ∧ w ≠ lastReg p vd)) : (c.vput p t vd v).vreg u w = c.vreg u w := by
  cases p with
  | false => exact Core.vreg_setV_ne c v hr hw (by tauto)
  | true =>
    have hlast : vd + 1 < 64 := hr
    have houts : u ≠ t ∨ w ≠ vd + 1 := h.imp_right And.right
    exact (Core.vreg_setV_ne _ _ hlast hw houts).trans (Core.vreg_setV_ne c v (by omega) hw (by tauto))

theorem Core.vget_of_vreg {c d : Core} {p : Bool} {t u vd : Nat} (h : ∀ w, w = vd ∨ w = lastReg p vd → d.vreg t w = c.vreg u w) :
    d.vget p t vd = c.vget p u vd := by
  cases p with
  | false => exact h vd (.inl rfl)
  | true => simp only [Core.vget, if_true, h vd (.inl rfl), h (vd + 1) (.inr rfl)]

/-- A result reads back modulo the width of its destination. -/
theorem Core.vget_vput_self (c : Core) {p : Bool} {vd : Nat} (hr : lastReg p vd < 64) (t v : Nat) :
    (c.vput p t vd v).vget p t vd = v % 2 ^ (if p then 64 else 32) := by
  cases p with
  | false => exact Core.vreg_setV_self c t vd v
  | true =>
    have hlast : vd + 1 < 64 := hr
    have low : ((c.setV t vd v).setV t (vd + 1) (v / 2 ^ 32)).vreg t vd = v % 2 ^ 32 := by
      rw [Core.vreg_setV_ne _ _ hlast (by omega) (by omega), Core.vreg_setV_self]
    simp only [Core.vput, Core.vget, if_true, low, Core.vreg_setV_self]
    omega

/-! ### Results of the active threads -/

/-- A thread takes its result, and its flags are raised (R44). -/
def Core.takeRes (c : Core) (p : Bool) (vd t : Nat) (r : Ieee.Res) : Core := (c.vput p t vd r.1).raise t r.2

theorem Core.takeRes_frame (c : Core) (p : Bool) (vd t : Nat) (r : Ieee.Res) (x : Tab (BitVec 32)) (y : Tab (BitVec 5)) :
    { c.takeRes p vd t r with vregs := x, vflags := y } = { c with vregs := x, vflags := y } := by
  cases p <;> rfl

section
variable (c : Core) {p : Bool} {vd : Nat} (hr : lastReg p vd < 64) (f : Nat → Ieee.Res) (n : Nat)

/-- The first `n` threads have taken their results. -/
def Core.tookRes (c : Core) (p : Bool) (vd : Nat) (f : Nat → Ieee.Res) (n : Nat) : Core :=
  (List.range n).foldl (fun d t => d.takeRes p vd t (f t)) c

theorem Core.tookRes_succ : c.tookRes p vd f (n + 1) = (c.tookRes p vd f n).takeRes p vd n (f n) := by
  simp [Core.tookRes, List.range_succ]

theorem Core.flags_tookRes (t : Nat) : (c.tookRes p vd f n).flags t = if t < n then (c.flags t ||| (f t).2) % 32 else c.flags t := by
  induction n with
  | zero => rfl
  | succ n ih =>
    rw [Core.tookRes_succ, Core.takeRes, Core.flags_raise]
    by_cases h : t = n
    · subst h
      simp [ih]
    · simp only [if_neg h, Core.flags_vput, ih]
      exact if_congr (by omega) rfl rfl

theorem Core.tookRes_frame : { c.tookRes p vd f n with vregs := c.vregs, vflags := c.vflags } = c := by
  induction n with
  | zero => rfl
  | succ n ih =>
    rw [Core.tookRes_succ]
    exact (Core.takeRes_frame ..).trans ih

include hr

theorem Core.vreg_tookRes_ne {t w : Nat} (hw : w < 64) (h : n ≤ t ∨ (w ≠ vd ∧ w ≠ lastReg p vd)) : (c.tookRes p vd f n).vreg t w = c.vreg t w := by
  induction n with
  | zero => rfl
  | succ n ih =>
    rw [Core.tookRes_succ, Core.takeRes, Core.vreg_raise, Core.vreg_vput_ne _ _ hr hw (by omega)]
    exact ih (by omega)

theorem Core.vget_tookRes {t : Nat} (lt : t < n) : (c.tookRes p vd f n).vget p t vd = (f t).1 % 2 ^ (if p then 64 else 32) := by
  induction n with
  | zero => omega
  | succ n ih =>
    rw [Core.tookRes_succ, Core.takeRes, Core.vget_raise]
    by_cases h : t = n
    · subst h
      exact Core.vget_vput_self _ hr ..
    · rw [← ih (by omega)]
      refine Core.vget_of_vreg fun w hw => Core.vreg_vput_ne _ _ hr ?_ (.inl h)
      rcases hw with rfl | rfl
      · exact (le_lastReg ..).trans_lt hr
      · exact hr

/-- Every active thread reads its result back, and no other thread, register or part of the core changes. -/
theorem Core.eachThread_spec :
    let d := c.eachThread p vd f
    (∀ t < 64 * c.vslots, d.vget p t vd = (f t).1 % 2 ^ (if p then 64 else 32) ∧ d.flags t = (c.flags t ||| (f t).2) % 32)
    ∧ (∀ t, 64 * c.vslots ≤ t → d.vget p t vd = c.vget p t vd ∧ d.flags t = c.flags t)
    ∧ (∀ t r, r < 64 → r ≠ vd → r ≠ lastReg p vd → d.vreg t r = c.vreg t r)
    ∧ { d with vregs := c.vregs, vflags := c.vflags } = c := by
  intro d
  rw [show d = c.tookRes p vd f (64 * c.vslots) from rfl]
  refine ⟨fun t lt => ⟨Core.vget_tookRes c hr f _ lt, by rw [Core.flags_tookRes, if_pos lt]⟩, fun t ge => ⟨?_, ?_⟩,
    fun t r hw ne ne' => Core.vreg_tookRes_ne c hr f _ hw (.inr ⟨ne, ne'⟩), Core.tookRes_frame ..⟩
  · refine Core.vget_of_vreg fun w hw => Core.vreg_tookRes_ne c hr f _ ?_ (.inl ge)
    rcases hw with rfl | rfl
    · exact (le_lastReg ..).trans_lt hr
    · exact hr
  · rw [Core.flags_tookRes, if_neg (by omega)]

end

/-- Settles O21: `Core.eachThread_spec` for single registers and for pairs. -/
theorem everyActiveThreadTakesItsResults : Obligations.EveryActiveThreadTakesItsResults := by
  refine ⟨fun c vd f lt => ?_, fun c vd f lt => ?_⟩
  · obtain ⟨took, others, frame, rest⟩ := Core.eachThread_spec c (p := false) lt f
    exact ⟨took, others, fun t r hr ne => frame t r hr ne ne, rest⟩
  · exact Core.eachThread_spec c (p := true) (Nat.add_lt_of_lt_sub lt) f

/-! ### Advances -/

theorem State.setArm_pmps (s : State) (k i : Nat) (on : Bool) : (s.setArm k i on).pmps = s.pmps := rfl

theorem State.postMp_pmps (s : State) (n : Nat) : (s.postMp n).pmps = s.pmps := by
  unfold State.postMp
  dsimp only
  split
  · rfl
  · split
    · rfl
    · split <;> rfl

theorem State.releaseEval_pmps (s : State) : s.releaseEval.pmps = s.pmps := by
  unfold State.releaseEval State.eachCtx
  generalize List.range 16 = l
  induction l generalizing s with
  | nil => rfl
  | cons k l ih =>
    refine (ih _).trans ?_
    dsimp only
    split
    · split <;> rfl
    · rfl

theorem State.cvalChanged_pmps (s : State) (n : Nat) : (s.cvalChanged n).pmps = s.pmps :=
  (State.releaseEval_pmps _).trans (State.postMp_pmps s n)

theorem State.pmp_of_pmps {s t : State} (h : t.pmps = s.pmps) (n : Nat) : t.pmp n = s.pmp n := by
  rw [State.pmp, h, State.pmp]

@[simp] theorem Pmp.cval_setPend (p : Pmp) (n x : Nat) : (p.setPend n x).cval = p.cval := by
  unfold Pmp.setPend
  split <;> rfl

/-- The CVAL that an advance gives (R246). -/
def Adv.raised (a : Adv) (v : Nat) : Nat :=
  match a.mode with
  | .add => v + a.amount
  | .raise => max v a.amount

theorem Adv.le_raised (a : Adv) (v : Nat) : v ≤ a.raised v := by
  unfold Adv.raised
  split <;> omega

/-- An advance leaves the physical Mileposts as they are, or changes its own, whose CVAL does not fall. -/
theorem State.applyAdv_pmps (s : State) (a : Adv) :
    (s.applyAdv a).pmps = s.pmps ∨ ∃ p, (s.pmp a.pmp).cval ≤ p.cval ∧ (s.applyAdv a).pmps = (s.setPmp a.pmp p).pmps := by
  unfold State.applyAdv
  extract_lets p add v held s1
  split
  · exact .inl rfl
  · split
    · exact .inl rfl
    · split
      · split
        · split
          · exact .inr ⟨_, (Pmp.cval_setPend ..).ge, rfl⟩
          · exact .inl rfl
        · exact .inl rfl
      · split
        · exact .inl rfl
        · split
          · exact .inl rfl
          · refine .inr ⟨{ p with cval := v }, a.le_raised p.cval, ?_⟩
            split
            · split
              · exact State.releaseEval_pmps _
              · exact State.cvalChanged_pmps ..
            · exact State.cvalChanged_pmps ..

/-- R246: an advance of a LIVE Milepost that does not speculate, whose host post finds room, gives its CVAL. -/
theorem State.applyAdv_cval {s : State} {a : Adv} (live : (s.pmp a.pmp).st = .live) (plain : (s.pmp a.pmp).spec = false)
    (room : (∀ q, a.src = some q → q.queue = .U → a.epoch = none) ∨ (s.ctx a.k).effectRoom [.post a.pmp] = true) :
    ((s.applyAdv a).pmp a.pmp).cval = a.raised (s.pmp a.pmp).cval := by
  unfold State.applyAdv
  extract_lets p add v held s1
  rw [if_neg (by rw [live]; decide), if_neg (by rw [live]; decide)]
  split
  · rename_i spec _
    exact absurd (plain.symm.trans spec) (by decide)
  · have changed (t : State) (h : t.pmps = s1.pmps) : (t.pmp a.pmp).cval = a.raised p.cval := by
      rw [State.pmp_of_pmps h, State.pmp_setPmp_self]
      rfl
    have lets_go : (held && !(s.ctx a.k).effectRoom [.post a.pmp]) = false := by
      rcases room with none | room
      · have : held = false := by
          unfold held
          split
          · rename_i q hq
            by_cases hu : q.queue = .U
            · simp [none q hq hu]
            · simp [hu]
          · rfl
        rw [this, Bool.false_and]
      · rw [room, Bool.not_true, Bool.and_false]
    split
    · rename_i same
      exact same.symm
    · rw [if_neg (Bool.eq_false_iff.mp lets_go)]
      split
      · split
        · exact changed _ (State.releaseEval_pmps _)
        · exact changed _ (State.cvalChanged_pmps ..)
      · exact changed _ (State.cvalChanged_pmps ..)

/-- Settles O29: the branches of `State.applyAdv`, in each of which the CVAL of its Milepost stays or is raised. -/
theorem advancesNeverLowerAMilepost : Obligations.AdvancesNeverLowerAMilepost := by
  intro s a p t room
  refine ⟨fun dead => ?_, fun frozen => if_pos (by rw [frozen]; rfl), fun live plain room add => ?_, fun live plain room raise => ?_, fun n => ?_⟩
  · show s.applyAdv a = s
    unfold State.applyAdv
    rcases dead with h | h
    · exact (if_neg (by rw [h]; decide)).trans (if_pos (by rw [h]; rfl))
    · exact (if_neg (by rw [h]; decide)).trans (if_pos (by rw [h]; rfl))
  · rw [State.applyAdv_cval live plain room, Adv.raised, add]
  · rw [State.applyAdv_cval live plain room, Adv.raised, raise]
  · rcases s.applyAdv_pmps a with same | ⟨x, le, changed⟩
    · rw [State.pmp_of_pmps same, State.pmp_of_pmps same]
      exact ⟨Nat.le_refl _, fun _ => rfl⟩
    · rw [State.pmp_of_pmps changed, State.pmp_of_pmps changed, State.pmp_setPmp_self]
      exact ⟨le, fun ne => by rw [State.pmp_setPmp_ne s x ne]⟩

end Sys2Proof.Machine

/-! Buffers (R173, R174), Ridgepole barriers (R254 to R257), the Outrider's slots (R215, R216, R288), the array's instructions (R218, R219), and the events by
which instructions retire, advances arrive and waits end (R166, R210, R232). -/

namespace Sys2Proof.Machine

open Sys2Proof.WB

/-! ### Issue and events, once more by their results -/

/-- An instruction that a ready queue issues settles by the act of its body. -/
theorem issue_act {s : State} {q : QRef} {oc : OpCode} {w : Nat} (ready : Ready s q oc w) (serial : Bool) {body : Nat → Act} {a : Act}
    (hb : body w = a) : issue oc serial q s body = .next (s.settle q w a) := by
  rw [issue_ready ready, hb]

/-- An instruction that changes its own core, but no queue of it, and stays in flight. -/
theorem issue_enter_core {s : State} {q : QRef} {oc : OpCode} {w : Nat} (ready : Ready s q oc w) (serial : Bool) {body : Nat → Act} {work : Work}
    {own : List (Nat × AdvMode × Nat)} {nx : Next} {f : Core → Core} (hb : body w = .go (s.updCore q.core.val f) work own nx) (busy : work ≠ .now)
    (hq : ∀ r, (f (s.core q.core.val)).q r = (s.core q.core.val).q r) (hx : (f (s.core q.core.val)).ctx = (s.core q.core.val).ctx) :
    issue oc serial q s body = .next ((s.updCore q.core.val f).enter q w work own nx) :=
  issue_enter ready serial body hb busy (State.updCore_queue s q f hq) (by simp [State.ctxOf, State.updCore, hx])
    (State.epochOf_congr _ (State.updCore_val s _ f) rfl)

/-- An event of a core that serves a context on a die with a defined state, and what it lets happen there. -/
theorem onEngine_of_works {s : State} {c : CoreId} {k : Nat} (works : Works s c k) (f : State → State) :
    onEngine c.val s f = .next ((f s).after k) := by
  simp [onEngine, onCore, works.alive, works.up, works.ctx]

theorem Works.ctxOf {s : State} {c : CoreId} {k : Nat} (works : Works s c k) (t : Queue) : s.ctxOf ⟨c, t⟩ = k := by
  simp [State.ctxOf, works.ctx]

theorem State.awake_queue (s : State) (q : QRef) :
    (s.awake q).queue q = { s.queue q with wait := none, st := if (s.queue q).st = .waiting then .running else (s.queue q).st } :=
  State.queue_updQueue_self s q _

theorem State.awake_ctxOf (s : State) (q r : QRef) : (s.awake q).ctxOf r = s.ctxOf r := State.updQueue_ctxOf s q r _

theorem State.awake_serves (s : State) (q : QRef) : (s.awake q).serves q = s.serves q := by
  simp only [State.serves, State.stalled, State.awake, State.updQueue_coreCtx]
  rfl

section
variable {s : State} {q : QRef} {oc : OpCode} {w : Nat}

theorem Ready.running (ready : Ready s q oc w) : s.serves q = true ∧ (s.queue q).st = .running ∧ (s.queue q).wait = none := by
  have can := ready.can
  simp only [State.canIssue, Bool.and_eq_true, beq_iff_eq, Option.isNone_iff_eq_none] at can
  exact ⟨can.1.1, can.1.2, can.2⟩

/-- The low 11 bits of a ready queue's word are its opcode. -/
theorem Ready.fld_opcode (ready : Ready s q oc w) : Bits.fld w 0 11 = oc := by
  have := ready.opcode
  simp only [Bits.fld, Nat.shiftRight_eq_div_pow] at this ⊢
  omega

/-- The low byte of a ready queue's word is that of its opcode. -/
theorem Ready.fld_low (ready : Ready s q oc w) : Bits.fld w 0 8 = oc % 256 := by
  have low : Bits.fld w 0 8 < 256 := Nat.mod_lt _ (by decide)
  have := ready.opcode
  omega

theorem tryIssue_of_ready (ready : Ready s q oc w) (body : Nat → Act) : s.tryIssue oc true q body = s.settle q w (body w) := by
  have settled := issue_ready ready true body
  rw [issue_of_canIssue ready.alive ready.can] at settled
  exact Host.Outcome.next.inj settled

variable (ready : Ready (s.awake q) q oc w)
include ready

theorem fetch_of_awake_ready : (s.queue q).fetch = some w := by
  have word := ready.word
  rw [State.awake_queue] at word
  exact word

/-- A wait that ends runs its instruction again in the state in which the queue no longer waits. -/
theorem resume_of_awake_ready (body : State → Nat → Act) : s.resume oc q body = (s.awake q).tryIssue oc true q (body (s.awake q)) := by
  obtain ⟨serves, running, -⟩ := ready.running
  rw [State.awake_serves] at serves
  have not_draining : ((s.queue q).st != .draining) = true := by
    rw [State.awake_queue] at running
    cases h : (s.queue q).st <;> simp_all
  simp only [State.resume, serves, not_draining, Bool.true_or, Bool.and_true, if_true]
  rfl

/-- So the end of the wait gives what the instruction gives there. -/
theorem issue_and_resume (serial : Bool) (body : State → Nat → Act) :
    ∃ t, issue oc serial q (s.awake q) (body (s.awake q)) = .next t ∧ s.resume oc q body = t :=
  ⟨_, issue_ready ready serial _, (resume_of_awake_ready ready body).trans (tryIssue_of_ready ready _)⟩

end

/-! ### Buffers -/

@[simp] theorem Core.setBuf_q (c : Core) (n : Nat) (b : Option Buf) (r : Queue) : (c.setBuf n b).q r = c.q r := by cases r <;> rfl
@[simp] theorem Core.setSlot_q (c : Core) (n : Nat) (x : DSlot) (r : Queue) : (c.setSlot n x).q r = c.q r := by cases r <;> rfl

@[simp] theorem Core.withSumm_q (c : Core) (x : Tab (Option Int)) (r : Queue) : ({ c with summ := x } : Core).q r = c.q r := by cases r <;> rfl

/-- A wait on one Milepost, mapped and not poisoned. -/
theorem waitFor_single {s : State} {q : QRef} {mp : Nat} (mapped : (s.mpEntry (s.ctxOf q) mp).valid = true)
    (clean : s.mpPoisoned (s.ctxOf q) mp = false) (v : Nat) (ok : State → Act) (no : Act) :
    waitFor s q [mp] v ok no = if v ≤ s.mpSeen (s.ctxOf q) mp (s.epochOf (s.ctxOf q) (s.queue q)) then ok s else no := by
  simp [waitFor, mapped, clean]

theorem afterRecord_of_recorded {s : State} {q : QRef} (recorded : s.bufsRecorded q = true) (a : Act) : afterRecord s q a = a := if_pos recorded

section
variable {s : State} {q : QRef} {w : Nat} {b : Buf} (recorded : s.bufsRecorded q = true)
include recorded

theorem bodyBdef_of_valid (hbase : addImm ((s.queue q).a (Bits.fld w 44 4)) (imm32 w 96) % 64 = 0)
    (hlen : (s.queue q).reg (Bits.fld w 48 6) % 64 = 0) (some_bytes : (s.queue q).reg (Bits.fld w 48 6) ≠ 0)
    (inside : addImm ((s.queue q).a (Bits.fld w 44 4)) (imm32 w 96) + (s.queue q).reg (Bits.fld w 48 6) ≤ storeSize)
    (free : (s.core q.core.val).buf (Bits.fld w 32 6) = none)
    (apart : ((s.core q.core.val).buffers.any fun e =>
      e.2.base < addImm ((s.queue q).a (Bits.fld w 44 4)) (imm32 w 96) + (s.queue q).reg (Bits.fld w 48 6)
        && addImm ((s.queue q).a (Bits.fld w 44 4)) (imm32 w 96) < e.2.base + e.2.len) = false) :
    bodyBdef q s w = .done (s.updCore q.core.val fun c => c.setBuf (Bits.fld w 32 6) (some
      { base := addImm ((s.queue q).a (Bits.fld w 44 4)) (imm32 w 96), len := (s.queue q).reg (Bits.fld w 48 6), writer := some q.queue })) := by
  refine (afterRecord_of_recorded recorded _).trans ((if_neg ?_).trans ((if_neg (Nat.not_lt.mpr inside)).trans (if_neg ?_)))
  · simp only [hbase, hlen, some_bytes, ne_eq, not_true_eq_false, or_self, not_false_eq_true]
  · simp only [free, apart, Option.isSome_none, Bool.false_eq_true, or_self, not_false_eq_true]

variable (hb : (s.core q.core.val).buf (Bits.fld w 32 6) = some b)
include hb

theorem bodyGive_of_held (held : b.writer = some q.queue ∨ b.readers.contains q.queue = true)
    (confirmed : q.queue = .O → unconfirmed (s.core q.core.val) b.base b.len = false) :
    bodyGive q s w = .done (s.updCore q.core.val fun c =>
      c.setBuf (Bits.fld w 32 6) (some (b.give q.queue (Bits.bit w 38) (Bits.fld w 39 5)))) := by
  have holds : ¬ (b.writer ≠ some q.queue ∧ (!b.readers.contains q.queue) = true) := by
    rintro ⟨hw, hr⟩
    rcases held with h | h
    · exact hw h
    · rw [h] at hr
      cases hr
  have no_prefetch : ¬ (decide (q.queue = .O) && unconfirmed (s.core q.core.val) b.base b.len) = true := by
    simp only [Bool.and_eq_true, decide_eq_true_eq, not_and, Bool.not_eq_true]
    exact confirmed
  rw [bodyGive, afterRecord_of_recorded recorded]
  simp only [hb, if_neg holds, if_neg no_prefetch]

theorem bodyTake_of_offered (offered : b.offers.contains (Bits.bit w 38, q.queue) = true)
    (free : Bits.bit w 38 = true → b.writer = none ∧ b.readers = []) (mapped : (s.mpEntry (s.ctxOf q) (Bits.fld w 54 13)).valid = true)
    (clean : s.mpPoisoned (s.ctxOf q) (Bits.fld w 54 13) = false)
    (reached : addImm ((s.queue q).reg (Bits.fld w 48 6)) (imm32 w 96) ≤ s.mpSeen (s.ctxOf q) (Bits.fld w 54 13) (s.epochOf (s.ctxOf q) (s.queue q))) :
    bodyTake q s w = .done (s.updCore q.core.val fun c => c.setBuf (Bits.fld w 32 6) (some (b.take q.queue (Bits.bit w 38)))) := by
  have granted : (b.offers.contains (Bits.bit w 38, q.queue) && (!Bits.bit w 38 || (b.writer.isNone && b.readers.isEmpty))) = true := by
    rw [offered, Bool.true_and]
    cases hw : Bits.bit w 38 with
    | false => rfl
    | true => simp [free hw]
  rw [bodyTake, afterRecord_of_recorded recorded]
  refine (waitFor_single mapped clean ..).trans ((if_pos reached).trans ?_)
  simp only [hb, if_pos granted]

theorem bodyBrel_of_held (held : b.writer = some q.queue) (withdrawn : b.offers = []) :
    bodyBrel q s w = .done (s.updCore q.core.val fun c =>
      { c.setBuf (Bits.fld w 32 6) none with summ := Tab.clearRange c.summ b.base (b.base + b.len) }) := by
  rw [bodyBrel, afterRecord_of_recorded recorded]
  simp only [hb, held, withdrawn, ne_eq, not_true_eq_false, or_self, if_false]

end

/-- R347: the table is recorded for an epoch that the five queues have reached and that has no record. -/
theorem State.recordCore_eq (s : State) (c : CoreId) (k n : Nat) :
    s.recordCore c k n = if s.coreInEpoch c k n = true ∧ ((s.core c.val).bufRec.any fun e => e.1 == n) = false then s.recordBufs c.val n else s := by
  simp only [State.recordCore, Bool.and_eq_true, Bool.not_eq_true']

/-- Settles O13: each instruction's act is a change of its buffer, and the record goes through the open epochs. -/
theorem bufferInstructionsComplete : Obligations.BufferInstructionsComplete := by
  refine ⟨?_, ?_⟩
  · intro s q w recorded fits c n
    refine ⟨?_, ?_, ?_, ?_⟩
    · intro ready base len hbase hlen some_bytes inside free apart
      exact issue_core ready true _ (bodyBdef_of_valid recorded hbase hlen some_bytes inside free apart) (Core.setBuf_q _ _ _) rfl fits
    · intro b ready hb held confirmed
      exact issue_core ready true _ (bodyGive_of_held recorded hb held confirmed) (Core.setBuf_q _ _ _) rfl fits
    · intro b ready hb offered free mapped clean reached
      exact issue_core ready true _ (bodyTake_of_offered recorded hb offered free mapped clean reached) (Core.setBuf_q _ _ _) rfl fits
    · intro b ready hb held withdrawn
      exact issue_core ready true _ (bodyBrel_of_held recorded hb held withdrawn) (fun r => (Core.withSumm_q ..).trans (Core.setBuf_q ..)) rfl fits
  · intro s core k works u
    rw [exec, execBufferTableRecorded, onEngine_of_works works, works.ctxOf]
    have step : (fun (u : State) (e : Epoch) => if e.st = .opened then u.recordCore core k e.n else u) = fun u e =>
        if e.st = .opened ∧ u.coreInEpoch core k e.n = true ∧ ((u.core core.val).bufRec.any fun b => b.1 == e.n) = false then u.recordBufs core.val e.n
        else u := by
      funext u e
      rw [State.recordCore_eq]
      exact (ite_and ..).symm
    simp only [step]
    rfl

/-! ### Ridgepole -/

/-- A waiting RIDGE whose group is whole and has reached its round, and whose next epoch may open, completes (R255, R257, R339). -/
theorem bodyRidgeEnd_of_reached {u : State} {q : QRef} {w k : Nat} {g : RGroup} (hk : u.ctxOf q = k) (group : u.rgroup k (Bits.fld w 32 6) = some g)
    (clean : ∀ e ∈ u.participants k g, (u.part (partKey k (Bits.fld w 32 6) e.1 e.2)).poisoned = false) {r : Nat}
    (hr : valueOp (u.queue q) (Bits.fld w 54 6) (imm32 w 64) = r)
    (reached : ∀ m, u.partMin k (Bits.fld w 32 6) (u.participants k g) (u.epochOf k (u.queue q)) = some m → r ≤ m)
    (may : u.stepGroup k = some (Bits.fld w 32 6) → (u.queue q).round < r →
      u.depthAllows k r = true ∧ u.mayOpen k (u.val STEP_BASE (k + 1) + r + 1) = true) : bodyRidgeEnd q u w = .done u := by
  have whole : ¬ ((u.participants k g).any fun e => (u.part (partKey k (Bits.fld w 32 6) e.1 e.2)).poisoned) = true := by simpa using clean
  have opens : ¬ (u.stepGroup k = some (Bits.fld w 32 6) ∧ (u.queue q).round < r
      ∧ (!(u.depthAllows k r && u.mayOpen k (u.val STEP_BASE (k + 1) + r + 1))) = true) := by
    rintro ⟨sg, before, held⟩
    obtain ⟨depth, bank⟩ := may sg before
    rw [depth, bank] at held
    cases held
  simp only [bodyRidgeEnd, hk, group, hr, if_neg whole, if_neg opens]
  cases least : u.partMin k (Bits.fld w 32 6) (u.participants k g) (u.epochOf k (u.queue q)) with
  | none => rfl
  | some m => exact if_neg (by simpa using reached m least)

/-- Settles O14: an arrival raises and waits, and a RIDGE that completes takes the last branch of `bodyRidgeEnd`. -/
theorem ridgesArriveAndComplete : Obligations.RidgesArriveAndComplete := by
  refine ⟨?_, ?_⟩
  · intro s q w ready k gn
    refine ⟨?_, fun outside => ?_⟩
    · intro g hg part u
      refine issue_wait ready true _ ?_
      have takes_part : (!s.isPart (s.ctxOf q) g q) = false := by rw [show s.isPart (s.ctxOf q) g q = true from part]; rfl
      have group : s.rgroup (s.ctxOf q) (Bits.fld w 32 6) = some g := hg
      simp only [group, takes_part, Bool.false_eq_true, if_false]
      rfl
    · refine issue_halt ready true _ ?_
      dsimp only
      cases hg : s.rgroup (s.ctxOf q) (Bits.fld w 32 6) with
      | none => rfl
      | some g =>
        have other : s.isPart (s.ctxOf q) g q = false := outside g hg
        simp only [other, Bool.not_false, if_true]
        rfl
  · intro s q k w g works waits u ready fits gn r group ps clean reached may t
    have hk : s.ctxOf q = k := works.ctxOf q.queue
    have hreg : valueOp (u.queue q) (Bits.fld w 54 6) (imm32 w 64) = r := by rw [State.awake_queue]; rfl
    have ends : s.resume 0x00C q (bodyRidgeEnd q) = t := by
      rw [resume_of_awake_ready ready, tryIssue_of_ready ready,
        bodyRidgeEnd_of_reached ((State.awake_ctxOf ..).trans hk) group clean hreg reached may]
    have waits_at : s.ridgeAt q = some (gn, r) := by
      simp only [State.ridgeAt, waits, fetch_of_awake_ready ready]
      rfl
    rw [exec, execRidgeComplete, onEngine_of_works works]
    simp only [State.ridgeAgain, waits_at, ends, hk]

/-! ### Retire points and advances -/

/-- Settles O25: `State.retireNow` for the head of the queue, and `State.applyAdv` for the advance that no earlier one of its queue precedes. -/
theorem instructionsRetireAndAdvancesArrive : Obligations.InstructionsRetireAndAdvancesArrive := by
  refine ⟨?_, ?_⟩
  · intro s q k i rest works flying ended t
    rw [exec, execInstructionRetire, onEngine_of_works works]
    simp only [State.retireNow, flying, ended, if_true, works.ctxOf]
    rfl
  · intro s i a up hi defined first
    have in_turn : (a.src.isSome && (s.transit.take i).any fun b => b.src == a.src) = false := by
      cases hs : a.src with
      | none => rfl
      | some q =>
        have : ∀ b ∈ s.transit.take i, b.src ≠ some q := fun b hb => by
          rcases first b hb with h | h
          · exact hs ▸ h
          · exact absurd (hs.symm.trans h) (by simp)
        simpa using this
    rw [exec, execMilepostAdvanceArrive, onDie]
    simp only [hi, Option.map_some, Option.getD_some, defined, whenUp_of_up up, in_turn, Bool.false_eq_true, if_false]

/-! ### Waits that end -/

section
variable {s : State} {q : QRef} {k w : Nat} (works : Works s q.core k)
include works

theorem onCore_of_works (f : State → State) : onCore q.core.val s f = .next (f s) := by
  simp [onCore, works.alive]

theorem exec_milepostWaitDone_of_ready {oc : OpCode} {nf : Nat → Nat}
    (which : oc = 0x008 ∧ nf = waitOne ∨ oc = 0x009 ∧ nf = waitMany) (waits : (s.queue q).wait = some .milepost) (ready : Ready (s.awake q) q oc w) :
    ∃ t, issue oc true q (s.awake q) (bodyWait nf q (s.awake q)) = .next t ∧ exec (.milepostWaitDone q) s = .next (t.after k) := by
  obtain ⟨t, issued, resumed⟩ := issue_and_resume ready true (bodyWait nf q)
  refine ⟨t, issued, ?_⟩
  rw [exec, execMilepostWaitDone, onEngine_of_works works, ← resumed]
  simp only [State.waitAgain, waits, fetch_of_awake_ready ready, ready.fld_opcode]
  rcases which with ⟨rfl, rfl⟩ | ⟨rfl, rfl⟩ <;> rfl

theorem exec_takeGrant_of_ready (waits : (s.queue q).wait = some .take) (ready : Ready (s.awake q) q 0x012 w) :
    ∃ t, exec (.take q) (s.awake q) = .next t ∧ exec (.takeGrant q) s = .next (t.after k) := by
  obtain ⟨t, issued, resumed⟩ := issue_and_resume ready true (bodyTake q)
  refine ⟨t, issued, ?_⟩
  rw [exec, execTakeGrant, onEngine_of_works works, ← resumed]
  simp only [waits, if_true]

/-- What DESCRIPTOR_SLOT_READY runs again, by the low byte of the word. -/
theorem exec_descriptorSlotReady_of_ready {oc : OpCode} {serial : Bool} {body : QRef → State → Nat → Act} (hq : q.queue = .O) {ds : Fin 64}
    (waits : (s.queue q).wait = some (.slot ds.val)) (ready : Ready (s.awake q) q oc w)
    (which : (oc, body) ∈ [(0x100, bodyDarm), (0x101, bodyDrearm), (0x102, bodyDgo), (0x103, bodyPref), (0x104, bodyDstop)]) :
    ∃ t, issue oc serial q (s.awake q) (body q (s.awake q)) = .next t ∧ exec (.descriptorSlotReady q.core ds) s = .next t := by
  obtain ⟨t, issued, resumed⟩ := issue_and_resume ready serial (body q)
  refine ⟨t, issued, ?_⟩
  have here : (⟨q.core, .O⟩ : QRef) = q := by rw [← hq]
  rw [exec, execDescriptorSlotReady, onCore_of_works works, ← resumed]
  simp only [here, waits, fetch_of_awake_ready ready, ne_eq, not_true_eq_false, if_false]
  have low := ready.fld_low
  simp only [List.mem_cons, Prod.mk.injEq, List.not_mem_nil, or_false] at which
  rcases which with ⟨rfl, rfl⟩ | ⟨rfl, rfl⟩ | ⟨rfl, rfl⟩ | ⟨rfl, rfl⟩ | ⟨rfl, rfl⟩ <;> simp only [low]

theorem exec_uIssueWaitDone_of_ready {op : Nat} (hq : q.queue = .U) (waits : (s.queue q).wait = some .uIssue)
    (ready : Ready (s.awake q) q (0x500 + op) w) (small : op < 256) :
    ∃ t, issue (0x500 + op) true q (s.awake q) (bodyU op q (s.awake q)) = .next t ∧ exec (.uIssueWaitDone q.core) s = .next t := by
  obtain ⟨t, issued, resumed⟩ := issue_and_resume ready true (bodyU op q)
  refine ⟨t, issued, ?_⟩
  have here : (⟨q.core, .U⟩ : QRef) = q := by rw [← hq]
  have low : Bits.fld w 0 8 = op := by rw [ready.fld_low]; omega
  rw [exec, execUIssueWaitDone, onCore_of_works works, ← resumed]
  simp only [here, waits, fetch_of_awake_ready ready, low]

theorem exec_tileSlotWaitDone_of_ready {oc : OpCode} {body : QRef → State → Nat → Act} (hq : q.queue = .T)
    (waits : (s.queue q).wait = some .tileSlot) (ready : Ready (s.awake q) q oc w) (which : oc = 0x200 ∧ body = bodyMm ∨ oc = 0x208 ∧ body = bodyAttn) :
    ∃ t, issue oc true q (s.awake q) (body q (s.awake q)) = .next t ∧ exec (.tileSlotWaitDone q.core) s = .next t := by
  obtain ⟨t, issued, resumed⟩ := issue_and_resume ready true (body q)
  refine ⟨t, issued, ?_⟩
  have here : (⟨q.core, .T⟩ : QRef) = q := by rw [← hq]
  rw [exec, execTileSlotWaitDone, onCore_of_works works, ← resumed]
  simp only [here, waits, fetch_of_awake_ready ready, ready.fld_low]
  rcases which with ⟨rfl, rfl⟩ | ⟨rfl, rfl⟩ <;> rfl

end

/-- Settles O26: each event resumes the body of the word at which its queue waits, which is the body that issues. -/
theorem endedWaitsRunTheInstructionAgain : Obligations.EndedWaitsRunTheInstructionAgain := by
  intro s q k w works x u
  refine ⟨fun waits ready => ?_, fun waits ready => ?_, fun waits ready => exec_takeGrant_of_ready works waits ready, fun hq ds waits => ?_,
    fun hq waits op i listed ready => ?_, fun hq waits => ⟨fun ready => ?_, fun ready => ?_⟩⟩
  · exact exec_milepostWaitDone_of_ready works (.inl ⟨rfl, rfl⟩) waits ready
  · exact exec_milepostWaitDone_of_ready works (.inr ⟨rfl, rfl⟩) waits ready
  · refine ⟨fun ready => ?_, fun ready => ?_, fun ready => ?_, fun ready => ?_, fun ready => ?_⟩
    · exact exec_descriptorSlotReady_of_ready works (body := bodyDarm) (serial := false) hq waits ready (by simp)
    · exact exec_descriptorSlotReady_of_ready works (body := bodyDrearm) (serial := false) hq waits ready (by simp)
    · exact exec_descriptorSlotReady_of_ready works (body := bodyDgo) (serial := false) hq waits ready (by simp)
    · exact exec_descriptorSlotReady_of_ready works (body := bodyPref) (serial := false) hq waits ready (by simp)
    · exact exec_descriptorSlotReady_of_ready works (body := bodyDstop) (serial := true) hq waits ready (by simp)
  · simp only [List.mem_cons, Prod.mk.injEq, List.not_mem_nil, or_false] at listed
    obtain ⟨rfl, rfl⟩ | ⟨rfl, rfl⟩ | ⟨rfl, rfl⟩ | ⟨rfl, rfl⟩ := listed <;>
      exact exec_uIssueWaitDone_of_ready works hq waits ready (by decide)
  · exact exec_tileSlotWaitDone_of_ready works hq waits ready (.inl ⟨rfl, rfl⟩)
  · exact exec_tileSlotWaitDone_of_ready works hq waits ready (.inr ⟨rfl, rfl⟩)

end Sys2Proof.Machine

/-! The Outrider's instructions (Table 6-9, R215, R216, R276, R288 to R293) and the array's (R218, R219): the body of each, once its checks are passed. -/

namespace Sys2Proof.Machine

open Sys2Proof.WB

/-! ### Slots of the Outrider -/

section
variable {s : State} {q : QRef} {w : Nat}

/-- A descriptor that every check of R174, R206, R273 and R274 takes is loaded. -/
theorem loadDesc_of_sound {a : Nat} (ha : addImm ((s.queue q).a (Bits.fld w 38 4)) (imm32 w 96) = a)
    (loads : a % 64 = 0 ∧ a + 64 ≤ storeSize ∧ (s.core q.core.val).sentinel q.queue false a 64 = none
      ∧ (s.core q.core.val).runWrites a 64 = false ∧ linePoisoned (s.core q.core.val).poison a 64 = false
      ∧ descMalformed ((s.core q.core.val).readNat a 64) = false) (go : Nat → BitVec 512 → Act) :
    loadDesc q s w go = go a (BitVec.ofNat 512 ((s.core q.core.val).readNat a 64)) := by
  obtain ⟨aligned, inside, held, unwritten, clean, sound⟩ := loads
  have region : firstOf [coreRegion a 64 64, (s.core q.core.val).access q.queue false a 64] = none := by
    rw [coreRegion_of_inside aligned inside, Core.access_of_sentinel held]
    rfl
  simp only [loadDesc, ha, Act.check_of_none region, unwritten, clean, sound, Bool.false_eq_true, if_false]

variable {x : DSlot} (hx : (s.core q.core.val).slot (Bits.fld w 32 6) = x)
include hx

section
variable {a : Nat} (ha : addImm ((s.queue q).a (Bits.fld w 38 4)) (imm32 w 96) = a)
  (loads : a % 64 = 0 ∧ a + 64 ≤ storeSize ∧ (s.core q.core.val).sentinel q.queue false a 64 = none
    ∧ (s.core q.core.val).runWrites a 64 = false ∧ linePoisoned (s.core q.core.val).poison a 64 = false
    ∧ descMalformed ((s.core q.core.val).readNat a 64) = false)
include ha loads

theorem bodyDarm_of_idle (idle : x.st.busy = false) :
    bodyDarm q s w = .done (s.updCore q.core.val fun c =>
      c.setSlot (Bits.fld w 32 6) (armedSlot (BitVec.ofNat 512 (c.readNat a 64)) a)) := by
  simp only [bodyDarm, State.updCore, hx, idle, Bool.false_eq_true, if_false, loadDesc_of_sound ha loads]

theorem bodyDrearm_of_room (room : ¬ (x.st.busy = true ∧ x.pend.isSome = true)) :
    bodyDrearm q s w = .done (s.updCore q.core.val fun c => c.setSlot (Bits.fld w 32 6)
      (if x.st.busy then { x with pend := some (BitVec.ofNat 512 (c.readNat a 64), a) }
        else armedSlot (BitVec.ofNat 512 (c.readNat a 64)) a)) := by
  simp only [bodyDrearm, State.updCore, hx, Bool.and_eq_true, if_neg room, loadDesc_of_sound ha loads]

end

theorem bodyDgo_of_armed (armed : x.st = .armed) (may : s.descRefused (s.ctxOf q) (descOf x.desc.toNat) = none)
    (peer : s.peerMissing (s.ctxOf q) x.chunk (descOf x.desc.toNat) = none)
    (apart : s.slotHazard q.core.val (s.ctxOf q) (Bits.fld w 32 6) = false) :
    bodyDgo q s w = .go (s.updCore q.core.val fun c => c.setSlot (Bits.fld w 32 6)
        { x with st := .running, run := some { instr := s.nextId, epoch := s.epochOf (s.ctxOf q) (s.queue q) } })
      (.dgo (Bits.fld w 32 6)) ((descOf x.desc.toNat).advs x.chunk) .seq := by
  have not_empty : ¬ x.st = .empty := by rw [armed]; decide
  have idle : ¬ x.st.busy = true := by rw [armed]; decide
  simp only [bodyDgo, hx, if_neg not_empty, if_neg idle, may, peer, apart, Bool.false_eq_true, if_false]

theorem bodyPref_of_armed (armed : x.st = .armed) (mapped : (s.mpEntry (s.ctxOf q) (Bits.fld w 48 13)).valid = true)
    (inside : (descOf x.desc.toNat).dstk = 0) (peer : s.peerMissing (s.ctxOf q) x.chunk (descOf x.desc.toNat) = none)
    (apart : s.slotHazard q.core.val (s.ctxOf q) (Bits.fld w 32 6) = false) {v : Nat}
    (hv : addImm ((s.queue q).reg (Bits.fld w 42 6)) (imm32 w 96) = v) :
    bodyPref q s w = .go (s.updCore q.core.val fun c => c.setSlot (Bits.fld w 32 6)
        { x with st := .prefetching
                 run := some { pref := true, instr := s.nextId
                               reached := decide (v ≤ s.mpSeen (s.ctxOf q) (Bits.fld w 48 13) (s.epochOf (s.ctxOf q) (s.queue q)))
                               mp := Bits.fld w 48 13, value := BitVec.ofNat 64 v, epoch := s.epochOf (s.ctxOf q) (s.queue q) } })
      (.pref (Bits.fld w 32 6)) [] .seq := by
  have not_empty : ¬ x.st = .empty := by rw [armed]; decide
  have idle : ¬ x.st.busy = true := by rw [armed]; decide
  simp only [bodyPref, hx, hv, mapped, Bool.not_true, Bool.false_eq_true, if_neg not_empty, if_neg idle, inside, peer, apart, ne_eq, not_true_eq_false,
    if_false]

end

/-- Settles O16: each instruction's act, once its checks are passed, changes its slot and settles as an instruction of its own core does. -/
theorem descriptorInstructionsComplete : Obligations.DescriptorInstructionsComplete := by
  intro s q w c ds x k d a loads
  refine ⟨?_, ?_, ?_, ?_, ?_, ?_⟩
  · intro ready fits idle sound
    exact issue_core ready false _ (bodyDarm_of_idle rfl rfl sound idle) (Core.setSlot_q _ _ _) rfl fits
  · intro ready fits room sound
    exact issue_core ready false _ (bodyDrearm_of_room rfl rfl sound room) (Core.setSlot_q _ _ _) rfl fits
  · intro ready armed may peer apart
    exact issue_enter_core ready false (bodyDgo_of_armed rfl armed may peer apart) (by simp) (Core.setSlot_q _ _ _) rfl
  · intro ready armed mapped inside peer apart v
    exact issue_enter_core ready false (bodyPref_of_armed rfl armed mapped inside peer apart rfl) (by simp) (Core.setSlot_q _ _ _) rfl
  · intro ready fits running paused held t
    exact issue_act ready true (if_neg (not_or.mpr ⟨running, paused⟩))
  · intro ready fits free
    exact issue_writeReg ready false free rfl fits

/-! ### The array -/

section
variable {s : State} {q : QRef} {w : Nat}

/-- An MM whose tile is as its word says and whose operands pass the checks of R626 reads its operands. -/
theorem bodyMm_of_sound {o : MmOps} (ho : mmOps (s.queue q) w = o) (opens : o.opened = true → ((s.core q.core.val).tile o.t).st = .free)
    (goes_on : o.opened = false → ((s.core q.core.val).tile o.t).st = .accumulating ∧ ((s.core q.core.val).tile o.t).attn = false)
    (sound : mmCheck (s.core q.core.val) o = none) :
    bodyMm q s w = match o.poisoned (s.core q.core.val) with
      | some a => hc60 s q a
      | none => .go (s.mmRun q o) .array [] .seq := by
  cases opened : o.opened with
  | true =>
    simp only [bodyMm, ho, opened, opens opened, Act.check_of_none sound]
    rfl
  | false =>
    obtain ⟨st, plain⟩ := goes_on opened
    simp only [bodyMm, ho, opened, st, plain, Act.check_of_none sound]
    rfl

theorem bodyAttn_of_sound {o : AttnOps} (ho : attnOps (s.queue q) w = o)
    (opens : o.opened = true → (s.core q.core.val).tile0.st = .free ∧ (s.core q.core.val).tile1.st = .free)
    (goes_on : o.opened = false → (s.core q.core.val).attnHeld = true) (sound : attnCheck (s.core q.core.val) o (Bits.fld w 76 5) = none)
    (free : (s.queue q).streamFrame o.reg = none) :
    bodyAttn q s w = match o.poisoned (s.core q.core.val) with
      | some a => hc60 s q a
      | none => .go (s.attnRun q o) .attn [] .seq := by
  have writes : (s.queue q).streamWrite o.reg = none := congrArg (Option.map _) free
  have checks : firstOf [attnCheck (s.core q.core.val) o (Bits.fld w 76 5), (s.queue q).streamWrite o.reg] = none := by rw [sound, writes]; rfl
  cases opened : o.opened with
  | true =>
    obtain ⟨first, second⟩ := opens opened
    simp only [bodyAttn, ho, opened, first, second, Act.check_of_none checks]
    rfl
  | false =>
    simp only [bodyAttn, ho, opened, goes_on opened, Act.check_of_none checks]
    rfl

end

/-- Settles O17: past its checks an MM or ATTN halts at a poisoned place that it reads, and else gives the array its work. -/
theorem arrayInstructionsComplete : Obligations.ArrayInstructionsComplete := by
  intro s q w c
  refine ⟨?_, ?_⟩
  · intro ready o opens goes_on sound
    have act := bodyMm_of_sound (w := w) rfl opens goes_on sound
    refine ⟨fun clean => issue_act ready true (act.trans ?_), fun a bad => issue_act ready true (act.trans ?_)⟩
    · rw [show (mmOps (s.queue q) w).poisoned (s.core q.core.val) = none from clean]
    · rw [show (mmOps (s.queue q) w).poisoned (s.core q.core.val) = some a from bad]
  · intro ready o opens goes_on sound free
    have act := bodyAttn_of_sound (w := w) rfl opens goes_on sound free
    refine ⟨fun clean => issue_act ready true (act.trans ?_), fun a bad => issue_act ready true (act.trans ?_)⟩
    · rw [show (attnOps (s.queue q) w).poisoned (s.core q.core.val) = none from clean]
    · rw [show (attnOps (s.queue q) w).poisoned (s.core q.core.val) = some a from bad]

end Sys2Proof.Machine

/-! The V queue (R153 to R160, R220 to R222): the results of every active thread, the accesses of the core store, and the control instructions. -/

namespace Sys2Proof.Machine

open Sys2Proof.WB

/-! ### What changes of the threads leave of the core -/

@[simp] theorem Core.setFlags_q (c : Core) (t v : Nat) (r : Queue) : (c.setFlags t v).q r = c.q r := by cases r <;> rfl
@[simp] theorem Core.raise_q (c : Core) (t v : Nat) (r : Queue) : (c.raise t v).q r = c.q r := Core.setFlags_q ..
@[simp] theorem Core.setV_q (c : Core) (t n v : Nat) (r : Queue) : (c.setV t n v).q r = c.q r := by cases r <;> rfl
@[simp] theorem Core.vslots_q (c : Core) (n : Nat) (r : Queue) : ({ c with vslots := n } : Core).q r = c.q r := by cases r <;> rfl

@[simp] theorem Core.vput_q (c : Core) (p : Bool) (t n v : Nat) (r : Queue) : (c.vput p t n v).q r = c.q r := by
  cases p with
  | false => exact Core.setV_q ..
  | true => exact (Core.setV_q ..).trans (Core.setV_q ..)

@[simp] theorem Core.vput_ctx (c : Core) (p : Bool) (t n v : Nat) : (c.vput p t n v).ctx = c.ctx := by cases p <;> rfl

/-- What every step of a fold keeps, the fold keeps. -/
theorem foldl_keeps {α β γ : Type} {f : β → γ} {step : β → α → β} (h : ∀ b a, f (step b a) = f b) (l : List α) (b : β) :
    f (l.foldl step b) = f b := by
  induction l generalizing b with
  | nil => rfl
  | cons a l ih => exact (ih _).trans (h b a)

theorem Core.eachThread_q (c : Core) (p : Bool) (vd : Nat) (f : Nat → Ieee.Res) (r : Queue) : (c.eachThread p vd f).q r = c.q r :=
  foldl_keeps (f := fun d : Core => d.q r) (step := fun d t => (d.vput p t vd (f t).1).raise t (f t).2) (fun d t => by simp) _ c

theorem Core.eachThread_ctx (c : Core) (p : Bool) (vd : Nat) (f : Nat → Ieee.Res) : (c.eachThread p vd f).ctx = c.ctx :=
  foldl_keeps (f := Core.ctx) (step := fun d t => (d.vput p t vd (f t).1).raise t (f t).2) (fun d t => Core.vput_ctx d p t vd _) _ c

/-! ### Arithmetic -/

/-- An instruction whose body gives every active thread one result. -/
theorem issue_perThread {s : State} {q : QRef} {oc : OpCode} {w : Nat} (ready : Ready s q oc w) (serial : Bool) (fits : s.fits q w [] = true)
    {body : Nat → Act} {p : Bool} {f : Core → Nat → Ieee.Res} {results : Nat → Ieee.Res} (hb : body w = perThread q s w p f)
    (hf : f (s.core q.core.val) = results) :
    ∃ t, issue oc serial q s body = .next t ∧ t.Same ((s.updCore q.core.val fun c => c.eachThread p (vdF w) results).finish q w [] .seq) := by
  have act : body w = .done (s.updCore q.core.val fun c => c.eachThread p (vdF w) results) := by
    rw [hb, perThread, ← hf]
    rfl
  exact issue_core ready serial body act (Core.eachThread_q _ _ _ _) (Core.eachThread_ctx ..) fits

/-- Settles O20: the body of each instruction gives each active thread its result. -/
theorem vectorArithmeticCompletes : Obligations.VectorArithmeticCompletes := by
  intro s q w fits x c g p A B put
  refine ⟨?_, ?_, ?_, ?_, ?_, ?_, ?_, ?_, ?_, ?_, ?_, ?_, ?_, ?_, ?_, ?_, ?_⟩ <;> intro ready <;> exact issue_perThread ready true fits rfl rfl

theorem State.updCore_ctxOf_self {s : State} {q : QRef} {f : Core → Core} (hx : (f (s.core q.core.val)).ctx = (s.core q.core.val).ctx) :
    (s.updCore q.core.val f).ctxOf q = s.ctxOf q := by
  simp [State.ctxOf, State.updCore, hx]

/-- A change of the core that keeps its context counts in the context and epoch as before. -/
theorem State.countCrush_updCore {s : State} {q : QRef} {f : Core → Core} (hx : (f (s.core q.core.val)).ctx = (s.core q.core.val).ctx)
    (x : QueueSt) (n crushed saturated : Nat) :
    (s.updCore q.core.val f).countCrush ((s.updCore q.core.val f).ctxOf q)
        ((s.updCore q.core.val f).epochOf ((s.updCore q.core.val f).ctxOf q) x) n crushed saturated
      = (s.updCore q.core.val f).countCrush (s.ctxOf q) (s.epochOf (s.ctxOf q) x) n crushed saturated := by
  have same_epoch : (s.updCore q.core.val f).epochOf (s.ctxOf q) x = s.epochOf (s.ctxOf q) x :=
    State.epochOf_congr _ (State.updCore_val s q.core.val f) rfl
  rw [State.updCore_ctxOf_self hx, same_epoch]

/-! ### Accesses of the core store -/

section
variable {s : State} {q : QRef} {w : Nat}

theorem find_threads_of_clean {c : Core} {at_ : Nat → Nat} {n : Nat} (clean : ∀ t ∈ c.threads, linePoisoned c.poison (at_ t) n = false) :
    (c.threads.find? fun t => linePoisoned c.poison (at_ t) n) = none := by
  rw [List.find?_eq_none]
  exact fun t ht => Bool.not_eq_true _ |>.mpr (clean t ht)

end

/-- A clear of the sticky flags keeps the queues, and so does what VFLAGS writes. -/
theorem Core.readFlags_q (d : Core) (clears : Prop) [Decidable clears] (t vd v : Nat) (r : Queue) :
    (if clears then (d.vput false t vd v).setFlags t 0 else d.vput false t vd v).q r = d.q r := by
  split <;> simp

theorem Core.readFlags_ctx (d : Core) (clears : Prop) [Decidable clears] (t vd v : Nat) :
    (if clears then (d.vput false t vd v).setFlags t 0 else d.vput false t vd v).ctx = d.ctx := by
  split
  · exact Core.vput_ctx ..
  · exact Core.vput_ctx ..

/-- Settles O22: past the checks of every thread each instruction is one change of its core; those that add exactly or count a census settle by their act. -/
theorem vectorMemoryAndControlComplete : Obligations.VectorMemoryAndControlComplete := by
  intro s q w x c p n at_ term
  refine ⟨?_, ?_, ?_, ?_, ?_, ?_, ?_⟩
  · intro ready fits access clean
    refine issue_core ready true _ ((Act.check_of_none access ..).trans ?_) (Core.eachThread_q _ _ _ _) (Core.eachThread_ctx ..) fits
    rw [find_threads_of_clean clean]
    rfl
  · intro ready fits access
    refine issue_core ready true _ (Act.check_of_none access ..) (fun r => ?_) ?_ fits
    · exact foldl_keeps (f := fun d : Core => d.q r) (fun d t => Core.write_q ..) _ c
    · exact foldl_keeps (f := Core.ctx) (fun d t => Core.write_ctx ..) _ c
  · intro ready fits local_ access clean
    refine issue_act ready true ((if_pos local_).trans ((Act.check_of_none access ..).trans ?_))
    rw [find_threads_of_clean clean]
  · intro ready remote k sound
    refine issue_act ready true ((if_neg remote).trans (Act.check_of_none ?_ ..))
    exact List.findSome?_eq_none_iff.mpr sound
  · intro ready fits least most
    refine issue_core ready true _ (if_neg ?_) (Core.vslots_q _ _) rfl fits
    rintro (none_active | too_many)
    · exact absurd (none_active ▸ least) (by decide)
    · exact absurd most (Nat.not_le.mpr too_many)
  · intro ready fits
    refine issue_core ready true _ rfl (fun r => ?_) ?_ fits
    · exact foldl_keeps (f := fun d : Core => d.q r) (fun d t => Core.readFlags_q ..) _ c
    · exact foldl_keeps (f := Core.ctx) (fun d t => Core.readFlags_ctx ..) _ c
  · intro ready src dst bfb f bs m bl rs sound source target reads writes clean
    refine issue_act ready true ((Act.check_of_none ?_ ..).trans ((if_neg ?_).trans ?_))
    · refine firstOf_eq_none ?_
      simp only [List.forall_mem_cons, List.not_mem_nil, false_implies, implies_true, and_true]
      refine ⟨if_neg ?_, source, target, Core.access_of_sentinel reads, Core.access_of_sentinel writes⟩
      rw [Bool.not_eq_true]
      exact sound
    · rw [Bool.not_eq_true]
      exact clean
    · have counted := State.countCrush_updCore (s := s) (q := q) (f := fun c => c.write dst (rs.flatMap (·.1)) (rs.flatMap (·.2)))
        (Core.write_ctx ..) x (Bits.fld w 112 16) (crushes bl) (saturations bl)
      exact congrArg Act.done counted

end Sys2Proof.Machine

/-! The Fold engine (R108, R115, R134, R224, R317, R324) and the update engine (R305, R313, R332): the body of each instruction, once its checks are passed. -/

namespace Sys2Proof.Machine

open Sys2Proof.WB

/-! ### RET and NORM -/

section
variable {s : State} {q : QRef} {w : Nat} {chk : RetCheck} {o : RetOps} (ho : retOps (s.queue q) w = o)
include ho

/-- Past its checks a RET halts at a poisoned place that it reads (R450). -/
theorem bodyRet_of_poisoned (sound : s.retCheck q o = none) {a : Nat} (bad : o.poisoned (s.core q.core.val) = some a) :
    bodyRet chk false q s w = hc60 s q a := by
  simp only [bodyRet, ho, Act.check_of_none sound, bad]

/-- And else, where no replay holds it, it retires its tile with the shares that have reached it. -/
theorem bodyRet_of_clean (sound : s.retCheck q o = none) (clean : o.poisoned (s.core q.core.val) = none) {u : State}
    (hu : s.takeShares q o.t chk.shares = u) {t : Tile} (ht : (u.core q.core.val).tile o.t = t)
    (free : u.holdFor q chk.find (o.newNonfinite t (o.outputs t (if o.dk < 2 then o.lines t else []))) = .no) :
    bodyRet chk false q s w = if o.dk < 2 then .done (u.retStore q o)
      else .go ((u.retireTile q o.t).putAdds q u.nextId (u.ctxOf q) (u.epochOf (u.ctxOf q) (u.queue q)) (o.adds t (o.rows (u.core q.core.val) t)))
        (.adds 0) [] .seq := by
  simp only [bodyRet, ho, Act.check_of_none sound, clean, hu, ht, Bool.false_eq_true, if_false, free]

theorem bodyNorm_of_poisoned (sound : s.normCheck q .accumulating o = none) {a : Nat} (bad : o.normPoisoned (s.core q.core.val) = some a) :
    bodyNorm chk false q s w = hc60 s q a := by
  simp only [bodyNorm, ho, Bool.false_eq_true, if_false, Act.check_of_none sound, bad]

theorem bodyNorm_of_clean (sound : s.normCheck q .accumulating o = none) (clean : o.normPoisoned (s.core q.core.val) = none) {u : State}
    (hu : s.takeAttn q o.ar chk.shares = u) (free : u.holdFor q chk.find ((u.core q.core.val).normNewNonfinite o) = .no) :
    bodyNorm chk false q s w = .done (u.normStore q o) := by
  simp only [bodyNorm, ho, Bool.false_eq_true, if_false, Act.check_of_none sound, clean, hu, free]

end

/-! ### NSQ and CENS -/

theorem QueueSt.streamWrite_of_free {x : QueueSt} {n : Nat} (free : x.streamFrame n = none) : x.streamWrite n = none := congrArg (Option.map _) free

theorem misaligned_of_aligned {a al : Nat} (h : a % al = 0) : misaligned a al = none := if_neg (not_not.mpr h)
theorem beyond_of_inside {a n : Nat} (h : a + n ≤ storeSize) : beyond a n = none := if_neg (Nat.not_lt.mpr h)

section
variable {s : State} {q : QRef} {w : Nat} {o : SrcOps} (ho : srcOps (s.queue q) w = o) (sound : s.srcCheck q o = none)
  (free : (s.queue q).streamFrame (Bits.fld w 98 6) = none) (clean : s.srcPoison q o = none)
include ho sound free clean

theorem bodyNsq_of_eau (eau : Bits.fld w 41 3 = 2) {ad : Nat} (had : (s.queue q).a (Bits.fld w 76 4) = ad) {k : Nat} (hk : s.ctxOf q = k)
    (target : s.eauCheck k ad false = none) :
    bodyNsq q s w = .go ((s.srcEvidence q o).putAdds q (s.srcEvidence q o).nextId k ((s.srcEvidence q o).epochOf k (s.queue q))
        [(ad, false, squares (s.srcVals q o))])
      (.adds (retireRecord 0 0 0 (squares (s.srcVals q o)).read.isNan (squares (s.srcVals q o)).read.isInf 0 0 0)) [] .seq := by
  have checks : firstOf [none, s.srcCheck q o, s.eauCheck k ad false, (s.queue q).streamWrite (Bits.fld w 98 6)] = none := by
    rw [sound, target, QueueSt.streamWrite_of_free free]
    rfl
  simp only [bodyNsq, ho, had, hk, eau, if_true, Act.check_of_none checks, clean]

theorem bodyNsq_of_slot (local_ : Bits.fld w 41 3 ≠ 2) {ad : Nat} (had : (s.queue q).a (Bits.fld w 76 4) = ad) (aligned : ad % 32 = 0)
    (inside : ad + 96 ≤ storeSize) (held : (s.core q.core.val).sentinel .F true ad 96 = none)
    (slot_clean : linePoisoned (s.core q.core.val).poison ad 96 = false) :
    bodyNsq q s w = .done (State.updQueue ((s.srcEvidence q o).updCore q.core.val fun c =>
      c.write ad (Bits.toBytes 96 ((L640.ofNat (c.readNat ad 96)).add (squares (s.srcVals q o))).toNat) []) q fun x =>
        x.setReg (Bits.fld w 98 6) 0) := by
  have slot : firstOf [beyond ad 96, (s.core q.core.val).access .F true ad 96] = none := by
    rw [beyond_of_inside inside, Core.access_of_sentinel held]
    rfl
  have checks : firstOf [misaligned ad 32, s.srcCheck q o, firstOf [beyond ad 96, (s.core q.core.val).access .F true ad 96],
      (s.queue q).streamWrite (Bits.fld w 98 6)] = none := by
    rw [misaligned_of_aligned aligned, sound, slot, QueueSt.streamWrite_of_free free]
    rfl
  simp only [bodyNsq, ho, had, if_neg local_, Act.check_of_none checks, clean, slot_clean, Bool.false_eq_true, if_false]

end

/-- Settles O23: RET and NORM by their two lemmas each, NSQ by its two targets, and CENS by the same checks of its source. -/
theorem foldInstructionsComplete : Obligations.FoldInstructionsComplete := by
  intro s q w c k
  refine ⟨?_, ?_, ?_, ?_⟩
  · intro chk ready o u t sound
    exact ⟨fun a bad => issue_act ready true (bodyRet_of_poisoned rfl sound bad),
      fun clean free => issue_act ready true (bodyRet_of_clean rfl sound clean rfl rfl free)⟩
  · intro chk ready o u sound
    exact ⟨fun a bad => issue_act ready true (bodyNorm_of_poisoned rfl sound bad),
      fun clean free => issue_act ready true (bodyNorm_of_clean rfl sound clean rfl free)⟩
  · intro ready o ad sound free clean
    refine ⟨fun eau target => ?_, fun local_ aligned inside held slot_clean => ?_⟩
    · exact issue_act ready true (bodyNsq_of_eau rfl sound free clean eau rfl rfl target)
    · exact issue_act ready true (bodyNsq_of_slot rfl sound free clean local_ rfl aligned inside held slot_clean)
  · intro ready o sound free clean some_values
    have checks : firstOf [s.srcCheck q o, (s.queue q).streamWrite (Bits.fld w 98 6)] = none := by
      rw [sound, QueueSt.streamWrite_of_free free]
      rfl
    have counted : (s.srcVals q o).isEmpty = false := List.isEmpty_eq_false_iff.mpr some_values
    refine issue_act ready true ((Act.check_of_none checks ..).trans ?_)
    dsimp only
    rw [show s.srcPoison q (srcOps (s.queue q) w) = none from clean]
    dsimp only
    rw [if_neg (show ¬ (s.srcVals q (srcOps (s.queue q) w)).isEmpty = true from Bool.not_eq_true _ |>.mpr counted)]

/-! ### Updates -/

section
variable {s : State} {q : QRef} {w op : Nat} {o : UOps} (ho : uOps (s.queue q) op w = o)
include ho

/-- A U instruction outside epochs is refused (R305). -/
theorem bodyU_without_epochs (none_open : s.epochOf (s.ctxOf q) (s.queue q) = none) : bodyU op q s w = .halt s 0x51 0 o.ah := by
  simp only [bodyU, ho, none_open]

variable {n : Nat} (hn : s.epochOf (s.ctxOf q) (s.queue q) = some n) (oldest : (s.ctx (s.ctxOf q)).oldest = some n)
include hn oldest

theorem bodyU_of_count_zero (zero : o.n = 0) : bodyU op q s w = .done s := by
  simp only [bodyU, ho, hn, oldest, zero, ne_eq, not_true_eq_false, if_false, if_true]

theorem bodyU_of_sound {co : Core} (hco : s.core q.core.val = co) {h : Hyper} (hh : hyperOf (co.readNat o.ah 128) = h) {c : Nat}
    (hc : s.cbankOf (s.ctxOf q) h.tid = c) (some_elements : o.n ≠ 0) (region : coreRegion o.ah 128 64 = none)
    (held : co.sentinel .U false o.ah 128 = none) (clean : linePoisoned co.poison o.ah 128 = false)
    (record : hyperBad op (co.readNat o.ah 128) (s.tensorOn (s.ctxOf q) h.tid) = none) (free : (s.ctx (s.ctxOf q)).pinned h.tid (1 - c) = false)
    (sound : s.uCheck (s.ctxOf q) o h c = none) (unpoisoned : s.uPoison (s.ctxOf q) o h c = none)
    (room : s.uEffectWaits (s.ctxOf q) n o h c = false) :
    bodyU op q s w = .go (s.update q (s.ctxOf q) n o h c) (if (s.update q (s.ctxOf q) n o h c).eauq = s.eauq then .now else .sends) [] .seq := by
  have checks : firstOf [coreRegion o.ah 128 64, co.access .U false o.ah 128] = none := by
    rw [region, Core.access_of_sentinel held]
    rfl
  simp only [bodyU, ho, hn, oldest, hco, hh, hc, some_elements, Act.check_of_none checks, clean, record, free, Act.check_of_none sound, unpoisoned, room,
    ne_eq, not_true_eq_false, Bool.false_eq_true, if_false]

end

theorem issue_update {s : State} {q : QRef} {w op : Nat} (ready : Ready s q (0x500 + op) w) :
    let k := s.ctxOf q
    let o := uOps (s.queue q) op w
    let co := s.core q.core.val
    let h := hyperOf (co.readNat o.ah 128)
    let c := s.cbankOf k h.tid
    let run := issue (0x500 + op) true q s (bodyU op q s)
    (s.epochOf k (s.queue q) = none → run = .next (s.haltQ q 0x51 0 o.ah))
    ∧ ∀ n, s.epochOf k (s.queue q) = some n → (s.ctx k).oldest = some n →
      (o.n = 0 → s.fits q w [] = true → ∃ t, run = .next t ∧ t.Same (s.finish q w [] .seq))
      ∧ (o.n ≠ 0 → coreRegion o.ah 128 64 = none → co.sentinel .U false o.ah 128 = none → linePoisoned co.poison o.ah 128 = false →
        hyperBad op (co.readNat o.ah 128) (s.tensorOn k h.tid) = none → (s.ctx k).pinned h.tid (1 - c) = false →
        s.uCheck k o h c = none → s.uPoison k o h c = none → s.uEffectWaits k n o h c = false →
        let t := s.update q k n o h c
        run = .next (s.settle q w (.go t (if t.eauq = s.eauq then .now else .sends) [] .seq))) := by
  intro k o co h c run
  refine ⟨fun none_open => issue_halt ready true _ (bodyU_without_epochs rfl none_open), fun n hn oldest => ⟨fun zero fits => ?_, ?_⟩⟩
  · exact issue_plain ready true _ (bodyU_of_count_zero rfl hn oldest zero) fits
  · intro some_elements region held clean record free sound unpoisoned room t
    exact issue_act ready true (bodyU_of_sound rfl hn oldest rfl rfl rfl some_elements region held clean record free sound unpoisoned room)

/-- Settles O24: the four instructions issue the same body. -/
theorem updateInstructionsComplete : Obligations.UpdateInstructionsComplete := by
  intro s q w op i listed ready
  simp only [List.mem_cons, Prod.mk.injEq, List.not_mem_nil, or_false] at listed
  obtain ⟨rfl, rfl⟩ | ⟨rfl, rfl⟩ | ⟨rfl, rfl⟩ | ⟨rfl, rfl⟩ := listed <;> exact issue_update ready

end Sys2Proof.Machine

/-! The array's passes (R82, R95 to R101) and the end of a tile replay (Table 10-5, R350 to R359). -/

namespace Sys2Proof.Machine

open Sys2Proof.WB

/-! ### Passes -/

theorem onCore_of_alive {s : State} {c : Nat} (alive : s.dieLost c = false) (f : State → State) : onCore c s f = .next (f s) := by
  simp [onCore, alive]

/-- A choice by whether a list is empty. -/
theorem ite_isEmpty {α β : Type} [DecidableEq α] (l : List α) (a b : β) : (if l.isEmpty = true then a else b) = if l = [] then a else b :=
  if_congr List.isEmpty_iff rfl rfl

section
variable {s : State} {core : CoreId} {j : ArrayJob} {k0 len : Nat} {segs : List (Nat × Nat)} (alive : s.dieLost core.val = false)
  (runs : s.arrayRuns = true) (job : (s.core core.val).job = some j) (hsegs : j.segs = (k0, len) :: segs)
include alive runs job hsegs

/-- The end of a first pass, by the instruction whose segment runs. -/
theorem exec_segmentEnd (first : j.cells = []) :
    exec (.segmentEnd core) s = .next (match j.attn with
      | none => s.mmSegment core.val j k0 len
      | some o => s.attnSegment core.val o j k0 len) := by
  rw [exec, execSegmentEnd, onCore_of_alive alive, if_pos runs]
  cases attn : j.attn with
  | none => simp only [State.segmentEnd, job, hsegs, first, attn]
  | some o => simp only [State.segmentEnd, job, hsegs, first, attn]

theorem exec_replayPassEnd {p : Plan} (next : nextPlan j.cells = some p) :
    exec (.replayPassEnd core) s = .next (match j.attn with
      | none => s.mmReplay core.val j k0 len p
      | some o => s.attnReplay core.val o j k0 len p) := by
  rw [exec, execReplayPassEnd, onCore_of_alive alive, if_pos runs]
  cases attn : j.attn with
  | none => simp only [State.replayPassEnd, job, hsegs, next, attn]
  | some o => simp only [State.replayPassEnd, job, hsegs, next, attn]

end

/-! ### Tile replays -/

/-- The part after a tile replay on `spare` has ended, and one more is counted (R599, Table 10-5). -/
def State.replayCounted (s : State) (q : QRef) (spare : Nat) : State :=
  let v : State := { s with testAt := Tab.set [] s.testAt spare s.stepsNow }
  (v.countDie TILE_REPLAYS (coreDie q.core.val) 1).countReplay (s.ctxOf q) (v.epochOf (s.ctxOf q) (s.queue q))

section
variable {s : State} {core : CoreId} {after spare : Nat} {trig : Trigger} {x : ReplayCheck} (alive : s.dieLost core.val = false)
  (held : (s.queue ⟨core, .F⟩).wait = some (.replay after trig (some spare)))
include alive held

/-- A replay whose residues pass: the held retire goes on with what its trigger makes of it, or the part is in doubt. -/
theorem exec_tileReplayDone_of_pass :
    exec (.tileReplayDone core true x) s = .next (match (s.replayCounted ⟨core, .F⟩ spare).replayed core.val (s.ctxOf ⟨core, .F⟩)
        (State.epochOf { s with testAt := Tab.set [] s.testAt spare s.stepsNow } (s.ctxOf ⟨core, .F⟩) (s.queue ⟨core, .F⟩)) trig x with
      | some v => (v.endReplay ⟨core, .F⟩).retireIdle
      | none => (s.replayCounted ⟨core, .F⟩ spare).doubt core.val (some (s.ctxOf ⟨core, .F⟩))) := by
  rw [exec, execTileReplayDone, onCore_of_alive alive]
  simp only [held, Option.some_or, if_true]
  rfl

/-- A replay that fails, by whether one failed before it. -/
theorem exec_tileReplayDone_of_fail :
    exec (.tileReplayDone core false x) s = .next (
      if after = 0 then
        ((s.replayCounted ⟨core, .F⟩ spare).logCore 0xFB 0x04 4 spare (some (s.ctxOf ⟨core, .F⟩))).updQueue ⟨core, .F⟩ fun y =>
          { y with wait := some (((s.replayCounted ⟨core, .F⟩ spare).logCore 0xFB 0x04 4 spare (some (s.ctxOf ⟨core, .F⟩))).replayWait core.val
            (replayPlace core.val spare + 1) trig) }
      else (s.replayCounted ⟨core, .F⟩ spare).doubt spare (some (s.ctxOf ⟨core, .F⟩))) := by
  rw [exec, execTileReplayDone, onCore_of_alive alive]
  simp only [held, Option.some_or, Bool.false_eq_true, if_false]
  rfl

end

/-- Settles O27: a pass is that of the instruction whose segment runs; a replay ends as `State.replayed` has it for its trigger. -/
theorem arrayPassesAndReplaysComplete : Obligations.ArrayPassesAndReplaysComplete := by
  refine ⟨?_, ?_⟩
  · intro s core j k0 len segs alive runs job hsegs c x tile adj
    refine ⟨fun mm first => ?_, fun p mm next => ?_, fun o attn => ⟨fun first => ?_, fun p next => ?_⟩⟩
    · intro pass u
      rw [exec_segmentEnd alive runs job hsegs first, mm, ← ite_isEmpty]
      rfl
    · intro now r j' u
      rw [exec_replayPassEnd alive runs job hsegs next, mm, ← ite_isEmpty]
      rfl
    · rw [exec_segmentEnd alive runs job hsegs first, attn]
    · rw [exec_replayPassEnd alive runs job hsegs next, attn]
  · intro s core after spare trig pass x q c k alive held v ep u done goOn
    refine ⟨?_, ?_, ?_, ?_, ?_⟩
    · rintro rfl rfl
      exact exec_tileReplayDone_of_pass alive held
    · rintro rfl rfl
      exact exec_tileReplayDone_of_pass alive held
    · rintro rfl rfl
      have ends : done = _ := exec_tileReplayDone_of_pass alive held
      refine ⟨fun same d twin => ends.trans ?_, fun differs matches_ => ends.trans ?_, fun differs neither => ends.trans ?_⟩
      · have loser : (s.replayCounted ⟨core, .F⟩ spare).twinOf core.val = some d := twin
        simp only [State.replayed, same, if_true, loser]
        rfl
      · simp only [State.replayed, differs, matches_, Bool.false_eq_true, if_false, if_true]
        rfl
      · simp only [State.replayed, differs, neither, Bool.false_eq_true, if_false]
        rfl
    · rintro rfl first
      exact (exec_tileReplayDone_of_fail alive held).trans (congrArg _ (if_pos first))
    · rintro rfl again
      exact (exec_tileReplayDone_of_fail alive held).trans (congrArg _ (if_neg again))

end Sys2Proof.Machine

/-! Outrider's streams (R280 to R299), the exact accumulation units' adds and the clears of gradient stores (R321, R454 to R456). -/

namespace Sys2Proof.Machine

open Sys2Proof.WB

/-! ### Transfers -/

section
variable {s : State} {core : CoreId} {ds : Fin 64} {x : DSlot} {r : ChunkRun} (hx : (s.core core.val).slot ds.val = x) (hr : x.run = some r)
include hx hr

/-- A running or prefetching slot that nothing stops or holds issues its next transfer (R280, R283, R284). -/
theorem exec_transferIssue_of_free {k : Nat} (ctx : (s.core core.val).ctx = some k) (alive : s.dieLost core.val = false)
    (on : s.phase = .running) (safe : s.safeHold = false) (live : (s.core core.val).qO.st ≠ .halted) (runs : x.st = .running ∨ x.st = .prefetching)
    (left : r.issued = false) (fetches : r.pref = false ∨ x.pff = false) (below : (s.core core.val).outstanding < s.val OUTSTANDING (k + 1))
    (apart : s.blocked core.val k ds.val (descOf x.desc.toNat) r ((descOf x.desc.toNat).next x.chunk r) = false)
    (run_sound : s.runStop core.val k (descOf x.desc.toNat) r ((descOf x.desc.toNat).next x.chunk r) = none)
    (sound : s.xferStop core.val k ds.val (descOf x.desc.toNat) ((descOf x.desc.toNat).next x.chunk r) = none)
    (room : s.effectWaits core.val k (descOf x.desc.toNat) r ((descOf x.desc.toNat).next x.chunk r) = false) :
    exec (.transferIssue core ds) s
      = .next (s.putXfer core.val k ds.val (descOf x.desc.toNat) x r ((descOf x.desc.toNat).next x.chunk r)) := by
  have may : ¬ (s.phase ≠ .running ∨ s.safeHold = true ∨ (s.core core.val).qO.st = .halted ∨ (x.st ≠ .running ∧ x.st ≠ .prefetching) ∨ r.issued = true
      ∨ (r.pref = true ∧ x.pff = true) ∨ s.val OUTSTANDING (k + 1) ≤ (s.core core.val).outstanding) := by
    rintro (off | held | halted | ⟨idle, idle'⟩ | all | ⟨pref, faulted⟩ | full)
    · exact off on
    · exact Bool.false_ne_true (safe.symm.trans held)
    · exact live halted
    · exact runs.elim idle idle'
    · exact Bool.false_ne_true (left.symm.trans all)
    · exact fetches.elim (fun h => Bool.false_ne_true (h.symm.trans pref)) fun h => Bool.false_ne_true (h.symm.trans faulted)
    · exact Nat.not_le.mpr below full
  rw [exec, execTransferIssue, onCore_of_alive alive]
  simp only [hx, hr, ctx, Option.getD_some, if_neg may, apart, run_sound, sound, room, Bool.false_eq_true, if_false]

/-- A transfer that no acknowledgement and no earlier overlapping one holds is written and ends (R283, R284). -/
theorem exec_transferComplete_of_turn {k : Nat} {f : Xfer} (works : Works s core k) (out : r.out.find? (fun g => g.n == f.n) = some f)
    (acked : f.acks = 0) (turn : ∀ g ∈ r.out, g.n < f.n → ¬ (g.dst < f.dst + f.len ∧ f.dst < g.dst + g.len)) {u : State}
    (hu : (if (s.remoteWin k (descOf x.desc.toNat) f.dst).isSome then s else s.moveXfer core.val k (descOf x.desc.toNat) r.epoch x.chunk f) = u) :
    exec (.transferComplete core ds f.n) s = .next (((u.endXfer core.val k ds.val f).giveAgain core none).after k) := by
  have first : ¬ (r.out.any fun g => g.n < f.n && g.dst < f.dst + f.len && f.dst < g.dst + g.len) = true := by
    simp only [List.any_eq_true, Bool.and_eq_true, decide_eq_true_eq, not_exists, not_and]
    exact fun g hg hn => not_and.mp (turn g hg hn.1) hn.2
  rw [exec, execTransferComplete, onEngine_of_works works]
  simp only [hx, hr, works.ctx, Option.getD_some, out, acked, ne_eq, not_true_eq_false, if_false, if_neg first, hu]

/-! ### Prefetches -/

section
variable {k : Nat} (works : Works s core k) (pref : r.pref = true)
include works pref

/-- A prefetch whose Milepost is poisoned is cancelled (R293). -/
theorem exec_prefConfirm_of_poisoned (poisoned : s.mpPoisoned k r.mp = true) :
    exec (.prefConfirm core ds) s = .next (State.after
      (((s.updCore core.val fun co => co.setSlot ds.val x.toArmed).countDie PREF_CANCELLED (coreDie core.val) 1).giveAgain core
        (if (s.core core.val).giveMeets ds.val then some r.mp else none)) k) := by
  rw [exec, execPrefConfirm, onEngine_of_works works]
  simp only [works.ctxOf, hx, hr, pref, Bool.not_true, Bool.false_eq_true, if_false, poisoned, if_true, State.cancelPref, State.updCore]

/-- A held prefetch whose Milepost has reached its value is confirmed (R291). -/
theorem exec_prefConfirm_of_reached (held : x.st = .held) (clean : s.mpPoisoned k r.mp = false)
    (reached : r.value.toNat ≤ s.mpSeen k r.mp (s.epochOf k (s.queue ⟨core, .O⟩))) :
    exec (.prefConfirm core ds) s = .next (State.after
      (((s.updCore core.val fun co => co.setSlot ds.val (x.confirmed r)).countDie PREF_CONFIRMED (coreDie core.val) 1).giveAgain core none) k) := by
  rw [exec, execPrefConfirm, onEngine_of_works works]
  simp only [works.ctxOf, hx, hr, pref, Bool.not_true, Bool.false_eq_true, if_false, clean, if_pos (And.intro held reached), State.confirmPref,
    State.updCore]

end
end

/-! ### Pages -/

section
variable {s : State} {core : CoreId} {ds : Fin 64} {k : Nat} {x : DSlot} (hx : (s.core core.val).slot ds.val = x) (works : Works s core k)
  (paused : x.st = .paused)
include hx works paused

/-- The paused slot runs again (R298). -/
def State.runSlot (u : State) (core : CoreId) (ds : Fin 64) : State :=
  u.updCore core.val fun c => c.setSlot ds.val { c.slot ds.val with st := .running }

theorem exec_pageMapped_of_present (present : s.whereIs k x.pausedAt = .mem) :
    exec (.pageMapped core ds) s = .next ((s.runSlot core ds).after k) := by
  rw [exec, execPageMapped, onEngine_of_works works]
  simp only [hx, paused, works.ctx, Option.getD_some, ne_eq, not_true_eq_false, if_false, present]
  rfl

theorem exec_pageMapped_of_mapped {u : State} (absent : s.whereIs k x.pausedAt = .notPresent) (mapped : s.mapPage k x.pausedAt = some u) :
    exec (.pageMapped core ds) s = .next ((u.runSlot core ds).after k) := by
  rw [exec, execPageMapped, onEngine_of_works works]
  simp only [hx, paused, works.ctx, Option.getD_some, ne_eq, not_true_eq_false, if_false, absent, mapped]
  rfl

theorem exec_pageWaitLimitExpire_of_turn (turn : s.streamTurn core.val ds.val = true) :
    exec (.pageWaitLimitExpire core ds) s = .next ((s.taskAbort core ds.val x.pausedAt).after k) := by
  rw [exec, execPageWaitLimitExpire, onEngine_of_works works]
  simp only [hx, paused, turn, ne_eq, not_true_eq_false, Bool.true_eq_false, or_self, if_false]

end

/-- Settles O28: each event is the one branch that its premises leave open. -/
theorem descriptorStreamsGoOn : Obligations.DescriptorStreamsGoOn := by
  refine ⟨?_, ?_, ?_⟩
  · intro s core ds r c x d hr
    refine ⟨?_, ?_⟩
    · intro k ctx alive on safe live runs left fetches below apart run_sound sound room
      exact exec_transferIssue_of_free rfl hr ctx alive on safe live runs left fetches below apart run_sound sound room
    · intro k f works out acked turn u
      exact exec_transferComplete_of_turn rfl hr works out acked turn rfl
  · intro s core ds k works x paused run
    exact ⟨fun present => exec_pageMapped_of_present rfl works paused present,
      fun u absent mapped => exec_pageMapped_of_mapped rfl works paused absent mapped,
      fun turn => exec_pageWaitLimitExpire_of_turn rfl works paused turn⟩
  · intro s core ds k r works c x hr pref
    exact ⟨fun poisoned => exec_prefConfirm_of_poisoned rfl hr works pref poisoned,
      fun held clean reached => exec_prefConfirm_of_reached rfl hr works pref held clean reached⟩

/-! ### Exact adds and clears -/

/-- An add that does not wait is applied, or discarded (R454, R456). -/
theorem exec_eauAddApply {s : State} {i : Nat} {a : EauAdd} (up : s.up = true) (hi : s.eauq[i]? = some a) (here : a.remote = false)
    (free : s.addWaits a = false) : exec (.eauAddApply i) s = .next ((s.applyAdd i a).after a.k) := by
  rw [exec, execEauAddApply, whenUp_of_up up]
  simp only [hi, here, free, Bool.or_self, Bool.false_eq_true, if_false]

/-- Settles O30: `State.applyAdd` by the add's placement generation, and the clear of a store that is there. -/
theorem exactAddsAndClearsComplete : Obligations.ExactAddsAndClearsComplete := by
  refine ⟨?_, ?_⟩
  · intro s i a up hi here free gone
    refine ⟨fun pgen t sp applied => ?_, fun pgen unbound => ?_⟩
    · rw [exec_eauAddApply up hi here free, State.applyAdd, if_neg (not_not.mpr pgen)]
      rw [show State.eauApply { s with eauq := s.eauq.eraseIdx i } a.k a.va a.w128 a.value = .ok (t, sp) from applied]
    · rw [exec_eauAddApply up hi here free, State.applyAdd, if_pos pgen, unbound]
      rfl
  · intro s k i g up clearing store
    rw [exec, execGstoreClearDone, whenUp_of_up up, if_pos clearing]
    simp only [store]

end Sys2Proof.Machine

/-! Caravan's endpoints (R375, R376, R379 to R404, R447): messages that the screen takes, and those that it keeps or discards; a member's own triggers. -/

namespace Sys2Proof.Machine

open Sys2Proof.WB

/-! ### Messages that reach an endpoint -/

theorem onMessage_of_open {s : State} (up : s.up = true) (safe : s.safeHold = false) {m : CMsg} {t : Nat} (kind : m.hdr.mtype = t) (k : CtxId)
    (f : State → State) : onMessage t k m s f = .next ((f (s.heard m)).after k.val) := by
  have heard : ¬ (s.safeHold || m.hdr.mtype != t) = true := by simp [safe, kind]
  rw [onMessage, whenUp_of_up up, if_neg heard]
  exact rfl

section
variable {s : State} {k : CtxId} {t : Nat} {m : CMsg} {sender : CGroup → Bool} {g : CGroup} (hears : Hears s k t m sender g)
include hears

theorem onMessage_of_hears (f : State → State) : onMessage t k m s f = .next ((f (s.heard m)).after k.val) :=
  onMessage_of_open hears.up hears.safe hears.kind k f

end

/-! ### Reductions -/

section
variable {s : State} {k : Nat} {m : CMsg} {g : CGroup} {r : OpRec} (taken : s.screen k m (fromPrev m) = .apply g) (named : s.opOf k m = some r)
include taken named

theorem State.onSeg_of_taken {v : State} (hv : (s.updOp k m.hdr.oprec m.hdr.epoch fun o => { o with waiting := o.waiting ++ [m] }) = v) :
    s.onSeg k m = if (v.opRun k m.hdr.oprec m.hdr.epoch).status.isSome ∧ m.hdr.endB = true then v.runWaiting k m.hdr.oprec r g m.hdr.epoch else v := by
  simp only [State.onSeg, taken, named, hv, Bool.and_eq_true]

theorem State.onBit_of_lost {a : Nat} (lost : s.opLost k r m.hdr.epoch = some a) : s.onBit k m = s.endpointPoison k m.hdr.epoch a := by
  simp only [State.onBit, taken, named, State.opWrite, lost]

section
variable (reached : s.opLost k r m.hdr.epoch = none) {bs : List (BitVec 32 × BitVec 128)} (bits : m.payload = .bits bs) {a : State × EndAdd}
  (added : s.addBits k r m.hdr.epoch m.hdr.offset bs = a)
include reached bits added

theorem State.onBit_of_poisoned {x : Nat} (bad : a.2.poison = some x) : s.onBit k m = a.1.endpointPoison k m.hdr.epoch x := by
  simp only [State.onBit, taken, named, State.opWrite, reached, bits, added, bad]

theorem State.onBit_of_clean (clean : a.2.poison = none) {v w : State}
    (hv : (if a.2.bad then a.1.updOp k m.hdr.oprec m.hdr.epoch fun o => { o with exhausted := true } else a.1) = v)
    (hw : (if g.next = m.hdr.origin then v else v.sendMsg k m.hdr.group g.next { m with hdr := { m.hdr with sender := g.rank } }) = w) :
    s.onBit k m = if m.hdr.endB then w.partDone k m.hdr.oprec r g m.hdr.epoch m.hdr.origin g.nmem fun o =>
      { o with contrib := o.contrib ||| m.contrib, taint := o.taint ||| m.taint, sumw := o.sumw + m.hdr.sumw } else w := by
  subst hw hv
  simp only [State.onBit, taken, named, State.opWrite, reached, bits, added, clean]

end

theorem State.onRes_of_taken {o : OpRun} (ho : s.opRun k m.hdr.oprec m.hdr.epoch = o) :
    s.onRes k m = if m.hdr.endB = false then s.setOp k m.hdr.oprec m.hdr.epoch { o with waiting := o.waiting ++ [m] }
      else (s.setOp k m.hdr.oprec m.hdr.epoch { o with waiting := o.waiting.filter fun x => !(x.hdr.mtype == 2 && x.hdr.seg == m.hdr.seg) }).takeRes k
        m.hdr.oprec r g m.hdr.epoch m.hdr.seg (o.waiting.filter (fun x => x.hdr.mtype == 2 && x.hdr.seg == m.hdr.seg) ++ [m]) := by
  simp only [State.onRes, taken, named, ho, Bool.not_eq_true']

end

/-- Settles O31: each message, once screened and of an operation that the context has, is one branch of its handler. -/
theorem reductionMessagesComplete : Obligations.ReductionMessagesComplete := by
  intro s k m g r u n op named
  refine ⟨?_, ?_, ?_, ?_⟩
  · intro hears v
    rw [exec, execCaravanSeg, onMessage_of_hears hears, State.onSeg_of_taken hears.screened named rfl]
  · intro hears a lost
    rw [exec, execCaravanBit, onMessage_of_hears hears, State.onBit_of_lost hears.screened named lost]
  · intro hears reached bs bits a
    refine ⟨fun x bad => ?_, ?_⟩
    · rw [exec, execCaravanBit, onMessage_of_hears hears, State.onBit_of_poisoned hears.screened named reached bits (a := a) rfl bad]
    · intro clean v w
      rw [exec, execCaravanBit, onMessage_of_hears hears, State.onBit_of_clean hears.screened named reached bits (a := a) rfl clean (v := v) rfl (w := w) rfl]
  · intro hears o mine
    have taken := State.onRes_of_taken hears.screened named rfl
    refine ⟨fun part => ?_, fun whole => ?_⟩
    · rw [exec, execCaravanRes, onMessage_of_hears hears, taken, if_pos part]
    · rw [exec, execCaravanRes, onMessage_of_hears hears, taken, if_neg (by simp [whole])]

/-! ### Rotations and windows -/

section
variable {s : State} {k : Nat} {m : CMsg} {g : CGroup}

section
variable {r : OpRec} (named : s.opOf k m = some r)
include named

theorem State.onStart_of_taken (taken : s.screen k m (fromOther m) = .apply g) :
    s.onStart k m = s.updOp k m.hdr.oprec m.hdr.epoch fun o => { o with start := some (o.start.getD (s.clock 8)) } := by
  simp only [State.onStart, taken, named]

theorem State.onRot_of_taken (taken : s.screen k m (fromPrev m) = .apply g) {b : List Byte} (raw : m.payload = .raw b) {a : Nat}
    (ha : r.landing m.hdr.seg + 32 * m.hdr.offset = a) (reached : s.portLost k a b.length = none) :
    s.onRot k m = if m.hdr.endB then
      (((s.memWrite k a b).updOp k m.hdr.oprec m.hdr.epoch fun o => { o with arrived := max o.arrived m.hdr.seg }).endpointAdv k r.doneMp
        (some m.hdr.epoch)).rotate k m.hdr.oprec r g m.hdr.epoch (2 * g.nmem + 2)
      else s.memWrite k a b := by
  simp only [State.onRot, taken, named, raw, ha, reached]

theorem State.onRel_of_taken (taken : s.screen k m (fun g => m.hdr.sender == g.next && 1 < g.nmem) = .apply g) :
    s.onRel k m = (s.updOp k m.hdr.oprec m.hdr.epoch fun o => { o with relGot := max o.relGot m.hdr.seg }).rotate k m.hdr.oprec r g m.hdr.epoch
      (2 * g.nmem + 2) := by
  simp only [State.onRel, taken, named]

end

section
variable {w : RWin} (taken : s.screen k m (fun g => (s.winOf k m g).isSome) = .apply g) (window : s.winOf k m g = some w)
include taken window

theorem State.onSend_of_present {b : List Byte} (raw : m.payload = .raw b) {a : Nat} (ha : w.rbase + 32 * m.hdr.offset = a)
    (present : s.memCheck k a b.length = none) (reached : s.portLost k a b.length = none) {v : State}
    (hv : (if m.hdr.endB then (s.memWrite k a b).endpointAdv k w.arrmp ((s.memWrite k a b).tagOf k m g) else s.memWrite k a b) = v) :
    s.onSend k m = v.ack k m g .empty := by
  simp only [State.onSend, taken, window, raw, ha, present, reached, hv]

theorem State.onSend_of_absent {b : List Byte} (raw : m.payload = .raw b) {a : Nat} (ha : w.rbase + 32 * m.hdr.offset = a) {bad : Nat} {x : Where}
    (absent : s.memCheck k a b.length = some (bad, x)) : s.onSend k m = s.ack k m g (.refusal 0x43 0 bad) := by
  simp only [State.onSend, taken, window, raw, ha, absent]

/-- A RADD none of whose targets lies in a store that is being cleared is applied up to the first add that fails (R402). -/
theorem State.onRadd_of_free {es : List (Nat × L640)} (radd : m.payload = .radd es)
    (free : ∀ e ∈ es, ∀ i y z, s.storeAt k (w.rbase + e.1) = some (i, y, z) → (s.ctx k).clearing.contains i = false) :
    s.onRadd k m = match s.applyRadds k w es with
      | (v, none) => v.ack k m g .empty
      | (v, some (hc, d, a)) => v.ack k m g (.refusal hc d a) := by
  have none_clears : ¬ (es.any fun e => match s.storeAt k (w.rbase + e.1) with
      | some (i, _, _) => (s.ctx k).clearing.contains i
      | none => false) = true := by
    rw [List.any_eq_true]
    rintro ⟨e, he, clears⟩
    cases store : s.storeAt k (w.rbase + e.1) with
    | none => simp [store] at clears
    | some x =>
      rw [store] at clears
      exact Bool.false_ne_true ((free e he _ _ _ store).symm.trans clears)
  simp only [State.onRadd, taken, window, radd]
  refine (if_neg none_clears).trans ?_
  rcases s.applyRadds k w es with ⟨v, _ | ⟨hc, d, a⟩⟩ <;> rfl

end

/-- The ACK of an add in flight ends it (R402). -/
theorem State.onAck_of_add {w : RWin} (taken : s.screen k m (fun _ => true) = .apply g) (window : s.rwin k m.hdr.oprec = some w)
    (group : w.group = m.hdr.group) (sender : m.hdr.sender = w.rank) {a : EauAdd}
    (add : (s.eauq.find? fun a => a.remote && a.send == (m.hdr.seg == 6) && a.k == k && a.va / 32 == (w.vbase + 32 * m.hdr.offset) / 32
      && a.epoch.getD 0 == m.hdr.epoch) = some a) (detail addr : Nat) :
    s.onAck k m 0 detail addr = { s with eauq := s.eauq.erase a } := by
  have named : ((s.rwin k m.hdr.oprec).filter fun w => w.group == m.hdr.group && m.hdr.sender == w.rank) = some w := by
    simp [window, group, sender]
  simp only [State.onAck, named, Option.isSome_some, taken, add, State.ackRadd, if_true]

end

/-- Settles O32: the handlers of the six types, once screened. -/
theorem rotationAndWindowMessagesComplete : Obligations.RotationAndWindowMessagesComplete := by
  refine ⟨?_, ?_⟩
  · intro s k m g r u n op named
    refine ⟨fun hears => ?_, fun hears b raw reached => ?_, fun hears => ?_⟩
    · rw [exec, execCaravanStart, onMessage_of_hears hears, State.onStart_of_taken named hears.screened]
    · rw [exec, execCaravanRot, onMessage_of_hears hears, State.onRot_of_taken named hears.screened raw rfl reached]
    · rw [exec, execCaravanRel, onMessage_of_hears hears, State.onRel_of_taken named hears.screened]
  · intro s k m g w u here
    refine ⟨?_, fun hears window es radd free => ?_, fun window group sender hears a r add => ?_⟩
    · intro hears window b raw a
      refine ⟨?_, fun bad x absent => ?_⟩
      · intro present reached v v
        rw [exec, execCaravanSend, onMessage_of_hears hears, State.onSend_of_present hears.screened window raw rfl present reached rfl]
      · rw [exec, execCaravanSend, onMessage_of_hears hears, State.onSend_of_absent hears.screened window raw rfl absent]
    · have applied := State.onRadd_of_free hears.screened window radd free
      refine ⟨fun v all => ?_, fun v hc d a fails => ?_⟩
      · rw [exec, execCaravanRadd, onMessage_of_hears hears, applied, show (s.heard m).applyRadds k.val w es = (v, none) from all]
      · rw [exec, execCaravanRadd, onMessage_of_hears hears, applied, show (s.heard m).applyRadds k.val w es = (v, some (hc, d, a)) from fails]
    · rw [exec, execCaravanAck, onMessage_of_hears hears, State.onAck_of_add hears.screened window group sender add]

/-! ### A member's own triggers -/

theorem onCaravan_of_open {s : State} (up : s.up = true) (safe : s.safeHold = false) (k : CtxId) (f : State → State) :
    onCaravan k s f = .next ((f s).after k.val) := by
  rw [onCaravan, whenUp_of_up up, if_neg (by simp [safe])]

section
variable {s : State} {k op : Nat} {r : OpRec} {g : CGroup}

/-- No trigger record of an epoch holds an uncorrectable error (R379, R450). -/
theorem State.trigPoison_of_clean {a n : Nat} (clean : ∀ e ∈ (s.ctx k).epochs, s.memPoisoned k (a + n * (e.n % 2)) n = false) (want : Epoch → Bool) :
    s.trigPoison k a n want = none := by
  have found : ((s.ctx k).epochs.find? fun e => want e && s.memPoisoned k (a + n * (e.n % 2)) n) = none := by
    rw [List.find?_eq_none]
    intro e he
    simp [clean e he]
  simp only [State.trigPoison, found, Option.map_none]

section
variable (named : s.reduction k op = some (r, g))
include named

theorem State.onTrigger_of_poisoned {e : Epoch} (bad : ((s.ctx k).epochs.find? fun e =>
    (e.st == .opened && !(s.opRun k op e.n).triggered) && s.memPoisoned k (r.startrec + 32 * (e.n % 2)) 32) = some e) :
    s.onTrigger k op = s.endpointPoison k e.n (r.startrec + 32 * (e.n % 2)) := by
  simp only [State.onTrigger, named, State.trigPoison, bad, Option.map_some]

section
variable (clean : ∀ e ∈ (s.ctx k).epochs, s.memPoisoned k (r.startrec + 32 * (e.n % 2)) 32 = false)
include clean

theorem State.onTrigger_of_triggered {n : Nat} (trig : s.triggered k op r = some n) (free : s.dstClearing k r n = false) {o : OpRun}
    (ho : s.opRun k op n = o) {u : State} (hu : s.setOp k op n { o with triggered := true, start := some (o.start.getD (s.clock 8)) } = u) :
    s.onTrigger k op = if o.status.isSome then u
      else (u.sendAll k r.group { hdr := u.opHdr k op r g n 3 }).decide_ k op r g n true := by
  simp only [State.onTrigger, named, State.trigPoison_of_clean clean, trig, free, Bool.false_eq_true, if_false, ho, hu]

theorem State.onDeadline_of_passed (limited : g.deadline ≠ 0) (may : r.nodl = false) {e : Epoch} (free : s.dstClearing k r e.n = false)
    (hit : ((s.ctx k).epochs.find? fun e => e.st == .opened && (s.opRun k op e.n).start.isSome && (s.opRun k op e.n).status.isNone
      && !s.trigHolds k (r.startrec + 32 * (e.n % 2)) e.n) = some e) :
    s.onDeadline k op = (s.count LATE_OUT (k + 1) 1).decide_ k op r g e.n false := by
  simp only [State.onDeadline, named, limited, may, Bool.false_eq_true, or_self, if_false, State.trigPoison_of_clean clean, hit, Option.filter_some,
    free, Bool.not_false, if_true]

theorem State.onLate_of_dropped (form : r.form ≠ 2) (plain : g.carry = false) {e : Epoch}
    (hit : ((s.ctx k).epochs.find? fun e => e.uncommitted && e.st != .held && (s.opRun k op e.n).status == some false
      && !(s.opRun k op e.n).lateDone && s.trigHolds k (r.startrec + 32 * (e.n % 2)) e.n) = some e) :
    s.onLate k op = (s.updOp k op e.n fun o => { o with triggered := true, lateDone := true }).count LATE_DROPS (k + 1) 1 := by
  simp only [State.onLate, named, State.trigPoison_of_clean clean, hit, if_neg form, plain, Bool.false_and, Bool.false_eq_true, if_false]

end
end

theorem State.onRotTrigger_of_clean (named : s.rotation k op = some (r, g))
    (clean : ∀ e ∈ (s.ctx k).epochs, s.memPoisoned k (r.startrec + 64 * (e.n % 2)) 64 = false) :
    s.onRotTrigger k op = (s.ctx k).epochs.foldl (fun u e => if e.st = .opened then u.rotate k op r g e.n (2 * g.nmem + 2) else u) s := by
  simp only [State.onRotTrigger, named, State.trigPoison_of_clean clean]

end

/-! ### Messages that the screen keeps or discards -/

/-- The sender that a message of a reduction or rotation must have. -/
def senderOf (m : CMsg) : Nat → CGroup → Bool
  | 3 => fromOther m
  | _ => fromPrev m

/-- What the screen has dealt with is all that the message does. -/
theorem exec_of_screened {s : State} {k : CtxId} {m : CMsg} {t : Nat} {i : Instr}
    (listed : (t, i) ∈ [(0, Instr.caravanSeg k m), (1, .caravanBit k m), (2, .caravanRes k m), (3, .caravanStart k m), (4, .caravanRot k m)])
    (up : s.up = true) (safe : s.safeHold = false) (kind : m.hdr.mtype = t) {v : State}
    (screened : (s.heard m).screen k.val m (senderOf m t) = .done v) : exec i s = .next (v.after k.val) := by
  simp only [List.mem_cons, Prod.mk.injEq, List.not_mem_nil, or_false] at listed
  rcases listed with ⟨rfl, rfl⟩ | ⟨rfl, rfl⟩ | ⟨rfl, rfl⟩ | ⟨rfl, rfl⟩ | ⟨rfl, rfl⟩ <;> simp only [senderOf] at screened
  · rw [exec, execCaravanSeg, onMessage_of_open up safe kind]
    simp only [State.onSeg, screened]
  · rw [exec, execCaravanBit, onMessage_of_open up safe kind]
    simp only [State.onBit, screened]
  · rw [exec, execCaravanRes, onMessage_of_open up safe kind]
    simp only [State.onRes, screened]
  · rw [exec, execCaravanStart, onMessage_of_open up safe kind]
    simp only [State.onStart, screened]
  · rw [exec, execCaravanRot, onMessage_of_open up safe kind]
    simp only [State.onRot, screened]

section
variable {s : State} {k : Nat} {m : CMsg} {sender : CGroup → Bool}

theorem State.screen_of_saved (saved : (s.ctx k).st = .saved) : s.screen k m sender = .done (s.keepEarly k m) := if_pos saved

variable (live : (s.ctx k).st ≠ .saved)
include live

theorem State.screen_of_no_group (unknown : s.cgroup k m.hdr.group = none) : s.screen k m sender = .done (s.count BAD_MSGS (k + 1) 1) := by
  simp only [State.screen, if_neg live, unknown]

variable {g : CGroup} (group : s.cgroup k m.hdr.group = some g)
include group

/-- A message of a kind that its group does not carry (R376). -/
theorem State.screen_of_uncarried (barred : g.carriesType m.hdr.mtype = false) : s.screen k m sender = .done (s.count BAD_MSGS (k + 1) 1) := by
  simp only [State.screen, if_neg live, group, barred, or_true, if_true]

variable (job : g.job = m.hdr.job) (ok : sender g = true) (member : m.hdr.sender < g.nmem) (carried : g.carriesType m.hdr.mtype = true)
  (old : m.hdr.pgen ≠ s.pgen k)
include job ok member carried old

/-- A message of another placement generation squashes its epoch where that is open (R399). -/
theorem State.screen_of_generation_opened {e : Epoch} (epoch : (s.ctx k).epoch m.hdr.epoch = some e) (opened : e.st = .opened) :
    s.screen k m sender = .done ((s.count GEN_DISCARDS (k + 1) 1).strike k e.n) := by
  have same : ((s.count GEN_DISCARDS (k + 1) 1).ctx k).epoch m.hdr.epoch = some e := epoch
  simp only [State.screen, if_neg live, group, job, ok, Nat.not_le.mpr member, carried, ne_eq, not_true_eq_false, Bool.true_eq_false, or_self, if_false,
    old, not_false_eq_true, if_true, same, opened]

/-- And is only counted where it is not. -/
theorem State.screen_of_generation_else (others : ∀ e, (s.ctx k).epoch m.hdr.epoch = some e → e.st ≠ .opened) :
    s.screen k m sender = .done (s.count GEN_DISCARDS (k + 1) 1) := by
  simp only [State.screen, if_neg live, group, job, ok, Nat.not_le.mpr member, carried, ne_eq, not_true_eq_false, Bool.true_eq_false, or_self, if_false,
    old, not_false_eq_true, if_true]
  cases epoch : (s.ctx k).epoch m.hdr.epoch with
  | none => simp only [show ((s.count GEN_DISCARDS (k + 1) 1).ctx k).epoch m.hdr.epoch = none from epoch]
  | some e => simp only [show ((s.count GEN_DISCARDS (k + 1) 1).ctx k).epoch m.hdr.epoch = some e from epoch, if_neg (others e epoch)]

end

/-- Settles O33: a member's triggers by the branches of their handlers, the messages by the branches of the screen. -/
theorem collectiveEventsComplete : Obligations.CollectiveEventsComplete := by
  refine ⟨?_, ?_⟩
  · intro s k op r g up safe clean
    refine ⟨?_, ?_, ?_, ?_, ?_⟩
    · intro named e bad
      rw [exec, execCaravanTrigger, onCaravan_of_open up safe, State.onTrigger_of_poisoned named bad]
    · intro named sound n trig free o u
      rw [exec, execCaravanTrigger, onCaravan_of_open up safe, State.onTrigger_of_triggered named sound trig free rfl rfl]
    · intro named sound limited may e free hit
      rw [exec, execCaravanDeadlineExpire, onCaravan_of_open up safe, State.onDeadline_of_passed named sound limited may free hit]
    · intro named sound form plain e hit
      rw [exec, execLateContributionReady, onCaravan_of_open up safe, State.onLate_of_dropped named sound form plain hit]
    · intro named sound t
      refine ⟨?_, ?_⟩
      · rw [exec, execRotationSendTrigger, onCaravan_of_open up safe, State.onRotTrigger_of_clean named sound]
      · rw [exec, execRotationReleaseTrigger, onCaravan_of_open up safe, State.onRotTrigger_of_clean named sound]
  · intro s k m t i listed up safe kind u v
    have low : t < 5 := by
      simp only [List.mem_cons, Prod.mk.injEq, List.not_mem_nil, or_false] at listed
      omega
    refine ⟨fun saved => ?_, fun live unknown => ?_, fun g live group job member several other prev => ⟨fun crosses => ?_, fun inside old => ?_⟩⟩
    · exact exec_of_screened listed up safe kind (State.screen_of_saved saved)
    · exact exec_of_screened listed up safe kind (State.screen_of_no_group live unknown)
    · refine exec_of_screened listed up safe kind (State.screen_of_uncarried live group ?_)
      have not_send : t ≠ 6 ∧ t ≠ 8 := by omega
      simp [CGroup.carriesType, crosses, kind, not_send]
    · have ok : senderOf m t g = true := by
        rw [senderOf.eq_def]
        split
        · simp [fromOther, other]
        · rename_i not_start
          simp [fromPrev, prev not_start, several]
      have carried : g.carriesType m.hdr.mtype = true := by simp [CGroup.carriesType, inside]
      exact ⟨fun e epoch opened =>
          exec_of_screened listed up safe kind (State.screen_of_generation_opened (s := s.heard m) live group job ok member carried old epoch opened),
        fun others => exec_of_screened listed up safe kind (State.screen_of_generation_else (s := s.heard m) live group job ok member carried old others)⟩

end Sys2Proof.Machine

/-! Votes and verdicts (R352, R363, R476), the end of step 11 (R471), and placement changes (R400). -/

namespace Sys2Proof.Machine

open Sys2Proof.WB

/-! ### Votes and verdicts -/

section
variable {s : State} {k : Nat} {m : CMsg} {g : CGroup} (taken : s.screenRun k m = .apply g)
include taken

theorem State.onVote_of_seat (seat : g.rank = 0) {v : Vote} {x : Bool} (vote : m.payload = .vote v x) :
    s.onVote k m = (s.updEpoch k m.hdr.epoch fun e =>
      { e with votes := (e.votes.filter fun y => y.1 != m.hdr.sender) ++ [(m.hdr.sender, v, x)] }).seatVerdict k m.hdr.epoch := by
  simp only [State.onVote, taken, vote, seat, ne_eq, not_true_eq_false, if_false]

theorem State.onVerdict_of_taken {v : Vote} {x : Bool} {run pg : Nat} {place : Bool} (verdict : m.payload = .verdict v x run pg place) :
    s.onVerdict k m = s.takeVerdict k m.hdr.epoch v x run place := by
  simp only [State.onVerdict, taken, verdict]

end

section
variable {s : State} {k n : Nat} {e : Epoch} (epoch : (s.ctx k).epoch n = some e) (x : Bool) (run : Nat) (place : Bool)
include epoch

/-- A verdict of SQUASH (R352). -/
theorem State.takeVerdict_squash (may : e.squashable = true ∨ e.st = .squashed) :
    s.takeVerdict k n .squash x run place = ((s.squash k n false).updCtx k fun c => { c with runNext := run }).runOn k := by
  simp only [State.takeVerdict, epoch, if_true, if_pos may]

/-- A verdict that ends a closed epoch which has voted (R352, R356). -/
theorem State.takeVerdict_commit {v : Vote} (ends : v ≠ .squash) (closed : e.st = .closed) (voted : e.voted = true) (safe : s.safeHold = false)
    (policy : v = .reject → s.val REJECT_POLICY (k + 1) ≠ 1) : s.takeVerdict k n v x run place = s.commitEpoch k e v x run place := by
  have goes_on : ¬ (e.st ≠ .closed ∨ e.voted = false ∨ s.safeHold = true) := by simp [closed, voted, safe]
  have not_halted : ¬ (v = .reject ∧ s.val REJECT_POLICY (k + 1) = 1) := fun h => policy h.1 h.2
  simp only [State.takeVerdict, epoch, if_neg ends, if_neg goes_on, if_neg not_halted]

end

@[simp] theorem State.heard_val (s : State) (m : CMsg) (e u : Nat) : (s.heard m).val e u = s.val e u :=
  State.val_congr (s := s) (t := s.heard m) rfl rfl rfl rfl rfl e u

/-! ### A vote that is missing -/

/-- The job pauses for the member `rank`, which enters the refill queue (R476, R482). -/
def State.pauseFor (s : State) (k rank : Nat) : State := ((s.pauseJob k 0x2003).failMember k rank).event 0x0030 (some k) 8 rank

section
variable {s : State} {k : CtxId} (up : s.up = true) (safe : s.safeHold = false) (live : (s.ctx k.val).st ≠ .saved) {gn n rank : Nat} {g : CGroup}
  (job : s.jobGroup k.val = some (gn, g)) {e : Epoch} (epoch : (s.ctx k.val).epoch n = some e) (member : rank < g.nmem) (other : rank ≠ g.rank)
include up safe live job epoch member other

theorem exec_voteLimitExpire_of_member (not_seat : g.rank ≠ 0) (waits : e.squashable = true ∨ e.st = .squashed) :
    exec (.voteLimitExpire k n rank) s = .next ((s.pauseFor k.val rank).after k.val) := by
  have goes_on : ¬ ((!(e.squashable || e.st == .squashed)) || decide (g.nmem ≤ rank) || rank == g.rank) = true := by
    have some_wait : (e.squashable || e.st == .squashed) = true := by simpa using waits
    simp [some_wait, Nat.not_le.mpr member, other]
  rw [exec, execVoteLimitExpire, onCaravan_of_open up safe]
  simp only [if_neg live, job, epoch, if_neg not_seat, if_neg goes_on]
  rfl

theorem exec_voteLimitExpire_of_seat (seat : g.rank = 0) (waits : e.squashable = true) (missing : (e.votes.any fun v => v.1 == rank) = false) :
    exec (.voteLimitExpire k n rank) s = .next (((s.sendAll k.val gn
      (s.verdictMsg k.val gn g n .squash false ((s.ctx k.val).runNext + 1) (s.pgen k.val) false)).pauseFor k.val rank).after k.val) := by
  have goes_on : ¬ ((!(e.squashable && !(e.votes.any fun v => v.1 == rank))) || decide (g.nmem ≤ rank) || rank == g.rank) = true := by
    simp [waits, missing, Nat.not_le.mpr member, other]
  rw [exec, execVoteLimitExpire, onCaravan_of_open up safe]
  simp only [if_neg live, job, epoch, if_pos seat, if_neg goes_on]
  rfl

end

/-- Settles O34: votes, verdicts and missing votes by the branches of their handlers. -/
theorem votesAndVerdictsComplete : Obligations.VotesAndVerdictsComplete := by
  intro s k m g up safe u n
  refine ⟨?_, ?_, ?_⟩
  · intro v x kind taken seat vote
    rw [exec, execCaravanVote, onMessage_of_open up safe kind, State.onVote_of_seat (s := s.heard m) taken seat vote]
  · intro v x run pg place e kind taken verdict epoch
    refine ⟨?_, fun ends closed voted policy => ?_⟩
    · rintro rfl may
      rw [exec, execCaravanVerdict, onMessage_of_open up safe kind, State.onVerdict_of_taken (s := s.heard m) taken verdict,
        State.takeVerdict_squash (s := s.heard m) epoch x run place may]
    · have policy' : v = .reject → (s.heard m).val REJECT_POLICY (k.val + 1) ≠ 1 := by rwa [State.heard_val]
      rw [exec, execCaravanVerdict, onMessage_of_open up safe kind, State.onVerdict_of_taken (s := s.heard m) taken verdict,
        State.takeVerdict_commit (s := s.heard m) epoch x run place ends closed voted safe policy']
  · intro gn e rank live job epoch member other
    exact ⟨fun not_seat waits => exec_voteLimitExpire_of_member up safe live job epoch member other not_seat waits,
      fun seat waits missing => exec_voteLimitExpire_of_seat up safe live job epoch member other seat waits missing⟩

/-! ### Placement changes -/

/-- The digest of the pending tables is a function of the BLOBs. -/
theorem State.placeDigest_congr {u s : State} (h : u.wbb = s.wbb) (k g : Nat) : u.placeDigest k g = s.placeDigest k g := by
  simp only [State.placeDigest, State.blobNat, State.blob, State.blobByte, h]

theorem State.sendDrained_wbb (theirs : List (Fin 64 × BitVec 256)) (s : State) (k : Nat) :
    (theirs.foldl (fun u x => u.emit (.drained k x.1.val (u.placeDigest k x.1.val))) s).wbb = s.wbb :=
  foldl_keeps (f := State.wbb) (step := fun u x => u.emit (.drained k x.1.val (u.placeDigest k x.1.val))) (fun _ _ => State.emit_wbb ..) theirs s

section
variable {s : State} {k : CtxId} (up : s.up = true) (safe : s.safeHold = false) (draining : (s.ctx k.val).draining = true)
include up safe draining

/-- Once nothing waits for an ACK, DRAINED goes out, and the change takes force unless the tables of a member differ (R400). -/
theorem exec_placementDrained (drained : s.unacked k.val = false) (theirs : List (Fin 64 × BitVec 256)) {v : State}
    (hv : theirs.foldl (fun u x => u.emit (.drained k.val x.1.val (u.placeDigest k.val x.1.val))) s = v) :
    exec (.placementDrained k theirs) s = .next (State.after (((match theirs.find? fun x : Fin 64 × BitVec 256 => x.2 != s.placeDigest k.val x.1.val with
      | none => v.installPlace k.val
      | some (g, d) => v.event 0x0014 (some k.val) 8 (g.val + 2 ^ 64 * d.toNat)).updCtx k.val fun c =>
        { c with placing := false, draining := false }).runOn k.val) k.val) := by
  have blobs : v.wbb = s.wbb := by rw [← hv, State.sendDrained_wbb]
  have digest : ∀ g, v.placeDigest k.val g = s.placeDigest k.val g := State.placeDigest_congr blobs k.val
  rw [exec, execPlacementDrained, onCaravan_of_open up safe]
  cases found : theirs.find? fun x => x.2 != s.placeDigest k.val x.1.val with
  | none => simp only [draining, drained, Bool.not_true, Bool.or_self, Bool.false_eq_true, if_false, hv, digest, found]
  | some x =>
    obtain ⟨g, d⟩ := x
    simp only [draining, drained, Bool.not_true, Bool.or_self, Bool.false_eq_true, if_false, hv, digest, found]

/-- What still waits for its ACK at the drain limit is abandoned (Table 11-9). -/
theorem exec_migDrainLimitExpire :
    exec (.migDrainLimitExpire k) s
      = .next (State.after (State.eachCore { s with eauq := s.eauq.filter fun a => !(a.remote && a.k == k.val) } k.val fun c =>
        { c with slots := c.slots.map fun e => match e.2.run with
          | some r => (e.1, { e.2 with run := some { r with out := r.out.filter fun f => f.acks == 0 } })
          | none => e }) k.val) := by
  rw [exec, execMigDrainLimitExpire, onCaravan_of_open up safe]
  exact congrArg (fun u : State => Host.Outcome.next (u.after k.val)) (if_pos draining)

end

/-- Settles O35: the end of step 11, and the three events of a placement change. -/
theorem commitsAndPlacementsComplete : Obligations.CommitsAndPlacementsComplete := by
  refine ⟨?_, ?_⟩
  · intro s k e up safe flash waits u
    rw [exec, execCommitFlashWriteDone, onCaravan_of_open up safe]
    simp only [flash, waits, if_true]
    rfl
  · intro s k up
    refine ⟨fun free => ?_, fun pending => ?_, ?_, fun safe draining => ?_⟩
    · rw [exec, execPlaceGo, whenUp_of_up up]
      simp only [State.goPlace, State.placeNow, free, Bool.false_eq_true, if_false]
      rfl
    · rw [exec, execPlaceGo, whenUp_of_up up]
      simp only [State.goPlace, State.placeNow, pending, if_true]
      rfl
    · intro safe draining drained run theirs v
      refine ⟨fun agree => ?_, fun x differs => ?_⟩
      · have same : (theirs.find? fun x => x.2 != s.placeDigest k.val x.1.val) = none := by
          rw [List.find?_eq_none]
          exact fun x hx => by simp [agree x hx]
        rw [exec_placementDrained up safe draining drained theirs rfl, same]
      · rw [exec_placementDrained up safe draining drained theirs rfl, differs]
    · exact exec_migDrainLimitExpire up safe draining

end Sys2Proof.Machine

/-! Drawbar (R487 to R507): frames that reach a port, training and the faults of a link, port records, routes and the ring's bypasses. -/

namespace Sys2Proof.Machine

open Sys2Proof.WB

/-! ### Frames -/

/-- Closed switches pass a frame out of the pair's other port (R504). -/
theorem onFrame_of_closed {s : State} {p : PortId} (closed : s.pairClosed p.val = true) (kind : Nat) (f : DFrame) (go : State → State) :
    onFrame p kind f s go = .next (s.emit (.drawbar (p.val ^^^ 1) f)) := by
  rw [onFrame, if_pos closed]

/-- A port that carries frames takes one of the kind that the command names, its corrected symbols counted first. -/
theorem onFrame_of_carries {s : State} {p : PortId} (opened : s.pairClosed p.val = false) (up : s.up = true) (safe : s.safeHold = false)
    (carries : (s.port p.val).carries = true) {f : DFrame} {kind : Nat} (of_kind : f.kind = kind) (go : State → State) :
    onFrame p kind f s go = .next (go (s.corrected p.val f.fec)) := by
  have passes : ¬ s.pairClosed p.val = true := by simp [opened]
  have takes : ¬ (!s.up || s.safeHold || !(s.port p.val).carries || f.kind != kind) = true := by simp [up, safe, carries, of_kind]
  rw [onFrame, if_neg passes, if_neg takes]

/-- Settles O36: `onFrame` at closed switches and at a port that carries frames; then each kind by its CRC and sequence. -/
theorem framesComplete : Obligations.FramesComplete := by
  refine ⟨?_, ?_⟩
  · intro s p f closed t
    refine ⟨?_, ?_, ?_, ?_⟩
    · rw [exec, execDrawbarDataFrame, onFrame_of_closed closed]
    · rw [exec, execDrawbarCreditFrame, onFrame_of_closed closed]
    · rw [exec, execDrawbarNakFrame, onFrame_of_closed closed]
    · rw [exec, execDrawbarIdleFrame, onFrame_of_closed closed]
  · intro s p f opened up safe carries u good next
    refine ⟨fun kind crc seq => ?_, fun kind crc seq => ?_, fun kind crc => ?_, fun kind => ?_, fun kind => ?_, fun kind => ?_⟩
    · rw [exec, execDrawbarDataFrame, onFrame_of_carries opened up safe carries kind, if_neg (by simp [crc]), if_neg (not_not.mpr seq)]
      rfl
    · rw [exec, execDrawbarDataFrame, onFrame_of_carries opened up safe carries kind, if_neg (by simp [crc]), if_pos seq]
    · rw [exec, execDrawbarDataFrame, onFrame_of_carries opened up safe carries kind, if_pos (by simp [crc])]
    · rw [exec, execDrawbarCreditFrame, onFrame_of_carries opened up safe carries kind]
    · rw [exec, execDrawbarNakFrame, onFrame_of_carries opened up safe carries kind]
    · rw [exec, execDrawbarIdleFrame, onFrame_of_carries opened up safe carries kind]

/-! ### Training and link faults -/

theorem exec_drawbarLightDetect {s : State} {p : PortId} (may : (s.port p.val).st = .down ∨ (s.port p.val).st = .training ∨ (s.port p.val).st = .isolated) :
    exec (.drawbarLightDetect p) s = .next (s.train p.val true) := by
  rw [exec, execDrawbarLightDetect]
  rcases may with st | st | st <;> simp only [st]

theorem exec_drawbarTrainingRetry {s : State} {p : PortId} (may : (s.port p.val).st = .down ∨ (s.port p.val).st = .training ∨ (s.port p.val).st = .disabled) :
    exec (.drawbarTrainingRetry p) s = .next (s.train p.val false) := by
  rw [exec, execDrawbarTrainingRetry]
  rcases may with st | st | st <;> simp only [st]

/-- A malformed port record, by its fields (R490). -/
theorem portCfgBad_iff (v : Nat) :
    portCfgBad v = true ↔ Bits.fld v 48 16 ≠ 0 ∨ Bits.fld v 1 15 ≠ 0 ∨ (Bits.fld v 32 16 = Bits.fld v 16 16 ∧ Bits.fld v 16 16 ≠ 0) := by
  simp only [portCfgBad, Bool.or_eq_true, Bool.and_eq_true, bne_iff_ne, beq_iff_eq, or_assoc]

/-- No context runs or drains, as `all` and as `any` say it. -/
theorem not_any_running (s : State) :
    ((List.range 16).any fun k => (s.ctx k).st == .running || (s.ctx k).st == .draining)
      = !(List.range 16).all fun k => (s.ctx k).st != .running && (s.ctx k).st != .draining := by
  rw [List.not_all_eq_any_not]
  congr 1
  funext k
  rw [Bool.not_and, bne, bne, Bool.not_not, Bool.not_not]

section
variable {s : State} (up : s.up = true)
include up

theorem exec_drawbarLaneLockLoss {p : PortId} {lane : Fin 8} (lit : (s.port p.val).lanes.getLsbD lane.val = true) :
    exec (.drawbarLaneLockLoss p lane) s = .next (s.portDown p.val) := by
  rw [exec, execDrawbarLaneLockLoss, whenUp_of_up up, if_pos lit]

theorem exec_drawbarRxTimeout {p : PortId} (listens : (s.port p.val).carries = true ∨ (s.port p.val).st = .isolated) :
    exec (.drawbarRxTimeout p) s = .next (s.portDown p.val) := by
  have hears : ((s.port p.val).carries || (s.port p.val).st == .isolated) = true := by simpa using listens
  rw [exec, execDrawbarRxTimeout, whenUp_of_up up, if_pos hears]

theorem exec_drawbarResendLimit {p : PortId} (spent : ∃ e ∈ (s.port p.val).replay, 32 ≤ e.2) :
    exec (.drawbarResendLimit p) s = .next (s.portDown p.val) := by
  have all_sent : ((s.port p.val).replay.any fun e => decide (32 ≤ e.2)) = true := by simpa [List.any_eq_true] using spent
  rw [exec, execDrawbarResendLimit, whenUp_of_up up, if_pos all_sent]

/-! ### Records, routes and bypasses -/

theorem exec_portCfg (p : PortId) (v : W64) :
    exec (.portCfg p v) s = .next (if portCfgBad v.toNat = true then { s with answer := 0x32 }
      else { (s.putVal PORT_CFG (p.val + 1) v.toNat).portFollows s p.val with answer := (s.putVal PORT_CFG (p.val + 1) v.toNat).written PORT_CFG (p.val + 1) }) := by
  rw [exec, execPortCfg, whenUp_of_up up]
  simp only [State.goPortCfg, State.portCfgNow]
  split
  · rfl
  · rfl

theorem exec_routeGo :
    exec .routeGo s = .next { s.routeNow.1 with answer := s.routeNow.2 } := by
  rw [exec, execRouteGo, whenUp_of_up up]
  rfl

theorem exec_bypassForce (v : Byte) :
    exec (.bypassForce v) s = .next (if s.service_ = true then { s.putVal BYPASS_FORCE 0 v.toNat with answer := s.written BYPASS_FORCE 0 }
      else { s with answer := 0x04 }) := by
  rw [exec, execBypassForce, whenUp_of_up up]
  rfl

end

/-- Settles O37: the events of a port, its training frame, and the writes of records, routes and bypasses. -/
theorem portsAndRoutesComplete : Obligations.PortsAndRoutesComplete := by
  refine ⟨?_, ?_⟩
  · intro s p x
    refine ⟨fun up => ?_, fun up lane lit => exec_drawbarLaneLockLoss up lit, fun up listens => exec_drawbarRxTimeout up listens,
      fun up spent => exec_drawbarResendLimit up spent, exec_drawbarLightDetect, exec_drawbarTrainingRetry, fun closed node port alloc => ?_, ?_⟩
    · rw [exec, execDrawbarIdleTimer, whenUp_of_up up]
    · rw [exec, execDrawbarTrainingFrame, if_pos closed]
    · intro opened up safe training node port alloc u isolated opened_
      have passes : ¬ s.pairClosed p.val = true := by simp [opened]
      have trains : ¬ (s.up = false ∨ (s.port p.val).st ≠ .training ∨ s.safeHold = true) := by
        rw [up, safe, show (s.port p.val).st = .training from training]
        decide
      have cfg : (u.port p.val).cfg = x.cfg :=
        (congrArg Port.cfg (State.port_setPort_self s p.val { x with lanes := 0xFF, peer := node, pport := port })).trans rfl
      have expects : u.portExpect p.val = Bits.fld x.cfg 32 16 := congrArg (Bits.fld · 32 16) cfg
      have alternative : u.portAlt p.val = Bits.fld x.cfg 16 16 := congrArg (Bits.fld · 16 16) cfg
      rw [exec, execDrawbarTrainingFrame, if_neg passes, if_neg trains, ← expects, ← alternative]
  · intro s up
    refine ⟨?_, ?_, ?_, ?_⟩
    · intro p v bad u t
      refine ⟨fun malformed => ?_, fun sound => ?_⟩
      · rw [exec_portCfg up, if_pos ((portCfgBad_iff _).mpr malformed)]
      · rw [exec_portCfg up, if_neg (mt (portCfgBad_iff _).mp sound)]
        simp only [State.portFollows, Bool.not_eq_true']
        rfl
    · intro idle bad
      have running := not_any_running s
      refine ⟨fun quiet sound => ?_, fun busy => ?_, fun quiet malformed => ?_⟩
      · rw [show ((List.range 16).all fun k => (s.ctx k).st != .running && (s.ctx k).st != .draining) = true from quiet, Bool.not_true] at running
        rw [exec_routeGo up]
        simp only [State.routeNow, running, Bool.false_eq_true, if_false, show (s.pendingRoutes.any fun e => badRoute e.2) = false from sound]
      · rw [show ((List.range 16).all fun k => (s.ctx k).st != .running && (s.ctx k).st != .draining) = false from busy, Bool.not_false] at running
        rw [exec_routeGo up]
        simp only [State.routeNow, running, if_true]
      · rw [show ((List.range 16).all fun k => (s.ctx k).st != .running && (s.ctx k).st != .draining) = true from quiet, Bool.not_true] at running
        rw [exec_routeGo up]
        simp only [State.routeNow, running, Bool.false_eq_true, if_false, show (s.pendingRoutes.any fun e => badRoute e.2) = true from malformed, if_true]
    · intro v u
      refine ⟨fun serves => ?_, fun refuses => ?_⟩
      · rw [exec_bypassForce up, if_pos serves]
      · rw [exec_bypassForce up, if_neg (Bool.not_eq_true _ |>.mpr refuses)]
    · intro b closed must changes
      rw [exec, execBypassLatched, if_pos ⟨must, changes⟩]

end Sys2Proof.Machine

/-! Field tests, watchdogs, power and Safe Hold (R360 to R365, R595 to R603, R610), and the events of the memory tiers (R439, R444, R448 to R452). -/

namespace Sys2Proof.Machine

open Sys2Proof.WB

/-! ### Field tests and watchdogs -/

theorem not_true_of_false {b : Bool} (h : b = false) : ¬ b = true := by
  rw [h]
  decide

theorem onDie_of_defined {s : State} {d : Nat} (defined : s.scanned.contains d = false) (up : s.up = true) (f : State → State) :
    onDie d s f = .next (f s) := by
  rw [onDie, if_neg (not_true_of_false defined), whenUp_of_up up]

section
variable {s : State} {a b : CoreId} (up : s.up = true) (alive : s.dieLost a.val = false) (safe : s.safeHold = false)
  (paired : s.swaps.contains (a.val, b.val) = true)
include up alive safe paired

theorem exec_coreSwap_of_idle (idle : (s.core a.val).ctx = none) : exec (.coreSwap a b) s = .next (s.swapCore a.val b.val) := by
  rw [exec, execCoreSwap, onDie_of_defined alive up, if_neg (by simp only [paired, safe]; decide)]
  simp only [idle]

variable {k : Nat} (serves : (s.core a.val).ctx = some k)
include serves

/-- At a step boundary of a context with epochs (R601). -/
theorem exec_coreSwap_of_boundary (steps : (s.stepGroup k).isSome = true) (final : (s.ctx k).epochs.any Epoch.live = false) :
    exec (.coreSwap a b) s = .next ((s.swapCore a.val b.val).after k) := by
  rw [exec, execCoreSwap, onDie_of_defined alive up, if_neg (by simp only [paired, safe]; decide)]
  simp only [serves, steps, final, Bool.false_eq_true, if_false, if_true]

/-- Without epochs, once the core's queues are retired: by the frames of a save area (R434, R601). -/
theorem exec_coreSwap_of_retired (no_steps : s.stepGroup k = none)
    (retired : ∀ q ∈ allQueues, ((s.core a.val).q q).inflight = [] ∧ ((s.core a.val).q q).replaying = false) :
    exec (.coreSwap a b) s = .next (if ((List.range 16).map s.freeOn).sum < oneCoreFrames then
      State.after { s with swaps := s.swaps.filter fun p => p != (a.val, b.val) } k else (s.swapCore a.val b.val).after k) := by
  have quiet : ¬ (allQueues.any fun q => !((s.core a.val).q q).inflight.isEmpty || ((s.core a.val).q q).replaying) = true := by
    rw [List.any_eq_true]
    rintro ⟨q, hq, busy⟩
    obtain ⟨empty, free⟩ := retired q hq
    rw [empty, free] at busy
    cases busy
  rw [exec, execCoreSwap, onDie_of_defined alive up, if_neg (by simp only [paired, safe]; decide)]
  simp only [serves, no_steps, Option.isSome_none, Bool.false_eq_true, if_false, if_neg quiet]

end

section
variable {s : State} {core : CoreId} (up : s.up = true) (alive : s.dieLost core.val = false)
include up alive

theorem exec_fieldTestDone (safe : s.safeHold = false) (spare : s.spares.contains core.val = true) (kept : s.retired.contains core.val = false)
    (first : s.passed.contains core.val = false) (free : s.replayCores.contains core.val = false) (pass : Bool) :
    exec (.fieldTestDone core pass) s = .next (if pass then s.testPassed core.val else s.testFailed core.val) := by
  rw [exec, execFieldTestDone, onDie_of_defined alive up, if_neg (by simp only [safe, spare, kept, first, free]; decide)]

theorem exec_ftOverdue (active : s.spares.contains core.val = false) :
    exec (.ftOverdue core) s = .next (s.logFault 0xFB 0x02 8 (some core.val) (s.core core.val).ctx (coreDie core.val) s.syndrome 0) := by
  rw [exec, execFtOverdue, onDie_of_defined alive up, if_neg (by simp only [active]; decide)]

end

/-- A scan of one finding of a die with a defined state. -/
theorem exec_watchdogScan_single {s : State} {die : DieId} (up : s.up = true) (defined : s.scanned.contains die.val = false) (h : WdHit) :
    exec (.watchdogScan die [h]) s = .next (s.watchdogHit die.val h) := by
  rw [exec, execWatchdogScan, onDie_of_defined defined up, List.foldl_cons, List.foldl_nil]

/-- Settles O38: rotations and swaps, the ends of tests, and a scan of one finding. -/
theorem coresRotateAndRetire : Obligations.CoresRotateAndRetire := by
  refine ⟨?_, ?_, ?_⟩
  · intro s up
    refine ⟨fun safe => ⟨fun die => ?_, fun a b alive => ?_, fun c pass alive => ?_⟩, fun safe die => ?_, fun a b alive safe paired => ?_⟩
    · rw [exec, execFieldTestRotation, whenUp_of_up up, if_pos safe]
    · rw [exec, execCoreSwap, onDie_of_defined alive up, if_pos (by simp [safe])]
    · rw [exec, execFieldTestDone, onDie_of_defined alive up]
      exact congrArg _ (if_pos (by simp [safe]))
    · rw [exec, execFieldTestRotation, whenUp_of_up up, if_neg (by simp [safe])]
    · refine ⟨exec_coreSwap_of_idle up alive safe paired, fun k serves => ⟨?_, ?_, ?_⟩⟩
      · exact exec_coreSwap_of_boundary up alive safe paired serves
      · intro no_steps retired frames
        rw [exec_coreSwap_of_retired up alive safe paired serves no_steps retired, if_neg (Nat.not_lt.mpr frames)]
      · intro no_steps retired short
        rw [exec_coreSwap_of_retired up alive safe paired serves no_steps retired, if_pos short]
  · intro s core up alive c
    refine ⟨fun safe spare kept first free => ⟨?_, ?_⟩, exec_ftOverdue up alive⟩
    · exact (exec_fieldTestDone up alive safe spare kept first free true).trans (congrArg _ (if_pos rfl))
    · rw [exec_fieldTestDone up alive safe spare kept first free false, if_neg Bool.false_ne_true]
      rfl
  · intro s up
    refine ⟨?_, ?_, ?_, ?_, ?_, ?_⟩
    · intro die c ch k defined here serves
      rw [exec_watchdogScan_single up defined, State.watchdogHit, if_neg (not_not.mpr here)]
      simp only [serves]
    · rintro die ch h (rfl | rfl | rfl) defined
      · exact exec_watchdogScan_single up defined _
      · exact exec_watchdogScan_single up defined _
      · exact exec_watchdogScan_single up defined _
    · intro die defined hub
      rw [exec_watchdogScan_single up defined, State.watchdogHit, if_neg (Nat.not_lt.mpr hub)]
    · intro die c k defined here serves
      rw [exec_watchdogScan_single up defined, State.watchdogHit, if_neg (not_not.mpr here)]
      simp only [serves]
    · intro die q defined here
      rw [exec_watchdogScan_single up defined, State.watchdogHit, if_neg (not_not.mpr here)]
    · intro link
      rw [exec, execTracesLinkFailure, whenUp_of_up up]

/-! ### Power and Safe Hold -/

/-- Safe Hold's flag and cause, and the phase of the part. -/
def State.mode (s : State) : Bool × Nat × Phase := (s.safeHold, s.shCause, s.phase)

theorem State.PostsOnly.mode {t s : State} (h : t.PostsOnly s) : t.mode = s.mode := by
  unfold State.PostsOnly at h
  rw [← h]
  rfl

theorem State.event_mode (s : State) (code : Nat) (ctx : Option Nat) (die data : Nat) : (s.event code ctx die data).mode = s.mode :=
  (s.event_postsOnly code ctx die data).mode

/-- A halt of a queue leaves the mode of the part. -/
theorem State.haltAt_mode (s : State) (q : QRef) (bank : Bool) (pc hc detail addr : Nat) : (s.haltAt q bank pc hc detail addr).mode = s.mode := by
  unfold State.haltAt
  extract_lets c k h s1 stop s2 s3
  have slots : s2.mode = s.mode := by
    dsimp only [s2]
    split
    · rfl
    · rfl
  have recorded : s3.mode = s.mode := by
    dsimp only [s3]
    split
    · exact slots
    · exact slots
  split
  · split
    · exact recorded
    · exact (State.event_mode ..).trans recorded
  · exact (State.event_mode ..).trans recorded

theorem State.updCtx_mode (s : State) (k : Nat) (f : Ctx → Ctx) : (s.updCtx k f).mode = s.mode := rfl

theorem State.eachCtx_mode {f : State → Nat → State} (h : ∀ s k, (f s k).mode = s.mode) (s : State) : (s.eachCtx f).mode = s.mode :=
  foldl_keeps (f := State.mode) h _ s

theorem State.eachQueue_mode {f : State → QRef → State} (h : ∀ s q, (f s q).mode = s.mode) (s : State) (k : Nat) : (s.eachQueue k f).mode = s.mode :=
  foldl_keeps (f := State.mode) h _ s

/-- The state whose last event announces Safe Hold: its epochs are HELD and its queues have halted (R364, R365). -/
def State.heldAndHalted (s : State) (cause : Nat) : State :=
  let trial := (if s.fw.active1 then s.fw.slot1 else s.fw.slot0).st == .trial && !s.startDone && !s.bootSafe
  let s : State := { s with safeHold := true, shCause := cause, revert := s.revert || trial }
  let s := s.eachCtx fun s k => s.updCtx k fun c => { c with
    epochs := c.epochs.map fun e =>
      if e.st = .opened ∨ e.st = .closed then { e with st := .held, effects := [] }
      else { e with effects := [], dropped := if e.st = .committing then e.effects else e.dropped } }
  s.eachCtx fun s k => s.eachQueue k fun s q => if (s.queue q).live then s.haltRaw q 0xFE 0 0 else s

theorem State.enterSafeHold_eq {s : State} (safe : s.safeHold = false) (cause : Nat) :
    s.enterSafeHold cause = (s.heldAndHalted cause).event 0x0009 none 8 cause := if_neg (not_true_of_false safe)

theorem State.heldAndHalted_mode (s : State) (cause : Nat) : (s.heldAndHalted cause).mode = (true, cause, s.phase) := by
  unfold State.heldAndHalted
  extract_lets trial s1 s2
  have held : s2.mode = s1.mode := State.eachCtx_mode (fun u k => State.updCtx_mode u k _) s1
  have halts (u : State) (q : QRef) : (if (u.queue q).live then u.haltRaw q 0xFE 0 0 else u).mode = u.mode := by
    split
    · exact State.haltAt_mode ..
    · rfl
  exact (State.eachCtx_mode (fun u k => State.eachQueue_mode halts u k) s2).trans held

theorem State.enterSafeHold_mode {s : State} (safe : s.safeHold = false) (cause : Nat) : (s.enterSafeHold cause).mode = (true, cause, s.phase) := by
  rw [State.enterSafeHold_eq safe, State.event_mode, State.heldAndHalted_mode]

/-- A check of power and temperature: what is reported and paced, and which rating is exceeded (Tables 20-1 and 20-2). -/
theorem exec_powerThermalCheck {s : State} (up : s.up = true) {temps : List Int} (all_sensors : temps.length = 26) (mv w : Nat) (cin : Int) (flow : Nat)
    {u : State} (hu : (((((temps.zipIdx.foldl (fun u e => u.setVal TEMP (e.2 + 1) (Bits.wrap e.1 32)) s).setVal INPUT_MV 0 mv).setVal INPUT_W 0 w).setVal
      COOLANT_IN 0 (Bits.wrap cin 32)).setVal COOLANT_FLOW 0 flow) = u) {t : State}
    (ht : u.setVal PACED 0 (if u.powerLimit < w ∨ ∃ t ∈ temps, 8500 < t then 1 else 0) = t) :
    exec (.powerThermalCheck temps mv w cin flow) s = .next (
      if ∃ x ∈ temps.take 10, 10500 < x then t.enterSafeHold 4 else if ∃ x ∈ temps.drop 10, 10000 < x then t.enterSafeHold 6 else t) := by
  have whole : temps.take 26 = temps := List.take_of_length_le all_sensors.le
  have paced : Bits.ofBool (decide (u.powerLimit < w) || temps.any fun t => decide (8500 < t))
      = if u.powerLimit < w ∨ ∃ t ∈ temps, 8500 < t then 1 else 0 := if_congr (by simp) rfl rfl
  rw [exec, execPowerThermalCheck, whenUp_of_up up]
  simp only [whole, hu, paced, ht, List.any_eq_true, decide_eq_true_eq]

/-- Settles O39: `exec_powerThermalCheck` by the rating that is exceeded, and what entering Safe Hold does to the mode of the part. -/
theorem powerChecksAndSafeHold : Obligations.PowerChecksAndSafeHold := by
  refine ⟨?_, ?_⟩
  · intro s temps mv w cin flow up all_sensors u t
    have check := exec_powerThermalCheck up all_sensors mv w cin flow (u := u) rfl (t := t) rfl
    have within {l : List Int} {m : Int} (h : ∀ x ∈ l, x ≤ m) : ¬ ∃ x ∈ l, m < x := fun ⟨x, hx, above⟩ => absurd (h x hx) (Int.not_le.mpr above)
    refine ⟨fun hot => ?_, fun dies_below hot => ?_, fun dies_below stacks_below => ?_⟩
    · rw [check, if_pos hot]
    · rw [check, if_neg (within dies_below), if_pos hot]
    · rw [check, if_neg (within dies_below), if_neg (within stacks_below)]
  · intro s cause up
    refine ⟨fun held => if_pos held, fun safe => ?_, ?_⟩
    · have mode := State.enterSafeHold_mode safe cause
      simp only [State.mode, Prod.mk.injEq] at mode
      obtain ⟨held, named, phase⟩ := mode
      exact ⟨held, named, phase, _, State.enterSafeHold_eq safe cause⟩
    · rw [exec, execShEnter, whenUp_of_up up, State.goShEnter, State.answerTo_none]

end Sys2Proof.Machine

/-! The memory tiers (R439, R444, R448 to R452): scrubs, rows and columns that are replaced, CXL ports, and pages made present. -/

namespace Sys2Proof.Machine

open Sys2Proof.WB

/-! ### Scrubs -/

section
variable {s : State} (up : s.up = true) {loc : MemLoc} (there : s.locExists loc = true) (r : ScrubRead)
include up there

theorem exec_scrubLine_clean : exec (.scrubLine loc .clean r) s = .next (s.scrubPass loc r) := by
  rw [exec, execScrubLine, whenUp_of_up up, if_pos there]

theorem exec_scrubLine_corrected : exec (.scrubLine loc .corrected r) s = .next ((s.scrubCorrected loc r).scrubPass loc r) := by
  rw [exec, execScrubLine, whenUp_of_up up, if_pos there]

theorem exec_scrubLine_uncorrectable : exec (.scrubLine loc .uncorrectable r) s = .next (
    (s.locCtx loc).elim ((s.scrubUncorrectable loc).scrubPass loc r) fun k => ((s.scrubUncorrectable loc).scrubPass loc r).after k) := by
  rw [exec, execScrubLine, whenUp_of_up up, if_pos there]
  cases s.locCtx loc <;> rfl

end

theorem State.scrubPass_eq (s : State) (loc : MemLoc) (r : ScrubRead) :
    s.scrubPass loc r = if r.passEnd = true ∧ s.isHbm loc = true then s.count SCRUB_PASSES 0 1 else s := by
  simp only [State.scrubPass, Bool.and_eq_true]

/-- A corrected error of device memory whose stack or port is one of the twenty (R448). -/
theorem State.scrubCorrected_dev (s : State) (k : CtxId) (a : Nat) (r : ScrubRead) (h : s.targetOf k.val a < 20) {c : State}
    (hc : s.count ECC_CORR (s.targetOf k.val a + 1) 1 = c) :
    s.scrubCorrected (.dev k a) r = (if s.firstInPass (.row ⟨s.targetOf k.val a, h⟩ r.row) then
      c.logFault 0xFA 0x01 0 none (some k.val) (targetDie (c.targetOf k.val a)) c.syndrome a else c).noteCorrected (.row ⟨s.targetOf k.val a, h⟩ r.row) := by
  subst hc
  simp only [State.scrubCorrected, State.spareUnit, h, dif_pos, State.eccUnit]

/-! ### Rows and columns -/

section
variable {s : State} (up : s.up = true) {unit : SpareUnit} (spare : Bool)
include up

theorem exec_rowSpare_of_sound (sound : s.sparing.qualifies unit = false) : exec (.rowSpare unit spare) s = .next s := by
  rw [exec, execRowSpare, whenUp_of_up up, if_neg (not_true_of_false sound)]

variable (worn : s.sparing.qualifies unit = true)
include worn

theorem exec_rowSpare_of_step (step : s.anyStep = true) :
    exec (.rowSpare unit spare) s = .next { s with sparing := { s.sparing with
      due := s.sparing.due ++ [(unit, spare)], corrected := s.sparing.corrected.filter fun e => e.1 != unit } } := by
  rw [exec, execRowSpare, whenUp_of_up up, if_pos worn]
  exact congrArg _ (if_pos step)

/-- While no step runs the replacement is made at once (log entry 85). -/
theorem exec_rowSpare_at_once (still : s.anyStep = false) (none_due : s.sparing.due = []) :
    exec (.rowSpare unit spare) s = .next (State.applySpare
      { s with sparing := { s.sparing with corrected := s.sparing.corrected.filter fun e => e.1 != unit } } (unit, spare)) := by
  have one_due : s.sparing.due ++ [(unit, spare)] = [(unit, spare)] := by rw [none_due, List.nil_append]
  have emptied : ({ s.sparing with due := [], corrected := s.sparing.corrected.filter fun e => e.1 != unit } : Sparing)
      = { s.sparing with corrected := s.sparing.corrected.filter fun e => e.1 != unit } :=
    congrArg (fun l => ({ s.sparing with due := l, corrected := s.sparing.corrected.filter fun e => e.1 != unit } : Sparing)) none_due.symm
  rw [exec, execRowSpare, whenUp_of_up up, if_pos worn, ← emptied]
  refine congrArg _ ((if_neg (not_true_of_false still)).trans ?_)
  simp only [State.spareDue, one_due, List.foldl_cons, List.foldl_nil]

end

theorem State.applySpare_column (s : State) (c : CoreId) (b : Fin 64) (col : Nat) (spare : Bool) {n : Nat}
    (hn : Tab.get 0 s.sparing.columns (64 * c.val + b.val) = n) :
    s.applySpare (.column c b col, spare) = if n < 4 then
      State.count { s with sparing := { s.sparing with columns := Tab.set 0 s.sparing.columns (64 * c.val + b.val) (n + 1) } } SPARED 0x15 1
    else s.event 0x0021 none (coreDie c.val) c.val := by
  subst hn
  rfl

/-! ### Pages made present -/

section
variable {s : State} (up : s.up = true) (k : CtxId) (va : W64)
include up

theorem exec_mapPresent : exec (.mapPresent k va) s = .next { (s.mapPresentNow k.val va.toNat).1 with answer := (s.mapPresentNow k.val va.toNat).2 } := by
  rw [exec, execMapPresent, whenUp_of_up up, State.goMapPresent]
  rfl

theorem exec_mapPresent_elsewhere (elsewhere : ∀ i r, s.regionAt k.val va.toNat = some (i, r) → r.demand = false) :
    exec (.mapPresent k va) s = .next { s with answer := 0x38 } := by
  have refused : s.mapPresentNow k.val va.toNat = (s, 0x38) := by
    rw [State.mapPresentNow]
    cases region : s.regionAt k.val va.toNat with
    | none => rfl
    | some x =>
      obtain ⟨i, r⟩ := x
      exact if_neg (not_true_of_false (elsewhere i r region))
  rw [exec_mapPresent up, refused]

variable {i : Nat} {r : Region} (region : s.regionAt k.val va.toNat = some (i, r)) (demand : r.demand = true)
include region demand

theorem exec_mapPresent_mapped {u : State} (mapped : s.mapPage k.val va.toNat = some u) : exec (.mapPresent k va) s = .next { u with answer := 0 } := by
  rw [exec_mapPresent up]
  simp only [State.mapPresentNow, region, demand, if_true, mapped]

theorem exec_mapPresent_full (full : s.mapPage k.val va.toNat = none) : exec (.mapPresent k va) s = .next { s with answer := 0x39 } := by
  rw [exec_mapPresent up]
  simp only [State.mapPresentNow, region, demand, if_true, full]

end

/-- Settles O40: each event of the memory tiers by its case. -/
theorem memoryEventsComplete : Obligations.MemoryEventsComplete := by
  intro s up
  refine ⟨?_, ?_, ?_, fun t row => ⟨rfl, rfl⟩, ?_, ?_, ?_, ?_⟩
  · intro loc r there
    refine ⟨exec_scrubLine_clean up there r, exec_scrubLine_corrected up there r, State.scrubPass_eq s loc r, ?_⟩
    rintro k a rfl n c u v
    exact ⟨fun h => State.scrubCorrected_dev s k a r h rfl, exec_scrubLine_uncorrectable up there r⟩
  · intro c a r u
    rw [exec_scrubLine_uncorrectable up rfl r]
    exact congrArg _ ((State.scrubPass_eq ..).trans (if_neg fun h => Bool.false_ne_true h.2))
  · intro unit spare rest
    exact ⟨fun sound => exec_rowSpare_of_sound up spare sound, fun worn step => exec_rowSpare_of_step up spare worn step,
      fun worn still none_due => exec_rowSpare_at_once up spare worn still none_due⟩
  · intro c b col spare n
    refine ⟨fun few => ?_, fun all => ?_⟩
    · rw [State.applySpare_column s c b col spare (n := n) rfl, if_pos few]
    · rw [State.applySpare_column s c b col spare (n := n) rfl, if_neg (Nat.not_lt.mpr all)]
  · intro p on
    rw [exec, execCxlLinkDown, whenUp_of_up up, if_neg (not_true_of_false on)]
  · exact fun k va elsewhere => exec_mapPresent_elsewhere up k va elsewhere
  · exact fun k va i r region demand => ⟨fun u mapped => exec_mapPresent_mapped up k va region demand mapped,
      fun full => exec_mapPresent_full up k va region demand full⟩

end Sys2Proof.Machine

/-! O41: the ingest service starts and its group's samples arrive. -/

namespace Sys2Proof.Machine

open Sys2Proof.WB

/-! ### INGEST_GO -/

/-- What an image that has been read does: it is stored, and the service starts over its samples unless its contents are refused (R410). -/
def State.takeCatalog (u : State) (k : Nat) (im : List Byte) : State × Nat :=
  if u.catalogBad k im then (u, 0x35)
  else ((u.updCtx k fun c => { c with ingest := true, ns := Bits.ofBytes (im.take 8), nsh := Bits.ofBytes ((im.drop 8).take 4) }).restartIngest k, 0)

/-- An empty image names no samples, so it is refused whatever the digest is. -/
theorem State.catalogBad_nil (s : State) (k : Nat) : s.catalogBad k [] = true := by
  have none_named : between 1 (2 ^ 40) (Bits.ofBytes ([] : List Byte)) = false := by decide
  simp only [State.catalogBad, List.drop_nil, List.take_nil, none_named, Bool.not_false, Bool.or_true, Bool.true_or]

section
variable {s : State} {k : Nat}

/-- The batch divides among the owners, the descriptor is well-formed and the catalogue has memory (R425). -/
def State.IngestReady (s : State) (k : Nat) (im : List Byte) : Prop :=
  s.batch k % (s.ctx k).nown = 0 ∧ idescBad (s.blobNat INGEST_DESC (k + 1) 0 32) = false ∧ s.memCheck k (s.val CATALOG_ADDR (k + 1)) im.length = none

theorem State.ingestReady_iff {im : List Byte} : s.IngestReady k im ↔ ¬ (s.batch k % (s.ctx k).nown ≠ 0 ∨
    idescBad (s.blobNat INGEST_DESC (k + 1) 0 32) = true ∨ (s.memCheck k (s.val CATALOG_ADDR (k + 1)) im.length).isSome = true) := by
  simp [State.IngestReady]

theorem State.ingestNow_of_held (held : s.safeHold = true) (im : List Byte) : s.ingestNow k im = (s, 0x35) := by
  rw [State.ingestNow, if_pos held]

theorem State.ingestNow_of_unready (safe : s.safeHold = false) {im : List Byte} (unready : ¬ s.IngestReady k im) : s.ingestNow k im = (s, 0x34) := by
  rw [State.ingestNow, if_neg (by simp [safe]), if_pos (not_not.mp (mt State.ingestReady_iff.mpr unready))]

theorem State.ingestNow_of_ready (safe : s.safeHold = false) {im : List Byte} (ready : s.IngestReady k im) :
    s.ingestNow k im = ((s.readCatalog k im).1.hubWrite k (s.val CATALOG_ADDR (k + 1)) (s.readCatalog k im).2).takeCatalog k (s.readCatalog k im).2 := by
  rw [State.ingestNow, if_neg (by simp [safe]), if_neg (State.ingestReady_iff.mp ready)]
  generalize s.readCatalog k im = read
  obtain ⟨u, image⟩ := read
  generalize bad : (u.hubWrite k (s.val CATALOG_ADDR (k + 1)) image).catalogBad k image = b
  cases b <;> simp only [State.takeCatalog, bad]

theorem State.readCatalog_of_reached (used : s.targetUsed (s.catalogSrc k).target = true) (wired : s.ethUp = true) (im : List Byte) :
    s.readCatalog k im = ((s.count BYTES_READ (k + 1) im.length).emit
      (.catalogRead k (s.catalogSrc k).target (s.catalogSrc k).nsid (s.catalogSrc k).slba (s.catalogSrc k).nlb), im) := by
  have reached : (s.targetUsed (s.catalogSrc k).target && s.ethUp) = true := by rw [used, wired]; rfl
  rw [State.readCatalog, if_pos reached]

theorem State.readCatalog_of_unreached (off : s.targetUsed (s.catalogSrc k).target = false ∨ s.ethUp = false) (im : List Byte) :
    s.readCatalog k im = (s, []) := by
  have unreached : ¬ (s.targetUsed (s.catalogSrc k).target && s.ethUp) = true := by rcases off with off | off <;> simp [off]
  rw [State.readCatalog, if_neg unreached]

theorem State.takeCatalog_of_good {im : List Byte} (good : s.catalogBad k im = false) :
    s.takeCatalog k im =
      ((s.updCtx k fun c => { c with ingest := true, ns := Bits.ofBytes (im.take 8), nsh := Bits.ofBytes ((im.drop 8).take 4) }).restartIngest k, 0) :=
  if_neg (by simp [good])

theorem State.takeCatalog_of_bad {im : List Byte} (bad : s.catalogBad k im = true) : s.takeCatalog k im = (s, 0x35) := if_pos bad

end

theorem exec_ingestGo_of_up {s : State} (up : s.up = true) (k : CtxId) (e : Env) :
    exec (.ingestGo k e) s = .next ((s.ingestNow k.val e.catalog).1.answerTo none (s.ingestNow k.val e.catalog).2) := by
  rw [exec, execIngestGo, whenUp_of_up up]
  exact rfl

/-! ### SAMPLE -/

section
variable {s : State} {k gn : Nat} {m : CMsg} {r : CGroup} {bs : List Byte}

/-- A SAMPLE message of another member of the ingest group, for a step of this placement that has not committed (R428). -/
structure State.TakesSample (s : State) (k : Nat) (m : CMsg) (gn : Nat) (r : CGroup) (bs : List Byte) : Prop where
  group : s.ingestGroup k = some (gn, r)
  payload : m.payload = .raw bs
  named : m.hdr.group = gn
  job : m.hdr.job = r.job
  other : m.hdr.sender ≠ r.rank
  member : m.hdr.sender < r.nmem
  inside : r.xjob = false
  placed : m.hdr.pgen = s.pgen k
  runs : (s.ctx k).ingest = true
  later : s.val COMMITTED_STEP (k + 1) < m.hdr.epoch

theorem CGroup.carriesType_of_inside (inside : r.xjob = false) (t : Nat) : r.carriesType t = true := by
  simp [CGroup.carriesType, inside]

variable (takes : s.TakesSample k m gn r bs)
include takes

theorem State.TakesSample.accepted :
    ¬ (m.hdr.group ≠ gn ∨ m.hdr.job ≠ r.job ∨ m.hdr.sender = r.rank ∨ r.nmem ≤ m.hdr.sender ∨ r.carriesType m.hdr.mtype = false) := by
  simp [takes.named, takes.job, takes.other, takes.member, CGroup.carriesType_of_inside takes.inside]

theorem State.TakesSample.current : ¬ (!(s.ctx k).ingest || decide (m.hdr.epoch ≤ s.val COMMITTED_STEP (k + 1))) = true := by
  simp [takes.runs, takes.later]

theorem State.onSample_of_slot {w : Nat} (slot : s.hasSlot k m.hdr.epoch = true) (own : s.ownIndex k = some w) :
    s.onSample k m = s.putSample k m.hdr.epoch m.hdr.seg (32 * (m.hdr.offset - ((s.idesc k).vecOff (s.layout k m.hdr.epoch w).nrows
      + (((s.layout k m.hdr.epoch w).at_[m.hdr.seg]?).getD (0, 0, 0)).1 * (s.idesc k).vecBytes) / 32)) bs m.hdr.endB (bs.isEmpty && m.hdr.endB) := by
  simp only [State.onSample, takes.group, takes.payload, if_neg takes.accepted, if_neg (not_not.mpr takes.placed), if_neg takes.current, if_pos slot, own]

theorem State.onSample_of_no_slot (full : s.hasSlot k m.hdr.epoch = false) :
    s.onSample k m = s.updCtx k fun c => { c with sampleWait := c.sampleWait ++ [m] } := by
  have none_free : ¬ s.hasSlot k m.hdr.epoch = true := by simp [full]
  simp only [State.onSample, takes.group, takes.payload, if_neg takes.accepted, if_neg (not_not.mpr takes.placed), if_neg takes.current, if_neg none_free]

end

/-- Settles O41: INGEST_GO by what stops it, in the order of its checks, and SAMPLE by whether its step has a slot. -/
theorem ingestStartsAndHearsItsGroup : Obligations.IngestStartsAndHearsItsGroup := by
  unfold Obligations.IngestStartsAndHearsItsGroup
  refine ⟨fun s k e up => ?_, fun s k m gn r bs up safe kind => ?_⟩
  · intro a im x ready u
    refine ⟨fun held => ?_, fun safe used wired ready good => ?_, fun safe used wired ready bad => ?_, fun safe off ready => ?_, fun safe unready => ?_⟩
    · rw [exec_ingestGo_of_up up, State.ingestNow_of_held held, State.answerTo_none]
    · rw [exec_ingestGo_of_up up, State.ingestNow_of_ready safe ready, State.readCatalog_of_reached used wired, State.takeCatalog_of_good good, State.answerTo_none]
    · rw [exec_ingestGo_of_up up, State.ingestNow_of_ready safe ready, State.readCatalog_of_reached used wired, State.takeCatalog_of_bad bad, State.answerTo_none]
    · rw [exec_ingestGo_of_up up, State.ingestNow_of_ready safe ready, State.readCatalog_of_unreached off,
        State.takeCatalog_of_bad (State.catalogBad_nil _ _), State.answerTo_none]
    · rw [exec_ingestGo_of_up up, State.ingestNow_of_unready safe unready, State.answerTo_none]
  · intro u n group payload named job other member inside placed runs later
    have takes : u.TakesSample k.val m gn r bs := ⟨group, payload, named, job, other, member, inside, placed, runs, later⟩
    have done : exec (.caravanSample k m) s = .next ((u.onSample k.val m).after k.val) := by
      rw [exec, execCaravanSample, onMessage_of_open up safe kind]
    refine ⟨fun w slot own => ?_, fun full => ?_⟩
    · rw [done, State.onSample_of_slot takes slot own]
    · rw [done, State.onSample_of_no_slot takes full]

end Sys2Proof.Machine

/-! O42, O43: samples, generations and salvage. -/

namespace Sys2Proof.Machine

open Sys2Proof.WB

/-! ### Samples -/

theorem onIngest_of_open {s : State} {k : CtxId} (up : s.up = true) (safe : s.safeHold = false) (runs : (s.ctx k.val).ingest = true)
    (f : State → State) : onIngest k s f = .next ((f s).after k.val) := by
  rw [onIngest, whenUp_of_up up, if_neg (by simp [safe, runs])]

theorem State.decoded_of_tokens {s : State} {k q bits : Nat} {full : Bool} {fs : List Raster} {bs : List Byte}
    (cut : (s.count PIXELS_DECODED (k + 1) (lumaPixels fs)).tokensOf k q bits full fs = .ok bs) :
    s.decoded k q (some (bits, full, fs)) =
      ((s.count PIXELS_DECODED (k + 1) (lumaPixels fs)).count SAMPLES_READ (k + 1) 1).deliverSample k q bs := by
  simp only [State.decoded, cut]

/-- Settles O42: each event of a sample by the state that its sample is in. -/
theorem samplesComplete : Obligations.SamplesComplete := by
  unfold Obligations.SamplesComplete
  intro s k q up safe runs st
  have go (f : State → State) := onIngest_of_open (k := k) up safe runs f
  refine ⟨fun bytes busy => ?_, fun busy => ?_, fun exhausted idle unread => ?_, fun read undelivered => ?_⟩
  · rw [exec, execStorageReadComplete, go, if_pos busy]
  · rw [exec, execStorageReadTimeout, go, if_pos busy]
  · have due : (st.exhausted && !st.busy && !st.read) = true := by simp [exhausted, idle, unread]
    rw [exec, execShardRetryTimer, go]
    exact congrArg (fun u : State => Host.Outcome.next (u.after k.val)) (if_pos due)
  · have due : ¬ (!st.read || st.delivered) = true := by simp [read, undelivered]
    refine ⟨?_, fun bits full fs bs cut => State.decoded_of_tokens cut, rfl, fun n => ?_⟩
    all_goals
      rw [exec, execDecodeComplete, go]
      exact congrArg (fun u : State => Host.Outcome.next (u.after k.val)) (if_neg due)

/-! ### Generations -/

section
variable {s : State} {k : CtxId} (up : s.up = true) (safe : s.safeHold = false)
include up safe

theorem exec_genStageDone_of_unstaged {st : Stage} (named : (s.ctx k.val).stage = some st) (fresh : st.staged = false) :
    exec (.genStageDone k) s = .next (State.after ((((s.writeStage k.val st).count GEN_TAKEN (k.val + 1) 1).updCtx k.val fun c => { c with
      stage := some { st with staged := true }
      pins := c.pins.filter fun p => p.eval || p.step != st.step }).nextCopy k.val) k.val) := by
  have unstaged : ¬ st.staged = true := by simp [fresh]
  rw [exec, execGenStageDone, onBivouac_of_awake up safe]
  simp only [named, if_neg unstaged]

theorem exec_genCopyDone_of_staged {st : Stage} (named : (s.ctx k.val).stage = some st) (staged : st.staged = true) (ok : Bool) :
    exec (.genCopyDone k ok) s = .next (State.after
      (if st.tiers.head? = some 1 ∧ ok = true then (s.endCopy k.val ok).genArrived k.val st.step else s.endCopy k.val ok) k.val) := by
  rw [exec, execGenCopyDone, onBivouac_of_awake up safe]
  simp only [named, if_pos staged, Bool.and_eq_true, beq_iff_eq]

end

theorem exec_salvageGo_of_up {s : State} (up : s.up = true) : exec .salvageGo s = .next (s.salvageNow.1.answerTo none s.salvageNow.2) := by
  rw [exec, execSalvageGo, whenUp_of_up up]
  exact rfl

/-- Settles O43: a stage and its copies, the partner, salvage, and the charge of the holdup store. -/
theorem generationsAndSalvageComplete : Obligations.GenerationsAndSalvageComplete := by
  unfold Obligations.GenerationsAndSalvageComplete
  refine ⟨fun s k st up safe named => ⟨fun fresh => ?_, fun staged ok => ?_⟩, fun s k up safe => ?_, fun s up => ⟨fun held => ?_, fun safe => ?_, fun p => ?_⟩⟩
  · exact exec_genStageDone_of_unstaged up safe named fresh
  · exact exec_genCopyDone_of_staged up safe named staged ok
  · intro ps u copying paired
    rw [exec, execPartnerTimeout, onBivouac_of_awake up safe]
    refine congrArg (fun u : State => Host.Outcome.next (u.after k.val)) ((if_pos paired).trans ?_)
    cases stage : (u.ctx k.val).stage with
    | none => simp only [u, copying, stage, Bool.false_eq_true, if_false]
    | some st => simp only [u, copying, stage]
  · rw [exec_salvageGo_of_up up, State.salvageNow, if_pos held, State.answerTo_none]
  · rw [exec_salvageGo_of_up up, State.salvageNow, if_neg (by simp [safe]), State.answerTo_none]
  · intro old u
    have charged : exec (.holdupChargeLow p) s = .next (if 80 ≤ old ∧ p < 80 then u.event 0x0032 none 8 (evData2 p 1)
        else if old < 80 ∧ 80 ≤ p then u.event 0x0032 none 8 (evData2 p 0) else u) := by
      rw [exec, execHoldupChargeLow, whenUp_of_up up]
    refine ⟨fun high low => ?_, fun low high => ?_, fun same => ?_⟩
    · rw [charged, if_pos ⟨high, low⟩]
    · rw [charged, if_neg (by omega), if_pos ⟨low, high⟩]
    · rw [charged, if_neg (by omega), if_neg (by omega)]

end Sys2Proof.Machine

/-! O45: the loss of power, resets, trials and restarts. -/

namespace Sys2Proof.Machine

open Sys2Proof.WB

/-! ### The loss of power (Table 14-3) -/

/-- What the loss of power does in every context: held effects are gone, and copies under way in module flash are invalid. -/
def State.dropVolatile (s : State) : State :=
  s.eachCtx fun s k => s.updCtx k fun c => { c with
    epochs := c.epochs.map fun e => { e with effects := [] }
    gens := c.gens.map fun g => if g.tier = 1 ∧ g.complete = false then { g with valid := false } else g }

theorem State.dropVolatile_keeps {α : Type} (f : State → α) (keeps : ∀ (s : State) (k : Nat) (c : Ctx), f (s.setCtx k c) = f s) (s : State) :
    f s.dropVolatile = f s :=
  foldl_keeps (fun s k => keeps s k _) _ _

theorem State.powerDown_eq (s : State) (p : Phase) : s.powerDown p = { s.dropVolatile with
    flashLog := s.dropVolatile.commitLog
    ethUp := false
    cxl := []
    ports := s.dropVolatile.ports.map fun e => (e.1, if e.2.st = .bypassed ∨ e.2.st = .disabled then e.2 else e.2.clear .down)
    phase := p } := by
  rw [State.powerDown, State.dropVolatile]

theorem Port.unlit_of_lost (x : Port) :
    (if x.st = .bypassed ∨ x.st = .disabled then x else x.clear .down).st = .down
      ∨ (if x.st = .bypassed ∨ x.st = .disabled then x else x.clear .down).st = .bypassed
      ∨ (if x.st = .bypassed ∨ x.st = .disabled then x else x.clear .down).st = .disabled := by
  split
  · next out => exact .inr out
  · exact .inl rfl

theorem State.powerDown_ports {s : State} {p : Phase} {e : Nat × Port} (h : e ∈ (s.powerDown p).ports) :
    e.2.st = .down ∨ e.2.st = .bypassed ∨ e.2.st = .disabled := by
  obtain ⟨x, -, rfl⟩ := List.mem_map.mp h
  exact x.2.unlit_of_lost

theorem State.losePower_of_running {s : State} (running : s.phase = .running) : s.losePower = s.powerDown .off := by
  simp only [State.losePower, running]

theorem State.losePower_of_stopped {s : State} (stopped : s.phase ≠ .running) : s.losePower = { s with phase := .off } := by
  unfold State.losePower
  split
  case h_1 running => exact absurd running stopped
  case h_2 off => rw [← off]
  case h_3 => rfl
  case h_4 => rfl

/-- The standby rail and the TAP go with the input (R615). -/
def State.unpowered (u : State) : State := { u with standby := false, tap := {} }

theorem exec_powerFailDetect (s : State) : exec .powerFailDetect s = .next s.losePower.unpowered := by
  rw [exec, execPowerFailDetect, State.unpowered]

/-! ### Restarts -/

theorem any_context_in_use (s : State) : ((List.range 16).any fun k => (s.ctx k).st != .free) = true ↔ ∃ k < 16, (s.ctx k).st ≠ .free := by
  simp [List.any_eq_true]

section
variable {s : State}

theorem State.restartRefused_of_idle (idle : s.safeHold = true ∨ ∀ k < 16, (s.ctx k).st = .free) (tag : s.fw.startTag ≠ anyTag) :
    s.restartRefused = none := by
  have unused : ¬ (!s.safeHold && (List.range 16).any fun k => (s.ctx k).st != .free) = true := by
    rw [Bool.and_eq_true, any_context_in_use]
    rintro ⟨safe, k, hk, used⟩
    rcases idle with held | free
    · simp [held] at safe
    · exact used (free k hk)
  rw [State.restartRefused, if_neg unused, if_neg tag]

theorem State.restartRefused_of_used (safe : s.safeHold = false) (used : ∃ k < 16, (s.ctx k).st ≠ .free) : s.restartRefused = some 0x08 := by
  have busy : (!s.safeHold && (List.range 16).any fun k => (s.ctx k).st != .free) = true := by
    rw [Bool.and_eq_true, any_context_in_use]
    exact ⟨by simp [safe], used⟩
  rw [State.restartRefused, if_pos busy]

theorem State.startPart_of_revert (due : s.revert = true) (cause tag : Nat) (i : StartIn) : s.startPart cause tag i = s.revertStart i := if_pos due

theorem State.startPart_of_no_revert (plain : s.revert = false) (cause tag : Nat) (i : StartIn) : s.startPart cause tag i = State.boot 2 s cause tag i [] :=
  if_neg (by simp [plain])

end

/-- Settles O45: what ends a running part and what starts it, each by the phase that it finds. -/
theorem powerAndStartsComplete : Obligations.PowerAndStartsComplete := by
  unfold Obligations.PowerAndStartsComplete
  intro s i
  refine ⟨fun running => ⟨?_, ?_, ?_, fun p => ⟨rfl, rfl, ?_, ?_, ?_, fun e h => State.powerDown_ports h⟩⟩, fun stopped => ⟨?_, ?_⟩, fun off free => ?_,
    fun off held => ?_, fun reset => ?_, ⟨fun up trial starting plain => ?_, fun due cause tag => ?_, fun plain cause tag => ?_⟩, fun up idle tag => ?_,
    fun up safe used => ?_, fun up held => ?_⟩
  · rw [exec_powerFailDetect, State.losePower_of_running running, State.unpowered]
  · rw [exec, execPresentNOpen, State.losePower_of_running running]
  · rw [exec, execModResetAssert]
    simp only [running]
  · simp only [State.powerDown_eq]
    exact State.dropVolatile_keeps State.wbv (fun _ _ _ => rfl) s
  · simp only [State.powerDown_eq]
    exact State.dropVolatile_keeps State.fw (fun _ _ _ => rfl) s
  · simp only [State.powerDown_eq]
    exact State.dropVolatile_keeps State.evSeq (fun _ _ _ => rfl) s
  · rw [exec_powerFailDetect, State.losePower_of_stopped stopped, State.unpowered]
  · rw [exec, execPresentNOpen, State.losePower_of_stopped stopped]
  · rw [exec, execPowerOn, if_pos off]
    exact congrArg _ (if_neg (by simp [free]))
  · rw [exec, execPowerOn, if_pos off]
    exact congrArg _ (if_pos held)
  · rw [exec, execModResetRelease]
    exact congrArg _ (if_pos reset)
  · rw [exec, execTrialTimeout, whenUp_of_up up, if_pos ⟨trial, starting, plain⟩]
    exact rfl
  · rw [State.startPart_of_revert due]
    exact rfl
  · exact State.startPart_of_no_revert plain cause tag i
  · rw [exec, execRestartGo, whenUp_of_up up, State.goRestart]
    simp only [State.restartRefused_of_idle idle tag, State.answerTo_none]
  · rw [exec, execRestartGo, whenUp_of_up up, State.goRestart]
    simp only [State.restartRefused_of_used safe used, State.answerTo_none]
  · rw [exec, execShExit, whenUp_of_up up, State.goShExit, if_pos held, State.answerTo_none]

end Sys2Proof.Machine

/-! O46: CTX_OPEN_GO. -/

namespace Sys2Proof.Machine

open Sys2Proof.WB

/-- What an opening must leave as it was, with the state and the package of the context that it opens. -/
def State.openView (s : State) (k : Nat) : CtxState × Package × List Instr × Fw × Tap := ((s.ctx k).st, (s.ctx k).pkg, s.pending, s.fw, s.tap)

section
variable (s : State) (k : Nat)

theorem State.updCtx_openView (f : Ctx → Ctx) (st : (f (s.ctx k)).st = (s.ctx k).st) (pkg : (f (s.ctx k)).pkg = (s.ctx k).pkg) :
    (s.updCtx k f).openView k = s.openView k := by
  simp [State.openView, State.updCtx, st, pkg]

theorem State.allocMp_openView (d : MpDecl) : (s.allocMp k d).openView k = s.openView k := by
  rw [State.allocMp]
  exact State.updCtx_openView _ k _ rfl rfl

theorem State.giveCores_openView (roles twins : List Nat) (f : Nat → Core) : (s.giveCores k roles twins f).openView k = s.openView k := by
  have placed (l : List (Nat × Nat)) (g : Nat → Core) (u : State) : (l.foldl (fun s (c, r) => s.setCore c (g r)) u).openView k = u.openView k :=
    foldl_keeps (f := fun u : State => u.openView k) (step := fun u x => u.setCore x.1 (g x.2)) (fun _ _ => rfl) l u
  rw [State.giveCores]
  refine (State.updCtx_openView _ k _ rfl rfl).trans ?_
  exact (placed (twins.zipIdx) (fun r => { ctx := some k, role := r }) _).trans (placed roles.zipIdx f s)

end

section
variable {s : State} {k : Nat} {e : Env}

/-- A CTX_OPEN_GO that waits for nothing. -/
def openLate (k : Nat) (e : Env) : Late := { kind := 0, k := k, env := e }

theorem State.readyCmd_openLate (s : State) (k : Nat) (e : Env) : s.readyCmd [openLate k e] [] = some (openLate k e) := by
  simp [State.readyCmd, openLate]

theorem State.with_late_nil (late : s.late = []) : { s with late := [] } = s := by rw [← late]

/-- A CTX_OPEN_GO that is alone in the queue is carried out, and leaves the queue empty. -/
theorem State.runLate_of_openLate (late : s.late = []) :
    State.runLate { s with late := [openLate k e] } = (s.openNow k e).1.answerTo none (s.openNow k e).2 := by
  have run : State.runLate { s with late := [openLate k e] } = State.runLateGo { s with late := [openLate k e] } 1 := rfl
  rw [run, State.runLateGo]
  simp only [State.readyCmd_openLate, List.erase_cons_head, State.with_late_nil late]
  rfl

/-- With no command waiting and nothing running speculatively, CTX_OPEN_GO is carried out at once. -/
theorem State.goOpen_of_alone (started : s.startDone = true) (free : (s.ctx k).st = .free) (late : s.late = []) (alone : s.specRunning k = []) :
    s.goOpen k e none = (s.openNow k e).1.answerTo none (s.openNow k e).2 := by
  have idle : ¬ ((s.ctx k).st ≠ .free && !s.behind k) = true := by simp [free]
  rw [State.goOpen, if_neg (by simp [started]), if_neg idle, State.enqueue, if_pos (.inl rfl), alone, late]
  exact State.runLate_of_openLate late

theorem State.openNow_of_cores (free : (s.ctx k).st = .free) {roles twins : List Nat}
    (cores : s.pickCores (s.val CTX_CORES (k + 1)) = some (roles, twins)) (mps : s.mpShort e.pkg.mps = false) (sound : s.loadRefusal e = none) :
    (s.openNow k e).2 = 0 ∧ (s.openNow k e).1.openView k = (.loaded, e.pkg, s.pending, s.fw, s.tap) := by
  have open_ : ¬ (s.ctx k).st ≠ .free := not_not.mpr free
  have enough : ¬ s.mpShort e.pkg.mps = true := by simp [mps]
  simp only [State.openNow, if_neg open_, cores, if_neg enough, sound, true_and]
  refine (foldl_keeps (f := fun u : State => u.openView k) (fun s d => State.allocMp_openView s k d) _ _).trans ((State.giveCores_openView ..).trans ?_)
  simp [State.openView, State.updCtx]

end

/-- Settles O46: CTX_OPEN_GO by what refuses it, in the order of its checks. -/
theorem contextsOpen : Obligations.ContextsOpen := by
  unfold Obligations.ContextsOpen
  intro s k e up
  have go : exec (.ctxOpenGo k e) s = .next (s.goOpen k e none) := by rw [exec, execCtxOpenGo, whenUp_of_up up]
  refine ⟨fun early => ?_, fun started used ahead => ?_, fun started free late alone => ?_⟩
  · rw [go, State.goOpen, if_pos early, State.answerTo_none]
  · have refused : ((s.ctx k).st ≠ .free && !s.behind k) = true := by simp [used, ahead]
    rw [go, State.goOpen, if_neg (by simp [started]), if_pos refused, State.answerTo_none]
  · rw [go, State.goOpen_of_alone started free late alone]
    have open_ : ¬ (s.ctx k).st ≠ .free := not_not.mpr free
    refine ⟨fun few => ?_, fun roles twins cores => ⟨fun short => ?_, fun r mps refused => ?_, fun mps sound => ?_⟩⟩
    · simp only [State.openNow, if_neg open_, few, State.answerTo_none]
    · simp only [State.openNow, if_neg open_, cores, if_pos short, State.answerTo_none]
    · have enough : ¬ s.mpShort e.pkg.mps = true := by simp [mps]
      simp only [State.openNow, if_neg open_, cores, if_neg enough, refused, State.answerTo_none]
    · obtain ⟨code, view⟩ := State.openNow_of_cores free cores mps sound
      rw [code, State.answerTo_none]
      simp only [State.openView, Prod.mk.injEq] at view
      exact ⟨_, rfl, rfl, view⟩

end Sys2Proof.Machine

/-! O47: the commands of a context. -/

namespace Sys2Proof.Machine

open Sys2Proof.WB

section
variable (s : State) (k : Nat) (e : Env)

/-- A command other than CTX_OPEN_GO and RESUME_GO waits for no step boundary (R546). -/
theorem State.enqueue_of_plain {kind : Nat} (plain : ¬ (kind = 0 ∨ kind = 2)) :
    s.enqueue kind k e none = State.runLate { s with late := s.late ++ [{ kind := kind, k := k, env := e, req := none }] } := by
  rw [State.enqueue, if_neg plain]

/-- LOAD_GO fills the inactive banks of a context that is LOADED, RUNNING or HALTED (R178, R189). -/
def State.Loadable : Prop := (s.ctx k).st = .loaded ∨ (s.ctx k).st = .running ∨ (s.ctx k).st = .halted

theorem State.not_loadable_iff : ¬ s.Loadable k ↔ (s.ctx k).st ≠ .loaded ∧ (s.ctx k).st ≠ .running ∧ (s.ctx k).st ≠ .halted := by
  simp only [State.Loadable, not_or]

/-- The package names a bank that runs. -/
def State.loadsActive (e : Env) : Bool := (s.ctxCores k).any fun c => (s.core c).namesActive e.pkg

/-- START_GO is refused in Safe Hold, of a member that waits for the others, and of a context that is not loaded (R365, R483). -/
def State.CannotStart : Prop :=
  s.safeHold = true ∨ (1 ≤ s.val JOB_STATE (k + 1) ∧ s.val JOB_STATE (k + 1) ≤ 3)
    ∨ ((s.ctx k).st ≠ .loaded ∧ ¬ ((s.ctx k).st = .halted ∧ (s.ctx k).reloaded = true))

/-- Every queue begins, and the context runs (R193). -/
def State.startQueues : State :=
  let u := (s.releaseHeld k).pairTwins k
  let v := (u.eachQueue k fun s q => s.updQueue q fun x => x.begin (u.val COMMITTED_STEP (k + 1) - u.val STEP_BASE (k + 1))).updCtx k fun c =>
    { c with st := .running, reloaded := false, fresh := false, aborting := none }
  if v.val JOB_STATE (k + 1) = 4 then v.setVal JOB_STATE (k + 1) 0 else v

/-- What earlier epochs left is dropped, and the epoch after the committed step `done` opens (R338). -/
def State.startEpochs (w : State) (done : Nat) : State :=
  let x := ((w.ctxCores k).foldl (fun s c => s.squashCore (done + 1) c) (w.dropStray k (done + 1))).updCtx k fun c => { c with
    epochs := c.epochs.filter fun e => !e.uncommitted && e.st != .squashed
    ops := c.ops.filter fun o => o.2.epoch ≤ done }
  (x.recordAll k (done + 1)).openEpoch k (done + 1)

variable {s k e}

theorem State.loadNow_of_unloadable (other : ¬ s.Loadable k) : s.loadNow k e = (s, 0x2B) := by
  rw [State.loadNow]
  exact if_pos ((s.not_loadable_iff k).mp other)

theorem State.loadNow_of_active (loadable : s.Loadable k) (named : s.loadsActive k e = true) : s.loadNow k e = (s, 0x28) := by
  rw [State.loadNow]
  exact (if_neg (mt (s.not_loadable_iff k).mpr (not_not.mpr loadable))).trans (if_pos named)

theorem State.loadNow_of_sound (loadable : s.Loadable k) (unnamed : s.loadsActive k e = false) (mps : s.mpShort (s.newMps k e.pkg) = false)
    (sound : s.loadRefusal e = none) : s.loadNow k e =
      ((s.newMps k e.pkg).foldl (fun (s : State) d => s.allocMp k d)
        (((if (s.ctx k).st = .halted ∧ (s.ctx k).aborting.isSome = true then s.eachCore k Core.reclaim else s).eachCore k fun c =>
          c.loadInactive e.pkg).updCtx k fun c => { c with pkg := e.pkg, phofer := e.pkg.phofer, reloaded := true }), 0) := by
  have inactive : ¬ ((s.ctxCores k).any fun c => (s.core c).namesActive e.pkg) = true := not_true_of_false unnamed
  simp only [State.loadNow, if_neg (mt (s.not_loadable_iff k).mpr (not_not.mpr loadable)), if_neg inactive, if_neg (not_true_of_false mps), sound]

theorem State.cannotStart_iff : s.CannotStart k ↔ (s.safeHold = true ∨ (1 ≤ s.val JOB_STATE (k + 1) ∧ s.val JOB_STATE (k + 1) ≤ 3)
    ∨ ((s.ctx k).st ≠ .loaded ∧ !((s.ctx k).st = .halted ∧ (s.ctx k).reloaded))) := by
  simp only [State.CannotStart, Bool.not_eq_true', decide_eq_false_iff_not]

theorem State.startNow_of_refused (refused : s.CannotStart k) : s.startNow k = (s, 0x2B) := by
  rw [State.startNow]
  exact if_pos (State.cannotStart_iff.mp refused)

theorem State.startNow_of_accepted (can : ¬ s.CannotStart k) : s.startNow k =
    if ((s.startQueues k).stepGroup k).isSome then
      ((s.startQueues k).startEpochs k (((s.releaseHeld k).pairTwins k).val COMMITTED_STEP (k + 1)), 0)
    else ((s.startQueues k).beginClear k none, 0) := by
  rw [State.startNow]
  exact if_neg (mt State.cannotStart_iff.mpr can)

theorem State.startNow_of_plain (can : ¬ s.CannotStart k) (plain : (s.startQueues k).stepGroup k = none) :
    s.startNow k = ((s.startQueues k).beginClear k none, 0) := by
  rw [State.startNow_of_accepted can, if_neg (by simp [plain])]

theorem State.startNow_of_epochs (can : ¬ s.CannotStart k) (epochs : (s.startQueues k).stepGroup k ≠ none) :
    s.startNow k = ((s.startQueues k).startEpochs k (((s.releaseHeld k).pairTwins k).val COMMITTED_STEP (k + 1)), 0) := by
  rw [State.startNow_of_accepted can, if_pos (Option.isSome_iff_ne_none.mpr epochs)]

/-! ### SAVE_GO -/

/-- SAVE_GO is accepted: the save area is taken and issue stops (R196, R434). -/
def State.drainToSave (s : State) (k : Nat) : State :=
  let area := takeFrames (Bits.cdiv (11 * (s.ctx k).roles.length) 2) ((List.range 16).map s.freeOn) (List.replicate 16 0)
  (s.updCtx k fun c => { c with st := .draining, tearing := false, saveArea := area }).drainQueues k false

theorem State.saveStart_of_stopped (run : (s.ctx k).st ≠ .running) (halt : (s.ctx k).st ≠ .halted) : s.saveStart k = (s, some 0x2B) := by
  rw [State.saveStart]
  exact if_pos ⟨run, halt⟩

section
variable (live : (s.ctx k).st = .running ∨ (s.ctx k).st = .halted)
include live

theorem State.not_stopped_of_live : ¬ ((s.ctx k).st ≠ .running ∧ (s.ctx k).st ≠ .halted) := fun ⟨run, halt⟩ => live.elim run halt

theorem State.saveStart_of_full (few : ((List.range 16).map s.freeOn).sum < Bits.cdiv (11 * (s.ctx k).roles.length) 2) :
    s.saveStart k = (s, some 0x39) := by
  simp only [State.saveStart, if_neg (State.not_stopped_of_live live), if_pos few]

theorem State.saveStart_of_frames (enough : Bits.cdiv (11 * (s.ctx k).roles.length) 2 ≤ ((List.range 16).map s.freeOn).sum) :
    s.saveStart k = (s.drainToSave k, none) := by
  simp only [State.saveStart, if_neg (State.not_stopped_of_live live), if_neg (Nat.not_lt.mpr enough), State.drainToSave]

end

/-! ### The commands -/

section
variable (first : s.behind k = false)
include first

theorem State.goLoad_of_first : s.goLoad k e none = (s.loadNow k e).1.answerTo none (s.loadNow k e).2 := by
  rw [State.goLoad, if_neg (not_true_of_false first)]

theorem State.goStart_of_first (ready : s.startWaits k = false) :
    s.goStart k none = ((s.startNow k).1.answerTo none (s.startNow k).2).after k := by
  rw [State.goStart, if_neg (by simp [first, ready])]

theorem State.goSave_of_refused {code : Nat} (refused : s.saveStart k = (s, some code)) : s.goSave k none = s.answerTo none code := by
  simp only [State.goSave, if_neg (not_true_of_false first), refused]

theorem State.goSave_of_accepted (accepted : s.saveStart k = (s.drainToSave k, none)) :
    s.goSave k none = ((s.drainToSave k).acceptDrain k 1 none).runLate := by
  simp only [State.goSave, if_neg (not_true_of_false first), accepted]

end

end

/-- Settles O47: each command of a context by the state that it finds. -/
theorem contextCommandsComplete : Obligations.ContextCommandsComplete := by
  unfold Obligations.ContextCommandsComplete
  intro s k e up st active js
  have load : exec (.loadGo k e) s = .next (s.goLoad k e none) := by rw [exec, execLoadGo, whenUp_of_up up]
  have start : exec (.startGo k) s = .next (s.goStart k none) := by rw [exec, execStartGo, whenUp_of_up up]
  have save : exec (.saveGo k) s = .next (s.goSave k none) := by rw [exec, execSaveGo, whenUp_of_up up]
  have resume : exec (.resumeGo k) s = .next (s.goResume k none) := by rw [exec, execResumeGo, whenUp_of_up up]
  have tear : exec (.teardownGo k) s = .next (s.goTear k none) := by rw [exec, execTeardownGo, whenUp_of_up up]
  refine ⟨fun behind => ⟨?_, ?_, ?_, ?_⟩, fun waits => ?_, fun first => ⟨fun loadable => ⟨fun named => ?_, fun unnamed mps sound => ?_⟩, fun other => ?_,
    fun ready safe member loaded => ?_, fun ready refused => ?_, ?_, fun saved started => ?_, fun early => ?_, fun started other => ?_, fun live => ?_,
    fun other => ?_⟩, fun draining tearing => ?_⟩
  · rw [load, State.goLoad, if_pos behind, State.enqueue_of_plain _ _ _ (by decide)]
  · rw [start, State.goStart, if_pos (by simp [behind]), State.enqueue_of_plain _ _ _ (by decide)]
  · rw [save, State.goSave, if_pos behind, State.enqueue_of_plain _ _ _ (by decide)]
  · rw [tear, State.goTear]
    exact congrArg _ ((if_pos behind).trans (State.enqueue_of_plain _ _ _ (by decide)))
  · rw [start, State.goStart, if_pos (by simp [waits]), State.enqueue_of_plain _ _ _ (by decide)]
  · rw [load, State.goLoad_of_first first, State.loadNow_of_active loadable named, State.answerTo_none]
  · intro u
    rw [load, State.goLoad_of_first first, State.loadNow_of_sound loadable unnamed mps sound, State.answerTo_none]
  · have unloadable : ¬ s.Loadable k := by
      rw [State.not_loadable_iff]
      rcases other with h | h | h <;> simp [show (s.ctx k).st = _ from h]
    rw [load, State.goLoad_of_first first, State.loadNow_of_unloadable unloadable, State.answerTo_none]
  · have can : ¬ s.CannotStart k := by
      rintro (held | low | unready)
      · exact not_true_of_false safe held
      · omega
      · exact loaded.elim unready.1 unready.2
    refine ⟨fun plain => ?_, fun epochs => ?_⟩
    · rw [start, State.goStart_of_first first ready, State.startNow_of_plain can plain, State.answerTo_none]
      exact rfl
    · rw [start, State.goStart_of_first first ready, State.startNow_of_epochs can epochs, State.answerTo_none]
      exact rfl
  · rw [start, State.goStart_of_first first ready, State.startNow_of_refused refused, State.answerTo_none]
  · refine ⟨fun live enough => ?_, fun live few => ?_, fun run halt => ?_⟩
    · rw [save, State.goSave_of_accepted first (State.saveStart_of_frames live enough)]
      exact rfl
    · rw [save, State.goSave_of_refused first (State.saveStart_of_full live few), State.answerTo_none]
    · rw [save, State.goSave_of_refused first (State.saveStart_of_stopped run halt), State.answerTo_none]
  · have accepted : ¬ ((s.ctx k).st ≠ .saved && !s.behind k) = true := by simp [show (s.ctx k).st = .saved from saved]
    rw [resume, State.goResume, if_neg (by simp [started]), if_neg accepted, State.enqueue, if_pos (.inr rfl)]
  · rw [resume, State.goResume, if_pos early, State.answerTo_none]
  · have refused : ((s.ctx k).st ≠ .saved && !s.behind k) = true := by simp [show (s.ctx k).st ≠ .saved from other, first]
    rw [resume, State.goResume, if_neg (by simp [started]), if_pos refused, State.answerTo_none]
  · have busy : ¬ ((s.ctx k).st = .free ∨ (s.ctx k).st = .draining) := by
      rcases live with h | h | h | h <;> simp [show (s.ctx k).st = _ from h]
    rw [tear, State.goTear]
    exact congrArg _ ((if_neg (not_true_of_false first)).trans (if_neg busy))
  · rw [tear, State.goTear]
    exact congrArg _ ((if_neg (not_true_of_false first)).trans (if_pos other))
  · have torn : ¬ ((s.ctx k).st ≠ .draining ∨ (s.ctx k).tearing = false) := by simp [show (s.ctx k).st = .draining from draining, tearing]
    rw [exec, execDrainLimitExpire, whenUp_of_up up]
    exact congrArg _ (if_neg torn)

end Sys2Proof.Machine

/-! O48: aborts, shares, post records and the step group. -/

namespace Sys2Proof.Machine

open Sys2Proof.WB

section
variable {s : State}

/-! ### ABORT_GO -/

/-- The context and the Milepost that ABORT_TARGET names. -/
def State.abortCtx (s : State) : Nat := Bits.fld (s.val ABORT_TARGET 1) 16 4
def State.abortMp (s : State) : Nat := Bits.fld (s.val ABORT_TARGET 1) 0 13
def State.abortEntry (s : State) : MpEntry := s.mpEntry s.abortCtx s.abortMp

/-- The target is a Milepost of a context's own that has not reached ABORT_VALUE once its advances have arrived (R198). -/
def State.Abortable (s : State) : Prop :=
  s.abortEntry.valid = true ∧ s.abortEntry.shared = false ∧ ((s.landAdvs s.abortCtx).ctx s.abortCtx).st ≠ .free
    ∧ ((s.landAdvs s.abortCtx).pmp s.abortEntry.pmp).cval < s.val ABORT_VALUE 2

theorem State.abortNow_of_abortable (can : s.Abortable) (sound : ((s.landAdvs s.abortCtx).pmp s.abortEntry.pmp).st ≠ .poisoned) :
    s.abortNow = ((((((s.landAdvs s.abortCtx).abortQueues s.abortCtx s.abortMp).poisonPmp s.abortEntry.pmp true).cancelAllPrefs
      s.abortCtx).squashAllVote s.abortCtx).after s.abortCtx, 0) := by
  obtain ⟨valid, own, used, below⟩ := can
  have named : ¬ (!s.abortEntry.valid || s.abortEntry.shared || ((s.landAdvs s.abortCtx).ctx s.abortCtx).st == .free) = true := by simp [valid, own, used]
  rw [State.abortNow]
  refine (if_neg named).trans ((if_neg (Nat.not_le.mpr below)).trans ?_)
  exact congrArg (fun u : State => (((u.cancelAllPrefs s.abortCtx).squashAllVote s.abortCtx).after s.abortCtx, 0)) (if_neg sound)

theorem State.abortNow_of_other (other : ¬ s.Abortable) : s.abortNow = (s.landAdvs s.abortCtx, 0x29) := by
  rw [State.abortNow]
  by_cases named : (!s.abortEntry.valid || s.abortEntry.shared || ((s.landAdvs s.abortCtx).ctx s.abortCtx).st == .free) = true
  · exact if_pos named
  · have reached : s.val ABORT_VALUE 2 ≤ ((s.landAdvs s.abortCtx).pmp s.abortEntry.pmp).cval := by
      by_contra below
      refine other ⟨?_, ?_, ?_, Nat.not_le.mp below⟩ <;> simp_all
    exact (if_neg named).trans (if_pos reached)

/-! ### SHARE_GO -/

def State.shareEntry (s : State) : MpEntry := s.mpEntry (Bits.fld (s.val SHARE_SRC 1) 16 4) (Bits.fld (s.val SHARE_SRC 1) 0 13)
def State.shareTaken (s : State) : Bool := (s.mpEntry (Bits.fld (s.val SHARE_DST 2) 16 4) (Bits.fld (s.val SHARE_DST 2) 0 13)).valid

/-- The source is an own LIVE or FROZEN Milepost, and the destination's number is free (R238). -/
def State.Shareable (s : State) : Prop :=
  s.shareEntry.valid = true ∧ s.shareEntry.shared = false ∧ ((s.pmp s.shareEntry.pmp).st = .live ∨ (s.pmp s.shareEntry.pmp).st = .frozen)
    ∧ s.shareTaken = false

theorem State.not_shareable_iff : ¬ s.Shareable ↔ (!s.shareEntry.valid || s.shareEntry.shared ||
    !((s.pmp s.shareEntry.pmp).st == .live || (s.pmp s.shareEntry.pmp).st == .frozen) || s.shareTaken) = true := by
  unfold State.Shareable
  generalize (s.pmp s.shareEntry.pmp).st = st
  cases s.shareEntry.valid <;> cases s.shareEntry.shared <;> cases s.shareTaken <;> simp

/-- The destination's context takes a shared entry. -/
def State.sharedTo (s : State) : State :=
  s.updCtx (Bits.fld (s.val SHARE_DST 2) 16 4) fun c =>
    { c with mpmap := Tab.set {} c.mpmap (Bits.fld (s.val SHARE_DST 2) 0 13) { valid := true, shared := true, pmp := s.shareEntry.pmp } }

theorem State.shareNow_of_shareable (can : s.Shareable) : s.shareNow = (s.sharedTo, 0) := by
  rw [State.shareNow]
  exact if_neg (mt State.not_shareable_iff.mpr (not_not.mpr can))

theorem State.shareNow_of_other (other : ¬ s.Shareable) : s.shareNow = (s, 0x24) := by
  rw [State.shareNow]
  exact if_pos (State.not_shareable_iff.mp other)

/-! ### POST_REARM -/

section
variable {k mp : Nat} (number : mp ≤ 8191)
include number

theorem State.rearmNow_of_none (unnamed : s.postRec k mp = none) : s.rearmNow k mp = (s, 0x27) := by
  simp only [State.rearmNow, if_neg (Nat.not_lt.mpr number), unnamed]

theorem State.rearmNow_of_record {i r : Nat} (named : s.postRec k mp = some (i, r)) :
    s.rearmNow k mp = (if ((s.setArm k i true).mpEntry k mp).valid = true
      ∧ Bits.fld r 128 64 ≤ ((s.setArm k i true).pmp ((s.setArm k i true).mpEntry k mp).pmp).cval
      then (s.setArm k i true).postMp ((s.setArm k i true).mpEntry k mp).pmp else s.setArm k i true, 0) := by
  simp only [State.rearmNow, if_neg (Nat.not_lt.mpr number), named]

end

/-! ### STEP_GROUP -/

/-- The Mileposts that a context maps with ADV follow its epochs, or no longer do (R245). -/
def State.speculate (t : State) (k v : Nat) : State :=
  ((t.ctx k).mpmap.filter fun e => e.2.valid && e.2.adv).foldl (fun (t : State) e => t.setPmp e.2.pmp { t.pmp e.2.pmp with spec := decide (v < 64) }) t

theorem specialBad_stepGroup (sub v : Nat) : specialBad STEP_GROUP sub v = (decide (63 < v) && v != 0xFF) := rfl

section
variable {k v : Nat}

theorem State.stepGroupNow_of_other_value (high : 63 < v) (other : v ≠ 0xFF) : s.stepGroupNow k v = (s, 0x05) := by
  have bad : specialBad STEP_GROUP (k + 1) v = true := by simp [specialBad_stepGroup, high, other]
  rw [State.stepGroupNow]
  exact if_pos bad

theorem not_other_state (st : (s.ctx k).st = .loaded ∨ (s.ctx k).st = .saved) : ¬ ((s.ctx k).st ≠ .loaded ∧ (s.ctx k).st ≠ .saved) :=
  fun ⟨load, save⟩ => st.elim load save

variable (good : v < 64 ∨ v = 0xFF)
include good

theorem stepGroup_value : ¬ specialBad STEP_GROUP (k + 1) v = true := by
  rw [specialBad_stepGroup]
  rcases good with h | h
  · simp [Nat.not_lt.mpr (Nat.le_of_lt_succ h)]
  · simp [h]

theorem State.stepGroupNow_of_other_state (load : (s.ctx k).st ≠ .loaded) (save : (s.ctx k).st ≠ .saved) : s.stepGroupNow k v = (s, 0x2B) := by
  rw [State.stepGroupNow]
  exact (if_neg (stepGroup_value good)).trans (if_pos ⟨load, save⟩)

variable (st : (s.ctx k).st = .loaded ∨ (s.ctx k).st = .saved)
include st

theorem State.stepGroupNow_of_bad_group (low : v < 64) (bad : s.stepGroupOk k v = false) : s.stepGroupNow k v = (s, 0x25) := by
  rw [State.stepGroupNow]
  exact (if_neg (stepGroup_value good)).trans ((if_neg (not_other_state st)).trans (if_pos ⟨low, bad⟩))

theorem State.stepGroupNow_of_group (low : v < 64) (sound : s.stepGroupOk k v = true) :
    s.stepGroupNow k v = (((s.setVal STEP_GROUP (k + 1) v).setVal STEP_BASE (k + 1)
      ((s.setVal STEP_GROUP (k + 1) v).val COMMITTED_STEP (k + 1))).speculate k v, 0) := by
  have passes : ¬ (v < 64 ∧ s.stepGroupOk k v = false) := by simp [sound]
  simp only [State.stepGroupNow, if_neg (stepGroup_value good), if_neg (not_other_state st), if_neg passes, if_pos low, State.speculate]

theorem State.stepGroupNow_of_none (ends : ¬ v < 64) : s.stepGroupNow k v = ((s.setVal STEP_GROUP (k + 1) v).speculate k v, 0) := by
  have passes : ¬ (v < 64 ∧ s.stepGroupOk k v = false) := fun ⟨low, _⟩ => ends low
  simp only [State.stepGroupNow, if_neg (stepGroup_value good), if_neg (not_other_state st), if_neg passes, if_neg ends, State.speculate]

end

end

/-- Settles O48: each command by its target. -/
theorem milepostCommandsComplete : Obligations.MilepostCommandsComplete := by
  unfold Obligations.MilepostCommandsComplete
  intro s up
  refine ⟨?_, ?_, fun k mp number => ⟨fun unnamed => ?_, fun i r named => ?_⟩, fun k v => ?_⟩
  · have go : exec .abortGo s = .next (s.abortNow.1.answerTo none s.abortNow.2) := by
      rw [exec, execAbortGo, whenUp_of_up up, State.goAbort]
    intro k mp e u ok
    refine ⟨fun can sound => ?_, fun other => ?_⟩
    · rw [go, State.abortNow_of_abortable can sound, State.answerTo_none]
      exact rfl
    · rw [go, State.abortNow_of_other other, State.answerTo_none]
      exact rfl
  · have go : exec .shareGo s = .next (s.shareNow.1.answerTo none s.shareNow.2) := by
      rw [exec, execShareGo, whenUp_of_up up, State.goShare]
    intro a b e free ok
    refine ⟨fun can => ?_, fun other => ?_⟩
    · rw [go, State.shareNow_of_shareable can, State.answerTo_none]
      exact rfl
    · rw [go, State.shareNow_of_other other, State.answerTo_none]
  · rw [exec, execPostRearm, whenUp_of_up up, State.goRearm, State.rearmNow_of_none number unnamed]
    exact congrArg _ (State.answerTo_none ..)
  · intro u e
    rw [exec, execPostRearm, whenUp_of_up up, State.goRearm, State.rearmNow_of_record number named]
    exact congrArg _ (State.answerTo_none ..)
  · have go : exec (.stepGroup k v) s = .next ((s.stepGroupNow k.val v.toNat).1.answerTo none (s.stepGroupNow k.val v.toNat).2) := by
      rw [exec, execStepGroup, whenUp_of_up up, State.goStepGroup]
    intro st g u speculate
    refine ⟨fun high other => ?_, fun good load save => ?_, fun state => ⟨fun low bad => ?_, fun low sound => ?_, fun ends => ?_⟩⟩
    · rw [go, State.stepGroupNow_of_other_value high other, State.answerTo_none]
    · rw [go, State.stepGroupNow_of_other_state good load save, State.answerTo_none]
    · rw [go, State.stepGroupNow_of_bad_group (.inl low) state low bad, State.answerTo_none]
    · rw [go, State.stepGroupNow_of_group (.inl low) state low sound, State.answerTo_none]
      exact rfl
    · rw [go, State.stepGroupNow_of_none (.inr ends) state (by omega), State.answerTo_none]
      exact rfl

end Sys2Proof.Machine

/-! O49: functions of the host link, and pitches. -/

namespace Sys2Proof.Machine

open Sys2Proof.WB

section
variable {s : State}

/-! ### Functions -/

theorem State.vfOff_of_enabled {fn : Nat} (enabled : s.vfs.contains fn = true) :
    s.vfOff fn = State.disable { s with vfs := s.vfs.filter (· != fn), mailboxes := Tab.set {} s.mailboxes fn {} } fn := by
  rw [State.vfOff, if_pos enabled]

/-- The reset of PF0 where it is a hot reset of the part's manager (R510). -/
theorem State.flrPf0_own : s.flrPf0 true = State.disable { s.vfs.foldl (fun s fn => s.vfOff fn) s with
    mailboxes := Tab.set {} (s.vfs.foldl (fun s fn => s.vfOff fn) s).mailboxes 0 {} } 0 := by
  rw [State.flrPf0, if_pos rfl]

theorem State.flrPf0_other : s.flrPf0 false = s.vfs.foldl (fun s fn => s.vfOff fn) s := by
  rw [State.flrPf0, if_neg Bool.false_ne_true]

/-! ### Pitches -/

/-- A context runs without epochs, so that no step boundary is common to all (R533). -/
theorem any_plain_running (s : State) : ((List.range 16).any fun k => (s.ctx k).st == .running && (s.stepGroup k).isNone) = true
    ↔ ∃ k < 16, (s.ctx k).st = .running ∧ s.stepGroup k = none := by
  simp [List.any_eq_true]

section
variable {v : Nat}

theorem State.pitchNow_of_invalid (invalid : ¬ (v ≤ 7 ∧ s.flyValid v = true)) : s.pitchNow v = (s, 0x05) := by
  have bad : 7 < v ∨ s.flyValid v = false := by
    rwa [not_and_or, Nat.not_le, Bool.not_eq_true] at invalid
  rw [State.pitchNow, if_pos bad]

variable (valid : v ≤ 7 ∧ s.flyValid v = true)
include valid

theorem not_bad_sheet : ¬ (7 < v ∨ s.flyValid v = false) := by simp [valid.1, valid.2]

theorem State.pitchNow_of_pitching (pitching : s.pitching.isSome = true) : s.pitchNow v = (s, 0x0C) := by
  rw [State.pitchNow, if_neg (not_bad_sheet valid), if_pos pitching]

theorem State.pitchNow_of_held (rest : s.pitching = none) (held : s.safeHold = true) :
    s.pitchNow v = (State.event (s.setFly v) 0x000A none 8 v, 0) := by
  rw [State.pitchNow, if_neg (not_bad_sheet valid), if_neg (by simp [rest]), if_pos held]

theorem State.pitchNow_of_plain (safe : s.safeHold = false) (plain : ∃ k < 16, (s.ctx k).st = .running ∧ s.stepGroup k = none) :
    s.pitchNow v = (s, 0x0C) := by
  rw [State.pitchNow, if_neg (not_bad_sheet valid)]
  by_cases pitching : s.pitching.isSome = true
  · rw [if_pos pitching]
  · rw [if_neg pitching, if_neg (by simp [safe]), if_pos ((any_plain_running s).mpr plain)]

theorem State.pitchNow_of_epochs (safe : s.safeHold = false) (rest : s.pitching = none)
    (epochs : ∀ k < 16, (s.ctx k).st = .running → (s.stepGroup k).isSome = true) : s.pitchNow v = ({ s with pitching := some v }, 0) := by
  have none_plain : ¬ ((List.range 16).any fun k => (s.ctx k).st == .running && (s.stepGroup k).isNone) = true := by
    rw [any_plain_running]
    rintro ⟨k, low, running, plain⟩
    have := epochs k low running
    simp [plain] at this
  rw [State.pitchNow, if_neg (not_bad_sheet valid), if_neg (by simp [rest]), if_neg (by simp [safe]), if_neg none_plain]

end

end

/-- Settles O49: functions and their resets, then pitches in the order of their checks. -/
theorem functionResetsAndPitchesComplete : Obligations.FunctionResetsAndPitchesComplete := by
  unfold Obligations.FunctionResetsAndPitchesComplete
  refine ⟨fun s fn up => ⟨fun vf off => ?_, fun vf on => ?_, ?_⟩, fun s slot up => ?_⟩
  · rw [exec, execVfEnable, whenUp_of_up up, if_neg (by rintro (h | h); exacts [vf h, not_true_of_false off h])]
  · intro off
    refine ⟨?_, ?_⟩
    · rw [exec, execVfDisable, whenUp_of_up up, State.vfOff_of_enabled on]
    · rw [exec, execFlrVf, whenUp_of_up up, if_neg vf, State.vfOff_of_enabled on]
  · intro vfsOff off
    refine ⟨?_, fun own => ⟨?_, ?_⟩, fun other => ⟨?_, ?_⟩⟩
    · rw [exec, execFlrPf0, whenUp_of_up up, State.flrPf0_own]
    · rw [exec, execHostHotReset, whenUp_of_up up, own, Bool.not_false, State.flrPf0_own]
    · rw [exec, execHlPerstN, whenUp_of_up up, own, Bool.not_false, State.flrPf0_own]
    · rw [exec, execHostHotReset, whenUp_of_up up, other, Bool.not_true, State.flrPf0_other]
    · rw [exec, execHlPerstN, whenUp_of_up up, other, Bool.not_true, State.flrPf0_other]
  · have go : exec (.pitch slot) s = .next ((s.pitchNow slot.toNat).1.answerTo none (s.pitchNow slot.toNat).2) := by
      rw [exec, execPitch, whenUp_of_up up, State.goPitch]
    refine ⟨fun invalid => ?_, fun valid pitching => ?_, fun valid rest held => ?_, fun valid safe plain => ?_, fun valid safe rest epochs => ?_,
      fun w pitching final => ?_, fun w => rfl⟩
    · rw [go, State.pitchNow_of_invalid invalid, State.answerTo_none]
    · rw [go, State.pitchNow_of_pitching valid pitching, State.answerTo_none]
    · rw [go, State.pitchNow_of_held valid rest held, State.answerTo_none]
    · rw [go, State.pitchNow_of_plain valid safe plain, State.answerTo_none]
    · rw [go, State.pitchNow_of_epochs valid safe rest epochs, State.answerTo_none]
    · rw [exec, execPitchApply, whenUp_of_up up]
      simp only [pitching, if_pos final, State.pitched]

end Sys2Proof.Machine

/-! O50: reads, doorbells and ring frames. -/

namespace Sys2Proof.Machine

open Sys2Proof.WB

theorem onPath_of_open {s : State} {p : Path} (up : s.up = true) (opens : s.pathOpen p = true) (f : State → State) : onPath p s f = .next (f s) := by
  rw [onPath, whenUp_of_up up, if_pos opens]

/-! ### Reads -/

/-- The answer to a bare operation leaves as a response of its own. -/
theorem State.reply_none (s : State) (p : Path) (m : WbMsg) (c : Nat) (d : List Byte) :
    s.reply p m none c d = State.emit { s with answer := c } (.response p (wbAnswer m c d m.offset)) := rfl

section
variable {s : State} {p : Path} {entry sub : Nat}

theorem State.readCode_of_missing (unlisted : Dict.find entry sub = none) : s.readCode entry sub = (missing entry, []) := by
  simp only [State.readCode, unlisted]

section
variable {r : Dict.Row} (listed : Dict.find entry sub = some r)
include listed

theorem State.readCode_of_wo (wo : r.acc = .wo) : s.readCode entry sub = (0x03, []) := by
  simp only [State.readCode, listed, if_pos wo]

variable (readable : r.acc ≠ .wo)
include readable

theorem State.readCode_of_blob (blob : r.ty = .blob) : s.readCode entry sub = (0x07, []) := by
  simp only [State.readCode, listed, if_neg readable, if_pos blob]

theorem State.readCode_of_value (value : r.ty ≠ .blob) : s.readCode entry sub = (0, Bits.toBytes r.bytes (s.readVal entry sub)) := by
  simp only [State.readCode, listed, if_neg readable, if_neg value]

variable {off len : Nat} (some_ : 0 < len) (fits : len ≤ maxLen p) (blob : r.ty = .blob)
include some_ fits blob

theorem State.readBlockCode_of_end (past : s.blobSize r entry sub ≤ off) : s.readBlockCode p entry sub off len = (0x08, []) := by
  have whole : ¬ (len = 0 ∨ maxLen p < len) := by omega
  simp only [State.readBlockCode, listed, if_neg whole, if_neg readable, if_neg (not_not.mpr blob), if_pos past]

theorem State.readBlockCode_of_inside (inside : off < s.blobSize r entry sub) :
    s.readBlockCode p entry sub off len = (0, s.readBlob entry sub off (min len (s.blobSize r entry sub - off))) := by
  have whole : ¬ (len = 0 ∨ maxLen p < len) := by omega
  simp only [State.readBlockCode, listed, if_neg whole, if_neg readable, if_neg (not_not.mpr blob), if_neg (Nat.not_le.mpr inside)]

end

end

/-! ### Requests that reach the part -/

section
variable {s : State} {p : Path} {m : WbMsg} (ask : m.resp = false) (idle : s.waitingReq p = none) (port1 : Bool) (e : Env)
include ask idle

theorem State.not_discarded_of_idle : ¬ (m.resp || s.waitingReq p == some m.seq) = true := by simp [ask, idle]

/-- A repeat of the kept request gets the kept response (R523). -/
theorem State.receive_of_repeat {x : PathSt} (kept : s.pathSt p = some x) (same : x.seq = some m.seq) :
    s.receive p port1 m e = s.respond p port1 x.resp := by
  simp only [State.receive, if_neg (State.not_discarded_of_idle ask idle), kept, if_pos same]

theorem State.receive_of_new (new : ∀ x, s.pathSt p = some x → x.seq ≠ some m.seq) (good : msgBad p m = false) :
    s.receive p port1 m e = s.serve p port1 m e := by
  cases kept : s.pathSt p with
  | none => simp only [State.receive, if_neg (State.not_discarded_of_idle ask idle), kept, if_neg (not_true_of_false good)]
  | some x => simp only [State.receive, if_neg (State.not_discarded_of_idle ask idle), kept, if_neg (new x kept), if_neg (not_true_of_false good)]

end

/-- A doorbell that names the SEQ of its window's request has it received (R513). -/
theorem exec_wbGo_of_waiting {s : State} {fn : CtxId} {m : WbMsg} (up : s.up = true) (enabled : s.fnEnabled fn.val = true)
    (idle : s.waitingReq (.host fn) = none) (seq : m.seq < 2 ^ 32) (e : Env) :
    exec (.wbGo fn m.seq m e) s = .next (State.receive { s with reqWin := Tab.set [] s.reqWin fn.val m.bytes } (.host fn) false m e) := by
  have on : ¬ (!s.fnEnabled fn.val) = true := by simp [enabled]
  have named : ¬ ((s.waitingReq (.host fn)).isSome || m.seq % 2 ^ 32 != m.seq) = true := by
    rw [idle, Nat.mod_eq_of_lt seq]
    simp
  rw [exec, execWbGo, whenUp_of_up up]
  exact congrArg _ ((if_neg on).trans (if_neg named))

section
variable {s : State} (up : s.up = true) (port1 : Bool) (f : MgFrame) (e : Env)
include up

theorem not_relayClosed_of_up : ¬ s.relayClosed = true := by
  simpa [State.relayClosed, State.up] using up

/-- A frame that is not of the ring's type, or comes back from this part, is dropped (R518). -/
theorem exec_mgFrameReceive_of_dropped (drop : f.ethertype ≠ 0x88B5 ∨ f.src = s.val MG_MAC 0) : exec (.mgFrameReceive port1 f e) s = .next s := by
  rw [exec, execMgFrameReceive, if_neg (not_relayClosed_of_up up), whenUp_of_up up]
  exact congrArg _ (if_pos drop)

theorem exec_mgFrameReceive_of_ring (ring : f.ethertype = 0x88B5) (other : f.src ≠ s.val MG_MAC 0) : exec (.mgFrameReceive port1 f e) s =
    .next (if f.dst = s.val MG_MAC 0 then s.receive (.ring f.src) port1 f.msg e
      else if f.dst = broadcastMac then (s.forward port1 f).receive (.ring f.src) port1 f.msg e
      else s.forward port1 f) := by
  rw [exec, execMgFrameReceive, if_neg (not_relayClosed_of_up up), whenUp_of_up up]
  exact congrArg _ (if_neg (by simp [ring, other]))

end

/-- Settles O50: reads by their entry's row, doorbells and frames by whether they are new, and frames past a part that is down. -/
theorem waybillReadsAndRequestsComplete : Obligations.WaybillReadsAndRequestsComplete := by
  unfold Obligations.WaybillReadsAndRequestsComplete
  refine ⟨fun s p entry sub up opens => ?_, fun s m e up ask => ⟨fun fn enabled idle seq => ?_, fun port1 f body ring other => ?_, fun port1 f drop => ?_⟩,
    fun s port1 f e down => ?_⟩
  · intro ans m
    have read : exec (.wbRead p entry sub) s = .next (s.reply p m none (s.readCode entry sub).1 (s.readCode entry sub).2) := by
      rw [exec, execWbRead, onPath_of_open up opens]
    have block (off len : Nat) : exec (.wbReadBlock p entry sub off len) s = .next (s.reply p
        { op := 3, entry := entry, sub := sub, offset := off, reqlen := len } none (s.readBlockCode p entry sub off len).1
        (s.readBlockCode p entry sub off len).2) := by
      rw [exec, execWbReadBlock, onPath_of_open up opens]
    refine ⟨fun unlisted => ?_, fun r listed => ⟨fun wo => ?_, fun readable blob => ?_, fun readable value => ?_,
      fun off len some_ fits readable blob => ⟨fun past => ?_, fun inside => ?_⟩⟩⟩
    · rw [read, State.readCode_of_missing unlisted, State.reply_none]
    · rw [read, State.readCode_of_wo listed wo, State.reply_none]
    · rw [read, State.readCode_of_blob listed readable blob, State.reply_none]
    · rw [read, State.readCode_of_value listed readable value, State.reply_none]
    · rw [block, State.readBlockCode_of_end listed readable some_ fits blob past, State.reply_none]
    · rw [block, State.readBlockCode_of_inside listed readable some_ fits blob inside, State.reply_none]
  · intro t
    have idle' : t.waitingReq (.host fn) = none := idle
    refine ⟨fun x kept same => ?_, fun new good => ?_⟩
    · rw [exec_wbGo_of_waiting up enabled idle seq, State.receive_of_repeat (s := t) ask idle' false e kept same]
    · rw [exec_wbGo_of_waiting up enabled idle seq, State.receive_of_new (s := t) ask idle' false e new good]
  · rw [exec_mgFrameReceive_of_ring up port1 f e ring other]
    subst body
    refine ⟨fun mine idle fresh good => ?_, fun away all => ?_, fun away one hops => ?_, fun away one hops => ?_⟩
    · rw [if_pos mine, State.receive_of_new ask idle port1 e (by simp [fresh]) good]
    · rw [if_neg away, if_pos all]
    · rw [if_neg away, if_neg one, State.forward, if_neg hops]
    · rw [if_neg away, if_neg one, State.forward, if_pos hops]
  · exact exec_mgFrameReceive_of_dropped up port1 f e drop
  · have closed : s.relayClosed = true := by simpa [State.relayClosed] using down
    rw [exec, execMgFrameReceive, if_pos closed]

end Sys2Proof.Machine

/-! O51: Waybill writes and transactions. -/

namespace Sys2Proof.Machine

open Sys2Proof.WB

theorem onPath_of_closed {s : State} {p : Path} (up : s.up = true) (closed : s.pathOpen p = false) (f : State → State) : onPath p s f = .next s := by
  rw [onPath, whenUp_of_up up, if_neg (not_true_of_false closed)]

/-! ### The checks of a write -/

theorem firstCode_cons (b : Bool) (c : Nat) (l : List (Bool × Nat)) : firstCode ((b, c) :: l) = if b then some c else firstCode l := by
  cases b <;> rfl

theorem firstCode_nil : firstCode [] = none := rfl

section
variable {s : State} {p : Path} {r : Dict.Row} {entry sub : Nat}

theorem State.accessBad_of_readOnly (ro : r.acc = .ro) (shape : Option Nat) : s.accessBad p r entry sub shape = some 0x03 := by
  simp [State.accessBad, firstCode_cons, ro]

theorem State.accessBad_of_shape (writable : r.acc ≠ .ro) (c : Nat) : s.accessBad p r entry sub (some c) = some c := by
  simp [State.accessBad, firstCode_cons, writable]

theorem State.accessBad_of_service (own : foreign p r entry sub = false) (service : r.acc = .rws) (off : s.service_ = false) :
    s.accessBad p r entry sub none = some 0x04 := by
  simp [State.accessBad, firstCode_cons, own, service, off]

theorem State.writeBad_of_length {data : List Byte} {e : Env} (writable : r.acc ≠ .ro) (part : data.length ≠ r.bytes) :
    s.writeBad p r entry sub 0 data e = some 0x07 := by
  rw [State.writeBad, if_pos (.inr part), State.accessBad_of_shape writable, Option.some_or]

section
variable {data : List Byte} {e : Env} (value : r.ty ≠ .blob)
include value

theorem State.writeBad_of_access {c : Nat} (whole : data.length = r.bytes) (bad : s.accessBad p r entry sub none = some c) :
    s.writeBad p r entry sub 0 data e = some c := by
  have shape : ¬ (r.ty = .blob ∨ data.length ≠ r.bytes) := by simp [value, whole]
  rw [State.writeBad, if_neg shape, if_neg (not_not.mpr rfl), bad, Option.some_or]

theorem State.writeBad_of_sound (whole : data.length = r.bytes) (access : s.accessBad p r entry sub none = none) (free : entry ≠ REDUNDANCY)
    (taken : s.valueBad r entry sub (Bits.ofBytes data) = none) (state : s.stateRefused r entry sub = none) (flash : e.flashOk = true) :
    s.writeBad p r entry sub 0 data e = none := by
  have shape : ¬ (r.ty = .blob ∨ data.length ≠ r.bytes) := by simp [value, whole]
  rw [State.writeBad, if_neg shape, if_neg (not_not.mpr rfl), access, taken, state]
  simp [firstCode_cons, firstCode_nil, free, flash]

end

theorem State.writeBad_of_readOnly (ro : r.acc = .ro) (off : Nat) (data : List Byte) (e : Env) :
    s.writeBad p r entry sub off data e = some 0x03 := by
  rw [State.writeBad, State.accessBad_of_readOnly ro, Option.some_or]

section
variable {off : Nat} {data : List Byte} {e : Env} {req : Option (Path × WbMsg × Bool)}

theorem State.goWrite_of_missing (unlisted : Dict.find entry sub = none) : s.goWrite p entry sub off data e req = s.answerTo req (missing entry) := by
  simp only [State.goWrite, unlisted]

variable (listed : Dict.find entry sub = some r)
include listed

theorem State.goWrite_of_bad {c : Nat} (bad : s.writeBad p r entry sub off data e = some c) :
    s.goWrite p entry sub off data e req = s.answerTo req c := by
  simp only [State.goWrite, listed, bad]

theorem State.goWrite_of_sound (sound : s.writeBad p r entry sub off data e = none) :
    s.goWrite p entry sub off data e req = s.doWrite entry sub (Bits.ofBytes data) e req := by
  simp only [State.goWrite, listed, sound]

end

end

/-! ### Transactions -/

section
variable {s : State} {p : Path} {i : TxnItem} {e : Env}

/-- A block that a stage takes joins it, applies it, or overfills it (R526). -/
def State.stageItem (s : State) (p : Path) (last : Bool) (l : List TxnItem) (e : Env) : State :=
  if 16777216 < stageBytes l then (s.setStage p none).answerTo none 0x0B
  else if last then (s.setStage p none).applyTxn p l e none
  else (s.setStage p (some l)).answerTo none 0

theorem State.goBlock_of_first : s.goBlock p true false i e none = s.stageItem p false [i] e := by
  simp only [State.goBlock, if_true, List.nil_append, State.stageItem]

theorem State.goBlock_of_stage {l : List TxnItem} (opened : (s.pathSt p).bind (·.stage) = some l) (last : Bool) :
    s.goBlock p false last i e none = s.stageItem p last (l ++ [i]) e := by
  simp only [State.goBlock, Bool.false_eq_true, if_false, opened, State.stageItem]

theorem State.goBlock_of_none (unopened : (s.pathSt p).bind (·.stage) = none) (last : Bool) :
    s.goBlock p false last i e none = s.answerTo none 0x0A := by
  simp only [State.goBlock, Bool.false_eq_true, if_false, unopened]

variable {l : List TxnItem}

theorem State.stageItem_of_overfull (last : Bool) (full : 16777216 < stageBytes l) :
    s.stageItem p last l e = { s.setStage p none with answer := 0x0B } := by
  rw [State.stageItem, if_pos full, State.answerTo_none]

section
variable (fits : stageBytes l ≤ 16777216)
include fits

theorem State.stageItem_of_more : s.stageItem p false l e = { s.setStage p (some l) with answer := 0 } := by
  rw [State.stageItem, if_neg (Nat.not_lt.mpr fits), if_neg Bool.false_ne_true, State.answerTo_none]

theorem State.stageItem_of_last : s.stageItem p true l e = (s.setStage p none).applyTxn p l e none := by
  rw [State.stageItem, if_neg (Nat.not_lt.mpr fits), if_pos rfl]

end

end

/-- Settles O51: writes in the order of their checks, and blocks by the stage that they find. -/
theorem waybillWritesComplete : Obligations.WaybillWritesComplete := by
  unfold Obligations.WaybillWritesComplete
  intro s p entry sub data e up
  refine ⟨fun closed off => ⟨?_, ?_, ?_, ?_⟩, fun opens => ?_⟩
  · rw [exec, execWbWrite, onPath_of_closed up closed]
  · rw [exec, execWbTxnOpen, onPath_of_closed up closed]
  · rw [exec, execWbWriteBlock, onPath_of_closed up closed]
  · rw [exec, execWbTxnApply, onPath_of_closed up closed]
  have write : exec (.wbWrite p entry sub data e) s = .next (s.goWrite p entry sub 0 data e none) := by
    rw [exec, execWbWrite, onPath_of_open up opens]
  have block (off : Nat) : exec (.wbWriteBlock p entry sub off data) s = .next (s.goBlock p false false (entry, sub, off, data) {} none) := by
    rw [exec, execWbWriteBlock, onPath_of_open up opens]
  have apply_ (off : Nat) : exec (.wbTxnApply p entry sub off data e) s = .next (s.goBlock p false true (entry, sub, off, data) e none) := by
    rw [exec, execWbTxnApply, onPath_of_open up opens]
  refine ⟨fun unlisted => ?_, fun r listed value => ⟨fun ro => ?_, fun writable part => ?_, fun _ whole own service off => ?_,
    fun whole access free taken state flash => ?_⟩, fun off fits => ?_, fun off l opened => ⟨fun fits => ⟨?_, ?_⟩, fun full => ?_, ?_⟩, fun off unopened => ⟨?_, ?_⟩⟩
  · rw [write, State.goWrite_of_missing unlisted, State.answerTo_none]
  · rw [write, State.goWrite_of_bad listed (State.writeBad_of_readOnly ro ..), State.answerTo_none]
  · rw [write, State.goWrite_of_bad listed (State.writeBad_of_length writable part), State.answerTo_none]
  · rw [write, State.goWrite_of_bad listed (State.writeBad_of_access value whole (State.accessBad_of_service own service off)), State.answerTo_none]
  · rw [write, State.goWrite_of_sound listed (State.writeBad_of_sound value whole access free taken state flash)]
  · rw [exec, execWbTxnOpen, onPath_of_open up opens, State.goBlock_of_first, State.stageItem_of_more fits]
  · rw [block, State.goBlock_of_stage opened, State.stageItem_of_more fits]
  · rw [apply_, State.goBlock_of_stage opened, State.stageItem_of_last fits]
  · rw [block, State.goBlock_of_stage opened, State.stageItem_of_overfull false full]
  · rw [exec, execWbTxnTimeout, whenUp_of_up up, if_pos (by rw [opened]; rfl)]
  · rw [block, State.goBlock_of_none unopened, State.answerTo_none]
  · rw [apply_, State.goBlock_of_none unopened, State.answerTo_none]

end Sys2Proof.Machine

/-! O55: what acts on a die whose state a scan has left undefined. -/

namespace Sys2Proof.Machine

open Sys2Proof.WB

section
variable {s : State}

theorem onCore_of_lost {c : Nat} (lost : s.dieLost c = true) (f : State → State) : onCore c s f = .fault (.dieStateUndefined (coreDie c)) := if_pos lost

section
variable {c : CoreId} (lost : s.dieLost c.val = true)
include lost

theorem exec_tileSlotWaitDone_of_lost : exec (.tileSlotWaitDone c) s = .fault (.dieStateUndefined (coreDie c.val)) := by
  rw [exec, execTileSlotWaitDone, onCore_of_lost lost]

theorem exec_uIssueWaitDone_of_lost : exec (.uIssueWaitDone c) s = .fault (.dieStateUndefined (coreDie c.val)) := by
  rw [exec, execUIssueWaitDone, onCore_of_lost lost]

theorem exec_descriptorSlotReady_of_lost (ds : Fin 64) : exec (.descriptorSlotReady c ds) s = .fault (.dieStateUndefined (coreDie c.val)) := by
  rw [exec, execDescriptorSlotReady, onCore_of_lost lost]

theorem exec_tileReplayDone_of_lost (pass : Bool) (x : ReplayCheck) :
    exec (.tileReplayDone c pass x) s = .fault (.dieStateUndefined (coreDie c.val)) := by
  rw [exec, execTileReplayDone, onCore_of_lost lost]

theorem exec_transferIssue_of_lost (ds : Fin 64) : exec (.transferIssue c ds) s = .fault (.dieStateUndefined (coreDie c.val)) := by
  rw [exec, execTransferIssue, onCore_of_lost lost]

end

end

/-- Settles O55: instructions and engine events of a core stop in `onCore`, scans and the service of a die in `onDie`, and advances where they arrive. -/
theorem scannedDiesStop : Obligations.ScannedDiesStop := by
  unfold Obligations.ScannedDiesStop
  intro s q check ds n pass x lost
  have core (f : State → State) := onCore_of_lost lost f
  refine ⟨?_, ?_, fun b => core _, fun die hits scanned => if_pos scanned, fun i a found scanned => ?_⟩
  · simp only [List.forall_mem_cons, List.not_mem_nil, false_implies, implies_true, and_true]
    and_intros
    all_goals exact core _
  · simp only [List.forall_mem_cons, List.not_mem_nil, false_implies, implies_true, and_true]
    exact ⟨core _, core _, core _, core _, core _, core _, exec_tileSlotWaitDone_of_lost lost, core _, exec_uIssueWaitDone_of_lost lost,
      exec_descriptorSlotReady_of_lost lost ds, core _, core _, exec_tileReplayDone_of_lost lost pass x, exec_transferIssue_of_lost lost ds, core _, core _,
      core _, core _, core _, core _⟩
  · rw [exec, execMilepostAdvanceArrive, found]
    exact if_pos scanned

end Sys2Proof.Machine

/-! O54: the instructions of the TAP. -/

namespace Sys2Proof.Machine

open Sys2Proof.WB

/-! ### Values that a scan leaves undefined -/

theorem key_inj {e sub e' sub' : Nat} (low : sub < 256) (low' : sub' < 256) (same : Dict.key e sub = Dict.key e' sub') : (e, sub) = (e', sub') := by
  rw [Dict.key, Dict.key] at same
  rw [Prod.mk.injEq]
  omega

theorem State.setVal_latest_ne {s : State} {e sub e' sub' : Nat} (other : Dict.key e sub ≠ Dict.key e' sub') (v : Nat) :
    (s.setVal e' sub' v).latest e sub = s.latest e sub := by
  have items (n : Nat) : (s.setVal e' sub' v).flyItems n = s.flyItems n :=
    State.flyItems_congr (s := s) (t := s.setVal e' sub' v) rfl n
  have stored : Tab.get none (s.setVal e' sub' v).wbv (Dict.key e sub) = Tab.get none s.wbv (Dict.key e sub) := Tab.get_set_ne none s.wbv _ other
  unfold State.latest State.flyItem
  cases Dict.find e sub with
  | none => rfl
  | some r => cases ground : r.ground <;> simp [stored, items, ground]

theorem State.setVal_val_ne {s : State} {e sub e' sub' : Nat} (other : Dict.key e sub ≠ Dict.key e' sub') (v : Nat) :
    (s.setVal e' sub' v).val e sub = s.val e sub := by
  simp only [State.val, State.setVal_latest_ne other, State.setVal_held]

/-- The local counts of the dies of a list take free values (R608). -/
def State.scramble (s : State) (free : Nat) (new : List Nat) : State :=
  new.foldl (fun (t : State) d => t.setVal LOCAL_COUNT (d + 1) (Config.scannedCount d free % 2 ^ 64)) s

theorem State.scramble_keeps {α : Type} (f : State → α) (keeps : ∀ (s : State) (e sub v : Nat), f (s.setVal e sub v) = f s) (s : State) (free : Nat)
    (new : List Nat) : f (s.scramble free new) = f s :=
  foldl_keeps (fun s _ => keeps s _ _ _) _ _

theorem State.scramble_val {free e sub : Nat} {new : List Nat} (other : ∀ d ∈ new, Dict.key e sub ≠ Dict.key LOCAL_COUNT (d + 1)) (s : State) :
    (s.scramble free new).val e sub = s.val e sub := by
  induction new generalizing s with
  | nil => rfl
  | cons d new ih =>
    have rest := ih (fun d h => other d (List.mem_cons_of_mem _ h)) (s.setVal LOCAL_COUNT (d + 1) (Config.scannedCount d free % 2 ^ 64))
    exact rest.trans (State.setVal_val_ne (other d List.mem_cons_self) _)

/-- DIE_SELECT names the Tensor dies and H1. -/
theorem Tap.dies_le {t : Tap} {d : Nat} (h : d ∈ t.dies) : d ≤ 9 := by
  rw [Tap.dies, List.mem_append] at h
  rcases h with h | h
  · have := List.mem_range.mp (List.mem_of_mem_filter h)
    omega
  · split at h <;> simp_all

theorem mem_append_new {α : Type} [BEq α] [LawfulBEq α] (d : α) (old new : List α) :
    d ∈ old ++ new.filter (fun x => !old.contains x) ↔ d ∈ old ∨ d ∈ new := by
  by_cases h : d ∈ old <;> simp [h]

/-! ### Instructions -/

/-- The dies that a scan shifts and that no scan has stopped before. -/
def State.newlyScanned (s : State) : List Nat := s.tap.dies.filter fun d => !s.scanned.contains d

/-- The end of a scan of `n` bits that stops the dies of `new` (R607, R608). -/
def State.scanEnd (u : State) (n : Nat) (new : List Nat) : State :=
  { u with
    tap := { u.tap.load 0x20 with tdo := BitVec.ofNat 32 (scanWord u.freeCount n) }
    freeCount := u.freeCount + n
    scanned := u.scanned ++ new }

theorem State.scanEnd_tap {u s : State} (tap : u.tap = s.tap) (n : Nat) (new : List Nat) :
    (u.scanEnd n new).tap = { s.tap.load 0x20 with tdo := BitVec.ofNat 32 (scanWord u.freeCount n) } := by
  rw [State.scanEnd, tap]

theorem State.scanEnd_val (u : State) (n : Nat) (new : List Nat) (e sub : Nat) : (u.scanEnd n new).val e sub = u.val e sub :=
  State.val_congr (s := u) (t := u.scanEnd n new) rfl rfl rfl rfl rfl e sub

section
variable {s : State} (power : s.tapUp = true)
include power

theorem tapDo_of_available {ok : Bool} (available : ok = true) (ir : BitVec 8) (f : Tap → Tap) : tapDo ir s ok f = .next { s with tap := f s.tap } := by
  rw [tapDo, if_pos power, if_pos available]

/-- An instruction that is not available acts as BYPASS (R605). -/
theorem tapDo_of_unavailable {ok : Bool} (unavailable : ok = false) (ir : BitVec 8) (f : Tap → Tap) :
    tapDo ir s ok f = .next { s with tap := s.tap.bypass ir } := by
  rw [tapDo, if_pos power, if_neg (not_true_of_false unavailable)]

theorem exec_intScan_of_available (available : s.dieSelectOk = true) (bits : List Bool) :
    exec (.intScan bits) s = .next ((s.scramble (s.freeCount + bits.length) s.newlyScanned).scanEnd bits.length s.newlyScanned) := by
  rw [exec, execIntScan, if_pos power, if_pos available]
  exact rfl

theorem exec_intScan_of_unavailable (unavailable : s.dieSelectOk = false) (bits : List Bool) :
    exec (.intScan bits) s = .next { s with tap := s.tap.bypass 0x20 } := by
  rw [exec, execIntScan, if_pos power, if_neg (not_true_of_false unavailable)]

end

/-- Bits for every cell push out what stood in the register (R606). -/
theorem Tap.shift_of_whole (t : Tap) {cells : List Bool} (whole : cells.length = cellCount) : t.shift cells = cells := by
  rw [Tap.shift, whole, Nat.add_sub_cancel, List.drop_left]

section
variable {s : State} (running : s.phase = .running) (closed : s.val TAP_ENABLE 0 = 0)
include running closed

theorem State.not_extestOk : s.extestOk = false := by
  simp [State.extestOk, State.isReset, running, closed]

theorem State.not_dieSelectOk : s.dieSelectOk = false := by
  simp [State.dieSelectOk, State.isReset, running, closed]

end

/-- Settles O54: each instruction where it is available, and then where it is not. -/
theorem tapInstructionsComplete : Obligations.TapInstructionsComplete := by
  unfold Obligations.TapInstructionsComplete
  refine ⟨fun s cells bits v power => ?_, fun s cells bits v power => ?_⟩
  · intro on free now
    refine ⟨s.tap.shift_of_whole, ?_, ?_, ?_, ?_, fun ok => ⟨?_, ?_, ?_, ?_, ?_⟩, fun ok => ⟨?_, ?_⟩⟩
    · rw [exec, execTapReset, if_pos power]
      exact rfl
    · rw [exec, execIdcode, tapDo_of_available power rfl]
      exact rfl
    · rw [exec, execSamplePreload, if_pos power]
      exact tapDo_of_available (s := { s with freeCount := s.freeCount + laneCells }) power rfl 0x02 _
    · rw [exec, execBypass, tapDo_of_available power rfl]
      exact rfl
    · rw [exec, execExtest, tapDo_of_available power ok]
    · rw [exec, execExtestPulse, tapDo_of_available power ok]
    · rw [exec, execExtestTrain, tapDo_of_available power ok]
    · rw [exec, execClamp, tapDo_of_available power ok]
      exact rfl
    · rw [exec, execHighz, tapDo_of_available power ok]
      exact rfl
    · rw [exec, execDieSelect, tapDo_of_available power ok]
      exact rfl
    · have kept {α : Type} (f : State → α) (keeps : ∀ (s : State) (e sub v : Nat), f (s.setVal e sub v) = f s) :=
        State.scramble_keeps f keeps s (s.freeCount + bits.length) s.newlyScanned
      refine ⟨_, _, exec_intScan_of_available power ok bits, State.scanEnd_tap (kept State.tap fun _ _ _ _ => rfl) _ _,
        congrArg (· + bits.length) (kept State.freeCount fun _ _ _ _ => rfl), fun d => ?_, fun e sub low other => ?_, ?_⟩
      · rw [State.scanEnd, kept State.scanned fun _ _ _ _ => rfl]
        exact mem_append_new d _ _
      · have scanned (d : Nat) (h : d ∈ s.newlyScanned) : Dict.key e sub ≠ Dict.key LOCAL_COUNT (d + 1) := by
          have named : d ∈ s.tap.dies := List.mem_of_mem_filter h
          have := Tap.dies_le named
          exact fun same => other d named (key_inj low (by omega) same)
        rw [State.scanEnd_val, State.scramble_val scanned]
      · exact kept (fun u => { u with tap := s.tap, scanned := s.scanned, freeCount := s.freeCount, wbv := s.wbv }) fun _ _ _ _ => rfl
  · intro by_
    refine ⟨fun no => ⟨?_, ?_, ?_, ?_, ?_⟩, fun no => ⟨?_, exec_intScan_of_unavailable power no bits⟩,
      fun running closed => ⟨State.not_extestOk running closed, State.not_dieSelectOk running closed⟩⟩
    · rw [exec, execExtest, tapDo_of_unavailable power no]
      exact rfl
    · rw [exec, execExtestPulse, tapDo_of_unavailable power no]
      exact rfl
    · rw [exec, execExtestTrain, tapDo_of_unavailable power no]
      exact rfl
    · rw [exec, execClamp, tapDo_of_unavailable power no]
      exact rfl
    · rw [exec, execHighz, tapDo_of_unavailable power no]
      exact rfl
    · rw [exec, execDieSelect, tapDo_of_unavailable power no]
      exact rfl

end Sys2Proof.Machine
